-- ==== Sys2Proof/Word.lean ====
section
/-! DEFINITION. The word types of the NY6 and their plainest arithmetic. Multi-byte values are little-endian and
bit 0 is the least significant (R5). -/
namespace Sys2Proof

/-- 8 bits, the unit of memory (R5). -/
abbrev Byte := BitVec 8
/-- 16 bits: rank entries, h, bf, scales. -/
abbrev Half := BitVec 16
/-- 32 bits: a lane register slot (R31) and a scalar instruction word (R9). -/
abbrev Word := BitVec 32
/-- 64 bits: a scalar register and a CSR (R139, R151). -/
abbrev DWord := BitVec 64
/-- 96 bits: a lane instruction, w0 in the low word (R14). -/
abbrev LWord := BitVec 96
/-- A mask with one bit for each of the 32 lanes of a group. -/
abbrev LaneMask := BitVec 32
/-- The field of a scalar instruction that names s0 to s31 (R9). -/
abbrev SReg := BitVec 5

end Sys2Proof
end

