-- ==== Sys2Proof/Config.lean ====
section
/-! DEFINITION. What the part fixes (R1) and the free values: constants with no body, of which nothing can be proved. -/
namespace Sys2Proof
namespace Config

/-- Cores of a full part, and of a die (R1). -/
def cores : Nat := 384
def coresPerDie : Nat := 96
/-- Enabled L2 slices of a full part (R255). -/
def slices : Nat := 384
/-- Enabled HBM channels of a full part (R298). -/
def channels : Nat := 512
/-- Bytes of one HBM channel: 1.5 GiB (R298). -/
def channelBytes : Nat := 1610612736
/-- First address past the physical memory of a part with `c` channels (R298). -/
def paEnd (c : Nat) : Nat := c * channelBytes
/-- Core cycles of a microsecond, of a millisecond (R4: 1.8 GHz). -/
def usCycles : Nat := 1800
def msCycles : Nat := 1800000
/-- The part code of IDPART (R151). -/
def partCode : Nat := 6
/-- Pool bytes of a core (R166). -/
def poolBytes : Nat := 2097152
/-- The base of the timeline window (R422). -/
def timelineBase : Nat := 0x01FFFFFFFFE00000

/-- The value an implementation or the spec leaves open, by the counter that State holds (log entry 10). -/
opaque freeWord : Nat → BitVec 64
/-- A choice among `n` allowed outcomes that the spec leaves open (log entry 10). -/
opaque freeChoice : Nat → Nat
/-- The MAC of a capability: a keyed code over bits [127:32] whose function the spec does not give (R106, log entry 8). -/
opaque mac : BitVec 128 → BitVec 96 → BitVec 32
/-- The signature of ATTEST over a measurement (R334, log entry 8). -/
opaque attestSignature : BitVec 384 → List Byte
/-- The device's own interface identifier where no span of the rank tables holds its own rank (R372, log entry 81). -/
opaque ownIdentifier : BitVec 64
/-- The stepping of IDPART (R151). -/
opaque stepping : BitVec 8

end Config
end Sys2Proof
end

