-- ==== Sys2Proof/Syntax.lean ====
section
/-! DEFINITION. The steps of the machine: one constructor of `Instr` for each row of spec/opcode_table.json. The first
scalar instructions come first (R9 to R13), then the lane instructions (R14 to R19), CSR steps and the events of the
package; an event's arguments are what the agent it comes from supplies (spec/95). Steps without an operand stand last. -/
namespace Sys2Proof

/-- The fields of a lane instruction other than its opcode (R14). -/
structure LaneF where
  vd  : BitVec 7
  va  : BitVec 7
  vb  : BitVec 7
  vc  : BitVec 7
  pg  : BitVec 3
  pn  : BitVec 1
  td  : BitVec 4
  ta  : BitVec 4
  rm  : BitVec 3
  pl  : BitVec 3
  fn  : BitVec 7
  w2  : BitVec 32
deriving DecidableEq, Repr

/-- One lane of a register packet: sender lane, target lane, target absolute slot, value (R114). -/
structure RegLane where
  sender : Nat
  target : Nat
  slot   : Nat
  value  : BitVec 64
deriving DecidableEq, Repr

/-- A register packet (R114): the capability it was put through, its lanes and the width of a value. -/
structure RegPacket where
  cap    : BitVec 128
  wide   : Bool
  lanes  : List RegLane
  source : Nat          -- the rank that sent it
  put    : Nat          -- the sender's own number of the put
deriving DecidableEq, Repr

/-- One access a packet asks of its target's home (R354). -/
inductive HomeOp where
  | put (data : List Byte)
  | putElement (data : BitVec 32)
  | get (len : Nat)
  /-- An element as type `t`: decoded where it lies on a format page, else read as `plain` (none where only a format page serves). -/
  | getFormat (t : BitVec 4) (plain : Option (BitVec 4)) (rm : BitVec 3) (pl : BitVec 3)
  /-- The stored planes and block length of the format page a store of whole blocks goes to (R90, R302). -/
  | pageFormat
  /-- Whether a synchronising access of `n` bytes would be refused; nothing is performed (R87, R281). -/
  | scopeProbe (need n : Nat) (scope : BitVec 2)
  /-- An addition to a counter word by an engine (R238): the old value is answered; 0 asks whether it is one. -/
  | count (n : BitVec 64)
  /-- The whole line, for a `.keep` copy, where it can be read. -/
  | line
  /-- A synchronising load and store (R98, R281). -/
  | lda (len : Nat) (use : BitVec 3) (scope : BitVec 2)
  | str (data : List Byte) (use : BitVec 3) (scope : BitVec 2)
  | atom (op : BitVec 4) (t : BitVec 4) (use : BitVec 3) (scope : BitVec 2) (v : BitVec 64)
  | cas (t : BitVec 4) (use : BitVec 3) (scope : BitVec 2) (expect : BitVec 64) (v : BitVec 64)
  | sync (sub : BitVec 4) (ctr : Bool) (scope : BitVec 2) (v : BitVec 64)
deriving DecidableEq, Repr

/-- What a cell answers to a contribution of one slice (R392 to R394). -/
inductive CellReply where
  | result (words : List Word) (count : Nat) (nan : Bool)
  | short (words : List Word) (count : Nat) (nan : Bool)
  | closed
  | busy
  | lost
deriving DecidableEq, Repr

/-- A contribution to a reduction cell (R392). -/
structure CellContrib where
  leader  : Nat
  round   : BitVec 16
  leaders : Nat
  op      : BitVec 3
  opx     : BitVec 2
  int     : Bool
  slice   : Nat
  timer   : Nat
  words   : List Word
  source  : Nat
  ticket  : Nat         -- the leader's own number of the contribution
deriving DecidableEq, Repr

/-- What a piece of a collective holds: a member's contribution for its leader, a leader's local-set value for the other leaders, or data
of OP 2 to 4 (R387, R388). -/
inductive PieceKind where
  | member
  | leader
  | data
deriving DecidableEq, Repr

/-- A piece that one member's engine lands in another's staging buffer (R381): the buffer's global address, the round, whose value it is
(member or leader index, and its core), whether a NaN entered that value, and its words from element `first`. -/
structure Piece where
  stage : Nat
  round : BitVec 16
  kind  : PieceKind
  index : Nat
  core  : Nat
  nan   : Bool
  first : Nat
  words : List Word
deriving DecidableEq, Repr

/-- What a fabric packet carries (R358, R371). -/
inductive PktBody where
  | access (region : BitVec 4) (ops : List (BitVec 39 × HomeOp))
  | answer (ticket : Nat) (data : List (List Byte))
  /-- The access `index` of the packet met a fault; `precise` where it is raised at the source (R355). -/
  | fault (ticket : Nat) (cause : BitVec 8) (precise : Bool) (index : Nat)
  | register (p : RegPacket)
  | putOutcome (put : Nat) (status : BitVec 64)
  /-- A piece and the offset from its staging buffer's start where its bytes land. -/
  | piece (land : Nat) (p : Piece)
  | contribution (die : Nat) (cell : Nat) (c : CellContrib)
  | cellReply (ticket : Nat) (slice : Nat) (r : CellReply)
  | reserveRequest
  /-- A grant of 16 entries, and 16 returned because the messages that held them have been applied (R364). -/
  | reserveGrant
  | reserveBlock
  | reserveReturn (n : Nat)
  | unreachable (ticket : Nat)
  | retire (psn : BitVec 32)
  /-- A pod NACK (R358) and the remote transport's acknowledgement and NACK (R375, R376). -/
  | podNack (ticket : Nat)
  | ack (cum : BitVec 32) (bitmap : BitVec 64) (marked : Bool) (path : Nat)
  | nack (psn : BitVec 32)
  /-- Link permits for a pod port's channel (R363). -/
  | permit (port channel units : Nat)
deriving DecidableEq, Repr

/-- The addresses of a packet of the remote fabric: its IPv6 destination and source, and its UDP source port (R372). -/
structure WireAddr where
  target : BitVec 128
  source : BitVec 128
  port   : Half
deriving DecidableEq, Repr

/-- A packet of the pod or the remote fabric. `ticket` is the sender's number of the access it belongs to; `wire` is set where the remote
transport sends it (R372). -/
structure Packet where
  src    : Nat
  dst    : Nat
  device : Nat          -- the target's device number in the pod (R358)
  tenant : Nat          -- 0-7; 8 where none applies
  ticket : Nat
  cls    : Nat          -- traffic class 0-7
  hops   : Nat
  psn    : BitVec 32
  path   : Nat
  body   : PktBody
  wire   : Option WireAddr := none
  shares : List (Nat × Nat) := []   -- the RCBs whose fabric share it counts against, with the share (R309); not sent
deriving DecidableEq, Repr

/-- Where an uncorrectable error was found (R339). -/
inductive ErrorPlace where
  | memory (pa : Nat)
  | groupState (core slot : Nat)
  | pool (team : Nat)
  | codeSlot (core slot : Nat)
  | bank (core : Nat)
  | controller
deriving DecidableEq, Repr

/-- The counters ERRCNT returns (R340). -/
inductive ErrorCounter where
  | die (n : Nat)
  | stack (n : Nat)
  | link (n : Nat)
  | flits
  | frames
  | window
  | guardDrops
  | skipped
deriving DecidableEq, Repr

/-- What training found at boot: the enabled units and the wavelengths of each fibre (R341). -/
structure Topology where
  cores     : BitVec 384
  slices    : BitVec 384
  channels  : BitVec 512
  clusters  : BitVec 48
  lit       : List (Nat × Nat)   -- transmit and receive wavelengths of each fibre that is not full
deriving DecidableEq, Repr

/-- The request of GUARD (R346). -/
structure GuardReq where
  rank     : BitVec 20
  keyIndex : BitVec 4
  rootPA   : Nat
  regionPA : Nat
  pathPA   : Nat
  pathN    : Nat
  ranges   : List (Nat × Nat)
  reservedBits : Bool
deriving DecidableEq, Repr

/-- The steps of the machine. -/
inductive Instr where
  -- SYS
  | trap (code : BitVec 7)
  | brk (code : BitVec 7)
  | sleep (a : SReg)
  | csrr (d : SReg) (csr : BitVec 7)
  | csrw (a : SReg) (csr : BitVec 7)
  -- ALU
  | add (d a b : SReg)
  | sub (d a b : SReg)
  | mul (d a b : SReg)
  | mulh (d a b : SReg)
  | mulhn (d a b : SReg)
  | div (d a b : SReg)
  | divn (d a b : SReg)
  | rem (d a b : SReg)
  | remn (d a b : SReg)
  | and (d a b : SReg)
  | or (d a b : SReg)
  | xor (d a b : SReg)
  | shl (d a b : SReg)
  | shr (d a b : SReg)
  | sar (d a b : SReg)
  | slt (d a b : SReg)
  | sltn (d a b : SReg)
  | seq (d a b : SReg)
  | min (d a b : SReg)
  | max (d a b : SReg)
  | minn (d a b : SReg)
  | maxn (d a b : SReg)
  | sel (d a b : SReg) (c : BitVec 3)
  -- immediates
  | addi (d a : SReg) (imm : BitVec 16)
  | andi (d a : SReg) (imm : BitVec 16)
  | ori (d a : SReg) (imm : BitVec 16)
  | xori (d a : SReg) (imm : BitVec 16)
  | shli (d a : SReg) (n : BitVec 6)
  | shri (d a : SReg) (n : BitVec 6)
  | sari (d a : SReg) (n : BitVec 6)
  | slti (d a : SReg) (imm : BitVec 16)
  | lui (d : SReg) (imm : BitVec 16)
  | shlor (d a : SReg) (imm : BitVec 16)
  -- scalar memory
  | lds (d a : SReg) (disp : BitVec 16)
  | ldw (d a : SReg) (disp : BitVec 16)
  | sts (d a : SReg) (disp : BitVec 16)
  | stw (d a : SReg) (disp : BitVec 16)
  | satom (d a b : SReg) (scope : BitVec 2) (use : BitVec 3) (narrow : BitVec 1) (op : BitVec 4)
  | scas (d a b : SReg) (scope : BitVec 2) (use : BitVec 3) (narrow : BitVec 1)
  -- branches, jumps, calls
  | beq (a b : SReg) (disp : BitVec 16)
  | bne (a b : SReg) (disp : BitVec 16)
  | blt (a b : SReg) (disp : BitVec 16)
  | bge (a b : SReg) (disp : BitVec 16)
  | bltn (a b : SReg) (disp : BitVec 16)
  | bgen (a b : SReg) (disp : BitVec 16)
  | bct (c : BitVec 3) (disp : BitVec 16)
  | bcf (c : BitVec 3) (disp : BitVec 16)
  | jal (disp : BitVec 26)
  | jalr (d a : SReg) (imm : BitVec 16)
  | jmpf (d a : SReg) (imm : BitVec 16)
  | call (k : BitVec 5) (disp : BitVec 16)
  | ret (k : BitVec 3)
  -- lane work, splits, waits
  | lrun (n : BitVec 16)
  | lset (a : SReg) (imm : BitVec 16)
  | brv (neg : BitVec 1) (p : BitVec 3) (disp : BitVec 16)
  | jmpv (v : BitVec 6)
  | join (a : SReg) (id : BitVec 4)
  | regroup (d a : SReg)
  | waitc (loads stores copies tiles : BitVec 6)
  | waitt (mask : BitVec 8)
  | yieldt (k : BitVec 3) (disp : BitVec 16)
  | qpush (a : SReg) (c : BitVec 3) (nb : BitVec 1) (q : BitVec 4)
  | qpop (d : SReg) (c : BitVec 3) (nb : BitVec 1) (q : BitVec 4)
  -- synchronisation
  | fence (scope : BitVec 2) (kind : BitVec 2)
  | syncinit (a b : SReg) (ctr : BitVec 1) (scope : BitVec 2)
  | syncfree (a : SReg) (scope : BitVec 2)
  | arrive (d a b : SReg) (scope : BitVec 2)
  | bwait (a b : SReg) (scope : BitVec 2)
  | waittl (a b : SReg) (scope : BitVec 2)
  -- engines and memory control
  | spawn (d a : SReg)
  | cfetch (a : SReg) (k : BitVec 3) (slot : BitVec 5)
  | pin (a b : SReg)
  | unpin (a b : SReg)
  | wspill (a b : SReg)
  | wfill (a b : SReg)
  | copy (d a b : SReg) (cls q : BitVec 2) (op : BitVec 4) (k : BitVec 3)
  | tcopy (d a b : SReg) (cls q : BitVec 2) (op : BitVec 4) (k : BitVec 3)
  | gcopy (d a b : SReg) (cls q : BitVec 2) (k : BitVec 3)
  | coll (d a : SReg) (red : BitVec 3) (op : BitVec 4) (tile : BitVec 4)
  | tcfg (a : SReg)
  | tzero (tile : BitVec 4)
  | tld (sat : BitVec 1) (a b : SReg) (rm : BitVec 3) (tile : BitVec 4)
  | tst (sat : BitVec 1) (a b : SReg) (rm : BitVec 3) (tile : BitVec 4)
  | mfence (d : SReg)
  | mloop (tile : BitVec 4) (a b k : SReg)
  | rktbl (a : SReg) (table : BitVec 2)
  | rkenc (d a : SReg)
  | rkmm (tile : BitVec 4) (a : SReg) (table : BitVec 2)
  | rkval (a b : SReg) (bf : BitVec 1) (table : BitVec 2)
  | ptnext (d : SReg) (audit point : BitVec 3) (first : BitVec 6)
  | ptdone (a : SReg)
  | rcap (d a : SReg)
  -- lane instructions
  | iadd (f : LaneF) | isub (f : LaneF) | imul (f : LaneF) | imulh (f : LaneF) | imad (f : LaneF) | idiv (f : LaneF)
  | irem (f : LaneF) | imin (f : LaneF) | imax (f : LaneF) | iabs (f : LaneF) | ineg (f : LaneF) | laneAnd (f : LaneF)
  | laneOr (f : LaneF) | laneXor (f : LaneF) | andn (f : LaneF) | laneNot (f : LaneF) | laneShl (f : LaneF)
  | laneShr (f : LaneF) | laneSar (f : LaneF) | rot (f : LaneF) | clz (f : LaneF) | popc (f : LaneF) | brev (f : LaneF)
  | bfx (f : LaneF) | bfi (f : LaneF) | icmp (f : LaneF) | laneSel (f : LaneF) | mov (f : LaneF)
  | fadd (f : LaneF) | fsub (f : LaneF) | fmul (f : LaneF) | fma (f : LaneF) | fmin (f : LaneF) | fmax (f : LaneF)
  | fabs (f : LaneF) | fneg (f : LaneF) | fcmp (f : LaneF) | frcp (f : LaneF) | frsq (f : LaneF) | fsqrt (f : LaneF)
  | fexp2 (f : LaneF) | flog2 (f : LaneF) | fsinpi (f : LaneF) | fcospi (f : LaneF) | fscale (f : LaneF)
  | fclass (f : LaneF) | frint (f : LaneF) | fdiv (f : LaneF)
  | hadd2 (f : LaneF) | hmul2 (f : LaneF) | hfma2 (f : LaneF) | idot4 (f : LaneF) | idot2 (f : LaneF)
  | cvt (f : LaneF) | cvtp (f : LaneF) | cvtx (f : LaneF) | bpenc (f : LaneF) | bpdec (f : LaneF)
  | pand (f : LaneF) | por (f : LaneF) | pxor (f : LaneF) | pnot (f : LaneF) | lkill (f : LaneF)
  | ld (f : LaneF) | st (f : LaneF) | ldt (f : LaneF) | stt (f : LaneF) | atom (f : LaneF) | cas (f : LaneF)
  | lda (f : LaneF) | str (f : LaneF) | pref (f : LaneF)
  | shfl (f : LaneF) | vote (f : LaneF) | redl (f : LaneF) | scan (f : LaneF) | xshfl (f : LaneF)
  | rarm (f : LaneF) | rput (f : LaneF) | rclr (f : LaneF)
  -- CSR steps of the executing split
  -- groups and splits
  | registerArrival (p : RegPacket)
  | rputOutcome (put : Nat)
  | reservationRequest (source : Nat)
  | reservationGrant (source target : Nat)
  | reservationIdleReturn (source target : Nat)
  | rejoinDeadlock (core slot : Nat)
  | regroupFuse (core slotA slotB : Nat)
  | memoryAccessComplete (core slot access : Nat)
  | waitcRelease (core slot split : Nat)
  | waittRelease (core slot split : Nat)
  | yieldtWake (core slot split : Nat)
  | queueWaitRelease (core slot split : Nat)
  | fenceComplete (core slot split : Nat)
  | bwaitRelease (core slot split : Nat)
  | waittlRelease (core slot split : Nat)
  | barComplete (team : Nat)
  | transactionBytesLand (entry bytes : Nat)
  | xshflCommit (coreA slotA coreB slotB : Nat)
  | overlayLanded (core slot : Nat)
  | faultReplay (core slot : Nat)
  -- matrix, rank, cluster
  | mloopStep (core : Nat)
  | matrixOpComplete (core : Nat)
  | rkencComplete (core : Nat)
  | teamPlacement (cluster launch handle : Nat)
  | groupSave (core slot : Nat)
  | groupSaveComplete (core slot : Nat)
  | teamPoolSave (team : Nat)
  | groupRestore (core slot : Nat)
  -- copy engines, coverage
  | copyEntryTake (queue : Nat)
  | abandoned (queue : Nat)
  | triggeredEntryFire (entry : Nat)
  | copyEntryComplete (entry : Nat)
  | ptnextDispatch (core slot split : Nat)
  | tileReconstruct (launch : Nat)
  -- die and package memory
  | l2MissFill (line : Nat)
  | pinRevocation (shoot : Nat)
  | shootdownComplete (shoot : Nat)
  | migrationComplete (migration : Nat)
  -- launches
  | graphInstanceStart (graph : Nat)
  | mergeUnitTake (merger : Nat)
  | preemption (launch handle : Nat)
  | teamRetire (team : Nat)
  | nodeComplete (launch handle : Nat)
  | launchComplete (launch : Nat)
  -- fabric
  | podPacketForward (die dest : Nat)
  -- collectives
  | collectiveComplete (team : Nat)
  | cellContribution (die cell : Nat) (c : CellContrib)
  | cellAnswer (team slice : Nat) (r : CellReply)
  | cellLostRerun (team : Nat)
  -- timers and links
  | sleepExpiry (core slot split : Nat)
  | cellBusyResend (team slice : Nat)
  | ringStalled (ring : Nat)
  | collectiveTimeout (team : Nat)
  | priorityAgeing (launch handle : Nat)
  | chainWaitTimeout (merger : Nat)
  | cellTimerExpiry (die cell : Nat)
  | arrivalTimeout (core slot : Nat)
  | packetAged (die dest : Nat)
  | retransmitTimeout (peer : Nat) (psn : BitVec 32)
  | pathWeightRestore (set path : Nat)
  | turnroundPauseEnd (fibre : Nat)
  | spareRetrainingPauseEnd (port : Nat)
  | rankWalk (die rank : Nat)
  | pageWalk (core asid va : Nat)
  | powerLimiterSample (milliwatts : Nat)
  -- steps that only the schedule or the outside names
  | rsbWrite (a : SReg)
  | spbWrite (a : SReg)
  | flagsAccess (write ints : Bool) (r : SReg)
  | cqbWrite (k : BitVec 2) (a : SReg)
  | ovwcntWrite (a : SReg)
  | loadfw (tag : Byte) (verified : Bool) (measurement : BitVec 384) (topo : Topology)
  | attest (tag : Byte)
  | keyload (tag : Byte) (index : BitVec 4) (key : BitVec 128)
  | guard (tag : Byte) (req : GuardReq)
  | asreg (tag : Byte) (asid : Byte) (root : Nat)
  | ringreg (tag : Byte) (asid : Byte) (desc : Nat)
  | slottbl (tag : Byte) (kind : Nat) (entries : List (BitVec 4)) (strict : Byte)
  | shoot (tag : Byte) (asid : Byte) (va len : Nat) (remap : Bool)
  | migrate (tag : Byte) (asid : Byte) (va size frame scale : Nat)
  | cancel (tag : Byte) (packet : Nat)
  | pageans (tag : Byte) (asid : Byte) (va : Nat) (mapped : Bool)
  | evring (tag : Byte) (base : Nat) (log2n : Nat)
  | evack (tag : Byte) (index : Nat) (clear : Bool)
  | powercap (tag : Byte) (watts : Nat)
  | topo (tag : Byte)
  | errcnt (tag : Byte) (counter : ErrorCounter)
  | fread (tag : Byte) (ack : Nat)
  | cells (tag : Byte) (n die : Nat)
  | cellfree (tag : Byte) (first count die : Nat)
  | laserInterlock (fibre : Nat)
  | commandLinkTimeout (cluster : Nat)
  | uncorrectableError (place : ErrorPlace)
  | correctableError (counter : ErrorCounter)
  | mediaFrameComplete (job depth : Nat) (samples : List (List (List Nat)))
  | mediaJobComplete (job : Nat) (ok : Bool)
  | targetFaultAnswer (ticket : Nat) (cause : BitVec 8) (precise : Bool) (index : Nat)
  | podPacketReceive (die port : Nat) (p : Packet) (crcOk : Bool)
  | podNack (dest ticket : Nat)
  | linkPermitReturn (port channel units : Nat)
  | wavelengthFailure (fibre : Nat) (transmit : Bool)
  | remotePacketReceive (p : Packet) (headerOk tagOk marked : Bool)
  | remoteAck (peer : Nat) (cum : BitVec 32) (bitmap : BitVec 64) (marked : Bool) (path : Nat)
  | remoteNack (peer : Nat) (psn : BitVec 32)
  | trimmedPacketNotice (peer : Nat) (psn : BitVec 32)
  | retireNotice (peer : Nat) (psn : BitVec 32)
  | precisionTimeProtocolMessage (time : Nat)
  | retriedFlit (link : Nat)
  -- steps without an operand
  | nop
  | eret
  | exit
  | bar
  | rfence
  | rrev
  | launchIntake
  | graphReplayIntake
  | nodeDispatch
  | watchdog
  | boot
  | heartbeat
  | circuitPhaseStart
  | circuitGapStart
deriving DecidableEq, Repr

end Sys2Proof
end

