-- ==== Sys2Proof/WellFormed.lean ====
section
/-! DEFINITION. Which instructions are legal by their bits alone: a reserved or unaccepted operand, type, rounding, use or
mode code raises ILLEGAL whatever the guard (R14, R20). Checks that need a register or memory are the meanings'. -/
namespace Sys2Proof

/-- i64 and n64, which take even-odd register pairs (R16, R42). -/
def wideType (t : BitVec 4) : Bool := t == 6 || t == 7
/-- i8 to n64 (R59: "int"). -/
def intType (t : BitVec 4) : Bool := t ≤ 7
/-- i8, i16, i32, i64. -/
def signedType (t : BitVec 4) : Bool := t == 0 || t == 2 || t == 4 || t == 6
/-- h, bf and f (R65). -/
def arithFloat (t : BitVec 4) : Bool := t == 10 || t == 11 || t == 12
/-- Codes 0-12: the types CVT takes (R75). -/
def convType (t : BitVec 4) : Bool := t ≤ 12
/-- i32, n32, i64, n64, f: the types of atomics and of REDL and SCAN (R92, R100). -/
def wordType (t : BitVec 4) : Bool := t == 4 || t == 5 || t == 6 || t == 7 || t == 12

/-- A source operand code (R15); a 64-bit operand names an even v register. -/
def srcOk (wide : Bool) (c : BitVec 7) : Bool :=
  (c ≤ 63 && !(wide && c.getLsbD 0)) || (64 ≤ c && c ≤ 100) || c == 127
/-- A source that may not be the immediate (R83, R92). -/
def srcOkNoImm (wide : Bool) (c : BitVec 7) : Bool := srcOk wide c && c != 127
/-- A destination operand code outside VOTE and REDL (R15). -/
def dstOk (wide : Bool) (c : BitVec 7) : Bool := (c ≤ 63 && !(wide && c.getLsbD 0)) || c == 96
/-- A destination of VOTE or REDL, where s registers may stand (R15, R105). -/
def dstOrScalarOk (wide : Bool) (c : BitVec 7) : Bool := dstOk wide c || (64 ≤ c && c ≤ 95)
/-- A field that names a predicate in bits [2:0] (R58). -/
def predOk (c : BitVec 7) : Bool := c ≤ 7
/-- The base of a lane address: an s register or an even v register (R83). -/
def baseOk (c : BitVec 7) : Bool := (c ≤ 63 && !c.getLsbD 0) || (64 ≤ c && c ≤ 95)
/-- A scalar code 64-95. -/
def scalarCode (c : BitVec 7) : Bool := 64 ≤ c && c ≤ 95
/-- w2 is used only where an operand is code 127 (R14, R55). -/
def immOk (f : LaneF) (ops : List (BitVec 7)) : Bool := f.w2 == 0 || ops.any (· == 127)
def roundOk (rm : BitVec 3) : Bool := rm ≤ 4

/-- A register form of R59, R65 or R72: `n` sources of width class `w`, one destination, rm, type and fn as given. -/
def regForm (f : LaneF) (n : Nat) (wd ws : Bool) (rnd : Bool) (fnMask : BitVec 7) : Bool :=
  dstOk wd f.vd && srcOk ws f.va && (if 2 ≤ n then srcOk ws f.vb else f.vb == 0)
    && (if 3 ≤ n then srcOk ws f.vc else f.vc == 0)
    && (if rnd then roundOk f.rm else f.rm == 0) && f.pl == 0 && (f.fn &&& ~~~fnMask) == 0
    && immOk f ([f.va] ++ (if 2 ≤ n then [f.vb] else []) ++ (if 3 ≤ n then [f.vc] else []))

/-- Integer forms: td = ta = T with T an integer type (R59). -/
def intForm (f : LaneF) (n : Nat) (fnMask : BitVec 7) : Bool :=
  intType f.td && f.ta == f.td && regForm f n (wideType f.td) (wideType f.td) false fnMask
/-- Integer forms of signed types only: IABS, INEG. -/
def signedForm (f : LaneF) : Bool := signedType f.td && intForm f 1 1
/-- Shifts and BFX: the second operand is a count or control read as n32 (R59). -/
def countForm (f : LaneF) : Bool :=
  intType f.td && f.ta == f.td && dstOk (wideType f.td) f.vd && srcOk (wideType f.td) f.va && srcOk false f.vb
    && f.vc == 0 && f.rm == 0 && f.pl == 0 && f.fn == 0 && immOk f [f.va, f.vb]
/-- Floating forms of h, bf and f (R65). -/
def floatForm (f : LaneF) (n : Nat) (rnd : Bool) (fnMask : BitVec 7) : Bool :=
  arithFloat f.td && f.ta == f.td && regForm f n false false rnd fnMask
/-- Packed floating forms (R72). -/
def packedForm (f : LaneF) (n : Nat) : Bool :=
  (f.td == 10 || f.td == 11) && f.ta == f.td && regForm f n false false true 0
/-- IDOT4 and IDOT2: `elem` tells the element types (R72). -/
def dotForm (f : LaneF) (elem : BitVec 4 → Bool) : Bool :=
  (f.td == 4 || f.td == 6) && elem f.ta && dstOk (wideType f.td) f.vd && srcOk false f.va && srcOk false f.vb
    && srcOk (wideType f.td) f.vc && f.rm == 0 && f.pl == 0 && f.fn ≤ 3 && immOk f [f.va, f.vb, f.vc]
/-- Compares write a predicate (R58). -/
def cmpForm (f : LaneF) (t : BitVec 4 → Bool) (lastCond : BitVec 7) : Bool :=
  t f.td && f.ta == f.td && predOk f.vd && srcOk (wideType f.td) f.va && srcOk (wideType f.td) f.vb && f.vc == 0
    && f.rm == 0 && f.pl == 0 && (f.fn &&& 7) ≤ lastCond && (f.fn >>> 3) ≤ 2 && immOk f [f.va, f.vb]
/-- SEL and MOV take every type that registers hold (R59). -/
def copyType (t : BitVec 4) : Bool := t ≤ 12 || t == 14
/-- Predicate logic (R80). -/
def predForm (f : LaneF) (two : Bool) : Bool :=
  predOk f.vd && predOk f.va && (if two then predOk f.vb && f.fn ≤ 3 else f.vb == 0 && f.fn == 0) && f.vc == 0
    && f.td == 0 && f.ta == 0 && f.rm == 0 && f.pl == 0 && f.w2 == 0
def packType (t : BitVec 4) : Bool :=
  t == 0 || t == 1 || t == 2 || t == 3 || t == 8 || t == 9 || t == 10 || t == 11
def halfType (t : BitVec 4) : Bool := t == 2 || t == 3 || t == 10 || t == 11
/-- ATOM's operation against its type (R95). -/
def atomOpOk (t : BitVec 4) (op : BitVec 7) : Bool :=
  if t == 12 then op == 0 || (4 ≤ op && op ≤ 8) else op ≤ 5 || op == 8
/-- The declared uses of R96 for ATOM. -/
def atomUseOk (f : LaneF) : Bool :=
  let op := f.fn &&& 15
  match f.rm with
  | 1 => f.vd == 96 && op ≤ 5
  | 3 => f.vd == 96 && op == 0 && f.td != 12
  | 4 => false
  | _ => true
/-- Fields every memory form with a displacement shares. -/
def memForm (f : LaneF) : Bool := f.ta == f.td && baseOk f.va
/-- fn holds only a scope, in [5:4]. -/
def scopeFn (f : LaneF) : Bool := (f.fn &&& 0b1001111) == 0

/-- Legality of a lane instruction by its bits (R14 to R19 and the encoding table of its chapter). -/
def laneOk : Instr → Bool
  | .iadd f | .isub f | .imul f => intForm f 2 1
  | .imulh f | .idiv f | .irem f | .imin f | .imax f => intForm f 2 0
  | .laneAnd f | .laneOr f | .laneXor f | .andn f => intForm f 2 0
  | .imad f => intForm f 3 1
  | .iabs f | .ineg f => signedForm f
  | .laneNot f | .clz f | .popc f | .brev f => intForm f 1 0
  | .laneShl f | .laneShr f | .laneSar f | .rot f | .bfx f => countForm f
  | .bfi f => intType f.td && f.ta == f.td && dstOk (wideType f.td) f.vd && srcOk (wideType f.td) f.va
      && srcOk (wideType f.td) f.vb && srcOk false f.vc && f.rm == 0 && f.pl == 0 && f.fn == 0
      && immOk f [f.va, f.vb, f.vc]
  | .icmp f => cmpForm f intType 5
  | .laneSel f => copyType f.td && f.ta == f.td && regForm f 2 (wideType f.td) (wideType f.td) false 15
  | .mov f => copyType f.td && f.ta == f.td && regForm f 1 (wideType f.td) (wideType f.td) false 0
  | .fadd f | .fsub f | .fmul f | .fdiv f | .fscale f => floatForm f 2 true 0
  | .fma f => floatForm f 3 true 0
  | .fmin f | .fmax f => floatForm f 2 false 1
  | .fabs f | .fneg f => floatForm f 1 false 0
  | .fcmp f => cmpForm f arithFloat 7
  | .frcp f | .frsq f | .fsqrt f | .fexp2 f | .flog2 f | .fsinpi f | .fcospi f | .frint f => floatForm f 1 true 0
  | .fclass f => f.td == 5 && arithFloat f.ta && regForm f 1 false false false 0
  | .hadd2 f | .hmul2 f => packedForm f 2
  | .hfma2 f => packedForm f 3
  | .idot4 f => dotForm f (· ≤ 1)
  | .idot2 f => dotForm f (fun t => t == 2 || t == 3)
  | .cvt f => convType f.td && convType f.ta && regForm f 1 (wideType f.td) (wideType f.ta) true 1
  | .cvtp f => packType f.td && (f.ta == 4 || f.ta == 5 || arithFloat f.ta) && regForm f 2 false false true 3
      && !(halfType f.td && f.fn.getLsbD 0)
  | .cvtx f => (halfType f.td || f.td == 4 || f.td == 5 || f.td == 12) && packType f.ta
      && regForm f 1 false false true 7 && !(halfType f.ta && f.fn.getLsbD 1)
  | .bpenc f => f.td == 13 && arithFloat f.ta && (if f.fn == 1 then regForm f 2 true false true 1
      else regForm f 1 false false true 0)
  | .bpdec f => arithFloat f.td && f.ta == 13 && regForm f 1 false false true 7
  | .pand f | .por f | .pxor f => predForm f true
  | .pnot f => predForm f false
  | .lkill f => f.vd == 0 && f.va == 0 && f.vb == 0 && f.vc == 0 && f.td == 0 && f.ta == 0 && f.rm == 0 && f.pl == 0
      && f.fn == 0 && f.w2 == 0
  | .ld f => memForm f && f.td ≤ 14 && dstOk (wideType f.td) f.vd && f.vb == 0 && f.vc == 0 && roundOk f.rm && f.fn ≤ 1
  | .st f => memForm f && f.td ≤ 14 && f.vd == 0 && srcOkNoImm (wideType f.td || f.fn == 1) f.vb && f.vc == 0
      && f.rm == 0 && f.pl == 0 && (f.fn == 0 || (f.fn == 1 && f.td == 13))
  | .ldt f => f.ta == f.td && f.td ≤ 14 && dstOk (wideType f.td) f.vd && scalarCode f.va && f.vb ≤ 63 && f.vc == 0
      && roundOk f.rm && f.fn == 0 && f.w2 == 0
  | .stt f => f.ta == f.td && f.td ≤ 14 && f.vd == 0 && scalarCode f.va && f.vb ≤ 63
      && srcOkNoImm (wideType f.td) f.vc && roundOk f.rm && f.pl == 0 && f.fn ≤ 1 && f.w2 == 0
  | .atom f => memForm f && wordType f.td && dstOk (wideType f.td) f.vd && srcOkNoImm (wideType f.td) f.vb && f.vc == 0
      && f.fn ≤ 63 && atomOpOk f.td (f.fn &&& 15) && atomUseOk f && (f.pl == 0 || f.rm == 3)
  | .cas f => memForm f && wordType f.td && dstOk (wideType f.td) f.vd && srcOkNoImm (wideType f.td) f.vb
      && srcOkNoImm (wideType f.td) f.vc && scopeFn f && f.pl == 0 && f.rm != 1 && f.rm != 3 && f.rm != 4
  | .lda f => memForm f && wordType f.td && dstOk (wideType f.td) f.vd && f.vb == 0 && f.vc == 0 && scopeFn f
      && f.pl == 0 && (f.rm == 0 || f.rm == 2 || f.rm == 4 || f.rm == 5)
  | .str f => memForm f && wordType f.td && f.vd == 0 && srcOkNoImm (wideType f.td) f.vb && f.vc == 0 && scopeFn f
      && f.pl == 0 && (f.rm == 0 || f.rm == 2 || f.rm == 6)
  | .pref f => memForm f && f.td == 0 && f.vd == 0 && f.vb == 0 && f.vc == 0 && f.rm == 0 && f.pl == 0 && f.fn ≤ 1
  | .shfl f => (f.td == 5 || f.td == 7) && f.ta == f.td && dstOk (wideType f.td) f.vd && srcOk (wideType f.td) f.va
      && srcOk false f.vb && predOk f.vc && f.rm == 0 && f.pl == 0 && (f.fn >>> 2) ≤ 4 && immOk f [f.va, f.vb]
  | .vote f => dstOrScalarOk false f.vd && predOk f.va && f.vb == 0 && f.vc == 0 && f.td == 0 && f.ta == 0 && f.rm == 0
      && f.pl == 0 && f.fn ≤ 7 && f.w2 == 0
  | .redl f => wordType f.td && f.ta == f.td && dstOrScalarOk (wideType f.td) f.vd && srcOk (wideType f.td) f.va
      && f.vb == 0 && f.vc == 0 && f.pl == 0 && f.fn ≤ 7 && immOk f [f.va]
      && (if f.td == 12 then !(3 ≤ f.fn && f.fn ≤ 5) && (if f.fn == 0 then roundOk f.rm else f.rm == 0)
          else f.fn ≤ 5 && f.rm == 0)
  | .scan f => wordType f.td && f.ta == f.td && dstOk (wideType f.td) f.vd && srcOk (wideType f.td) f.va
      && f.vb == 0 && f.vc == 0 && f.pl == 0 && f.fn ≤ 15 && immOk f [f.va] && (f.fn &&& 7) ≤ 5
      && (if f.td == 12 then (f.fn &&& 7) ≤ 2 && (if (f.fn &&& 7) == 0 then roundOk f.rm else f.rm == 0) else f.rm == 0)
  | .xshfl f => (f.td == 5 || f.td == 7) && f.ta == f.td && dstOk (wideType f.td) f.vd && srcOk (wideType f.td) f.va
      && scalarCode f.vb && f.rm == 0 && f.pl == 0 && f.fn ≤ 31 && (f.fn &&& 3) != 3
      && (if (f.fn &&& 3) == 0 then f.vc == 0 && immOk f [f.va] else srcOk false f.vc && immOk f [f.va, f.vc])
  | .rarm f => f.vd ≤ 63 && f.vd.toNat + (f.fn >>> 1).toNat ≤ 63 && f.va == 0 && f.vb == 0 && f.vc == 0 && f.td == 0
      && f.ta == 0 && f.rm == 0 && f.pl == 0 && f.w2 == 0
  | .rclr f => f.vd ≤ 63 && f.vd.toNat + (f.fn >>> 1).toNat ≤ 63 && f.va == 0 && f.vb == 0 && f.vc == 0 && f.td == 0
      && f.ta == 0 && f.rm == 0 && f.pl == 0 && f.w2 == 0 && !f.fn.getLsbD 0
  | .rput f => f.vd == 0 && scalarCode f.va && !f.va.getLsbD 0 && f.va != 64 && srcOk false f.vb
      && srcOk (wideType f.td) f.vc && (f.td == 5 || f.td == 7) && f.ta == f.td && f.rm == 0 && f.pl == 0 && f.fn ≤ 7
      && immOk f [f.vb, f.vc]
  | _ => true

/-- Legality of a scalar instruction by its bits, where R11 to R13 refuse a field's value. -/
def scalarOk : Instr → Bool
  | .satom d _ _ _ use _ op => op ≤ 8 && use != 3 && use != 4 && (use != 1 || (d == 0 && op != 8))
  | .scas _ _ _ _ use _ => use != 1 && use != 3 && use != 4
  | .call k _ => k ≤ 7
  | .lrun n => 1 ≤ n && n ≤ 256
  | .qpush _ c nb _ => nb == 1 || c == 0
  | .qpop _ c nb _ => nb == 1 || c == 0
  | .fence _ kind => kind != 3
  | .copy _ _ _ cls _ op _ => cls != 3 && op ≤ 10
  | .tcopy _ _ _ cls _ op _ => cls != 3 && op ≤ 10
  | .gcopy _ _ _ cls _ _ => cls != 3
  | .coll _ _ red op _ => op ≤ 4 && red ≤ 5 && (op ≤ 1 || red == 0)
  | .tld _ _ _ rm _ => roundOk rm
  | .tst _ _ _ rm _ => roundOk rm
  | .ptnext _ audit point first => first ≤ 61 && (audit != point || audit == 0)
  | .rcap d _ => d != 0 && !d.getLsbD 0
  | _ => true

/-- Legality by the bits alone. An event is no encoding and is always legal. -/
def Instr.wf (i : Instr) : Bool := laneOk i && scalarOk i

end Sys2Proof
end

