-- ==== Sys2Proof/Decode.lean ====
section
/-! DEFINITION. From the words of the two instruction streams to instructions and back (R6 to R20). Decoding is total and
refuses by name; what it refuses raises ILLEGAL (R20). -/
namespace Sys2Proof

/-- Why a word names no instruction (R20). -/
inductive Reject where
  /-- Major 0x39 to 0x3F. -/
  | reservedMajor
  /-- A subcode or operation that is not listed. -/
  | reservedSubcode
  /-- A lane opcode outside R19's table. -/
  | reservedOpcode
  /-- A reserved field or bit that is not zero. -/
  | reservedField
  /-- Fewer bytes than the instruction has. -/
  | truncated
deriving DecidableEq, Repr

/-- The field of `len` bits from bit `lo` up (R5). -/
def fld {n : Nat} (w : BitVec n) (lo len : Nat) : BitVec len := BitVec.ofNat len (w.toNat / 2 ^ lo)

/-- `k` bytes, the lowest address first, as a number (R5). -/
def leNat : List Byte → Nat
  | [] => 0
  | b :: bs => b.toNat + 256 * leNat bs
/-- The low `k` bytes of a number, the lowest address first (R5). -/
def leBytes : Nat → Nat → List Byte
  | 0, _ => []
  | k + 1, n => BitVec.ofNat 8 n :: leBytes k (n / 256)

/-- Accept `i` where the fields the row marks 0 are zero (R11). -/
def zeroed (ok : Bool) (i : Instr) : Except Reject Instr := if ok then .ok i else .error .reservedField

/-- SYS, selected by fn[3:0] (R12). -/
def decodeSys (w : Word) : Except Reject Instr :=
  let d := fld w 21 5; let a := fld w 16 5; let b := fld w 11 5; let code := fld w 4 7
  match (fld w 0 4).toNat with
  | 0 => zeroed (d == 0 && a == 0 && b == 0 && code == 0) .nop
  | 1 => zeroed (d == 0 && a == 0 && b == 0) (.trap code)
  | 2 => zeroed (d == 0 && a == 0 && b == 0 && code == 0) .eret
  | 3 => zeroed (d == 0 && a == 0 && b == 0) (.brk code)
  | 4 => zeroed (d == 0 && b == 0 && code == 0) (.sleep a)
  | 5 => zeroed (a == 0 && b == 0) (.csrr d code)
  | 6 => zeroed (d == 0 && b == 0) (.csrw a code)
  | 7 => zeroed (d == 0 && a == 0 && b == 0 && code == 0) .exit
  | _ => .error .reservedSubcode

/-- ALU, selected by fn[4:0]; fn[7:5] is zero but in SEL, fn[10:8] always (R11, R12, R139). -/
def decodeAlu (w : Word) : Except Reject Instr :=
  let d := fld w 21 5; let a := fld w 16 5; let b := fld w 11 5; let c := fld w 5 3; let top := fld w 8 3
  let z := c == 0 && top == 0
  match (fld w 0 5).toNat with
  | 0 => zeroed z (.add d a b) | 1 => zeroed z (.sub d a b) | 2 => zeroed z (.mul d a b) | 3 => zeroed z (.mulh d a b)
  | 4 => zeroed z (.mulhn d a b) | 5 => zeroed z (.div d a b) | 6 => zeroed z (.divn d a b) | 7 => zeroed z (.rem d a b)
  | 8 => zeroed z (.remn d a b) | 9 => zeroed z (.and d a b) | 10 => zeroed z (.or d a b) | 11 => zeroed z (.xor d a b)
  | 12 => zeroed z (.shl d a b) | 13 => zeroed z (.shr d a b) | 14 => zeroed z (.sar d a b) | 15 => zeroed z (.slt d a b)
  | 16 => zeroed z (.sltn d a b) | 17 => zeroed z (.seq d a b) | 18 => zeroed z (.min d a b) | 19 => zeroed z (.max d a b)
  | 20 => zeroed z (.minn d a b) | 21 => zeroed z (.maxn d a b) | 22 => zeroed (top == 0) (.sel d a b c)
  | _ => .error .reservedSubcode

/-- SYNC, selected by fn[3:0] (R12). -/
def decodeSync (w : Word) : Except Reject Instr :=
  let d := fld w 21 5; let a := fld w 16 5; let b := fld w 11 5; let scope := fld w 4 2; let kind := fld w 6 1
  let z := fld w 7 4 == 0
  match (fld w 0 4).toNat with
  | 0 => zeroed (z && d == 0) (.syncinit a b kind scope)
  | 1 => zeroed (z && d == 0 && b == 0 && kind == 0) (.syncfree a scope)
  | 2 => zeroed (z && kind == 0) (.arrive d a b scope)
  | 3 => zeroed (z && d == 0 && kind == 0) (.bwait a b scope)
  | 4 => zeroed (z && d == 0 && a == 0 && b == 0 && kind == 0 && scope == 0) .bar
  | 5 => zeroed (z && d == 0 && kind == 0) (.waittl a b scope)
  | _ => .error .reservedSubcode

/-- MEMCTL, selected by fn[3:0] (R12). -/
def decodeMemctl (w : Word) : Except Reject Instr :=
  let d := fld w 21 5; let a := fld w 16 5; let b := fld w 11 5
  let z := fld w 4 7 == 0 && d == 0
  match (fld w 0 4).toNat with
  | 0 => zeroed (z && a == 0 && b == 0) .rfence
  | 1 => zeroed z (.pin a b)
  | 2 => zeroed z (.unpin a b)
  | 3 => zeroed z (.wspill a b)
  | 4 => zeroed z (.wfill a b)
  | _ => .error .reservedSubcode

/-- MTX, selected by fn[3:0] (R12). -/
def decodeMtx (w : Word) : Except Reject Instr :=
  let d := fld w 21 5; let a := fld w 16 5; let b := fld w 11 5; let tile := fld w 4 4; let rm := fld w 8 3
  let sat := fld w 21 1; let z := fld w 22 4 == 0
  match (fld w 0 4).toNat with
  | 0 => zeroed (d == 0 && b == 0 && tile == 0 && rm == 0) (.tcfg a)
  | 1 => zeroed (d == 0 && a == 0 && b == 0 && rm == 0) (.tzero tile)
  | 2 => zeroed z (.tld sat a b rm tile)
  | 3 => zeroed z (.tst sat a b rm tile)
  | 4 => zeroed (a == 0 && b == 0 && tile == 0 && rm == 0) (.mfence d)
  | _ => .error .reservedSubcode

/-- RANK, selected by fn[3:0] (R12). -/
def decodeRank (w : Word) : Except Reject Instr :=
  let d := fld w 21 5; let a := fld w 16 5; let b := fld w 11 5; let table := fld w 4 2
  match (fld w 0 4).toNat with
  | 0 => zeroed (d == 0 && b == 0 && fld w 6 5 == 0) (.rktbl a table)
  | 1 => zeroed (b == 0 && fld w 4 7 == 0) (.rkenc d a)
  | 2 => zeroed (fld w 25 1 == 0 && b == 0 && fld w 6 5 == 0) (.rkmm (fld w 21 4) a table)
  | 3 => zeroed (d == 0 && fld w 7 4 == 0) (.rkval a b (fld w 6 1) table)
  | _ => .error .reservedSubcode

/-- POINT, selected by fn[3:0] (R12, R243). -/
def decodePoint (w : Word) : Except Reject Instr :=
  match (fld w 0 4).toNat with
  | 0 => zeroed (fld w 19 2 == 0 && fld w 14 2 == 0 && fld w 10 1 == 0)
      (.ptnext (fld w 21 5) (fld w 16 3) (fld w 11 3) (fld w 4 6))
  | 1 => zeroed (fld w 21 5 == 0 && fld w 11 5 == 0 && fld w 4 7 == 0) (.ptdone (fld w 16 5))
  | _ => .error .reservedSubcode

/-- A scalar word, by its major opcode [31:26] (R9, R11). -/
def decodeScalar (w : Word) : Except Reject Instr :=
  let d := fld w 21 5; let a := fld w 16 5; let b := fld w 11 5; let imm := fld w 0 16
  let z11 := fld w 0 11 == 0
  match (fld w 26 6).toNat with
  | 0x00 => decodeSys w
  | 0x01 => decodeAlu w
  | 0x02 => .ok (.addi d a imm) | 0x03 => .ok (.andi d a imm) | 0x04 => .ok (.ori d a imm)
  | 0x05 => .ok (.xori d a imm)
  | 0x06 => zeroed (fld w 6 10 == 0) (.shli d a (fld w 0 6))
  | 0x07 => zeroed (fld w 6 10 == 0) (.shri d a (fld w 0 6))
  | 0x08 => zeroed (fld w 6 10 == 0) (.sari d a (fld w 0 6))
  | 0x09 => .ok (.slti d a imm)
  | 0x0A => zeroed (a == 0) (.lui d imm)
  | 0x0B => .ok (.shlor d a imm)
  | 0x0C => .ok (.lds d a imm) | 0x0D => .ok (.ldw d a imm) | 0x0E => .ok (.sts d a imm) | 0x0F => .ok (.stw d a imm)
  | 0x10 => zeroed (fld w 10 1 == 0) (.satom d a b (fld w 8 2) (fld w 5 3) (fld w 4 1) (fld w 0 4))
  | 0x11 => zeroed (fld w 10 1 == 0 && fld w 0 4 == 0) (.scas d a b (fld w 8 2) (fld w 5 3) (fld w 4 1))
  | 0x12 => .ok (.beq d a imm) | 0x13 => .ok (.bne d a imm) | 0x14 => .ok (.blt d a imm) | 0x15 => .ok (.bge d a imm)
  | 0x16 => .ok (.bltn d a imm) | 0x17 => .ok (.bgen d a imm)
  | 0x18 => zeroed (fld w 24 2 == 0 && a == 0) (.bct (fld w 21 3) imm)
  | 0x19 => zeroed (fld w 24 2 == 0 && a == 0) (.bcf (fld w 21 3) imm)
  | 0x1A => .ok (.jal (fld w 0 26))
  | 0x1B => .ok (.jalr d a imm)
  | 0x1C => .ok (.jmpf d a imm)
  | 0x1D => zeroed (a == 0) (.call d imm)
  | 0x1E => zeroed (d == 0 && a == 0 && b == 0 && fld w 3 8 == 0) (.ret (fld w 0 3))
  | 0x1F => zeroed (d == 0 && a == 0) (.lrun imm)
  | 0x20 => zeroed (d == 0) (.lset a imm)
  | 0x21 => zeroed (fld w 25 1 == 0 && a == 0) (.brv (fld w 24 1) (fld w 21 3) imm)
  | 0x22 => zeroed (d == 0 && a == 0 && b == 0 && fld w 6 5 == 0) (.jmpv (fld w 0 6))
  | 0x23 => zeroed (d == 0 && fld w 4 12 == 0) (.join a (fld w 0 4))
  | 0x24 => zeroed (b == 0 && z11) (.regroup d a)
  | 0x25 => zeroed (fld w 24 2 == 0) (.waitc (fld w 18 6) (fld w 12 6) (fld w 6 6) (fld w 0 6))
  | 0x26 => zeroed (d == 0 && a == 0 && fld w 8 8 == 0) (.waitt (fld w 0 8))
  | 0x27 => zeroed (fld w 24 2 == 0 && a == 0) (.yieldt (fld w 21 3) imm)
  | 0x28 => zeroed (d == 0 && b == 0 && fld w 8 3 == 0) (.qpush a (fld w 5 3) (fld w 4 1) (fld w 0 4))
  | 0x29 => zeroed (a == 0 && b == 0 && fld w 8 3 == 0) (.qpop d (fld w 5 3) (fld w 4 1) (fld w 0 4))
  | 0x2A => zeroed (d == 0 && a == 0 && b == 0 && fld w 4 7 == 0) (.fence (fld w 2 2) (fld w 0 2))
  | 0x2B => decodeSync w
  | 0x2C => zeroed (b == 0 && z11) (.spawn d a)
  | 0x2D => zeroed (d == 0 && b == 0 && fld w 8 3 == 0) (.cfetch a (fld w 5 3) (fld w 0 5))
  | 0x2E => decodeMemctl w
  | 0x2F => .ok (.copy d a b (fld w 9 2) (fld w 7 2) (fld w 3 4) (fld w 0 3))
  | 0x30 => .ok (.tcopy d a b (fld w 9 2) (fld w 7 2) (fld w 3 4) (fld w 0 3))
  | 0x31 => zeroed (fld w 3 4 == 0) (.gcopy d a b (fld w 9 2) (fld w 7 2) (fld w 0 3))
  | 0x32 => zeroed (b == 0) (.coll d a (fld w 8 3) (fld w 4 4) (fld w 0 4))
  | 0x33 => decodeMtx w
  | 0x34 => zeroed (fld w 25 1 == 0 && fld w 5 6 == 0) (.mloop (fld w 21 4) a b (fld w 0 5))
  | 0x35 => decodeRank w
  | 0x36 => decodePoint w
  | 0x37 => zeroed (b == 0 && z11) (.rcap d a)
  | 0x38 => zeroed (d == 0 && a == 0 && b == 0 && z11) .rrev
  | _ => .error .reservedMajor

/-- The lane instruction an opcode names; every other opcode is reserved (R19). -/
def laneOf (f : LaneF) : Nat → Option Instr
  | 0x000 => some (.iadd f)
  | 0x001 => some (.isub f)
  | 0x002 => some (.imul f)
  | 0x003 => some (.imulh f)
  | 0x004 => some (.imad f)
  | 0x005 => some (.idiv f)
  | 0x006 => some (.irem f)
  | 0x007 => some (.imin f)
  | 0x008 => some (.imax f)
  | 0x009 => some (.iabs f)
  | 0x00A => some (.ineg f)
  | 0x00B => some (.laneAnd f)
  | 0x00C => some (.laneOr f)
  | 0x00D => some (.laneXor f)
  | 0x00E => some (.andn f)
  | 0x00F => some (.laneNot f)
  | 0x010 => some (.laneShl f)
  | 0x011 => some (.laneShr f)
  | 0x012 => some (.laneSar f)
  | 0x013 => some (.rot f)
  | 0x014 => some (.clz f)
  | 0x015 => some (.popc f)
  | 0x016 => some (.brev f)
  | 0x017 => some (.bfx f)
  | 0x018 => some (.bfi f)
  | 0x019 => some (.icmp f)
  | 0x01A => some (.laneSel f)
  | 0x01B => some (.mov f)
  | 0x040 => some (.fadd f)
  | 0x041 => some (.fsub f)
  | 0x042 => some (.fmul f)
  | 0x043 => some (.fma f)
  | 0x044 => some (.fmin f)
  | 0x045 => some (.fmax f)
  | 0x046 => some (.fabs f)
  | 0x047 => some (.fneg f)
  | 0x048 => some (.fcmp f)
  | 0x049 => some (.frcp f)
  | 0x04A => some (.frsq f)
  | 0x04B => some (.fsqrt f)
  | 0x04C => some (.fexp2 f)
  | 0x04D => some (.flog2 f)
  | 0x04E => some (.fsinpi f)
  | 0x04F => some (.fcospi f)
  | 0x050 => some (.fscale f)
  | 0x051 => some (.fclass f)
  | 0x052 => some (.frint f)
  | 0x053 => some (.fdiv f)
  | 0x080 => some (.hadd2 f)
  | 0x081 => some (.hmul2 f)
  | 0x082 => some (.hfma2 f)
  | 0x083 => some (.idot4 f)
  | 0x084 => some (.idot2 f)
  | 0x088 => some (.cvt f)
  | 0x089 => some (.cvtp f)
  | 0x08A => some (.cvtx f)
  | 0x08B => some (.bpenc f)
  | 0x08C => some (.bpdec f)
  | 0x0A0 => some (.pand f)
  | 0x0A1 => some (.por f)
  | 0x0A2 => some (.pxor f)
  | 0x0A3 => some (.pnot f)
  | 0x0A4 => some (.lkill f)
  | 0x0B0 => some (.ld f)
  | 0x0B1 => some (.st f)
  | 0x0B2 => some (.ldt f)
  | 0x0B3 => some (.stt f)
  | 0x0B4 => some (.atom f)
  | 0x0B5 => some (.cas f)
  | 0x0B6 => some (.lda f)
  | 0x0B7 => some (.str f)
  | 0x0B8 => some (.pref f)
  | 0x0D0 => some (.shfl f)
  | 0x0D1 => some (.vote f)
  | 0x0D2 => some (.redl f)
  | 0x0D3 => some (.scan f)
  | 0x0D4 => some (.xshfl f)
  | 0x0E0 => some (.rarm f)
  | 0x0E1 => some (.rput f)
  | 0x0E2 => some (.rclr f)
  | _ => none

/-- The opcode and the fields of a lane instruction (R14, R19). -/
def laneParts : Instr → Option (Nat × LaneF)
  | .iadd f => some (0x000, f)
  | .isub f => some (0x001, f)
  | .imul f => some (0x002, f)
  | .imulh f => some (0x003, f)
  | .imad f => some (0x004, f)
  | .idiv f => some (0x005, f)
  | .irem f => some (0x006, f)
  | .imin f => some (0x007, f)
  | .imax f => some (0x008, f)
  | .iabs f => some (0x009, f)
  | .ineg f => some (0x00A, f)
  | .laneAnd f => some (0x00B, f)
  | .laneOr f => some (0x00C, f)
  | .laneXor f => some (0x00D, f)
  | .andn f => some (0x00E, f)
  | .laneNot f => some (0x00F, f)
  | .laneShl f => some (0x010, f)
  | .laneShr f => some (0x011, f)
  | .laneSar f => some (0x012, f)
  | .rot f => some (0x013, f)
  | .clz f => some (0x014, f)
  | .popc f => some (0x015, f)
  | .brev f => some (0x016, f)
  | .bfx f => some (0x017, f)
  | .bfi f => some (0x018, f)
  | .icmp f => some (0x019, f)
  | .laneSel f => some (0x01A, f)
  | .mov f => some (0x01B, f)
  | .fadd f => some (0x040, f)
  | .fsub f => some (0x041, f)
  | .fmul f => some (0x042, f)
  | .fma f => some (0x043, f)
  | .fmin f => some (0x044, f)
  | .fmax f => some (0x045, f)
  | .fabs f => some (0x046, f)
  | .fneg f => some (0x047, f)
  | .fcmp f => some (0x048, f)
  | .frcp f => some (0x049, f)
  | .frsq f => some (0x04A, f)
  | .fsqrt f => some (0x04B, f)
  | .fexp2 f => some (0x04C, f)
  | .flog2 f => some (0x04D, f)
  | .fsinpi f => some (0x04E, f)
  | .fcospi f => some (0x04F, f)
  | .fscale f => some (0x050, f)
  | .fclass f => some (0x051, f)
  | .frint f => some (0x052, f)
  | .fdiv f => some (0x053, f)
  | .hadd2 f => some (0x080, f)
  | .hmul2 f => some (0x081, f)
  | .hfma2 f => some (0x082, f)
  | .idot4 f => some (0x083, f)
  | .idot2 f => some (0x084, f)
  | .cvt f => some (0x088, f)
  | .cvtp f => some (0x089, f)
  | .cvtx f => some (0x08A, f)
  | .bpenc f => some (0x08B, f)
  | .bpdec f => some (0x08C, f)
  | .pand f => some (0x0A0, f)
  | .por f => some (0x0A1, f)
  | .pxor f => some (0x0A2, f)
  | .pnot f => some (0x0A3, f)
  | .lkill f => some (0x0A4, f)
  | .ld f => some (0x0B0, f)
  | .st f => some (0x0B1, f)
  | .ldt f => some (0x0B2, f)
  | .stt f => some (0x0B3, f)
  | .atom f => some (0x0B4, f)
  | .cas f => some (0x0B5, f)
  | .lda f => some (0x0B6, f)
  | .str f => some (0x0B7, f)
  | .pref f => some (0x0B8, f)
  | .shfl f => some (0x0D0, f)
  | .vote f => some (0x0D1, f)
  | .redl f => some (0x0D2, f)
  | .scan f => some (0x0D3, f)
  | .xshfl f => some (0x0D4, f)
  | .rarm f => some (0x0E0, f)
  | .rput f => some (0x0E1, f)
  | .rclr f => some (0x0E2, f)
  | _ => none

/-- The fields of a lane instruction: w0 in bits [31:0], w1 in [63:32], w2 in [95:64] (R14). -/
def laneFields (w : LWord) : LaneF :=
  { vd := fld w 15 7, va := fld w 8 7, vb := fld w 1 7
    vc := fld w 57 7, pg := fld w 54 3, pn := fld w 53 1, td := fld w 49 4, ta := fld w 45 4
    rm := fld w 42 3, pl := fld w 39 3, fn := fld w 32 7, w2 := fld w 64 32 }

/-- A lane instruction of three words (R14, R19). -/
def decodeLane (w : LWord) : Except Reject Instr :=
  match laneOf (laneFields w) (fld w 22 10).toNat with
  | none => .error .reservedOpcode
  | some i => zeroed (fld w 0 1 == 0) i

/-- A scalar instruction from its bytes in memory (R9). -/
def decodeScalarBytes (bs : List Byte) : Except Reject Instr :=
  if bs.length < 4 then .error .truncated else decodeScalar (BitVec.ofNat 32 (leNat (bs.take 4)))
/-- A lane instruction from its bytes in memory (R14). -/
def decodeLaneBytes (bs : List Byte) : Except Reject Instr :=
  if bs.length < 12 then .error .truncated else decodeLane (BitVec.ofNat 96 (leNat (bs.take 12)))

/-- The instruction the decoder reads from a word of `nbits` bits: a scalar word up to 32 bits, else a lane instruction. -/
def decodeTableWord (nbits w : Nat) : Option Instr :=
  let r := if nbits ≤ 32 then decodeScalarBytes (leBytes 4 (w % 2 ^ nbits)) else decodeLaneBytes (leBytes 12 (w % 2 ^ nbits))
  match r with
  | .ok i => some i
  | .error _ => none

/-! The encoder, from the same tables. -/

/-- SR: major, d, a, b, fn (R9). -/
def encSR (major : Nat) (d a b : SReg) (fn : Nat) : Nat :=
  major * 2 ^ 26 + d.toNat * 2 ^ 21 + a.toNat * 2 ^ 16 + b.toNat * 2 ^ 11 + fn
/-- SI: major, d, a, imm16 (R9). -/
def encSI (major : Nat) (d a : SReg) (imm : Nat) : Nat :=
  major * 2 ^ 26 + d.toNat * 2 ^ 21 + a.toNat * 2 ^ 16 + imm
/-- SB-like words whose [23:21] is a 3-bit selector and [24] a flag (R11). -/
def encSel (major : Nat) (flag : Nat) (sel : BitVec 3) (imm : Nat) : Nat :=
  major * 2 ^ 26 + flag * 2 ^ 24 + sel.toNat * 2 ^ 21 + imm

/-- The word of a scalar instruction (R11 to R13). -/
def scalarNat : Instr → Option Nat
  | .nop => some 0
  | .trap c => some (encSR 0 0 0 0 (c.toNat * 16 + 1))
  | .eret => some (encSR 0 0 0 0 2)
  | .brk c => some (encSR 0 0 0 0 (c.toNat * 16 + 3))
  | .sleep a => some (encSR 0 0 a 0 4)
  | .csrr d c => some (encSR 0 d 0 0 (c.toNat * 16 + 5))
  | .csrw a c => some (encSR 0 0 a 0 (c.toNat * 16 + 6))
  | .exit => some (encSR 0 0 0 0 7)
  | .add d a b => some (encSR 1 d a b 0) | .sub d a b => some (encSR 1 d a b 1) | .mul d a b => some (encSR 1 d a b 2)
  | .mulh d a b => some (encSR 1 d a b 3) | .mulhn d a b => some (encSR 1 d a b 4) | .div d a b => some (encSR 1 d a b 5)
  | .divn d a b => some (encSR 1 d a b 6) | .rem d a b => some (encSR 1 d a b 7) | .remn d a b => some (encSR 1 d a b 8)
  | .and d a b => some (encSR 1 d a b 9) | .or d a b => some (encSR 1 d a b 10) | .xor d a b => some (encSR 1 d a b 11)
  | .shl d a b => some (encSR 1 d a b 12) | .shr d a b => some (encSR 1 d a b 13) | .sar d a b => some (encSR 1 d a b 14)
  | .slt d a b => some (encSR 1 d a b 15) | .sltn d a b => some (encSR 1 d a b 16) | .seq d a b => some (encSR 1 d a b 17)
  | .min d a b => some (encSR 1 d a b 18) | .max d a b => some (encSR 1 d a b 19) | .minn d a b => some (encSR 1 d a b 20)
  | .maxn d a b => some (encSR 1 d a b 21) | .sel d a b c => some (encSR 1 d a b (c.toNat * 32 + 22))
  | .addi d a i => some (encSI 2 d a i.toNat) | .andi d a i => some (encSI 3 d a i.toNat)
  | .ori d a i => some (encSI 4 d a i.toNat) | .xori d a i => some (encSI 5 d a i.toNat)
  | .shli d a n => some (encSI 6 d a n.toNat) | .shri d a n => some (encSI 7 d a n.toNat)
  | .sari d a n => some (encSI 8 d a n.toNat) | .slti d a i => some (encSI 9 d a i.toNat)
  | .lui d i => some (encSI 10 d 0 i.toNat) | .shlor d a i => some (encSI 11 d a i.toNat)
  | .lds d a i => some (encSI 12 d a i.toNat) | .ldw d a i => some (encSI 13 d a i.toNat)
  | .sts d a i => some (encSI 14 d a i.toNat) | .stw d a i => some (encSI 15 d a i.toNat)
  | .satom d a b s u n o => some (encSR 16 d a b (s.toNat * 256 + u.toNat * 32 + n.toNat * 16 + o.toNat))
  | .scas d a b s u n => some (encSR 17 d a b (s.toNat * 256 + u.toNat * 32 + n.toNat * 16))
  | .beq a b i => some (encSI 18 a b i.toNat) | .bne a b i => some (encSI 19 a b i.toNat)
  | .blt a b i => some (encSI 20 a b i.toNat) | .bge a b i => some (encSI 21 a b i.toNat)
  | .bltn a b i => some (encSI 22 a b i.toNat) | .bgen a b i => some (encSI 23 a b i.toNat)
  | .bct c i => some (encSel 24 0 c i.toNat) | .bcf c i => some (encSel 25 0 c i.toNat)
  | .jal i => some (26 * 2 ^ 26 + i.toNat)
  | .jalr d a i => some (encSI 27 d a i.toNat) | .jmpf d a i => some (encSI 28 d a i.toNat)
  | .call k i => some (encSI 29 k 0 i.toNat)
  | .ret k => some (encSR 30 0 0 0 k.toNat)
  | .lrun n => some (encSI 31 0 0 n.toNat)
  | .lset a i => some (encSI 32 0 a i.toNat)
  | .brv n p i => some (encSel 33 n.toNat p i.toNat)
  | .jmpv v => some (encSR 34 0 0 0 v.toNat)
  | .join a j => some (encSI 35 0 a j.toNat)
  | .regroup d a => some (encSR 36 d a 0 0)
  | .waitc l s c t => some (37 * 2 ^ 26 + l.toNat * 2 ^ 18 + s.toNat * 2 ^ 12 + c.toNat * 2 ^ 6 + t.toNat)
  | .waitt m => some (encSI 38 0 0 m.toNat)
  | .yieldt k i => some (encSel 39 0 k i.toNat)
  | .qpush a c n q => some (encSR 40 0 a 0 (c.toNat * 32 + n.toNat * 16 + q.toNat))
  | .qpop d c n q => some (encSR 41 d 0 0 (c.toNat * 32 + n.toNat * 16 + q.toNat))
  | .fence s k => some (encSR 42 0 0 0 (s.toNat * 4 + k.toNat))
  | .syncinit a b k s => some (encSR 43 0 a b (k.toNat * 64 + s.toNat * 16))
  | .syncfree a s => some (encSR 43 0 a 0 (s.toNat * 16 + 1))
  | .arrive d a b s => some (encSR 43 d a b (s.toNat * 16 + 2))
  | .bwait a b s => some (encSR 43 0 a b (s.toNat * 16 + 3))
  | .bar => some (encSR 43 0 0 0 4)
  | .waittl a b s => some (encSR 43 0 a b (s.toNat * 16 + 5))
  | .spawn d a => some (encSR 44 d a 0 0)
  | .cfetch a k s => some (encSR 45 0 a 0 (k.toNat * 32 + s.toNat))
  | .rfence => some (encSR 46 0 0 0 0)
  | .pin a b => some (encSR 46 0 a b 1) | .unpin a b => some (encSR 46 0 a b 2)
  | .wspill a b => some (encSR 46 0 a b 3) | .wfill a b => some (encSR 46 0 a b 4)
  | .copy d a b c q o k => some (encSR 47 d a b (c.toNat * 512 + q.toNat * 128 + o.toNat * 8 + k.toNat))
  | .tcopy d a b c q o k => some (encSR 48 d a b (c.toNat * 512 + q.toNat * 128 + o.toNat * 8 + k.toNat))
  | .gcopy d a b c q k => some (encSR 49 d a b (c.toNat * 512 + q.toNat * 128 + k.toNat))
  | .coll d a r o t => some (encSR 50 d a 0 (r.toNat * 256 + o.toNat * 16 + t.toNat))
  | .tcfg a => some (encSR 51 0 a 0 0)
  | .tzero t => some (encSR 51 0 0 0 (t.toNat * 16 + 1))
  | .tld s a b r t => some (51 * 2 ^ 26 + s.toNat * 2 ^ 21 + a.toNat * 2 ^ 16 + b.toNat * 2 ^ 11 + r.toNat * 256 + t.toNat * 16 + 2)
  | .tst s a b r t => some (51 * 2 ^ 26 + s.toNat * 2 ^ 21 + a.toNat * 2 ^ 16 + b.toNat * 2 ^ 11 + r.toNat * 256 + t.toNat * 16 + 3)
  | .mfence d => some (encSR 51 d 0 0 4)
  | .mloop t a b k => some (52 * 2 ^ 26 + t.toNat * 2 ^ 21 + a.toNat * 2 ^ 16 + b.toNat * 2 ^ 11 + k.toNat)
  | .rktbl a n => some (encSR 53 0 a 0 (n.toNat * 16))
  | .rkenc d a => some (encSR 53 d a 0 1)
  | .rkmm t a n => some (53 * 2 ^ 26 + t.toNat * 2 ^ 21 + a.toNat * 2 ^ 16 + n.toNat * 16 + 2)
  | .rkval a b y n => some (encSR 53 0 a b (y.toNat * 64 + n.toNat * 16 + 3))
  | .ptnext d p h f => some (54 * 2 ^ 26 + d.toNat * 2 ^ 21 + p.toNat * 2 ^ 16 + h.toNat * 2 ^ 11 + f.toNat * 16)
  | .ptdone a => some (encSR 54 0 a 0 1)
  | .rcap d a => some (encSR 55 d a 0 0)
  | .rrev => some (encSR 56 0 0 0 0)
  | _ => none

/-- The three words of a lane instruction as one number (R14). -/
def laneNat (op : Nat) (f : LaneF) : Nat :=
  f.vb.toNat * 2 + f.va.toNat * 2 ^ 8 + f.vd.toNat * 2 ^ 15 + op * 2 ^ 22
    + f.fn.toNat * 2 ^ 32 + f.pl.toNat * 2 ^ 39 + f.rm.toNat * 2 ^ 42 + f.ta.toNat * 2 ^ 45 + f.td.toNat * 2 ^ 49
    + f.pn.toNat * 2 ^ 53 + f.pg.toNat * 2 ^ 54 + f.vc.toNat * 2 ^ 57 + f.w2.toNat * 2 ^ 64

/-- The word of an instruction: 32 bits for a scalar one, 96 for a lane one, none for an event. -/
def encode (i : Instr) : Option (Word ⊕ LWord) :=
  match scalarNat i, laneParts i with
  | some n, _ => some (.inl (BitVec.ofNat 32 n))
  | none, some (op, f) => some (.inr (BitVec.ofNat 96 (laneNat op f)))
  | none, none => none

/-- Decoding of either stream's words. -/
def decodeWord : Word ⊕ LWord → Except Reject Instr
  | .inl w => decodeScalar w
  | .inr w => decodeLane w

end Sys2Proof
end

