-- ==== Sys2Proof/Machine/Maps.lean ====
section
/-! DEFINITION. The two containers State is made of. `AMap` holds pairs with strictly rising keys; a key may be absent. A
`Store` is an `AMap` read with a default that is never listed, so equal contents are equal data. -/
namespace Sys2Proof.Machine

/-- Pairs with strictly rising keys. -/
abbrev AMap (α : Type) := List (Nat × α)

/-- The value at `k`, if any. -/
def amGet {α : Type} : AMap α → Nat → Option α
  | [], _ => none
  | (j, v) :: m, k => if k = j then some v else amGet m k

/-- Put `v` at `k`. -/
def amSet {α : Type} : AMap α → Nat → α → AMap α
  | [], k, v => [(k, v)]
  | (j, w) :: m, k, v =>
    if k = j then (k, v) :: m else if k < j then (k, v) :: (j, w) :: m else (j, w) :: amSet m k v

/-- Remove `k`. -/
def amDel {α : Type} : AMap α → Nat → AMap α
  | [], _ => []
  | (j, w) :: m, k => if k = j then amDel m k else (j, w) :: amDel m k

/-- Change the value at `k` where there is one. -/
def amMod {α : Type} (f : α → α) : AMap α → Nat → AMap α
  | [], _ => []
  | (j, w) :: m, k => if k = j then (j, f w) :: m else (j, w) :: amMod f m k

/-- Change every value. -/
def amMap {α β : Type} (f : Nat → α → β) : AMap α → AMap β
  | [] => []
  | (j, w) :: m => (j, f j w) :: amMap f m

/-- Keep the pairs that satisfy `p`. -/
def amFilter {α : Type} (p : Nat → α → Bool) (m : AMap α) : AMap α := m.filter fun x => p x.1 x.2

/-- Every key lies above `lo` and the keys rise. -/
def amWfFrom {α : Type} : AMap α → Option Nat → Bool
  | [], _ => true
  | (j, _) :: m, none => amWfFrom m (some j)
  | (j, _) :: m, some lo => decide (lo < j) && amWfFrom m (some j)

/-- The keys rise strictly. -/
def amWf {α : Type} (m : AMap α) : Bool := amWfFrom m none

/-- A store: an `AMap` whose unlisted keys read as the default given at each access. -/
abbrev Store (α : Type) := AMap α

def stGet {α : Type} (d : α) (m : Store α) (k : Nat) : α := (amGet m k).getD d
/-- Writing the default removes the entry. -/
def stSet {α : Type} [DecidableEq α] (d : α) (m : Store α) (k : Nat) (v : α) : Store α :=
  if v = d then amDel m k else amSet m k v
/-- The canonical form: rising keys, no default listed. -/
def stWf {α : Type} [DecidableEq α] (d : α) (m : Store α) : Bool := amWf m && m.all fun x => x.2 ≠ d

/-- A set of numbers, rising. -/
abbrev NSet := AMap Unit
def nsHas (m : NSet) (k : Nat) : Bool := (amGet m k).isSome
def nsAdd (m : NSet) (k : Nat) : NSet := amSet m k ()
def nsDel (m : NSet) (k : Nat) : NSet := amDel m k

/-- The numbers `lo`, `lo + 1`, … (`n` of them). -/
def upFrom : Nat → Nat → List Nat
  | _, 0 => []
  | lo, n + 1 => lo :: upFrom (lo + 1) n
/-- The lowest key from `k` up that is not in the map. -/
def amFresh {α : Type} (m : AMap α) (k : Nat) : Nat :=
  ((upFrom k (m.length + 1)).find? fun j => (amGet m j).isNone).getD k

/-- The 32 lane numbers. -/
def lanes32 : List Nat := upFrom 0 32
/-- The LIDs whose bit is set, ascending. -/
def maskLanes (m : LaneMask) : List Nat := lanes32.filter fun i => m.getLsbD i
/-- The mask of one lane. -/
def laneBit (i : Nat) : LaneMask := BitVec.ofNat 32 (2 ^ i)
/-- The mask of the lanes that satisfy `p`. -/
def maskOf (p : Nat → Bool) : LaneMask :=
  lanes32.foldl (fun m i => if p i then m ||| laneBit i else m) 0
/-- The number of lanes in a mask. -/
def maskCount (m : LaneMask) : Nat := (maskLanes m).length

end Sys2Proof.Machine
end

