-- ==== Sys2Proof/Machine/State.lean ====
section
/-! DEFINITION. The state of one NY6 package (R1), plain data. INVENTORY.md lists each field with the rule that names it and
its reset value. Times are core cycles since device reset. -/
namespace Sys2Proof.Machine

/-- Whose turn it is: the model's own schedule (log entry 1). -/
inductive Turn where
  /-- A split issues the scalar instruction at its PC. -/
  | scalar (core slot split : Nat)
  /-- A group's lane queue issues its head. -/
  | lane (core slot : Nat)
  /-- An agent acts: one event row of the opcode table. -/
  | event (i : Instr)
deriving DecidableEq, Repr

/-- The model's schedule (log entry 1) and its counter of free values (log entry 10). -/
structure Sched where
  /-- The turns that come first, in order. -/
  agenda : List Turn
  /-- Events that work already done has made due. -/
  wake : List Turn
  /-- Whether the next unforced turn is a due event (true) or an issue (false). -/
  flip : Bool
  /-- Counts issues; a split or queue that issued longer ago has a smaller number (R134). -/
  rotor : Nat
  /-- The core, group slot and split that execute the current instruction. -/
  core : Nat
  slot : Nat
  split : Nat
  /-- Free values taken so far (log entry 10). -/
  free : Nat
deriving DecidableEq, Repr

/-- Where an address leads (R84, R299). -/
inductive Place where
  /-- The team's scratchpad at an offset. -/
  | scratch (team off : Nat)
  /-- A byte of package memory. -/
  | mem (pa : Nat)
  /-- A byte of the timeline window, by its offset (R422). -/
  | window (off : Nat)
  /-- A byte of another rank's region (R344). -/
  | remote (rank : Nat) (region : BitVec 4) (off : Nat)
deriving DecidableEq, Repr

/-- A wait registered on a sync word (R294, R295): its place, the instruction's address and scope, whether it has been met, and the
ticket of a registration at another rank. -/
structure WordWait where
  place : Place
  addr : DWord
  scope : BitVec 2
  due : Bool
  ticket : Option Nat
deriving DecidableEq, Repr

/-- What a split is doing (R122). -/
inductive SplitStatus where
  /-- May issue. -/
  | ready
  /-- Stopped at a JOIN with its id and expected mask (R129). -/
  | joining (id : Nat) (expect : LaneMask)
  /-- WAITC with its four fields and the classes that have met theirs (R157). -/
  | waitC (loads stores copies tiles : Nat) (met : List Bool)
  /-- WAITT with its mask (R159). -/
  | waitT (mask : Byte) (due : Bool)
  /-- YIELDT with its token and continuation (R160). -/
  | yieldT (k : Nat) (target : DWord) (due : Bool)
  /-- A blocking QPUSH or QPOP, with the number of its wait (R163, R164). -/
  | push (q : Nat) (value : DWord) (since : Nat)
  | pop (q : Nat) (d : SReg) (since : Nat)
  /-- FENCE (R289). -/
  | fence (scope kind : BitVec 2)
  /-- BWAIT and WAITTL registered on a word. -/
  | bwait (w : WordWait) (phase : Bool)
  | waittl (w : WordWait) (count : DWord)
  /-- The word a BWAIT or WAITTL waits on was freed: the wait raises PROTECT (R292). -/
  | freed (addr : DWord)
  /-- BAR, and whether the group's arrival has been made (R296). -/
  | bar (arrived : Bool)
  /-- SLEEP until an instant (R149). -/
  | sleep (till : Nat)
  /-- REGROUP waiting for its partner (R132). -/
  | regroup (d : SReg) (partner : Nat)
  /-- PTNEXT waiting for a tile to be dispatched (R244, R250). -/
  | ptnext (d : SReg) (audit point : BitVec 3) (first : Nat)
  /-- An instruction that waits for the answer of another rank's home (R290), with the register it writes. -/
  | reply (ticket : Nat) (d : SReg) (narrow : Bool)
deriving DecidableEq, Repr

/-- How far a COPY, TCOPY or GCOPY that waits has come (R228, R235): its token and class are counted, or it has claimed an index of its
queue, which it holds while the queue is full. -/
inductive CopyStage where
  | counted (queue : Nat)
  | claimed (queue index : Nat)
deriving DecidableEq, Repr

/-- A split (R122). -/
structure Split where
  pc : DWord
  /-- The PC was reached past a slot's last word (R176). -/
  fell : Bool
  lp : Word
  wb : Nat
  /-- s1 to s31; s0 is never listed. -/
  sregs : Store DWord
  cbits : Byte
  mask : LaneMask
  status : SplitStatus
  /-- When the split last issued, in the schedule's numbering (R134). -/
  lastIssue : Nat
  /-- LRUNs that have enqueued part of their run: PC, lp and the instructions enqueued (R124). -/
  runs : List (DWord × Word × Nat)
  /-- When SLEEPs that have begun end, by PC (R149). -/
  naps : List (DWord × Nat)
  /-- When the P stall of a JMPV or PTNEXT began (R38, R39). -/
  pstall : Option Nat
  /-- The copy instruction at the PC has been issued and waits (R235). -/
  copy : Option CopyStage := none
deriving DecidableEq, Repr

/-- The tag of a lane queue entry (R124): the split that enqueued it (once that has merged into another, the other; R129), its lane
mask and WB, the PC of the LRUN and the lp. `regs` names the merged split's own scalar copy in the group's `frozen` copies. -/
structure LaneTag where
  split : Nat
  mask : LaneMask
  wb : Nat
  pc : DWord
  lp : Word
  regs : Option Nat
  /-- Enqueued in handler mode (R154). -/
  inh : Bool := false
deriving DecidableEq, Repr

/-- An entry of the lane queue: the instruction bits read at the LRUN (R176) and its tag. -/
structure LaneEntry where
  bits : LWord
  tag : LaneTag
deriving DecidableEq, Repr

/-- One value an outstanding access will write: to an absolute slot of a lane (two slots when `wide`), or to a scalar register when
`sreg`; `ticket` is set while another rank's answer is missing. -/
structure AccPart where
  lane : Nat
  slot : Nat
  wide : Bool
  value : DWord
  ticket : Option Nat
deriving DecidableEq, Repr

/-- An issued, unfinished memory instruction (R156). -/
structure Access where
  /-- Counted in the loads class (else in stores). -/
  load : Bool
  /-- A lane instruction (else a scalar one). -/
  lane : Bool
  split : Nat
  parts : List AccPart
  /-- Scalar destination. -/
  sreg : Option SReg
  /-- Tickets of writes that another rank has not acknowledged. -/
  acks : List Nat
  /-- The furthest class it reaches: 0 device, 1 pod, 2 remote or host (R273, R274). -/
  reach : Nat
  /-- Non-ordering atomics are not waited for by releases (R289). -/
  nord : Bool
  /-- Of a lane instruction enqueued in handler mode (R154). -/
  inh : Bool := false
deriving DecidableEq, Repr

/-- A pending replayable fault (R136): cause, address, whether a lane instruction met it, its split, PC and lp. -/
structure PendingFault where
  cause : Byte
  addr : DWord
  lane : Bool
  split : Nat
  pc : DWord
  lp : Word
deriving DecidableEq, Repr

/-- A waiting XSHFL (R224). -/
structure XWait where
  core : Nat
  slot : Nat
  gen : Half
  tag : Byte
  wide : Bool
  mode : Nat
  lanes : LaneMask
  values : Store DWord
  sels : Store Nat
  vd : Nat
  pv : Nat
  since : Nat
deriving DecidableEq, Repr

/-- Where a group's context is (R219). -/
inductive SaveState where
  | running | saving | saved
deriving DecidableEq, Repr

/-- Lanes of a group (R122). -/
structure Lanes where
  /-- Register slots by pool row and lane: row × 32 + LID (R31). -/
  slots : Store Word
  /-- P and L bits of a pool row, one bit for each LID. -/
  pbits : Store LaneMask
  lbits : Store LaneMask
  /-- p1 to p7, one bit for each LID. -/
  preds : Store LaneMask
  alive : LaneMask
  /-- VID by LID. -/
  vids : Store Half
deriving DecidableEq, Repr

/-- The trap CSRs (R151). -/
structure TrapCsrs where
  cause : Word
  pc : DWord
  lp : DWord
  addr : DWord
  lane : DWord
  rpc : DWord
  rlp : DWord
  vec : DWord
  holdA : DWord
  holdB : DWord
deriving DecidableEq, Repr

/-- The other CSRs of a group (R151). -/
structure GroupCsrs where
  rsb : Nat
  spb : DWord
  fflags : BitVec 5
  iflags : BitVec 2
  arrto : DWord
  ovwcnt : DWord
  tokstat : Store DWord
  cqb : Store DWord
  rknan : DWord
  sinstr : DWord
deriving DecidableEq, Repr

/-- A 64-byte line of a descriptor that a reader asked another rank for (R354): the reader (a split, or 32 for the head of the lane
queue), its address, its ticket, and its bytes once answered. -/
structure FarLine where
  who : Nat
  addr : DWord
  ticket : Nat
  bytes : Option (List Byte)
  /-- The core's count of RFENCEs when it was asked for (R181). -/
  epoch : Nat := 0
deriving DecidableEq, Repr

/-- The asynchronous state of a group (R122, R156, R158). -/
structure Async where
  tokens : Store Nat
  /-- Tokens that have an RPUT outstanding (R114). -/
  puts : Byte
  loads : Nat
  stores : Nat
  copies : Nat
  tiles : Nat
  laneq : List LaneEntry
  /-- Entries a lane trap took from the queue (R153). -/
  held : List LaneEntry
  /-- Scalar copies of merged splits that queued entries still read (R125, R129). -/
  frozen : AMap (Store DWord)
  access : AMap Access
  /-- Cycles of the current P stall or XSHFL wait (R39): the instant it began. -/
  stall : Option Nat
  xshfl : Option XWait
  /-- The access whose answers from other ranks the head of the lane queue waits for (R281). -/
  laneWait : Option Nat
  /-- The homes of the head's lanes are asked whether they refuse it (1), or have let it through (2), before any lane acts (R87, R281). -/
  laneProbe : Nat := 0
  /-- What the homes of a store's elements answered for their pages, in order (R90, R91). -/
  laneMarks : List Nat := []
  /-- Scalar destinations that an engine or another rank still owes, by split × 32 + register (R138). -/
  owed : NSet
  /-- The descriptor lines at other ranks that instructions not yet issued wait for (R141, R354). -/
  fetches : List FarLine
deriving DecidableEq, Repr

/-- The group's coverage tile: its id and the index of its next listed point (R244). -/
structure CurTile where
  tile : Nat
  given : Nat
deriving DecidableEq, Repr

/-- What stops or moves a group as a whole. -/
structure Control where
  /-- The split in the handler, and whether its trap came from a fetch past a slot's end (R153, R176). -/
  trapSplit : Option Nat
  trapFell : Bool
  fault : Option PendingFault
  /-- The last ARRIVAL_TIMEOUT of each split that has made no progress since (R218). -/
  lastTimeout : List PendingFault
  /-- Stopped by an escalation (R155). -/
  stopped : Bool
  save : SaveState
  arrivals : List RegPacket
  tile : Option CurTile
  /-- Matrix operations not yet closed by MFENCE (R200). -/
  openBatch : List Nat
deriving DecidableEq, Repr

/-- A resident group (R122). -/
structure Group where
  launch : Nat
  node : Nat
  team : Nat
  /-- The group's index in its team, and the team's within its node (R41). -/
  index : Nat
  teamIndex : Nat
  /-- S, the resident slots of a lane (R31). -/
  size : Nat
  diverge : Bool
  lanes : Lanes
  trap : TrapCsrs
  csrs : GroupCsrs
  async : Async
  ctl : Control
  splits : AMap Split
deriving DecidableEq, Repr

/-- State of an instruction-memory slot (R176). -/
inductive SlotState where
  | empty | loading | landed
deriving DecidableEq, Repr

/-- An instruction-memory slot (R176); `fetch` tells the CFETCH that is loading it (group slot, serial, token). -/
structure CodeSlot where
  state : SlotState
  image : Option DWord
  owner : Option Nat
  asid : Nat
  fetch : Option (Nat × Nat × Nat)
  /-- The bytes read at the CFETCH (R177). -/
  bytes : List Byte
  /-- The read met a fault that could not be resolved: the slot stays loading (R177). -/
  failed : Bool
deriving DecidableEq, Repr

/-- A core queue (R161, R162), oldest entry first. -/
structure CoreQueue where
  items : List DWord
  owner : Option Nat
deriving DecidableEq, Repr

/-- An attenuation table (R210). -/
structure Atten where
  weights : Store Half
  owner : Option Nat
deriving DecidableEq, Repr

/-- An entry of the quantum combining buffer (R277), oldest first in its list. -/
structure QuantEntry where
  place : Place
  ty : BitVec 4
  scope : BitVec 2
  sum : BitVec 64
  /-- Contributing splits: group slot × 32 + split. -/
  from_ : NSet
deriving DecidableEq, Repr

/-- A B operand as RKMM finds it (R212): the record with its step's base, and the columns and planes of the tile. -/
structure ResidentB where
  record : List Byte
  cols : Nat
  planes : Nat
deriving DecidableEq, Repr

/-- What a matrix operation does (R197), with what it read at issue. -/
inductive MatKind where
  | mloop (tile : Nat) (a : DWord) (record : List Byte) (count : Nat) (ainc binc : Int)
  | tld (tile : Nat) (addr : DWord) (ty : BitVec 4) (stride : Nat) (rm : BitVec 3) (sat : Bool)
  | tst (tile : Nat) (addr : DWord) (ty : BitVec 4) (stride : Nat) (rm : BitVec 3) (sat : Bool)
  | rkmm (tile : Nat) (block : DWord) (header : DWord) (table : Nat) (b : ResidentB)
  | rkval (block : DWord) (header : DWord) (dest : DWord) (bf : Bool) (table : Nat)
deriving DecidableEq, Repr

/-- A matrix operation in the sequencer's queue (R197). -/
structure MatOp where
  id : Nat
  kind : MatKind
  team : Nat
  launch : Nat
  /-- The issuing group: slot and occupancy serial. -/
  slot : Nat
  serial : Half
  pc : DWord
  /-- Steps committed (of a TLD or TST, rows), and mismatches of the current step (R201). -/
  step : Nat
  misses : Nat
  /-- Accesses to other ranks: whether they are sent, the elements each unanswered ticket covers, and the bytes that came. -/
  sent : Bool
  wait : List (Nat × List Nat)
  vals : AMap (List Byte)
  /-- The fault another rank answered (R355): cause and address. -/
  stop : Option (Byte × DWord)
deriving DecidableEq, Repr

/-- The B that a core's macros hold (R183, R213): its team, and by column and K-block the scale code and the elements' (k, value). -/
structure MacroB where
  team : Nat
  cols : List (List (Nat × List (Nat × Int)))
  /-- The record of the step it was loaded for, with that step's base, and the planes read. -/
  record : List Byte := []
  planes : Nat := 0
deriving DecidableEq, Repr

/-- A rank-engine operation (R205 to R208). -/
structure RankOp where
  num : Nat
  desc : DWord
  bytes : List Byte
  team : Nat
  launch : Nat
  slot : Nat
  serial : Half
  split : Nat
  pc : DWord
  d : SReg
  /-- Its counts, once it has run and its sequence bytes at another rank are not acknowledged yet; their tickets, and the fault they met. -/
  done : Option (Nat × Nat) := none
  acks : List Nat := []
  stop : Option (Byte × DWord) := none
deriving DecidableEq, Repr

/-- A prefetch stream (R259): last line, direction and run length. -/
structure Stream where
  line : Nat
  up : Bool
  run : Nat
deriving DecidableEq, Repr

/-- An L1 data cache (R170): bytes by physical address. -/
structure L1 where
  dirty : AMap Byte
  clean : AMap Byte
  /-- Lines a prefetch brought, until their first demand access (R175). -/
  fetched : NSet
deriving DecidableEq, Repr

/-- A leaf of the page tables as a TLB holds it (R300 to R302): frame, size in bits, permissions, format word. -/
structure Leaf where
  frame : Nat
  bits : Nat
  rd : Bool
  wr : Bool
  atomics : Bool
  /-- Page format (R302): scale frame, stored planes, block length. -/
  format : Option (Nat × Nat × Nat)
deriving DecidableEq, Repr

/-- A TLB entry: address space, first virtual address, leaf. -/
structure TlbEntry where
  asid : Nat
  va : Nat
  leaf : Leaf
deriving DecidableEq, Repr

/-- A core's counters of R151. -/
structure PfCounters where
  issue : DWord
  useful : DWord
  late : DWord
  unused : DWord
  l1miss : DWord
deriving DecidableEq, Repr

/-- A core's matrix and rank engines. -/
structure Engines where
  matq : List MatOp
  nextOp : Nat
  /-- The last number MFENCE gave, and the operations each unfinished batch still has (R200). -/
  mtxLast : Nat
  batches : AMap (List Nat)
  macroB : Option MacroB
  rankq : List RankOp
  rankLast : Nat
deriving DecidableEq, Repr

/-- A core. -/
structure Core where
  imem : Store Byte
  codeSlots : AMap CodeSlot
  queues : AMap CoreQueue
  l1 : L1
  /-- The record cache: address space × 2^64 + address (R180). -/
  records : AMap (List Byte)
  atten : AMap Atten
  quant : List QuantEntry
  engines : Engines
  counters : PfCounters
  tlb : List TlbEntry
  streams : List Stream
  /-- Lines whose record notice the home has taken (R262). -/
  grants : NSet
  /-- Lines that have a miss entry of the turn in progress (R174). -/
  misses : NSet := []
  /-- RFENCEs so far (R181). -/
  fences : Nat := 0
deriving DecidableEq, Repr

/-- What a collective ends with (R389, R393): STATUS, COUNT, NANSEEN, RERUN, and the result's elements; an element that is none stays as
the member's own contribution. -/
structure CollOut where
  status : Nat
  count : Nat
  nan : Bool
  rerun : Bool
  words : List (Option Word)
deriving DecidableEq, Repr

/-- A team's collective (R384 to R394). -/
structure Collective where
  num : Nat
  tile : Nat
  op : Nat
  red : Nat
  record : List Byte
  recAddr : DWord
  word : DWord
  /-- Group indices that have registered it. -/
  joined : NSet
  started : Bool
  /-- Its tile has been read to the image (R386). -/
  begun : Bool
  /-- The round it runs in, the members' staging buffers and the member's own contribution. -/
  round : Half
  members : List Nat
  own : List Word
  /-- When it began or a piece last landed (R390). -/
  since : Nat
  /-- The leader's value of its local set, and whether a NaN entered it (R388). -/
  comb : Option (List Word × Bool)
  /-- Slices in a cell, with when each was sent; the cells' answers; busy slices, with when each is resent; slices rerun among the
  leaders, with when each rerun began (R392 to R394). -/
  sent : AMap Nat
  answers : AMap CellReply
  resend : AMap Nat
  rerun : AMap Nat
  out : Option CollOut
deriving DecidableEq, Repr

/-- A placed team (R166 to R168). -/
structure Team where
  launch : Nat
  node : Nat
  index : Nat
  core : Nat
  /-- Group slots by group index; a retired group's index is absent. -/
  groups : AMap Nat
  count : Nat
  part : DWord
  rcb : Nat
  asid : Nat
  saveSlot : Option (Nat × Nat)
  poolSlot : Option (Nat × Nat)
  spillSlot : Nat × Nat
  /-- The slot group 0 was placed in, which names the team's collective timeline (R422). -/
  slot0 : Nat
  scratch : Store Byte
  /-- Accumulator elements: tile × 2^17 + row × 2^9 + column. -/
  tiles : Store Word
  tcfg : Store Word
  residentB : Option ResidentB
  colls : List Collective
  poolSaved : Bool
  started : Nat
  /-- Chosen for pre-emption, or saved, since an instant (R328). -/
  out : Option Nat
  /-- Slots and occupancy serials of groups that have left the team: an entry of theirs still names its scratchpad (R234). -/
  gone : List (Nat × Half) := []
deriving DecidableEq, Repr

/-- The kind of a live sync word (R283). -/
inductive SyncKind where
  | barrier | counter
deriving DecidableEq, Repr

/-- The instance of a scope record (R262). -/
inductive ScopeRec where
  | team (core : Nat) | device | pod (rank : Nat) | job
deriving DecidableEq, Repr

/-- A line in commutative-update state (R260): operator, type, and each core's elements by offset. -/
structure CuLine where
  op : Nat
  ty : BitVec 4
  partials : AMap (AMap (BitVec 64))
  /-- Cores whose partial has left their L1 and is kept by the home. -/
  atHome : NSet := []
deriving DecidableEq, Repr

/-- A shootdown or migration in progress (R305, R306). -/
structure Shoot where
  tag : Byte
  asid : Nat
  va : Nat
  len : Nat
  remap : Bool
  since : Nat
  /-- A migration: page size, new frame, new scale frame. -/
  move : Option (Nat × Nat × Nat)
deriving DecidableEq, Repr

/-- Who waits on a fault record (R304). -/
inductive Waiter where
  | group (core slot : Nat)
  | copy (entry : Nat)
  | cover (launch : Nat)
  /-- An instruction-memory slot that is loading (R177). -/
  | code (core slot : Nat)
  /-- The matrix sequencer or the rank engine of a core (R424). -/
  | engine (core : Nat) (rank : Bool)
  /-- A media job. -/
  | job (n : Nat)
  /-- A launch whose graph parameters are to be copied (R326). -/
  | launch (l : Nat)
  /-- A packet of another rank that waits at its home (R355). -/
  | packet (n : Nat)
  /-- A team's collective engine, which reads the member table (R381). -/
  | coll (team : Nat)
deriving DecidableEq, Repr

/-- A table entry of levels 0 to 3 that a die's walkers keep (R304): the address space, the range its index selects (first address and
bits), its address and its value. -/
structure WalkEntry where
  asid : Nat
  va : Nat
  bits : Nat
  place : Nat
  value : Nat
deriving DecidableEq, Repr

/-- A fault record (R304): die, address space, 64 KiB page, waiters in order. -/
structure FaultRec where
  die : Nat
  asid : Nat
  page : Nat
  waiters : List Waiter
  /-- Reported to the host. -/
  reported : Bool
  /-- The host answered that there is no mapping. -/
  denied : Bool
  /-- The walk met a malformed entry (R301). -/
  tableError : Bool := false
deriving DecidableEq, Repr

/-- A revocation record (R305). -/
structure Revoked where
  launch : Nat
  asid : Nat
  va : Nat
  len : Nat
  remap : Bool
deriving DecidableEq, Repr

/-- A `.keep` copy of a pod line (R354): core, group slot, split, its global line address and bytes. -/
structure KeepCopy where
  core : Nat
  slot : Nat
  split : Nat
  line : Nat
  bytes : List Byte
deriving DecidableEq, Repr

/-- The memory of the package and its metadata. -/
structure Mem where
  /-- HBM with the L2 homes folded in, by physical address (R255, R298). -/
  hbm : List Host.Cell
  /-- Live sync words by physical address / 8 (R283). -/
  sync : AMap SyncKind
  poison : NSet
  scopes : AMap ScopeRec
  /-- Pins by line and launch (R182). -/
  pins : AMap (AMap Nat)
  /-- The pages a pinned line was pinned through: address space and 64 KiB page. -/
  pinPages : AMap (List (Nat × Nat))
  revoked : List Revoked
  cu : AMap CuLine
  /-- Lines present in their home slice, and requests that wait for a line (core of each; R257). -/
  l2 : NSet
  msrs : AMap (List Nat)
  keeps : List KeepCopy
  /-- The timeline window's words by offset / 8 (R422). -/
  window : Store DWord
  roots : AMap Nat
  /-- L2 TLBs by cluster (R304). -/
  tlbs : AMap (List TlbEntry)
  faults : List FaultRec
  shoots : AMap Shoot
  /-- Bytes mapped on demand under each RCB (R304, R309), and the next free frame of firmware. -/
  demand : AMap Nat
  nextFrame : Nat
  /-- The RCB under which a 64 KiB frame was mapped on demand: address space and RCB (R308). -/
  owners : AMap (Nat × Nat)
  /-- The walk cache of each die, newest last, and the parties that wait for room in its fault table (R304). -/
  walkCache : AMap (List WalkEntry) := []
  overflow : List FaultRec := []
  /-- The 64 KiB frame, and the page format, of each page that lines are pinned through, by `pinKey` (R182, R305). -/
  pinFrames : AMap (Nat × Option (Nat × Nat × Nat)) := []
  /-- Words that were timelines of a coverage launch or copy queue that is over, by physical address / 8, with the context's scope (R279). -/
  timed : AMap (BitVec 2) := []
deriving DecidableEq, Repr

/-- A registered copy queue (R225, R229). -/
structure CopyQueue where
  desc : DWord
  asid : Nat
  launch : Nat
  engine : Nat
  /-- When the head became the head with the write index above it (R229). -/
  headSince : Option Nat
  /-- Completed entries at or above the timeline (R231). -/
  done : NSet
  /-- A QUEUE event is due but an earlier one is unacknowledged (R338). -/
  held : Bool
deriving DecidableEq, Repr

/-- A taken or armed copy entry (R230, R231). `queue` is none for a unit 1 node's entry. -/
structure CopyEntry where
  queue : Option Nat
  index : Nat
  bytes : List Byte
  asid : Nat
  launch : Nat
  node : Nat
  /-- Copy engine: cluster of the package × 2 + engine. -/
  engine : Nat
  /-- The issuing group's team, whose scratchpad the entry may name (R234). -/
  team : Option Nat
  armed : Bool
  /-- Bytes of a class 2 entry already counted as landed (R231), and the bytes it writes in all. -/
  landed : Nat
  total : Nat
  /-- Source bytes that other ranks answered, by address, and the unanswered tickets with what each covers. -/
  far : List (DWord × List Byte)
  wait : List (Nat × List (DWord × Nat))
  /-- Unacknowledged writes at other ranks. -/
  acks : List Nat
  executed : Bool
  status : Nat
  /-- Taken, but the words its checks need are not mapped yet (R230, R234). -/
  unstarted : Bool := false
  /-- The destination and source records of a tensor copy, read when it was taken (R237). -/
  recs : Option (List Byte × List Byte) := none
  /-- The counter of a bin scatter that overflowed (R286). -/
  overflow : Option Nat := none
deriving DecidableEq, Repr

/-- A skip pattern (R240). -/
structure Pattern where
  lp : List Nat
  mask : BitVec 64
  sh0 : Nat
  sh1 : Nat
deriving DecidableEq, Repr

/-- A dispatched coverage tile: rung, the number of its first skipped point, who holds it, whether it is done. -/
structure CoverTile where
  rung : Nat
  firstSkip : Nat
  done : Bool
deriving DecidableEq, Repr

/-- A coverage launch's walker, controller and reconstruction (R239 to R250). -/
structure Cover where
  /-- A core of the cluster whose slice owns the launch (R242). -/
  core : Nat
  desc : DWord
  aexp : Nat
  start : Nat
  ladder : List Pattern
  dims : Nat
  extents : List Nat
  shape : List Nat
  lo : Word
  hi : Word
  interval : Nat
  outRec : List Byte
  auditRec : List Byte
  log : DWord
  timeline : DWord
  /-- Tiles dispatched, skipped points numbered. -/
  next : Nat
  skipped : Nat
  rung : Nat
  /-- Update instants taken. -/
  instants : Nat
  tiles : AMap CoverTile
  /-- Error estimates of the audits of each tile, in walker order. -/
  errs : AMap (List Word)
  recon : NSet
  /-- The timeline stops before this tile (R247). -/
  failed : Option Nat
  final : Nat
  finished : Bool
  /-- Bytes other ranks have answered for the operation at hand, and the tickets that ask for more, with the addresses asked (R246). -/
  far : List (DWord × List Byte) := []
  wait : List (Nat × List DWord) := []
  /-- A fault that a read at another rank met. -/
  bad : Option (Byte × DWord) := none
  /-- Stores at other ranks that are not performed, by ticket: the tile, and whether it is its log byte (R242, R247). -/
  acks : AMap (Nat × Bool) := []
  /-- The timeline is to be advanced. -/
  owed : Bool := false
deriving DecidableEq, Repr

/-- A command ring (R318). -/
structure Ring where
  asid : Nat
  desc : DWord
  merger : Nat
  index : Nat
  headSince : Option Nat
  stalled : Bool
  held : Bool
deriving DecidableEq, Repr

/-- A merge unit (R319): the last ring served, a turn that waits for a chained entry (ring, entries taken, since), and the packets
taken but not yet drawn by the Masthead controller, with where each packet lies. -/
structure Merger where
  last : Nat
  chain : Option (Nat × Nat × Nat)
  taken : List (Nat × DWord × List Byte)
deriving DecidableEq, Repr

/-- Where a node stands (R316). -/
inductive NodeState where
  | waiting | ready | running | done
deriving DecidableEq, Repr

/-- A node (R312 to R317). -/
structure Node where
  record : List Byte
  rcb : Nat
  s1 : DWord
  s2 : DWord
  count : Nat
  reserved : Nat
  /-- Handles whose completion this node's `auto` counts. -/
  auto : List Nat
  succ : List Nat
  state : NodeState
  toPlace : Nat
  retired : Nat
  /-- Its place in the pool, when it entered, and the levels ageing has raised it (R327). -/
  order : Nat
  since : Nat
  raised : Nat
  entry : List Byte
  graph : Bool
deriving DecidableEq, Repr

/-- A launch (R320 to R326). -/
structure Launch where
  asid : Nat
  /-- The packet: address space of the ring and virtual address; kind 2 launches have no segment table of their own. -/
  packetAsid : Nat
  packet : DWord
  rcb : Nat
  segtab : DWord
  done : DWord
  counter : Nat
  nextHandle : Nat
  nodes : AMap Node
  queues : List DWord
  /-- Registered copy queues by key. -/
  queueKeys : List Nat
  escalated : Bool
  cancelling : Bool
  /-- Graph descriptor and instance (R326). -/
  graph : Option (Nat × Nat)
  waitingGraph : Bool
  kind : Nat
  cover : Option Cover
  domain : Nat
deriving DecidableEq, Repr

/-- A media job (R342): launch, node, descriptor bytes and address, frames written. -/
structure MediaJob where
  launch : Nat
  node : Nat
  desc : DWord
  bytes : List Byte
  frames : Nat
  /-- Formats of pages at other ranks that have been answered, the tickets that ask for one, with the page, and the stores of the frame being
  written that are not performed there (R280, R354). -/
  far : List (DWord × List Byte) := []
  wait : List (Nat × DWord) := []
  acks : List Nat := []
deriving DecidableEq, Repr

/-- The Masthead controller (R313 to R329). -/
structure Masthead where
  rings : AMap Ring
  mergers : AMap Merger
  nextMerger : Nat
  launches : AMap Launch
  /-- The next launch's number; 0 is no launch. -/
  nextLaunch : Nat
  teams : AMap Team
  nextTeam : Nat
  /-- Deficits of RCBs (R327), and the pool's entry counter. -/
  deficits : Store Nat
  poolNext : Nat
  jobs : AMap MediaJob
  nextJob : Nat
deriving DecidableEq, Repr

/-- An event entry (R336). -/
structure EventEntry where
  kind : Nat
  domain : Nat
  cause : Byte
  subject : DWord
  detail1 : DWord
  detail2 : DWord
deriving DecidableEq, Repr

/-- The event ring (R337, R338). -/
structure EventRing where
  base : Option (Nat × Nat)
  write : Nat
  ack : Nat
  ovf : Bool
  count : Nat
  /-- Entries as written, by index: what the device put into host memory. -/
  written : AMap EventEntry
  backlog : List EventEntry
  records : List EventEntry
deriving DecidableEq, Repr

/-- How far boot has come (R334). -/
inductive BootPhase where
  | off | awaitFirmware | running
deriving DecidableEq, Repr

/-- Firmware and device services (chapter 20) and the guard's tables (chapters 21, 22). -/
structure Device where
  phase : BootPhase
  measurement : Option (BitVec 384)
  keys : AMap (BitVec 128)
  rank : Nat
  keyIndex : Nat
  ranges : List (Nat × Nat)
  rootNode : List Byte
  regions : List (List Byte)
  /-- Regions whose first skipped count has been reported since GUARD (R423). -/
  skipNoted : NSet
  pathSets : List (List Byte)
  plan : Option (List Byte)
  /-- A GUARD that waits for accesses translated before it (R346). -/
  guardPending : Option (Byte × GuardReq)
  topology : Topology
  cap : Nat
  power : Nat
  /-- Issue turns and sequencer steps the limiter withholds, in thousandths, and when it last measured (R343). -/
  withheld : Nat
  sampled : Nat := 0
  /-- Fibres whose lasers the interlock has turned off. -/
  lasersOff : NSet
  heartbeat : Nat
  tripped : Bool
  fabricQuiet : Bool
  events : EventRing
  counters : AMap DWord
  thresholds : AMap DWord
  slotTables : AMap (List (BitVec 4) × Byte)
  /-- Clusters whose Pennant controller left a message unanswered for 2 ms, with the instant (R330, R332). -/
  links : AMap Nat
  /-- Reduction cells: die × 256 + cell. -/
  cells : NSet
deriving DecidableEq, Repr

/-- A reduction cell (R392, R393): the round it is in, and while contributions are in it the slice, the leaders it waits for, when the
first came and the timer. -/
structure CellState where
  round : Half
  slice : Nat
  leaders : Nat
  since : Nat
  timer : Nat
  got : List CellContrib
deriving DecidableEq, Repr

/-- Who awaits the answer to a ticket. -/
inductive Owner where
  /-- A part of an outstanding access: core, slot, access id. -/
  | access (core slot id : Nat)
  /-- A split waiting in `reply`, BWAIT or WAITTL. -/
  | split (core slot split : Nat)
  /-- Descriptor lines of an instruction not yet issued: the reader is a split, or 32 for the head of the lane queue. -/
  | fetch (core slot who : Nat)
  | copy (entry : Nat)
  | quantum (core : Nat)
  /-- A transfer or contribution of a team's collective (R389). -/
  | coll (team : Nat)
  /-- A matrix operation of a core (R199). -/
  | matrix (core op : Nat)
  /-- The sequence bytes of an RKENC of a core (R208). -/
  | rank (core num : Nat)
  /-- The unit of a coverage launch (R246, R247). -/
  | cover (launch : Nat)
  /-- A media job (R342). -/
  | job (job : Nat)
  | put (put : Nat)
  /-- A write made for a team (R313). -/
  | team (team : Nat)
  | none
deriving DecidableEq, Repr

/-- An access to another rank that is outstanding (R354 to R356). -/
structure Ticket where
  owner : Owner
  rank : Nat
  /-- 0 pod, 1 remote, 2 host (R347). -/
  cls : Nat
  addr : DWord
  /-- How each answer's bytes become a value (R42, R94): where there is a `src`, read as it and converted to `ty` under `rm`. -/
  ty : BitVec 4
  src : Option (BitVec 4)
  rm : BitVec 3
  /-- Lane and global address of each access the packet asks for, in order. -/
  lanes : List (Nat × DWord)
  /-- A `.keep` load's core, group slot and split (R354). -/
  keep : Option (Nat × Nat × Nat)
deriving DecidableEq, Repr

/-- An RPUT outstanding (R114 to R116). -/
structure Put where
  core : Nat
  slot : Nat
  serial : Half
  token : Nat
  split : Nat
  launch : Nat
  senders : List Nat
  packet : RegPacket
  /-- 0 own rank, 1 pod, 2 remote or host. -/
  reach : Nat
  target : Nat
  sent : Bool
  /-- The status word, once every lane has an outcome (R116). -/
  outcome : Option DWord
deriving DecidableEq, Repr

/-- An unacknowledged packet in the retransmit store (R377): attempts, the instant last sent, and whether it was resent because later
packets were accepted. -/
structure Flight where
  pkt : Packet
  tries : Nat
  sent : Nat
  fast : Bool
deriving DecidableEq, Repr

/-- The remote transport's state for one peer (R352, R375 to R378). -/
structure Peer where
  nextPsn : BitVec 32
  /-- Unacknowledged packets by PSN. -/
  flight : AMap Flight
  /-- Packets waiting for the window. -/
  queue : List Packet
  /-- Lost PSNs whose retire notice the target has not acknowledged, with the instant it was last sent. -/
  retiring : AMap Nat
  /-- As a target: every PSN below `cum` is accepted, and those of `accepted` above it. -/
  cum : BitVec 32
  accepted : NSet
  /-- The last 64 atomics applied: PSN, ticket and answer (R378). -/
  atomics : List (Nat × Nat × List (List Byte))
  lastUse : Nat
  net : Nat
  pathSet : Nat
deriving DecidableEq, Repr

/-- A path set's congestion state (R374). -/
structure PathState where
  weights : Store Nat
  window : Nat
  last : Nat
  /-- Packets sent on the last path in its turn. -/
  turn : Nat
  unmarked : Store Nat
  /-- When a path's weight fell to 0, and when the window last fell. -/
  zeroed : AMap Nat
  shrunk : Option Nat
deriving DecidableEq, Repr

/-- Reservations on receive queues (R115, R364). As a sender, by target: unused, and unused or not yet returned; a target is a rank,
or 2^20 + core for this core's own device. As a target, by source in the same numbering: granted, and applied since a block was
returned. -/
structure Reserve where
  held : Store Nat
  total : Store Nat
  asked : NSet
  lastSend : AMap Nat
  granted : Store Nat
  /-- Messages applied since the last block was returned. -/
  applied : Store Nat
  requests : List Nat
deriving DecidableEq, Repr

/-- A BWAIT or WAITTL of another rank registered on a word here (R294, R295): who asks, the awaited phase or count, and the outcome
once there is one: met, or freed. -/
structure FarWait where
  place : Place
  rank : Nat
  ticket : Nat
  barrier : Bool
  value : DWord
  met : Option Bool
deriving DecidableEq, Repr

/-- A packet in a send queue, with the input port it came by: 0 to 23 a pod fibre of the die, 24 its own injection (R365). -/
structure Queued where
  pkt : Packet
  port : Nat
deriving DecidableEq, Repr

/-- The pod and remote fabric. -/
structure Fabric where
  /-- How many phases have begun since EPOCH, over all rotations, and whether a gap is on (R360). -/
  phase : Nat
  gap : Bool
  /-- Pod time in ns at an instant (R360). -/
  podTime : Nat
  podAt : Nat
  /-- Send queues: die × 1024 + destination device (R362). -/
  sendq : AMap (List Queued)
  /-- Since when a queue's head has been at the head with permits, and the queues whose head is aged (R365). -/
  heads : AMap Nat
  aged : NSet
  /-- By egress port: the next slot of the frame, the input port that won last plus one, and the pod time in ps until which it sends. -/
  slots : Store Nat
  lastWin : Store Nat
  /-- Slots of the present frame that RCBs with a fabric share have used, by egress port (R309). -/
  shareUse : AMap (AMap Nat) := []
  busy : Store Nat
  /-- Link permits held by port × 4 + channel, in 64-byte units (R363). -/
  permits : Store Nat
  /-- Unacknowledged requests per target device: ticket and the phase each left in (R362 rule 4). -/
  unacked : AMap (List (Nat × Nat))
  /-- Held copies for NACK, with the die of their send queue (R358): requests by ticket, responses by `copyKey`. -/
  copies : AMap (Nat × Packet)
  /-- Wavelengths per fibre: transmit and receive of the circuit, where not full. -/
  waves : AMap (Nat × Nat)
  /-- Retraining pauses: fibre, or 128 + remote port, and the instant each ends (R368, R370). -/
  paused : AMap Nat
  /-- Packets of other ranks that wait for a page at their home, with the die they came to and whether they came by the pod (R355). -/
  held : AMap (Nat × Bool × Packet)
  nextHeld : Nat
  /-- Answers that came before the acknowledgement of their request (R376). -/
  early : AMap (List (List Byte))
  /-- Pod packets answered with a NACK and not resent yet, by the number they keep among the held ones (R273, R358). -/
  nacked : AMap Packet := []
  /-- Pieces of collectives that have landed in staging buffers here, and what leaders tell the members of their local set: staging
  buffer, round and outcome (R388). -/
  pieces : List Piece
  results : List (Nat × Half × CollOut)
  reserve : Reserve
  /-- Rank caches by die: rank to (class, net, path set); none is unmapped (R349). -/
  ranks : AMap (AMap (Nat × Nat × Nat))
  /-- Waits of other ranks registered here. -/
  waits : List FarWait
  tickets : AMap Ticket
  /-- The next ticket; 0 is none. -/
  nextTicket : Nat
  puts : AMap Put
  nextPut : Nat
  peers : AMap Peer
  paths : AMap PathState
  cells : AMap CellState
  /-- Packets and answers given to the outside, oldest first (log entry 2). -/
  outbox : List Packet
deriving DecidableEq, Repr

/-- An answer on the privileged channel (R333): tag, status, data. -/
structure Answer where
  tag : Byte
  status : Nat
  data : List Byte
deriving DecidableEq, Repr

/-- The package. -/
structure State where
  sched : Sched
  /-- CYCLE: core cycles since device reset (R151, log entry 3). -/
  now : Nat
  mem : Mem
  cores : AMap Core
  /-- Resident groups: core × 32 + slot. -/
  groups : AMap Group
  /-- Generation and occupancy serial of each group slot (R107, R108). -/
  gens : Store Half
  serials : Store Half
  head : Masthead
  queues : AMap CopyQueue
  nextQueue : Nat
  entries : AMap CopyEntry
  nextEntry : Nat
  dev : Device
  fabric : Fabric
  /-- Answers given on the privileged channel, oldest first (log entry 2). -/
  answers : List Answer
deriving DecidableEq, Repr

/-- Why a step cannot be taken. -/
inductive Fault where
  /-- Raised by every meaning of a scalar or lane instruction when the schedule names no resident group, no split of it, or no lane
  entry: no such instruction is executed in hardware. Safe. -/
  | noContext
deriving DecidableEq, Repr

/-- Why the model gives no meaning. -/
inductive Refusal where
  /-- An arm of `exec` that has no meaning yet. Safe. -/
  | notModelled (mnemonic : String)
deriving DecidableEq, Repr

/-- What a step answers. -/
abbrev Out := Host.Outcome State Fault Refusal

namespace State

/-- The topology of a full part (R1, R341). -/
def fullTopology : Topology :=
  { cores := BitVec.allOnes 384, slices := BitVec.allOnes 384, channels := BitVec.allOnes 512, clusters := BitVec.allOnes 48,
    lit := [] }

/-- The package right after device reset. Values the spec does not give are those of log entry 5. -/
def reset : State :=
  { sched := { agenda := [], wake := [], flip := false, rotor := 0, core := 0, slot := 0, split := 0, free := 0 },
    now := 0,
    mem := { hbm := [], sync := [], poison := [], scopes := [], pins := [], pinPages := [], revoked := [], cu := [], l2 := [], msrs := [],
             keeps := [], window := [], roots := [], tlbs := [], faults := [], shoots := [], demand := [], nextFrame := 0,
             owners := [] },
    cores := [], groups := [], gens := [], serials := [],
    head := { rings := [], mergers := [], nextMerger := 0, launches := [], nextLaunch := 1, teams := [], nextTeam := 0,
              deficits := [], poolNext := 0, jobs := [], nextJob := 0 },
    queues := [], nextQueue := 0, entries := [], nextEntry := 0,
    dev := { phase := .off, measurement := none, keys := [], rank := 0, keyIndex := 0, ranges := [], rootNode := [],
             regions := [], skipNoted := [], pathSets := [], plan := none, guardPending := none, topology := fullTopology,
             cap := 3200, power := 0, withheld := 0, lasersOff := [], heartbeat := 0, tripped := false, fabricQuiet := false,
             events := { base := none, write := 0, ack := 0, ovf := false, count := 0, written := [], backlog := [],
                         records := [] },
             counters := [], thresholds := [], slotTables := [], links := [], cells := [] },
    fabric := { phase := 0, gap := true, podTime := 0, podAt := 0, sendq := [], heads := [], aged := [], slots := [], lastWin := [],
                busy := [], permits := [], unacked := [], copies := [], waves := [], paused := [], held := [], nextHeld := 0, early := [],
                pieces := [], results := [],
                reserve := { held := [], total := [], asked := [], lastSend := [], granted := [], applied := [], requests := [] },
                ranks := [], waits := [], tickets := [], nextTicket := 1, puts := [], nextPut := 0, peers := [], paths := [], cells := [],
                outbox := [] },
    answers := [] }

end State
end Sys2Proof.Machine
end

