-- ==== Sys2Proof/Machine/Basic.lean ====
section
/-! DEFINITION. Where the parts of the machine lie, and the accessors every meaning reads and writes State through. -/
namespace Sys2Proof.Machine

/-! ### Cores, clusters and locations (R253, R151) -/

/-- Global id of core `k` of cluster `c` of die `d` (R253). -/
def coreOfLoc (d c k : Nat) : Nat := d * 96 + 12 * (2 * (c / 3) + k / 4) + 4 * (c % 3) + k % 4
def dieOf (core : Nat) : Nat := core / 96
/-- Cluster within the die, and core within the cluster. -/
def clusterIn (core : Nat) : Nat := 3 * ((core % 96 / 12) / 2) + (core % 96 % 12) / 4
def coreIn (core : Nat) : Nat := 4 * ((core % 96 / 12) % 2) + (core % 96 % 12) % 4
/-- Cluster of the package, 0 to 47. -/
def clusterOf (core : Nat) : Nat := dieOf core * 12 + clusterIn core
/-- LOCID (R151). -/
def locid (core slot : Nat) : Nat := dieOf core * 4096 + clusterIn core * 256 + coreIn core * 32 + slot
/-- Core and slot of a LOCID; none when the cluster field is 12 to 15. -/
def ofLocid (loc : Nat) : Option (Nat × Nat) :=
  if loc / 256 % 16 < 12 then some (coreOfLoc (loc / 4096 % 4) (loc / 256 % 16) (loc / 32 % 8), loc % 32) else none
/-- Key of a group slot. -/
def gkey (core slot : Nat) : Nat := core * 32 + slot

/-! ### Fresh records -/

/-- A core at device reset (log entry 5). -/
def Core.fresh : Core :=
  { imem := [], codeSlots := [], queues := [], l1 := { dirty := [], clean := [], fetched := [] }, records := [], atten := [],
    quant := [],
    engines := { matq := [], nextOp := 0, mtxLast := 0, batches := [], macroB := none, rankq := [], rankLast := 0 },
    counters := { issue := 0, useful := 0, late := 0, unused := 0, l1miss := 0 }, tlb := [], streams := [], grants := [] }
/-- An instruction-memory slot at device reset: empty, no image, no owner (log entry 5). -/
def CodeSlot.fresh : CodeSlot :=
  { state := .empty, image := none, owner := none, asid := 0, fetch := none, bytes := [],
    failed := false }
def CoreQueue.fresh : CoreQueue := { items := [], owner := none }
def Atten.fresh : Atten := { weights := [], owner := none }
/-- The lanes of a group at its start (R33, R40, R41). -/
def Lanes.fresh (index : Nat) : Lanes :=
  { slots := [], pbits := [], lbits := [], preds := [], alive := BitVec.allOnes 32,
    vids := lanes32.foldl (fun m i => stSet 0 m i (BitVec.ofNat 16 (32 * index + i))) [] }
def TrapCsrs.fresh (vec : DWord) : TrapCsrs :=
  { cause := 0, pc := 0, lp := 0, addr := 0, lane := 0, rpc := 0, rlp := 0, vec := vec, holdA := 0, holdB := 0 }
/-- CSRs at group start (R33, R39, R52, R151, R226). -/
def GroupCsrs.fresh (spb : DWord) (cqb : Store DWord) : GroupCsrs :=
  { rsb := 0, spb := spb, fflags := 0, iflags := 0, arrto := 16777216, ovwcnt := 0, tokstat := [], cqb := cqb, rknan := 0,
    sinstr := 0 }
def Async.fresh : Async :=
  { tokens := [], puts := 0, loads := 0, stores := 0, copies := 0, tiles := 0, laneq := [], held := [], frozen := [], access := [],
    stall := none, xshfl := none, laneWait := none, owed := [], fetches := [] }
def Control.fresh : Control :=
  { trapSplit := none, trapFell := false, fault := none, lastTimeout := [], stopped := false, save := .running, arrivals := [],
    tile := none, openBatch := [] }
/-- The first split of a group (R122, R314). -/
def Split.fresh (pc s1 s2 : DWord) : Split :=
  { pc := pc, fell := false, lp := 0, wb := 0, sregs := stSet 0 (stSet 0 [] 1 s1) 2 s2, cbits := 0,
    mask := BitVec.allOnes 32, status := .ready, lastIssue := 0, runs := [], naps := [], pstall := none }

/-! ### Scalar registers and condition bits (R9, R137) -/

/-- A scalar register; s0 reads 0. -/
def Split.reg (sp : Split) (r : SReg) : DWord := if r = 0 then 0 else stGet 0 sp.sregs r.toNat
/-- Write a scalar register; a write of s0 is discarded. -/
def Split.setReg (sp : Split) (r : SReg) (v : DWord) : Split :=
  if r = 0 then sp else { sp with sregs := stSet 0 sp.sregs r.toNat v }
def Split.cbit (sp : Split) (n : BitVec 3) : Bool := sp.cbits.getLsbD n.toNat
def Split.setCbit (sp : Split) (n : BitVec 3) (b : Bool) : Split :=
  { sp with cbits := if b then sp.cbits ||| BitVec.ofNat 8 (2 ^ n.toNat) else sp.cbits &&& ~~~(BitVec.ofNat 8 (2 ^ n.toNat)) }
/-- Continue at PC + 4; past a slot's last word the next fetch raises SEGMENT_CROSS (R176). -/
def Split.advance (sp : Split) : Split :=
  { sp with pc := sp.pc + 4, fell := (sp.pc.toNat + 4) % 8192 == 0 }
/-- Continue at a target. -/
def Split.goto (sp : Split) (pc : DWord) : Split := { sp with pc := pc, fell := false }
/-- The instruction-memory slot of an address (R6). -/
def pcSlot (pc : DWord) : Nat := pc.toNat / 8192

/-! ### Group storage -/

/-- The pool row of absolute slot `k` (R31). -/
def Group.row (g : Group) (k : Nat) : Nat := if g.size = 0 then k else k % g.size
def Group.slotVal (g : Group) (k lane : Nat) : Word := stGet 0 g.lanes.slots (g.row k * 32 + lane)
def Group.setSlot (g : Group) (k lane : Nat) (v : Word) : Group :=
  { g with lanes := { g.lanes with slots := stSet 0 g.lanes.slots (g.row k * 32 + lane) v } }
def Group.pmask (g : Group) (k : Nat) : LaneMask := stGet 0 g.lanes.pbits (g.row k)
def Group.lmask (g : Group) (k : Nat) : LaneMask := stGet 0 g.lanes.lbits (g.row k)
def Group.setP (g : Group) (k : Nat) (m : LaneMask) : Group :=
  { g with lanes := { g.lanes with pbits := stSet 0 g.lanes.pbits (g.row k) m } }
def Group.setL (g : Group) (k : Nat) (m : LaneMask) : Group :=
  { g with lanes := { g.lanes with lbits := stSet 0 g.lanes.lbits (g.row k) m } }
/-- A predicate; p0 reads true in every lane (R40). -/
def Group.pred (g : Group) (p : Nat) : LaneMask := if p = 0 then BitVec.allOnes 32 else stGet 0 g.lanes.preds p
/-- Write a predicate; a write of p0 is discarded (R40). -/
def Group.setPred (g : Group) (p : Nat) (m : LaneMask) : Group :=
  if p = 0 then g else { g with lanes := { g.lanes with preds := stSet 0 g.lanes.preds p m } }
def Group.resident (g : Group) (k : Nat) : Bool := decide (g.csrs.rsb ≤ k) && decide (k < g.csrs.rsb + g.size)

/-! ### Records of State -/

def State.group (s : State) (k : Nat) : Option Group := amGet s.groups k
def State.putGroup (s : State) (k : Nat) (g : Group) : State := { s with groups := amSet s.groups k g }
def State.modGroup (s : State) (k : Nat) (f : Group → Group) : State := { s with groups := amMod f s.groups k }
def State.core (s : State) (c : Nat) : Core := (amGet s.cores c).getD Core.fresh
def State.putCore (s : State) (c : Nat) (x : Core) : State := { s with cores := amSet s.cores c x }
def State.modCore (s : State) (c : Nat) (f : Core → Core) : State := s.putCore c (f (s.core c))
def State.team (s : State) (t : Nat) : Option Team := amGet s.head.teams t
def State.modTeam (s : State) (t : Nat) (f : Team → Team) : State :=
  { s with head := { s.head with teams := amMod f s.head.teams t } }
def State.launch (s : State) (l : Nat) : Option Launch := amGet s.head.launches l
def State.modLaunch (s : State) (l : Nat) (f : Launch → Launch) : State :=
  { s with head := { s.head with launches := amMod f s.head.launches l } }
/-- Key of the executing group. -/
def State.curKey (s : State) : Nat := gkey s.sched.core s.sched.slot
def State.curGroup (s : State) : Option Group := s.group s.curKey
def Group.split (g : Group) (k : Nat) : Option Split := amGet g.splits k
def Group.putSplit (g : Group) (k : Nat) (sp : Split) : Group := { g with splits := amSet g.splits k sp }
def Group.modSplit (g : Group) (k : Nat) (f : Split → Split) : Group := { g with splits := amMod f g.splits k }
/-- Put the executing group with its executing split. -/
def State.put (s : State) (g : Group) (sp : Split) : State :=
  s.putGroup s.curKey (g.putSplit s.sched.split sp)
/-- Change a split of a group. -/
def State.modSplit (s : State) (key split : Nat) (f : Split → Split) : State :=
  s.modGroup key fun g => g.modSplit split f

def Group.modAsync (g : Group) (f : Async → Async) : Group := { g with async := f g.async }
def Group.modCtl (g : Group) (f : Control → Control) : Group := { g with ctl := f g.ctl }
def Group.modCsrs (g : Group) (f : GroupCsrs → GroupCsrs) : Group := { g with csrs := f g.csrs }
def Group.modTrap (g : Group) (f : TrapCsrs → TrapCsrs) : Group := { g with trap := f g.trap }
def State.modMem (s : State) (f : Mem → Mem) : State := { s with mem := f s.mem }
def State.modHead (s : State) (f : Masthead → Masthead) : State := { s with head := f s.head }
def State.modDev (s : State) (f : Device → Device) : State := { s with dev := f s.dev }
def State.modFab (s : State) (f : Fabric → Fabric) : State := { s with fabric := f s.fabric }
/-- Make an event due, unless it is due already (log entry 1). -/
def State.wakeUp (s : State) (i : Instr) : State :=
  if s.sched.wake.contains (.event i) then s else { s with sched := { s.sched with wake := s.sched.wake ++ [.event i] } }
/-- The next free value (log entry 10). -/
def State.freeVal (s : State) : BitVec 64 := Config.freeWord s.sched.free
def State.freeNat (s : State) (n : Nat) : Nat := if n = 0 then 0 else Config.freeChoice s.sched.free % n
def State.usedFree (s : State) : State := { s with sched := { s.sched with free := s.sched.free + 1 } }

def State.codeSlot (s : State) (core k : Nat) : CodeSlot := (amGet (s.core core).codeSlots k).getD CodeSlot.fresh
def State.setCodeSlot (s : State) (core k : Nat) (x : CodeSlot) : State :=
  s.modCore core fun c => { c with codeSlots := amSet c.codeSlots k x }
def State.gen (s : State) (key : Nat) : Half := stGet 0 s.gens key
def State.bumpGen (s : State) (key : Nat) : State := { s with gens := stSet 0 s.gens key (s.gen key + 1) }
def State.serial (s : State) (key : Nat) : Half := stGet 0 s.serials key

/-- Whether launch `l` has a team on core `c`. -/
def State.hasTeam (s : State) (l c : Nat) : Bool := s.head.teams.any fun t => t.2.launch == l && t.2.core == c

/-! ### Lane work of a split (R124) -/

/-- The entries of the lane queue that have not issued: an XSHFL that waits at its head has (R224). -/
def Group.unissued (g : Group) : List LaneEntry := if g.async.xshfl.isSome then g.async.laneq.drop 1 else g.async.laneq
/-- Lane instructions the split enqueued have all issued. -/
def Group.issued (g : Group) (split : Nat) : Bool :=
  g.unissued.all fun e => !(e.tag.split == split)
/-- Lane instructions the split enqueued have all completed. -/
def Group.laneDone (g : Group) (split : Nat) : Bool :=
  g.async.laneq.all (fun e => !(e.tag.split == split)) && g.async.access.all fun a => !(a.2.lane && a.2.split == split)
/-- Lane instructions the split enqueued in its handler have all completed (R154). -/
def Group.handlerDone (g : Group) (split : Nat) : Bool :=
  g.async.laneq.all (fun e => !(e.tag.split == split && e.tag.inh))
    && g.async.access.all fun a => !(a.2.lane && a.2.split == split && a.2.inh)
/-- Lane instructions the group enqueued have all completed. -/
def Group.allLaneDone (g : Group) : Bool :=
  g.async.laneq.isEmpty && g.async.access.all fun a => !a.2.lane
/-- Outstanding accesses of a split that a release waits for, by how far they reach. -/
def Group.outstanding (g : Group) (split : Nat) (p : Access → Bool) : Bool :=
  g.async.access.any fun a => a.2.split == split && p a.2

/-- The live lanes of a split (R126). -/
def Group.live (g : Group) (sp : Split) : LaneMask := sp.mask &&& g.lanes.alive
/-- The lowest set bit of a mask; 32 when none. -/
def lowLane (m : LaneMask) : Nat := ((maskLanes m).head?).getD 32

/-- Sign- or zero-extension to 64 bits of the low `n` bits. -/
def sext {n : Nat} (x : BitVec n) : DWord := x.signExtend 64
def zext {n : Nat} (x : BitVec n) : DWord := x.setWidth 64
/-- The low `k` bytes of a number, as bytes (R5). -/
def bytesOf (k n : Nat) : List Byte := leBytes k n
/-- The field of a byte list: `k` bytes from offset `o`, as a number. -/
def field (bs : List Byte) (o k : Nat) : Nat := leNat ((bs.drop o).take k)
/-- Replace the bytes from offset `o`. -/
def setField (bs : List Byte) (o k n : Nat) : List Byte := bs.take o ++ bytesOf k n ++ bs.drop (o + k)
/-- Bits `hi` to `lo` of a number. -/
def bitsOf (n lo len : Nat) : Nat := n / 2 ^ lo % 2 ^ len

/-- Trap causes (R152). -/
def cIllegal : Byte := 0x01
def cAlign : Byte := 0x02
def cPage : Byte := 0x03
def cProtect : Byte := 0x04
def cFormatEdge : Byte := 0x05
def cTagStore : Byte := 0x06
def cScope : Byte := 0x07
def cWindowOver : Byte := 0x08
def cWindowUnder : Byte := 0x09
def cOverlay : Byte := 0x0A
def cSegment : Byte := 0x0B
def cRejoin : Byte := 0x0C
def cDivergeOff : Byte := 0x0D
def cTimeout : Byte := 0x0E
def cCap : Byte := 0x0F
def cBreak : Byte := 0x10
def cSoftware : Byte := 0x11
def cMacro : Byte := 0x12
def cRevoked : Byte := 0x13
def cQueue : Byte := 0x14
def cTile : Byte := 0x15
/-- The causes that never enter the handler (R152). -/
def replayable (c : Byte) : Bool := c == cPage || c == cOverlay || c == cTimeout || c == cMacro || c == cRevoked

end Sys2Proof.Machine
end

