-- ==== Sys2Proof/Machine/Flags.lean ====
section
/-! DEFINITION. FFLAGS and IFLAGS (R52): what an operation raises, and how a group collects it. -/
namespace Sys2Proof.Machine

/-- A computed bit pattern with the flags it raised: NV, DZ, OF, UF, NX in bits 4 to 0, and SAT, DZ in bits 1 and 0 (R52). -/
structure Num where
  bits : Nat
  ff : BitVec 5
  fi : BitVec 2
deriving DecidableEq, Repr

def fNV : BitVec 5 := 16
def fDZ : BitVec 5 := 8
def fOF : BitVec 5 := 4
def fUF : BitVec 5 := 2
def fNX : BitVec 5 := 1
def iSAT : BitVec 2 := 2
def iDZ : BitVec 2 := 1

/-- A result that raises nothing. -/
def Num.pure (n : Nat) : Num := { bits := n, ff := 0, fi := 0 }
/-- The same bits with more flags raised. -/
def Num.raise (n : Num) (ff : BitVec 5) (fi : BitVec 2) : Num := { n with ff := n.ff ||| ff, fi := n.fi ||| fi }
/-- A flag when a condition holds. -/
def flagIf {n : Nat} (b : Bool) (f : BitVec n) : BitVec n := if b then f else 0

/-- OR raised flags into a group's CSRs (R52). -/
def Group.raise (g : Group) (ff : BitVec 5) (fi : BitVec 2) : Group :=
  { g with csrs := { g.csrs with fflags := g.csrs.fflags ||| ff, iflags := g.csrs.iflags ||| fi } }

end Sys2Proof.Machine
end

