-- ==== Sys2Proof/Machine/Float.lean ====
section
/-! DEFINITION. The number formats, their rounding and the arithmetic on them (R42 to R54, R60 to R79). A floating value is an
exact dyadic; every operation forms the exact result and rounds it once. -/
namespace Sys2Proof.Machine

/-! ### Formats (R43) -/

/-- Exponent width, fraction width, bias, and whether exponent 15 is ordinary (e4). -/
structure FFmt where
  eb : Nat
  mb : Nat
  bias : Nat
  e4 : Bool
deriving DecidableEq, Repr

def fmtE4 : FFmt := { eb := 4, mb := 3, bias := 7, e4 := true }
def fmtE5 : FFmt := { eb := 5, mb := 2, bias := 15, e4 := false }
def fmtH : FFmt := { eb := 5, mb := 10, bias := 15, e4 := false }
def fmtBF : FFmt := { eb := 8, mb := 7, bias := 127, e4 := false }
def fmtF : FFmt := { eb := 8, mb := 23, bias := 127, e4 := false }
/-- The format of a floating type code (R16). -/
def fmtOf (t : BitVec 4) : FFmt :=
  if t = 8 then fmtE4 else if t = 9 then fmtE5 else if t = 10 then fmtH else if t = 11 then fmtBF else fmtF
/-- Codes 8 to 12. -/
def isFloat (t : BitVec 4) : Bool := 8 ≤ t && t ≤ 12
/-- Width in bits of a type's values in registers and on ordinary pages (R42); bp reaches registers as a scale code above 16 bits of
element (R89). -/
def widthOf (t : BitVec 4) : Nat :=
  if t ≤ 1 || t = 8 || t = 9 then 8
  else if t ≤ 3 || t = 10 || t = 11 || t = 14 then 16
  else if t = 6 || t = 7 then 64 else 32
def bytesIn (t : BitVec 4) : Nat := widthOf t / 8

/-- A floating value: NaN (signalling or quiet), infinity, or (-1)^neg × man × 2^exp. -/
inductive FVal where
  | nan (sig : Bool)
  | inf (neg : Bool)
  | fin (neg : Bool) (man : Nat) (exp : Int)
deriving DecidableEq, Repr

/-- Exponent of the smallest subnormal (R43). -/
def FFmt.qmin (f : FFmt) : Int := 1 - f.bias - f.mb
/-- Canonical NaN (R43). -/
def FFmt.nan (f : FFmt) : Nat := if f.e4 then 0x7F else (2 ^ f.eb - 1) * 2 ^ f.mb + 2 ^ (f.mb - 1)
def FFmt.infBits (f : FFmt) : Nat := (2 ^ f.eb - 1) * 2 ^ f.mb
def FFmt.signBit (f : FFmt) : Nat := 2 ^ (f.eb + f.mb)
/-- Largest finite magnitude (R43). -/
def FFmt.maxBits (f : FFmt) : Nat := if f.e4 then 0x7E else f.infBits - 1
def FFmt.signed (f : FFmt) (neg : Bool) (n : Nat) : Nat := if neg then n + f.signBit else n

/-- Read a bit pattern (R43, R44). -/
def FFmt.read (f : FFmt) (bits : Nat) : FVal :=
  let n := bits % (2 * f.signBit)
  let neg := f.signBit ≤ n
  let mag := n % f.signBit
  let e := mag / 2 ^ f.mb
  let frac := mag % 2 ^ f.mb
  if f.e4 then
    if mag = 0x7F then .nan false
    else if e = 0 then .fin neg frac f.qmin else .fin neg (frac + 2 ^ f.mb) (f.qmin + e - 1)
  else if e = 2 ^ f.eb - 1 then
    if frac = 0 then .inf neg else .nan (frac < 2 ^ (f.mb - 1))
  else if e = 0 then .fin neg frac f.qmin
  else .fin neg (frac + 2 ^ f.mb) (f.qmin + e - 1)

def FVal.isNan : FVal → Bool
  | .nan _ => true
  | _ => false
def FVal.isSig : FVal → Bool
  | .nan s => s
  | _ => false
def FVal.isInf : FVal → Bool
  | .inf _ => true
  | _ => false
def FVal.isNeg : FVal → Bool
  | .nan _ => false
  | .inf n => n
  | .fin n _ _ => n
def FVal.isZero : FVal → Bool
  | .fin _ 0 _ => true
  | _ => false
def FVal.neg : FVal → FVal
  | .nan s => .nan s
  | .inf n => .inf !n
  | .fin n m e => .fin (!n) m e

/-! ### Rounding (R49, R50) -/

/-- Round n + rem / 2^k (0 ≤ rem < 2^k) at the unit place under rm; the magnitude of a value of sign `neg`. -/
def roundUnit (rm : BitVec 3) (neg : Bool) (n rem k : Nat) : Nat :=
  if rem = 0 then n
  else if rm = 0 then
    (if 2 ^ k < 2 * rem then n + 1 else if 2 * rem = 2 ^ k then n + n % 2 else n)
  else if rm = 1 then n
  else if rm = 2 then (if neg then n else n + 1)
  else if rm = 3 then (if neg then n + 1 else n)
  else if n % 2 = 0 then n + 1 else n

/-- man × 2^exp rounded to a multiple of 2^q: the multiple and whether it was inexact. -/
def quantize (rm : BitVec 3) (neg : Bool) (man : Nat) (exp q : Int) : Nat × Bool :=
  if q ≤ exp then (man * 2 ^ (exp - q).toNat, false)
  else
    let k := (q - exp).toNat
    (roundUnit rm neg (man / 2 ^ k) (man % 2 ^ k) k, man % 2 ^ k != 0)

/-- What an overflow gives (R50). -/
def FFmt.overflow (f : FFmt) (rm : BitVec 3) (sat neg : Bool) : Nat :=
  if sat then f.signed neg f.maxBits
  else if f.e4 then f.nan
  else if f = fmtE5 then f.signed neg f.infBits
  else if rm = 0 || (rm = 2 && !neg) || (rm = 3 && neg) then f.signed neg f.infBits
  else f.signed neg f.maxBits

/-- Round a finite value (R49, R50): exponents far outside every format are brought near first, which changes no result. -/
def FFmt.roundFin (f : FFmt) (rm : BitVec 3) (sat neg : Bool) (man : Nat) (exp0 : Int) : Num :=
  if man = 0 then Num.pure (f.signed neg 0)
  else
    let top0 : Int := Nat.log2 man + exp0
    let exp : Int := if 4096 < top0 then exp0 - (top0 - 4096) else if top0 < -4096 then exp0 - (top0 + 4096) else exp0
    let e : Int := Nat.log2 man + exp
    let q : Int := if e - f.mb < f.qmin then f.qmin else e - f.mb
    let r := quantize rm neg man exp q
    let code := (q - f.qmin).toNat * 2 ^ f.mb + r.1
    if f.maxBits < code then { bits := f.overflow rm sat neg, ff := fOF ||| fNX, fi := 0 }
    else
      let u := quantize rm neg man exp (e - f.mb)
      let emin : Int := f.qmin + f.mb
      let tiny := decide (e < emin) && !(e == emin - 1 && decide (2 ^ (f.mb + 1) ≤ u.1))
      { bits := f.signed neg code, ff := flagIf r.2 fNX ||| flagIf (r.2 && tiny) fUF, fi := 0 }

/-- Round any value to a format; `sat` is .sat (R44, R50). -/
def FFmt.round (f : FFmt) (rm : BitVec 3) (sat : Bool) : FVal → Num
  | .nan s => { bits := f.nan, ff := flagIf s fNV, fi := 0 }
  | .inf n =>
    if sat then { bits := f.signed n f.maxBits, ff := fNX, fi := 0 }
    else if f.e4 then { bits := f.nan, ff := fNV, fi := 0 }
    else Num.pure (f.signed n f.infBits)
  | .fin n m e => f.roundFin rm sat n m e

/-- A value as a signed integer rounded at the unit place, and whether that was inexact. -/
def intOf (rm : BitVec 3) (neg : Bool) (man : Nat) (exp : Int) : Int × Bool :=
  let r := quantize rm neg man exp 0
  (if neg then -(r.1 : Int) else r.1, r.2)

/-! ### Sums, products and quotients (R66) -/

/-- Align to a common exponent: the signed integer man × 2^(exp - q). -/
def alignTo (neg : Bool) (man : Nat) (exp q : Int) : Int :=
  let n : Int := man * 2 ^ (exp - q).toNat
  if neg then -n else n
/-- The exact sum of two finite values; an exact zero follows R66's signs under rm. -/
def finSum (rm : BitVec 3) (n1 : Bool) (m1 : Nat) (e1 : Int) (n2 : Bool) (m2 : Nat) (e2 : Int) : FVal :=
  let q := if e1 ≤ e2 then e1 else e2
  let x := alignTo n1 m1 e1 q + alignTo n2 m2 e2 q
  if x = 0 then
    (if m1 = 0 && m2 = 0 && n1 == n2 then .fin n1 0 0 else .fin (rm == 3) 0 0)
  else .fin (decide (x < 0)) x.natAbs q

/-- A value with the flags its formation raised before rounding. -/
abbrev FRaw := FVal × BitVec 5

def rawAdd (rm : BitVec 3) (a b : FVal) : FRaw :=
  match a, b with
  | .nan s, .nan t => (.nan false, flagIf (s || t) fNV)
  | .nan s, _ => (.nan false, flagIf s fNV)
  | _, .nan t => (.nan false, flagIf t fNV)
  | .inf x, .inf y => if x == y then (.inf x, 0) else (.nan false, fNV)
  | .inf x, .fin _ _ _ => (.inf x, 0)
  | .fin _ _ _, .inf y => (.inf y, 0)
  | .fin n1 m1 e1, .fin n2 m2 e2 => (finSum rm n1 m1 e1 n2 m2 e2, 0)

def rawMul (a b : FVal) : FRaw :=
  match a, b with
  | .nan s, .nan t => (.nan false, flagIf (s || t) fNV)
  | .nan s, _ => (.nan false, flagIf s fNV)
  | _, .nan t => (.nan false, flagIf t fNV)
  | .inf x, .inf y => (.inf (x != y), 0)
  | .inf x, .fin n m _ => if m = 0 then (.nan false, fNV) else (.inf (x != n), 0)
  | .fin n m _, .inf y => if m = 0 then (.nan false, fNV) else (.inf (n != y), 0)
  | .fin n1 m1 e1, .fin n2 m2 e2 => (.fin (n1 != n2) (m1 * m2) (e1 + e2), 0)

/-- m1 / m2 with 64 bits below the quotient's first, and a last bit that is 1 when anything remains. -/
def quotient (m1 m2 : Nat) : Nat × Nat :=
  let k := 64 + Nat.log2 m2 + 1
  let n := m1 * 2 ^ k
  (2 * (n / m2) + (if n % m2 = 0 then 0 else 1), k + 1)

def rawDiv (a b : FVal) : FRaw :=
  match a, b with
  | .nan s, .nan t => (.nan false, flagIf (s || t) fNV)
  | .nan s, _ => (.nan false, flagIf s fNV)
  | _, .nan t => (.nan false, flagIf t fNV)
  | .inf _, .inf _ => (.nan false, fNV)
  | .inf x, .fin n _ _ => (.inf (x != n), 0)
  | .fin n _ _, .inf y => (.fin (n != y) 0 0, 0)
  | .fin n1 m1 e1, .fin n2 m2 e2 =>
    if m2 = 0 then (if m1 = 0 then (.nan false, fNV) else (.inf (n1 != n2), fDZ))
    else
      let q := quotient m1 m2
      (.fin (n1 != n2) q.1 (e1 - e2 - q.2), 0)

/-- a × b + c, formed exactly (R66). -/
def rawFma (rm : BitVec 3) (a b c : FVal) : FRaw :=
  let p := rawMul a b
  let q := rawAdd rm p.1 c
  (q.1, p.2 ||| q.2 ||| flagIf (a.isSig || b.isSig || c.isSig) fNV)

/-- Round a formed value into a type. -/
def finish (f : FFmt) (rm : BitVec 3) (r : FRaw) : Num := (f.round rm false r.1).raise r.2 0

def fAdd (t : BitVec 4) (rm : BitVec 3) (a b : Nat) : Num :=
  let f := fmtOf t; finish f rm (rawAdd rm (f.read a) (f.read b))
def fSub (t : BitVec 4) (rm : BitVec 3) (a b : Nat) : Num :=
  let f := fmtOf t; finish f rm (rawAdd rm (f.read a) (f.read b).neg)
def fMul (t : BitVec 4) (rm : BitVec 3) (a b : Nat) : Num :=
  let f := fmtOf t; finish f rm (rawMul (f.read a) (f.read b))
def fDiv (t : BitVec 4) (rm : BitVec 3) (a b : Nat) : Num :=
  let f := fmtOf t; finish f rm (rawDiv (f.read a) (f.read b))
def fFma (t : BitVec 4) (rm : BitVec 3) (a b c : Nat) : Num :=
  let f := fmtOf t; finish f rm (rawFma rm (f.read a) (f.read b) (f.read c))

/-! ### Comparison, minimum and maximum (R67, R69) -/

/-- a < b for values that are not NaN; `zeros` orders -0 below +0. -/
def fLess (zeros : Bool) (a b : FVal) : Bool :=
  match a, b with
  | .nan _, _ => false
  | _, .nan _ => false
  | .inf x, .inf y => x && !y
  | .inf x, .fin _ _ _ => x
  | .fin _ _ _, .inf y => !y
  | .fin n1 m1 e1, .fin n2 m2 e2 =>
    let q := if e1 ≤ e2 then e1 else e2
    let x := alignTo n1 m1 e1 q
    let y := alignTo n2 m2 e2 q
    if x = 0 && y = 0 then zeros && n1 && !n2 else decide (x < y)

/-- FMIN or FMAX (R67): `big` takes the larger, `num` ignores a single NaN. -/
def fMinMax (t : BitVec 4) (big num : Bool) (a b : Nat) : Num :=
  let f := fmtOf t
  let x := f.read a
  let y := f.read b
  let nv := flagIf (x.isSig || y.isSig) fNV
  let w := 2 ^ widthOf t
  if x.isNan && y.isNan then { bits := f.nan, ff := nv, fi := 0 }
  else if x.isNan then { bits := if num then b % w else f.nan, ff := nv, fi := 0 }
  else if y.isNan then { bits := if num then a % w else f.nan, ff := nv, fi := 0 }
  else
    let less := fLess true x y
    { bits := if less == big then b % w else a % w, ff := 0, fi := 0 }

/-- FCMP's condition and the invalid flag (R69). -/
def fCompare (t : BitVec 4) (cond : Nat) (a b : Nat) : Bool × BitVec 5 :=
  let f := fmtOf t
  let x := f.read a
  let y := f.read b
  let un := x.isNan || y.isNan
  let sig := x.isSig || y.isSig
  let lt := fLess false x y
  let gt := fLess false y x
  let eq := !un && !lt && !gt
  match cond with
  | 0 => (eq, flagIf sig fNV)
  | 1 => (!eq, flagIf sig fNV)
  | 2 => (!un && lt, flagIf un fNV)
  | 3 => (!un && !gt, flagIf un fNV)
  | 4 => (!un && gt, flagIf un fNV)
  | 5 => (!un && !lt, flagIf un fNV)
  | 6 => (un, flagIf sig fNV)
  | _ => (!un, flagIf sig fNV)

/-! ### Roots and reciprocals (R70) -/

/-- Integer square root by bits, from bit `b - 1` down. -/
def isqrtFrom (n : Nat) : Nat → Nat → Nat
  | 0, acc => acc
  | b + 1, acc => let x := acc + 2 ^ b; isqrtFrom n b (if x * x ≤ n then x else acc)
def isqrt (n : Nat) : Nat := isqrtFrom n (Nat.log2 n / 2 + 1) 0

/-- √(man × 2^exp), with a last bit that is 1 when the root is inexact. -/
def rawSqrt (man : Nat) (exp : Int) : FVal :=
  let odd := exp % 2 != 0
  let m := if odd then 2 * man else man
  let e := if odd then exp - 1 else exp
  let n := m * 2 ^ 160
  let r := isqrt n
  .fin false (2 * r + (if r * r = n then 0 else 1)) (e / 2 - 81)

/-- 1 / √(man × 2^exp), likewise. -/
def rawRsqrt (man : Nat) (exp : Int) : FVal :=
  let odd := exp % 2 != 0
  let m := if odd then 2 * man else man
  let e := if odd then exp - 1 else exp
  let n := 2 ^ 320 / m
  let r := isqrt n
  .fin false (2 * r + (if r * r * m = 2 ^ 320 then 0 else 1)) (-(e / 2) - 161)

/-! ### 2^a, log2 a, sin πa, cos πa (R70, log entry 7): 448-bit fixed point -/

def fixBits : Nat := 448
/-- ln 2 × 2^448, rounded down. -/
def fixLn2 : Nat := 0xb17217f7d1cf79abc9e3b39803f2f6af40f343267298b62d8a0d175b8baafa2be7b876206debac98559552fb4afa1b10ed2eae35c1382144
/-- π × 2^448, rounded down. -/
def fixPi : Nat := 0x3243f6a8885a308d313198a2e03707344a4093822299f31d0082efa98ec4e6c89452821e638d01377be5466cf34e90c6cc0ac29b7c97c50dd
def fixMul (a b : Nat) : Nat := a * b / 2 ^ fixBits

/-- Σ y^k / k! from the term `t` of index `k`, for `n` terms. -/
def expSeries (y : Nat) : Nat → Nat → Nat → Nat
  | 0, _, _ => 0
  | n + 1, k, t => t + expSeries y n (k + 1) (fixMul t y / (k + 1))
/-- Σ z^(2k+1) / (2k+1) from the power `t` of index `k`. -/
def atanhSeries (z2 : Nat) : Nat → Nat → Nat → Nat
  | 0, _, _ => 0
  | n + 1, k, t => t / (2 * k + 1) + atanhSeries z2 n (k + 1) (fixMul t z2)
/-- Σ (-1)^k y^(2k+s) / (2k+s)! from the term `t` with index `m` = 2k+s, sums of positive and negative terms apart. -/
def trigSeries (y2 : Nat) : Nat → Nat → Nat → Bool → Nat × Nat
  | 0, _, _, _ => (0, 0)
  | n + 1, m, t, pos =>
    let r := trigSeries y2 n (m + 2) (fixMul t y2 / ((m + 1) * (m + 2))) !pos
    if pos then (r.1 + t, r.2) else (r.1, r.2 + t)
def fixSin (y : Nat) : Nat := let r := trigSeries (fixMul y y) 60 1 y true; r.1 - r.2
def fixCos (y : Nat) : Nat := let r := trigSeries (fixMul y y) 60 0 (2 ^ fixBits) true; r.1 - r.2

/-- man × 2^exp as a fixed-point number; bits below 2^-448 are dropped. -/
def fixOf (man : Nat) (exp : Int) : Nat :=
  let k := exp + fixBits
  if 0 ≤ k then man * 2 ^ k.toNat else man / 2 ^ (-k).toNat
/-- A fixed-point approximation of an inexact value, its last bit set. -/
def inexactFix (neg : Bool) (n : Nat) (shift : Int) : FVal := .fin neg (2 * n + 1) (shift - fixBits - 1)

/-- 2^a for finite a. -/
def rawExp2 (neg : Bool) (man : Nat) (exp : Int) : FVal :=
  if man = 0 then .fin false 1 0
  else if 11 ≤ (Nat.log2 man : Int) + exp then .fin false 1 (if neg then -4000 else 4000)
  else
    let x := fixOf man exp
    let n := x / 2 ^ fixBits
    let f := x % 2 ^ fixBits
    let k : Int := if neg then (if f = 0 then -(n : Int) else -(n : Int) - 1) else n
    let g := if neg && f != 0 then 2 ^ fixBits - f else f
    if f = 0 then .fin false 1 k
    else inexactFix false (expSeries (fixMul g fixLn2) 90 0 (2 ^ fixBits)) k

/-- log2 of a positive finite value. -/
def rawLog2 (man : Nat) (exp : Int) : FVal :=
  let e : Int := Nat.log2 man + exp
  if man = 2 ^ Nat.log2 man then (if e = 0 then .fin false 0 0 else .fin (decide (e < 0)) e.natAbs 0)
  else
    let l := Nat.log2 man
    let z := (man - 2 ^ l) * 2 ^ fixBits / (man + 2 ^ l)
    let ln := 2 * atanhSeries (fixMul z z) 145 0 z
    let x : Int := ln * 2 ^ fixBits / fixLn2 + e * 2 ^ fixBits
    inexactFix (decide (x < 0)) x.natAbs 0

/-- sin πa or cos πa of a finite a, for a ≥ 0 by its fixed-point value mod 2. The result for an exact multiple of 1/2 is exact. -/
def rawTrig (cosine : Bool) (neg : Bool) (man : Nat) (exp : Int) : FVal :=
  let x := if 2 ≤ exp then 0 else fixOf man exp % (2 * 2 ^ fixBits)
  let half := 2 ^ (fixBits - 1)
  let quad := x / half
  let f := x % half
  let y := fixMul f fixPi
  if cosine then
    if f = 0 then
      (match quad with | 0 => .fin false 1 0 | 2 => .fin true 1 0 | _ => .fin false 0 0)
    else
      (match quad with
       | 0 => inexactFix false (fixCos y) 0
       | 1 => inexactFix true (fixSin y) 0
       | 2 => inexactFix true (fixCos y) 0
       | _ => inexactFix false (fixSin y) 0)
  else if f = 0 then
    (match quad with | 1 => .fin neg 1 0 | 3 => .fin (!neg) 1 0 | _ => .fin neg 0 0)
  else
    (match quad with
     | 0 => inexactFix neg (fixSin y) 0
     | 1 => inexactFix neg (fixCos y) 0
     | 2 => inexactFix (!neg) (fixSin y) 0
     | _ => inexactFix (!neg) (fixCos y) 0)

/-- The one-operand functions of R70. -/
inductive FFun where
  | rcp | rsq | sqrt | exp2 | log2 | sinpi | cospi
deriving DecidableEq, Repr

/-- The value of a function before rounding, with the flags of R70's table of special operands. -/
def rawFun (fn : FFun) (a : FVal) : FRaw :=
  match a with
  | .nan s => (.nan false, flagIf s fNV)
  | .inf n =>
    (match fn with
     | .rcp => (.fin n 0 0, 0)
     | .rsq => if n then (.nan false, fNV) else (.fin false 0 0, 0)
     | .sqrt => if n then (.nan false, fNV) else (.inf false, 0)
     | .exp2 => if n then (.fin false 0 0, 0) else (.inf false, 0)
     | .log2 => if n then (.nan false, fNV) else (.inf false, 0)
     | .sinpi => (.nan false, fNV)
     | .cospi => (.nan false, fNV))
  | .fin n m e =>
    (match fn with
     | .rcp => if m = 0 then (.inf n, fDZ) else rawDiv (.fin false 1 0) a
     | .rsq => if m = 0 then (.inf n, fDZ) else if n then (.nan false, fNV) else (rawRsqrt m e, 0)
     | .sqrt => if m = 0 then (a, 0) else if n then (.nan false, fNV) else (rawSqrt m e, 0)
     | .exp2 => (rawExp2 n m e, 0)
     | .log2 => if m = 0 then (.inf true, fDZ) else if n then (.nan false, fNV) else (rawLog2 m e, 0)
     | .sinpi => if m = 0 then (a, 0) else (rawTrig false n m e, 0)
     | .cospi => (rawTrig true n m e, 0))

def fFun (fn : FFun) (t : BitVec 4) (rm : BitVec 3) (a : Nat) : Num :=
  let f := fmtOf t; finish f rm (rawFun fn (f.read a))

/-- FSCALE (R71): `n` is the signed scale. -/
def fScale (t : BitVec 4) (rm : BitVec 3) (a : Nat) (n : Int) : Num :=
  let f := fmtOf t
  match f.read a with
  | .fin s m e => if m = 0 then Num.pure (f.signed s 0) else f.roundFin rm false s m (e + n)
  | v => f.round rm false v

/-- FCLASS (R71). -/
def fClass (t : BitVec 4) (a : Nat) : Nat :=
  let f := fmtOf t
  match f.read a with
  | .nan s => if s then 256 else 512
  | .inf n => if n then 1 else 128
  | .fin n m _ =>
    if m = 0 then (if n then 8 else 16)
    else if m < 2 ^ f.mb then (if n then 4 else 32)
    else (if n then 2 else 64)

/-- FRINT (R71). -/
def fRint (t : BitVec 4) (rm : BitVec 3) (a : Nat) : Num :=
  let f := fmtOf t
  match f.read a with
  | .fin s m e =>
    let r := quantize rm s m e 0
    if 0 ≤ e then Num.pure (a % 2 ^ widthOf t)
    else { bits := (f.roundFin 1 false s r.1 0).bits, ff := flagIf r.2 fNX, fi := 0 }
  | v => f.round rm false v

/-! ### Integers (R45, R51, R60 to R63) -/

/-- i8, i16, i32, i64. -/
def isSigned (t : BitVec 4) : Bool := t = 0 || t = 2 || t = 4 || t = 6
/-- A pattern as the exact integer its type gives it. -/
def intVal (t : BitVec 4) (bits : Nat) : Int :=
  let w := widthOf t
  let n := bits % 2 ^ w
  if isSigned t && decide (2 ^ (w - 1) ≤ n) then (n : Int) - 2 ^ w else n
def intMin (t : BitVec 4) : Int := if isSigned t then -(2 ^ (widthOf t - 1) : Nat) else 0
def intMax (t : BitVec 4) : Int := if isSigned t then (2 ^ (widthOf t - 1) : Nat) - 1 else (2 ^ widthOf t : Nat) - 1
/-- An integer modulo 2^w. -/
def wrapInt (w : Nat) (x : Int) : Nat := (x % (2 ^ w : Nat)).toNat
/-- Saturate into a type (R51). -/
def satInt (t : BitVec 4) (x : Int) : Num :=
  let y := if x < intMin t then intMin t else if intMax t < x then intMax t else x
  { bits := wrapInt (widthOf t) y, ff := 0, fi := flagIf (y != x) iSAT }
/-- Wrap, or saturate when asked (R60). -/
def fitInt (t : BitVec 4) (sat : Bool) (x : Int) : Num :=
  if sat then satInt t x else Num.pure (wrapInt (widthOf t) x)

/-- Round any value into an integer type (R51). -/
def toInt (t : BitVec 4) (rm : BitVec 3) : FVal → Num
  | .nan _ => { bits := 0, ff := fNV, fi := 0 }
  | .inf n => satInt t (if n then intMin t - 1 else intMax t + 1)
  | .fin n m e =>
    let k := intOf rm n m (if 200 < e then 200 else e)
    (satInt t k.1).raise (flagIf k.2 fNX) 0

/-- convert(x, S, D, rm, sat) (R76). -/
def convert (src dst : BitVec 4) (rm : BitVec 3) (sat : Bool) (bits : Nat) : Num :=
  if isFloat src then
    (if isFloat dst then (fmtOf dst).round rm sat ((fmtOf src).read bits) else toInt dst rm ((fmtOf src).read bits))
  else
    let x := intVal src bits
    if isFloat dst then (fmtOf dst).roundFin rm sat (decide (x < 0)) x.natAbs 0 else satInt dst x

/-- IDIV and IREM (R61). -/
def iDivide (t : BitVec 4) (rem : Bool) (a b : Nat) : Num :=
  let w := widthOf t
  let x := intVal t a
  let y := intVal t b
  if y = 0 then { bits := if rem then a % 2 ^ w else 2 ^ w - 1, ff := 0, fi := iDZ }
  else Num.pure (wrapInt w (if rem then x - y * Int.tdiv x y else Int.tdiv x y))

/-- Copies of the sign into the bits shifted in. -/
def sarNat (w a n : Nat) : Nat :=
  let x : Int := if 2 ^ (w - 1) ≤ a then (a : Int) - 2 ^ w else a
  wrapInt w (Int.fdiv x (2 ^ n : Nat))
/-- BFX (R63). -/
def bfx (t : BitVec 4) (a ctl : Nat) : Nat :=
  let w := widthOf t
  let pos := ctl % 256
  let len := min (ctl / 256 % 256) w
  if len = 0 then 0
  else
    let f := ((Int.fdiv (intVal t a) (2 ^ pos : Nat)) % (2 ^ len : Nat)).toNat
    if isSigned t && decide (2 ^ (len - 1) ≤ f) then wrapInt w ((f : Int) - 2 ^ len) else f
/-- BFI (R63). -/
def bfi (t : BitVec 4) (base ins ctl : Nat) : Nat :=
  let w := widthOf t
  let pos := ctl % 256
  let len := min (ctl / 256 % 256) w
  let m := (2 ^ len - 1) * 2 ^ pos % 2 ^ w
  let b := base % 2 ^ w
  (b - (b &&& m)) + ((ins * 2 ^ pos) &&& m)
/-- Leading zeros, ones and reversal of a w-bit pattern (R60). -/
def clzNat (w a : Nat) : Nat := if a % 2 ^ w = 0 then w else w - 1 - Nat.log2 (a % 2 ^ w)
def popNat : Nat → Nat → Nat
  | 0, _ => 0
  | w + 1, a => a % 2 + popNat w (a / 2)
def revNat : Nat → Nat → Nat
  | 0, _ => 0
  | w + 1, a => a % 2 * 2 ^ w + revNat w (a / 2)

/-! ### Bit planes and block scales (R46, R47, R78, R79) -/

/-- value_p of an element read at p planes (R46). -/
def planeVal (p e : Nat) : Int :=
  let x : Int := if 128 ≤ e % 256 then (e % 256 : Nat) - 256 else (e % 256 : Nat)
  if 8 ≤ p then x else Int.fdiv x (2 ^ (8 - p) : Nat) * (2 ^ (8 - p) : Nat) + (2 ^ (7 - p) : Nat)
/-- An E8M7 scale (R47): none is the NaN-scale. -/
def scaleVal (code : Nat) : Option (Nat × Int) :=
  if 32768 ≤ code % 65536 || code % 32768 / 128 = 255 then none
  else if code % 32768 / 128 = 0 then some (code % 128, -133)
  else some (code % 128 + 128, (code % 32768 / 128 : Nat) - 134)
/-- A decoded element (R46, R47): value_p × scale; a zero scale gives +0, a NaN-scale a quiet NaN. -/
def decodeBp (p code e : Nat) : FVal :=
  match scaleVal code with
  | none => .nan false
  | some (m, x) =>
    if m = 0 then .fin false 0 0
    else
      let v := planeVal p e
      .fin (decide (v < 0)) (v.natAbs * m) x
/-- Round a decoded element into a type; a NaN-scale gives NV only to an integer type (R47, R89). -/
def bpTo (t : BitVec 4) (rm : BitVec 3) (v : FVal) : Num :=
  if isFloat t then (fmtOf t).round rm false v else toInt t rm v

/-- |a| > |b| of finite values. -/
def magLess (a b : FVal) : Bool :=
  match a, b with
  | .fin _ m1 e1, .fin _ m2 e2 => fLess false (.fin false m1 e1) (.fin false m2 e2)
  | _, _ => false
/-- The scale and elements BPENC gives a block of values, in order (R78), and the flags. -/
def bpEncode (rm : BitVec 3) (xs : List FVal) : Nat × List Nat × BitVec 5 :=
  let nv := flagIf (xs.any FVal.isSig) fNV
  if xs.any fun x => x.isNan || x.isInf then (0x7FC0, xs.map fun _ => 0, nv)
  else
    match xs.foldl (fun a x => if magLess a x then x else a) (.fin false 0 0) with
    | .fin _ m e =>
      if m = 0 then (0, xs.map fun _ => 0, nv)
      else
        let q := quotient m 127
        let s := (fmtBF.roundFin 2 false false q.1 (e - q.2)).bits
        match scaleVal s with
        | none => (s, xs.map fun _ => 0, nv)
        | some (sm, se) =>
          let enc : List (Int × Bool) := xs.map fun x =>
            match x with
            | .fin n m1 e1 =>
              let d := quotient m1 sm
              intOf rm n d.1 (e1 - se - d.2)
            | _ => (0, false)
          (s, enc.map fun v => wrapInt 8 (if v.1 < -128 then -128 else if 127 < v.1 then 127 else v.1),
           nv ||| flagIf (enc.any fun v => v.2) fNX)
    | _ => (0, xs.map fun _ => 0, nv)

end Sys2Proof.Machine
end

