-- ==== Sys2Proof/Machine/Translate.lean ====
section
/-! DEFINITION. From an address to the place it names: address classes (R84, R299), page tables (R300 to R304), exported regions
(R345), rank tables (R347 to R350). -/
namespace Sys2Proof.Machine

/-! ### Bytes of package memory -/

/-- A byte of HBM as its home holds it; what nothing has written reads 0 (log entry 4). -/
def Mem.byte (m : Mem) (pa : Nat) : Byte := stGet 0 m.hbm pa
def Mem.bytes (m : Mem) (pa n : Nat) : List Byte := (upFrom pa n).map m.byte
def Mem.num (m : Mem) (pa n : Nat) : Nat := leNat (m.bytes pa n)
def Mem.setByte (m : Mem) (pa : Nat) (b : Byte) : Mem := { m with hbm := stSet 0 m.hbm pa b }
/-- Write bytes at consecutive addresses. -/
def Mem.setBytes (m : Mem) (pa : Nat) : List Byte → Mem
  | [] => m
  | b :: bs => (m.setByte pa b).setBytes (pa + 1) bs
/-- The canonical form of memory: addresses rise and no listed byte reads as an unlisted one. -/
def Mem.wf (m : Mem) : Bool := stWf (0 : Byte) m.hbm

/-- Set bits of a mask. -/
def countBits : Nat → Nat → Nat
  | 0, _ => 0
  | n + 1, x => x % 2 + countBits n (x / 2)
/-- Enabled channels, slices, cores and clusters (R151, R298). -/
def State.channels (s : State) : Nat :=
  if s.dev.topology.channels = BitVec.allOnes 512 then 512 else countBits 512 s.dev.topology.channels.toNat
def State.slices (s : State) : Nat :=
  if s.dev.topology.slices = BitVec.allOnes 384 then 384 else countBits 384 s.dev.topology.slices.toNat
def State.coreCount (s : State) : Nat :=
  if s.dev.topology.cores = BitVec.allOnes 384 then 384 else countBits 384 s.dev.topology.cores.toNat
def State.clusterCount (s : State) : Nat :=
  if s.dev.topology.clusters = BitVec.allOnes 48 then 48 else countBits 48 s.dev.topology.clusters.toNat
/-- The enabled channels, ascending, and where a line lies: its channel and its line there; the stack of a channel and the die beside it
(R298). -/
def State.channelList (s : State) : List Nat := (upFrom 0 512).filter fun c => s.dev.topology.channels.getLsbD c
def State.lineChannel (s : State) (line : Nat) : Option Nat := s.channelList[line % s.channels]?
def State.channelLine (s : State) (line : Nat) : Nat := line / s.channels
def stackOf (channel : Nat) : Nat := channel / 32
def stackDie (stack : Nat) : Nat := stack / 4
/-- First address past physical memory (R298). -/
def State.paEnd (s : State) : Nat := Config.paEnd s.channels

/-! ### Page tables (R300 to R302) -/

/-- The outcome of a walk: a leaf, or none, with the mark of a table error (R301, R304). -/
inductive Walk where
  | leaf (l : Leaf) (migrating : Bool)
  | none (tableError : Bool)
deriving DecidableEq, Repr

/-- The levels of the walk (R300): shift of the index, its bits, alignment of what ADDR names as a table, and of a leaf frame. -/
def walkLevels : List (Nat × Nat × Nat × Nat) :=
  [(48, 9, 4096, 0), (39, 9, 4096, 0), (30, 9, 4096, 2 ^ 30), (21, 9, 512, 2 ^ 21), (16, 5, 0, 65536)]

/-- A leaf entry's word 1 (R302): the page format, or none when malformed. -/
def readFormat (w1 : Nat) : Option (Nat × Nat × Nat) :=
  if bitsOf w1 52 12 != 0 || bitsOf w1 7 5 != 0 || bitsOf w1 4 3 = 0 || bitsOf w1 2 2 != 0 || bitsOf w1 1 1 != 0 then none
  else some (bitsOf w1 12 40 * 4096, bitsOf w1 4 3 + 1, if bitsOf w1 0 1 = 0 then 32 else 64)

/-- Walk from a table (R300, R301): entries of 8 bytes, of 16 at level 4. -/
def walkFrom (m : Mem) (top va : Nat) : List (Nat × Nat × Nat × Nat) → Nat → Walk
  | [], _ => .none false
  | (shift, nbits, tableAlign, frameAlign) :: rest, table =>
    let last := rest.isEmpty
    let at_ := table + (va / 2 ^ shift % 2 ^ nbits) * (if last then 16 else 8)
    let w := m.num at_ 8
    if bitsOf w 0 1 = 0 then .none false
    else
      let lf := bitsOf w 1 1 = 1
      let addr := bitsOf w 9 43 * 512
      let f := bitsOf w 5 1 = 1
      let bad := bitsOf w 52 12 != 0 || bitsOf w 7 2 != 0 || (f && !last) || decide (top ≤ addr)
      if bad then .none true
      else if lf then
        if frameAlign = 0 || addr % frameAlign != 0 then .none true
        else
          let w1 := if last then m.num (at_ + 8) 8 else 0
          let perms : Option (Nat × Nat × Nat) → Walk := fun fm =>
            .leaf { frame := addr, bits := shift, rd := bitsOf w 2 1 = 1, wr := bitsOf w 3 1 = 1,
                    atomics := bitsOf w 4 1 = 1, format := fm } (bitsOf w 6 1 = 1)
          if f then (match readFormat w1 with | none => .none true | some x => perms (some x))
          else if w1 != 0 then .none true else perms none
      else if last || addr % tableAlign != 0 then .none true
      else walkFrom m top va rest addr

/-- Walk an address of an address space (R300); an unregistered one maps nothing. -/
def State.walk (s : State) (asid va : Nat) : Walk :=
  match amGet s.mem.roots asid with
  | none => .none false
  | some root => walkFrom s.mem s.paEnd va walkLevels root

/-- The table entries of levels 0 to 3 that a walk passes: what each selects by, its address and its value (R304). -/
def walkPath (m : Mem) (va : Nat) : List (Nat × Nat × Nat × Nat) → Nat → List (Nat × Nat × Nat)
  | [], _ => []
  | (shift, nbits, _, _) :: rest, table =>
    let at_ := table + (va / 2 ^ shift % 2 ^ nbits) * 8
    let w := m.num at_ 8
    if rest.isEmpty || bitsOf w 0 1 = 0 then []
    else (shift, at_, w) :: if bitsOf w 1 1 = 1 then [] else walkPath m va rest (bitsOf w 9 43 * 512)
def WalkEntry.covers (asid va : Nat) (e : WalkEntry) : Bool := e.asid == asid && decide (e.va ≤ va) && decide (va < e.va + 2 ^ e.bits)
/-- Memory as a die's walkers see it on the way to an address: the entries they keep stand before what memory holds now. -/
def State.walkerView (s : State) (die asid va : Nat) : Mem :=
  (((amGet s.mem.walkCache die).getD []).filter (WalkEntry.covers asid va)).foldl (fun m e => m.setBytes e.place (bytesOf 8 e.value)) s.mem
/-- A walk of a die's walkers; where their entries lead to no leaf, the entries in memory are read (R304: a walk may read the old entry or
the new one). -/
def State.walkAt (s : State) (die asid va : Nat) : Walk :=
  match (amGet s.mem.roots asid).map fun root => walkFrom (s.walkerView die asid va) s.paEnd va walkLevels root with
  | some (.leaf l m) => .leaf l m
  | _ => s.walk asid va

/-- A TLB's entry for an address (R173, R304). -/
def tlbFind (tlb : List TlbEntry) (asid va : Nat) : Option Leaf :=
  (tlb.find? fun e => e.asid == asid && decide (e.va ≤ va) && decide (va < e.va + 2 ^ e.leaf.bits)).map (·.leaf)

/-- What stops an access: a trap cause, or a wait at translation (R306, R346). -/
inductive Stop where
  | trap (c : Byte)
  | stall
deriving DecidableEq, Repr

/-- What an access needs of its page (R301); `any` asks for no permission (R182). -/
inductive Need where
  | rd | wr | atom | any
deriving DecidableEq, Repr

def Leaf.allows (l : Leaf) : Need → Bool
  | .rd => l.rd
  | .wr => l.wr
  | .atom => l.rd && l.wr && l.atomics
  | .any => true

/-- Who accesses: the core, its team (for the scratchpad), launch and address space. Engines use the device's own view with `tlb` false. -/
structure Who where
  core : Nat
  team : Option Nat
  launch : Nat
  asid : Nat
  tlb : Bool
deriving DecidableEq, Repr

/-- A run of bytes at one place; on a format page the scale frame, stored planes and block length stand beside (R303). -/
structure Seg where
  place : Place
  len : Nat
  va : Nat
  fmt : Option (Nat × Nat × Nat)
deriving DecidableEq, Repr

def Walk.mapped : Walk → Bool
  | .leaf _ _ => true
  | .none _ => false
/-- Whether a revocation record stands for an access of a launch; the next mapping of the page ends one made for REMAP (R305). -/
def Revoked.holds (launch asid va : Nat) (r : Revoked) : Bool :=
  r.launch == launch && r.asid == asid && decide (r.va ≤ va) && decide (va < r.va + r.len)
/-- A shootdown of the range in progress stops walks; a migration makes accesses wait (R305, R306). -/
def State.shooting (s : State) (asid va : Nat) : Option Bool :=
  (s.mem.shoots.find? fun x => x.2.asid == asid && decide (x.2.va ≤ va) && decide (va < x.2.va + x.2.len)).map
    fun x => x.2.move.isSome

/-- The page of one virtual address (R300, R304, R305): its leaf, PAGE, MAPPING_REVOKED or a wait. -/
def State.leafOf (s : State) (w : Who) (asid va : Nat) : Except Stop Leaf :=
  let cached := if w.tlb then
      (match tlbFind (s.core w.core).tlb asid va with
       | some l => some l
       | none => tlbFind ((amGet s.mem.tlbs (clusterOf w.core)).getD []) asid va)
    else none
  match s.shooting asid va with
  | some true => .error .stall
  | some false => .error (.trap cPage)
  | none =>
    if s.mem.revoked.any fun r => r.holds w.launch asid va && !(r.remap && (s.walk asid va).mapped) then .error (.trap cRevoked)
    else
      match cached with
      | some l => .ok l
      | none =>
        match if w.tlb then s.walkAt (dieOf w.core) asid va else s.walk asid va with
        | .leaf _ true => .error .stall
        | .leaf l false => .ok l
        | .none _ => .error (.trap cPage)

/-- The parts of `n` bytes at `va` in 64 KiB pages, as (address, length). -/
def pageParts (va n : Nat) : List (Nat × Nat) :=
  if n = 0 then []
  else
    let first := va / 65536
    let last := (va + n - 1) / 65536
    (upFrom first (last + 1 - first)).map fun p =>
      let lo := if va < p * 65536 then p * 65536 else va
      let hi := if va + n < (p + 1) * 65536 then va + n else (p + 1) * 65536
      (lo, hi - lo)

/-- One part of a local access (R299, R301, R422). -/
def State.localPart (s : State) (w : Who) (asid : Nat) (need : Need) (part : Nat × Nat) : Except Stop Seg :=
  let va := part.1
  if 2 ^ 57 ≤ va then .error (.trap cProtect)
  else if Config.timelineBase ≤ va then
    .ok { place := .window (va - Config.timelineBase), len := part.2, va := va, fmt := none }
  else
    match s.leafOf w asid va with
    | .error e => .error e
    | .ok l =>
      if l.allows need then .ok { place := .mem (l.frame + va % 2 ^ l.bits), len := part.2, va := va, fmt := l.format }
      else .error (.trap cProtect)

/-- Every part of a local access. -/
def State.localParts (s : State) (w : Who) (asid : Nat) (need : Need) (ps : List (Nat × Nat)) : List (Except Stop Seg) :=
  ps.map fun p => s.localPart w asid need p

/-- How a part's failure ranks (R87, R141): PROTECT, PAGE, MAPPING_REVOKED, a wait. -/
def stopRank : Stop → Nat
  | .trap c => if c == cProtect then 0 else if c == cPage then 1 else 2
  | .stall => 3
/-- The segments of an access, or the failure of its parts that ranks first. -/
def gather : List (Except Stop Seg) → Except Stop (List Seg)
  | [] => .ok []
  | .ok g :: rest => (gather rest).map (g :: ·)
  | .error e :: rest =>
    match gather rest with
    | .ok _ => .error e
    | .error e2 => .error (if stopRank e2 < stopRank e then e2 else e)
/-- The segments that did translate. -/
def okSegs (ps : List (Except Stop Seg)) : List Seg := ps.filterMap fun p => match p with | .ok g => some g | .error _ => none

/-! ### Regions and ranks (R344 to R350) -/

/-- A region as the last GUARD loaded it (R345): rights, address space, base, length, counter; none when not valid. -/
def regionOf (bs : List Byte) : Option (Bool × Bool × Bool × Nat × Nat × Nat × Nat) :=
  let w0 := field bs 0 8
  let len := field bs 16 8
  if bitsOf w0 63 1 = 0 || bitsOf w0 8 52 != 0 || len = 0 || decide (2 ^ 39 < len) || field bs 8 8 % 65536 != 0 then none
  else some (bitsOf w0 60 1 = 1, bitsOf w0 61 1 = 1, bitsOf w0 62 1 = 1, bitsOf w0 0 8, field bs 8 8, len, field bs 24 8)

/-- The region check of an access (R345): the address space and local virtual address. -/
def State.regionCheck (s : State) (region off n : Nat) (need : Need) : Option (Nat × Nat) :=
  match (s.dev.regions[region]?).bind regionOf with
  | none => none
  | some (rd, wr, at_, asid, base, len, _) =>
    let ok := match need with | .rd => rd | .wr => wr | .atom => rd && wr && at_ | .any => true
    if ok && decide (off + n ≤ len) then some (asid, base + off) else none

/-- A span descriptor that covers rank `k` in a node (R347): its four words. -/
def spanOf (node : List Byte) (k : Nat) : Option (Nat × Nat × Nat × Nat) :=
  ((upFrom 0 16).map fun i => (field node (32 * i) 8, field node (32 * i + 8) 8, field node (32 * i + 16) 8,
    field node (32 * i + 24) 8)).find? fun w =>
      bitsOf w.1 63 1 = 1 && decide (bitsOf w.1 40 20 ≤ k) && decide (k ≤ bitsOf w.1 20 20)

/-- The path set table's entry, when the index is below the count (R351). -/
def State.pathSet (s : State) (i : Nat) : Option (List Byte) := s.dev.pathSets[i]?

/-- Resolve a rank (R348): class, network identifier and path set, or the address of the node of a table error. -/
def resolveFrom (s : State) (k : Nat) : Nat → List Byte → Nat → Except (Option Nat) (Nat × Nat × Nat)
  | 0, _, addr => .error (some addr)
  | fuel + 1, node, addr =>
    match spanOf node k with
    | none => .error none
    | some (w0, w1, w2, w3) =>
      let child := bitsOf w0 62 1 = 1
      let cls := bitsOf w0 60 2
      let bad := bitsOf w0 0 20 != 0 || bitsOf w2 40 24 != 0 || w3 != 0 || decide (bitsOf w0 20 20 < bitsOf w0 40 20)
        || (if child then cls != 0 || w2 != 0 else cls = 3)
      if bad then .error (some addr)
      else if child then
        (if w1 % 512 != 0 then .error (some addr) else resolveFrom s k fuel (s.mem.bytes w1 512) w1)
      else
        let net := (w1 + (k - bitsOf w0 40 20) * bitsOf w2 0 32) % 2 ^ 64
        let ps := bitsOf w2 32 8
        if cls = 0 && decide (1023 < net) then .error (some addr)
        else
          match s.pathSet ps with
          | none => .error (some addr)
          | some e => if cls != 0 && field e 8 2 = 0 then .error (some addr) else .ok (cls, net, ps)

/-- Whether the fabric guard lets a rank out (R346). -/
def State.permitted (s : State) (k : Nat) : Bool :=
  s.dev.ranges.any fun r => decide (r.1 ≤ k) && decide (k ≤ r.2)
/-- A rank's resolution: the die's rank cache, else the walk (R349). -/
def State.lookupRank (s : State) (die k : Nat) : Option (Nat × Nat × Nat) :=
  match (amGet s.fabric.ranks die).bind fun c => amGet c k with
  | some r => some r
  | none =>
    match resolveFrom s k 8 s.dev.rootNode 0 with
    | .ok r => some r
    | .error _ => none
/-- The resolution of a rank that an access names, under the guard (R350). -/
def State.resolveRank (s : State) (die k : Nat) : Option (Nat × Nat × Nat) :=
  if !s.permitted k then none else s.lookupRank die k

/-! ### Address classes (R84, R299) -/

/-- The places `n` bytes at an address name, part by part, with the checks of R141 and R87 from PROTECT to MAPPING_REVOKED. -/
def State.resolveParts (s : State) (w : Who) (addr : DWord) (n : Nat) (need : Need) : List (Except Stop Seg) :=
  let a := addr.toNat
  if a < 2 ^ 57 then s.localParts w w.asid need (pageParts a n)
  else if a / 2 ^ 24 = 2 ^ 38 then
    match w.team.bind s.team with
    | none => [.error (.trap cProtect)]
    | some t =>
      if a % 2 ^ 24 + n ≤ t.part.toNat / 16 % 256 * 16384 then
        [.ok { place := .scratch (w.team.getD 0) (a % 2 ^ 24), len := n, va := a, fmt := none }]
      else [.error (.trap cProtect)]
  else if a < 2 ^ 63 then [.error (.trap cProtect)]
  else
    let rank := a / 2 ^ 43 % 2 ^ 20
    let region := a / 2 ^ 39 % 16
    let off := a % 2 ^ 39
    if rank = 0xFFFFF || decide (2 ^ 39 < off + n) then [.error (.trap cProtect)]
    else if rank = s.dev.rank then
      match s.regionCheck region off n need with
      | none => [.error (.trap cProtect)]
      | some (asid, va) => s.localParts w asid need (pageParts va n)
    else if s.dev.guardPending.isSome then [.error .stall]
    else if (s.resolveRank (dieOf w.core) rank).isNone then [.error (.trap cProtect)]
    else [.ok { place := .remote rank (BitVec.ofNat 4 region) off, len := n, va := a, fmt := none }]
/-- The places, or the failure that ranks first. -/
def State.resolve (s : State) (w : Who) (addr : DWord) (n : Nat) (need : Need) : Except Stop (List Seg) :=
  gather (s.resolveParts w addr n need)

/-- The local virtual address an address names (R299): itself, or through the own rank's region. -/
def State.localVA (s : State) (asid addr : Nat) : Option (Nat × Nat) :=
  if addr < 2 ^ 57 then some (asid, addr)
  else if 2 ^ 63 ≤ addr && addr / 2 ^ 43 % 2 ^ 20 == s.dev.rank then s.regionCheck (addr / 2 ^ 39 % 16) (addr % 2 ^ 39) 1 .any
  else none
/-- The pages of an access that the core's L1 TLB does not hold are walked for it (R173). -/
def State.missWalks (s : State) (w : Who) (addrs : List DWord) : State :=
  addrs.foldl (fun a x => match s.localVA w.asid x.toNat with
    | none => a
    | some v =>
      if Config.timelineBase ≤ v.2 || (tlbFind (s.core w.core).tlb v.1 v.2).isSome then a
      else a.wakeUp (.pageWalk w.core v.1 (v.2 / 65536 * 65536))) s

/-- The physical addresses of a segment's bytes, where it lies in package memory. -/
def Seg.pas (g : Seg) : List Nat :=
  match g.place with
  | .mem pa => upFrom pa g.len
  | _ => []
def Seg.isLocal (g : Seg) : Bool :=
  match g.place with
  | .mem _ => true
  | _ => false
def Seg.isRemote (g : Seg) : Bool :=
  match g.place with
  | .remote _ _ _ => true
  | _ => false
def Seg.isScratch (g : Seg) : Bool :=
  match g.place with
  | .scratch _ _ => true
  | _ => false
def Seg.isWindow (g : Seg) : Bool :=
  match g.place with
  | .window _ => true
  | _ => false

/-- How an executing group accesses. -/
def State.whoOf (s : State) (core : Nat) (g : Group) : Who :=
  { core := core, team := some g.team, launch := g.launch, asid := ((s.launch g.launch).map (·.asid)).getD 0, tlb := true }
/-- How the device accesses an address space on its own behalf. -/
def devWho (asid launch : Nat) : Who := { core := 0, team := none, launch := launch, asid := asid, tlb := false }

end Sys2Proof.Machine
end

