-- ==== Sys2Proof/Machine/Memory.lean ====
section
/-! DEFINITION. Named operations over memory: homes, CU lines, L1s, scratchpads, sync words, atomics, scope records and host events. -/
namespace Sys2Proof.Machine

/-! ### Host events (R336 to R338) -/

def EventRing.full (r : EventRing) : Bool :=
  match r.base with
  | none => true
  | some (_, k) => decide (2 ^ k ≤ r.write - r.ack)
def EventRing.push (r : EventRing) (e : EventEntry) : EventRing :=
  { r with written := amSet r.written r.write e, write := r.write + 1 }
/-- Write an event (R338): with the ring full a QUEUE or RING event is dropped and counted; others wait in the backlog. -/
def EventRing.put (r : EventRing) (e : EventEntry) : EventRing :=
  if r.full then
    if e.kind = 1 || e.kind = 2 then { r with ovf := true, count := (r.count + 1) % 2 ^ 32 }
    else if r.backlog.length < 1024 then { r with backlog := r.backlog ++ [e] }
    else { r with ovf := true, count := (r.count + 1) % 2 ^ 32 }
  else r.push e
/-- Write backlog entries while room is open (R338). -/
def EventRing.drain : Nat → EventRing → EventRing
  | 0, r => r
  | n + 1, r =>
    match r.backlog with
    | [] => r
    | e :: es => if r.full then r else EventRing.drain n ({ r with backlog := es }.push e)
def State.event (s : State) (e : EventEntry) : State :=
  { s with dev := { s.dev with events := s.dev.events.put e } }
/-- An event of a kind with a subject. -/
def evt (kind domain : Nat) (cause : Byte) (subject d1 d2 : Nat) : EventEntry :=
  { kind := kind, domain := domain, cause := cause, subject := BitVec.ofNat 64 subject, detail1 := BitVec.ofNat 64 d1,
    detail2 := BitVec.ofNat 64 d2 }
/-- An event of the kind and subject that the host has not acknowledged (R338). -/
def State.unacked (s : State) (kind subject : Nat) : Bool :=
  s.dev.events.written.any fun x =>
    decide (s.dev.events.ack ≤ x.1) && x.2.kind == kind && x.2.subject == BitVec.ofNat 64 subject

/-! ### Error counters (R340) -/

/-- Keys of the counters ERRCNT returns. -/
def errKey : ErrorCounter → Nat
  | .die n => n
  | .stack n => 16 + n
  | .link n => 1024 + n
  | .flits => 8
  | .frames => 9
  | .window => 10
  | .guardDrops => 11
  | .skipped => 12
/-- Add one; crossing a multiple of the threshold writes a CECOUNT event. -/
def State.countError (s : State) (c : ErrorCounter) : State :=
  let k := errKey c
  let v := stGet 0 s.dev.counters k
  if v = BitVec.allOnes 64 then s
  else
    let t := stGet 65536 s.dev.thresholds k
    let s1 : State := { s with dev := { s.dev with counters := stSet 0 s.dev.counters k (v + 1) } }
    if t != 0 && (v + 1).toNat % t.toNat = 0 then s1.event (evt 6 0 0 k 0 (v + 1).toNat) else s1

/-- What an access to a rank that does not resolve leaves: a packet the fabric guard drops is counted (R331, R346), and a table error
that its walk meets writes a FAULT event (R348). -/
def State.noteRank (s : State) (rank : Nat) : State :=
  if rank = s.dev.rank || rank = 0xFFFFF then s
  else if !s.permitted rank then s.countError .guardDrops
  else
    match resolveFrom s rank 8 s.dev.rootNode 0 with
    | .error (some a) => s.event (evt 3 0 0 a 0 0)
    | _ => s
/-- The same for a global address. -/
def State.noteAddr (s : State) (a : DWord) : State :=
  if a.getLsbD 63 then s.noteRank (a.toNat / 2 ^ 43 % 2 ^ 20) else s

/-! ### Atomic operations (R95, R142, R236) -/

/-- The new value of an atomic operation of type `t` (bf: add only, R236): 0 add, 1 and, 2 or, 3 xor, 4 min, 5 max, 6 minnum, 7 maxnum, 8 swap (R95). -/
def atomicOp (t : BitVec 4) (op : Nat) (old b : Nat) : Num :=
  let w := 2 ^ widthOf t
  if t = 11 then fAdd 11 0 old b
  else if t = 12 then
    match op with
    | 0 => fAdd 12 0 old b
    | 4 => fMinMax 12 false false old b
    | 5 => fMinMax 12 true false old b
    | 6 => fMinMax 12 false true old b
    | 7 => fMinMax 12 true true old b
    | _ => Num.pure (b % w)
  else
    match op with
    | 0 => Num.pure ((old + b) % w)
    | 1 => Num.pure ((old &&& b) % w)
    | 2 => Num.pure ((old ||| b) % w)
    | 3 => Num.pure ((old ^^^ b) % w)
    | 4 => Num.pure (if intVal t b < intVal t old then b % w else old % w)
    | 5 => Num.pure (if intVal t old < intVal t b then b % w else old % w)
    | _ => Num.pure (b % w)
/-- SATOM's type and operation of R95's numbering, from its width and fn[3:0] (R13). -/
def satomOp (narrow : Bool) (op : Nat) : BitVec 4 × Nat :=
  let i : BitVec 4 := if narrow then 4 else 6
  let n : BitVec 4 := if narrow then 5 else 7
  match op with
  | 6 => (n, 4)
  | 7 => (n, 5)
  | 8 => (i, 8)
  | k => (i, k)

/-! ### Homes and commutative-update lines (R255, R256, R260, R261) -/

/-- Merge one core's elements into the home values (R261). -/
def mergePartial (line : Nat) (op : Nat) (t : BitVec 4) (m : Mem) : AMap (BitVec 64) → Mem
  | [] => m
  | (off, x) :: rest =>
    let pa := line * 128 + off
    let v := (atomicOp t op (m.num pa (bytesIn t)) x.toNat).bits
    mergePartial line op t (m.setBytes pa (bytesOf (bytesIn t) v)) rest
/-- Recall a CU line: partials merge in ascending core id (R261). -/
def Mem.recall (m : Mem) (line : Nat) : Mem :=
  match amGet m.cu line with
  | none => m
  | some c =>
    let m1 := c.partials.foldl (fun acc p => mergePartial line c.op c.ty acc p.2) m
    { m1 with cu := amDel m1.cu line }
/-- Recall every CU line of a byte range. -/
def Mem.recallRange (m : Mem) (pa n : Nat) : Mem :=
  if n = 0 then m
  else (upFrom (pa / 128) ((pa + n - 1) / 128 + 1 - pa / 128)).foldl Mem.recall m
/-- The kind of the live word that holds a byte. -/
def Mem.live (m : Mem) (pa : Nat) : Option SyncKind := amGet m.sync (pa / 8)
/-- Whether a byte range touches a live word. -/
def Mem.liveIn (m : Mem) (pa n : Nat) : Bool :=
  if n = 0 then false
  else (upFrom (pa / 8) ((pa + n - 1) / 8 + 1 - pa / 8)).any fun w => (amGet m.sync w).isSome
/-- Whether a byte range touches a poisoned line (R308). -/
def Mem.poisonIn (m : Mem) (pa n : Nat) : Bool :=
  if n = 0 then false
  else (upFrom (pa / 128) ((pa + n - 1) / 128 + 1 - pa / 128)).any (nsHas m.poison)
/-- Read at the home. -/
def Mem.homeRead (m : Mem) (pa n : Nat) : Mem × List Byte :=
  let m1 := m.recallRange pa n
  (m1, m1.bytes pa n)
/-- Clear the poison of lines that `n` bytes from `pa` cover whole (R308). -/
def Mem.unpoison (m : Mem) (pa n : Nat) : Mem :=
  let first := (pa + 127) / 128
  let last := (pa + n) / 128
  { m with poison := (upFrom first (last - first)).foldl nsDel m.poison }
/-- Write at the home: the line is recalled, present, and a whole line loses its poison (R256, R261, R308). -/
def Mem.homeWrite (m : Mem) (pa : Nat) (bs : List Byte) : Mem :=
  (((m.recallRange pa bs.length).setBytes pa bs).unpoison pa bs.length)
/-! ### The L2 slices (R1, R255, R256) -/

/-- The home slice of a line (R255). -/
def State.homeOf (s : State) (line : Nat) : Nat :=
  if s.slices = 0 then 0 else (line ^^^ line / 2 ^ 12 ^^^ line / 2 ^ 24) % s.slices
/-- Lines of a slice: 4 MiB (R1). -/
def sliceLines : Nat := 32768
/-- A line's pin count: the sum over launches. -/
def Mem.pinCount (m : Mem) (line : Nat) : Nat := ((amGet m.pins line).getD []).foldl (fun n x => n + x.2) 0
/-- Drop a line from its slice, and its scope record with it (R262). -/
def Mem.l2Drop (m : Mem) (line : Nat) : Mem := { m with l2 := nsDel m.l2 line, scopes := amDel m.scopes line }
/-- A line is present in its home slice (R256): in a full slice a free choice of the lines that are not pinned, or of the `.keep` copies it
holds, gives way (log entry 35). -/
def State.l2Touch (s : State) (line : Nat) : State :=
  if nsHas s.mem.l2 line then s
  else
    let home := s.homeOf line
    let mine := s.mem.l2.filter fun x => s.homeOf x.1 == home
    let kept := s.mem.keeps.filter fun k => s.homeOf k.line == home
    let add := fun (x : State) => x.modMem fun m => { m with l2 := nsAdd m.l2 line }
    if mine.length + kept.length < sliceLines then add s
    else
      let loose := mine.filter fun x => s.mem.pinCount x.1 == 0
      let i := s.freeNat (loose.length + kept.length)
      add (s.usedFree.modMem fun m => match loose[i]?, kept[i - loose.length]? with
        | some x, _ => m.l2Drop x.1
        | none, some k => { m with keeps := m.keeps.filter fun y => y != k }
        | none, none => m)
/-- The lines of `n` bytes are present. -/
def State.l2Touches (s : State) (pa n : Nat) : State :=
  if n = 0 then s else (upFrom (pa / 128) ((pa + n - 1) / 128 + 1 - pa / 128)).foldl State.l2Touch s

/-- A write-back of one byte: the home discards a byte of a live word (R284). -/
def Mem.writeBackByte (m : Mem) (pa : Nat) (b : Byte) : Mem :=
  if (m.live pa).isSome then m else (m.recall (pa / 128)).setByte pa b

/-! ### The L1 (R170 to R172) -/

def L1.has (l : L1) (pa : Nat) : Bool := (amGet l.dirty pa).isSome || (amGet l.clean pa).isSome
def L1.byte (l : L1) (pa : Nat) : Option Byte := (amGet l.dirty pa).or (amGet l.clean pa)
/-- The lines the L1 holds, ascending. -/
def L1.lines (l : L1) : NSet :=
  l.clean.foldl (fun m x => nsAdd m (x.1 / 128)) (l.dirty.foldl (fun m x => nsAdd m (x.1 / 128)) [])
/-- Split a byte map by whether its line satisfies `p`. -/
def byLine (p : Nat → Bool) (m : AMap Byte) : AMap Byte × AMap Byte :=
  (m.filter fun x => p (x.1 / 128), m.filter fun x => !p (x.1 / 128))
/-- Write back the dirty bytes of the lines that satisfy `p`; they stay valid as clean bytes (R171), but for those of a live word,
which the home discards (R284). -/
def State.writeBack (s : State) (core : Nat) (p : Nat → Bool) : State :=
  let c := s.core core
  let d := byLine p c.l1.dirty
  if d.1.isEmpty then s
  else
    let mem1 := d.1.foldr (fun x m => m.writeBackByte x.1 x.2) s.mem
    let whole : List Nat := (d.1.foldl (fun m x => nsAdd m (x.1 / 128)) ([] : NSet)).filterMap fun l =>
      if (d.1.filter fun x => x.1 / 128 == l.1).length = 128 then some l.1 else none
    let mem2 : Mem := { mem1 with poison := whole.foldl nsDel mem1.poison }
    let clean := (d.1.filter fun x => (s.mem.live x.1).isNone).foldr (fun x m => amSet m x.1 x.2) c.l1.clean
    let lines := d.1.foldl (fun m x => nsAdd m (x.1 / 128)) ([] : NSet)
    let s1 := ({ s with mem := mem2 } : State).putCore core { c with l1 := { c.l1 with dirty := d.2, clean := clean } }
    lines.foldl (fun a l => a.l2Touch l.1) s1
/-- Prefetched lines that leave the L1 before their first demand access count as unused (R175). -/
def Core.unused (c : Core) (lines : NSet) : Core :=
  let gone := c.l1.fetched.filter fun l => nsHas lines l.1
  if gone.isEmpty then c
  else
    { c with l1 := { c.l1 with fetched := gone.foldl (fun m l => nsDel m l.1) c.l1.fetched },
             counters := { c.counters with unused := c.counters.unused + BitVec.ofNat 64 gone.length } }
/-- Invalidate every byte that is not dirty (R172). -/
def State.dropClean (s : State) (core : Nat) : State :=
  s.modCore core fun c =>
    let held := c.l1.dirty.foldl (fun m x => nsAdd m (x.1 / 128)) ([] : NSet)
    let gone := c.l1.clean.foldl (fun m x => if nsHas held (x.1 / 128) then m else nsAdd m (x.1 / 128)) ([] : NSet)
    (fun (x : Core) => { x with l1 := { x.l1 with clean := [] } }) (c.unused gone)
/-- Write a line back and drop the core's copy (R172). -/
def State.dropLine (s : State) (core line : Nat) : State :=
  (s.writeBack core (· == line)).modCore core fun c =>
    { c with l1 := { c.l1 with clean := (byLine (· == line) c.l1.clean).2 } }
/-- The lines of a set on which a core holds a partial in its L1 (R260). -/
def State.l1Partials (s : State) (core set : Nat) : List Nat :=
  (s.mem.cu.filter fun x => x.1 % 256 == set && (amGet x.2.partials core).isSome && !nsHas x.2.atHome core).map (·.1)
/-- A partial line leaves the L1: the home keeps it as that core's partial (R260). -/
def Mem.partialHome (m : Mem) (core line : Nat) : Mem := { m with cu := amMod (fun c => { c with atHome := nsAdd c.atHome core }) m.cu line }
/-- Make room for a line (R170: 256 sets of 8 ways): with the set full, a free choice of its lines is evicted (R171), a line of partials only
where every way holds them (R260). -/
def State.l1Room (s : State) (core line : Nat) : State :=
  let ls := ((s.core core).l1.lines.filter fun x => x.1 % 256 == line % 256).map (·.1)
  let ps := s.l1Partials core (line % 256)
  if ls.contains line || ls.length + ps.length < 8 then s
  else if ls.isEmpty then
    s.usedFree.modMem fun m => m.partialHome core ((ps[s.freeNat ps.length]?).getD line)
  else
    let victim := (ls[s.freeNat ls.length]?).getD line
    ((s.usedFree).dropLine core victim).modCore core fun c => c.unused (nsAdd [] victim)

/-- Whether the ingress queue of a line's home is more than 75 % full (R257, R259): its 512 miss-status registers are taken, and more than 192
requests wait for one. -/
def State.ingressFull (s : State) (line : Nat) : Bool :=
  decide (512 + 192 < (s.mem.msrs.filter fun x => s.homeOf x.1 == s.homeOf line).length)
/-- Train the prefetch detector on a missed line (R259); a stream of three consecutive lines requests the next four. -/
def State.trainMiss (s : State) (core line : Nat) : State :=
  let c := s.core core
  match c.streams.find? fun t => (t.line + 1 == line && (t.up || t.run == 1)) || (line + 1 == t.line && (!t.up || t.run == 1)) with
  | none =>
    let old := if 16 ≤ c.streams.length then c.streams.drop 1 else c.streams
    s.putCore core { c with streams := old ++ [{ line := line, up := true, run := 1 }] }
  | some t =>
    let up := t.line + 1 == line
    let t2 : Stream := { line := line, up := up, run := t.run + 1 }
    let s1 := s.putCore core { c with streams := (c.streams.filter fun x => x != t) ++ [t2] }
    if t2.run < 3 then s1
    else
      let want := (upFrom 1 4).filterMap fun k =>
        let l := if up then line + k else line - k
        if (!up && decide (line < k)) || nsHas s1.mem.l2 l || (amGet s1.mem.msrs l).isSome || decide (s1.paEnd ≤ l * 128)
          || s1.ingressFull l
        then none else some l
      want.foldl (fun a l =>
        ((a.modMem fun m => { m with msrs := amSet m.msrs l [core] }).modCore core fun c =>
          { c with counters := { c.counters with issue := c.counters.issue + 1 } }).wakeUp (.l2MissFill l)) s1

/-- A core's outstanding prefetch of a line ends: the line is present, and awaits its first demand access. -/
def State.prefetchDone (s : State) (core line : Nat) : State :=
  match amGet s.mem.msrs line with
  | none => s
  | some who =>
    let rest := who.filter (· != core)
    ((s.l2Touch line).modMem fun m => { m with msrs := if rest.isEmpty then amDel m.msrs line else amSet m.msrs line rest }).modCore core
      fun x => { x with l1 := { x.l1 with fetched := nsAdd x.l1.fetched line } }
/-- The lines whose prefetch by a core is outstanding: each has one of its 64 miss entries (R174). -/
def State.prefetching (s : State) (core : Nat) : List Nat := (s.mem.msrs.filter fun x => x.2.contains core).map (·.1)
/-- Whether a core's miss entries are all busy (R174). -/
def State.missesBusy (s : State) (core : Nat) : Bool := decide (64 ≤ (s.prefetching core).length + (s.core core).misses.length)
/-- A prefetched line that has left the L1 and its home slice before its first demand access (R175). -/
def State.wasted (s : State) (core line : Nat) : Bool := !nsHas s.mem.l2 line && !nsHas (s.core core).l1.lines line
/-- The first demand access to a line settles the fate of its prefetch (R175). -/
def State.demand (s : State) (core line : Nat) : State :=
  let c := s.core core
  if nsHas c.l1.fetched line then
    let n := c.counters
    s.putCore core { c with l1 := { c.l1 with fetched := nsDel c.l1.fetched line },
                            counters := if s.wasted core line then { n with unused := n.unused + 1 } else { n with useful := n.useful + 1 } }
  else
    match amGet s.mem.msrs line with
    | none => s
    | some who =>
      let s1 := (s.l2Touch line).modMem fun m => { m with msrs := amDel m.msrs line }
      if who.contains core then
        s1.modCore core fun c => { c with counters := { c.counters with late := c.counters.late + 1 } }
      else s1
/-- A demand miss takes a miss entry of its line, or joins the one the line has (R174, R175); with none free the oldest prefetch completes
first, which is the wait. -/
def State.missEntry (s : State) (core line : Nat) : State :=
  if nsHas (s.core core).misses line then s
  else
    let s1 := match s.missesBusy core, s.prefetching core with
      | true, l :: _ => s.prefetchDone core l
      | _, _ => s
    (s1.trainMiss core line).modCore core fun c =>
      { c with misses := nsAdd c.misses line, counters := { c.counters with l1miss := c.counters.l1miss + 1 } }
/-- Bring the 32-byte sector of a byte into the L1 when the byte is not there (R170). -/
def State.l1Fetch (s : State) (core pa : Nat) : State :=
  let line := pa / 128
  let s0 := s.demand core line
  if (s0.core core).l1.has pa then s0
  else
    let s1 := ((s0.l1Room core line).missEntry core line).l2Touch line
    let sector := pa / 32 * 32
    let r := s1.mem.homeRead sector 32
    let s2 : State := { s1 with mem := r.1 }
    s2.modCore core fun c =>
      let clean := (upFrom 0 32).foldl (fun m i =>
        if (amGet c.l1.dirty (sector + i)).isSome then m else amSet m (sector + i) ((r.2[i]?).getD 0)) c.l1.clean
      { c with l1 := { c.l1 with clean := clean } }
/-- A load of local bytes through the core's L1 (R170). A CU line is recalled first (R261). -/
def State.l1Load (s : State) (core pa n : Nat) : State × List Byte :=
  let hot := (amGet s.mem.cu (pa / 128)).isSome || (amGet s.mem.cu ((pa + n - 1) / 128)).isSome
  let s0 := if hot && n != 0 then
      ((s.modMem fun m => m.recallRange pa n).dropLine core (pa / 128)).dropLine core ((pa + n - 1) / 128) else s
  let s1 := (upFrom pa n).foldl (fun a p => a.l1Fetch core p) s0
  (s1, (upFrom pa n).map fun p => ((s1.core core).l1.byte p).getD 0)
/-- A store of one byte into the L1: it becomes dirty, and the line is not fetched (R170). -/
def L1.store (l : L1) (pa : Nat) (b : Byte) : L1 := { l with dirty := amSet l.dirty pa b, clean := amDel l.clean pa }
/-- Store consecutive bytes into the L1. -/
def L1.stores (l : L1) (pa : Nat) : List Byte → L1
  | [] => l
  | b :: bs => (l.store pa b).stores (pa + 1) bs
/-- A store of local bytes (R170, R261). -/
def State.l1Store (s : State) (core pa : Nat) (bs : List Byte) : State :=
  if bs.isEmpty then s
  else
    let n := bs.length
    let s0 := s.modMem fun m => m.recallRange pa n
    ((upFrom (pa / 128) ((pa + n - 1) / 128 + 1 - pa / 128)).foldl (fun a l => ((a.demand core l).l1Room core l)) s0).modCore core fun c =>
      { c with l1 := c.l1.stores pa bs }

/-! ### Scratchpads and the timeline window (R169, R422) -/

def Team.scratchBytes (t : Team) (off n : Nat) : List Byte := (upFrom off n).map fun o => stGet 0 t.scratch o
def setScratch (m : Store Byte) (off : Nat) : List Byte → Store Byte
  | [] => m
  | b :: bs => setScratch (stSet 0 m off b) (off + 1) bs
def State.scratchRead (s : State) (team off n : Nat) : List Byte :=
  match s.team team with
  | none => bytesOf n 0
  | some t => t.scratchBytes off n
def State.scratchWrite (s : State) (team off : Nat) (bs : List Byte) : State :=
  s.modTeam team fun t => { t with scratch := setScratch t.scratch off bs }
/-- A word of the window (R422). -/
def State.windowWord (s : State) (k : Nat) : DWord := stGet 0 s.mem.window k
def State.windowRead (s : State) (off n : Nat) : List Byte :=
  (upFrom off n).map fun o => BitVec.ofNat 8 ((s.windowWord (o / 8)).toNat / 2 ^ (8 * (o % 8)))

/-- Read the bytes of a segment for a group, through the L1 for local memory. Bytes of another rank read 0 here; the answer
brings them (R354). -/
def State.segRead (s : State) (core : Nat) (g : Seg) : State × List Byte :=
  match g.place with
  | .mem pa => s.l1Load core pa g.len
  | .scratch t off => (s, s.scratchRead t off g.len)
  | .window off => (s, s.windowRead off g.len)
  | .remote _ _ _ => (s, bytesOf g.len 0)
/-- Read segments in order. -/
def State.segsRead (s : State) (core : Nat) : List Seg → State × List Byte
  | [] => (s, [])
  | g :: gs =>
    let r := s.segRead core g
    let q := r.1.segsRead core gs
    (q.1, r.2 ++ q.2)
/-- Write bytes over segments for a group: local memory through the L1, the scratchpad directly. -/
def State.segsWrite (s : State) (core : Nat) : List Seg → List Byte → State
  | [], _ => s
  | g :: gs, bs =>
    let now := bs.take g.len
    let s1 := match g.place with
      | .mem pa => s.l1Store core pa now
      | .scratch t off => s.scratchWrite t off now
      | .window _ => s
      | .remote _ _ _ => s
    s1.segsWrite core gs (bs.drop g.len)
/-- Read and write at the homes, as engines do (R234). -/
def State.segsHomeRead (s : State) : List Seg → State × List Byte
  | [] => (s, [])
  | g :: gs =>
    let r : State × List Byte := match g.place with
      | .mem pa => let x := s.mem.homeRead pa g.len; (({ s with mem := x.1 } : State).l2Touches pa g.len, x.2)
      | .scratch t off => (s, s.scratchRead t off g.len)
      | .window off => (s, s.windowRead off g.len)
      | .remote _ _ _ => (s, bytesOf g.len 0)
    let q := r.1.segsHomeRead gs
    (q.1, r.2 ++ q.2)
def State.segsHomeWrite (s : State) : List Seg → List Byte → State
  | [], _ => s
  | g :: gs, bs =>
    let now := bs.take g.len
    let s1 := match g.place with
      | .mem pa => (s.modMem fun m => m.homeWrite pa now).l2Touches pa now.length
      | .scratch t off => s.scratchWrite t off now
      | .window _ => s
      | .remote _ _ _ => s
    s1.segsHomeWrite gs (bs.drop g.len)

/-- Any part on a format page. -/
def anyFmt (gs : List Seg) : Bool := gs.any fun g => g.fmt.isSome
/-- Any byte in a live word (R284); the timeline window's words are live (R422). -/
def State.touchesLive (s : State) (gs : List Seg) : Bool :=
  gs.any fun g => match g.place with
    | .mem pa => s.mem.liveIn pa g.len
    | .window _ => true
    | _ => false
def State.touchesPoison (s : State) (gs : List Seg) : Bool :=
  gs.any fun g => match g.place with
    | .mem pa => s.mem.poisonIn pa g.len
    | _ => false

/-! ### Device reads and writes of software's structures -/

/-- Bytes of an address space read at their homes by the device; none when they do not translate. -/
def State.devRead (s : State) (asid addr n : Nat) : Option (List Byte) :=
  match s.resolve (devWho asid 0) (BitVec.ofNat 64 addr) n .rd with
  | .ok gs => if anyFmt gs || gs.any Seg.isRemote || gs.any Seg.isScratch then none else some (s.segsHomeRead gs).2
  | .error _ => none
def State.devNum (s : State) (asid addr n : Nat) : Option Nat := (s.devRead asid addr n).map leNat
/-- Write at the homes on behalf of the device; nothing is written when the bytes do not translate or touch a live word. -/
def State.devWrite (s : State) (asid addr : Nat) (bs : List Byte) : State :=
  match s.resolve (devWho asid 0) (BitVec.ofNat 64 addr) bs.length .wr with
  | .ok gs => if anyFmt gs || s.touchesLive gs || gs.any Seg.isRemote || gs.any Seg.isScratch then s else s.segsHomeWrite gs bs
  | .error _ => s
/-- The physical address of an 8-byte word that allows `need`. -/
def State.wordPA (s : State) (asid addr : Nat) (need : Need) : Option Nat :=
  if addr % 8 != 0 then none
  else
    match s.resolve (devWho asid 0) (BitVec.ofNat 64 addr) 8 need with
    | .ok [{ place := .mem pa, len := _, va := _, fmt := none }] => some pa
    | _ => none

/-! ### Sync words (R283 to R286) -/

/-- The fields of a barrier word (R285): PHASE, EXPECTED, PENDING, BYTES. -/
def barPhase (w : DWord) : Bool := w.getLsbD 63
def barExpected (w : DWord) : Nat := bitsOf w.toNat 48 15
def barPending (w : DWord) : Nat := bitsOf w.toNat 33 15
def barBytes (w : DWord) : Int :=
  let n := bitsOf w.toNat 0 33
  if 2 ^ 32 ≤ n then (n : Int) - 2 ^ 33 else n
def mkBarrier (phase : Bool) (expected pending : Nat) (bytes : Int) : DWord :=
  BitVec.ofNat 64 ((if phase then 2 ^ 63 else 0) + expected % 2 ^ 15 * 2 ^ 48 + pending % 2 ^ 15 * 2 ^ 33 + wrapInt 33 bytes)
/-- The flip check (R285). -/
def flipCheck (w : DWord) : DWord :=
  if barPending w = 0 && barBytes w == 0 then mkBarrier (!barPhase w) (barExpected w) (barExpected w) 0 else w

/-- Whether a wait registered on a word ends when the word takes a value: met, or freed because the word is no longer of its kind
(R291, R292, R294, R295). -/
def waitMet (p : Place) (k : Option SyncKind) (v : DWord) : SplitStatus → Option Bool
  | .bwait w phase =>
    if w.due || w.place != p then none else if k != some .barrier then some false else if barPhase v == phase then some true else none
  | .waittl w n =>
    if w.due || w.place != p then none else if k != some .counter then some false else if n ≤ v then some true else none
  | _ => none
/-- A wait that has ended. -/
def setDue (met : Bool) : SplitStatus → SplitStatus
  | .bwait w phase => if met then .bwait { w with due := true } phase else .freed w.addr
  | .waittl w n => if met then .waittl { w with due := true } n else .freed w.addr
  | x => x
/-- The event that finishes a split's wait on a word. -/
def waitEvent (core slot split : Nat) : SplitStatus → Option Instr
  | .bwait _ _ => some (.bwaitRelease core slot split)
  | .waittl _ _ => some (.waittlRelease core slot split)
  | _ => none
/-- A wait of another rank, tested in the same way. -/
def FarWait.test (p : Place) (k : Option SyncKind) (v : DWord) (x : FarWait) : FarWait :=
  if x.place != p || x.met.isSome then x
  else if k != some (if x.barrier then .barrier else .counter) then { x with met := some false }
  else if (if x.barrier then barPhase v == x.value.getLsbD 0 else decide (x.value ≤ v)) then { x with met := some true } else x
def Split.heard (p : Place) (k : Option SyncKind) (v : DWord) (x : Split) : Split :=
  match waitMet p k v x.status with
  | some m => { x with status := setDue m x.status }
  | none => x
/-- A word's new value and kind reach the waits registered on it. -/
def State.notify (s : State) (p : Place) (k : Option SyncKind) (v : DWord) : State :=
  let due := s.groups.flatMap fun g => g.2.splits.filterMap fun x =>
    if (waitMet p k v x.2.status).isSome then (waitEvent (g.1 / 32) (g.1 % 32) x.1 x.2.status).map Turn.event else none
  let s1 : State := if s.fabric.waits.isEmpty then s
    else { s with fabric := { s.fabric with waits := s.fabric.waits.map (FarWait.test p k v) } }
  if due.isEmpty then s1
  else
    { s1 with
      groups := amMap (fun _ g => { g with splits := amMap (fun _ (x : Split) => x.heard p k v) g.splits }) s1.groups,
      sched := { s1.sched with wake := s1.sched.wake ++ due } }
/-- The place of a counter word that a unit reads: package memory or the timeline window (R230, R422). -/
def State.counterPlace (s : State) (asid addr : Nat) : Option Place :=
  if addr % 8 != 0 then none
  else
    match s.resolve (devWho asid 0) (BitVec.ofNat 64 addr) 8 .rd with
    | .ok [{ place := .mem pa, len := _, va := _, fmt := none }] => some (.mem pa)
    | .ok [{ place := .window off, len := _, va := _, fmt := none }] => some (.window off)
    | _ => none
/-- Armed entries whose trigger counter is this word become due (R230). -/
def State.wakeTriggers (s : State) (p : Place) : State :=
  let due := s.entries.filterMap fun e =>
    if e.2.armed && s.counterPlace e.2.asid (field e.2.bytes 40 8) == some p then some (Turn.event (.triggeredEntryFire e.1)) else none
  if due.isEmpty then s else { s with sched := { s.sched with wake := s.sched.wake ++ due } }
/-- Change a live word at its home. -/
def State.setWord (s : State) (pa : Nat) (v : DWord) : State :=
  (((s.l2Touch (pa / 128)).modMem fun m => (m.recall (pa / 128)).setBytes pa (bytesOf 8 v.toNat)).notify (.mem pa) (s.mem.live pa) v).wakeTriggers (.mem pa)
/-- A word's value at its home. -/
def State.wordAt (s : State) (pa : Nat) : DWord := BitVec.ofNat 64 ((s.mem.recall (pa / 128)).num pa 8)
/-- Set a word of the timeline window. -/
def State.setWindow (s : State) (k : Nat) (v : DWord) : State :=
  ((s.modMem fun m => { m with window := stSet 0 m.window k v }).notify (.window (8 * k)) (some .counter) v).wakeTriggers (.window (8 * k))

/-- Add to a counter word; it stays at 2^64 - 1 (R286). The Bool tells an overflow. -/
def State.addCounter (s : State) (pa n : Nat) : State × Bool :=
  let v := (s.wordAt pa).toNat + n
  if 2 ^ 64 ≤ v then (s.setWord pa (BitVec.allOnes 64), true) else (s.setWord pa (BitVec.ofNat 64 v), false)
/-- Landed bytes lower a barrier word's BYTES (R285, R231). The Bool tells that BYTES stopped at its lowest value. -/
def State.landBytes (s : State) (pa n : Nat) : State × Bool :=
  let w := s.wordAt pa
  let b := barBytes w - n
  let low := decide (b < -(2 ^ 32))
  (s.setWord pa (flipCheck (mkBarrier (barPhase w) (barExpected w) (barPending w) (if low then -(2 ^ 32) else b))), low)

/-- A count that is skipped (R340, R423): counted, and reported unless `quiet`. -/
def State.skipCount (s : State) (addr n : Nat) (quiet : Bool) : State :=
  let s1 := s.countError .skipped
  if quiet then s1 else s1.event (evt 3 0 0 addr 0 n)
/-- Count on a word that software names (R423): skipped unless it is a live counter word on a page with RD, W and A. The Bool tells a
skipped count. One that passes 2^64 - 1 is reported (R286): these words belong to no launch's context, so the report is a FAULT event with
the word's address (log entry 82). -/
def State.tryCount (s : State) (asid addr n : Nat) (quiet : Bool) : State × Bool :=
  match s.wordPA asid addr .atom with
  | some pa =>
    if s.mem.live pa = some .counter then
      let r := s.addCounter pa n
      (if r.2 then r.1.event (evt 3 0 cQueue addr 0 n) else r.1, false)
    else (s.skipCount addr n quiet, true)
  | none => (s.skipCount addr n quiet, true)
/-- Count on a word; address 0 names none. -/
def State.countOn (s : State) (asid addr n : Nat) (quiet : Bool) : State :=
  if addr = 0 then s else (s.tryCount asid addr n quiet).1

/-! ### The scope checker (R262, R281) -/

/-- Who makes a synchronising access: a core of the package, a pod peer, another rank. -/
inductive Party where
  | core (c : Nat)
  | pod (rank : Nat)
  | far (rank : Nat)
deriving DecidableEq, Repr

/-- Whether a party lies in a recorded instance (R266). -/
def inScope : ScopeRec → Party → Bool
  | .team c, .core d => c == d
  | .team _, _ => false
  | .device, .core _ => true
  | .device, _ => false
  | .pod _, .far _ => false
  | .pod _, _ => true
  | .job, _ => true
/-- The record a passing access writes (R262). -/
def scopeRec (scope : BitVec 2) (own : Nat) : Party → ScopeRec
  | .core c => if scope = 0 then .team c else if scope = 1 then .device else if scope = 2 then .pod own else .job
  | .pod r => if scope = 2 then .pod r else .job
  | .far _ => .job
def State.scopeOk (s : State) (line : Nat) (p : Party) : Bool :=
  match amGet s.mem.scopes line with
  | none => true
  | some r => inScope r p
/-- Write the record; a core's team grant goes when the record changes (R262). -/
def State.setScope (s : State) (line : Nat) (scope : BitVec 2) (p : Party) : State :=
  let r := scopeRec scope s.dev.rank p
  let s := s.l2Touch line
  let s1 := if amGet s.mem.scopes line = some r then s
    else { s with cores := amMap (fun _ c => { c with grants := nsDel c.grants line }) s.cores }
  let s2 := s1.modMem fun m => { m with scopes := amSet m.scopes line r }
  match p with
  | .core c => if scope = 0 then s2.modCore c fun x => { x with grants := nsAdd x.grants line } else s2
  | _ => s2
def State.clearScope (s : State) (line : Nat) : State :=
  { s.modMem (fun m => { m with scopes := amDel m.scopes line }) with
    cores := amMap (fun _ c => { c with grants := nsDel c.grants line }) s.cores }

end Sys2Proof.Machine
end

