-- ==== Sys2Proof/Machine/Rcb.lean ====
section
/-! DEFINITION. Region control blocks (R309 to R311), partition words (R166, R167), and budgets. -/
namespace Sys2Proof.Machine

/-- A field of `k` bytes at offset `o` of an RCB; an RCB that cannot be read gives 0. -/
def State.rcbField (s : State) (asid rcb o k : Nat) : Nat := (s.devNum asid (rcb + o) k).getD 0
/-- VALID for the purposes of R321 and R315 (R309, R310): aligned, readable, bit 0 set, and slots where a region is named. -/
def State.rcbValid (s : State) (asid rcb : Nat) : Bool :=
  match s.devRead asid rcb 256 with
  | none => false
  | some b =>
    rcb % 256 == 0 && decide (rcb < 2 ^ 57) && bitsOf (field b 0 8) 0 1 == 1
      && !(field b 80 2 == 0 && (field b 56 8 != 0 || field b 64 8 != 0 || field b 72 8 != 0))
/-- The RCBs from one up to its top level, within 16 levels (R321). -/
def State.rcbPathFrom (s : State) (asid : Nat) : Nat → Nat → Option (List Nat)
  | 0, _ => none
  | n + 1, rcb =>
    if !s.rcbValid asid rcb then none
    else
      let p := s.rcbField asid rcb 8 8
      if p = 0 then some [rcb] else (s.rcbPathFrom asid n p).map (rcb :: ·)
/-- The path of an RCB, itself first; an RCB whose chain is broken has only itself. -/
def State.rcbPath (s : State) (asid rcb : Nat) : List Nat := (s.rcbPathFrom asid 16 rcb).getD [rcb]
/-- The nearest RCB upward whose field is nonzero, with the field (R310, R311). -/
def State.rcbNear (s : State) (asid rcb o k : Nat) : Option (Nat × Nat) :=
  (s.rcbPath asid rcb).findSome? fun r => let v := s.rcbField asid r o k; if v = 0 then none else some (r, v)
/-- An inherited field; 0 at the top gives 0. -/
def State.rcbInherit (s : State) (asid rcb o k : Nat) : Nat := ((s.rcbNear asid rcb o k).map (·.2)).getD 0
/-- DOMAIN, PRIO, TENANT, CANCELONFAULT, handler (R309, R310). -/
def State.rcbDomain (s : State) (asid rcb : Nat) : Nat := s.rcbInherit asid rcb 1 1
def State.rcbPrio (s : State) (asid rcb : Nat) : Nat :=
  ((s.rcbPath asid rcb).findSome? fun r =>
    let w := s.rcbField asid r 0 8; if bitsOf w 4 1 = 1 then some (bitsOf w 1 3) else none).getD 0
def State.rcbTenant (s : State) (asid rcb : Nat) : Nat :=
  (((s.rcbPath asid rcb).getLast?).map fun r => bitsOf (s.rcbField asid r 0 8) 5 3).getD 0
def State.rcbCof (s : State) (asid rcb : Nat) : Bool := bitsOf (s.rcbField asid rcb 0 8) 16 1 == 1
def State.rcbHandler (s : State) (asid rcb : Nat) : Nat := s.rcbInherit asid rcb 48 8
/-- The region fields: save 56, pool save 64, spill 72 (R311). -/
def State.rcbRegion (s : State) (asid rcb o : Nat) : Option (Nat × Nat) := s.rcbNear asid rcb o 8
/-- Budgets after inheritance; a top level that names none has the package's full resources (R310). -/
def State.rcbCores (s : State) (asid rcb : Nat) : Nat :=
  let v := ((s.rcbPath asid rcb).findSome? fun r => let x := s.rcbField asid r 32 8 % 512; if x = 0 then none else some x).getD 0
  if v = 0 then s.coreCount else v
def State.rcbPool (s : State) (asid rcb : Nat) : Nat :=
  let v := ((s.rcbPath asid rcb).findSome? fun r => let x := s.rcbField asid r 34 2; if x = 0 then none else some x).getD 0
  if v = 0 then 128 * s.coreCount else v
def State.rcbHbm (s : State) (asid rcb : Nat) : Nat :=
  let v := s.rcbInherit asid rcb 40 8
  if v = 0 then s.paEnd else v

/-- The RCBs of a path that set a fabric share, by `RCB × 256 + ASID`, with the share (R309). -/
def State.rcbShares (s : State) (asid rcb : Nat) : List (Nat × Nat) :=
  (s.rcbPath asid rcb).filterMap fun r => let v := s.rcbField asid r 36 1; if v = 0 then none else some (r * 256 + asid, v)

/-! ### Partition words (R166, R167) -/

def partSlots (w : DWord) : Nat := bitsOf w.toNat 0 4 * 64
def partScr (w : DWord) : Nat := bitsOf w.toNat 4 8
def partAcc (w : DWord) : Nat := bitsOf w.toNat 12 8
def partDiverge (w : DWord) : Bool := w.getLsbD 20
/-- The pool demand in bytes of a team of `g` groups (R167). -/
def poolDemand (w : DWord) (g : Nat) : Nat :=
  g * (128 * partSlots w + if partDiverge w then 8192 else 0) + 16384 * (partScr w + partAcc w)
/-- Whether launch validation accepts the word for a team of `g` groups (R167). -/
def partOk (w : DWord) (g : Nat) : Bool :=
  decide (w.toNat < 2 ^ 21) && decide (64 ≤ partSlots w) && decide (partSlots w ≤ 512) && decide (partScr w ≤ 128)
    && decide (partAcc w ≤ 128) && decide (poolDemand w g ≤ 2097152)

end Sys2Proof.Machine
end

