-- ==== Sys2Proof/Machine/Send.lean ====
section
/-! DEFINITION. Sending to other ranks: tickets, pod send queues (R362), the remote transport's sender (R373 to R377), reservations
(R364). -/
namespace Sys2Proof.Machine

/-! ### Pod phases (R359, R360) -/

/-- The plan's mode: 0 static, 1 stepped, 2 rotation. -/
def planMode (p : List Byte) : Nat := bitsOf (field p 0 8) 0 2
def planPhases (p : List Byte) : Nat := bitsOf (field p 0 8) 8 6 + 1
def planDevice (p : List Byte) : Nat := bitsOf (field p 16 8) 0 10
/-- The forwarding halfword of phase `k` for destination `d` (R360), from the tables that GUARD loaded behind the plan. -/
def planEntry (p : List Byte) (k d : Nat) : Nat := field p (1088 + 2048 * k + 2 * d) 2
/-- The egress pod port for a destination in a phase, when reachable. -/
def planEgress (p : List Byte) (k d : Nat) : Option Nat :=
  let h := planEntry p k d
  if bitsOf h 15 1 = 1 && decide (bitsOf h 0 7 < 96) then some (bitsOf h 0 7) else none

/-! ### Tickets and packets -/

def State.newTicket (s : State) (t : Ticket) : State × Nat :=
  ({ s with fabric := { s.fabric with tickets := amSet s.fabric.tickets s.fabric.nextTicket t,
                                      nextTicket := s.fabric.nextTicket + 1 } }, s.fabric.nextTicket)
def State.dropTicket (s : State) (k : Nat) : State :=
  s.modFab fun f => { f with tickets := amDel f.tickets k, copies := amDel f.copies k }
/-- Give a packet to the outside (log entry 2). -/
def State.emit (s : State) (p : Packet) : State := s.modFab fun f => { f with outbox := f.outbox ++ [p] }

/-- Units of 64 bytes of a packet (R363). -/
def bodyBytes : PktBody → Nat
  | .access _ ops => ops.foldl (fun n o => n + match o.2 with | .put d => d.length | .str d _ _ => d.length | _ => 16) 0
  | .answer _ ds => ds.foldl (fun n d => n + d.length) 0
  | .piece _ p => 4 * p.words.length
  | .contribution _ _ c => 4 * c.words.length
  | .cellReply _ _ (.result ws _ _) => 4 * ws.length
  | .cellReply _ _ (.short ws _ _) => 4 * ws.length
  | .register p => p.lanes.length * (if p.wide then 8 else 4)
  | _ => 16
def packetUnits (p : Packet) : Nat := (bodyBytes p.body + 63) / 64 + (if bodyBytes p.body = 0 then 1 else 0)
/-- The virtual channel of a packet (R363); reservations travel on the channel of the messages they are for (R115). -/
def packetChannel (p : Packet) : Nat :=
  match p.body with
  | .reserveRequest => 2
  | .reserveGrant => 2
  | .reserveBlock => 2
  | .reserveReturn _ => 2
  | b => if p.cls = 7 then 3 else match b with
  | .access _ _ => 0
  | .answer _ _ => 1
  | .fault _ _ _ _ => 1
  | .podNack _ => 1
  | .register _ => 2
  | .contribution _ _ _ => 2
  | .cellReply _ _ _ => 1
  | .putOutcome _ _ => 1
  | .unreachable _ => 1
  | _ => 0

/-- Append to a die's send queue for a pod device, from an input port (R362, R365). -/
def State.podQueue (s : State) (die dest : Nat) (p : Packet) (port : Nat := 24) : State :=
  let k := die * 1024 + dest
  (s.modFab fun f => { f with sendq := amSet f.sendq k (((amGet f.sendq k).getD []) ++ [{ pkt := p, port := port }]) }).wakeUp
    (.podPacketForward die dest)
/-- Whose traffic a packet is: class, tenant (8 for none), and the fabric shares it counts against (R253, R263, R309). -/
structure Traffic where
  cls : Nat
  tenant : Nat
  shares : List (Nat × Nat) := []
deriving DecidableEq, Repr
def Traffic.none : Traffic := { cls := 0, tenant := 8 }
/-- The traffic of a launch under one of its RCBs (R310). -/
def State.rcbTraffic (s : State) (asid rcb : Nat) : Traffic :=
  { cls := s.rcbPrio asid rcb, tenant := s.rcbTenant asid rcb, shares := s.rcbShares asid rcb }
def State.teamTraffic (s : State) (team : Nat) : Traffic :=
  match s.team team with
  | some t => s.rcbTraffic t.asid t.rcb
  | none => Traffic.none
def State.groupTraffic (s : State) (key : Nat) : Traffic :=
  match s.group key with
  | some g => s.teamTraffic g.team
  | none => Traffic.none
/-- The traffic of what an owner sends. -/
def State.traffic (s : State) (o : Owner) : Traffic :=
  match o with
  | .access core slot _ => s.groupTraffic (gkey core slot)
  | .split core slot _ => s.groupTraffic (gkey core slot)
  | .fetch core slot _ => s.groupTraffic (gkey core slot)
  | .copy e =>
    (match (amGet s.entries e).bind fun x => s.launch x.launch with
     | some l => s.rcbTraffic l.asid l.rcb
     | none => Traffic.none)
  | .matrix core op =>
    (match (s.core core).engines.matq.find? fun x => x.id == op with
     | some x => s.teamTraffic x.team
     | none => Traffic.none)
  | .rank core num =>
    (match (s.core core).engines.rankq.find? fun x => x.num == num with
     | some x => s.teamTraffic x.team
     | none => Traffic.none)
  | .cover l =>
    (match s.launch l with
     | some x => s.rcbTraffic x.asid x.rcb
     | none => Traffic.none)
  | .job k =>
    (match (amGet s.head.jobs k).bind fun j => s.launch j.launch with
     | some x => s.rcbTraffic x.asid x.rcb
     | none => Traffic.none)
  | .put p =>
    (match amGet s.fabric.puts p with
     | some x => s.groupTraffic (gkey x.core x.slot)
     | none => Traffic.none)
  | .team t => s.teamTraffic t
  | .coll t => s.teamTraffic t
  | .quantum _ => Traffic.none
  | .none => Traffic.none

/-! ### The remote sender (R352, R373, R374) -/

def PathState.fresh : PathState :=
  { weights := [], window := 1048576, last := 0, turn := 0, unmarked := [], zeroed := [], shrunk := none }
def PathState.weight (p : PathState) (i : Nat) : Nat := stGet 8 p.weights i
def PathState.setWeight (p : PathState) (i w : Nat) : PathState := { p with weights := stSet 8 p.weights i w }
/-- The paths of a path set (R351). -/
def setPaths (e : List Byte) : Nat := bitsOf (field e 10 1) 0 4 + 1
def setGranule (e : List Byte) : Nat := 2 ^ field e 11 1
/-- Lit wavelengths of a fibre, transmit and receive: 64 of a pod fibre, 28 of a remote one, where none has failed (R357, R370). -/
def State.waves (s : State) (fibre : Nat) : Nat × Nat :=
  let w := (amGet s.fabric.waves fibre).getD (if fibre < 96 then (64, 64) else (28, 28))
  if nsHas s.dev.lasersOff fibre then (0, w.2) else w
/-- Whether a remote port takes packets: 50 usable wavelengths each way and no retraining pause (R370). -/
def State.portUsable (s : State) (p : Nat) : Bool :=
  (amGet s.fabric.paused (128 + p)).isNone && [96 + 2 * p, 97 + 2 * p].all fun f =>
    decide (25 ≤ (s.waves f).1) && decide (25 ≤ (s.waves f).2)
/-- The ports of a path set, ascending. -/
def setPorts (e : List Byte) : List Nat := (upFrom 0 16).filter fun i => bitsOf (field e 8 2) i 1 == 1
/-- The port path `i` leaves through (R373). -/
def pathPort (e : List Byte) (i : Nat) : Option Nat := let ps := setPorts e; if ps.isEmpty then none else ps[i % ps.length]?
/-- The paths of a set whose port takes packets. -/
def State.openPaths (s : State) (ps : Nat) : List Nat :=
  match s.pathSet ps with
  | none => []
  | some e => (upFrom 0 (setPaths e)).filter fun i => match pathPort e i with
    | some p => s.portUsable p
    | none => false
/-- The next path after `i` of `n`, among the open ones, whose weight is not 0; the lowest open one when all are 0 (R373, R374). -/
def PathState.nextPath (p : PathState) (opens : List Nat) (i n : Nat) : Option Nat :=
  (((upFrom 1 n).map fun k => (i + k) % n).find? fun k => opens.contains k && p.weight k != 0).or opens.head?
/-- Choose the path of the next packet: `w` consecutive packets on a path of weight `w` (R373). -/
def PathState.take (p : PathState) (opens : List Nat) (n : Nat) : Option (PathState × Nat) :=
  if p.turn != 0 && decide (p.turn < p.weight p.last) && opens.contains p.last then some ({ p with turn := p.turn + 1 }, p.last)
  else (p.nextPath opens p.last n).map fun k => ({ p with last := k, turn := 1 }, k)
def State.pathState (s : State) (ps : Nat) : PathState := (amGet s.fabric.paths ps).getD PathState.fresh
def State.setPath (s : State) (ps : Nat) (p : PathState) : State :=
  s.modFab fun f => { f with paths := amSet f.paths ps p }
def Peer.fresh (net ps : Nat) : Peer :=
  { nextPsn := 0, flight := [], queue := [], retiring := [], cum := 0, accepted := [], atomics := [], lastUse := 0, net := net,
    pathSet := ps }
/-- An entry with an unacknowledged packet: an answer of its atomic record among them (R352, R378). -/
def Peer.busy (p : Peer) : Bool := !p.flight.isEmpty || !p.queue.isEmpty || !p.retiring.isEmpty
/-- The active-peer entry of a rank, allocated at the first packet; with 1,024 entries the least recently used idle one goes (R352). -/
def State.peerOf (s : State) (rank net ps : Nat) : Option (State × Peer) :=
  match amGet s.fabric.peers rank with
  | some p => some (s, p)
  | none =>
    let add := fun (f : Fabric) => { f with peers := amSet f.peers rank (Peer.fresh net ps) }
    if s.fabric.peers.length < 1024 then some (s.modFab add, Peer.fresh net ps)
    else
      let idle := s.fabric.peers.filter fun x =>
        !x.2.busy && stGet 0 s.fabric.reserve.held x.1 = 0 && stGet 0 s.fabric.reserve.granted x.1 = 0
      match idle.foldl (fun (b : Option (Nat × Peer)) x => match b with
          | none => some x
          | some y => if x.2.lastUse < y.2.lastUse then some x else b) none with
      | none => none
      | some v => some (s.modFab fun f => add { f with peers := amDel f.peers v.1 }, Peer.fresh net ps)
def State.setPeer (s : State) (rank : Nat) (p : Peer) : State :=
  s.modFab fun f => { f with peers := amSet f.peers rank p }
/-- Bytes unacknowledged in a path set (R374). -/
def State.inFlight (s : State) (ps : Nat) : Nat :=
  s.fabric.peers.foldl (fun n x => if x.2.pathSet = ps then
    x.2.flight.foldl (fun k y => k + bodyBytes y.2.pkt.body) n else n) 0
/-- Whether a packet is an atomic, of which 64 may be unacknowledged (R378). -/
def isAtomicPkt (p : Packet) : Bool :=
  match p.body with
  | .access _ ops => ops.any fun o => match o.2 with
    | .atom _ _ _ _ _ => true
    | .cas _ _ _ _ _ => true
    | .sync _ _ _ _ => true
    | .count _ => true
    | _ => false
  | _ => false
/-- The upper half of the IPv6 addresses of a path set (R351). -/
def State.netUpper (s : State) (ps : Nat) : DWord := BitVec.ofNat 64 (((s.pathSet ps).map fun e => field e 0 8).getD 0)
/-- The device's own interface identifier: its own rank resolved (R372). -/
def State.ownIdentifier (s : State) : DWord :=
  ((s.lookupRank 0 s.dev.rank).map fun r => BitVec.ofNat 64 r.2.1).getD Config.ownIdentifier
/-- The addresses of a packet to the interface `net` over path `path` of a path set (R372). -/
def State.wireAddr (s : State) (net ps path : Nat) : WireAddr :=
  { target := s.netUpper ps ++ BitVec.ofNat 64 net, source := s.netUpper ps ++ s.ownIdentifier,
    port := BitVec.ofNat 16 (0xC000 + ps % 256 * 16 + path % 16) }
/-- Give a packet to the remote fabric, addressed by the rank tables. -/
def State.emitTo (s : State) (p : Packet) : State :=
  let r := ((amGet s.fabric.peers p.dst).map fun q => (q.net, q.pathSet)).or ((s.lookupRank 0 p.dst).map fun r => r.2)
  s.emit { p with wire := r.map fun x => s.wireAddr x.1 x.2 p.path }
/-- Send a peer's queued packets while the window, the 1,024 PSNs, the 64 atomics and the ports allow (R370, R374, R375, R378). -/
def State.pump : Nat → State → Nat → State
  | 0, s, _ => s
  | n + 1, s, rank =>
    match amGet s.fabric.peers rank with
    | none => s
    | some p =>
      match p.queue with
      | [] => s
      | k :: rest =>
        let ps := s.pathState p.pathSet
        let atoms := (p.flight.filter fun x => isAtomicPkt x.2.pkt).length
        if 1024 ≤ p.flight.length || (p.flight.isEmpty && decide (1024 < s.fabric.peers.length)) || s.dev.fabricQuiet then s
        else if ps.window ≤ s.inFlight p.pathSet || (isAtomicPkt k && decide (64 ≤ atoms)) then s
        else
          match ps.take (s.openPaths p.pathSet) (((s.pathSet p.pathSet).map setPaths).getD 1) with
          | none => s
          | some t =>
            let k1 : Packet := { k with psn := p.nextPsn, path := t.2 }
            let fl : Flight := { pkt := k1, tries := 1, sent := s.now, fast := false }
            let p1 : Peer := { p with queue := rest, nextPsn := p.nextPsn + 1, lastUse := s.now,
                                      flight := amSet p.flight p.nextPsn.toNat fl }
            (((s.setPath p.pathSet t.1).setPeer rank p1).emitTo k1).pump n rank
/-- Hand a packet to the remote transport; with the table full it waits at the die (R352). -/
def State.remoteQueue (s : State) (rank net ps : Nat) (p : Packet) : State :=
  match s.peerOf rank net ps with
  | none =>
    s.modFab fun f => { f with peers := amSet f.peers rank { Peer.fresh net ps with queue := [p] } }
  | some (s1, q) => (s1.setPeer rank { q with queue := q.queue ++ [p] }).pump 64 rank

/-- A packet to a rank. -/
def mkPacket (src dst device ticket : Nat) (tr : Traffic) (body : PktBody) : Packet :=
  { src := src, dst := dst, device := device, tenant := tr.tenant, ticket := ticket, cls := tr.cls, hops := 0, psn := 0, path := 0, body := body,
    shares := tr.shares }
/-- Requests that are answered under their ticket. -/
def isRequest : PktBody → Bool
  | .access _ _ => true
  | .register _ => true
  | .piece _ _ => true
  | .contribution _ _ _ => true
  | _ => false
/-- Key of a response's held copy. -/
def copyKey (dst ticket : Nat) : Nat := 2 ^ 60 + dst * 2 ^ 36 + ticket % 2 ^ 36
/-- Hold a copy of a pod packet until it is answered (R358). -/
def State.keepCopy (s : State) (die : Nat) (p : Packet) : State :=
  if p.ticket = 0 then s
  else s.modFab fun f => { f with copies := amSet f.copies (if isRequest p.body then p.ticket else copyKey p.dst p.ticket) (die, p) }
/-- Send a body to a rank whose resolution is given (R347, R354); a pod packet keeps a copy (R358). -/
def State.sendTo (s : State) (die rank : Nat) (res : Nat × Nat × Nat) (ticket : Nat) (tr : Traffic) (body : PktBody) : State :=
  let p := mkPacket s.dev.rank rank (if res.1 = 0 then res.2.1 else 0) ticket (if res.1 = 0 then tr else { tr with shares := [] }) body
  if res.1 = 0 then (s.keepCopy die p).podQueue die res.2.1 p
  else s.remoteQueue rank res.2.1 res.2.2 p
/-- Answer a packet to its source, in its class; a source the rank table does not map gets no answer. -/
def State.replyTo (s : State) (die rank : Nat) (ticket : Nat) (body : PktBody) (cls : Nat := 0) : State :=
  match s.resolveRank die rank with
  | some r => s.sendTo die rank r ticket { cls := cls, tenant := 8 } body
  | none => s.noteRank rank
/-- Ask another rank's home for accesses, under a new ticket. -/
def State.request (s : State) (core rank : Nat) (t : Ticket) (region : BitVec 4) (ops : List (BitVec 39 × HomeOp)) : State × Nat :=
  let r := s.newTicket t
  match s.resolveRank (dieOf core) rank with
  | some res => (r.1.sendTo (dieOf core) rank res r.2 (s.traffic t.owner) (.access region ops), r.2)
  | none => r

/-! ### Reservations (R115, R364) -/

/-- Who a reservation is held for or by: another rank, or a core of this device. -/
def ownSource (core : Nat) : Nat := 2 ^ 20 + core
def State.reserveKey (s : State) (core target : Nat) : Nat := if target = s.dev.rank then ownSource core else target
def State.modReserve (s : State) (f : Reserve → Reserve) : State := s.modFab fun x => { x with reserve := f x.reserve }
/-- Ask for a block of 16, when none is asked and fewer than 4 blocks are held. -/
def State.askBlock (s : State) (core target : Nat) : State :=
  let k := s.reserveKey core target
  let r := s.fabric.reserve
  if nsHas r.asked k || decide (64 ≤ stGet 0 r.total k) then s
  else
    let s1 := s.modReserve fun x => { x with asked := nsAdd x.asked k }
    if target = s.dev.rank then s1.wakeUp (.reservationRequest k)
    else
      match s1.resolveRank (dieOf core) target with
      | some x => s1.sendTo (dieOf core) target x 0 { cls := 7, tenant := 8 } .reserveRequest
      | none => s1
/-- Consume one reservation for a message, if one is held; ask ahead when 8 or fewer remain. -/
def State.reserve (s : State) (core target : Nat) : State × Bool :=
  let k := s.reserveKey core target
  let h := stGet 0 s.fabric.reserve.held k
  if h = 0 then (s.askBlock core target, false)
  else
    let s1 := s.modReserve fun x => { x with held := stSet 0 x.held k (h - 1), lastSend := amSet x.lastSend k s.now }
    (if h - 1 ≤ 8 then s1.askBlock core target else s1, true)

end Sys2Proof.Machine
end

