-- ==== Sys2Proof/Machine/Retire.lean ====
section
/-! DEFINITION. How work ends: tokens and class counters (R156, R158), copy entries (R231 to R233), quantum entries (R277), groups
(R107, R130, R322) and cancelled launches (R324). -/
namespace Sys2Proof.Machine

/-! ### Tokens and class counters (R156, R158) -/

def Group.token (g : Group) (k : Nat) : Nat := stGet 0 g.async.tokens k
def Group.setToken (g : Group) (k n : Nat) : Group := g.modAsync fun a => { a with tokens := stSet 0 a.tokens k n }
def Group.tokenUp (g : Group) (k : Nat) : Group := g.setToken k (g.token k + 1)
def Group.tokenDown (g : Group) (k : Nat) : Group := g.setToken k (g.token k - 1)
def Group.copyUp (g : Group) : Group := g.modAsync fun a => { a with copies := a.copies + 1 }
def Group.copyDown (g : Group) : Group := g.modAsync fun a => { a with copies := a.copies - 1 }
def Group.tileUp (g : Group) : Group := g.modAsync fun a => { a with tiles := a.tiles + 1 }
def Group.tileDown (g : Group) : Group := g.modAsync fun a => { a with tiles := a.tiles - 1 }
/-- A token and class operation of the group that still holds its slot completes (R231). -/
def State.copyEnd (s : State) (key : Nat) (serial : Half) (token : Nat) : State :=
  if s.serial key = serial then s.modGroup key fun g => (g.tokenDown token).copyDown else s

/-! ### Reports and fault records (R335) -/

/-- Keep a fault record, count the RCB's fault counter, write the FAULT event (R335 steps 1 to 3). -/
def State.noteFault (s : State) (asid rcb : Nat) (e : EventEntry) : State :=
  let e1 : EventEntry := { e with kind := 3, domain := s.rcbDomain asid rcb }
  let s1 := s.modDev fun d => { d with events := { d.events with records := d.events.records ++ [e1] } }
  let s2 := s1.countOn asid (s.rcbField asid rcb 88 8) 1 false
  s2.event e1
/-- Mark a launch as one that completes after an escalation (R335 step 5). -/
def State.markEscalated (s : State) (l : Nat) : State := s.modLaunch l fun x => { x with escalated := true }
/-- A report to the fault domain of a launch's own RCB. -/
def State.noteLaunchFault (s : State) (l : Nat) (cause : Byte) (addr : Nat) : State :=
  match s.launch l with
  | none => s
  | some x => (s.noteFault x.asid x.rcb (evt 3 0 cause x.packet.toNat 0 addr)).markEscalated l

/-! ### Copy entries (R231 to R233) -/

def entHeader (b : List Byte) : Nat := field b 0 8
def entKind (b : List Byte) : Nat := bitsOf (entHeader b) 0 8
def entRed (b : List Byte) : Nat := bitsOf (entHeader b) 8 4
def entClass (b : List Byte) : Nat := bitsOf (entHeader b) 12 2
def entTriggered (b : List Byte) : Bool := bitsOf (entHeader b) 14 1 == 1
def entToken (b : List Byte) : Option Nat :=
  if bitsOf (entHeader b) 27 1 = 1 then some (bitsOf (entHeader b) 24 3) else none
def entLoc (b : List Byte) : Nat := bitsOf (entHeader b) 32 14
def entSerial (b : List Byte) : Half := BitVec.ofNat 16 (bitsOf (entHeader b) 48 16)
/-- Ring base, entries N, and the word addresses of a queue's descriptor (R225). -/
def State.queueBase (s : State) (q : CopyQueue) : Nat := (s.devNum q.asid q.desc.toNat 8).getD 0
def State.queueSize (s : State) (q : CopyQueue) : Nat :=
  2 ^ (bitsOf ((s.devNum q.asid (q.desc.toNat + 8) 8).getD 0) 0 4)
/-- The RO read index of R225, which stands in descriptor memory: a store of software to it moves it (log entry 93). -/
def State.queueRead (s : State) (q : CopyQueue) : Nat := (s.devNum q.asid (q.desc.toNat + 16) 8).getD 0
def State.queueWrite (s : State) (q : CopyQueue) : Nat := (s.devNum q.asid (q.desc.toNat + 128) 8).getD 0
def State.slotAddr (s : State) (q : CopyQueue) (i : Nat) : Nat := s.queueBase q + 64 * (i % s.queueSize q)

/-- The fault domain of the launch that owns a queue (R309, R336). -/
def State.queueDomain (s : State) (q : CopyQueue) : Nat := ((s.launch q.launch).map fun x => s.rcbDomain x.asid x.rcb).getD 0
/-- Set a sticky bit of a queue (R233); a word that was 0 reports a QUEUE event, held while an earlier one is unacknowledged (R338). -/
def State.setSticky (s : State) (key : Nat) (bit index : Nat) : State :=
  match amGet s.queues key with
  | none => s
  | some q =>
    let a := q.desc.toNat + 32
    let w := (s.devNum q.asid a 8).getD 0
    let w1 := if w = 0 then (index % 2 ^ 32) * 2 ^ 32 + 2 ^ bit else w ||| 2 ^ bit
    let s1 := s.devWrite q.asid a (bytesOf 8 w1)
    if w != 0 then s1
    else if s1.unacked 1 q.desc.toNat then { s1 with queues := amSet s1.queues key { q with held := true } }
    else s1.event (evt 1 (s1.queueDomain q) 0 q.desc.toNat 0 0)

/-- Advance a queue's timeline over the entries that have completed (R231). -/
def advanceDone : Nat → NSet → Nat → Nat
  | 0, _, t => t
  | n + 1, d, t => if nsHas d t then advanceDone n d (t + 1) else t
def State.queueAdvance (s : State) (key index : Nat) : State :=
  match amGet s.queues key with
  | none => s
  | some q =>
    let done := nsAdd q.done index
    match s.wordPA q.asid (q.desc.toNat + 24) .rd with
    | none => { s with queues := amSet s.queues key { q with done := done } }
    | some pa =>
      let t := (s.wordAt pa).toNat
      let t1 := advanceDone done.length done t
      let q1 : CopyQueue := { q with done := amFilter (fun k _ => decide (t1 ≤ k)) done }
      let s1 : State := { s with queues := amSet s.queues key q1 }
      if t1 = t then s1 else if s1.mem.live pa = some .counter then s1.setWord pa (BitVec.ofNat 64 t1) else s1

/-- Update a class 1 or class 2 target (R230, R231, R285, R286): whether the word was not one of that kind, or overflowed. -/
def State.targetUpdate (s : State) (e : CopyEntry) (bytes : Nat) : State × Bool × Bool :=
  let cls := entClass e.bytes
  if cls = 0 || cls = 3 then (s, false, false)
  else
    match s.wordPA e.asid (field e.bytes 32 8) .rd with
    | none => (s, true, false)
    | some pa =>
      if cls = 1 then
        (if s.mem.live pa = some .counter then let r := s.addCounter pa 1; (r.1, false, r.2) else (s, true, false))
      else
        (if s.mem.live pa = some .barrier then let r := s.landBytes pa bytes; (r.1, false, r.2) else (s, true, false))

/-- An entry completes (R231): target, status byte (of its slot, or of the entry a unit 1 node names), token, timeline; the last Bool
reports an overflow to the fault domain. -/
def State.entryEnd (s : State) (id : Nat) (status : Nat) : State × Bool :=
  match amGet s.entries id with
  | none => (s, false)
  | some e =>
    let r := s.targetUpdate e (e.total - e.landed)
    let st := if (r.2.1 || r.2.2) && status != 5 then 4 else status
    let s1 : State := { r.1 with entries := amDel r.1.entries id }
    let code := ((s.launch e.launch).bind fun x => amGet x.nodes e.node).map fun n => field n.record 16 8
    let s2 := match e.queue.bind (amGet s1.queues) with
      | none => (match code with | some a => s1.devWrite e.asid (a + 2) (bytesOf 1 st) | none => s1)
      | some q => s1.devWrite e.asid (s1.slotAddr q e.index + 2) (bytesOf 1 st)
    let s3 := match entToken e.bytes, ofLocid (entLoc e.bytes) with
      | some k, some (c, sl) => if e.queue.isSome then s2.copyEnd (gkey c sl) (entSerial e.bytes) k else s2
      | _, _ => s2
    let s4 := match e.queue with
      | none => s3.wakeUp (.nodeComplete e.launch e.node)
      | some q =>
        let a := s3.queueAdvance q e.index
        let b := if st = 4 then a.setSticky q 2 e.index else if st = 5 then a.setSticky q 1 e.index
          else if st = 3 then a.setSticky q 0 e.index else a
        b.wakeUp (.copyEntryTake q)
    (s4.wakeUp (.launchComplete e.launch), r.2.2)

/-! ### Quantum entries (R277) -/

/-- An atomic at the home on local memory (R171, R172): the core's line is written back and dropped first. -/
def State.homeAtomic (s : State) (core pa : Nat) (t : BitVec 4) (op b : Nat) : State × Nat :=
  let s1 := (s.dropLine core (pa / 128)).l2Touch (pa / 128)
  let r := s1.mem.homeRead pa (bytesIn t)
  let old := leNat r.2
  ({ s1 with mem := r.1.homeWrite pa (bytesOf (bytesIn t) (atomicOp t op old b).bits) }, old)
/-- Forward one entry as a single add. -/
def State.forwardAdd (s : State) (core : Nat) (e : QuantEntry) : State :=
  match e.place with
  | .mem pa => (s.homeAtomic core pa e.ty 0 e.sum.toNat).1
  | .remote rank region off =>
    let t : Ticket := { owner := .quantum core, rank := rank, cls := 0, addr := 0, ty := e.ty, src := none,
                        rm := 0, lanes := [], keep := none }
    (s.request core rank t region [(BitVec.ofNat 39 off, .atom 0 e.ty 0 e.scope e.sum)]).1
  | _ => s
/-- Forward the entries of a core that satisfy `p`, oldest first. -/
def State.quantForward (s : State) (core : Nat) (p : QuantEntry → Bool) : State :=
  let q := (s.core core).quant
  if q.any p then
    (q.filter p).foldl (fun a e => a.forwardAdd core e) (s.modCore core fun c => { c with quant := c.quant.filter fun e => !p e })
  else s
/-- Whether a group, or one of its splits, contributed to an entry. -/
def fromGroup (slot : Nat) (e : QuantEntry) : Bool := e.from_.any fun x => x.1 / 32 == slot
def fromSplit (slot split : Nat) (e : QuantEntry) : Bool := nsHas e.from_ (slot * 32 + split)

/-! ### Groups (R107, R130, R322) -/

/-- Close a group's coverage tile as its exit does (R247). -/
def State.closeTile (s : State) (l tile : Nat) (byExit : Bool) : State :=
  (s.modLaunch l fun x => { x with cover := x.cover.map fun c =>
    { c with tiles := amMod (fun t => { t with done := true }) c.tiles tile,
             final := if byExit then c.final ||| 256 else c.final } }).wakeUp (.tileReconstruct l)
/-- Wake the REGROUPs of a team that wait for a partner, and its barrier. -/
def State.wakeTeam (s : State) (team : Nat) : State :=
  match s.team team with
  | none => s
  | some t =>
    let s1 := t.groups.foldl (fun a x =>
      match a.group (gkey t.core x.2) with
      | none => a
      | some g => g.splits.foldl (fun b y => match y.2.status with
          | .regroup _ p => b.wakeUp (.regroupFuse t.core x.2 (stGet 32 t.groups p))
          | _ => b) a) s
    if t.groups.isEmpty then s1.wakeUp (.teamRetire team) else s1.wakeUp (.barComplete team)
/-- Outstanding tickets of a retired group belong to its team until they are answered (R313). -/
def Ticket.orphan (key team : Nat) (t : Ticket) : Ticket :=
  match t.owner with
  | .access c sl _ => if gkey c sl = key then { t with owner := .team team } else t
  | .split c sl _ => if gkey c sl = key then { t with owner := .none } else t
  | .fetch c sl _ => if gkey c sl = key then { t with owner := .none } else t
  | _ => t
/-- Remove a group: its slot's generation rises when `bump` (R107); the team goes on without it (R322); the arrivals a save held come to it
stale (R119). -/
def State.retireGroup (s : State) (key : Nat) (bump : Bool) : State :=
  match s.group key with
  | none => s
  | some g =>
    let core := key / 32
    let s1 := s.quantForward core (fromGroup (key % 32))
    let s2 : State := { s1 with groups := amDel s1.groups key }
    let s3 := if bump then s2.bumpGen key else s2
    let s4 := s3.modMem fun m => { m with keeps := m.keeps.filter fun k => !(k.core == core && k.slot == key % 32) }
    let s5 := s4.modFab fun f => { f with tickets := amMap (fun _ t => t.orphan key g.team) f.tickets }
    let s6 := s5.modTeam g.team fun t =>
      { t with groups := amDel t.groups g.index, gone := (key % 32, s.serial key) :: t.gone }
    let s7 := match g.ctl.tile with
      | some c => s6.closeTile g.launch c.tile true
      | none => s6
    (g.ctl.arrivals.foldl (fun a p => a.wakeUp (.registerArrival p)) s7).wakeTeam g.team

/-! ### Cancellation (R324) -/

/-- A cancelled launch: waiting nodes dropped, groups retired, armed entries cancelled, reports of overflowing targets made. -/
def State.cancelLaunch (s : State) (l : Nat) : State :=
  match s.launch l with
  | none => s
  | some x =>
    if x.cancelling then s
    else
      let s1 := s.modLaunch l fun y =>
        { y with cancelling := true, waitingGraph := false,
                 nodes := amFilter (fun _ n => !(n.state == .waiting || n.state == .ready)) y.nodes }
      let s2 := (s1.groups.filter fun g => g.2.launch == l).foldl (fun a g => a.retireGroup g.1 true) s1
      let s3 := (s2.entries.filter fun e => e.2.launch == l && e.2.armed).foldl (fun a e =>
        let r := a.entryEnd e.1 2
        if r.2 then r.1.noteLaunchFault l cQueue 0 else r.1) s2
      s3.wakeUp (.launchComplete l)

/-- Whether a launch runs under the subtree of an RCB: its own RCB's path, or that of one of its nodes, holds it (log entry 12). -/
def State.underRcb (s : State) (asid rcb : Nat) (x : Launch) : Bool :=
  x.asid == asid && ((s.rcbPath asid x.rcb).contains rcb || x.nodes.any fun n => (s.rcbPath asid n.2.rcb).contains rcb)
/-- An escalated fault at an RCB (R335): record, counter, event, and CANCELONFAULT. -/
def State.escalateRcb (s : State) (asid rcb l : Nat) (e : EventEntry) : State :=
  let s1 := (s.noteFault asid rcb e).markEscalated l
  if s1.rcbCof asid rcb then
    (s1.head.launches.filter fun x => s1.underRcb asid rcb x.2).foldl (fun a x => a.cancelLaunch x.1) s1
  else s1
/-- A report to the fault domain of the launch that owns a unit's work (R230, R247, R286). -/
def State.escalateLaunch (s : State) (l : Nat) (cause : Byte) (addr : Nat) : State :=
  match s.launch l with
  | none => s
  | some x => s.escalateRcb x.asid x.rcb l (evt 3 0 cause x.packet.toNat 0 addr)
/-- An entry completes, with the report of an overflow (R286). -/
def State.entryDone (s : State) (id status : Nat) : State :=
  match amGet s.entries id with
  | none => s
  | some e =>
    let r := s.entryEnd id status
    let s1 := if r.2 then r.1.escalateLaunch e.launch cQueue (field e.bytes 32 8) else r.1
    match e.overflow with
    | some a => s1.escalateLaunch e.launch cQueue a
    | none => s1

end Sys2Proof.Machine
end

