-- ==== Sys2Proof/Machine/Ops.lean ====
section
/-! DEFINITION. The operations every meaning is written over: taking a trap (R136, R152, R153, R155) and returning from one (R154),
escalation (R335), split merging (R129), and the frames of a scalar and of a lane instruction (R20, R137). -/
namespace Sys2Proof.Machine

/-! ### Traps -/

/-- What an instruction raises: cause, CODE, faulting address, faulting LID. -/
structure Trap where
  cause : Byte
  code : Byte
  addr : DWord
  lid : Nat
  /-- A poisoned line was read: the fault domain receives a poison report (R308). -/
  poison : Bool
deriving DecidableEq, Repr

/-- A trap with no address. -/
def Trap.of (c : Byte) : Trap := { cause := c, code := 0, addr := 0, lid := 0, poison := false }
/-- A trap with an address. -/
def Trap.at_ (c : Byte) (a : DWord) : Trap := { cause := c, code := 0, addr := a, lid := 0, poison := false }

/-- Whether an instruction that a split is in has issued and completes by itself (R153): another rank's answer is owed, or the wait's
condition has been met (R157, R160). -/
def SplitStatus.completing : SplitStatus → Bool
  | .reply _ _ _ => true
  | .waitC _ _ _ _ met => met.all id
  | .waitT _ due => due
  | .yieldT _ _ due => due
  | .bwait w _ => w.due
  | .waittl w _ => w.due
  | _ => false
/-- What a wait becomes when its group traps or is saved (R165, R289, R290, R296): it is executed again. Splits at a JOIN, asleep, at
a BAR that has been counted, or whose instruction completes by itself stay as they are. -/
def SplitStatus.withdraw (x : SplitStatus) : SplitStatus :=
  if x.completing then x
  else
    match x with
    | .joining j m => .joining j m
    | .sleep t => .sleep t
    | .bar true => .bar true
    | _ => .ready
def Group.withdraw (g : Group) : Group :=
  { g with splits := amMap (fun _ sp => { sp with status := sp.status.withdraw, pstall := none }) g.splits }

/-- The group escalates (R155, R218, R335): it stays stopped, and the RCB's fault domain learns of it. Its quantum entries are forwarded
(R277), and a waiting XSHFL is withdrawn (R224). -/
def State.escalateGroup (s : State) (key : Nat) (p : PendingFault) : State :=
  match s.group key with
  | none => s
  | some g =>
    let s1 := (s.quantForward (key / 32) (fromGroup (key % 32))).modGroup key fun x =>
      (x.modAsync fun a => { a with xshfl := none }).modCtl fun c => { c with stopped := true, fault := none }
    match s1.team g.team with
    | none => s1
    | some t =>
      let d1 := p.pc.toNat % 2 ^ 18 * 2 ^ 32 + locid (key / 32) (key % 32) * 2 ^ 16 + p.lp.toNat % 2 ^ 15
      let packet := ((s1.launch g.launch).map (·.packet.toNat)).getD 0
      s1.escalateRcb t.asid t.rcb g.launch (evt 3 0 p.cause packet d1 p.addr.toNat)

/-- The TRAPCAUSE word (R151). -/
def causeWord (t : Trap) (lane : Bool) : Word :=
  BitVec.ofNat 32 (t.cause.toNat + t.code.toNat * 256 + (if lane then 65536 else 0) + 262144
    + (if t.cause = cSoftware || t.cause = cBreak then 524288 else 0))
/-- Whether a handler can be entered: TRAPVEC is not 0 and its slot has landed (R153). -/
def State.handlerReady (s : State) (core : Nat) (vec : DWord) : Bool :=
  vec != 0 && (s.codeSlot core (pcSlot vec)).state == .landed
/-- Enter the handler (R153): the trap CSRs, INH, the held lane entries, and the split at TRAPVEC. -/
def Group.enterTrap (g : Group) (split : Nat) (sp : Split) (t : Trap) (lane : Option LaneTag) : Group :=
  let g1 := g.withdraw
  let pc := (lane.map (·.pc)).getD sp.pc
  let lp := (lane.map (·.lp)).getD sp.lp
  let g2 : Group := { g1 with
    trap := { g1.trap with cause := causeWord t lane.isSome, pc := pc, lp := lp.setWidth 64, addr := t.addr,
                           lane := BitVec.ofNat 64 t.lid, rpc := sp.pc, rlp := sp.lp.setWidth 64 }
    ctl := { g1.ctl with trapSplit := some split, trapFell := sp.fell }
    async := if lane.isSome then { g1.async with held := g1.async.laneq, laneq := [], stall := none, xshfl := none, laneWait := none, laneProbe := 0,
                                                   fetches := g1.async.fetches.filter fun f => f.who != split && f.who != 32 }
             else { g1.async with xshfl := none, fetches := g1.async.fetches.filter fun f => f.who != split } }
  g2.putSplit split ({ sp with status := .ready }.goto g.trap.vec)

/-- The POISON report of a trap on a poisoned line (R308). -/
def State.poisonReport (s : State) (g : Group) (t : Trap) : State :=
  match t.poison, s.team g.team with
  | true, some x => s.event (evt 5 (s.rcbDomain x.asid x.rcb) 0 t.addr.toNat 0 0)
  | _, _ => s
/-- A PROTECT on an address of another rank: its walk may have met a table error (R348, R350). -/
def State.noteStop (s : State) (t : Trap) : State := if t.cause = cProtect then s.noteAddr t.addr else s
/-- TAKING A TRAP. A replayable cause makes the group wait for its Pennant controller (R136); any other enters the handler (R153),
or escalates when there is none or the group is in it (R153, R155). `lane` is the faulting entry's tag. A lane trap waits until its split's
issued scalar instruction completes (R153); the group's quantum entries are forwarded (R277). -/
def State.takeTrap (s : State) (key split : Nat) (t : Trap) (lane : Option LaneTag) : State :=
  match s.group key with
  | none => s
  | some g =>
    match g.split split with
    | none => s
    | some sp =>
      let p : PendingFault := { cause := t.cause, addr := t.addr, lane := lane.isSome, split := split,
                                pc := (lane.map (·.pc)).getD sp.pc, lp := (lane.map (·.lp)).getD sp.lp }
      if lane.isSome && sp.status.completing && !replayable t.cause then s
      else
      let s := (s.poisonReport g t).noteStop t
      if replayable t.cause then
        ((s.quantForward (key / 32) (fromGroup (key % 32))).modGroup key fun x =>
          (x.modAsync fun a => { a with xshfl := none }).modCtl fun c => { c with fault := some p }).wakeUp (.faultReplay (key / 32) (key % 32))
      else if g.ctl.trapSplit.isSome || !s.handlerReady (key / 32) g.trap.vec then s.escalateGroup key p
      else (s.putGroup key (g.enterTrap split sp t lane)).quantForward (key / 32) (fromGroup (key % 32))

/-- RETURNING FROM A TRAP (R154): PC and lp of the trapping split, the held entries, INH. What the split had begun of an LRUN or a SLEEP goes
on where the handler returns to it, and nowhere else. -/
def Group.leaveTrap (g : Group) (split : Nat) : Group :=
  let skip := g.trap.cause.getLsbD 19
  let lane := g.trap.cause.getLsbD 16
  let back := if lane && skip then g.async.held.drop 1 else g.async.held
  let g1 : Group := { g with
    trap := { g.trap with cause := g.trap.cause &&& 0xFFFBFFFF }
    ctl := { g.ctl with trapSplit := none, trapFell := false }
    async := { g.async with laneq := back ++ g.async.laneq, held := [] } }
  g1.modSplit split fun sp =>
    let rlp : Word := g.trap.rlp.setWidth 32
    let sp1 : Split := { sp with pc := g.trap.rpc, lp := rlp,
                                 runs := sp.runs.filter fun r => r.1 == g.trap.rpc && r.2.1 == rlp,
                                 naps := sp.naps.filter fun r => r.1 == g.trap.rpc,
                                 fell := g.ctl.trapFell && g.trap.rpc == g.trap.pc }
    if skip && !lane then sp1.advance else sp1

/-! ### Merging at JOIN (R129) -/

/-- The members waiting at JOIN `id`: key, expected mask, split. -/
def Group.joiners (g : Group) (id : Nat) : List (Nat × LaneMask × Split) :=
  g.splits.filterMap fun x => match x.2.status with
    | .joining j e => if j = id then some (x.1, e, x.2) else none
    | _ => none
/-- Free a merged split: its entries and accesses pass to the survivor, its registers to a frozen copy (R125). -/
def Group.absorb (g : Group) (survivor gone : Nat) (sp : Split) : Group :=
  let f := amFresh g.async.frozen 0
  let queued := g.async.laneq.any fun e => e.tag.split == gone && e.tag.regs.isNone
  let retag : LaneEntry → LaneEntry := fun e =>
    if e.tag.split = gone then
      { e with tag := { e.tag with split := survivor, regs := if e.tag.regs.isNone then some f else e.tag.regs } }
    else e
  { g with
    splits := amDel g.splits gone
    async := { g.async with
      laneq := g.async.laneq.map retag
      frozen := if queued then amSet g.async.frozen f sp.sregs else g.async.frozen
      access := amMap (fun _ a => if a.split = gone then { a with split := survivor, sreg := none } else a) g.async.access
      owed := amFilter (fun k _ => !(k / 32 == gone)) g.async.owed } }
/-- Merge the waiting set of one id when its expected live lanes are all held. -/
def Group.joinOne (g : Group) (id : Nat) : Group :=
  let ms := g.joiners id
  let e := ms.foldl (fun m x => m ||| x.2.1) 0 &&& g.lanes.alive
  let u := ms.foldl (fun m x => m ||| x.2.2.mask) (0 : LaneMask)
  if ms.isEmpty || (e &&& ~~~u) != 0 then g
  else
    match (ms.find? fun x => x.2.2.mask.getLsbD (lowLane u)).or ms.head? with
    | none => g
    | some k =>
      let g1 := (ms.filter fun x => x.1 != k.1).foldl (fun a x => a.absorb k.1 x.1 x.2.2) g
      let g2 := g1.modCsrs fun c => { c with sinstr := c.sinstr + BitVec.ofNat 64 ms.length }
      g2.putSplit k.1 { k.2.2.advance with mask := u, status := .ready }
/-- Test every waiting set, as when a split arrives and when lanes die or exit (R129). -/
def Group.joinAll (g : Group) : Group := (upFrom 0 16).foldl Group.joinOne g

/-! ### The frame of a scalar instruction (R137) -/

/-- What a scalar instruction comes to: its effect, a trap before any effect, or a wait at issue, with what the wait begins. -/
inductive Res where
  | done (s : State)
  | trap (t : Trap)
  | wait (s : State)
deriving DecidableEq, Repr

/-- Count a retired scalar instruction (R151); the split has made progress since its last ARRIVAL_TIMEOUT (R218). -/
def Group.retired (g : Group) (split : Nat) : Group :=
  { g with csrs := { g.csrs with sinstr := g.csrs.sinstr + 1 }
           ctl := { g.ctl with lastTimeout := g.ctl.lastTimeout.filter fun p => p.split != split } }
/-- The executing split's instruction retires. -/
def State.retired (s : State) : State := s.modGroup s.curKey fun g => g.retired s.sched.split
/-- A named split's waiting instruction retires. -/
def State.retireAt (s : State) (key split : Nat) : State := s.modGroup key fun g => g.retired split

/-- A named split's wait ends: its instruction retires and it goes on as `f` says. -/
def State.resume (s : State) (key split : Nat) (f : Split → Split) : State :=
  (s.modSplit key split fun sp => { (f sp) with status := .ready }).retireAt key split
/-- A group that may act at all: not stopped, not waiting for a replay, not saved (R136, R155, R219). -/
def Group.running (g : Group) : Bool := !g.ctl.stopped && g.ctl.fault.isNone && g.ctl.save == .running
/-- An event that ends a split's wait: nothing happens where there is no such group running or no such split. -/
def onSplit (core slot split : Nat) (m : Group → Split → State) (s : State) : Out :=
  match s.group (gkey core slot) with
  | none => .next s
  | some g =>
    if g.running then
      (match g.split split with
       | none => .next s
       | some sp => .next (m g sp))
    else .next s

/-- A trap of the executing split's scalar instruction. -/
def State.trapScalar (s : State) (t : Trap) : State := s.takeTrap s.curKey s.sched.split t none

/-- Run a scalar meaning for the executing split; `ok` is the encoding check (R20). -/
def runScalar (ok : Bool) (f : State → Group → Split → Res) (s : State) : Out :=
  match s.curGroup with
  | none => .fault .noContext
  | some g =>
    match g.split s.sched.split with
    | none => .fault .noContext
    | some sp =>
      if ok then
        match f s g sp with
        | .done s1 => .next s1.retired
        | .trap t => .next (s.trapScalar t)
        | .wait s1 => .next s1
      else .next (s.trapScalar (Trap.of cIllegal))

/-- Run an instruction that only changes its own group and split, and always completes. -/
def runPure (f : Group → Split → Group × Split) (s : State) : Out :=
  runScalar true (fun s g sp => let r := f g sp; .done (s.put r.1 r.2)) s
/-- Write a register and go on. -/
def runAlu (d : SReg) (f : Group → Split → DWord) (s : State) : Out :=
  runPure (fun g sp => (g, (sp.setReg d (f g sp)).advance)) s

/-! ### The frame of a lane instruction (R20, R124) -/

/-- What a lane instruction comes to at issue. -/
inductive LRes where
  | done (s : State)
  | trap (t : Trap)
  | wait (s : State)
deriving DecidableEq, Repr

/-- active_lanes(): the entry's mask, the alive bits and the guard, as they stand at issue (R40, R124). -/
def Group.active (g : Group) (e : LaneEntry) (f : LaneF) : LaneMask :=
  let p := g.pred f.pg.toNat
  e.tag.mask &&& g.lanes.alive &&& (if f.pn = 1 then ~~~p else p)
/-- The head entry leaves the queue. -/
def Group.popLane (g : Group) : Group :=
  let q := g.async.laneq.drop 1
  let split := (g.async.laneq.head?.map (·.tag.split)).getD 32
  { g with async := { g.async with
             laneq := q, stall := none, laneProbe := 0
             frozen := amFilter (fun k _ => q.any fun e => e.tag.regs == some k) g.async.frozen }
           ctl := { g.ctl with lastTimeout := g.ctl.lastTimeout.filter fun p => p.split != split } }
/-- A trap of the executing group's head entry. -/
def State.trapLane (s : State) (e : LaneEntry) (t : Trap) : State := s.takeTrap s.curKey e.tag.split t (some e.tag)

/-- Run a lane meaning for the executing group's head entry. -/
def runLane (ok : Bool) (f : LaneF) (m : State → Group → LaneEntry → LaneMask → LRes) (s : State) : Out :=
  match s.curGroup with
  | none => .fault .noContext
  | some g =>
    match g.async.laneq with
    | [] => .fault .noContext
    | e :: _ =>
      if ok then
        match m s g e (g.active e f) with
        | .done s1 => .next (s1.modGroup s1.curKey Group.popLane)
        | .trap t => .next (s.trapLane e t)
        | .wait s1 => .next s1
      else .next (s.trapLane e (Trap.of cIllegal))

/-- Run a lane instruction that only changes its own group. -/
def runLanePure (ok : Bool) (f : LaneF) (m : Group → LaneEntry → LaneMask → Group) (s : State) : Out :=
  runLane ok f (fun s g e act => .done (s.putGroup s.curKey (m g e act))) s

/-! ### Releases and acquires (R268, R270, R172) -/

/-- Whether every quantum entry a core has forwarded is performed (R277). -/
def State.quantDone (s : State) (core : Nat) : Bool := !(s.fabric.tickets.any fun t => t.2.owner == .quantum core)
/-- Whether the split's accesses that a release at `scope` waits for are all performed (R270, R273, R274). -/
def State.releaseReady (s : State) (key split : Nat) (scope : BitVec 2) : Bool :=
  match s.group key with
  | none => true
  | some g =>
    !(g.outstanding split fun a => !a.nord && (decide (a.reach ≤ 1) || scope = 3))
      && (decide (scope < 2) || !(s.fabric.puts.any fun p => gkey p.2.core p.2.slot == key && p.2.split == split
            && p.2.serial == s.serial key && (p.2.reach == 1 || (p.2.reach == 2 && scope == 3))))
      && s.quantDone (key / 32)
/-- The write-back a release at device scope or wider makes (R171), after forwarding the split's quantum entries (R277). -/
def State.release (s : State) (key split : Nat) (scope : BitVec 2) : State :=
  let s1 := s.quantForward (key / 32) (fromSplit (key % 32) split)
  if scope = 0 then s1 else s1.writeBack (key / 32) fun _ => true
/-- A `.keep` load of a split that is outstanding keeps no copy: `p` tells of its address (R269, R276). -/
def Ticket.unkeep (core slot split : Nat) (p : Ticket → Bool) (t : Ticket) : Ticket :=
  if t.keep == some (core, slot, split) && p t then { t with keep := none } else t
/-- A split's `.keep` copies go, those that outstanding loads bring among them. -/
def State.dropKeeps (s : State) (core slot split : Nat) (p : KeepCopy → Bool) (q : Ticket → Bool) : State :=
  let s1 := s.modMem fun m => { m with keeps := m.keeps.filter fun k => !(k.core == core && k.slot == slot && k.split == split && p k) }
  if s.fabric.tickets.any fun t => t.2.keep == some (core, slot, split) && q t.2 then
    s1.modFab fun f => { f with tickets := amMap (fun _ t => t.unkeep core slot split q) f.tickets }
  else s1
/-- What an acquire drops (R172, R93). -/
def State.acquire (s : State) (key split : Nat) (scope : BitVec 2) : State :=
  let s1 := if scope = 0 then s else s.dropClean (key / 32)
  if scope < 2 then s1 else s1.dropKeeps (key / 32) (key % 32) split (fun _ => true) fun _ => true
/-- The release of an instruction of `split` of the executing group (R270): the state to go on from, or the state it waits in. -/
def State.releaseFor (s : State) (split : Nat) (scope : BitVec 2) : Except State State :=
  let s1 := s.release s.curKey split scope
  if s1.releaseReady s.curKey split scope then .ok s1 else .error s1

end Sys2Proof.Machine
end

