-- ==== Sys2Proof/Machine/Paging.lean ====
section
/-! DEFINITION. How a page fault is served (R304, R305): fault records, pages that firmware maps on demand, requests to the host. -/
namespace Sys2Proof.Machine

/-! ### Pages that firmware maps (R304, R309, R310) -/

/-- Whether an address lies in an on-demand range of an RCB (R309). -/
def State.onDemand (s : State) (asid rcb va : Nat) : Bool :=
  [96, 112].any fun o =>
    let base := s.rcbField asid rcb o 8
    decide (base ≤ va) && decide (va < base + s.rcbField asid rcb (o + 8) 8)
/-- Key of an RCB's count of bytes mapped on demand. -/
def demandKey (asid rcb : Nat) : Nat := asid * 2 ^ 64 + rcb
/-- Whether one more 64 KiB page keeps every HBM budget on the path (R310). -/
def State.demandRoom (s : State) (asid rcb : Nat) : Bool :=
  (s.rcbPath asid rcb).all fun r =>
    let lim := s.rcbField asid r 40 8
    lim = 0 || decide ((amGet s.mem.demand (demandKey asid r)).getD 0 + 65536 ≤ lim)
/-- Charge a page to every RCB on the path. -/
def State.chargeDemand (s : State) (asid rcb : Nat) : State :=
  (s.rcbPath asid rcb).foldl (fun a r => a.modMem fun m =>
    { m with demand := amSet m.demand (demandKey asid r) ((amGet m.demand (demandKey asid r)).getD 0 + 65536) }) s
/-- A zero-filled 64 KiB frame, from the top of physical memory down (log entry 14). -/
def State.takeFrame (s : State) : Option (State × Nat) :=
  let k := s.mem.nextFrame + 1
  if s.paEnd < k * 65536 then none
  else
    let fr := s.paEnd - k * 65536
    let out : Nat → Nat → Bool := fun unit x => x * unit < fr || decide (fr + 65536 ≤ x * unit)
    some (s.modMem fun m =>
      { m with nextFrame := k, hbm := m.hbm.filter (fun c => out 1 c.1), sync := amFilter (fun k _ => out 8 k) m.sync,
               scopes := amFilter (fun l _ => out 128 l) m.scopes, poison := amFilter (fun l _ => out 128 l) m.poison }, fr)
/-- Write a 64 KiB leaf with RD, W and A into the tables, adding the tables that are missing. -/
def installFrom (va leaf : Nat) : List (Nat × Nat × Nat × Nat) → State → Nat → Option State
  | [], _, _ => none
  | (shift, nbits, _, _) :: rest, s, table =>
    let at_ := table + (va / 2 ^ shift % 2 ^ nbits) * (if rest.isEmpty then 16 else 8)
    let w := s.mem.num at_ 8
    if rest.isEmpty then some (s.modMem fun m => m.homeWrite at_ (bytesOf 8 (leaf + 0x1F) ++ bytesOf 8 0))
    else if bitsOf w 0 1 = 1 then installFrom va leaf rest s (bitsOf w 9 43 * 512)
    else
      match s.takeFrame with
      | none => none
      | some (s1, t) => installFrom va leaf rest (s1.modMem fun m => m.homeWrite at_ (bytesOf 8 (t + 1))) t
/-- Map one on-demand page; none when the budget or the memory is exhausted. -/
def State.mapDemand (s : State) (asid rcb va : Nat) : Option State :=
  match amGet s.mem.roots asid, s.takeFrame with
  | some root, some (s1, fr) =>
    if s.demandRoom asid rcb then (installFrom va fr walkLevels s1 root).map fun s2 =>
      (s2.chargeDemand asid rcb).modMem fun m => { m with owners := amSet m.owners (fr / 65536) (asid, rcb) }
    else none
  | _, _ => none

/-! ### Fault records (R304) -/

def FaultRec.isOf (die asid page : Nat) (r : FaultRec) : Bool := r.die == die && r.asid == asid && r.page == page
def State.faultRec (s : State) (die asid page : Nat) : Option FaultRec := s.mem.faults.find? (FaultRec.isOf die asid page)
def FaultRec.join (die asid page : Nat) (w : Waiter) (err : Bool) (r : FaultRec) : FaultRec :=
  if r.isOf die asid page then
    { r with waiters := if r.waiters.contains w then r.waiters else r.waiters ++ [w], tableError := r.tableError || err }
  else r
def FaultRec.leave (die asid page : Nat) (w : Waiter) (r : FaultRec) : FaultRec :=
  if r.isOf die asid page then { r with waiters := r.waiters.filter fun x => x != w } else r
def FaultRec.report (die asid page : Nat) (r : FaultRec) : FaultRec :=
  if r.isOf die asid page then { r with reported := true } else r
/-- Join the record of a page, or open one, marked when the walk met a malformed entry; a die's table holds 1,024, and a party that finds
no room waits in the overflow list. -/
def State.joinFault (s : State) (die asid page : Nat) (w : Waiter) (err : Bool) : State :=
  match s.faultRec die asid page with
  | some _ => s.modMem fun m => { m with faults := m.faults.map (FaultRec.join die asid page w err) }
  | none =>
    let r : FaultRec := { die := die, asid := asid, page := page, waiters := [w], reported := false, denied := false, tableError := err }
    if (s.mem.faults.filter fun r => r.die == die).length < 1024 then s.modMem fun m => { m with faults := m.faults ++ [r] }
    else if s.mem.overflow.any fun x => x.isOf die asid page && x.waiters == [w] then s
    else s.modMem fun m => { m with overflow := m.overflow ++ [r] }
/-- The parties of the overflow list are recorded, in order, as records free. -/
def State.admitFaults (s : State) : State :=
  s.mem.overflow.foldl (fun a r => r.waiters.foldl (fun b w => b.joinFault r.die r.asid r.page w r.tableError) a)
    (s.modMem fun m => { m with overflow := [] })
/-- The records of a page go, its parties in the overflow list with them. -/
def State.dropFaults (s : State) (of : FaultRec → Bool) : State :=
  (s.modMem fun m => { m with faults := m.faults.filter fun r => !of r, overflow := m.overflow.filter fun r => !of r }).admitFaults
/-- A waiter leaves a record; an empty record goes. -/
def State.leaveFault (s : State) (die asid page : Nat) (w : Waiter) : State :=
  (s.modMem fun m => { m with faults := (m.faults.map (FaultRec.leave die asid page w)).filter fun r => !r.waiters.isEmpty }).admitFaults
def State.markReported (s : State) (die asid page : Nat) : State :=
  s.modMem fun m => { m with faults := m.faults.map (FaultRec.report die asid page) }

/-! ### Waiters -/

/-- Wake a party that waits on a fault record. -/
def State.wakeWaiter (s : State) : Waiter → State
  | .group core slot => s.wakeUp (.faultReplay core slot)
  | .copy e => s.wakeUp (.copyEntryComplete e)
  | .cover l => s.wakeUp (.tileReconstruct l)
  | .code core slot => s.wakeUp (.overlayLanded core slot)
  | .engine core rank => if rank then s.wakeUp (.rkencComplete core) else (s.wakeUp (.mloopStep core)).wakeUp (.matrixOpComplete core)
  | .job _ => s
  | .launch _ => s.wakeUp .nodeDispatch
  | .packet _ => s
  | .coll _ => s
/-- Whether a group's pending fault is the page's. -/
def State.faultsOn (s : State) (core slot asid page : Nat) : Bool :=
  match s.group (gkey core slot) with
  | none => false
  | some g =>
    match g.ctl.fault with
    | none => false
    | some p =>
      let own := ((s.launch g.launch).map (·.asid)).getD 0
      p.cause == cPage && (match s.localVA own p.addr.toNat with
        | some v => v.1 == asid && v.2 / 65536 == page
        | none => false)
/-- A waiter is released: a group whose fault this was replays its instruction, another party tries again. -/
def State.releaseWaiter (s : State) (asid page : Nat) (w : Waiter) : State :=
  match w with
  | .group core slot =>
    if s.faultsOn core slot asid page then s.modGroup (gkey core slot) fun g => g.modCtl fun c => { c with fault := none }
    else s.wakeWaiter w
  | _ => s.wakeWaiter w
/-- A resolved record replays all of its waiters, in record order; `self` goes on by itself. -/
def State.resolveFault (s : State) (die asid page : Nat) (self : Waiter) : State :=
  let of := FaultRec.isOf die asid page
  let ws := (s.mem.faults.filter of ++ s.mem.overflow.filter of).flatMap (·.waiters)
  (ws.filter fun w => w != self).foldl (fun a w => a.releaseWaiter asid page w) (s.dropFaults of)

/-! ### Serving (R218, R304, R305) -/

/-- Take one page out of a revocation record. -/
def Revoked.without (page : Nat) (r : Revoked) : List Revoked :=
  let lo := page * 65536
  let hi := lo + 65536
  (if r.va < lo then [{ r with len := lo - r.va }] else [])
    ++ (if hi < r.va + r.len then [{ r with va := hi, len := r.va + r.len - hi }] else [])
/-- The next mapping of a page clears the records of every launch that wait for it. -/
def Revoked.mappedAgain (asid va : Nat) (r : Revoked) : List Revoked :=
  if r.remap && r.holds r.launch asid va then r.without (va / 65536) else [r]
/-- A page has been mapped: its words' tags are 0 (R283), and the records that waited for the mapping are cleared (R305). -/
def State.newMapping (s : State) (asid va : Nat) : State :=
  let s1 := s.modMem fun m => { m with revoked := m.revoked.flatMap (Revoked.mappedAgain asid va) }
  match s.walk asid va with
  | .leaf l _ =>
    let fr := l.frame + va % 2 ^ l.bits / 65536 * 65536
    s1.modMem fun m => { m with sync := amFilter (fun k _ => decide (k * 8 < fr) || decide (fr + 65536 ≤ k * 8)) m.sync }
  | .none _ => s1
/-- A page that a revocation stopped (R305): mapped again under REMAP, the record is cleared and the access replays; under UNMAP the
waiter escalates; else it waits. -/
def State.serveRevoked (s : State) (asid va : Nat) (r : Revoked) : State × Option Bool :=
  if !r.remap then (s, some false)
  else
    match s.walk asid va with
    | .leaf _ _ => (s.newMapping asid va, some true)
    | .none _ => (s, none)
/-- A page that has no mapping (R304): joined to its record, mapped on demand, asked of the host, or given up. -/
def State.servePage (s : State) (die asid va rcb : Nat) (w : Waiter) : State × Option Bool :=
  let page := va / 65536
  match s.walk asid va with
  | .leaf _ _ => (s.resolveFault die asid page w, some true)
  | .none tableError =>
    let s1 := s.joinFault die asid page w tableError
    match s1.faultRec die asid page with
    | none => (s1, none)
    | some r =>
      if r.denied || r.tableError then (s1.leaveFault die asid page w, some false)
      else if s1.onDemand asid rcb va then
        (match s1.mapDemand asid rcb va with
         | some s2 => (s2.resolveFault die asid page w, some true)
         | none => (s1.leaveFault die asid page w, some false))
      else if r.reported then (s1, none)
      else ((s1.markReported die asid page).event (evt 4 (s1.rcbDomain asid rcb) 0 (page * 65536) asid 0), none)
/-- Serve a virtual address for a party: true, it may go on; false, it escalates; none, it waits. -/
def State.serve (s : State) (die asid va launch rcb : Nat) (w : Waiter) : State × Option Bool :=
  if (s.shooting asid va).isSome then (s, none)
  else
    match s.mem.revoked.find? (Revoked.holds launch asid va) with
    | some r => s.serveRevoked asid va r
    | none => s.servePage die asid va rcb w
/-- Serve the pages that `n` bytes at an address of a party touch, from the first that is missing. -/
def State.serveRange (s : State) (die addr n launch asid rcb : Nat) (w : Waiter) : State × Option Bool :=
  match s.localVA asid addr with
  | none => (s, some true)
  | some (as_, va) =>
    let who := devWho as_ launch
    match (pageParts va n).find? fun p => match s.leafOf who as_ p.1 with | .error _ => true | .ok _ => false with
    | none => (s, some true)
    | some p => s.serve die as_ p.1 launch rcb w

end Sys2Proof.Machine
end

