-- ==== Sys2Proof/Machine/Operands.lean ====
section
/-! DEFINITION. Operand forms: what a lane instruction's operand codes read and write (R15, R42, R56, R57), which slots and scalar
registers an instruction touches (R38, R88, R105, R125, R138), and the lane-wise shapes the lane meanings are written in. -/
namespace Sys2Proof.Machine

/-! ### Lane sources (R15, R42, R56) -/

/-- A scalar register as a lane entry reads it: its split's copy at issue, or the frozen copy of a merged split (R125). -/
def Group.scalarOf (g : Group) (e : LaneEntry) (r : SReg) : DWord :=
  if r = 0 then 0
  else
    match e.tag.regs with
    | some k => stGet 0 ((amGet g.async.frozen k).getD []) r.toNat
    | none => ((g.split e.tag.split).map fun sp => sp.reg r).getD 0
/-- A 32-bit register of the entry's window. -/
def Group.vreg (g : Group) (e : LaneEntry) (n lane : Nat) : Word := g.slotVal (e.tag.wb + n) lane
/-- An even-odd pair, the even register low (R42). -/
def Group.vpair (g : Group) (e : LaneEntry) (n lane : Nat) : DWord :=
  (g.vreg e (n + 1) lane).setWidth 64 <<< 32 ||| (g.vreg e n lane).setWidth 64
/-- imm32 as a type reads it: sign-extended for i64, zero-extended for n64, low bits otherwise (R56). -/
def immOf (t : BitVec 4) (w2 : Word) : Nat := if t = 6 then (w2.signExtend 64).toNat else w2.toNat
/-- A source operand's bits at the width of a type (R15, R42, R56). -/
def Group.src (g : Group) (e : LaneEntry) (w2 : Word) (c : BitVec 7) (t : BitVec 4) (lane : Nat) : Nat :=
  let w := 2 ^ widthOf t
  if c ≤ 63 then (if wideType t then (g.vpair e c.toNat lane).toNat else (g.vreg e c.toNat lane).toNat % w)
  else if c ≤ 95 then (g.scalarOf e (c.setWidth 5)).toNat % w
  else if c = 97 then lane % w
  else if c = 98 then (stGet 0 g.lanes.vids lane).toNat % w
  else if c = 99 then g.index % w
  else if c = 100 then g.teamIndex % w
  else if c = 127 then immOf t w2 % w
  else 0

/-! ### Lane results (R42, R57) -/

/-- How a slot holds a value of a type: i8 and i16 fill with the sign, the others with zeros (R42). -/
def heldAs (t : BitVec 4) (bits : Nat) : Word :=
  let n := bits % 2 ^ widthOf t
  if (t = 0 || t = 2) && decide (2 ^ (widthOf t - 1) ≤ n) then BitVec.ofNat 32 (2 ^ 32 + n - 2 ^ widthOf t) else BitVec.ofNat 32 n
/-- Write a value of a type to a window register of a lane; code 96 discards it (R57). -/
def Group.setLane (g : Group) (e : LaneEntry) (vd : BitVec 7) (t : BitVec 4) (lane bits : Nat) : Group :=
  if 63 < vd then g
  else if wideType t then
    (g.setSlot (e.tag.wb + vd.toNat) lane (BitVec.ofNat 32 bits)).setSlot (e.tag.wb + vd.toNat + 1) lane
      (BitVec.ofNat 32 (bits / 2 ^ 32))
  else g.setSlot (e.tag.wb + vd.toNat) lane (heldAs t bits)
/-- Write each active lane's result and OR its flags (R57); `r` reads the group as it stood before. -/
def Group.laneWrite (g : Group) (e : LaneEntry) (vd : BitVec 7) (t : BitVec 4) (act : LaneMask) (r : Nat → Num) : Group :=
  (maskLanes act).foldl (fun a i => (a.setLane e vd t i (r i).bits).raise (r i).ff (r i).fi) g
/-- Write a predicate in the active lanes. -/
def Group.predWrite (g : Group) (p : Nat) (act : LaneMask) (r : Nat → Bool) : Group :=
  g.setPred p ((g.pred p &&& ~~~act) ||| (maskOf r &&& act))
/-- Write a scalar register of the entry's split, or of the frozen copy it reads (R105). -/
def Group.setScalarOf (g : Group) (e : LaneEntry) (r : SReg) (v : DWord) : Group :=
  match e.tag.regs with
  | some k => g.modAsync fun a => { a with frozen := amMod (fun m => if r = 0 then m else stSet 0 m r.toNat v) a.frozen k }
  | none => g.modSplit e.tag.split fun sp => sp.setReg r v

/-! ### Lane-wise shapes -/

/-- One source of type `ts`, a result of type `td`. -/
def lane1 (ok : Bool) (f : LaneF) (ts td : BitVec 4) (op : Nat → Num) (s : State) : Out :=
  runLanePure ok f (fun g e act => g.laneWrite e f.vd td act fun i => op (g.src e f.w2 f.va ts i)) s
/-- Two sources. -/
def lane2 (ok : Bool) (f : LaneF) (ta tb td : BitVec 4) (op : Nat → Nat → Num) (s : State) : Out :=
  runLanePure ok f (fun g e act => g.laneWrite e f.vd td act fun i =>
    op (g.src e f.w2 f.va ta i) (g.src e f.w2 f.vb tb i)) s
/-- Three sources. -/
def lane3 (ok : Bool) (f : LaneF) (ta tb tc td : BitVec 4) (op : Nat → Nat → Nat → Num) (s : State) : Out :=
  runLanePure ok f (fun g e act => g.laneWrite e f.vd td act fun i =>
    op (g.src e f.w2 f.va ta i) (g.src e f.w2 f.vb tb i) (g.src e f.w2 f.vc tc i)) s
/-- A compare: the condition combined with the predicate's old value (R58). -/
def laneCmp (ok : Bool) (f : LaneF) (op : Nat → Nat → Bool × BitVec 5) (s : State) : Out :=
  runLanePure ok f (fun g e act =>
    let r := fun i => op (g.src e f.w2 f.va f.td i) (g.src e f.w2 f.vb f.td i)
    let old := g.pred f.vd.toNat
    let how := (f.fn >>> 3).toNat
    let g1 := g.predWrite f.vd.toNat act fun i =>
      if how = 1 then (r i).1 && old.getLsbD i else if how = 2 then (r i).1 || old.getLsbD i else (r i).1
    (maskLanes act).foldl (fun a i => a.raise (r i).2 0) g1) s
/-- Predicate logic (R80). -/
def lanePred (ok : Bool) (f : LaneF) (op : LaneMask → LaneMask → LaneMask) (s : State) : Out :=
  runLanePure ok f (fun g _ act =>
    let a := if f.fn.getLsbD 0 then ~~~(g.pred f.va.toNat) else g.pred f.va.toNat
    let b := if f.fn.getLsbD 1 then ~~~(g.pred f.vb.toNat) else g.pred f.vb.toNat
    g.setPred f.vd.toNat ((g.pred f.vd.toNat &&& ~~~act) ||| (op a b &&& act))) s

/-! ### What an instruction touches -/

/-- The window registers an operand of a type names. -/
def regsOf (c : BitVec 7) (wide : Bool) : List Nat :=
  if 63 < c then [] else if wide then [c.toNat, c.toNat + 1] else [c.toNat]
/-- The window registers a lane instruction reads or writes values of (R38, R88); `d` is the dimension count of LDT and STT. -/
def laneRegs (d : Nat) : Instr → List Nat
  | .rarm _ | .rclr _ | .pand _ | .por _ | .pxor _ | .pnot _ | .lkill _ => []
  | .vote f => regsOf f.vd false
  | .icmp f => regsOf f.va (wideType f.td) ++ regsOf f.vb (wideType f.td)
  | .fcmp f => regsOf f.va false ++ regsOf f.vb false
  | .laneShl f | .laneShr f | .laneSar f | .rot f | .bfx f =>
    regsOf f.vd (wideType f.td) ++ regsOf f.va (wideType f.td) ++ regsOf f.vb false
  | .bfi f => regsOf f.vd (wideType f.td) ++ regsOf f.va (wideType f.td) ++ regsOf f.vb (wideType f.td) ++ regsOf f.vc false
  | .idot4 f | .idot2 f => regsOf f.vd (wideType f.td) ++ regsOf f.va false ++ regsOf f.vb false ++ regsOf f.vc (wideType f.td)
  | .fclass f => regsOf f.vd false ++ regsOf f.va false
  | .cvt f => regsOf f.vd (wideType f.td) ++ regsOf f.va (wideType f.ta)
  | .bpenc f => regsOf f.vd (f.fn == 1) ++ regsOf f.va false ++ (if f.fn == 1 then regsOf f.vb false else [])
  | .iabs f | .ineg f | .laneNot f | .clz f | .popc f | .brev f | .mov f =>
    regsOf f.vd (wideType f.td) ++ regsOf f.va (wideType f.td)
  | .fabs f | .fneg f | .frcp f | .frsq f | .fsqrt f | .fexp2 f | .flog2 f | .fsinpi f | .fcospi f | .frint f
  | .cvtx f | .bpdec f => regsOf f.vd false ++ regsOf f.va false
  | .redl f | .scan f => regsOf f.vd (wideType f.td) ++ regsOf f.va (wideType f.td)
  | .shfl f => regsOf f.vd (wideType f.td) ++ regsOf f.va (wideType f.td) ++ regsOf f.vb false
  | .xshfl f => regsOf f.vd (wideType f.td) ++ regsOf f.va (wideType f.td)
      ++ (if (f.fn &&& 3) == 0 then [] else regsOf f.vc false)
  | .imad f => regsOf f.vd (wideType f.td) ++ regsOf f.va (wideType f.td) ++ regsOf f.vb (wideType f.td)
      ++ regsOf f.vc (wideType f.td)
  | .fma f | .hfma2 f => regsOf f.vd false ++ regsOf f.va false ++ regsOf f.vb false ++ regsOf f.vc false
  | .ld f | .lda f => regsOf f.vd (wideType f.td) ++ regsOf f.va true
  | .st f => regsOf f.va true ++ regsOf f.vb (wideType f.td || f.fn == 1)
  | .str f => regsOf f.va true ++ regsOf f.vb (wideType f.td)
  | .ldt f => regsOf f.vd (wideType f.td) ++ (upFrom f.vb.toNat d)
  | .stt f => (upFrom f.vb.toNat d) ++ regsOf f.vc (wideType f.td)
  | .atom f => regsOf f.vd (wideType f.td) ++ regsOf f.va true ++ regsOf f.vb (wideType f.td)
  | .cas f => regsOf f.vd (wideType f.td) ++ regsOf f.va true ++ regsOf f.vb (wideType f.td) ++ regsOf f.vc (wideType f.td)
  | .pref f => regsOf f.va true
  | .rput f => regsOf f.vb false ++ regsOf f.vc (wideType f.td)
  | .iadd f | .isub f | .imul f | .imulh f | .idiv f | .irem f | .imin f | .imax f | .laneAnd f | .laneOr f | .laneXor f
  | .andn f | .laneSel f => regsOf f.vd (wideType f.td) ++ regsOf f.va (wideType f.td) ++ regsOf f.vb (wideType f.td)
  | .fadd f | .fsub f | .fmul f | .fmin f | .fmax f | .fscale f | .fdiv f | .hadd2 f | .hmul2 f | .cvtp f =>
    regsOf f.vd false ++ regsOf f.va false ++ regsOf f.vb false
  | _ => []

/-- The fields of a lane instruction. -/
def laneField (i : Instr) : Option LaneF := (laneParts i).map (·.2)
/-- The scalar registers a lane instruction reads at issue (R15, R125). -/
def laneScalarReads (i : Instr) : List SReg :=
  match laneField i with
  | none => []
  | some f =>
    let pick : BitVec 7 → List SReg := fun c => if scalarCode c then [c.setWidth 5] else []
    match i with
    | .rput _ => [f.va.setWidth 5, f.va.setWidth 5 + 1] ++ pick f.vb ++ pick f.vc
    | _ => pick f.va ++ pick f.vb ++ pick f.vc
/-- The scalar register a VOTE or REDL writes (R105). -/
def laneScalarWrites (i : Instr) : List SReg :=
  match i with
  | .vote f => if scalarCode f.vd then [f.vd.setWidth 5] else []
  | .redl f => if scalarCode f.vd then [f.vd.setWidth 5] else []
  | _ => []

/-- The scalar registers a scalar instruction reads (R137). -/
def scalarReads : Instr → List SReg
  | .sleep a => [a] | .csrw a _ => [a]
  | .add _ a b | .sub _ a b | .mul _ a b | .mulh _ a b | .mulhn _ a b | .div _ a b | .divn _ a b | .rem _ a b | .remn _ a b
  | .and _ a b | .or _ a b | .xor _ a b | .shl _ a b | .shr _ a b | .sar _ a b | .slt _ a b | .sltn _ a b | .seq _ a b
  | .min _ a b | .max _ a b | .minn _ a b | .maxn _ a b | .sel _ a b _ => [a, b]
  | .addi _ a _ | .andi _ a _ | .ori _ a _ | .xori _ a _ | .shli _ a _ | .shri _ a _ | .sari _ a _ | .slti _ a _
  | .shlor _ a _ | .lds _ a _ | .ldw _ a _ | .jalr _ a _ | .jmpf _ a _ => [a]
  | .sts d a _ | .stw d a _ => [d, a]
  | .satom _ a b _ _ _ _ => [a, b]
  | .scas d a b _ _ _ => [d, a, b]
  | .beq a b _ | .bne a b _ | .blt a b _ | .bge a b _ | .bltn a b _ | .bgen a b _ => [a, b]
  | .ret _ => [31]
  | .lset a _ => [a] | .join a _ => [a] | .regroup _ a => [a]
  | .qpush a _ _ _ => [a]
  | .syncinit a b _ _ => [a, b] | .syncfree a _ => [a] | .arrive _ a b _ => [a, b] | .bwait a b _ => [a, b]
  | .waittl a b _ => [a, b]
  | .spawn _ a => [a] | .cfetch a _ _ => [a] | .pin a b => [a, b] | .unpin a b => [a, b] | .wspill a b => [a, b]
  | .wfill a b => [a, b]
  | .copy d a b _ _ _ _ => [d, a, b] | .tcopy d a b _ _ _ _ => [d, a, b] | .gcopy d a b _ _ _ => [d, a, b]
  | .coll _ a _ _ _ => [a] | .tcfg a => [a] | .tld _ a b _ _ => [a, b] | .tst _ a b _ _ => [a, b]
  | .mloop _ a b k => [a, b, k]
  | .rktbl a _ => [a] | .rkenc _ a => [a] | .rkmm _ a _ => [a] | .rkval a b _ _ => [a, b] | .ptdone a => [a] | .rcap _ a => [a]
  | .rsbWrite a => [a] | .spbWrite a => [a] | .flagsAccess w _ r => if w then [r] else [] | .cqbWrite _ a => [a]
  | .ovwcntWrite a => [a]
  | _ => []
/-- The scalar registers a scalar instruction writes. -/
def scalarWrites : Instr → List SReg
  | .csrr d _ => [d]
  | .add d _ _ | .sub d _ _ | .mul d _ _ | .mulh d _ _ | .mulhn d _ _ | .div d _ _ | .divn d _ _ | .rem d _ _ | .remn d _ _
  | .and d _ _ | .or d _ _ | .xor d _ _ | .shl d _ _ | .shr d _ _ | .sar d _ _ | .slt d _ _ | .sltn d _ _ | .seq d _ _
  | .min d _ _ | .max d _ _ | .minn d _ _ | .maxn d _ _ | .sel d _ _ _ => [d]
  | .addi d _ _ | .andi d _ _ | .ori d _ _ | .xori d _ _ | .shli d _ _ | .shri d _ _ | .sari d _ _ | .slti d _ _ | .lui d _
  | .shlor d _ _ | .lds d _ _ | .ldw d _ _ | .jalr d _ _ | .jmpf d _ _ => [d]
  | .satom d _ _ _ _ _ _ => [d] | .scas d _ _ _ _ _ => [d]
  | .jal _ => [31] | .call _ _ => [31]
  | .regroup d _ => [d] | .qpop d _ _ _ => [d] | .arrive d _ _ _ => [d] | .spawn d _ => [d] | .coll d _ _ _ _ => [d]
  | .mfence d => [d] | .rkenc d _ => [d] | .ptnext d _ _ _ => [d] | .rcap d _ => [d, d + 1]
  | .flagsAccess w _ r => if w then [] else [r]
  | _ => []
/-- BRV, JMPV, JOIN and REGROUP wait for every scalar write of the split's lane work (R105, R126). -/
def waitsLaneWrites : Instr → Bool
  | .brv _ _ _ | .jmpv _ | .join _ _ | .regroup _ _ => true
  | _ => false

/-- The lane memory instructions (R92). -/
def isLaneMem : Instr → Bool
  | .ld _ | .st _ | .ldt _ | .stt _ | .atom _ | .cas _ | .lda _ | .str _ | .pref _ => true
  | _ => false
/-- The scalar instructions that access memory, or read what an RKENC wrote (R208). -/
def isScalarMem : Instr → Bool
  | .lds _ _ _ | .ldw _ _ _ | .sts _ _ _ | .stw _ _ _ | .satom _ _ _ _ _ _ _ | .scas _ _ _ _ _ _ | .syncinit _ _ _ _ | .syncfree _ _
  | .arrive _ _ _ _ | .bwait _ _ _ | .waittl _ _ _ | .cfetch _ _ _ | .wspill _ _ | .wfill _ _ | .tcfg _ | .tld _ _ _ _ _
  | .tst _ _ _ _ _ | .mloop _ _ _ _ | .rktbl _ _ | .rkenc _ _ | .rkmm _ _ _ | .rkval _ _ _ _ | .spawn _ _ | .coll _ _ _ _ _ => true
  | _ => false
/-- Whether an RKENC of a split has not completed: the split's accesses wait, so that they observe it (R88, R208). -/
def State.rankHeld (s : State) (core slot split : Nat) : Bool :=
  (s.core core).engines.rankq.any fun o => o.slot == slot && o.split == split && o.serial == s.serial (gkey core slot)

end Sys2Proof.Machine
end

