-- ==== Sys2Proof/Machine/Access.lean ====
section
/-! DEFINITION. Memory accesses of a group: the checks of R87 and R141, format-page elements (R89, R90, R303), atomics by place, use and
scope (R95 to R97, R142, R172, R260, R276, R277), outstanding accesses (R156) and requests to other ranks (R353, R354). -/
namespace Sys2Proof.Machine

/-! ### Checks -/

/-- Whether any part failed with PROTECT. -/
def anyProtect (ps : List (Except Stop Seg)) : Bool :=
  ps.any fun p => match p with
    | .error (.trap c) => c == cProtect
    | _ => false
/-- The checks of R141 on an access of `n` bytes, but for its alignment; the Bool of an error tells a poisoned line (R308). -/
def State.checkBytes (s : State) (w : Who) (addr : DWord) (n : Nat) (need : Need) : Except (Stop × Bool) (List Seg) :=
  let ps := s.resolveParts w addr n need
  let ok := okSegs ps
  if anyProtect ps || anyFmt ok then .error (.trap cProtect, false)
  else if need != .rd && s.touchesLive ok then .error (.trap cTagStore, false)
  else
    match gather ps with
    | .error e => .error (e, false)
    | .ok gs => if need != .wr && s.touchesPoison gs then .error (.trap cProtect, true) else .ok gs
/-- The checks of R141 on a scalar access of `n` bytes. -/
def State.checkScalar (s : State) (w : Who) (addr : DWord) (n : Nat) (need : Need) : Except (Stop × Bool) (List Seg) :=
  if addr.toNat % n != 0 then .error (.trap cAlign, false) else s.checkBytes w addr n need
/-- The first of a list of parts that failed. -/
def firstBad : List (Except Stop Seg) → Nat
  | [] => 0
  | .ok _ :: ps => firstBad ps + 1
  | .error _ :: _ => 0
/-- The address of the first page of an access that failed. -/
def State.badAddr (s : State) (w : Who) (addr : DWord) (n : Nat) (need : Need) : DWord :=
  let i := firstBad (s.resolveParts w addr n need)
  if i = 0 then addr else BitVec.ofNat 64 ((addr.toNat / 65536 + i) * 65536)

/-- What a lane access finds: ordinary bytes, or an element of a format page. -/
inductive LanePlace where
  | plain (segs : List Seg)
  | elem (g : Seg)
deriving DecidableEq, Repr

/-- The kinds of lane access R89 to R92 tell apart. -/
inductive LaneKind where
  | ld | st | atom
deriving DecidableEq, Repr

/-- Frame and element offset of an element's place. -/
def elemFrame (pa : Nat) : Nat := pa / 65536 * 65536
/-- The byte of plane `j` of element `e` of a data frame. -/
def planeByte (frame e j : Nat) : Nat := frame + 1024 * (e / 1024) + 128 * (7 - j) + e % 1024 / 8
/-- The lines of a run of elements of a format page (R303). -/
def formatLines (pa len : Nat) (fm : Nat × Nat × Nat) : List Nat :=
  let e0 := pa % 65536
  let e1 := e0 + len - 1
  let data := (upFrom (e0 / 1024) (e1 / 1024 + 1 - e0 / 1024)).flatMap fun k =>
    (upFrom 0 fm.2.1).map fun j => elemFrame pa / 128 + 8 * k + j
  let first := (fm.1 + 2 * (e0 / fm.2.2)) / 128
  let last := (fm.1 + 2 * (e1 / fm.2.2)) / 128
  data ++ upFrom first (last + 1 - first)
/-- The planes an access reads (R18, R89). -/
def planesRead (pl : BitVec 3) (stored : Nat) : Nat :=
  if pl = 0 then stored else if pl.toNat + 1 < stored then pl.toNat + 1 else stored
/-- The planes a load of type `t` reads of a page's stored ones: all for bp (R89). -/
def loadPlanes (t : BitVec 4) (pl : BitVec 3) (stored : Nat) : Nat := if t = 13 then stored else planesRead pl stored
/-- The checks of one lane's access (R86, R87, R89 to R91); `pl` selects the planes that a load to type `t` reads. -/
def State.checkLane (s : State) (w : Who) (addr : DWord) (t : BitVec 4) (k : LaneKind) (need : Need) (pl : BitVec 3 := 0) :
    Except (Stop × Bool) LanePlace :=
  let n := bytesIn t
  if k == .atom && addr.toNat % n != 0 then .error (.trap cAlign, false)
  else
    match s.resolveParts w addr 1 need with
    | [.ok { place := .mem pa, len := l, va := va, fmt := some fm }] =>
      if k == .atom || (k == .ld && t == 14) || (k == .st && t != 13) then .error (.trap cProtect, false)
      else if k == .ld && (formatLines pa 1 (fm.1, loadPlanes 0 pl fm.2.1, fm.2.2)).any (nsHas s.mem.poison) then .error (.trap cProtect, true)
      else .ok (.elem { place := .mem pa, len := l, va := va, fmt := some fm })
    | [.ok { place := .remote r x o, len := l, va := va, fmt := f }] =>
      if t = 13 then .ok (.elem { place := .remote r x o, len := l, va := va, fmt := f })
      else (gather (s.resolveParts w addr n need)).map LanePlace.plain |>.mapError fun e => (e, false)
    | first =>
      let ps := s.resolveParts w addr n need
      let ok := okSegs ps
      if anyProtect ps || (t == 13 && !(okSegs first).isEmpty) then .error (.trap cProtect, false)
      else if anyFmt ok then .error (.trap cFormatEdge, false)
      else if need != .rd && s.touchesLive ok then .error (.trap cTagStore, false)
      else
        match gather ps with
        | .error e => .error (e, false)
        | .ok gs => if need != .wr && s.touchesPoison gs then .error (.trap cProtect, true) else .ok (.plain gs)

/-! ### Format pages (R303) -/

/-- Read an element at `p` planes through the core's L1: the plane bits in place, and the scale code. -/
def State.readElem (s : State) (core pa : Nat) (fm : Nat × Nat × Nat) (p : Nat) : State × Nat × Nat :=
  let frame := elemFrame pa
  let e := pa % 65536
  let r := (upFrom 0 p).foldl (fun (a : State × Nat) i =>
    let x := a.1.l1Load core (planeByte frame e (7 - i)) 1
    (x.1, a.2 + bitsOf (leNat x.2) (e % 8) 1 * 2 ^ (7 - i))) (s, 0)
  let y := r.1.l1Load core (fm.1 + 2 * (e / fm.2.2)) 2
  (y.1, r.2, leNat y.2)
/-- Write an element's stored planes through the core's L1. -/
def State.writeElem (s : State) (core pa : Nat) (fm : Nat × Nat × Nat) (v : Nat) : State :=
  let frame := elemFrame pa
  let e := pa % 65536
  (upFrom 0 fm.2.1).foldl (fun a i =>
    let j := 7 - i
    let at_ := planeByte frame e j
    let x := a.l1Load core at_ 1
    let old := leNat x.2
    let bit := 2 ^ (e % 8)
    let new := if bitsOf v j 1 = 1 then (if bitsOf old (e % 8) 1 = 1 then old else old + bit)
      else (if bitsOf old (e % 8) 1 = 1 then old - bit else old)
    x.1.l1Store core at_ (bytesOf 1 new)) s
/-- Write a block's scale. -/
def State.writeScale (s : State) (core pa : Nat) (fm : Nat × Nat × Nat) (scale : Nat) : State :=
  s.l1Store core (fm.1 + 2 * (pa % 65536 / fm.2.2)) (bytesOf 2 scale)
/-- A value of type `t` from an element (R89): for bp the scale and the element. -/
def elemValue (t : BitVec 4) (rm : BitVec 3) (p scale e : Nat) : Num :=
  if t = 13 then Num.pure (scale * 65536 + e) else bpTo t rm (decodeBp p scale e)

/-- The last data given to an element, in lane order. -/
def lastData (els : List (Nat × (Nat × Nat × Nat) × Nat)) (pa : Nat) : Option Nat :=
  (els.filter fun x => x.1 == pa).getLast?.map (·.2.2)
/-- The first addresses of the blocks a set of elements touches. -/
def elemBlocks (els : List (Nat × (Nat × Nat × Nat) × Nat)) : List (Nat × (Nat × Nat × Nat)) :=
  els.foldl (fun m x =>
    let b := elemFrame x.1 + x.1 % 65536 / x.2.1.2.2 * x.2.1.2.2
    if m.any (fun y => y.1 == b) then m else m ++ [(b, x.2.1)]) []
/-- Whether the block of an element is written whole. -/
def wholeBlock (els : List (Nat × (Nat × Nat × Nat) × Nat)) (x : Nat × (Nat × Nat × Nat) × Nat) : Bool :=
  let len := x.2.1.2.2
  (upFrom (elemFrame x.1 + x.1 % 65536 / len * len) len).all fun pa => (lastData els pa).isSome
/-- Check a set of elements a store writes (R87, R90, R91): PROTECT at the first element of a block that is not written whole, FORMAT_EDGE
at the first element whose page's planes or block length are not those of the first, or none. The element is named by its index. -/
def elemCheck (els : List (Nat × (Nat × Nat × Nat) × Nat)) : Option (Nat × Byte) :=
  let part := els.findIdx fun x => !wholeBlock els x
  let edge := els.findIdx fun x => (els.head?.map (·.2.1.2)) != some x.2.1.2
  if part < els.length then some (part, cProtect) else if edge < els.length then some (edge, cFormatEdge) else none
/-- Write whole blocks: scales from the first elements' bits [31:16], then the elements (R90). -/
def State.writeBlocks (s : State) (core : Nat) (els : List (Nat × (Nat × Nat × Nat) × Nat)) : State :=
  (elemBlocks els).foldl (fun a b =>
    let a1 := a.writeScale core b.1 b.2 ((lastData els b.1).getD 0 / 65536 % 65536)
    (upFrom b.1 b.2.2.2).foldl (fun c pa => c.writeElem core pa b.2 ((lastData els pa).getD 0 % 256)) a1) s

/-! ### Atomics by place (R172) -/

/-- Read, modify, write `n` bytes of one place; `f` gives the new value, or none for no write. -/
def State.rmw (s : State) (core : Nat) (place : Place) (n : Nat) (scope : BitVec 2) (f : Nat → Option Nat) : State × Nat :=
  match place with
  | .mem pa =>
    if scope = 0 then
      let r := s.l1Load core pa n
      let old := leNat r.2
      match f old with
      | some v => (r.1.l1Store core pa (bytesOf n v), old)
      | none => (r.1, old)
    else
      let s1 := (s.dropLine core (pa / 128)).l2Touch (pa / 128)
      let r := s1.mem.homeRead pa n
      let old := leNat r.2
      match f old with
      | some v => ({ s1 with mem := r.1.homeWrite pa (bytesOf n v) }, old)
      | none => ({ s1 with mem := r.1 }, old)
  | .scratch t off =>
    let old := leNat (s.scratchRead t off n)
    match f old with
    | some v => (s.scratchWrite t off (bytesOf n v), old)
    | none => (s, old)
  | .window off => (s, leNat (s.windowRead off n))
  | .remote _ _ _ => (s, 0)

/-- A commutative update of local memory (R172, R260): the core's own bytes of the line go first; then the update combines into the core's
partial of a line of this operator and type, opening the state, in the L1 or where its home keeps it. -/
def State.cuUpdate (s : State) (core pa : Nat) (t : BitVec 4) (op b : Nat) : State × Num :=
  let line := pa / 128
  let s := (s.dropLine core line).l2Touch line
  let s := match amGet s.mem.cu line with
    | some c => if c.op = op && c.ty = t then s else s.modMem fun m => m.recall line
    | none => s
  let there := ((amGet s.mem.cu line).bind fun c => amGet c.partials core).isSome
  let s0 := if there then s else s.l1Room core line
  let cu := (amGet s0.mem.cu line).getD { op := op, ty := t, partials := [] }
  let part := (amGet cu.partials core).getD []
  let n := match amGet part (pa % 128) with
    | some x => atomicOp t op x.toNat b
    | none => Num.pure (b % 2 ^ widthOf t)
  let cu1 : CuLine := { cu with partials := amSet cu.partials core (amSet part (pa % 128) (BitVec.ofNat 64 n.bits)) }
  (s0.modMem fun m => { m with cu := amSet m.cu line cu1 }, n)

/-- The magnitude of a 64-bit running sum read as signed. -/
def sumMag (x : BitVec 64) : Nat := x.toInt.natAbs
/-- A quantum add into the core's combining buffer (R277); `b` is the operand as an integer of its type. -/
def State.quantAdd (s : State) (core who : Nat) (place : Place) (t : BitVec 4) (scope : BitVec 2) (pl : BitVec 3) (b : Int) : State :=
  let limit := 2 ^ (pl.toNat + 2)
  let q := (s.core core).quant
  let hit := q.find? fun e => e.place == place && e.ty == t
  let old := hit.getD { place := place, ty := t, scope := scope, sum := 0, from_ := [] }
  let e : QuantEntry := { old with sum := old.sum + BitVec.ofInt 64 b, from_ := nsAdd old.from_ who }
  let s1 := s.quantForward core fun x => x.place == place && x.ty != t
  let s2 := if hit.isNone && decide (32 ≤ (s1.core core).quant.length) then
      match (s1.core core).quant with
      | x :: _ => s1.quantForward core fun y => y == x
      | [] => s1
    else s1
  if limit ≤ sumMag e.sum then
    (s2.modCore core fun c => { c with quant := c.quant.filter fun x => !(x.place == place && x.ty == t) }).forwardAdd core e
  else if hit.isSome then
    s2.modCore core fun c => { c with quant := c.quant.map fun x => if x.place == place && x.ty == t then e else x }
  else s2.modCore core fun c => { c with quant := c.quant ++ [e] }

/-! ### Scopes (R262, R266, R281, R353) -/

/-- Uses 5, 6 and 7 make a synchronising access (R281). -/
def syncUse (use : BitVec 3) : Bool := 5 ≤ use
def acquires (use : BitVec 3) : Bool := use == 5 || use == 7
def releases (use : BitVec 3) : Bool := use == 6 || use == 7
/-- The class of a rank as the die resolves it: 0 pod, 1 remote, 2 host (R347). -/
def State.classOf (s : State) (core rank : Nat) : Nat := ((s.resolveRank (dieOf core) rank).map (·.1)).getD 1
/-- Whether the scope checker, or the source's check of R353, lets a synchronising access through. -/
def State.scopePass (s : State) (core : Nat) (scope : BitVec 2) : Place → Bool
  | .mem pa => s.scopeOk (pa / 128) (.core core)
  | .remote rank _ _ => if s.classOf core rank = 0 then decide (2 ≤ scope) else scope == 3
  | _ => true
/-- Write the record after a check that passed (R262). -/
def State.scopeMark (s : State) (core : Nat) (scope : BitVec 2) : Place → State
  | .mem pa => s.setScope (pa / 128) scope (.core core)
  | _ => s
/-- The scope an access acts at: team in the scratchpad window (R96). -/
def actScope (scope : BitVec 2) : Place → BitVec 2
  | .scratch _ _ => 0
  | _ => scope
/-- How far an access reaches: 0 device, 1 pod, 2 remote or host. -/
def State.reachOf (s : State) (core : Nat) : Place → Nat
  | .remote rank _ _ => if s.classOf core rank = 0 then 1 else 2
  | _ => 0

/-! ### Outstanding accesses (R156) -/

/-- Whether another instruction of a class can be counted. -/
def Group.roomFor (g : Group) (load : Bool) : Bool := decide ((if load then g.async.loads else g.async.stores) < 4095)
/-- The number the next access takes. -/
def Group.nextAccess (g : Group) : Nat := amFresh g.async.access 0
/-- Count and hold an issued access. -/
def Group.addAccess (g : Group) (id : Nat) (a : Access) : Group :=
  g.modAsync fun x =>
    { x with access := amSet x.access id a, loads := if a.load then x.loads + 1 else x.loads,
             stores := if a.load then x.stores else x.stores + 1 }
/-- Hold an access of a group; one that waits for no other rank is due to complete. -/
def State.issueAccess (s : State) (key : Nat) (a : Access) : State :=
  match s.group key with
  | none => s
  | some g =>
    let id := g.nextAccess
    let s1 := s.putGroup key (g.addAccess id a)
    if a.acks.isEmpty && a.parts.all (fun p => p.ticket.isNone) then s1.wakeUp (.memoryAccessComplete (key / 32) (key % 32) id) else s1

/-! ### Requests to other ranks (R354) -/

/-- One lane's access of another rank: lane, rank, region, offset, what is asked. -/
structure Ask where
  lane : Nat
  rank : Nat
  region : BitVec 4
  off : Nat
  op : HomeOp
deriving DecidableEq, Repr

/-- The 128-byte line of a rank that an access addresses. -/
def Ask.line (a : Ask) : Nat := (a.rank * 16 + a.region.toNat) * 2 ^ 32 + a.off / 128
/-- The distinct lines of a list of accesses, in the order they first come. -/
def askLines (key : Ask → Nat) (as : List Ask) : List Nat := as.foldl (fun m a => if m.contains (key a) then m else m ++ [key a]) []
/-- The global address an ask names. -/
def Ask.addr (a : Ask) : Nat := 2 ^ 63 + a.rank * 2 ^ 43 + a.region.toNat * 2 ^ 39 + a.off
/-- The packet an ask goes into: its line's, or, in a transfer that begins at `base` to a remote or host rank, its granule's (R373). -/
def State.askKey (s : State) (core : Nat) (base : Option Nat) (a : Ask) : Nat :=
  match base, s.resolveRank (dieOf core) a.rank with
  | some b, some (cls, _, ps) =>
    if cls = 0 then a.line
    else 2 ^ 80 + a.rank * 2 ^ 58 + (a.addr - b) / (((s.pathSet ps).map setGranule).getD 64)
  | _, _ => a.line
/-- Send one packet for each line or granule: the tickets with their keys (R354). -/
def State.sendAsks (s : State) (core : Nat) (owner : Owner) (t : BitVec 4) (keep : Option (Nat × Nat × Nat)) (as : List Ask)
    (src : Option (BitVec 4) := none) (rm : BitVec 3 := 0) (base : Option Nat := none) : State × List (Nat × Nat) :=
  let key := s.askKey core base
  (askLines key as).foldl (fun (x : State × List (Nat × Nat)) ln =>
    match as.find? fun a => key a == ln with
    | none => x
    | some a0 =>
      let cls := x.1.classOf core a0.rank
      let kept := if cls = 0 then keep else none
      let mine := as.filter fun a => key a == ln
      let ops := mine.map fun a => (BitVec.ofNat 39 a.off, a.op)
      let ops1 := if kept.isSome then ops ++ [(BitVec.ofNat 39 (a0.off / 128 * 128), HomeOp.line)] else ops
      let k : Ticket := { owner := owner, rank := a0.rank, cls := cls, addr := BitVec.ofNat 64 a0.addr, ty := t, src := src, rm := rm,
                          lanes := mine.map fun a => (a.lane, BitVec.ofNat 64 a.addr), keep := kept }
      let r := x.1.request core a0.rank k a0.region ops1
      (r.1, x.2 ++ [(ln, r.2)])) (s, [])
/-- Whether an access of a split to this line of a remote or host rank is unanswered: packets arrive there in any order, so a later
access waits (R88, R138, R375). -/
def State.farBusy (s : State) (core slot split : Nat) (p : Place) : Bool :=
  match p with
  | .remote rank region off =>
    let line := (2 ^ 63 + rank * 2 ^ 43 + region.toNat * 2 ^ 39 + off) / 128
    let mine := fun (o : Owner) => match o with
      | .access c sl id => c == core && sl == slot && (match (s.group (gkey c sl)).bind fun g => amGet g.async.access id with
          | some a => a.split == split
          | none => false)
      | .split c sl k => c == core && sl == slot && k == split
      | .fetch c sl k => c == core && sl == slot && (k == split || (k == 32 && (((s.group (gkey c sl)).bind fun g =>
          g.async.laneq.head?).map fun e => e.tag.split) == some split))
      | _ => false
    s.fabric.tickets.any fun t => t.2.cls != 0 && t.2.rank == rank && t.2.addr.toNat / 128 == line && mine t.2.owner
  | _ => false
/-- A `.keep` copy's bytes, where the split holds the whole range (R354). -/
def State.keepRead (s : State) (core slot split : Nat) (a : Ask) (n : Nat) : Option (List Byte) :=
  if 128 < a.off % 128 + n then none
  else (s.mem.keeps.find? fun k => k.core == core && k.slot == slot && k.split == split && k.line == a.line).map fun k =>
    (k.bytes.drop (a.off % 128)).take n
/-- A store updates the split's own `.keep` copy (R354); a copy on its way, which lacks it, is not kept. -/
def State.keepStore (s : State) (core slot split : Nat) (a : Ask) (bs : List Byte) : State :=
  (s.dropKeeps core slot split (fun _ => false) fun t => t.rank == a.rank && t.addr.toNat / 128 == a.addr / 128).modMem fun m =>
    { m with keeps := m.keeps.map fun k =>
      if k.core == core && k.slot == slot && k.split == split && k.line == a.line then
        { k with bytes := (k.bytes.take (a.off % 128) ++ bs ++ k.bytes.drop (a.off % 128 + bs.length)).take 128 }
      else k }
/-- A read, an atomic or a release of a split at another rank: its `.keep` copy of the line, and one that is on its way, are older than what
the split has observed, and go (R269, R276). -/
def State.keepForget (s : State) (core slot split : Nat) (a : Ask) : State :=
  if a.rank = s.dev.rank then s
  else s.dropKeeps core slot split (fun k => k.line == a.line) fun t => t.rank == a.rank && t.addr.toNat / 128 == a.addr / 128
/-- The ticket of a line. -/
def ticketOf (ts : List (Nat × Nat)) (line : Nat) : Option Nat := (ts.find? fun x => x.1 == line).map (·.2)

end Sys2Proof.Machine
end

