-- ==== Sys2Proof/Machine/FarLoad.lean ====
section
/-! DEFINITION. Descriptors read as ordinary loads (R141) by one instruction: a tensor record (R180), an RKENC descriptor (R206), a node
record and its entry (R315). Lines at another rank are asked for, and the instruction waits for them (R354). -/
namespace Sys2Proof.Machine

/-- Whether an address belongs to another rank. -/
def State.isFar (s : State) (a : DWord) : Bool :=
  decide (2 ^ 63 ≤ a.toNat) && a.toNat / 2 ^ 43 % 2 ^ 20 != s.dev.rank
/-- What is asked of the rank that a global address names. -/
def farAsk (lane : Nat) (addr : DWord) (op : HomeOp) : Ask :=
  let a := addr.toNat
  { lane := lane, rank := a / 2 ^ 43 % 2 ^ 20, region := BitVec.ofNat 4 (a / 2 ^ 39), off := a % 2 ^ 39, op := op }
/-- The reader number of the head of a lane queue; a scalar instruction's is its split. -/
def laneReader : Nat := 32
/-- What reading a descriptor gives: its bytes, and whether any came from another rank; a trap or stall with its address; or a wait for
other ranks. -/
inductive LineRead where
  | bytes (s : State) (bs : List Byte) (far : Bool)
  | stop (addr : DWord) (e : Stop × Bool)
  | held (s : State)
deriving DecidableEq, Repr

/-- The 64-byte lines of a descriptor of `n` bytes. -/
def lineAddrs (addr : DWord) (n : Nat) : List DWord := (upFrom 0 (n / 64)).map fun i => addr + BitVec.ofNat 64 (64 * i)
/-- The lines a reader of a group has asked for. -/
def Group.fetchesOf (g : Group) (who : Nat) : List FarLine := g.async.fetches.filter fun f => f.who == who
/-- The reader's instruction has taken its lines. -/
def Async.endFetch (who : Nat) (x : Async) : Async := { x with fetches := x.fetches.filter fun f => f.who != who }
/-- The current group's reader has taken its lines. -/
def State.endFetch (s : State) (who : Nat) : State := s.modGroup s.curKey fun g => g.modAsync (Async.endFetch who)
/-- Ask for lines at other ranks, after the split's earlier accesses of them. -/
def State.askLines (s : State) (split who : Nat) (need : List DWord) : State :=
  let core := s.sched.core
  let slot := s.sched.slot
  let asks := need.map fun a => farAsk 0 a (.get 64)
  if asks.any fun a => s.farBusy core slot split (.remote a.rank a.region a.off) then s
  else
    let r := s.sendAsks core (.fetch core slot who) 0 none asks
    let lines := r.2.flatMap fun x => (asks.filter fun a => a.line == x.1).map fun a =>
      ({ who := who, addr := BitVec.ofNat 64 a.addr, ticket := x.2, bytes := none, epoch := (s.core core).fences } : FarLine)
    r.1.modGroup s.curKey fun g => g.modAsync fun x => { x with fetches := x.fetches ++ lines }
/-- A line of a descriptor: as its rank answered, or read here. -/
def State.oneLine (s : State) (w : Who) (fs : List FarLine) (a : DWord) : State × List Byte :=
  match fs.find? fun f => f.addr == a with
  | some f => (s, f.bytes.getD [])
  | none =>
    match s.resolve w a 64 .rd with
    | .ok gs => s.segsRead w.core gs
    | .error _ => (s, [])
/-- Read a descriptor of `n` bytes at an address aligned to 64, as an ordinary load of a split. -/
def State.readLines (s : State) (w : Who) (split who : Nat) (addr : DWord) (n : Nat) : LineRead :=
  match s.checkBytes w addr n .rd with
  | .error e => .stop (if e.1 == .trap cPage then s.badAddr w addr n .rd else addr) e
  | .ok gs =>
    if !gs.any Seg.isRemote then
      let r := s.segsRead w.core gs
      .bytes r.1 r.2 false
    else
      let lines := lineAddrs addr n
      let fs := (((s.group s.curKey).map fun g => g.fetchesOf who).getD []).filter fun f => f.epoch == (s.core w.core).fences
      let need := lines.filter fun a => s.isFar a && !(fs.any fun f => f.addr == a)
      if !need.isEmpty then .held (s.askLines split who need)
      else if fs.any fun f => f.bytes.isNone then .held s
      else
        let r := lines.foldl (fun (x : State × List Byte) a =>
          let y := x.1.oneLine w fs a
          (y.1, x.2 ++ y.2)) (s, [])
        .bytes r.1 r.2 true

end Sys2Proof.Machine
end

