-- ==== Sys2Proof/Machine/Tensor.lean ====
section
/-! DEFINITION. Tensor records (R178, R179), the record cache (R180, R181), and reading and writing elements through them. -/
namespace Sys2Proof.Machine

/-- A field of `k` bytes read as signed. -/
def sfield (bs : List Byte) (o k : Nat) : Int :=
  let n := field bs o k
  if 2 ^ (8 * k - 1) ≤ n then (n : Int) - (2 ^ (8 * k) : Nat) else n
def recFormat (b : List Byte) : BitVec 4 := BitVec.ofNat 4 (bitsOf (field b 0 8) 0 4)
def recDims (b : List Byte) : Nat := bitsOf (field b 0 8) 4 3
def recBase (b : List Byte) : Nat := field b 8 8
def recSize (b : List Byte) (i : Nat) : Nat := field b (16 + 4 * i) 4
def recStride (b : List Byte) (i : Nat) : Int := sfield b (40 + 8 * i) 8
def recLo (b : List Byte) (i : Nat) : Int := sfield b (88 + 4 * i) 4
def recHi (b : List Byte) (i : Nat) : Int := sfield b (112 + 4 * i) 4
def recPad (b : List Byte) : Nat := field b 136 8
def recOrigin (b : List Byte) (i : Nat) : Int := sfield b (144 + 4 * i) 4
def recExt (b : List Byte) (i : Nat) : Nat := field b (168 + 2 * i) 2
/-- The checks of R179 on a record's contents. -/
def recOk (b : List Byte) : Bool :=
  recFormat b != 15 && decide (1 ≤ recDims b) && decide (recDims b ≤ 6) && bitsOf (field b 0 8) 7 57 == 0
    && field b 180 8 == 0 && field b 188 4 == 0
/-- In bounds (R178). -/
def recIn (b : List Byte) (c : List Int) : Bool :=
  (upFrom 0 (recDims b)).all fun i =>
    let x := c.getD i 0
    decide (0 ≤ x) && decide (recLo b i ≤ x) && decide (x < recHi b i) && decide (x < recSize b i)
/-- The element address of a coordinate (R178). -/
def recAddr (b : List Byte) (c : List Int) : DWord :=
  (upFrom 0 (recDims b)).foldl (fun a i => a + BitVec.ofInt 64 ((c.getD i 0) * recStride b i)) (BitVec.ofNat 64 (recBase b))
/-- The padding as a value of type `t` (R94, R178). -/
def recPadding (b : List Byte) (t : BitVec 4) (rm : BitVec 3) : Num :=
  if recFormat b = 13 then (if t = 13 then Num.pure 0 else convert 12 t rm false (recPad b % 2 ^ 32))
  else if recFormat b = 14 then Num.pure (recPad b % 65536)
  else convert (recFormat b) t rm false (recPad b % 2 ^ widthOf (recFormat b))

/-- Put a record into a core's cache; with 64 records held, a free choice gives way (R180). -/
def State.cacheRecord (s : State) (core key : Nat) (b : List Byte) : State :=
  let held := (s.core core).records
  let s1 := if held.length < 64 then s else s.usedFree
  let victim := ((held[s.freeNat held.length]?).map (·.1)).getD key
  let held1 := if held.length < 64 then held else amDel held victim
  s1.modCore core fun c => { c with records := amSet held1 key b }
/-- The key of a record in the cache. -/
def recordKey (w : Who) (addr : DWord) : Nat := w.asid * 2 ^ 64 + addr.toNat
/-- Read a record's bytes for a core: the cached copy, else three lines as ordinary loads (R180). A record at another rank that
`fetchRecord` has not brought is not there yet. -/
def State.recordRead (s : State) (w : Who) (addr : DWord) : Except (Stop × Bool) (State × List Byte) :=
  if addr.toNat % 64 != 0 then .error (.trap cAlign, false)
  else
    match amGet (s.core w.core).records (recordKey w addr) with
    | some b => if recOk b then .ok (s, b) else .error (.trap cProtect, false)
    | none =>
      match s.checkBytes w addr 192 .rd with
      | .error e => .error e
      | .ok gs =>
        if gs.any Seg.isRemote then .error (.stall, false)
        else
          let r := s.segsRead w.core gs
          if !recOk r.2 then .error (.trap cProtect, false) else .ok (r.1.cacheRecord w.core (recordKey w addr) r.2, r.2)
/-- The bytes of a record that can be read now, whatever they hold. -/
def State.recordPeek (s : State) (w : Who) (addr : DWord) : Option (List Byte) :=
  if addr.toNat % 64 != 0 then none
  else
    match amGet (s.core w.core).records (recordKey w addr) with
    | some b => some b
    | none =>
      match s.checkBytes w addr 192 .rd with
      | .error _ => none
      | .ok gs => if gs.any Seg.isRemote then none else some (s.segsRead w.core gs).2
/-- Bring a record of another rank into the cache: the state in which the use waits, none where nothing is to be brought. The bytes are
checked when the use reads them. -/
def State.fetchRecord (s : State) (w : Who) (split who : Nat) (addr : DWord) : Option State :=
  match s.recordRead w addr with
  | .error (.stall, _) =>
    (match s.readLines w split who addr 192 with
     | .held s1 => some s1
     | .stop _ _ => none
     | .bytes s1 b _ => some ((s1.cacheRecord w.core (recordKey w addr) b).endFetch who))
  | _ => none
/-- A record as a use would see it, without reading it into the cache: for the interlock of R38 on LDT and STT. -/
def State.recordDims (s : State) (w : Who) (addr : DWord) : Nat :=
  match s.recordRead w addr with
  | .ok (_, b) => recDims b
  | .error _ => 0

end Sys2Proof.Machine
end

