-- ==== Sys2Proof/Machine/Issue.lean ====
section
/-! DEFINITION. Fetching and issue: the bytes at a PC (R6, R9, R176), the interlocks of both streams (R38, R88, R105, R125, R137, R138),
who may issue (R136, R153, R219, R332), and the choice among them (R134). -/
namespace Sys2Proof.Machine

/-! ### Fetch -/

/-- What a scalar fetch finds (R176). -/
inductive Fetched where
  | instr (i : Instr)
  | trap (t : Trap)
  | stall
deriving DecidableEq, Repr

/-- Bytes of a core's instruction memory. -/
def Core.codeBytes (c : Core) (a n : Nat) : List Byte := (upFrom a n).map fun x => stGet 0 c.imem x
/-- Fetch at a split's PC (R6, R9, R20, R176). -/
def State.fetch (s : State) (core : Nat) (sp : Split) : Fetched :=
  if sp.fell then .trap (Trap.of cSegment)
  else if 2 ^ 18 ≤ sp.pc.toNat || sp.pc.toNat % 4 != 0 then .trap (Trap.of cAlign)
  else
    match (s.codeSlot core (pcSlot sp.pc)).state with
    | .loading => .stall
    | .empty => .trap (Trap.at_ cOverlay (BitVec.ofNat 64 (pcSlot sp.pc * 8192)))
    | .landed =>
      match decodeScalarBytes ((s.core core).codeBytes sp.pc.toNat 4) with
      | .ok i => .instr i
      | .error _ => .trap (Trap.of cIllegal)

/-! ### Interlocks -/

/-- Scalar registers of a split that an access, an engine or another rank still owes (R137, R138). -/
def Group.busyReg (g : Group) (split : Nat) (r : SReg) : Bool :=
  r != 0 && (nsHas g.async.owed (split * 32 + r.toNat)
    || g.async.access.any fun a => a.2.split == split && a.2.sreg == some r)
/-- The instruction of a queue entry. -/
def entryInstr (e : LaneEntry) : Option Instr := (decodeLane e.bits).toOption
/-- The instructions a split still has in the lane queue, read through its own registers. -/
def Group.queued (g : Group) (split : Nat) : List Instr :=
  g.unissued.filterMap fun e => if e.tag.split == split && e.tag.regs.isNone then entryInstr e else none
/-- Whether an instruction copies or merges its split's scalar registers: none of them may be owed then (R127 to R129, R137). -/
def copiesRegs : Instr → Bool
  | .brv _ _ _ => true
  | .jmpv _ => true
  | .join _ _ => true
  | _ => false
/-- Whether a scalar instruction may issue (R105, R125, R137, R138). -/
def Group.scalarReady (g : Group) (split : Nat) (i : Instr) : Bool :=
  let rd := scalarReads i
  let wr := (scalarWrites i).filter (· != 0)
  let q := g.queued split
  (rd ++ wr ++ if copiesRegs i then (upFrom 1 31).map fun r => BitVec.ofNat 5 r else []).all (fun r => !g.busyReg split r)
    && q.all fun j => (laneScalarReads j).all (fun r => !wr.contains r)
        && (laneScalarWrites j).all fun r => !(rd ++ wr).contains r && !waitsLaneWrites i

/-- The window registers the head of a queue touches, the dimensions of LDT and STT read from their record. -/
def State.headRegs (s : State) (core : Nat) (g : Group) (e : LaneEntry) (i : Instr) : List Nat :=
  let dims : LaneF → Nat := fun f => s.recordDims (s.whoOf core g) (g.scalarOf e (f.va.setWidth 5))
  match i with
  | .ldt f => laneRegs (dims f) i
  | .stt f => laneRegs (dims f) i
  | _ => laneRegs 0 i
/-- The P stall of R38 for an entry; an encoding check comes first (R20). -/
def State.stalledOnP (s : State) (core : Nat) (g : Group) (e : LaneEntry) (i : Instr) : Bool :=
  match laneField i with
  | none => false
  | some f =>
    let act := g.active e f
    act != 0 && laneOk i && (s.headRegs core g e i).any fun r => (g.pmask (e.tag.wb + r) &&& act) != 0
/-- Whether an entry touches a slot that a load or atomic still owes (R88), or a scalar register of R138. -/
def State.stalledOnLoad (s : State) (core : Nat) (g : Group) (e : LaneEntry) (i : Instr) : Bool :=
  match laneField i with
  | none => false
  | some f =>
    let act := g.active e f
    let rs := (s.headRegs core g e i).map (e.tag.wb + ·)
    (g.async.access.any fun a => a.2.parts.any fun p => a.2.lane && act.getLsbD p.lane
        && (rs.contains p.slot || (p.wide && rs.contains (p.slot + 1))))
      || (e.tag.regs.isNone && (laneScalarReads i ++ laneScalarWrites i).any fun r => g.busyReg e.tag.split r)

/-- Whether a stall that began at an instant has reached ARRTO (R39). -/
def Group.late (g : Group) (now : Nat) (since : Option Nat) : Bool :=
  match since with
  | some t => g.csrs.arrto != 0 && decide (g.csrs.arrto.toNat ≤ now - t)
  | none => false
/-- Whether a core issues: it does not after a watchdog trip (R332). -/
def State.issuing (s : State) : Bool := !s.dev.tripped
/-- Whether a split may issue: ready, and alone in a handler (R153). -/
def Group.splitMay (g : Group) (split : Nat) : Bool :=
  g.running && (match g.ctl.trapSplit with | some k => k == split | none => true)
    && (match g.split split with | some sp => sp.status == .ready | none => false)
/-- The decoded head of a group's lane queue; none when its bits name no instruction (R20). -/
def Group.headInstr (g : Group) : Option (LaneEntry × Option Instr) :=
  match g.async.laneq with
  | [] => none
  | e :: _ => some (e, entryInstr e)
/-- Whether a group's lane queue may issue its head. -/
def State.laneMay (s : State) (core slot : Nat) (g : Group) : Bool :=
  g.running && (match g.headInstr with
    | none => false
    | some (_, none) => true
    | some (e, some i) => g.async.laneWait.isNone && g.async.xshfl.isNone && !s.stalledOnP core g e i && !s.stalledOnLoad core g e i
        && !(isLaneMem i && s.rankHeld core slot e.tag.split))

/-! ### The choice (R134) -/

/-- The ready split that has waited longest: core, slot, split; ties go to the lower group slot, then to the lower lowest lane. -/
def State.pickScalar (s : State) : Option (Nat × Nat × Nat) :=
  let all := s.groups.flatMap fun g => g.2.splits.filterMap fun x =>
    if g.2.splitMay x.1 then some (g.1, x.1, x.2.lastIssue, lowLane x.2.mask) else none
  (all.foldl (fun (b : Option (Nat × Nat × Nat × Nat)) x => match b with
    | none => some x
    | some y => if x.2.2.1 < y.2.2.1 || (x.2.2.1 == y.2.2.1 && x.1 == y.1 && decide (x.2.2.2 < y.2.2.2)) then some x else b) none).map
      fun x => (x.1 / 32, x.1 % 32, x.2.1)
/-- A lane queue to issue from: cores take turns, and in a core the fuller queue goes first, then the lower slot; every fourth lane turn
goes round all queues, so that a head that must wait holds up no other. -/
def State.pickLane (s : State) : Option (Nat × Nat) :=
  let all := s.groups.filter fun g => s.laneMay (g.1 / 32) (g.1 % 32) g.2
  let may := if s.sched.rotor / 4 % 4 = 3 then (all.drop (s.sched.rotor / 16 % Nat.max 1 all.length)).take 1 else all
  let turn := s.sched.rotor / 4 % 384
  let core := ((may.find? fun g => decide (turn ≤ g.1 / 32)).or may.head?).map fun g => g.1 / 32
  match core with
  | none => none
  | some c =>
    ((may.filter fun g => g.1 / 32 == c).foldl (fun (b : Option (Nat × Nat)) g => match b with
      | none => some (g.1, g.2.async.laneq.length)
      | some y => if y.2 < g.2.async.laneq.length then some (g.1, g.2.async.laneq.length) else b) none).map
        fun x => (x.1 / 32, x.1 % 32)
/-- Whether the power limiter withholds this turn from the cores and the matrix sequencers (R343). -/
def State.withholds (s : State) : Bool := decide (s.sched.rotor % 1000 < s.dev.withheld)
/-- A turn of a matrix sequencer. -/
def Turn.sequencer : Turn → Bool
  | .event (.mloopStep _) => true
  | .event (.matrixOpComplete _) => true
  | _ => false
/-- The first of the due turns, and the rest; a sequencer's turn is passed over while it is withheld. -/
def State.takeDue (s : State) (ts : List Turn) : Option (Turn × List Turn) :=
  (ts.find? fun t => !(s.withholds && t.sequencer)).map fun t => (t, ts.erase t)
/-- An issue turn: the two streams take turns; the power limiter withholds some (R343). -/
def State.pickIssue (s : State) : Option Turn :=
  if !s.issuing || s.withholds then none
  else
    let a := s.pickScalar.map fun x => Turn.scalar x.1 x.2.1 x.2.2
    let b := s.pickLane.map fun x => Turn.lane x.1 x.2
    if s.sched.rotor / 2 % 2 = 0 then a.or b else b.or a
/-- The next turn, and the state after it is taken off its list (log entry 1): the agenda first; else due events and issue alternate. -/
def State.nextTurn (s : State) : State × Option Turn :=
  match s.sched.agenda with
  | t :: rest => ({ s with sched := { s.sched with agenda := rest } }, some t)
  | [] =>
    let s1 : State := { s with sched := { s.sched with flip := !s.sched.flip, rotor := s.sched.rotor + 1 } }
    let due : Option (State × Turn) := (s.takeDue s.sched.wake).map fun r => ({ s1 with sched := { s1.sched with wake := r.2 } }, r.1)
    let issue : Option (State × Turn) := s.pickIssue.map fun t => (s1, t)
    match if s.sched.flip then due.or issue else issue.or due with
    | some (s2, t) => (s2, some t)
    | none => (s1, none)

/-- Name the executing split, and record its issue (R134). -/
def State.setCur (s : State) (core slot split : Nat) : State :=
  { s with sched := { s.sched with core := core, slot := slot, split := split } }
def State.markIssue (s : State) : State :=
  s.modGroup s.curKey fun g => g.modSplit s.sched.split fun sp => { sp with lastIssue := s.sched.rotor }

end Sys2Proof.Machine
end

