-- ==== Sys2Proof/Machine/ScalarMem.lean ====
section
/-! DEFINITION. Scalar loads, stores and atomics (R138, R141, R142), window spills (R36, R148), and the completion of outstanding
accesses (R88, R156). -/
namespace Sys2Proof.Machine

/-! ### The frame of a scalar access -/

/-- The lane memory instructions a split enqueued have all issued (R138). -/
def Group.memIssued (g : Group) (split : Nat) : Bool :=
  g.async.laneq.all fun e => !(e.tag.split == split && ((entryInstr e).map isLaneMem).getD false)
/-- What stops a scalar access at an address. -/
def stopScalar (addr : DWord) (s : State) (e : Stop × Bool) : Res :=
  match e.1 with
  | .trap c => .trap { Trap.at_ c addr with poison := e.2 }
  | .stall => .wait s
/-- The address of a displaced access (R141). -/
def dispAddr (sp : Split) (a : SReg) (disp : BitVec 16) : DWord := sp.reg a + sext disp
/-- The place of a scalar access: it never leaves one line. -/
def placeOf (gs : List Seg) : Place := ((gs.head?).map (·.place)).getD (.mem 0)

/-- A scalar access that returns nothing more than `value`, or that waits for another rank's answer to `op` (R156, R354). -/
def State.scalarAccess (s : State) (load nord : Bool) (d : SReg) (t : BitVec 4) (p : Place) (value : DWord) (op : HomeOp) : State :=
  let key := s.curKey
  let core := s.sched.core
  let base : Access := { load := load, lane := false, split := s.sched.split, parts := [], sreg := if load then some d else none,
                         acks := [], reach := s.reachOf core p, nord := nord }
  match p with
  | .remote rank region off =>
    let id := ((s.group key).map Group.nextAccess).getD 0
    let ask : Ask := { lane := 0, rank := rank, region := region, off := off, op := op }
    let s0 := match op with | .put bs => s.keepStore core s.sched.slot s.sched.split ask bs | _ => s.keepForget core s.sched.slot s.sched.split ask
    let r := s0.sendAsks core (.access core s.sched.slot id) t none [ask]
    let tk := (r.2.head?).map (·.2)
    r.1.issueAccess key
      (if load then { base with parts := [{ lane := 0, slot := 0, wide := true, value := 0, ticket := tk }] }
       else { base with acks := tk.toList })
  | _ =>
    s.issueAccess key
      (if load then { base with parts := [{ lane := 0, slot := 0, wide := true, value := value, ticket := none }] } else base)

/-- LDS and LDW: `n` bytes, sign-extended when narrow (R141). -/
def scalarLoad (d a : SReg) (disp : BitVec 16) (narrow : Bool) (s : State) : Out :=
  runScalar true (fun s g sp =>
    let n := if narrow then 4 else 8
    let addr := dispAddr sp a disp
    if !g.memIssued s.sched.split then .wait s
    else
      match s.checkScalar (s.whoOf s.sched.core g) addr n .rd with
      | .error e => stopScalar addr s e
      | .ok gs =>
        if !g.roomFor true || s.farBusy s.sched.core s.sched.slot s.sched.split (placeOf gs) then .wait s
        else
          let r := (s.missWalks (s.whoOf s.sched.core g) [addr]).segsRead s.sched.core gs
          let v := leNat r.2
          let s1 := r.1.scalarAccess true false d (if narrow then 4 else 6) (placeOf gs)
            (if narrow then sext (BitVec.ofNat 32 v) else BitVec.ofNat 64 v) (.get n)
          .done (s1.modSplit s.curKey s.sched.split Split.advance)) s
/-- STS and STW: the low `n` bytes of s[d] (R141). -/
def scalarStore (d a : SReg) (disp : BitVec 16) (narrow : Bool) (s : State) : Out :=
  runScalar true (fun s g sp =>
    let n := if narrow then 4 else 8
    let addr := dispAddr sp a disp
    let bs := bytesOf n (sp.reg d).toNat
    if !g.memIssued s.sched.split then .wait s
    else
      match s.checkScalar (s.whoOf s.sched.core g) addr n .wr with
      | .error e => stopScalar addr s e
      | .ok gs =>
        if !g.roomFor false || s.farBusy s.sched.core s.sched.slot s.sched.split (placeOf gs) then .wait s
        else
          let s1 := ((s.missWalks (s.whoOf s.sched.core g) [addr]).segsWrite s.sched.core gs bs).scalarAccess false false 0 (if narrow then 4 else 6) (placeOf gs) 0 (.put bs)
          .done (s1.modSplit s.curKey s.sched.split Split.advance)) s

def execLds (d a : SReg) (disp : BitVec 16) (s : State) : Out := scalarLoad d a disp false s
def execLdw (d a : SReg) (disp : BitVec 16) (s : State) : Out := scalarLoad d a disp true s
def execSts (d a : SReg) (disp : BitVec 16) (s : State) : Out := scalarStore d a disp false s
def execStw (d a : SReg) (disp : BitVec 16) (s : State) : Out := scalarStore d a disp true s

/-! ### Scalar atomics (R142) -/

/-- A scalar atomic: `up` gives the new value from the old, `cu` the operation of a commutative use, `op` what another rank's home is
asked. A synchronising use is checked against the line's scope, releases before and acquires after (R270, R281). -/
def scalarAtomic (ok : Bool) (d a : SReg) (scope : BitVec 2) (use : BitVec 3) (t : BitVec 4)
    (up : Split → Nat → Option Nat) (cu : Nat) (operand : Split → Nat) (op : Split → HomeOp) (s : State) : Out :=
  runScalar ok (fun s g sp =>
    let core := s.sched.core
    let k := s.sched.split
    let addr := sp.reg a
    let n := bytesIn t
    let load := d != 0
    if !g.memIssued k || (releases use && !g.issued k) then .wait s
    else
      match s.checkScalar (s.whoOf core g) addr n .atom with
      | .error e => stopScalar addr s e
      | .ok gs =>
        let p := placeOf gs
        let sc := actScope scope p
        if syncUse use && !s.scopePass core sc p then .trap (Trap.at_ cScope addr)
        else if !g.roomFor load || s.farBusy core s.sched.slot k p then .wait s
        else
          match if releases use then s.releaseFor k sc else .ok s with
          | .error s1 => .wait s1
          | .ok s0 =>
            let s1 := s0.missWalks (s.whoOf core g) [addr]
            let wide := fun v : Nat => if n = 4 then sext (BitVec.ofNat 32 v) else BitVec.ofNat 64 v
            match p with
            | .remote rank region off =>
              if syncUse use then
                let ask : Ask := { lane := 0, rank := rank, region := region, off := off, op := op sp }
                let r := (s1.keepForget core s.sched.slot k ask).sendAsks core (.split core s.sched.slot k) t none [ask]
                let tk := ((r.2.head?).map (·.2)).getD 0
                let acc : Access := { load := load, lane := false, split := k, sreg := if load then some d else none,
                                      parts := if load then [{ lane := 0, slot := 0, wide := true, value := 0, ticket := some tk }] else [],
                                      acks := if load then [] else [tk], reach := s.reachOf core p, nord := false }
                .wait ((r.1.issueAccess s.curKey acc).modSplit s.curKey k fun x => { x with status := .reply tk d (n == 4) })
              else .done ((s1.scalarAccess load (use == 2) d t p 0 (op sp)).modSplit s.curKey k Split.advance)
            | _ =>
              let r : State × Nat := match p with
                | .mem pa => if use = 1 then ((s1.cuUpdate core pa t cu (operand sp)).1, 0) else s1.rmw core p n sc (up sp)
                | _ => s1.rmw core p n sc (up sp)
              let s2 := if syncUse use then r.1.scopeMark core sc p else r.1
              let s3 := if acquires use then s2.acquire s.curKey k sc else s2
              .done ((s3.scalarAccess load (use == 2) d t p (wide r.2) (op sp)).modSplit s.curKey k Split.advance)) s

/-- SATOM. -/
def execSatom (d a b : SReg) (scope : BitVec 2) (use : BitVec 3) (narrow : BitVec 1) (op : BitVec 4) (s : State) : Out :=
  let f := satomOp (narrow == 1) op.toNat
  scalarAtomic (scalarOk (.satom d a b scope use narrow op)) d a scope use f.1
    (fun sp old => some (atomicOp f.1 f.2 old ((sp.reg b).toNat % 2 ^ widthOf f.1)).bits) f.2
    (fun sp => (sp.reg b).toNat % 2 ^ widthOf f.1)
    (fun sp => .atom (BitVec.ofNat 4 f.2) f.1 use scope (sp.reg b)) s
/-- SCAS: with d = 0 the expected value is 0. -/
def execScas (d a b : SReg) (scope : BitVec 2) (use : BitVec 3) (narrow : BitVec 1) (s : State) : Out :=
  let t : BitVec 4 := if narrow = 1 then 4 else 6
  let w := 2 ^ widthOf t
  scalarAtomic (scalarOk (.scas d a b scope use narrow)) d a scope use t
    (fun sp old => if old = (sp.reg d).toNat % w then some ((sp.reg b).toNat % w) else none) 0 (fun _ => 0)
    (fun sp => .cas t use scope (sp.reg d) (sp.reg b)) s

/-! ### Window spills (R36, R148) -/

/-- Addresses of a slot's line and of its pending word (R36). -/
def spillLine (spb : DWord) (k : Nat) : DWord := spb + BitVec.ofNat 64 (128 * k)
def spillWord (spb : DWord) (k : Nat) : DWord := spb - 64 - BitVec.ofNat 64 (8 * k)
/-- The bytes of a slot's line and of its pending word. -/
def Group.lineBytes (g : Group) (k : Nat) : List Byte := lanes32.flatMap fun i => bytesOf 4 (g.slotVal k i).toNat
def Group.pendBytes (g : Group) (k : Nat) : List Byte := bytesOf 4 (g.pmask k).toNat ++ bytesOf 4 (g.lmask k).toNat
/-- Write bytes for a group at an address, with the checks of R141. -/
def State.spillOut (s : State) (w : Who) (addr : DWord) (bs : List Byte) : Except (Stop × Bool) State :=
  (s.checkScalar w addr bs.length .wr).map fun gs => (s.missWalks w [addr]).segsWrite w.core gs bs
def State.spillIn (s : State) (w : Who) (addr : DWord) (n : Nat) : Except (Stop × Bool) (State × List Byte) :=
  (s.checkScalar w addr n .rd).map fun gs => (s.missWalks w [addr]).segsRead w.core gs
/-- WSPILL's slots in ascending order: where one stops, what was written stays written. -/
def spillSlots (w : Who) (g : Group) : List Nat → State → State × Option (DWord × (Stop × Bool))
  | [], s => (s, none)
  | k :: ks, s =>
    let la := spillLine g.csrs.spb k
    let wa := spillWord g.csrs.spb k
    match s.spillOut w la (g.lineBytes k) with
    | .error e => (s, some (la, e))
    | .ok s1 =>
      match s1.spillOut w wa (g.pendBytes k) with
      | .error e => (s1, some (wa, e))
      | .ok s2 => spillSlots w g ks s2
/-- WFILL's slots: the state and, by slot, the line and the word; or where it stops. -/
def fillSlots (w : Who) (spb : DWord) : List Nat → State → Except (DWord × (Stop × Bool)) (State × List (Nat × List Byte × List Byte))
  | [], s => .ok (s, [])
  | k :: ks, s =>
    match s.spillIn w (spillLine spb k) 128 with
    | .error e => .error (spillLine spb k, e)
    | .ok l =>
      match l.1.spillIn w (spillWord spb k) 8 with
      | .error e => .error (spillWord spb k, e)
      | .ok p => (fillSlots w spb ks p.1).map fun r => (r.1, (k, l.2, p.2) :: r.2)
/-- A slot from its line and its pending word. -/
def Group.fillSlot (g : Group) (x : Nat × List Byte × List Byte) : Group :=
  let g1 := lanes32.foldl (fun a i => a.setSlot x.1 i (BitVec.ofNat 32 (field x.2.1 (4 * i) 4))) g
  (g1.setP x.1 (BitVec.ofNat 32 (field x.2.2 0 4))).setL x.1 (BitVec.ofNat 32 (field x.2.2 4 4))
/-- What a spill or fill that stops at an address comes to, from the state it leaves. -/
def stopSpill (s : State) (x : DWord × (Stop × Bool)) : Res :=
  match x.2.1 with
  | .trap c => .wait (s.trapScalar { Trap.at_ c x.1 with poison := x.2.2 })
  | .stall => .wait s
/-- The checks WSPILL and WFILL share; `m` has the effect on the slots f to f + n − 1. -/
def runSpill (a b : SReg) (m : State → Group → Split → List Nat → Res) (s : State) : Out :=
  runScalar true (fun s g sp =>
    let f := (sp.reg a).toNat
    let n := (sp.reg b).toNat
    if !g.allLaneDone then .wait s
    else if 512 < f + n then .trap (Trap.of cIllegal)
    else if !((upFrom f n).all g.resident) then .trap (Trap.of cIllegal)
    else if n = 0 then .done (s.put g sp.advance)
    else m s g sp (upFrom f n)) s

/-- WSPILL. -/
def execWspill (a b : SReg) (s : State) : Out :=
  runSpill a b (fun s g _ ks =>
    match spillSlots (s.whoOf s.sched.core g) g ks s with
    | (s1, some x) => stopSpill s1 x
    | (s1, none) => .done (s1.modSplit s.curKey s.sched.split Split.advance)) s
/-- WFILL. -/
def execWfill (a b : SReg) (s : State) : Out :=
  runSpill a b (fun s g _ ks =>
    match fillSlots (s.whoOf s.sched.core g) g.csrs.spb ks s with
    | .error x => stopSpill s x
    | .ok r => .done (((r.1.modGroup s.curKey fun x => r.2.foldl Group.fillSlot x).modSplit s.curKey s.sched.split Split.advance))) s

/-! ### Completion (R156) -/

/-- Whether an access waits for no other rank. -/
def Access.answered (a : Access) : Bool := a.acks.isEmpty && a.parts.all fun p => p.ticket.isNone
/-- Write an access's values to their slots or register (R42, R156). A lane killed after its load was issued is written too (log entry
84). -/
def Group.landAccess (g : Group) (a : Access) : Group :=
  if a.lane then
    a.parts.foldl (fun x p =>
      let y := x.setSlot p.slot p.lane (p.value.setWidth 32)
      if p.wide then y.setSlot (p.slot + 1) p.lane ((p.value >>> 32).setWidth 32) else y) g
  else
    match a.sreg, a.parts with
    | some d, p :: _ => g.modSplit a.split fun sp => sp.setReg d p.value
    | _, _ => g
/-- The access leaves its class. -/
def Group.dropAccess (g : Group) (id : Nat) (a : Access) : Group :=
  g.modAsync fun x => { x with access := amDel x.access id, loads := if a.load then x.loads - 1 else x.loads,
                               stores := if a.load then x.stores else x.stores - 1 }
/-- MEMORY_ACCESS_COMPLETE: every lane's value is written, or every byte is performed. -/
def execMemoryAccessComplete (core slot access : Nat) (s : State) : Out :=
  match s.group (gkey core slot) with
  | none => .next s
  | some g =>
    match amGet g.async.access access with
    | none => .next s
    | some a => .next (if a.answered then s.putGroup (gkey core slot) ((g.landAccess a).dropAccess access a) else s)

end Sys2Proof.Machine
end

