-- ==== Sys2Proof/Machine/CoreMem.lean ====
section
/-! DEFINITION. Code overlays (R176, R177), the record fence (R181), pins (R182) and L2 fills (R257). -/
namespace Sys2Proof.Machine

/-! ### CFETCH (R177) -/

/-- Local memory or own-rank global memory. -/
def State.ownMemory (s : State) (addr : DWord) : Bool :=
  decide (addr.toNat < 2 ^ 57) || (decide (2 ^ 63 ≤ addr.toNat) && addr.toNat / 2 ^ 43 % 2 ^ 20 == s.dev.rank)
/-- What a code image read finds: its bytes, a fault that stops it, or nothing yet. -/
inductive CodeRead where
  | bytes (s : State) (bs : List Byte)
  | stop (c : Byte) (poison : Bool)
  | later
deriving DecidableEq, Repr
/-- Read the 8,192 bytes of an image: as ordinary loads of a core, or at the homes. -/
def State.readCode (s : State) (w : Who) (image : DWord) (viaL1 : Bool) : CodeRead :=
  let ps := s.resolveParts w image 8192 .rd
  if anyProtect ps || anyFmt (okSegs ps) then .stop cProtect false
  else
    match gather ps with
    | .error _ => .later
    | .ok gs =>
      if s.touchesPoison gs then .stop cProtect true
      else let r := if viaL1 then s.segsRead w.core gs else s.segsHomeRead gs; .bytes r.1 r.2
/-- Start loading a slot. -/
def State.startLoad (s : State) (core slot : Nat) (x : CodeSlot) : State :=
  (s.setCodeSlot core slot { x with state := .loading, failed := false }).wakeUp (.overlayLanded core slot)
/-- Whether another launch that has a team on the core owns a slot. -/
def State.ownedByOther (s : State) (owner : Option Nat) (launch core : Nat) : Bool :=
  match owner with
  | some l => l != launch && s.hasTeam l core
  | none => false
/-- CFETCH: the image is read as loads issued now; a page that is missing is read when it is mapped. -/
def execCfetch (a : SReg) (k : BitVec 3) (slot : BitVec 5) (s : State) : Out :=
  runScalar (scalarOk (.cfetch a k slot)) (fun s g sp =>
    let core := s.sched.core
    let addr := sp.reg a
    let c := s.codeSlot core slot.toNat
    let w := s.whoOf core g
    if addr.toNat % 128 != 0 then .trap (Trap.at_ cAlign addr)
    else if !s.ownMemory addr then .trap (Trap.at_ cProtect addr)
    else if s.ownedByOther c.owner g.launch core then .trap (Trap.at_ cProtect addr)
    else if c.state == .loading || !g.memIssued s.sched.split then .wait s
    else if decide (255 ≤ g.token k.toNat) || decide (4095 ≤ g.async.copies) then .wait s
    else
      let go := fun (s1 : State) (bs : List Byte) =>
        let x : CodeSlot := { state := .loading, image := some addr, owner := some g.launch, asid := w.asid,
                              fetch := some (s.sched.slot, (s.serial s.curKey).toNat, k.toNat), bytes := bs, failed := false }
        Res.done (((s1.startLoad core slot.toNat x).modGroup s.curKey fun y => (y.tokenUp k.toNat).copyUp).modSplit s.curKey
          s.sched.split Split.advance)
      match s.readCode w addr true with
      | .stop e p => .trap { Trap.at_ e addr with poison := p }
      | .bytes s1 bs => go s1 bs
      | .later => go s []) s

/-- The slot's words in instruction memory. -/
def Core.putCode (c : Core) (slot : Nat) (bs : List Byte) : Core :=
  let lo := slot * 8192
  let new := ((upFrom lo 8192).zip bs).filter fun x => x.2 != 0
  { c with imem := (c.imem.filter fun x => decide (x.1 < lo)) ++ new ++ c.imem.filter fun x => decide (lo + 8192 ≤ x.1) }
/-- The slot has landed (R176); the CFETCH's token and class count fall. -/
def State.landCode (s : State) (core slot : Nat) (x : CodeSlot) (bs : List Byte) : State :=
  let s1 := (s.modCore core fun c => c.putCode slot bs).setCodeSlot core slot { x with state := .landed, fetch := none, bytes := [] }
  match x.fetch with
  | some (g, serial, token) => s1.copyEnd (gkey core g) (BitVec.ofNat 16 serial) token
  | none => s1
/-- An unresolvable fault of a load: its launch's fault domain learns of it, and the slot stays loading (R177). -/
def State.failCode (s : State) (core slot : Nat) (x : CodeSlot) (c : Byte) : State :=
  let s1 := s.setCodeSlot core slot { x with failed := true }
  match x.owner with
  | some l => s1.escalateLaunch l c ((x.image.map (·.toNat)).getD 0)
  | none => s1
/-- OVERLAY_LANDED: the bytes read at issue enter the slot; a load that met a missing page reads once the page is mapped. -/
def execOverlayLanded (core slot : Nat) (s : State) : Out :=
  let x := s.codeSlot core slot
  if x.state != .loading || x.failed then .next s
  else if x.bytes.length = 8192 then .next (s.landCode core slot x x.bytes)
  else
    match x.image with
    | none => .next s
    | some image =>
      let l := x.owner.getD 0
      let w : Who := { core := core, team := none, launch := l, asid := x.asid, tlb := x.fetch.isSome }
      match s.readCode w image x.fetch.isSome with
      | .bytes s1 bs => .next (s1.landCode core slot x bs)
      | .stop c _ => .next (s.failCode core slot x c)
      | .later =>
        let rcb := ((s.launch l).map (·.rcb)).getD 0
        let r := s.serveRange (dieOf core) image.toNat 8192 l x.asid rcb (.code core slot)
        match r.2 with
        | some false => .next (r.1.failCode core slot x cPage)
        | _ => .next r.1

/-! ### RFENCE (R181) -/

/-- RFENCE: once the split's stores are performed, the core's record cache is emptied; lines of records at other ranks that uses not yet
issued have asked for are asked for again. -/
def execRfence (s : State) : Out :=
  runScalar true (fun s g _ =>
    let k := s.sched.split
    if !g.memIssued k || g.outstanding k (fun a => !a.load) then .wait s
    else .done ((s.modCore s.sched.core fun c => { c with records := [], fences := c.fences + 1 }).modSplit s.curKey k Split.advance)) s

/-! ### Pins (R182) -/

/-- The lines of a segment. -/
def Seg.lines (g : Seg) : List Nat :=
  match g.place, g.fmt with
  | .mem pa, none => upFrom (pa / 128) ((pa + g.len - 1) / 128 + 1 - pa / 128)
  | .mem pa, some fm => formatLines pa g.len fm
  | _, _ => []
/-- The number of pinned lines of each slice. -/
def State.slicePins (s : State) : AMap Nat :=
  s.mem.pins.foldl (fun m x => amSet m (s.homeOf x.1) ((amGet m (s.homeOf x.1)).getD 0 + 1)) []
/-- Whether a set of lines can all be pinned once more. -/
def State.pinRoom (s : State) (lines : NSet) : Bool :=
  let fresh := lines.filter fun l => (amGet s.mem.pins l.1).isNone
  let after := fresh.foldl (fun m x => amSet m (s.homeOf x.1) ((amGet m (s.homeOf x.1)).getD 0 + 1)) s.slicePins
  lines.all (fun l => decide (s.mem.pinCount l.1 < 255))
    && fresh.all fun l => decide ((amGet after (s.homeOf l.1)).getD 0 ≤ 16384)
/-- Pin a line once for a launch. -/
def Mem.pinLine (m : Mem) (launch line : Nat) : Mem :=
  let p := (amGet m.pins line).getD []
  { m with pins := amSet m.pins line (amSet p launch ((amGet p launch).getD 0 + 1)), l2 := nsAdd m.l2 line }
/-- Unpin a line once: the launch's own count, else another launch's (log entry 15). -/
def Mem.unpinLine (m : Mem) (launch line : Nat) : Mem :=
  match amGet m.pins line with
  | none => m
  | some p =>
    let who := if (amGet p launch).isSome then launch else ((p.head?).map (·.1)).getD launch
    let n := (amGet p who).getD 0
    let p1 := if n ≤ 1 then amDel p who else amSet p who (n - 1)
    if p1.isEmpty then { m with pins := amDel m.pins line, pinPages := amDel m.pinPages line }
    else { m with pins := amSet m.pins line p1 }
/-- Note the page through which a line is pinned. -/
def Mem.pinPage (m : Mem) (asid page line : Nat) : Mem :=
  let l := (amGet m.pinPages line).getD []
  if l.contains (asid, page) then m else { m with pinPages := amSet m.pinPages line (l ++ [(asid, page)]) }
/-- Key of a page in `pinFrames`. -/
def pinKey (asid page : Nat) : Nat := asid * 2 ^ 41 + page
/-- A page of an UNPIN whose translation is gone (R182, R305, R307): the frame it was pinned in, where a pin made through it still stands;
nothing, where the range is being shot down or was revoked. -/
def State.unpinPart (s : State) (w : Who) (asid : Nat) (p : Nat × Nat) : Except Stop Seg :=
  match s.localPart w asid .any p with
  | .ok g => .ok g
  | .error .stall => .error .stall
  | .error (.trap c) =>
    let page := p.1 / 65536
    if c == cProtect then .error (.trap c)
    else
      match amGet s.mem.pinFrames (pinKey asid page) with
      | some x => if s.mem.pinPages.any fun y => y.2.contains (asid, page) then
            .ok { place := .mem (x.1 + p.1 % 65536), len := p.2, va := p.1, fmt := x.2 }
          else if c == cRevoked || s.shooting asid p.1 == some false then .ok { place := .window 0, len := 0, va := p.1, fmt := none }
          else .error (.trap c)
      | none => if c == cRevoked || s.shooting asid p.1 == some false then .ok { place := .window 0, len := 0, va := p.1, fmt := none }
          else .error (.trap c)
/-- The parts of an UNPIN's range. -/
def State.unpinParts (s : State) (w : Who) (addr : DWord) (n : Nat) : List (Except Stop Seg) :=
  let ps := s.resolveParts w addr n .any
  match gather ps with
  | .ok _ => ps
  | .error _ =>
    if anyProtect ps then ps
    else
      match s.localVA w.asid addr.toNat with
      | some v => (pageParts v.2 n).map fun p => s.unpinPart w v.1 p
      | none => ps
/-- The address space a range of a group lies in. -/
def State.rangeAsid (s : State) (w : Who) (addr : DWord) : Nat := ((s.localVA w.asid addr.toNat).map (·.1)).getD w.asid
/-- The checks PIN and UNPIN share, over the parts of the range; `m` has the effect on its segments. -/
def runPin (parts : State → Who → DWord → Nat → List (Except Stop Seg)) (a b : SReg)
    (m : State → Group → Nat → List Seg → Option State) (s : State) : Out :=
  runScalar true (fun s g sp =>
    let addr := sp.reg a
    let n := (sp.reg b).toNat
    let w := s.whoOf s.sched.core g
    let go := fun s1 : State => Res.done (s1.modSplit s.curKey s.sched.split Split.advance)
    if n = 0 then go s
    else if 2 ^ 30 < n then .trap (Trap.of cIllegal)
    else
      let ps := parts s w addr n
      if anyProtect ps || (okSegs ps).any (fun x => x.isRemote || x.isScratch) then .trap (Trap.at_ cProtect addr)
      else
        match gather ps with
        | .error e => stopScalar (s.badAddr w addr n .any) s (e, false)
        | .ok gs =>
          match m s g (s.rangeAsid w addr) gs with
          | none => .trap (Trap.at_ cProtect addr)
          | some s1 => go s1) s
/-- The lines of a range's segments. -/
def segsLines (gs : List Seg) : NSet := gs.foldl (fun x y => y.lines.foldl nsAdd x) []
/-- Note the frame a page's lines are pinned in. -/
def Mem.pinFrame (m : Mem) (asid : Nat) (g : Seg) : Mem :=
  match g.place with
  | .mem pa => { m with pinFrames := amSet m.pinFrames (pinKey asid (g.va / 65536)) (pa / 65536 * 65536, g.fmt) }
  | _ => m
/-- PIN: each line is brought into its home slice and counted. -/
def execPin (a b : SReg) (s : State) : Out :=
  runPin (fun s w addr n => s.resolveParts w addr n .any) a b (fun s g asid gs =>
    let ls := segsLines gs
    if s.pinRoom ls then
      let s1 := ls.foldl (fun (x : State) l => x.l2Touch l.1) s
      some (s1.modMem fun m => gs.foldl (fun x y => y.lines.foldl (fun z l => z.pinPage asid (y.va / 65536) l) (x.pinFrame asid y))
        (ls.foldl (fun x l => x.pinLine g.launch l.1) m))
    else none) s
/-- UNPIN: a line whose translation is gone is unpinned where a pin made through its page still stands. -/
def execUnpin (a b : SReg) (s : State) : Out :=
  runPin State.unpinParts a b (fun s g asid gs =>
    let open_ := fun (y : Seg) => match s.leafOf (s.whoOf s.sched.core g) asid y.va with | .ok _ => true | .error _ => false
    let held := fun (y : Seg) (l : Nat) => open_ y || ((amGet s.mem.pinPages l).getD []).contains (asid, y.va / 65536)
    let ls := gs.foldl (fun x y => (y.lines.filter (held y)).foldl nsAdd x) []
    some (s.modMem fun m => ls.foldl (fun x l => x.unpinLine g.launch l.1) m)) s

/-! ### L2 fills (R257, R259) -/

/-- L2_MISS_FILL: the line is present at its home; the cores whose prefetch asked for it await its first demand access (R175). -/
def execL2MissFill (line : Nat) (s : State) : Out :=
  match amGet s.mem.msrs line with
  | none => .next s
  | some who =>
    let s1 := (s.l2Touch line).modMem fun m => { m with msrs := amDel m.msrs line }
    .next (who.foldl (fun a c => a.modCore c fun x => { x with l1 := { x.l1 with fetched := nsAdd x.l1.fetched line } }) s1)

end Sys2Proof.Machine
end

