-- ==== Sys2Proof/Machine/MatrixOps.lean ====
section
/-! DEFINITION. The matrix unit's parts: tile configuration (R185), A conversion (R188, R189), B elements (R190 to R192), accumulation
(R193, R194), the sequencer's queue and batches (R197, R200), and faults met after issue (R424). -/
namespace Sys2Proof.Machine

/-! ### Tile configuration (R185, R186) -/

/-- The word of a tile. -/
def Team.tileWord (t : Team) (tile : Nat) : Word := stGet 0 t.tcfg tile
def tileValid (w : Word) : Bool := w.getLsbD 31
def tileInt (w : Word) : Bool := w.getLsbD 30
def tileABits (w : Word) : Nat := bitsOf w.toNat 27 3 + 1
def tilePlanes (w : Word) : Nat := bitsOf w.toNat 24 3 + 1
def tileRound (w : Word) : BitVec 3 := BitVec.ofNat 3 (bitsOf w.toNat 21 3)
def tileRows (w : Word) : Nat := bitsOf w.toNat 9 8 + 1
def tileCols (w : Word) : Nat := bitsOf w.toNat 0 9 + 1
/-- The A element type as a type code of R16. -/
def tileAType (w : Word) : BitVec 4 :=
  match bitsOf w.toNat 18 3 with
  | 0 => 12
  | 1 => 11
  | 2 => 10
  | 3 => 0
  | 4 => 8
  | _ => 9
/-- Whether a word is one TCFG installs. -/
def tileOk (w : Word) : Bool :=
  if !tileValid w then w == 0
  else
    bitsOf w.toNat 27 3 != 0 && bitsOf w.toNat 24 3 != 0 && decide (bitsOf w.toNat 21 3 ≤ 4) && decide (bitsOf w.toNat 18 3 ≤ 5)
      && !w.getLsbD 17 && decide (tileCols w ≤ 384)
      && (!tileInt w || (bitsOf w.toNat 18 3 == 3 && tileABits w == 8 && tilePlanes w == 8))
/-- K-rows of a step (R183). -/
def tileKs (w : Word) : Nat := if 5 ≤ tilePlanes w then 256 else if 3 ≤ tilePlanes w then 512 else 1024
/-- The type of a tile's elements: f or i32. -/
def tileTy (w : Word) : BitVec 4 := if tileInt w then 4 else 12

/-- The key of an accumulator element. -/
def tileKey (tile r n : Nat) : Nat := tile * 2 ^ 17 + r * 2 ^ 9 + n
def Team.elem (t : Team) (tile r n : Nat) : Word := stGet 0 t.tiles (tileKey tile r n)
def Team.setElem (t : Team) (tile r n : Nat) (v : Word) : Team := { t with tiles := stSet 0 t.tiles (tileKey tile r n) v }
/-- Every element of a tile to 0. -/
def Team.zeroTile (t : Team) (tile : Nat) : Team := { t with tiles := t.tiles.filter fun x => x.1 / 2 ^ 17 != tile }

/-! ### The A operand (R188, R189) -/

/-- A row of values of a type. -/
def readRow (ty : BitVec 4) (bs : List Byte) (n : Nat) : List FVal :=
  (upFrom 0 n).map fun i =>
    let x := field bs (i * bytesIn ty) (bytesIn ty)
    if isFloat ty then (fmtOf ty).read x else let v := intVal ty x; .fin (decide (v < 0)) v.natAbs 0
/-- A converted K-block: none when poisoned, else eA and the 32 integers. -/
abbrev ABlock := Option (Int × List Int)
/-- The exponent of the largest magnitude of a block, none when all are 0. -/
def topExp (xs : List FVal) : Option Int :=
  xs.foldl (fun b x => match x with
    | .fin _ m e =>
      if m = 0 then b
      else
        let k : Int := (Nat.log2 m : Nat) + e
        match b with
        | some y => some (if y < k then k else y)
        | none => some k
    | _ => b) none
/-- Convert a K-block (R189). -/
def convertBlock (w : Word) (xs : List FVal) : ABlock :=
  if tileInt w then some (0, xs.map fun x => match x with | .fin n m _ => if n then -(m : Int) else m | _ => 0)
  else if xs.any fun x => x.isNan || x.isInf then none
  else
    match topExp xs with
    | none => some (0, xs.map fun _ => 0)
    | some e =>
      let eA := e - ((tileABits w : Int) - 2)
      let hi : Int := 2 ^ (tileABits w - 1)
      some (eA, xs.map fun x => match x with
        | .fin n m k =>
          let q := (intOf (tileRound w) n m (k - eA)).1
          if q < -hi then -hi else if hi - 1 < q then hi - 1 else q
        | _ => 0)
/-- Consecutive groups of 32. -/
def blocks32 : Nat → List FVal → List (List FVal)
  | 0, _ => []
  | k + 1, xs => xs.take 32 :: blocks32 k (xs.drop 32)
def convertRow (w : Word) (xs : List FVal) : List ABlock := (blocks32 (tileKs w / 32) xs).map (convertBlock w)

/-! ### The B operand (R190 to R192) -/

/-- Where an in-bounds element of B lies. -/
inductive BPlace where
  /-- The scratchpad image (R191): offset of the image in the scratchpad, and offset of the element in it. -/
  | image (base x : Nat)
  | page (pa : Nat) (fm : Nat × Nat × Nat)
  | byte (addr : DWord)
  /-- A bp element at another rank (R354). -/
  | far
deriving DecidableEq, Repr
/-- The record with another base. -/
def withBase (b : List Byte) (base : Nat) : List Byte := setField b 8 8 (base % 2 ^ 64)
def inScratchWindow (a : Nat) : Bool := a / 2 ^ 24 == 2 ^ 38
/-- The record checks of R190 that need no page. A scratchpad base must be a multiple of 128; only the base of the record is tested (log
entry 88). -/
def bRecordOk (b : List Byte) : Bool :=
  (recFormat b == 13 || recFormat b == 0) && recDims b == 2
    && (recFormat b != 13 || (recStride b 0 == 1 && recStride b 1 % 32 == 0 && recBase b % 32 == 0 && recOrigin b 0 % 32 == 0))
    && (recFormat b != 13 || !inScratchWindow (recBase b) || recBase b % 128 == 0)
/-- The in-bounds elements of a step: (n, k, address) (R190, R192). -/
def bElems (b : List Byte) (ks cols : Nat) : List (Nat × Nat × DWord) :=
  (upFrom 0 (Nat.min cols (recExt b 1))).flatMap fun (n : Nat) =>
    (upFrom 0 (Nat.min ks (recExt b 0))).filterMap fun (k : Nat) =>
      let c := [recOrigin b 0 + k, recOrigin b 1 + n]
      if recIn b c then some (n, k, recAddr b c) else none
/-- Bytes of a team's scratchpad. -/
def Team.scratchSize (t : Team) : Nat := partScr t.part * 16384
/-- Find one element (R190): PROTECT for a page of the wrong kind, or PAGE and the like. -/
def State.bPlace (s : State) (w : Who) (b : List Byte) (a : DWord) : Except Stop BPlace :=
  let bp := recFormat b == 13
  if bp && inScratchWindow (recBase b) then
    let base := recBase b % 2 ^ 24
    let x := (a - BitVec.ofNat 64 (recBase b)).toNat
    let size := ((w.team.bind s.team).map Team.scratchSize).getD 0
    if base + 1152 * (x / 1024) + 1026 + 2 * (x % 1024 / 32) ≤ size then .ok (.image base x) else .error (.trap cProtect)
  else
    match s.resolve w a 1 .rd with
    | .error e => .error e
    | .ok [{ place := .mem pa, len := _, va := _, fmt := some fm }] => if bp then .ok (.page pa fm) else .error (.trap cProtect)
    | .ok gs => if !bp then .ok (.byte a) else if gs.any Seg.isRemote then .ok .far else .error (.trap cProtect)
/-- What the issue checks find in a step's elements: the first PROTECT, else the first other stop. -/
def State.bStop (s : State) (w : Who) (b : List Byte) (es : List (Nat × Nat × DWord)) : Option (DWord × Stop) :=
  let bad := es.filterMap fun e => match s.bPlace w b e.2.2 with | .ok _ => none | .error x => some (e.2.2, x)
  (bad.find? fun x => stopRank x.2 == 0).or bad.head?
/-- The base's own check (R190): the base of a bp record at `ra` lies in a format page or in the scratchpad window. -/
def State.bBase (s : State) (w : Who) (ra : DWord) (b : List Byte) : Option (DWord × Stop) :=
  if recFormat b != 13 || inScratchWindow (recBase b) then none
  else
    let a := BitVec.ofNat 64 (recBase b)
    match s.resolve w a 1 .rd with
    | .error (.trap e) => some (if e == cPage || e == cRevoked then a else ra, .trap e)
    | .error .stall => some (a, .stall)
    | .ok [{ place := .mem _, len := _, va := _, fmt := some _ }] => none
    | .ok gs => if gs.any Seg.isRemote then none else some (ra, .trap cProtect)
/-- Read an element: the scale code and value_p (R192); `far` holds the bytes that came from another rank. -/
def State.bRead (s : State) (w : Who) (planes : Nat) (far : AMap (List Byte)) (key : Nat) : BPlace → State × Nat × Int
  | .image base x =>
    let bs := (s.scratchRead (w.team.getD 0) (base + 1152 * (x / 1024)) 1152)
    let raw := (upFrom 0 planes).foldl (fun v i => v + bitsOf (field bs (128 * i + x % 1024 / 8) 1) (x % 8) 1 * 2 ^ (7 - i)) 0
    (s, field bs (1024 + 2 * (x % 1024 / 32)) 2, planeVal planes raw)
  | .page pa fm =>
    let p := Nat.min planes fm.2.1
    let r := s.readElem w.core pa fm p
    (r.1, r.2.2, planeVal p r.2.1)
  | .byte a =>
    match s.resolve w a 1 .rd with
    | .ok gs =>
      if gs.any Seg.isRemote then (s, 0x3F80, planeVal planes (leNat ((amGet far key).getD [])))
      else let r := s.segsRead w.core gs; (r.1, 0x3F80, planeVal planes (leNat r.2))
    | .error _ => (s, 0x3F80, 0)
  | .far =>
    let bs := (amGet far key).getD []
    (s, field bs 2 2, planeVal (Nat.min planes (field bs 4 1 % 16)) (field bs 0 1))
/-- What is asked of another rank for an element of B: a byte of an i8 record, the element, its scale and its page's planes of a bp one. -/
def bAsk (b : List Byte) : HomeOp := if recFormat b = 13 then .getFormat 13 none 0 0 else .get 1
/-- Whether an element must wait to be translated, and the first element that cannot be read, with its cause (R424). -/
def State.bWaits (s : State) (w : Who) (b : List Byte) (es : List (Nat × Nat × DWord)) : Bool :=
  es.any fun e => match s.bPlace w b e.2.2 with | .error .stall => true | _ => false
def State.bFault (s : State) (w : Who) (b : List Byte) (planes : Nat) (es : List (Nat × Nat × DWord)) : Option (Byte × DWord) :=
  es.findSome? fun e => match s.bPlace w b e.2.2 with
    | .error (.trap c) => some (c, e.2.2)
    | .ok (.page pa fm) =>
      if (formatLines pa 1 (fm.1, Nat.min planes fm.2.1, fm.2.2)).any (nsHas s.mem.poison) then some (cProtect, e.2.2) else none
    | .ok (.byte y) => (match s.checkBytes w y 1 .rd with | .error (.trap c, _) => some (c, y) | _ => none)
    | _ => none
/-- Keys of B elements that another rank answers. -/
def bKey (n k : Nat) : Nat := n * 1024 + k
/-- Put an element into the columns. -/
def addB (cols : List (List (Nat × List (Nat × Int)))) (n k code : Nat) (v : Int) : List (List (Nat × List (Nat × Int))) :=
  (cols.zip (upFrom 0 cols.length)).map fun c =>
    if c.2 = n then
      (c.1.zip (upFrom 0 c.1.length)).map fun b =>
        if b.2 = k / 32 then (if b.1.2.isEmpty then code else b.1.1, b.1.2 ++ [(k, v)]) else b.1
    else c.1
/-- Load a step's B into the macros: by column and K-block, the scale code and the elements. -/
def State.loadB (s : State) (w : Who) (b : List Byte) (planes ks cols : Nat) (far : AMap (List Byte)) :
    State × List (List (Nat × List (Nat × Int))) :=
  let empty := (upFrom 0 cols).map fun _ => (upFrom 0 (ks / 32)).map fun _ => ((0x3F80 : Nat), ([] : List (Nat × Int)))
  (bElems b ks cols).foldl (fun (a : State × List (List (Nat × List (Nat × Int)))) e =>
    match a.1.bPlace w b e.2.2 with
    | .error _ => a
    | .ok p =>
      let r := a.1.bRead w planes far (bKey e.1 e.2.1) p
      (r.1, addB a.2 e.1 e.2.1 r.2.1 r.2.2)) (s, empty)

/-! ### Accumulation (R193, R194) -/

/-- One K-block's contribution to one accumulator element, with its flags. -/
def contribution (a : ABlock) (blk : Nat × List (Nat × Int)) : Num :=
  match a with
  | none => { bits := fmtF.nan, ff := fNV, fi := 0 }
  | some (eA, qs) =>
    match scaleVal blk.1 with
    | none => Num.pure fmtF.nan
    | some (m, x) =>
      let sum : Int := blk.2.foldl (fun t y => t + (qs[y.1 % 32]?).getD 0 * y.2) 0
      if m = 0 || sum = 0 then Num.pure 0
      else let r := fmtF.roundFin 0 false (decide (sum < 0)) (sum.natAbs * m) (eA + x); { r with ff := r.ff &&& fOF, fi := 0 }
/-- Accumulate a converted row into one element. -/
def accumulate (int : Bool) (acc : Word) (as : List ABlock) (col : List (Nat × List (Nat × Int))) : Word × BitVec 5 :=
  (as.zip col).foldl (fun (x : Word × BitVec 5) y =>
    if int then
      (match y.1 with
       | some (_, qs) => (x.1 + BitVec.ofInt 32 (y.2.2.foldl (fun t z => t + (qs[z.1 % 32]?).getD 0 * z.2) 0), x.2)
       | none => x)
    else
      let c := contribution y.1 y.2
      let r := fAdd 12 0 x.1.toNat c.bits
      (BitVec.ofNat 32 r.bits, x.2 ||| c.ff ||| (r.ff &&& (fNV ||| fOF)))) (acc, 0)
/-- Accumulate one A row into a tile's row. -/
def Team.accumRow (t : Team) (tile r : Nat) (as : List ABlock) (cols : List (List (Nat × List (Nat × Int)))) : Team × BitVec 5 :=
  let w := t.tileWord tile
  (cols.zip (upFrom 0 cols.length)).foldl (fun (x : Team × BitVec 5) c =>
    let e := accumulate (tileInt w) (x.1.elem tile r c.2) as c.1
    (x.1.setElem tile r c.2 e.1, x.2 ||| e.2)) (t, 0)

/-! ### The sequencer (R197, R200) -/

def State.engines (s : State) (core : Nat) : Engines := (s.core core).engines
def State.modEngines (s : State) (core : Nat) (f : Engines → Engines) : State :=
  s.modCore core fun c => { c with engines := f c.engines }
def MatKind.tile : MatKind → Option Nat
  | .mloop t _ _ _ _ _ | .tld t _ _ _ _ _ | .tst t _ _ _ _ _ | .rkmm t _ _ _ _ => some t
  | .rkval _ _ _ _ _ => none
def MatKind.usesTable (n : Nat) : MatKind → Bool
  | .rkmm _ _ _ t _ => t == n
  | .rkval _ _ _ _ t => t == n
  | _ => false
/-- Whether an operation of the team is still in the queue. -/
def State.teamBusy (s : State) (core team : Nat) : Bool := (s.engines core).matq.any fun o => o.team == team
/-- The event that carries the head of the queue on. -/
def MatOp.event (core : Nat) (o : MatOp) : Instr :=
  match o.kind with
  | .mloop _ _ _ n _ _ => if o.step < n && o.stop.isNone then .mloopStep core else .matrixOpComplete core
  | _ => .matrixOpComplete core
/-- A collective that has begun on a tile (R386). -/
def Team.collHolds (t : Team) (tile : Option Nat) : Bool :=
  t.colls.any fun c => c.started && (match tile with | some k => c.tile == k | none => true)
/-- Whether the macros hold a resident B (R213). -/
def MacroB.isOf (m : MacroB) (team : Nat) (b : ResidentB) : Bool :=
  m.team == team && m.record == b.record && m.planes == b.planes && m.cols.length == b.cols
/-- Issue an operation: it counts, joins its group's open batch and the core's queue. -/
def State.pushMat (s : State) (key : Nat) (g : Group) (pc : DWord) (k : MatKind) : State :=
  let core := key / 32
  let id := (s.engines core).nextOp
  let o : MatOp := { id := id, kind := k, team := g.team, launch := g.launch, slot := key % 32, serial := s.serial key, pc := pc,
                     step := 0, misses := 0, sent := false, wait := [], vals := [], stop := none }
  let s1 := s.modEngines core fun e => { e with matq := e.matq ++ [o], nextOp := e.nextOp + 1 }
  (s1.modGroup key fun g => g.tileUp.modCtl fun c => { c with openBatch := c.openBatch ++ [id] }).wakeUp (o.event core)
/-- Change the head. -/
def State.modHeadOp (s : State) (core : Nat) (f : MatOp → MatOp) : State :=
  s.modEngines core fun e => match e.matq with
    | [] => e
    | o :: rest => { e with matq := f o :: rest }
/-- The group that issued an operation, while it holds its slot. -/
def State.opGroup (s : State) (core slot : Nat) (serial : Half) : Option Group :=
  if s.serial (gkey core slot) = serial then s.group (gkey core slot) else none
/-- OR flags into the issuing group (R194, R199). -/
def State.opFlags (s : State) (core slot : Nat) (serial : Half) (ff : BitVec 5) (fi : BitVec 2) : State :=
  if (s.opGroup core slot serial).isSome then s.modGroup (gkey core slot) fun g => g.raise ff fi else s
/-- The core's matrix timeline over the batches that are complete (R200); what they wrote is performed at device scope. -/
def State.advanceMatrix (s : State) (core : Nat) : State :=
  let e := s.engines core
  let n := match e.batches with
    | [] => e.mtxLast
    | b :: _ => b.1 - 1
  if s.windowWord core = BitVec.ofNat 64 n then s else (s.writeBack core fun _ => true).setWindow core (BitVec.ofNat 64 n)
/-- The head is finished: it leaves its class, its batch and the queue. -/
def State.popMat (s : State) (core : Nat) (o : MatOp) : State :=
  let s1 := s.modEngines core fun e =>
    { e with matq := e.matq.drop 1,
             batches := amFilter (fun _ l => !l.isEmpty) (amMap (fun _ l => l.filter fun x => x != o.id) e.batches) }
  let s2 := if (s1.opGroup core o.slot o.serial).isSome then
      s1.modGroup (gkey core o.slot) fun g =>
        g.tileDown.modCtl fun c => { c with openBatch := c.openBatch.filter fun x => x != o.id }
    else s1
  let s3 := (s2.advanceMatrix core).wakeUp (.teamRetire o.team)
  match (s3.engines core).matq with
  | [] => s3
  | p :: _ => s3.wakeUp (p.event core)

/-! ### Faults met after issue (R424) -/

/-- The issuing group is stopped and escalated; a group that has retired leaves a report to the fault domain alone. -/
def State.lateFault (s : State) (core slot : Nat) (serial : Half) (team launch : Nat) (pc : DWord) (c : Byte) (addr : DWord) : State :=
  match s.opGroup core slot serial with
  | some _ => s.escalateGroup (gkey core slot) { cause := c, addr := addr, lane := false, split := 0, pc := pc, lp := 0 }
  | none =>
    match s.team team with
    | some t =>
      let packet := ((s.launch launch).map (·.packet.toNat)).getD 0
      s.escalateRcb t.asid t.rcb launch (evt 3 0 c packet 0 addr.toNat)
    | none => s.escalateLaunch launch c addr.toNat
/-- How an operation of a team accesses memory: as its group does, for the team's launch. -/
def State.opWho (s : State) (core team launch : Nat) : Who :=
  { core := core, team := some team, launch := launch, asid := ((s.launch launch).map (·.asid)).getD 0, tlb := true }
/-- Serve the pages of several ranges: true when all are there; false with the address that has no mapping; none to wait. -/
def State.serveAll (s : State) (w : Who) (wt : Waiter) : List (DWord × Nat) → State × Option (Option DWord)
  | [] => (s, some none)
  | (a, n) :: rest =>
    let rcb := ((w.team.bind s.team).map (·.rcb)).getD 0
    let r := s.serveRange (dieOf w.core) a.toNat n w.launch w.asid rcb wt
    match r.2 with
    | some true => r.1.serveAll w wt rest
    | some false => (r.1, some (some a))
    | none => (r.1, none)
/-- How many of the leading elements of a run pass the checks, and what stops the next. -/
def State.goodPrefix (s : State) (w : Who) (size : Nat) (need : Need) : Nat → DWord → Nat × Option (Byte × DWord)
  | 0, _ => (0, none)
  | n + 1, a =>
    match s.checkBytes w a size need with
    | .ok _ => let r := s.goodPrefix w size need n (a + BitVec.ofNat 64 size); (r.1 + 1, r.2)
    | .error (.trap c, _) => (0, some (c, a))
    | .error (.stall, _) => (0, some (cPage, a))
/-- Write the leading elements of a run of bytes that pass; what stopped the rest. -/
def State.writeRun (s : State) (w : Who) (size : Nat) (a : DWord) (bs : List Byte) : State × Option (Byte × DWord) :=
  let put := fun (n : Nat) => match s.resolve w a n .wr with
    | .ok gs => s.segsWrite w.core gs (bs.take n)
    | .error _ => s
  match s.checkBytes w a bs.length .wr with
  | .ok _ => (put bs.length, none)
  | .error _ =>
    let r := s.goodPrefix w size .wr (bs.length / size) a
    (if r.1 = 0 then s else put (r.1 * size), r.2)
/-- Read the leading elements of a run that pass; what stopped the rest. -/
def State.readRun (s : State) (w : Who) (size n : Nat) (a : DWord) : State × List Byte × Option (Byte × DWord) :=
  let get := fun (k : Nat) => match s.resolve w a k .rd with
    | .ok gs => s.segsRead w.core gs
    | .error _ => (s, [])
  match s.checkBytes w a (n * size) .rd with
  | .ok _ => let r := get (n * size); (r.1, r.2, none)
  | .error _ =>
    let r := s.goodPrefix w size .rd n a
    if r.1 = 0 then (s, [], r.2) else let x := get (r.1 * size); (x.1, x.2, r.2)

end Sys2Proof.Machine
end

