-- ==== Sys2Proof/Machine/Matrix.lean ====
section
/-! DEFINITION. The matrix unit's instructions and steps: TCFG, TZERO, TLD, TST, MFENCE, MLOOP, a step of the sequencer, the completion of
an operation, a macro error (R183 to R202, R424). -/
namespace Sys2Proof.Machine

/-! ### The frame -/

/-- A matrix instruction of the executing group's team; `m` is tried once the checks of its encoding pass. -/
def runMatrix (ok : Bool) (m : State → Group → Split → Team → Res) (s : State) : Out :=
  runScalar ok (fun s g sp =>
    match s.team g.team with
    | none => .trap (Trap.of cIllegal)
    | some t => m s g sp t) s
/-- The split goes on. -/
def State.stepOn (s : State) : State := s.modSplit s.curKey s.sched.split Split.advance
/-- Issue an operation that names a tile, when no collective holds the tile and the class has room (R156, R386). -/
def State.issueMat (s : State) (g : Group) (sp : Split) (t : Team) (k : MatKind) : Res :=
  if k.tile.any fun x => t.collHolds (some x) then .wait s
  else if 4095 ≤ g.async.tiles then .wait s
  else .done (s.pushMat s.curKey g sp.pc k).stepOn

/-! ### TCFG, TZERO (R186, R198) -/

/-- The scratchpad window, local memory or own-rank global memory. -/
def State.nearMemory (s : State) (addr : DWord) : Bool :=
  decide (addr.toNat < 2 ^ 57) || inScratchWindow addr.toNat
    || (decide (2 ^ 63 ≤ addr.toNat) && addr.toNat / 2 ^ 43 % 2 ^ 20 == s.dev.rank)
/-- An ordinary load of a split from near memory: its bytes, or what stops it. -/
def State.nearLoad (s : State) (w : Who) (addr : DWord) (n : Nat) : Except (DWord × (Stop × Bool)) (State × List Byte) :=
  if !s.nearMemory addr then .error (addr, (.trap cProtect, false))
  else
    match s.checkBytes w addr n .rd with
    | .ok gs => .ok (s.segsRead w.core gs)
    | .error e => .error (if e.1 == .trap cPage then s.badAddr w addr n .rd else addr, e)
/-- The 16 words of a configuration block. -/
def cfgWords (bs : List Byte) : List Word := (upFrom 0 16).map fun i => BitVec.ofNat 32 (field bs (4 * i) 4)
/-- Bytes of accumulator the valid tiles take. -/
def cfgBytes (ws : List Word) : Nat := ws.foldl (fun n w => if tileValid w then n + tileRows w * tileCols w * 4 else n) 0
/-- TCFG. -/
def execTcfg (a : SReg) (s : State) : Out :=
  runMatrix true (fun s g sp t =>
    let addr := sp.reg a
    let core := s.sched.core
    if addr.toNat % 64 != 0 then .trap (Trap.at_ cAlign addr)
    else if !g.memIssued s.sched.split then .wait s
    else
      match s.nearLoad (s.whoOf core g) addr 64 with
      | .error e => stopScalar e.1 s e.2
      | .ok (s1, bs) =>
        let ws := cfgWords bs
        if !ws.all tileOk || decide (16384 * partAcc t.part < cfgBytes ws) then .trap (Trap.of cTile)
        else if s.teamBusy core g.team || t.collHolds none then .wait s
        else
          let cfg := (upFrom 0 16).foldl (fun m i => stSet 0 m i ((ws[i]?).getD 0)) ([] : Store Word)
          .done (s1.modTeam g.team fun t => { t with tcfg := cfg, tiles := [], residentB := none }).stepOn) s
/-- TZERO: after the team's earlier operations. -/
def execTzero (tile : BitVec 4) (s : State) : Out :=
  runMatrix true (fun s g _ t =>
    let k := tile.toNat
    if !tileValid (t.tileWord k) then .trap (Trap.of cIllegal)
    else if t.collHolds (some k) || s.teamBusy s.sched.core g.team then .wait s
    else .done (s.modTeam g.team fun t => t.zeroTile k).stepOn) s

/-! ### TLD and TST (R199) -/

/-- The rows of a TLD or TST: address of each. -/
def tileRowsAt (addr : DWord) (stride rows : Nat) : List (Nat × DWord) :=
  (upFrom 0 rows).map fun r => (r, addr + BitVec.ofNat 64 (r * stride))
/-- What stops the issue of a TLD or TST: the first row of a forbidden class or page, else the first that does not translate. TAG_STORE
takes the place of PROTECT (log entry 90). -/
def State.rowStop (s : State) (w : Who) (need : Need) (n : Nat) (rows : List (Nat × DWord)) : Option (DWord × Stop) :=
  let bad := rows.filterMap fun r =>
    match s.checkBytes w r.2 n need with
    | .ok _ => none
    | .error (_, true) => none
    | .error (e, false) => some (if e == .trap cPage then s.badAddr w r.2 n need else r.2, e)
  (bad.find? fun x => x.2 == .trap cProtect || x.2 == .trap cTagStore).or bad.head?
/-- The types a tile's TLD and TST accept. -/
def rowTypeOk (w : Word) (ty : Nat) : Bool :=
  if tileInt w then ty == 0 || ty == 2 || ty == 4 else ty == 8 || ty == 9 || ty == 10 || ty == 11 || ty == 12
/-- The issue of TLD and TST. -/
def tileRowsOp (load : Bool) (i : Instr) (sat : BitVec 1) (a b : SReg) (rm : BitVec 3) (tile : BitVec 4) (s : State) : Out :=
  runMatrix (scalarOk i) (fun s g sp t =>
    let w := t.tileWord tile.toNat
    let desc := (sp.reg b).toNat
    let ty := bitsOf desc 32 4
    let size := bytesIn (BitVec.ofNat 4 ty)
    let stride := bitsOf desc 0 32
    let addr := sp.reg a
    if !tileValid w || bitsOf desc 36 28 != 0 || !rowTypeOk w ty || decide (5 ≤ rm) then .trap (Trap.of cIllegal)
    else if addr.toNat % size != 0 || stride % size != 0 then .trap (Trap.at_ cAlign addr)
    else
      match s.rowStop (s.whoOf s.sched.core g) (if load then .rd else .wr) (tileCols w * size)
          (tileRowsAt addr stride (tileRows w)) with
      | some (x, e) => stopScalar x s (e, false)
      | none =>
        let t4 := BitVec.ofNat 4 ty
        let k : MatKind := if load then .tld tile.toNat addr t4 stride rm (sat == 1) else .tst tile.toNat addr t4 stride rm (sat == 1)
        s.issueMat g sp t k) s
/-- TLD. -/
def execTld (sat : BitVec 1) (a b : SReg) (rm : BitVec 3) (tile : BitVec 4) (s : State) : Out :=
  tileRowsOp true (.tld sat a b rm tile) sat a b rm tile s
/-- TST. -/
def execTst (sat : BitVec 1) (a b : SReg) (rm : BitVec 3) (tile : BitVec 4) (s : State) : Out :=
  tileRowsOp false (.tst sat a b rm tile) sat a b rm tile s

/-! ### MFENCE (R200) -/

/-- MFENCE. -/
def execMfence (d : SReg) (s : State) : Out :=
  runScalar true (fun s g sp =>
    let core := s.sched.core
    let n := (s.engines core).mtxLast + 1
    if 2 ^ 64 ≤ n then .trap (Trap.of cQueue)
    else
      let ids := g.ctl.openBatch
      let s1 := s.modEngines core fun e =>
        { e with mtxLast := n, batches := if ids.isEmpty then e.batches else amSet e.batches n ids }
      let s2 := s1.put (g.modCtl fun c => { c with openBatch := [] }) (sp.setReg d (BitVec.ofNat 64 n)).advance
      .done (s2.advanceMatrix core)) s

/-! ### MLOOP (R195, R196) -/

/-- A 24-bit signed field. -/
def signed24 (n : Nat) : Int := if 2 ^ 23 ≤ n % 2 ^ 24 then (n % 2 ^ 24 : Nat) - (2 ^ 24 : Nat) else (n % 2 ^ 24 : Nat)
/-- A and B bases of step j. -/
def stepA (a : DWord) (ainc : Int) (j : Nat) : DWord := a + BitVec.ofInt 64 (j * ainc)
def stepB (rec_ : List Byte) (binc : Int) (j : Nat) : List Byte :=
  withBase rec_ (BitVec.ofNat 64 (recBase rec_) + BitVec.ofInt 64 (j * binc)).toNat
/-- The issue checks on the record at `ra` and on the B of every step (R190, R196). -/
def State.loopStop (s : State) (w : Who) (tw : Word) (ra : DWord) (rec_ : List Byte) (count : Nat) (binc : Int) :
    Option (DWord × Stop) :=
  let bad := (s.bBase w ra rec_).toList ++ (upFrom 0 count).filterMap fun j =>
    let b := stepB rec_ binc j
    s.bStop w b (bElems b (tileKs tw) (tileCols tw))
  (bad.find? fun x => stopRank x.2 == 0).or bad.head?
/-- MLOOP. TRAPADDR of a trap on A is the base of the first step that fails (log entry 89). -/
def execMloop (tile : BitVec 4) (a b k : SReg) (s : State) : Out :=
  runMatrix true (fun s g sp t =>
    let tw := t.tileWord tile.toNat
    let who := s.whoOf s.sched.core g
    let x := (sp.reg k).toNat
    let count := bitsOf x 0 16
    let ainc := signed24 (bitsOf x 16 24)
    let binc := signed24 (bitsOf x 40 24)
    let ra := sp.reg b
    let size := bytesIn (tileAType tw)
    let as := (upFrom 0 count).map (stepA (sp.reg a) ainc)
    if !tileValid tw then .trap (Trap.of cIllegal)
    else
      match s.fetchRecord who s.sched.split s.sched.split ra with
      | some s1 => .wait s1
      | none =>
      let rd := s.recordRead who ra
      let bp := match s.recordPeek who ra with | some b => recFormat b == 13 | none => false
      if bp && (tileInt tw || binc % 32 != 0) then .trap (Trap.of cIllegal)
      else
        match as.find? fun y => y.toNat % size != 0 with
        | some y => .trap (Trap.at_ cAlign y)
        | none =>
          match as.find? fun y => !inScratchWindow y.toNat
              || decide (t.scratchSize < y.toNat % 2 ^ 24 + tileRows tw * tileKs tw * size) with
          | some y => .trap (Trap.at_ cProtect y)
          | none =>
            match rd with
            | .error e => stopScalar (if e.1 == .trap cPage then s.badAddr who ra 192 .rd else ra) s e
            | .ok (s1, rec_) =>
              if !bRecordOk rec_ then .trap (Trap.at_ cProtect ra)
              else
                match s.loopStop who tw ra rec_ count binc with
                | some (y, e) => stopScalar y s (e, false)
                | none =>
                  let res : ResidentB :=
                    { record := stepB rec_ binc (count - 1), cols := tileCols tw, planes := tilePlanes tw }
                  let s2 := if count = 0 then s1 else s1.modTeam g.team fun t => { t with residentB := some res }
                  match s2.issueMat g sp t (.mloop tile.toNat (sp.reg a) rec_ count ainc binc) with
                  | .done s3 => .done s3
                  | _ => .wait s) s

/-! ### Accesses to other ranks (R199, R354) -/

/-- Ask other ranks for what an operation needs of them: key, address, what is asked. -/
def State.askFar (s : State) (core : Nat) (o : MatOp) (ty : BitVec 4) (need : List (Nat × DWord × HomeOp)) : State :=
  let asks := need.map fun x => farAsk x.1 x.2.1 x.2.2
  let r := s.sendAsks core (.matrix core o.id) ty none asks
  let wait := r.2.map fun x => (x.2, (asks.filter fun a => a.line == x.1).map (·.lane))
  r.1.modHeadOp core fun p => { p with sent := true, wait := wait }
/-- The elements of a run of rows at other ranks. -/
def State.farElems (s : State) (rows : List (Nat × DWord)) (cols size : Nat) (op : Nat → Nat → HomeOp) : List (Nat × DWord × HomeOp) :=
  (rows.filter fun r => s.isFar r.2).flatMap fun r =>
    (upFrom 0 cols).map fun n => (r.1 * 512 + n, r.2 + BitVec.ofNat 64 (n * size), op r.1 n)

/-! ### A step of the sequencer (R193, R201) -/

/-- Whether the head waits: its group's macro error is not resolved (R201); the operations of a group that is saved run on (R202). -/
def State.macroHeld (s : State) (core : Nat) (o : MatOp) : Bool :=
  match s.opGroup core o.slot o.serial with
  | some g => (g.ctl.fault.map (·.cause)) == some cMacro && g.ctl.save == .running
  | none => false
/-- The head stops at a fault it met (R424) and is finished. -/
def State.stopMat (s : State) (core : Nat) (o : MatOp) (c : Byte) (a : DWord) : State :=
  (s.lateFault core o.slot o.serial o.team o.launch o.pc c a).popMat core o
/-- MLOOP_STEP: one step of the MLOOP at the head: its B into the macros, then each row in ascending order. -/
def execMloopStep (core : Nat) (s : State) : Out :=
  match (s.engines core).matq with
  | [] => .next s
  | o :: _ =>
    match o.kind, s.team o.team with
    | .mloop tile a rec_ count ainc binc, some t =>
      if count ≤ o.step || s.macroHeld core o || !o.wait.isEmpty then .next s
      else
        match o.stop with
        | some (c, x) => .next (s.stopMat core o c x)
        | none =>
          let tw := t.tileWord tile
          let w := s.opWho core o.team o.launch
          let b := stepB rec_ binc o.step
          let es := bElems b (tileKs tw) (tileCols tw)
          match s.serveAll w (.engine core false) (es.map fun e => (e.2.2, 1)) with
          | (s1, none) => .next s1
          | (s1, some _) =>
            let far := es.filter fun e => s.isFar e.2.2
            if s1.bWaits w b es then .next s1
            else if !o.sent && !far.isEmpty then .next (s1.askFar core o 0 (far.map fun e => (bKey e.1 e.2.1, e.2.2, bAsk b)))
            else
              match s1.bFault w b (tilePlanes tw) es with
              | some f => .next (s1.stopMat core o f.1 f.2)
              | none =>
                let r := s1.loadB w b (tilePlanes tw) (tileKs tw) (tileCols tw) o.vals
                let size := bytesIn (tileAType tw)
                let base := (stepA a ainc o.step).toNat % 2 ^ 24
                let rowBytes := tileKs tw * size
                let out := (upFrom 0 (tileRows tw)).foldl (fun (x : Team × BitVec 5) i =>
                  let xs := readRow (tileAType tw) (t.scratchBytes (base + i * rowBytes) rowBytes) (tileKs tw)
                  let y := x.1.accumRow tile i (convertRow tw xs) r.2
                  (y.1, x.2 ||| y.2)) (t, 0)
                let s2 := (r.1.modTeam o.team fun _ => out.1).modEngines core fun e =>
                  { e with macroB := some { team := o.team, cols := r.2, record := b, planes := tilePlanes tw } }
                let s3 := (s2.opFlags core o.slot o.serial out.2 0).modHeadOp core fun p =>
                  { p with step := p.step + 1, misses := 0, sent := false, vals := [] }
                .next (match (s3.engines core).matq with
                  | [] => s3
                  | p :: _ => s3.wakeUp (p.event core))
    | .mloop _ _ _ _ _ _, none => .next (s.popMat core o)
    | _, _ => .next s

/-! ### Completion (R197, R199, R213, R214, R424) -/

/-- Put the elements of a row that were read into a tile, converted, with their flags. -/
def State.loadRow (s : State) (core : Nat) (o : MatOp) (tile : Nat) (ty : BitVec 4) (rm : BitVec 3) (sat : Bool) (dst : BitVec 4) (r : Nat)
    (bs : List Byte) : State :=
  let size := bytesIn ty
  let out := (upFrom 0 (bs.length / size)).foldl (fun (y : State × BitVec 5 × BitVec 2) n =>
    let v := convert ty dst rm sat (field bs (n * size) size)
    (y.1.modTeam o.team fun t => t.setElem tile r n (BitVec.ofNat 32 v.bits), y.2.1 ||| v.ff, y.2.2 ||| v.fi)) (s, 0, 0)
  out.1.opFlags core o.slot o.serial out.2.1 out.2.2
/-- A row of a TLD here, and what stopped it. -/
def State.loadNear (s : State) (w : Who) (o : MatOp) (tile : Nat) (ty : BitVec 4) (rm : BitVec 3) (sat : Bool) (cols : Nat) (dst : BitVec 4)
    (r : Nat) (a : DWord) : State × Option (Byte × DWord) :=
  let x := s.readRun w (bytesIn ty) cols a
  (x.1.loadRow w.core o tile ty rm sat dst r x.2.1, x.2.2)
/-- The bytes another rank answered for a row. -/
def MatOp.farRow (o : MatOp) (cols r : Nat) : List Byte := (upFrom 0 cols).flatMap fun n => ((amGet o.vals (r * 512 + n)).getD [])
/-- A row of a tile as bytes of a type, with the flags. -/
def Team.rowBytes (t : Team) (tile r cols : Nat) (src ty : BitVec 4) (rm : BitVec 3) (sat : Bool) : List Byte × BitVec 5 × BitVec 2 :=
  (upFrom 0 cols).foldl (fun y n =>
    let v := convert src ty rm sat (t.elem tile r n).toNat
    (y.1 ++ bytesOf (bytesIn ty) v.bits, y.2.1 ||| v.ff, y.2.2 ||| v.fi)) ([], 0, 0)
/-- A row of a TST here, with its flags, and what stopped it. -/
def State.storeNear (s : State) (w : Who) (o : MatOp) (t : Team) (tile : Nat) (ty : BitVec 4) (rm : BitVec 3) (sat : Bool) (cols : Nat)
    (src : BitVec 4) (r : Nat) (a : DWord) : State × Option (Byte × DWord) :=
  let bs := t.rowBytes tile r cols src ty rm sat
  (s.opFlags w.core o.slot o.serial bs.2.1 bs.2.2).writeRun w (bytesIn ty) a bs.1
/-- The rows of a TLD or TST from the first not done, in order: `near` does a row of this package, `ask` sends what one at another rank needs,
and `take` ends it once that is answered (`sent` tells so of the first). Done; the fault that stopped it; or none to wait. -/
def State.rowsOn (near : State → Nat → DWord → State × Option (Byte × DWord)) (ask take : State → Nat → DWord → State) :
    Bool → List (Nat × DWord) → State → State × Option (Option (Byte × DWord))
  | _, [], s => (s, some none)
  | sent, (r, a) :: rest, s =>
    if s.isFar a then (if sent then State.rowsOn near ask take false rest (take s r a) else (ask s r a, none))
    else
      match near s r a with
      | (s1, some f) => (s1, some (some f))
      | (s1, none) => State.rowsOn near ask take false rest s1
/-- The fields of a rank list block's header (R203): lists R, entries C, length L, base KB, signed order. -/
def hdrRows (h : DWord) : Nat := bitsOf h.toNat 8 8 + 1
def hdrCount (h : DWord) : Nat := bitsOf h.toNat 0 8 + 1
def hdrLen (h : DWord) : Nat := bitsOf h.toNat 32 15
def hdrBase (h : DWord) : Nat := bitsOf h.toNat 16 15
def hdrOk (h : DWord) : Bool := bitsOf h.toNat 48 16 == 0 && !h.getLsbD 31 && hdrLen h != 0 && hdrBase h != 32767
/-- The sparse row of a list (R204), as BF16 values by index. -/
def sparseRow (table : Store Half) (len count : Nat) (entries : List Byte) : Store Half :=
  (upFrom 0 count).foldl (fun x r =>
    let e := field entries (2 * r) 2
    let i := e % 32768
    if i = 32767 || len ≤ i then x
    else amSet x i (stGet 0 table r ^^^ BitVec.ofNat 16 (e / 32768 * 32768))) []
/-- Put RKMM's rows into its tile. -/
def State.rankRows (s : State) (w : Who) (o : MatOp) (tile : Nat) (block h : DWord) (table : Store Half) (b : List (List (Nat × List (Nat × Int)))) :
    List Nat → State × Option (Byte × DWord)
  | [] => (s, none)
  | j :: rest =>
    let c := hdrCount h
    let x := s.readRun w 2 c (block + BitVec.ofNat 64 (8 + 2 * c * j))
    match x.2.2 with
    | some f => (x.1, some f)
    | none =>
      let row := sparseRow table (hdrLen h) c x.2.1
      match x.1.team o.team with
      | none => (x.1, none)
      | some t =>
        let tw := t.tileWord tile
        let xs := (upFrom (hdrBase h) (tileKs tw)).map fun i => fmtBF.read (stGet 0 row i).toNat
        -- the A operand of RKMM is BF16 whatever ATYPE is; an RKMM tile is an FP32 tile
        let y := t.accumRow tile j (convertRow tw xs) b
        ((x.1.modTeam o.team fun _ => y.1).opFlags w.core o.slot o.serial y.2 0).rankRows w o tile block h table b rest
/-- Write RKVAL's rows (R214). -/
def State.valRows (s : State) (w : Who) (block h dest : DWord) (bf : Bool) (table : Store Half) : List Nat → State × Option (Byte × DWord)
  | [] => (s, none)
  | j :: rest =>
    let c := hdrCount h
    let len := hdrLen h
    let size := if bf then 2 else 4
    let x := s.readRun w 2 c (block + BitVec.ofNat 64 (8 + 2 * c * j))
    match x.2.2 with
    | some f => (x.1, some f)
    | none =>
      let row := sparseRow table len c x.2.1
      let bs := (upFrom 0 len).flatMap fun i =>
        bytesOf size (convert 11 (if bf then 11 else 12) 0 false (stGet 0 row i).toNat).bits
      let y := x.1.writeRun w size (dest + BitVec.ofNat 64 (j * len * size)) bs
      match y.2 with
      | some f => (y.1, some f)
      | none => y.1.valRows w block h dest bf table rest
/-- K-rows of a step at a number of planes (R183). -/
def planeKs (planes : Nat) : Nat := if 5 ≤ planes then 256 else if 3 ≤ planes then 512 else 1024
/-- Whether a core's macros hold a team's resident B. -/
def State.holdsB (s : State) (core team : Nat) (b : ResidentB) : Bool :=
  match (s.engines core).macroB with
  | some m => m.isOf team b
  | none => false
/-- The ranges an operation reads and writes. -/
def State.opRanges (s : State) (t : Team) (core : Nat) (o : MatOp) : List (DWord × Nat) :=
  let rows := fun tile (addr : DWord) ty stride =>
    let tw := t.tileWord tile
    (tileRowsAt addr stride (tileRows tw)).map fun r => (r.2, tileCols tw * bytesIn ty)
  let block := fun (a h : DWord) => (a, 8 + 2 * hdrRows h * hdrCount h)
  match o.kind with
  | .mloop _ _ _ _ _ _ => []
  | .tld tile addr ty stride _ _ => rows tile addr ty stride
  | .tst tile addr ty stride _ _ => rows tile addr ty stride
  | .rkmm _ a h _ b =>
    block a h :: if s.holdsB core o.team b then [] else (bElems b.record (planeKs b.planes) b.cols).map fun e => (e.2.2, 1)
  | .rkval a h dest bf _ => [block a h, (dest, hdrRows h * hdrLen h * if bf then 2 else 4)]
/-- The elements of the resident B at other ranks that RKMM must load again. -/
def State.opFar (s : State) (core : Nat) (o : MatOp) : List (Nat × DWord × HomeOp) :=
  match o.kind with
  | .rkmm _ _ _ _ b =>
    if s.holdsB core o.team b then []
    else ((bElems b.record (planeKs b.planes) b.cols).filter fun e => s.isFar e.2.2).map fun e => (bKey e.1 e.2.1, e.2.2, bAsk b.record)
  | _ => []
/-- The columns of the resident B, loaded again where the macros do not hold it (R213). -/
def State.residentCols (s : State) (core : Nat) (w : Who) (o : MatOp) (b : ResidentB) (ks : Nat) :
    State × List (List (Nat × List (Nat × Int))) × Option (Byte × DWord) :=
  match if s.holdsB core o.team b then (s.engines core).macroB else none with
  | some m => (s, m.cols, none)
  | none =>
    match s.bFault w b.record b.planes (bElems b.record ks b.cols) with
    | some f => (s, [], some f)
    | none =>
      let r := s.loadB w b.record b.planes ks b.cols o.vals
      (r.1.modEngines core fun e => { e with macroB := some { team := o.team, cols := r.2, record := b.record, planes := b.planes } }, r.2, none)
/-- The effect of the head, and the fault it met; none in its place while it waits for another rank. -/
def State.runMat (s : State) (core : Nat) (o : MatOp) (t : Team) : State × Option (Option (Byte × DWord)) :=
  let w := s.opWho core o.team o.launch
  let table := fun n => ((amGet (s.core core).atten n).getD Atten.fresh).weights
  let rows := fun (tile : Nat) (addr : DWord) (stride : Nat) => (tileRowsAt addr stride (tileRows (t.tileWord tile))).drop o.step
  let ask := fun (cols size : Nat) (op : Nat → Nat → HomeOp) (x : State) (r : Nat) (a : DWord) =>
    (x.askFar core o 0 (x.farElems [(r, a)] cols size op)).modHeadOp core fun p => { p with step := r }
  let ended := fun (r : State × Option (Byte × DWord)) => (r.1, some r.2)
  match o.kind with
  | .mloop _ _ _ _ _ _ => (s, some none)
  | .tld tile addr ty stride rm sat =>
    let tw := t.tileWord tile
    s.rowsOn (fun x r a => x.loadNear w o tile ty rm sat (tileCols tw) (tileTy tw) r a) (ask (tileCols tw) (bytesIn ty) fun _ _ => .get (bytesIn ty))
      (fun x r _ => x.loadRow core o tile ty rm sat (tileTy tw) r (o.farRow (tileCols tw) r)) o.sent (rows tile addr stride)
  | .tst tile addr ty stride rm sat =>
    let tw := t.tileWord tile
    let flags := fun (x : State) (r : Nat) =>
      let bs := t.rowBytes tile r (tileCols tw) (tileTy tw) ty rm sat
      x.opFlags core o.slot o.serial bs.2.1 bs.2.2
    s.rowsOn (fun x r a => x.storeNear w o t tile ty rm sat (tileCols tw) (tileTy tw) r a)
      (ask (tileCols tw) (bytesIn ty) fun r n => .put (bytesOf (bytesIn ty) (convert (tileTy tw) ty rm sat (t.elem tile r n).toNat).bits))
      (fun x r _ => flags x r) o.sent (rows tile addr stride)
  | .rkmm tile block h n b =>
    let r := s.residentCols core w o b (tileKs (t.tileWord tile))
    match r.2.2 with
    | some f => (r.1, some (some f))
    | none => ended (r.1.rankRows w o tile block h (table n) r.2.1 (upFrom 0 (hdrRows h)))
  | .rkval block h dest bf n => ended (s.valRows w block h dest bf (table n) (upFrom 0 (hdrRows h)))
/-- MATRIX_OP_COMPLETE: the head has its effect and is finished; a page that is missing makes it wait, and one that cannot be mapped stops
it at the access that needs it. -/
def execMatrixOpComplete (core : Nat) (s : State) : Out :=
  match (s.engines core).matq with
  | [] => .next s
  | o :: _ =>
    match s.team o.team with
    | none => .next (s.popMat core o)
    | some t =>
      let more := match o.kind with | .mloop _ _ _ n _ _ => decide (o.step < n) | _ => false
      if more || s.macroHeld core o || !o.wait.isEmpty then .next s
      else
        match o.stop with
        | some (c, x) => .next (s.stopMat core o c x)
        | none =>
          match s.serveAll (s.opWho core o.team o.launch) (.engine core false)
              ((s.opRanges t core o).filter fun x => !s.isFar x.1) with
          | (s1, none) => .next s1
          | (s1, some _) =>
            let far := s1.opFar core o
            if !o.sent && !far.isEmpty then .next (s1.askFar core o 0 far)
            else
              match s1.runMat core o t with
              | (s2, none) => .next s2
              | (s2, some (some (c, x))) => .next (s2.stopMat core o c x)
              | (s2, some none) => .next (s2.popMat core o)

/-! ### Macro errors (R201) -/

/-- Free values in every element of a tile: its contents are unspecified (R201). -/
def State.freeTile (s : State) (team tile : Nat) : State :=
  match s.team team with
  | none => s
  | some t =>
    let tw := t.tileWord tile
    let r := (upFrom 0 (tileRows tw)).foldl (fun (x : Team × Nat) i =>
      (upFrom 0 (tileCols tw)).foldl (fun (y : Team × Nat) n => (y.1.setElem tile i n ((Config.freeWord y.2).setWidth 32), y.2 + 1)) x)
      (t, s.sched.free)
    let s1 := s.modTeam team fun _ => r.1
    { s1 with sched := { s1.sched with free := r.2 } }
/-- A mismatch of a bank's checksum at the end of the head's step: the step is discarded and the group waits; the third in one step
escalates, and the operation ends. -/
def State.macroError (s : State) (core : Nat) : State :=
  match (s.engines core).matq with
  | [] => s
  | o :: _ =>
    let usesMacros := match o.kind with | .mloop _ _ _ n _ _ => decide (o.step < n) | .rkmm _ _ _ _ _ => true | _ => false
    if !usesMacros then s
    else
      let s1 := s.modHeadOp core fun p => { p with misses := p.misses + 1 }
      if 2 ≤ o.misses then
        ((s1.lateFault core o.slot o.serial o.team o.launch o.pc cMacro 0).freeTile o.team ((o.kind.tile).getD 0)).popMat core o
      else
        match s1.opGroup core o.slot o.serial with
        | none => s1
        | some g =>
          if g.ctl.fault.isSome || g.ctl.stopped then s1
          else
            let p : PendingFault := { cause := cMacro, addr := 0, lane := false, split := 0, pc := o.pc, lp := 0 }
            (s1.modGroup (gkey core o.slot) fun g =>
              (g.modTrap fun t => { t with pc := o.pc }).modCtl fun c => { c with fault := some p }).wakeUp (.faultReplay core o.slot)

end Sys2Proof.Machine
end

