-- ==== Sys2Proof/Machine/RegFabric.lean ====
section
/-! DEFINITION. Registers as fabric addresses (chapter 5): capabilities, RARM and RCLR, RPUT, arrivals and their outcomes, reservations. -/
namespace Sys2Proof.Machine

/-! ### Capabilities (R106, R110, R111) -/

/-- The fields of a capability. -/
structure Cap where
  rank : Nat
  loc : Nat
  gen : Half
  laneBase : Nat
  lanes : Nat
  slotBase : Nat
  slots : Nat
  once : Bool
  latest : Bool
  key : Nat
  reserved : Nat
  mac : BitVec 32
deriving DecidableEq, Repr
/-- Read a capability (R106). -/
def readCap (c : BitVec 128) : Cap :=
  let n := c.toNat
  { rank := bitsOf n 108 20, loc := bitsOf n 94 14, gen := BitVec.ofNat 16 (bitsOf n 78 16), laneBase := bitsOf n 73 5,
    lanes := bitsOf n 67 6 + 1, slotBase := bitsOf n 58 9, slots := bitsOf n 49 9 + 1, once := bitsOf n 48 1 == 1,
    latest := bitsOf n 47 1 == 1, key := bitsOf n 43 4, reserved := bitsOf n 32 11, mac := BitVec.ofNat 32 n }
/-- The capability a parameter word asks for, without its MAC (R106, R110). -/
def capBody (rank loc : Nat) (gen : Half) (key : Nat) (w : DWord) : Nat :=
  let n := w.toNat
  rank * 2 ^ 108 + loc * 2 ^ 94 + gen.toNat * 2 ^ 78 + bitsOf n 0 5 * 2 ^ 73 + bitsOf n 5 6 * 2 ^ 67 + bitsOf n 11 9 * 2 ^ 58
    + bitsOf n 20 9 * 2 ^ 49 + bitsOf n 30 1 * 2 ^ 48 + bitsOf n 29 1 * 2 ^ 47 + key * 2 ^ 43
/-- The MAC of bits [127:32] under a key. -/
def capMac (key : BitVec 128) (body : Nat) : BitVec 32 := Config.mac key (BitVec.ofNat 96 (body / 2 ^ 32))
/-- Whether RCAP accepts a parameter word (R110). -/
def capWordOk (w : DWord) : Bool :=
  let n := w.toNat
  decide (n < 2 ^ 31) && bitsOf n 29 2 != 0 && decide (bitsOf n 0 5 + bitsOf n 5 6 + 1 ≤ 32)
    && decide (bitsOf n 11 9 + bitsOf n 20 9 + 1 ≤ 512)
/-- RCAP. -/
def execRcap (d a : SReg) (s : State) : Out :=
  runScalar (scalarOk (.rcap d a)) (fun s g sp =>
    let w := sp.reg a
    match amGet s.dev.keys s.dev.keyIndex with
    | none => .trap (Trap.of cCap)
    | some key =>
      if !capWordOk w then .trap (Trap.of cCap)
      else
        let body := capBody s.dev.rank (locid s.sched.core s.sched.slot) (s.gen s.curKey) s.dev.keyIndex w
        let cap := body + (capMac key body).toNat
        .done (s.put g ((sp.setReg d (BitVec.ofNat 64 cap)).setReg (d + 1) (BitVec.ofNat 64 (cap / 2 ^ 64))).advance)) s
/-- RREV: the generation rises; arrivals already checked have been applied. -/
def execRrev (s : State) : Out :=
  runScalar true (fun s g sp => .done ((s.put g sp.advance).bumpGen s.curKey)) s

/-! ### Arming (R112) -/

/-- Change P and L of the named slots in the active lanes. -/
def runArm (ok : Bool) (f : LaneF) (p l : Bool) (s : State) : Out :=
  runLanePure ok f (fun g e act =>
    (upFrom (e.tag.wb + f.vd.toNat) ((f.fn >>> 1).toNat + 1)).foldl (fun a k =>
      (a.setP k (if p then a.pmask k ||| act else a.pmask k &&& ~~~act)).setL k
        (if l then a.lmask k ||| act else a.lmask k &&& ~~~act)) g) s
/-- RARM ONCE and LATEST. -/
def execRarm (f : LaneF) (s : State) : Out := runArm (laneOk (.rarm f)) f true (f.fn.getLsbD 0) s
/-- RCLR. -/
def execRclr (f : LaneF) (s : State) : Out := runArm (laneOk (.rclr f)) f false false s

/-! ### RPUT (R113 to R116) -/

/-- Two status bits for a sender lane. -/
def laneStatus (lane st : Nat) : Nat := st * 4 ^ lane
/-- Every sender lane of a put with one status. -/
def allStatus (lanes : List Nat) (st : Nat) : DWord := BitVec.ofNat 64 (lanes.foldl (fun n i => n + laneStatus i st) 0)
/-- Record a put's outcome; its token is due to complete. -/
def State.putDone (s : State) (put : Nat) (w : DWord) : State :=
  match amGet s.fabric.puts put with
  | none => s
  | some p =>
    if p.outcome.isSome then s
    else (s.modFab fun f => { f with puts := amSet f.puts put { p with outcome := some w } }).wakeUp (.rputOutcome put)
/-- Send a put whose reservation is held: on the package, or through the fabric. -/
def State.putSend (s : State) (id : Nat) (p : Put) : State :=
  let s1 := s.modFab fun f => { f with puts := amSet f.puts id { p with sent := true } }
  if p.target = s.dev.rank then s1.wakeUp (.registerArrival p.packet)
  else
    match s1.resolveRank (dieOf p.core) p.target with
    | none => s1.putDone id (allStatus p.senders 2)
    | some r =>
      let t : Ticket := { owner := .put id, rank := p.target, cls := r.1, addr := 0, ty := 7, src := none, rm := 0, lanes := [], keep := none }
      let x := s1.newTicket t
      x.1.sendTo (dieOf p.core) p.target r x.2 (x.1.traffic t.owner) (.register p.packet)
/-- Send the puts of a target that wait for reservations, oldest first. -/
def State.putPump (s : State) (core target : Nat) : State :=
  (s.fabric.puts.filter fun p => !p.2.sent && p.2.outcome.isNone && p.2.target == target
      && (target != s.dev.rank || p.2.core == core)).foldl (fun a p =>
    let r := a.reserve core target
    if r.2 then r.1.putSend p.1 p.2 else r.1) s
/-- The first lane that fails R114's checks. -/
def capFail (c : Cap) (w : Nat) (lanes : List (Nat × Nat)) : Option Nat :=
  (lanes.find? fun x => decide (c.lanes ≤ x.1) || decide (c.slots < x.2 + w) || (w == 2 && (c.slotBase + x.2) % 2 == 1)
    || !(c.once || c.latest)).map (·.1)
/-- RPUT. With no active lane it has no lane to wait for, and its token's count does not change. -/
def execRput (f : LaneF) (s : State) : Out :=
  runLane (laneOk (.rput f)) f (fun s g e act =>
    let k := (f.fn &&& 7).toNat
    let cn : SReg := f.va.setWidth 5
    let bits : BitVec 128 := (g.scalarOf e (cn + 1)).setWidth 128 <<< 64 ||| (g.scalarOf e cn).setWidth 128
    let c := readCap bits
    let wide := wideType f.td
    let w := if wide then 2 else 1
    let ls := maskLanes act
    let offs := ls.map fun i => (i, g.src e f.w2 f.vb 5 i)
    if g.async.puts.getLsbD k || decide (255 ≤ g.token k) || (c.rank != s.dev.rank && s.dev.guardPending.isSome) then .wait s
    else
      match capFail c w offs with
      | some i => .trap { Trap.of cCap with lid := i }
      | none =>
        if act = 0 then .done (s.putGroup s.curKey (g.modCsrs fun x => { x with tokstat := stSet 0 x.tokstat k 0 }))
        else
          let id := s.fabric.nextPut
          let lanes := offs.map fun x =>
            { sender := x.1, target := c.laneBase + x.1, slot := c.slotBase + x.2,
              value := BitVec.ofNat 64 (g.src e f.w2 f.vc f.td x.1) : RegLane }
          let packet : RegPacket := { cap := bits, wide := wide, lanes := lanes, source := s.dev.rank, put := id }
          let res := s.resolveRank (dieOf s.sched.core) c.rank
          let reach := if c.rank = s.dev.rank then 0 else match res with | some (0, _, _) => 1 | _ => 2
          let p : Put := { core := s.sched.core, slot := s.sched.slot, serial := s.serial s.curKey, token := k, split := e.tag.split, launch := g.launch,
                           senders := ls, packet := packet, reach := reach, target := c.rank, sent := false, outcome := none }
          let g1 := (g.tokenUp k).modAsync fun a => { a with puts := a.puts ||| BitVec.ofNat 8 (2 ^ k) }
          let g2 := g1.modCsrs fun x => { x with tokstat := stSet 0 x.tokstat k 0 }
          let s1 := (s.putGroup s.curKey g2).modFab fun x => { x with puts := amSet x.puts id p, nextPut := id + 1 }
          if c.rank != s.dev.rank && res.isNone then .done ((s1.noteRank c.rank).putDone id (allStatus ls 2))
          else .done (s1.putPump s.sched.core c.rank)) s
/-- RPUT_OUTCOME: the status word is written, and the token completes. -/
def execRputOutcome (put : Nat) (s : State) : Out :=
  match amGet s.fabric.puts put with
  | none => .next s
  | some p =>
    match p.outcome with
    | none => .next s
    | some w =>
      let key := gkey p.core p.slot
      let s1 := s.modFab fun f => { f with puts := amDel f.puts put }
      .next (if s1.serial key = p.serial then
        s1.modGroup key fun g =>
          ((g.tokenDown p.token).modAsync fun a => { a with puts := a.puts &&& ~~~(BitVec.ofNat 8 (2 ^ p.token)) }).modCsrs
            fun x => { x with tokstat := stSet 0 x.tokstat p.token w }
      else s1)

/-! ### Arrivals (R117, R118) -/

/-- P and L of a slot in a lane, resident or in the spill area; none where the spill area cannot be written (R118). -/
def State.slotBits (s : State) (core : Nat) (g : Group) (k lane : Nat) : Option (State × Bool × Bool) :=
  if g.resident k then some (s, (g.pmask k).getLsbD lane, (g.lmask k).getLsbD lane)
  else
    let w := s.whoOf core g
    match s.checkScalar w (spillWord g.csrs.spb k) 8 .wr, s.checkScalar w (spillLine g.csrs.spb k) 128 .wr with
    | .ok gs, .ok _ =>
      let r := s.segsRead core gs
      some (r.1, (BitVec.ofNat 64 (leNat r.2)).getLsbD lane, (BitVec.ofNat 64 (leNat r.2)).getLsbD (32 + lane))
    | _, _ => none
/-- Write a slot of a lane and clear its P bit, where the slot lies. -/
def State.slotPut (s : State) (key k lane : Nat) (v : Word) : State :=
  let core := key / 32
  match s.group key with
  | none => s
  | some g =>
    if g.resident k then
      s.putGroup key ((g.setSlot k lane v).setP k (g.pmask k &&& ~~~(laneBit lane)))
    else
      let w := s.whoOf core g
      let wa := spillWord g.csrs.spb k
      let r := match s.checkScalar w wa 8 .wr with
        | .ok gs => s.segsRead core gs
        | .error _ => (s, bytesOf 8 0)
      let old := BitVec.ofNat 64 (leNat r.2)
      let new := old &&& ~~~(BitVec.ofNat 64 (2 ^ lane))
      let s1 := match r.1.spillOut w wa (bytesOf 8 new.toNat) with | .ok x => x | .error _ => r.1
      match s1.spillOut w (spillLine g.csrs.spb k + BitVec.ofNat 64 (4 * lane)) (bytesOf 4 v.toNat) with
      | .ok x => x
      | .error _ => s1
/-- One lane's outcome (R117): the state and its status. -/
def State.arriveLane (s : State) (key : Nat) (wide latest : Bool) (x : RegLane) : State × Nat :=
  match s.group key with
  | none => (s, 2)
  | some g =>
    let core := key / 32
    let ks := if wide then [x.slot, x.slot + 1] else [x.slot]
    if !g.lanes.alive.getLsbD x.target then (s, 3)
    else
      let bits := ks.map fun k => (s.slotBits core g k x.target).map fun r => (r.2.1, r.2.2)
      if bits.any fun b => b.isNone then (s, 3)
      else if bits.all fun b => match b with | some (p, l) => p || (l && latest) | none => false then
        let s1 := s.slotPut key x.slot x.target (x.value.setWidth 32)
        (if wide then s1.slotPut key (x.slot + 1) x.target ((x.value >>> 32).setWidth 32) else s1, 0)
      else
        (s.modGroup key fun y => y.modCsrs fun c =>
          { c with ovwcnt := if c.ovwcnt = BitVec.allOnes 64 then c.ovwcnt else c.ovwcnt + 1 }, 1)
/-- Insertion of a lane by its target, ascending; lanes of one target keep their order. -/
def insertLane (x : RegLane) : List RegLane → List RegLane
  | [] => [x]
  | y :: ys => if y.target ≤ x.target then y :: insertLane x ys else x :: y :: ys
/-- The lanes of a packet in ascending target. -/
def sortLanes (ls : List RegLane) : List RegLane := ls.foldl (fun acc x => insertLane x acc) []
/-- Apply a packet at its target group: the state and the status word. -/
def State.applyRegs (s : State) (p : RegPacket) : State × DWord :=
  let c := readCap p.cap
  let stale := (s, allStatus (p.lanes.map (·.sender)) 2)
  match ofLocid c.loc, amGet s.dev.keys c.key with
  | some (core, slot), some key =>
    let k := gkey core slot
    if (s.group k).isNone || s.gen k != c.gen || c.reserved != 0 || capMac key p.cap.toNat != c.mac then stale
    else
      let r := (sortLanes p.lanes).foldl (fun (a : State × Nat) x =>
        let y := a.1.arriveLane k p.wide c.latest x
        (y.1, a.2 + laneStatus x.sender y.2)) (s, 0)
      (r.1, BitVec.ofNat 64 r.2)
  | _, _ => stale

/-! ### Reservations (R364) -/

/-- Give a source back the 16 entries its applied messages held. -/
def State.returnBlock (s : State) (src : Nat) : State :=
  if src < 2 ^ 20 then s.replyTo 0 src 0 .reserveBlock 7
  else
    let s1 := s.modReserve fun x => { x with held := stSet 0 x.held src (stGet 0 x.held src + 16) }
    s1.putPump (src - 2 ^ 20) s.dev.rank
/-- A source's message has left the receive queue. -/
def State.appliedOne (s : State) (src : Nat) : State :=
  let n := stGet 0 s.fabric.reserve.applied src + 1
  if n < 16 then s.modReserve fun x => { x with applied := stSet 0 x.applied src n }
  else (s.modReserve fun x => { x with applied := stSet 0 x.applied src 0 }).returnBlock src
/-- Answer a packet's source with its status word, and free its entry. -/
def State.regsDone (s : State) (p : RegPacket) (w : DWord) : State :=
  if p.source = s.dev.rank then
    let core := ((amGet s.fabric.puts p.put).map (·.core)).getD 0
    (s.putDone p.put w).appliedOne (ownSource core)
  else (s.replyTo 0 p.source 0 (.putOutcome p.put w)).appliedOne p.source
/-- REGISTER_ARRIVAL: applied as a whole; a group that is being saved holds it (R119). -/
def execRegisterArrival (p : RegPacket) (s : State) : Out :=
  let hold := match ofLocid (readCap p.cap).loc with
    | some (core, slot) => (s.group (gkey core slot)).bind fun g => if g.ctl.save == .saving then some (gkey core slot) else none
    | none => none
  match hold with
  | some k => .next (s.modGroup k fun g => g.modCtl fun c => { c with arrivals := c.arrivals ++ [p] })
  | none =>
    let r := s.applyRegs p
    .next (r.1.regsDone p r.2)
/-- Free entries of the receive queue. -/
def State.freeEntries (s : State) : Nat :=
  16384 - s.fabric.reserve.granted.foldl (fun n x => n + x.2) 0
/-- RESERVATION_REQUEST: the request joins the queue of requests. -/
def execReservationRequest (source : Nat) (s : State) : Out :=
  .next ((s.modReserve fun x => { x with requests := x.requests ++ [source] }).wakeUp (.reservationGrant source s.dev.rank))
/-- A block reaches its source: the messages that waited leave. -/
def State.granted (s : State) (key core target : Nat) : State :=
  (s.modReserve fun x =>
    { x with held := stSet 0 x.held key (stGet 0 x.held key + 16), total := stSet 0 x.total key (stGet 0 x.total key + 16),
             asked := nsDel x.asked key, lastSend := amSet x.lastSend key s.now }).putPump core target
/-- RESERVATION_GRANT: as the target, the oldest request is granted while 16 entries are free and the source has fewer than 4 blocks;
as the source, the block is taken. -/
def execReservationGrant (source target : Nat) (s : State) : Out :=
  let r := s.fabric.reserve
  if target = s.dev.rank then
    match r.requests with
    | [] => .next s
    | q :: rest =>
      if s.freeEntries < 16 then .next s
      else
        let s1 := s.modReserve fun x => { x with requests := rest }
        let s2 := match rest with | [] => s1 | y :: _ => s1.wakeUp (.reservationGrant y target)
        if 64 ≤ stGet 0 r.granted q then .next s2
        else
          let s3 := s2.modReserve fun x => { x with granted := stSet 0 x.granted q (stGet 0 x.granted q + 16) }
          .next (if q < 2 ^ 20 then s3.replyTo 0 q 0 .reserveGrant 7 else s3.granted q (q - 2 ^ 20) target)
  else if source = s.dev.rank || decide (2 ^ 20 ≤ source) then
    .next (s.granted target (source - 2 ^ 20) target)
  else .next s
/-- Whether a sender's reservations for a target have lain unused for 100 µs. -/
def State.idleHeld (s : State) (key : Nat) : Bool :=
  decide (0 < stGet 0 s.fabric.reserve.held key)
    && decide (((amGet s.fabric.reserve.lastSend key).getD 0) + 100 * Config.usCycles ≤ s.now)
/-- RESERVATION_IDLE_RETURN: a source's unused reservations for a target go back. -/
def execReservationIdleReturn (source target : Nat) (s : State) : Out :=
  let key := if target = s.dev.rank then source else target
  if s.idleHeld key then
    let n := stGet 0 s.fabric.reserve.held key
    let s1 := s.modReserve fun x =>
      { x with held := stSet 0 x.held key 0, total := stSet 0 x.total key (stGet 0 x.total key - n) }
    if target = s.dev.rank then
      .next ((s1.modReserve fun x => { x with granted := stSet 0 x.granted key (stGet 0 x.granted key - n) }).wakeUp
        (.reservationGrant source target))
    else .next (s1.replyTo 0 target 0 (.reserveReturn n) 7)
  else .next s

end Sys2Proof.Machine
end

