-- ==== Sys2Proof/Machine/Sys.lean ====
section
/-! DEFINITION. The SYS group: traps, ERET, SLEEP, EXIT (R130, R149, R154) and the control and status registers (R34, R36, R53, R150, R151,
R226). -/
namespace Sys2Proof.Machine

/-! ### Reading (R151) -/

/-- Addresses of the timeline window's words (R422). -/
def mtxWord (core : Nat) : Nat := core
def rankWord (core : Nat) : Nat := 0x200 + core
def collWord (core slot0 : Nat) : Nat := 0x2000 + 32 * core + slot0
def windowAddr (k : Nat) : DWord := BitVec.ofNat 64 (Config.timelineBase + 8 * k)
/-- Whether the group is in handler mode (INH). -/
def Group.inHandler (g : Group) : Bool := g.ctl.trapSplit.isSome
/-- TEAMID: team index, groups in team − 1, group index (R151). -/
def teamidWord (g : Group) (count : Nat) : DWord := BitVec.ofNat 64 (g.teamIndex * 2 ^ 32 + (count - 1) * 32 + g.index)
/-- IDPART and IDCOUNT (R151). -/
def idpart : DWord := BitVec.ofNat 64 (Config.stepping.toNat * 65536 + Config.partCode)
def State.idcount (s : State) : DWord :=
  BitVec.ofNat 64 (s.channels * 2 ^ 24 + s.slices * 2 ^ 15 + s.clusterCount * 2 ^ 9 + s.coreCount)

/-- The value CSRR returns; none for a reserved number (R150, R151). -/
def State.csrRead (s : State) (g : Group) (sp : Split) (n : Nat) : Option DWord :=
  let c := s.core s.sched.core
  let team := s.team g.team
  match n with
  | 0x00 => some (BitVec.ofNat 64 s.now)
  | 0x01 => some g.csrs.sinstr
  | 0x02 => some (BitVec.ofNat 64 s.dev.rank)
  | 0x03 => some (BitVec.ofNat 64 (locid s.sched.core s.sched.slot))
  | 0x04 => some (teamidWord g ((team.map (·.count)).getD 1))
  | 0x05 => some ((s.gen s.curKey).setWidth 64)
  | 0x06 => some (sp.mask.setWidth 64)
  | 0x07 => some (sp.cbits.setWidth 64)
  | 0x08 => some ((team.map (·.part)).getD 0)
  | 0x09 => some idpart
  | 0x0A => some s.idcount
  | 0x10 => some (g.trap.cause.setWidth 64)
  | 0x11 => some g.trap.pc
  | 0x12 => some g.trap.lp
  | 0x13 => some g.trap.addr
  | 0x14 => some g.trap.lane
  | 0x15 => some g.trap.rpc
  | 0x16 => some g.trap.rlp
  | 0x17 => some g.trap.vec
  | 0x18 => some g.trap.holdA
  | 0x19 => some g.trap.holdB
  | 0x20 => some (BitVec.ofNat 64 g.csrs.rsb)
  | 0x21 => some g.csrs.spb
  | 0x22 => some (g.csrs.fflags.setWidth 64)
  | 0x23 => some (g.csrs.iflags.setWidth 64)
  | 0x24 => some g.csrs.arrto
  | 0x25 => some g.csrs.ovwcnt
  | 0x34 => some (windowAddr (mtxWord s.sched.core))
  | 0x35 => some (windowAddr (collWord s.sched.core ((team.map (·.slot0)).getD 0)))
  | 0x36 => some (windowAddr (rankWord s.sched.core))
  | 0x37 => some g.csrs.rknan
  | 0x40 => some c.counters.issue
  | 0x41 => some c.counters.useful
  | 0x42 => some c.counters.late
  | 0x43 => some c.counters.unused
  | 0x44 => some c.counters.l1miss
  | k =>
    if 0x28 ≤ k && k ≤ 0x2F then some (stGet 0 g.csrs.tokstat (k - 0x28))
    else if 0x30 ≤ k && k ≤ 0x33 then some (stGet 0 g.csrs.cqb (k - 0x30))
    else none
/-- CSRR of d (R53, R150): FFLAGS and IFLAGS wait for the split's lane work. -/
def csrReadOp (d : SReg) (n : Nat) (s : State) (g : Group) (sp : Split) : Res :=
  match s.csrRead g sp n with
  | none => .trap (Trap.of cIllegal)
  | some v =>
    if (n = 0x22 || n = 0x23) && !g.laneDone s.sched.split then .wait s
    else .done (s.put g (sp.setReg d v).advance)

/-! ### Writing (R34, R36, R53, R150, R226) -/

/-- Whether RSB may take a value (R34). -/
def Group.rsbOk (g : Group) (v : Nat) : Bool :=
  v % 8 == 0 && decide (v + g.size ≤ 512)
    && g.splits.all fun x => decide (v ≤ x.2.wb) && decide (x.2.wb + 64 ≤ v + g.size)
/-- The read-only fields of TRAPCAUSE (R151). -/
def trapCauseRo : Word := 0x0005FFFF
/-- CSRW of v (R150): reserved and RO numbers, and H registers outside handler mode, raise ILLEGAL. -/
def csrWriteOp (n : Nat) (v : DWord) (s : State) (g : Group) (sp : Split) : Res :=
  let go := fun g1 => Res.done (s.put g1 sp.advance)
  let bad := Res.trap (Trap.of cIllegal)
  let hand := fun r : Res => if g.inHandler then r else bad
  match n with
  | 0x07 => .done (s.put g { sp.advance with cbits := v.setWidth 8 })
  | 0x10 => hand (
      let w := v.setWidth 32
      if (w &&& trapCauseRo) = (g.trap.cause &&& trapCauseRo) then
        go (g.modTrap fun t => { t with cause := (t.cause &&& 0xFFF7FFFF) ||| (w &&& 0x00080000) })
      else bad)
  | 0x15 => hand (go (g.modTrap fun t => { t with rpc := v }))
  | 0x16 => hand (go (g.modTrap fun t => { t with rlp := v }))
  | 0x18 => hand (go (g.modTrap fun t => { t with holdA := v }))
  | 0x19 => hand (go (g.modTrap fun t => { t with holdB := v }))
  | 0x20 =>
    if !g.allLaneDone then .wait s
    else if g.rsbOk v.toNat then go (g.modCsrs fun c => { c with rsb := v.toNat }) else bad
  | 0x21 =>
    if !g.allLaneDone then .wait s
    else if v.toNat % 128 != 0 || v.getLsbD 63 then bad
    else go (g.modCsrs fun c => { c with spb := v })
  | 0x22 => if g.laneDone s.sched.split then go (g.modCsrs fun c => { c with fflags := v.setWidth 5 }) else .wait s
  | 0x23 => if g.laneDone s.sched.split then go (g.modCsrs fun c => { c with iflags := v.setWidth 2 }) else .wait s
  | 0x24 => go (g.modCsrs fun c => { c with arrto := v })
  | 0x25 => go (g.modCsrs fun c => { c with ovwcnt := v })
  | k =>
    if 0x30 ≤ k && k ≤ 0x33 then
      (if v.toNat % 256 != 0 then bad else go (g.modCsrs fun c => { c with cqb := stSet 0 c.cqb (k - 0x30) v }))
    else bad

def execCsrr (d : SReg) (csr : BitVec 7) (s : State) : Out := runScalar true (csrReadOp d csr.toNat) s
def execCsrw (a : SReg) (csr : BitVec 7) (s : State) : Out :=
  runScalar true (fun s g sp => csrWriteOp csr.toNat (sp.reg a) s g sp) s
/-- CSRW of RSB, by its own row of the table (R34). -/
def execRsbWrite (a : SReg) (s : State) : Out := runScalar true (fun s g sp => csrWriteOp 0x20 (sp.reg a) s g sp) s
/-- CSRW of SPB (R36). -/
def execSpbWrite (a : SReg) (s : State) : Out := runScalar true (fun s g sp => csrWriteOp 0x21 (sp.reg a) s g sp) s
/-- CSRR or CSRW of FFLAGS or IFLAGS (R53). -/
def execFlagsAccess (write ints : Bool) (r : SReg) (s : State) : Out :=
  runScalar true (fun s g sp =>
    let n := if ints then 0x23 else 0x22
    if write then csrWriteOp n (sp.reg r) s g sp else csrReadOp r n s g sp) s
/-- CSRW of CQBk (R226). -/
def execCqbWrite (k : BitVec 2) (a : SReg) (s : State) : Out :=
  runScalar true (fun s g sp => csrWriteOp (0x30 + k.toNat) (sp.reg a) s g sp) s
/-- CSRW of OVWCNT (R117, R150). -/
def execOvwcntWrite (a : SReg) (s : State) : Out := runScalar true (fun s g sp => csrWriteOp 0x25 (sp.reg a) s g sp) s

/-! ### The other SYS instructions (R149) -/

def execNop (s : State) : Out := runPure (fun g sp => (g, sp.advance)) s
/-- TRAP raises SOFTWARE with its code. -/
def execTrap (code : BitVec 7) (s : State) : Out :=
  runScalar true (fun _ _ _ => .trap { Trap.of cSoftware with code := code.setWidth 8 }) s
/-- BRK raises BREAK with its code. -/
def execBrk (code : BitVec 7) (s : State) : Out :=
  runScalar true (fun _ _ _ => .trap { Trap.of cBreak with code := code.setWidth 8 }) s
/-- ERET (R154): ILLEGAL outside handler mode; waits for the handler's lane work. -/
def execEret (s : State) : Out :=
  runScalar true (fun s g _ =>
    if g.ctl.trapSplit != some s.sched.split then .trap (Trap.of cIllegal)
    else if !g.handlerDone s.sched.split then .wait s
    else .done (s.putGroup s.curKey (g.leaveTrap s.sched.split))) s
/-- SLEEP (R149): no issue for min(s[a], 2^32 − 1) cycles, which run on through a trap. -/
def execSleep (a : SReg) (s : State) : Out :=
  runScalar true (fun s g sp =>
    let n := if 2 ^ 32 - 1 < (sp.reg a).toNat then 2 ^ 32 - 1 else (sp.reg a).toNat
    let rest := sp.naps.filter fun x => x.1 != sp.pc
    let till := ((sp.naps.find? fun x => x.1 == sp.pc).map (·.2)).getD (s.now + n)
    if till ≤ s.now then .done (s.put g { sp.advance with naps := rest })
    else .wait (s.put g { sp with status := .sleep till, naps := (sp.pc, till) :: rest })) s

/-- A split ends (R130): its lanes die, its entry is freed, and what it was owed is written nowhere. -/
def Group.endSplit (g : Group) (split : Nat) (sp : Split) : Group :=
  { g with
    splits := amDel g.splits split
    lanes := { g.lanes with alive := g.lanes.alive &&& ~~~sp.mask }
    async := { g.async with access := amMap (fun _ a => if a.split = split then { a with sreg := none } else a) g.async.access
                            owed := amFilter (fun k _ => !(k / 32 == split)) g.async.owed } }
/-- The end of a handler by EXIT (R154): the split's own held entries are dropped, the others go back, INH clears. -/
def Group.endHandler (g : Group) (split : Nat) : Group :=
  { g with
    trap := { g.trap with cause := g.trap.cause &&& 0xFFFBFFFF }
    ctl := { g.ctl with trapSplit := none, trapFell := false }
    async := { g.async with laneq := (g.async.held.filter fun e => e.tag.split != split) ++ g.async.laneq, held := [] } }
/-- EXIT (R130, R149, R154): waits for the split's lane work; the last split's EXIT retires the group. -/
def execExit (s : State) : Out :=
  runScalar true (fun s g sp =>
    let k := s.sched.split
    if !g.laneDone k then .wait s
    else
      let g1 := if g.ctl.trapSplit = some k then g.endHandler k else g
      let g2 := (g1.endSplit k sp).joinAll
      let s1 := s.putGroup s.curKey g2
      .done (if g2.splits.isEmpty then s1.retireGroup s1.curKey true else s1.wakeTeam g2.team)) s

/-- A sleep ends. -/
def execSleepExpiry (core slot split : Nat) (s : State) : Out :=
  match (s.group (gkey core slot)).bind fun g => g.split split with
  | none => .next s
  | some sp =>
    match sp.status with
    | .sleep t =>
      if t ≤ s.now then
        .next ((s.modSplit (gkey core slot) split fun x =>
          { x.advance with status := .ready, naps := x.naps.filter fun y => y.1 != x.pc }).retireAt (gkey core slot) split)
      else .next s
    | _ => .next s

end Sys2Proof.Machine
end

