-- ==== Sys2Proof/Machine/Cluster.lean ====
section
/-! DEFINITION. The Pennant controller: placement (R217, R311, R314, R327), group saves and restores (R219 to R222). -/
namespace Sys2Proof.Machine

/-! ### Node records (R312) -/

def ndUnit (b : List Byte) : Nat := bitsOf (field b 0 8) 0 8
def ndGroups (b : List Byte) : Nat := bitsOf (field b 0 8) 8 5 + 1
def ndTeams (b : List Byte) : Nat := bitsOf (field b 0 8) 16 16
def ndPreds (b : List Byte) : Nat := bitsOf (field b 0 8) 32 8
def ndChild (b : List Byte) : Nat := bitsOf (field b 0 8) 40 8
def ndPc (b : List Byte) : Nat := 4 * bitsOf (field b 0 8) 48 16
def ndPart (b : List Byte) : DWord := BitVec.ofNat 64 (field b 8 8)
def ndCode (b : List Byte) : Nat := field b 16 8
/-- Successor handles that are not 0. -/
def ndSucc (b : List Byte) : List Nat := [field b 24 4, field b 28 4].filter (· != 0)
/-- Operand entries that are used: record address, and whether it is written. -/
def ndOps (b : List Byte) : List (Nat × Bool) :=
  ((upFrom 0 4).map fun i => field b (32 + 8 * i) 8).filterMap fun e =>
    if e = 0 then none else some (e / 64 * 64, bitsOf e 1 1 == 1)
/-- Pool units of 16 KiB a team of the record takes. -/
def ndUnits (b : List Byte) : Nat := (poolDemand (ndPart b) (ndGroups b) + 16383) / 16384

/-! ### What a core has free (R166, R217, R222) -/

/-- The i-th enabled slice's number in the package (R255). -/
def nthBit (x : Nat) : Nat → Nat → Nat → Nat
  | 0, k, _ => k
  | n + 1, k, i => if bitsOf x k 1 = 0 then nthBit x n (k + 1) i else if i = 0 then k else nthBit x n (k + 1) (i - 1)
def State.sliceAt (s : State) (i : Nat) : Nat :=
  if s.dev.topology.slices = BitVec.allOnes 384 then i else nthBit s.dev.topology.slices.toNat 384 0 i
def State.coreOn (s : State) (core : Nat) : Bool := 
  decide (core < 384) && s.dev.topology.cores.getLsbD core && s.dev.topology.clusters.getLsbD (clusterOf core)
/-- Pool bytes a team holds: nothing of its groups while they are saved, nothing of its share while that is saved (log entry 16). -/
def Team.poolHeld (s : State) (t : Team) : Nat :=
  let w := t.part
  let gone := t.groups.all fun x => match s.group (gkey t.core x.2) with
    | some g => g.ctl.save == .saved
    | none => true
  (if t.out.isSome && gone then 0 else t.count * (128 * partSlots w + if partDiverge w then 8192 else 0))
    + (if t.poolSaved then 0 else 16384 * (partScr w + partAcc w))
def State.teamsOn (s : State) (core : Nat) : List (Nat × Team) := s.head.teams.filter fun t => t.2.core == core
def State.freePool (s : State) (core : Nat) : Nat :=
  2097152 - (s.teamsOn core).foldl (fun n t => n + t.2.poolHeld s) 0
def State.freeSlots (s : State) (core : Nat) : List Nat := (upFrom 0 32).filter fun i => (s.group (gkey core i)).isNone

/-! ### Eligible cores (R217, R263, R327) -/

/-- A strict slot of some table belongs to a tenant. -/
def State.strictSlot (s : State) (tenant : Nat) : Bool :=
  s.dev.slotTables.any fun t => t.2.2.getLsbD tenant && t.2.1.contains (BitVec.ofNat 4 tenant)
/-- The entries of a segment table that name an image (R312). -/
def State.segments (s : State) (asid addr : Nat) : List (Nat × Nat) :=
  match if addr = 0 then none else s.devRead asid addr 256 with
  | none => []
  | some b => (upFrom 0 32).filterMap fun i => let v := field b (8 * i) 8; if v = 0 then none else some (i, v)
/-- Whether a slot must be loaded for a launch (R176). -/
def needsLoad (x : CodeSlot) (launch image : Nat) : Bool :=
  !(x.owner == some launch && x.state == .landed && x.image == some (BitVec.ofNat 64 image))
/-- Whether a launch's team must wait for a slot: its launch loads it from the same image, or a load of its launch is under way (R176). -/
def CodeSlot.awaited (x : CodeSlot) (launch image : Nat) : Bool :=
  x.state == .loading && x.owner == some launch && (!x.failed || x.image == some (BitVec.ofNat 64 image))
/-- Whether a core can take a team of `g` groups. -/
def State.coreTakes (s : State) (launch asid rcb g : Nat) (part : DWord) (segs : List (Nat × Nat)) (core : Nat) : Bool :=
  s.coreOn core && decide (g ≤ (s.freeSlots core).length) && decide (poolDemand part g ≤ s.freePool core)
    && (s.teamsOn core).all (fun t =>
      let other := s.rcbTenant t.2.asid t.2.rcb
      other == s.rcbTenant asid rcb || !s.strictSlot other)
    && segs.all fun x =>
      let c := s.codeSlot core x.1
      !s.ownedByOther c.owner launch core && !c.awaited launch x.2
/-- Row and column of a core or slice in its die. -/
def meshRow (n : Nat) : Nat := n % 96 / 12
def meshCol (n : Nat) : Nat := n % 12
/-- Whether a slice lies beneath a core's router or a neighbour of it in its row or column. -/
def nearSlice (core slice : Nat) : Bool :=
  let far := fun (a b : Nat) => (a - b) + (b - a)
  dieOf core == slice / 96 && decide (far (meshRow core) (meshRow slice) + far (meshCol core) (meshCol slice) ≤ 1)
/-- The home slices of a node's operands (R217): none for an operand whose base is not mapped here. -/
def State.operandHomes (s : State) (asid : Nat) (rec_ : List Byte) : List (Option Nat) :=
  (ndOps rec_).map fun o =>
    match s.devNum asid (o.1 + 8) 8 with
    | none => none
    | some base =>
      if s.ownMemory (BitVec.ofNat 64 base) then
        (match s.resolve (devWho asid 0) (BitVec.ofNat 64 base) 1 .any with
         | .ok [{ place := .mem pa, len := _, va := _, fmt := _ }] => some (s.sliceAt (s.homeOf (pa / 128)))
         | _ => none)
      else none
def affinity (homes : List (Option Nat)) (core : Nat) : Nat :=
  (homes.filter fun h => match h with | some sl => nearSlice core sl | none => false).length
/-- The cores of a cluster of the package. -/
def clusterCores (cluster : Nat) : List Nat := (upFrom 0 8).map fun k => coreOfLoc (cluster / 12) (cluster % 12) k
/-- The least of a list under an order. -/
def leastBy {α : Type} (lt : α → α → Bool) : List α → Option α
  | [] => none
  | x :: xs => match leastBy lt xs with
    | none => some x
    | some y => if lt y x then some y else some x
/-- The eligible core of a cluster that R217 picks. -/
def State.pickCore (s : State) (launch asid rcb : Nat) (rec_ : List Byte) (segs : List (Nat × Nat)) (homes : List (Option Nat))
    (cluster : Nat) : Option Nat :=
  leastBy (fun a b =>
    let x := affinity homes a
    let y := affinity homes b
    decide (y < x) || (x == y && (decide (s.freePool a < s.freePool b) || (s.freePool a == s.freePool b && decide (a < b)))))
    ((clusterCores cluster).filter fun c => s.coreTakes launch asid rcb (ndGroups rec_) (ndPart rec_) segs c)
/-- The cluster a team is sent to (R327): affinity of its best eligible core, then free slots, then the lowest. -/
def State.pickCluster (s : State) (launch asid rcb : Nat) (rec_ : List Byte) (segs : List (Nat × Nat)) : Option Nat :=
  let homes := s.operandHomes asid rec_
  let all := (upFrom 0 48).filterMap fun k => (s.pickCore launch asid rcb rec_ segs homes k).map fun c =>
    (k, affinity homes c, (clusterCores k).foldl (fun n x => n + (if s.coreOn x then (s.freeSlots x).length else 0)) 0)
  (leastBy (fun a b => decide (b.2.1 < a.2.1) || (a.2.1 == b.2.1 && (decide (b.2.2 < a.2.2) || (a.2.2 == b.2.2 && decide (a.1 < b.1)))))
    all).map (·.1)

/-! ### Budgets and slots (R310, R311) -/

/-- Teams whose RCB path holds an RCB. -/
def State.teamsUnder (s : State) (asid rcb : Nat) : List (Nat × Team) :=
  s.head.teams.filter fun t => t.2.asid == asid && (s.rcbPath asid t.2.rcb).contains rcb
/-- Whether a team of `units` pool units on a core (any core where none) keeps every budget of the path. -/
def State.budgetRoom (s : State) (asid rcb units : Nat) (core : Option Nat) : Bool :=
  (s.rcbPath asid rcb).all fun r =>
    let ts := s.teamsUnder asid r
    let cores := ts.foldl (fun (m : NSet) t => nsAdd m t.2.core) []
    let held := ts.foldl (fun n t => n + (poolDemand t.2.part t.2.count + 16383) / 16384) 0
    let more := match core with
      | some c => if nsHas cores c then 0 else 1
      | none => if cores.isEmpty then 1 else 0
    decide (cores.length + more ≤ s.rcbCores asid r) && decide (held + units ≤ s.rcbPool asid r)
/-- Whether a team alone exceeds a budget of the path (R310). -/
def State.budgetAlone (s : State) (asid rcb units : Nat) : Bool :=
  (s.rcbPath asid rcb).any fun r => decide (s.rcbPool asid r < units) || decide (s.rcbCores asid r < 1)
/-- The slots of a supplying RCB that teams hold. -/
def State.slotsHeld (s : State) (asid rcb : Nat) : List Nat :=
  (s.head.teams.filter fun t => t.2.asid == asid).flatMap fun t =>
    ([t.2.saveSlot, t.2.poolSlot, some t.2.spillSlot].filterMap id).filterMap fun x => if x.1 == rcb then some x.2 else none
/-- The lowest free slot of a supplying RCB. -/
def State.freeRegion (s : State) (asid rcb : Nat) : Option Nat :=
  (upFrom 0 (s.rcbField asid rcb 80 2)).find? fun j => !(s.slotsHeld asid rcb).contains j
/-- The slot of a region: none when a supplying RCB has none free; an inner none when no RCB supplies it. -/
def State.takeRegion (s : State) (asid rcb o : Nat) : Option (Option (Nat × Nat)) :=
  match s.rcbRegion asid rcb o with
  | none => some none
  | some (r, _) => (s.freeRegion asid r).map fun j => some (r, j)
/-- The address of a slot of a region. -/
def State.regionBase (s : State) (asid o size : Nat) (slot : Nat × Nat) : Nat := s.rcbField asid slot.1 o 8 + slot.2 * size

/-! ### Placement (R176, R217, R311, R314) -/

/-- Preload the slots a node names: true, all landed; none, a page is missing; false, an image cannot be read. -/
def State.preload (s : State) (core l asid rcb : Nat) : List (Nat × Nat) → State × Option Bool
  | [] => (s, some true)
  | (k, image) :: rest =>
    let x := s.codeSlot core k
    if !needsLoad x l image then s.preload core l asid rcb rest
    else
      let w : Who := { core := core, team := none, launch := l, asid := asid, tlb := false }
      let a := BitVec.ofNat 64 image
      let x1 : CodeSlot := { state := .loading, image := some a, owner := some l, asid := asid, fetch := none, bytes := [], failed := false }
      if !s.ownMemory a then ((s.setCodeSlot core k x1).failCode core k x1 cProtect, some false)
      else
        match s.readCode w a false with
        | .bytes s1 bs => (s1.landCode core k x1 bs).preload core l asid rcb rest
        | .stop c _ => ((s.setCodeSlot core k x1).failCode core k x1 c, some false)
        | .later =>
          let r := s.serveRange (dieOf core) image 8192 l asid rcb (.code core k)
          match r.2 with
          | some false => ((r.1.setCodeSlot core k x1).failCode core k x1 cPage, some false)
          | _ => (r.1, none)
/-- A group at its start (R314). -/
def newGroup (launch node team index teamIndex : Nat) (part : DWord) (pc s1 s2 vec spb : DWord) (cqb : Store DWord) : Group :=
  { launch := launch, node := node, team := team, index := index, teamIndex := teamIndex, size := partSlots part,
    diverge := partDiverge part, lanes := Lanes.fresh index, trap := TrapCsrs.fresh vec, csrs := GroupCsrs.fresh spb cqb,
    async := Async.fresh, ctl := Control.fresh, splits := [(0, Split.fresh pc s1 s2)] }
/-- The four bound queues a group starts with (R226). -/
def startQueues (l : Launch) : Store DWord :=
  (upFrom 0 4).foldl (fun m i => stSet 0 m i ((l.queues[i]?).getD 0)) []
def State.modNode (s : State) (l h : Nat) (f : Node → Node) : State := s.modLaunch l fun x => { x with nodes := amMod f x.nodes h }
def State.node (s : State) (l h : Nat) : Option Node := (s.launch l).bind fun x => amGet x.nodes h
/-- Start a team on a core whose slots are loaded. -/
def State.startTeam (s : State) (core l h : Nat) (x : Launch) (n : Node) (save pool : Option (Nat × Nat)) (spill : Nat × Nat) : State :=
  let id := s.head.nextTeam
  let g := ndGroups n.record
  let slots := (s.freeSlots core).take g
  let index := ndTeams n.record - n.toPlace
  let groups := (upFrom 0 g).zip slots
  let team : Team :=
    { launch := l, node := h, index := index, core := core, groups := groups, count := g, part := ndPart n.record, rcb := n.rcb,
      asid := x.asid, saveSlot := save, poolSlot := pool, spillSlot := spill, slot0 := (slots.head?).getD 0, scratch := [],
      tiles := [], tcfg := [], residentB := none, colls := [], poolSaved := false, started := s.now, out := none }
  let base := s.regionBase x.asid 72 0x240000 spill
  let vec := BitVec.ofNat 64 (s.rcbHandler x.asid n.rcb)
  let s0 := (s.dropClean core).setWindow (collWord core team.slot0) 0
  let s1 := s0.modHead fun h => { h with teams := amSet h.teams id team, nextTeam := id + 1 }
  let s2 := groups.foldl (fun (a : State) y =>
    let key := gkey core y.2
    let spb := BitVec.ofNat 64 (base + y.1 * 0x12000 + 0x2000)
    let gr := newGroup l h id y.1 index (ndPart n.record) (BitVec.ofNat 64 (ndPc n.record)) n.s1 n.s2 vec spb (startQueues x)
    { a.putGroup key gr with serials := stSet 0 a.serials key (a.serial key + 1) }) s1
  let s3 := match x.cover with
    | some c => if h = 0 && c.next = 0 then s2.modLaunch l fun y => { y with cover := some { c with core := core } } else s2
    | none => s2
  s3.modNode l h fun y => { y with toPlace := y.toPlace - 1, state := if y.toPlace ≤ 1 then .running else y.state }
/-- Whether an image of the launch could not be read anywhere. -/
def State.imageFailed (s : State) (l : Nat) : Bool :=
  s.cores.any fun c => c.2.codeSlots.any fun x => x.2.failed && x.2.owner == some l && x.2.state == .loading
/-- The segment table of a node (R312). -/
def nodeTable (x : Launch) (n : Node) : Nat := if ndCode n.record = 0 then x.segtab.toNat else ndCode n.record
/-- TEAM_PLACEMENT: the next team of a ready unit 0 node is placed whole on an eligible core of a cluster, or stays in the pool. -/
def execTeamPlacement (cluster launch handle : Nat) (s : State) : Out :=
  match s.launch launch, s.node launch handle with
  | some x, some n =>
    if n.state != .ready || n.toPlace = 0 || x.cancelling || ndUnit n.record != 0 || s.imageFailed launch || !s.issuing then .next s
    else
      let table := nodeTable x n
      let t := if table = 0 then (s, some true)
        else s.serveRange (cluster / 12) table 256 launch x.asid n.rcb (.code (coreOfLoc (cluster / 12) (cluster % 12) 0) 0)
      if t.2 != some true then .next t.1
      else
        let s1 := t.1
        let segs := s1.segments x.asid table
        match s1.pickCore launch x.asid n.rcb n.record segs (s1.operandHomes x.asid n.record) cluster with
        | none => .next s1
        | some core =>
          if !s1.budgetRoom x.asid n.rcb (ndUnits n.record) (some core) then .next s1
          else
            match s1.takeRegion x.asid n.rcb 56, s1.takeRegion x.asid n.rcb 64, s1.takeRegion x.asid n.rcb 72 with
            | some save, some pool, some (some spill) =>
              let r := s1.preload core launch x.asid n.rcb segs
              if r.2 == some true then .next (r.1.startTeam core launch handle x n save pool spill) else .next r.1
            | _, _, _ => .next s1
  | _, _ => .next s

/-! ### The save area (R219 to R221) -/

/-- Free bytes, where the spec gives no layout. -/
def freeBytes (s : State) (n : Nat) : State × List Byte :=
  let k := (n + 7) / 8
  ({ s with sched := { s.sched with free := s.sched.free + k } },
   ((upFrom s.sched.free k).flatMap fun i => bytesOf 8 (Config.freeWord i).toNat).take n)
/-- The group CSRs of R151 by number, as the save area images them: all that are neither per split nor of the core (R150). -/
def groupCsrNumbers : List Nat :=
  [0x01, 0x02, 0x03, 0x04, 0x05, 0x08, 0x09, 0x0A, 0x10, 0x11, 0x12, 0x13, 0x14, 0x15, 0x16, 0x17, 0x18, 0x19, 0x20, 0x21, 0x22, 0x23, 0x24, 0x25] ++ upFrom 0x28 8
    ++ upFrom 0x30 4 ++ upFrom 0x34 4
/-- The header past its state byte (R220). The places inside it are the model's (log entry 47). -/
def State.saveHeader (s : State) (key : Nat) (g : Group) : List Byte :=
  bytesOf 2 (s.gen key).toNat ++ bytesOf 2 g.size ++ bytesOf 2 g.csrs.rsb ++ bytesOf 1 (if g.diverge then 1 else 0)
    ++ bytesOf 1 g.splits.length ++ bytesOf 1 g.async.laneq.length ++ bytesOf 1 (match g.ctl.fault with
      | some f => f.cause.toNat
      | none => 0)
/-- An entry of the split table: PC, lp, WB and lane mask, then the state, which has no number in the spec and stays free, and the join id
(R220; log entry 47). -/
def Split.savedAt (base : Nat) (sp : Split) : List (Nat × List Byte) :=
  [(base, bytesOf 8 sp.pc.toNat ++ bytesOf 4 sp.lp.toNat ++ bytesOf 4 sp.wb ++ bytesOf 4 sp.mask.toNat),
   (base + 21, bytesOf 1 (match sp.status with
      | .joining id _ => id
      | _ => 0))]
/-- An entry of the lane queue: the 12 instruction bytes, lane mask, WB and split index (R220). -/
def LaneEntry.saved (e : LaneEntry) : List Byte :=
  bytesOf 12 e.bits.toNat ++ bytesOf 4 e.tag.mask.toNat ++ bytesOf 2 e.tag.wb ++ bytesOf 1 e.tag.split
/-- A split's context: s1 to s31, then c0 to c7, one byte each (R220). -/
def Split.context (sp : Split) : List Byte :=
  ((upFrom 1 31).flatMap fun k => bytesOf 8 (sp.reg (BitVec.ofNat 5 k)).toNat)
    ++ (upFrom 0 8).flatMap fun k => bytesOf 1 (if sp.cbits.getLsbD k then 1 else 0)
/-- The parts of a group's save area, by offset (R220). -/
def State.saveParts (s : State) (key : Nat) (g : Group) : List (Nat × List Byte) :=
  let at_ : State := { s with sched := { s.sched with core := key / 32, slot := key % 32 } }
  let csr := (upFrom 0 128).flatMap fun n =>
    bytesOf 8 (if groupCsrNumbers.contains n then ((at_.csrRead g (Split.fresh 0 0 0) n).getD 0).toNat else 0)
  let lanes := ((upFrom 1 7).flatMap fun p => bytesOf 4 (g.pred p).toNat) ++ bytesOf 4 g.lanes.alive.toNat
    ++ lanes32.flatMap fun i => bytesOf 2 (stGet 0 g.lanes.vids i).toNat
  let async := ((upFrom 0 8).flatMap fun k => bytesOf 1 (g.token k))
    ++ bytesOf 2 g.async.loads ++ bytesOf 2 g.async.stores ++ bytesOf 2 g.async.copies ++ bytesOf 2 g.async.tiles
  let slots := upFrom g.csrs.rsb g.size
  [(2, s.saveHeader key g), (0x100, csr), (0x500, lanes), (0x600, async), (0x4000, slots.flatMap fun k => g.pendBytes k),
   (0x5000, slots.flatMap fun k => g.lineBytes k)]
    ++ (g.splits.flatMap fun x => x.2.savedAt (0x700 + 32 * x.1))
    ++ (g.async.laneq.zip (upFrom 0 64)).map (fun x => (0xB00 + 32 * x.2, x.1.saved))
    ++ g.splits.map fun x => (0x1300 + 256 * x.1, x.2.context)
/-- The save area of a group, when its team has a save slot. -/
def State.saveBase (s : State) (g : Group) : Option (Nat × Nat) :=
  match s.team g.team with
  | none => none
  | some t => t.saveSlot.map fun j => (t.asid, s.regionBase t.asid 56 0x2A0000 j + g.index * 0x15000)
/-- Write parts of a save area. -/
def State.putParts (s : State) (asid base : Nat) (ps : List (Nat × List Byte)) : State :=
  ps.foldl (fun a p => a.devWrite asid (base + p.1) p.2) s
/-- The image as the group stands. -/
def State.writeSave (s : State) (key : Nat) : State :=
  match s.group key with
  | none => s
  | some g =>
    match s.saveBase g with
    | none => s
    | some (asid, base) => s.putParts asid base (s.saveParts key g)
/-- Set the state byte of a save area. -/
def State.saveMark (s : State) (key n : Nat) : State :=
  match (s.group key).bind s.saveBase with
  | none => s
  | some (asid, base) => s.devWrite asid base (bytesOf 1 n)
/-- The bytes of a save area whose content the spec leaves open hold free values; what R220 names is written after them. -/
def State.saveOpen (s : State) (key : Nat) : State :=
  match (s.group key).bind s.saveBase with
  | none => s
  | some (asid, base) =>
    let a := freeBytes s 255
    let b := freeBytes a.1 (1024 + 2048 + 8192)
    (b.1.devWrite asid (base + 1) a.2).devWrite asid (base + 0x700) b.2
/-- A group of the core whose save has begun and not ended. -/
def State.savingOn (s : State) (core : Nat) : Bool := s.groups.any fun g => g.1 / 32 == core && g.2.ctl.save == .saving
/-- GROUP_SAVE: a group of a team chosen for pre-emption stops; its waits are withdrawn, its quantum entries forwarded. -/
def execGroupSave (core slot : Nat) (s : State) : Out :=
  let key := gkey core slot
  match s.group key with
  | none => .next s
  | some g =>
    let chosen := match s.team g.team with
      | some t => t.out.isSome && t.saveSlot.isSome
      | none => false
    if !chosen || g.ctl.save != .running || s.savingOn core then .next s
    else
      let s1 := s.quantForward core (fromGroup slot)
      let s2 := s1.modGroup key fun x =>
        ((x.withdraw).modAsync fun a => { a with xshfl := none, stall := none, fetches := [] }).modCtl fun c => { c with save := .saving }
      .next (s2.saveMark key 1)
/-- Whether a saved team is saved whole. -/
def State.teamSaved (s : State) (t : Team) : Bool :=
  t.groups.all fun x => match s.group (gkey t.core x.2) with
    | some g => g.ctl.save == .saved
    | none => true
/-- Apply the arrivals a group holds, in order. -/
def State.applyHeld (s : State) (key : Nat) (ps : List RegPacket) : State :=
  ps.foldl (fun a p => let r := a.applyRegs p; r.1.regsDone p r.2) (s.modGroup key fun g => g.modCtl fun c => { c with arrivals := [] })
/-- GROUP_SAVE_COMPLETE: issued instructions are complete; the state is in the save area, and held arrivals are applied to it. -/
def execGroupSaveComplete (core slot : Nat) (s : State) : Out :=
  let key := gkey core slot
  match s.group key with
  | none => .next s
  | some g =>
    let busy := g.async.laneWait.isSome || g.splits.any fun x => match x.2.status with
      | .reply _ _ _ => true
      | _ => false
    if g.ctl.save != .saving || busy then .next s
    else
      let s1 := (s.modGroup key fun x => x.modCtl fun c => { c with save := .saved }).applyHeld key g.ctl.arrivals
      let s2 := ((s1.saveOpen key).writeSave key).saveMark key 2
      let s3 := match s2.team g.team with
        | none => s2
        | some t =>
          if s2.teamSaved t then
            (s2.modTeam g.team fun y => { y with out := some s.now }).wakeUp (.teamPoolSave g.team)
          else s2
      .next (s3.wakeUp .nodeDispatch)
/-- The team save area (R222): scratchpad, accumulator, tile configuration and resident B record, in the spec's order; their places are the
model's (log entry 47). -/
def Team.poolParts (t : Team) : List (Nat × List Byte) :=
  let scr := 16384 * partScr t.part
  let tile := fun k => let w := t.tileWord k
    if tileValid w then (upFrom 0 (tileRows w)).flatMap fun r => (upFrom 0 (tileCols w)).flatMap fun n => bytesOf 4 (t.elem k r n).toNat
    else []
  let acc := (upFrom 0 16).flatMap tile
  ((upFrom 0 (scr / 128)).map fun i => (128 * i, t.scratchBytes (128 * i) 128))
    ++ [(scr, acc), (0x200000, (upFrom 0 16).flatMap fun k => bytesOf 4 (t.tileWord k).toNat)]
    ++ match t.residentB with
      | some b => [(0x200040, b.record)]
      | none => []
/-- The team save area of a team that has a pool save slot. -/
def State.poolBase (s : State) (t : Team) : Option Nat := t.poolSlot.map fun j => s.regionBase t.asid 64 0x210000 j
/-- TEAM_POOL_SAVE: with every group saved and its matrix operations finished, a team's pool share is saved (R202, R222). -/
def execTeamPoolSave (team : Nat) (s : State) : Out :=
  match s.team team with
  | none => .next s
  | some t =>
    match s.poolBase t with
    | none => .next s
    | some base =>
      if t.out.isNone || t.poolSaved || !s.teamSaved t || s.teamBusy t.core team || !t.colls.isEmpty then .next s
      else .next (((s.putParts t.asid base t.poolParts).modTeam team fun y => { y with poolSaved := true }).wakeUp .nodeDispatch)
/-- Whether a saved team's core can hold it again (R328). -/
def State.coreHolds (s : State) (t : Team) : Bool :=
  decide (poolDemand t.part t.count - t.poolHeld s ≤ s.freePool t.core)
/-- GROUP_RESTORE: the pool share comes back before any group; issue resumes. A team whose save has not ended is not restored. -/
def execGroupRestore (core slot : Nat) (s : State) : Out :=
  let key := gkey core slot
  match s.group key with
  | none => .next s
  | some g =>
    match s.team g.team with
    | none => .next s
    | some t =>
      if g.ctl.save != .saved || (t.out.isSome && (!s.teamSaved t || !s.coreHolds t)) then .next s
      else
        let s1 := (s.saveMark key 0).modTeam g.team fun y => { y with out := none, poolSaved := false }
        .next (s1.modGroup key fun x =>
          (x.modAsync fun a => { a with stall := none }).modCtl fun c => { c with save := .running })

end Sys2Proof.Machine
end

