-- ==== Sys2Proof/Machine/CopyOps.lean ====
section
/-! DEFINITION. What a copy engine does with an entry (R227 to R238): reading at the homes, writes in order, plans for a copy, a tensor
copy and a bin scatter. -/
namespace Sys2Proof.Machine

/-! ### Reading and writing -/

/-- How an entry's engine accesses memory (R234): the scratchpad only for an entry with a token. -/
def CopyEntry.who (e : CopyEntry) : Who :=
  { core := e.engine / 24 * 96, team := e.team, launch := e.launch, asid := e.asid, tlb := false }
/-- Pieces of a range that do not cross a 128-byte line. -/
def linePieces (a : DWord) (n : Nat) : List (DWord × Nat) :=
  if n = 0 then []
  else
    (upFrom (a.toNat / 128) ((a.toNat + n - 1) / 128 + 1 - a.toNat / 128)).map fun l =>
      let lo := if l * 128 < a.toNat then a.toNat else l * 128
      let hi := if a.toNat + n < (l + 1) * 128 then a.toNat + n else (l + 1) * 128
      (BitVec.ofNat 64 lo, hi - lo)
/-- Pieces of a range of a transfer that begins at `b`: each lies in one 64-byte step of it, so in one granule (R373). -/
def piecesFrom (b : Nat) (a : DWord) (n : Nat) : List (DWord × Nat) :=
  if n = 0 then []
  else
    (upFrom ((a.toNat - b) / 64) ((a.toNat + n - 1 - b) / 64 + 1 - (a.toNat - b) / 64)).map fun j =>
      let lo := Nat.max a.toNat (b + 64 * j)
      (BitVec.ofNat 64 lo, Nat.min (a.toNat + n) (b + 64 * (j + 1)) - lo)
/-- Pieces of an engine's access: of a transfer, or by lines. -/
def enginePieces (base : Option Nat) (a : DWord) (n : Nat) : List (DWord × Nat) :=
  match base with
  | some b => piecesFrom b a n
  | none => linePieces a n
/-- What an engine's read finds. -/
inductive Got where
  | bytes (bs : List Byte)
  | ask (l : List (DWord × HomeOp))
  | page (a : DWord) (n : Nat)
  | fault
deriving DecidableEq, Repr
/-- Bytes fetched before from another rank. -/
def farBytes (far : List (DWord × List Byte)) (x : DWord × Nat) : Option (List Byte) :=
  (far.find? fun y => y.1 == x.1 && y.2.length == x.2).map (·.2)
/-- Read ordinary bytes at their homes, with what other ranks have answered. -/
def State.engineGet (s : State) (w : Who) (far : List (DWord × List Byte)) (a : DWord) (n : Nat) (base : Option Nat := none) : Got :=
  if n = 0 then .bytes []
  else
    match s.resolve w a n .rd with
    | .error (.trap c) => if c == cPage || c == cRevoked then .page a n else .fault
    | .error .stall => .page a n
    | .ok gs =>
      if anyFmt gs || s.touchesPoison gs then .fault
      else if gs.any Seg.isRemote then
        let ps := enginePieces base a n
        let miss := ps.filter fun x => (farBytes far x).isNone
        if miss.isEmpty then .bytes (ps.flatMap fun x => (farBytes far x).getD []) else .ask (miss.map fun x => (x.1, .get x.2))
      else .bytes (s.segsHomeRead gs).2
/-- How a write changes its bytes. -/
inductive WrKind where
  | plain
  /-- A reduction (R236): the type and operation of R95's numbering. -/
  | red (t : BitVec 4) (op : Nat)
  /-- Elements of one block of a format page, with its scale. -/
  | block (scale : Nat)
deriving DecidableEq, Repr
/-- One write of an entry. -/
structure CopyWr where
  addr : DWord
  bytes : List Byte
  kind : WrKind
deriving DecidableEq, Repr
/-- The type and operation of a reduce code (R11, R236). -/
def reduceOp (k : Nat) : WrKind :=
  match k with
  | 1 => .red 12 0
  | 2 => .red 11 0
  | 3 => .red 4 0
  | 4 => .red 12 5
  | 5 => .red 12 4
  | 6 => .red 12 7
  | 7 => .red 12 6
  | 8 => .red 5 1
  | 9 => .red 5 2
  | 10 => .red 5 3
  | _ => .plain
/-- Reduce a run of elements. -/
def reduceBytes (t : BitVec 4) (op : Nat) : Nat → List Byte → List Byte → List Byte
  | 0, _, _ => []
  | k + 1, old, new =>
    let n := bytesIn t
    bytesOf n (atomicOp t op (leNat (old.take n)) (leNat (new.take n))).bits ++ reduceBytes t op k (old.drop n) (new.drop n)
/-- Write one element's stored planes at the home. -/
def Mem.homeElem (m : Mem) (pa : Nat) (fm : Nat × Nat × Nat) (v : Nat) : Mem :=
  let e := pa % 65536
  (upFrom 0 fm.2.1).foldl (fun a i =>
    let j := 7 - i
    let at_ := planeByte (elemFrame pa) e j
    let r := a.homeRead at_ 1
    let old := leNat r.2
    let bit := 2 ^ (e % 8)
    let new := if bitsOf v j 1 = 1 then (if bitsOf old (e % 8) 1 = 1 then old else old + bit)
      else (if bitsOf old (e % 8) 1 = 1 then old - bit else old)
    r.1.homeWrite at_ (bytesOf 1 new)) m
/-- Write one block at the home. -/
def Mem.homeBlock (m : Mem) (pa : Nat) (fm : Nat × Nat × Nat) (scale : Nat) (els : List Byte) : Mem :=
  let m1 := m.homeWrite (fm.1 + 2 * (pa % 65536 / fm.2.2)) (bytesOf 2 scale)
  ((upFrom pa els.length).zip els).foldl (fun a x => a.homeElem x.1 fm x.2.toNat) m1
/-- Perform one write: the state and what other ranks are asked; none at a fault. -/
def State.enginePut (s : State) (w : Who) (x : CopyWr) (base : Option Nat := none) : Option (State × List Ask) :=
  let n := x.bytes.length
  let need : Need := match x.kind with | .red _ _ => .atom | _ => .wr
  match s.resolve w x.addr n (if need == .atom then .wr else need) with
  | .error _ => none
  | .ok gs =>
    if s.touchesLive gs then none
    else if gs.any Seg.isRemote then
      let a := x.addr.toNat
      let ask : Nat → HomeOp → Ask := fun at_ op =>
        { lane := 0, rank := at_ / 2 ^ 43 % 2 ^ 20, region := BitVec.ofNat 4 (at_ / 2 ^ 39), off := at_ % 2 ^ 39, op := op }
      match x.kind with
      | .plain => some (s, (enginePieces base x.addr n).map fun p =>
          ask p.1.toNat (.put ((x.bytes.drop (p.1.toNat - a)).take p.2)))
      | .red t op => some (s, (upFrom 0 (n / bytesIn t)).map fun i =>
          ask (a + i * bytesIn t) (.atom (BitVec.ofNat 4 op) t 0 2 (BitVec.ofNat 64 (field x.bytes (i * bytesIn t) (bytesIn t)))))
      | .block scale => some (s, ((upFrom 0 n).zip x.bytes).map fun y =>
          ask (a + y.1) (.putElement (BitVec.ofNat 32 (scale * 65536 + y.2.toNat))))
    else
      match x.kind with
      | .plain => if anyFmt gs then none else some (s.segsHomeWrite gs x.bytes, [])
      | .red t op =>
        if anyFmt gs then none
        else
          match s.resolve w x.addr n .rd with
          | .error _ => none
          | .ok _ =>
            let r := s.segsHomeRead gs
            some (r.1.segsHomeWrite gs (reduceBytes t op (n / bytesIn t) r.2 x.bytes), [])
      | .block scale =>
        match gs with
        | [{ place := .mem pa, len := _, va := _, fmt := some fm }] => some (s.modMem fun m => m.homeBlock pa fm scale x.bytes, [])
        | _ => none
/-- Perform writes in order, up to the first fault. -/
def State.enginePuts (s : State) (w : Who) (base : Option Nat) : List CopyWr → List Ask → State × List Ask × Bool
  | [], as => (s, as, false)
  | x :: xs, as =>
    match s.enginePut w x base with
    | none => (s, as, true)
    | some r => r.1.enginePuts w base xs (as ++ r.2)

/-! ### Plans -/

/-- What an entry comes to before its writes: it waits for a page, needs answers of other ranks, is a BADPKT, or has writes, a fault after
them, the bytes it writes in all, and whether a token was dropped; or a counter overflowed (R286). -/
inductive Plan where
  | page (a : DWord) (n : Nat)
  | ask (l : List (DWord × HomeOp))
  | bad
  | run (s : State) (ws : List CopyWr) (fault : Bool) (total : Nat) (beyond : Bool)
  | overflow (s : State) (ws : List CopyWr) (total : Nat) (beyond : Bool) (counter : Nat)
deriving DecidableEq, Repr

/-- Offsets at which a copy passes from one page to another at either end. -/
def copyCuts (src dst len : Nat) : List Nat :=
  let pages := len / 65536 + 2
  let cut := fun (a : Nat) (m : NSet) => (upFrom 1 pages).foldl (fun m i =>
    let o := i * 65536 - a % 65536
    if 0 < o && o < len then nsAdd m o else m) m
  (nsAdd (cut dst (cut src [])) 0).map (·.1)
/-- The chunks of a copy: offset and length. -/
def copyChunks (src dst len : Nat) : List (Nat × Nat) :=
  let cs := copyCuts src dst len
  if len = 0 then [] else (cs.zip (cs.drop 1 ++ [len])).map fun x => (x.1, x.2 - x.1)
/-- Read the chunks in order until one faults; a missing page or bytes of another rank end the plan. -/
def State.copyPlan (s : State) (w : Who) (far : List (DWord × List Byte)) (dst src : DWord) (kind : WrKind) (total : Nat) :
    List (Nat × Nat) → List CopyWr → Plan
  | [], ws => .run s ws false total false
  | (o, n) :: rest, ws =>
    match s.engineGet w far (src + BitVec.ofNat 64 o) n (some src.toNat) with
    | .bytes bs => s.copyPlan w far dst src kind total rest (ws ++ [{ addr := dst + BitVec.ofNat 64 o, bytes := bs, kind := kind }])
    | .ask l => .ask l
    | .page a k => .page a k
    | .fault => .run s ws true total false

/-- A record an engine reads (R237): none of its bytes may be missing. -/
def State.engineRecord (s : State) (w : Who) (far : List (DWord × List Byte)) (a : DWord) : Got :=
  if a.toNat % 64 != 0 then .fault
  else
    match s.engineGet w far a 192 with
    | .bytes b => if recOk b then .bytes b else .fault
    | x => x
/-- The points of a window, dimension 0 fastest. -/
def windowPoints : List Nat → List (List Int)
  | [] => [[]]
  | n :: ns => (windowPoints ns).flatMap fun t => (upFrom 0 n).map fun (x : Nat) => (x : Int) :: t
/-- The i16 offset of a dimension (R237). -/
def windowOffset (op2 : Nat) (i : Nat) : Int :=
  if 4 ≤ i then 0
  else let n := bitsOf op2 (16 * i) 16; if 2 ^ 15 ≤ n then (n : Int) - 2 ^ 16 else n
/-- Coordinates in a record's window. -/
def windowCoord (b : List Byte) (op2 : Nat) (u : List Int) : List Int :=
  (u.zip (upFrom 0 u.length)).map fun x => recOrigin b x.2 + windowOffset op2 x.2 + x.1
/-- What one source element is: bits of an ordinary format, or a decoded bp value. -/
inductive ElemVal where
  | bits (n : Nat)
  | val (v : FVal)
deriving DecidableEq, Repr
/-- What another rank answered for an element of format `f` (R354): its ordinary bytes, or the planes and scale of a format page. -/
def farElem (far : List (DWord × List Byte)) (f : BitVec 4) (a : DWord) : Option ElemVal :=
  (far.find? fun y => y.1 == a && (y.2.length == 5 || y.2.length == bytesIn f + 1)).map fun y =>
    let v := leNat (y.2.take (y.2.length - 1))
    let mark := ((y.2.getLast?).getD 0).toNat
    if mark < 128 then .bits v else .val (decodeBp (mark % 16) (v / 65536) (v % 65536))
/-- Read a source element (R89, R237): one of a format page is decoded at the stored planes, whatever the record's format; an rk record may
not lie on one. -/
def State.engineElem (s : State) (w : Who) (far : List (DWord × List Byte)) (b : List Byte) (c : List Int) :
    Except Got ElemVal :=
  let f := recFormat b
  if !recIn b c then .ok (if f = 13 then .val (fmtF.read (recPad b % 2 ^ 32)) else .bits (recPad b % 2 ^ widthOf f))
  else
    let a := recAddr b c
    let plain : Except Got ElemVal := match s.engineGet w far a (bytesIn f) with
      | .bytes bs => .ok (.bits (leNat bs))
      | x => .error x
    match s.resolve w a 1 .rd with
    | .error (.trap e) => .error (if e == cPage || e == cRevoked then .page a 1 else .fault)
    | .error .stall => .error (.page a 1)
    | .ok [{ place := .mem pa, len := _, va := _, fmt := some fm }] =>
      if f = 14 || (formatLines pa 1 fm).any (nsHas s.mem.poison) then .error .fault
      else
        let raw := (upFrom 0 fm.2.1).foldl (fun v i =>
          v + bitsOf (s.mem.num (planeByte (elemFrame pa) (pa % 65536) (7 - i)) 1) (pa % 8) 1 * 2 ^ (7 - i)) 0
        .ok (.val (decodeBp fm.2.1 (s.mem.num (fm.1 + 2 * (pa % 65536 / fm.2.2)) 2) raw))
    | .ok [{ place := .remote _ _ _, len := _, va := _, fmt := _ }] =>
      if f = 14 then plain
      else
        match farElem far f a with
        | some v => .ok v
        | none => .error (.ask [(a, .getFormat 13 (if f = 13 then none else some f) 0 0)])
    | .ok _ => if f = 13 then .error .fault else plain
/-- Convert an element to an ordinary format, .rn and .sat (R76, R237). -/
def elemTo (src dst : BitVec 4) : ElemVal → Nat
  | .bits n => (convert src dst 0 true n).bits
  | .val v => if isFloat dst then ((fmtOf dst).round 0 true v).bits else (toInt dst 0 v).bits
/-- An element as an exact value, for BPENC. -/
def elemExact (src : BitVec 4) : ElemVal → FVal
  | .bits n => if isFloat src then (fmtOf src).read n else let v := intVal src n; .fin (decide (v < 0)) v.natAbs 0
  | .val v => v
/-- The value given to a destination address. -/
def elemAt (es : List (DWord × FVal)) (a : DWord) : Option FVal := (es.find? fun x => x.1 == a).map (·.2)
/-- The place of a bp destination's element in its block, and the block's length: from its page here, or as its rank answered for the page. -/
def State.blockPlace (s : State) (w : Who) (far : List (DWord × List Byte)) (a : DWord) : Except Got (Nat × Nat) :=
  match s.resolve w a 1 .wr with
  | .error (.trap c) => .error (if c == cPage || c == cRevoked then .page a 1 else .fault)
  | .error .stall => .error (.page a 1)
  | .ok [{ place := .mem pa, len := _, va := _, fmt := some fm }] => .ok (pa % fm.2.2, fm.2.2)
  | .ok [{ place := .remote _ _ off, len := _, va := _, fmt := _ }] =>
    let page := a - BitVec.ofNat 64 (off % 65536)
    (match far.find? fun y => y.1 == page && y.2.length == 1 with
     | some y =>
       let len := if ((y.2.head?).getD 0).getLsbD 6 then 64 else 32
       .ok (off % len, len)
     | none => .error (.ask [(page, .pageFormat)]))
  | .ok _ => .error .fault
/-- The blocks of a bp destination (R90, R237): none when the elements do not form whole blocks of format pages; `part` keeps only the whole
ones. -/
def State.bpWrites (s : State) (w : Who) (far : List (DWord × List Byte)) (part : Bool) (es : List (DWord × FVal)) :
    Except Got (Option (List CopyWr)) :=
  es.foldl (fun (r : Except Got (Option (List CopyWr))) x =>
    match r with
    | .ok (some ws) =>
      (match s.blockPlace w far x.1 with
       | .error e => .error e
       | .ok (at_, len) =>
         if at_ != 0 then
           let first := x.1 - BitVec.ofNat 64 at_
           .ok (if part || (elemAt es first).isSome then some ws else none)
         else
           let vs := (upFrom 0 len).map fun i => elemAt es (x.1 + BitVec.ofNat 64 i)
           if vs.all Option.isSome then
             let enc := bpEncode 0 (vs.map fun v => v.getD (.fin false 0 0))
             .ok (some (ws ++ [{ addr := x.1, bytes := enc.2.1.map (BitVec.ofNat 8), kind := .block enc.1 }]))
           else .ok (if part then some ws else none))
    | y => y) (.ok (some []))
/-- Whether a reduce operator's type is the destination's (R237). -/
def reduceFits (k : Nat) (f : BitVec 4) : Bool :=
  match reduceOp k with
  | .plain => true
  | .red t _ => f == t || ((t == 4 || t == 5) && (f == 4 || f == 5))
  | .block _ => false
/-- The elements a tensor copy moves, in window order: destination address and value, up to the first fault. -/
def State.tensorElems (s : State) (w : Who) (far : List (DWord × List Byte)) (rd rs : List Byte) (op2 : Nat) :
    List (List Int) → List (DWord × ElemVal) → Except Got (List (DWord × ElemVal) × Bool)
  | [], es => .ok (es, false)
  | u :: us, es =>
    let cd := windowCoord rd op2 u
    if !recIn rd cd then s.tensorElems w far rd rs op2 us es
    else
      match s.engineElem w far rs (windowCoord rs op2 u) with
      | .ok v => s.tensorElems w far rd rs op2 us (es ++ [(recAddr rd cd, v)])
      | .error .fault => .ok (es, true)
      | .error x => .error x
/-- A read that is not there yet, as a plan; a fault with no writes of the `total` bytes. -/
def Got.plan (s : State) (total : Nat) : Got → Plan
  | .ask l => .ask l
  | .page a n => .page a n
  | _ => .run s [] true total false
/-- The points of a tensor copy's window, and the destination addresses of those within bounds. -/
def recPoints (rd : List Byte) : List (List Int) := windowPoints ((upFrom 0 (recDims rd)).map (recExt rd))
def recTargets (rd : List Byte) (op2 : Nat) : List DWord :=
  (recPoints rd).filterMap fun u => let c := windowCoord rd op2 u; if recIn rd c then some (recAddr rd c) else none
/-- The bytes a tensor copy writes: the size of each element, one for an element of a format page. -/
def tensorTotal (rd : List Byte) (op2 : Nat) : Nat :=
  (recTargets rd op2).length * (if recFormat rd = 13 then 1 else bytesIn (recFormat rd))
/-- Both records of a tensor copy, as its engine reads them (R237). -/
def State.tensorRecords (s : State) (w : Who) (far : List (DWord × List Byte)) (dst src : DWord) : Except Got (List Byte × List Byte) :=
  match s.engineRecord w far dst, s.engineRecord w far src with
  | .bytes rd, .bytes rs => .ok (rd, rs)
  | .bytes _, x => .error x
  | x, _ => .error x
/-- A tensor copy through its two records (R237). A bp destination that is not of whole blocks writes nothing, whatever its source meets. -/
def State.tensorPlan (s : State) (w : Who) (far : List (DWord × List Byte)) (rd rs : List Byte) (op2 red : Nat) : Plan :=
  let fd := recFormat rd
  let fs := recFormat rs
  let total := tensorTotal rd op2
  if recDims rd != recDims rs || !reduceFits red fd || (fd == 13 && red != 0) then .bad
  else if (fd == 14) != (fs == 14) then .run s [] true total false
  else
    let whole := if fd = 13 then s.bpWrites w far false ((recTargets rd op2).map fun a => (a, .fin false 0 0)) else .ok (some [])
    match whole with
    | .error x => x.plan s total
    | .ok none => .bad
    | .ok (some _) =>
      match s.tensorElems w far rd rs op2 (recPoints rd) [] with
      | .error x => x.plan s total
      | .ok (es, fault) =>
        if fd = 13 then
          match s.bpWrites w far fault (es.map fun x => (x.1, elemExact fs x.2)) with
          | .error x => x.plan s total
          | .ok none => .bad
          | .ok (some ws) => .run s ws fault total false
        else
          let ws := es.map fun x =>
            let v := match x.2 with | .bits n => if fd == 14 then n else elemTo fs fd (.bits n) | v => elemTo fs fd v
            ({ addr := x.1, bytes := bytesOf (bytesIn fd) v, kind := reduceOp red } : CopyWr)
          .run s ws fault total false

/-! ### Bin scatter (R238) -/

/-- The home of a live counter word that a scatter names: package memory, or another rank that has answered for it; none where the word is
no live counter. -/
def State.counterHome (s : State) (w : Who) (far : List (DWord × List Byte)) (a : DWord) : Except Got (Option Place) :=
  if a.toNat % 8 != 0 then .ok none
  else
    match s.resolve w a 8 .atom with
    | .error (.trap c) => if c == cPage || c == cRevoked then .error (.page a 8) else .ok none
    | .error .stall => .error (.page a 8)
    | .ok [{ place := .mem pa, len := _, va := _, fmt := none }] => .ok (if s.mem.live pa = some .counter then some (.mem pa) else none)
    | .ok [{ place := .remote r x o, len := _, va := _, fmt := _ }] =>
      if far.any fun y => y.1 == a && y.2.length == 8 then .ok (some (.remote r x o)) else .error (.ask [(a, .count 0)])
    | .ok _ => .ok none
/-- The first of some counters that is not there yet, or whether all are live. -/
def State.countersLive (s : State) (w : Who) (far : List (DWord × List Byte)) : List DWord → Except Got Bool
  | [] => .ok true
  | a :: as =>
    match s.counterHome w far a with
    | .error x => .error x
    | .ok p => (s.countersLive w far as).map (p.isSome && ·)
/-- What a scatter reads at its start: token record, bin table, bin entries and indices. -/
structure Scatter where
  src : DWord
  stride : Nat
  size : Nat
  hdr : List Byte
  bins : List (Nat × Nat × Nat)
  index : List Nat
deriving DecidableEq, Repr
def scBins (h : List Byte) : Nat := bitsOf (field h 0 8) 0 12 + 1
def scSpill (h : List Byte) : Bool := bitsOf (field h 0 8) 12 1 == 1
/-- Read what a scatter needs. -/
def State.scatterRead (s : State) (w : Who) (far : List (DWord × List Byte)) (table rec_ index : DWord) : Except Got (Option Scatter) :=
  match s.engineGet w far rec_ 64, s.engineGet w far table 64 with
  | .bytes r, .bytes h =>
    let t := field r 16 4
    let z := field r 20 4
    if rec_.toNat % 64 != 0 then .error .fault
    else if t = 0 || z = 0 || decide (65536 < t) || decide (65536 < z) || field r 24 40 != 0 || bitsOf (field h 0 8) 13 51 != 0 || field h 56 8 != 0
    then .ok none
    else
      match s.engineGet w far (table + 64) (32 * scBins h), s.engineGet w far index (4 * t) with
      | .bytes bs, .bytes is =>
        let bins := (upFrom 0 (scBins h)).map fun i => (field bs (32 * i) 8, field bs (32 * i + 8) 8, field bs (32 * i + 16) 8)
        let ix := (upFrom 0 t).map fun i => field is (4 * i) 4
        let zero := (upFrom 0 (scBins h)).all fun i => field bs (32 * i + 24) 8 == 0
        let inside := ix.all fun i => decide (i < scBins h) || i == 0xFFFFFFFF
        let words := (bins.map (·.2.2)) ++ field h 16 8 :: (if scSpill h then [field h 48 8] else [])
        if !(zero && inside) then .ok none
        else
          (s.countersLive w far (words.map (BitVec.ofNat 64))).map fun live =>
            if live then some { src := BitVec.ofNat 64 (field r 0 8), stride := field r 8 8, size := z, hdr := h, bins := bins, index := ix }
            else none
      | .bytes _, x => .error x
      | x, _ => .error x
  | .bytes _, x => .error x
  | x, _ => .error x
/-- How far a scatter has come: the state, the writes planned, the additions other ranks have made, and whether a token was dropped. -/
structure ScatterRun where
  s : State
  ws : List CopyWr
  used : List DWord
  beyond : Bool
deriving DecidableEq, Repr
/-- The bytes of the writes planned. -/
def ScatterRun.bytes (x : ScatterRun) : Nat := x.ws.foldl (fun n y => n + y.bytes.length) 0
/-- Add to a live counter at its home and answer the old value (R238). Another rank's answers come in the order of the additions; the first
says that the word is live. A counter that overflows ends the entry (R286). -/
def ScatterRun.bump (x : ScatterRun) (w : Who) (far : List (DWord × List Byte)) (rest : Nat) (a n : Nat) : Except Plan (ScatterRun × Nat) :=
  let a := BitVec.ofNat 64 a
  match x.s.counterHome w far a with
  | .ok (some (.mem pa)) =>
    let old := (x.s.wordAt pa).toNat
    let r := x.s.addCounter pa n
    if r.2 then .error (.overflow r.1 x.ws (x.bytes + rest) x.beyond a.toNat) else .ok ({ x with s := r.1 }, old)
  | .ok (some _) =>
    (match (far.filter fun y => y.1 == a && y.2.length == 8)[(x.used.filter (· == a)).length + 1]? with
     | some y => .ok ({ x with used := x.used ++ [a] }, leNat y.2)
     | none => .error (.ask [(a, .count (BitVec.ofNat 64 n))]))
  | .error (.ask l) => .error (.ask l)
  | .error (.page p k) => .error (.page p k)
  | _ => .error (.run x.s x.ws true (x.bytes + rest) x.beyond)
/-- Copy a token to its place: its write is planned. -/
def ScatterRun.place (x : ScatterRun) (w : Who) (far : List (DWord × List Byte)) (rest : Nat) (src : DWord) (size dest : Nat) : Except Plan ScatterRun :=
  match x.s.engineGet w far src size with
  | .bytes bs => .ok { x with ws := x.ws ++ [{ addr := BitVec.ofNat 64 dest, bytes := bs, kind := .plain }] }
  | .ask l => .error (.ask l)
  | .page a n => .error (.page a n)
  | .fault => .error (.run x.s x.ws true (x.bytes + rest) x.beyond)
/-- One token (R238): its bin, the overflow bin, or the overflow list; `rest` counts the bytes of this token and those after it. -/
def ScatterRun.token (x : ScatterRun) (w : Who) (far : List (DWord × List Byte)) (c : Scatter) (rest t b : Nat) : Except Plan ScatterRun :=
  let bin := (c.bins[b]?).getD (0, 0, 0)
  let src := c.src + BitVec.ofNat 64 (t * c.stride)
  match x.bump w far rest bin.2.2 c.size with
  | .error p => .error p
  | .ok r =>
    if r.2 + c.size ≤ bin.2.1 then r.1.place w far rest src c.size (bin.1 + r.2)
    else
      let spill : Except Plan (ScatterRun × Bool) :=
        if scSpill c.hdr then
          match r.1.bump w far rest (field c.hdr 48 8) c.size with
          | .error p => .error p
          | .ok o => if o.2 + c.size ≤ field c.hdr 40 8 then (o.1.place w far rest src c.size (field c.hdr 32 8 + o.2)).map (·, true) else .ok (o.1, false)
        else .ok (r.1, false)
      match spill with
      | .error p => .error p
      | .ok (y, true) => .ok y
      | .ok (y, false) =>
        match y.bump w far rest (field c.hdr 16 8) 1 with
        | .error p => .error p
        | .ok n =>
          if n.2 < field c.hdr 24 8 then
            .ok { n.1 with ws := n.1.ws ++ [{ addr := BitVec.ofNat 64 (field c.hdr 8 8 + 4 * n.2), bytes := bytesOf 4 t, kind := .plain }] }
          else .ok { n.1 with beyond := true }
/-- The tokens in ascending order: counters are bumped, writes planned. -/
def ScatterRun.plan (w : Who) (far : List (DWord × List Byte)) (c : Scatter) : List (Nat × Nat) → ScatterRun → Plan
  | [], x => .run x.s x.ws false x.bytes x.beyond
  | (t, b) :: rest, x =>
    if b = 0xFFFFFFFF then ScatterRun.plan w far c rest x
    else
      match x.token w far c (c.size * (1 + (rest.filter fun y => y.2 != 0xFFFFFFFF).length)) t b with
      | .error p => p
      | .ok y => ScatterRun.plan w far c rest y

/-! ### The plan of an entry -/

/-- Operands 0 to 2. -/
def entOp (b : List Byte) (i : Nat) : DWord := BitVec.ofNat 64 (field b (8 + 8 * i) 8)
/-- Two byte ranges of one address class that overlap (R236). -/
def overlaps (a b : DWord) (n : Nat) : Bool := n != 0 && decide (a.toNat < b.toNat + n) && decide (b.toNat < a.toNat + n)
/-- Plan an entry. -/
def State.planEntry (s : State) (e : CopyEntry) : Plan :=
  let w := e.who
  let b := e.bytes
  match entKind b with
  | 0 => .run s [] false 0 false
  | 1 =>
    let n := (entOp b 2).toNat
    if overlaps (entOp b 0) (entOp b 1) n then .bad
    else s.copyPlan w e.far (entOp b 0) (entOp b 1) (reduceOp (entRed b)) n (copyChunks (entOp b 1).toNat (entOp b 0).toNat n) []
  | 2 =>
    (match e.recs with
     | some x => s.tensorPlan w e.far x.1 x.2 (entOp b 2).toNat (entRed b)
     | none => .bad)
  | _ =>
    match s.scatterRead w e.far (entOp b 0) (entOp b 1) (entOp b 2) with
    | .error x => x.plan s 0
    | .ok none => .bad
    | .ok (some x) => ScatterRun.plan w e.far x ((upFrom 0 x.index.length).zip x.index) { s := s, ws := [], used := [], beyond := false }
/-- The bytes an entry would write, as far as what it names can be read (R231): those of a class 2 entry that ends early never land. -/
def State.entryTotal (s : State) (e : CopyEntry) : Nat :=
  let b := e.bytes
  match entKind b with
  | 1 => (entOp b 2).toNat
  | 2 =>
    (match e.recs with
     | some x => tensorTotal x.1 (entOp b 2).toNat
     | none => (match s.tensorRecords e.who e.far (entOp b 0) (entOp b 1) with
         | .ok x => tensorTotal x.1 (entOp b 2).toNat
         | .error _ => 0))
  | 3 =>
    (match s.engineGet e.who e.far (entOp b 1) 64 with
     | .bytes r =>
       let t := field r 16 4
       if 65536 < t then 0
       else
         match s.engineGet e.who e.far (entOp b 2) (4 * t) with
         | .bytes is => field r 20 4 * ((upFrom 0 t).filter fun i => field is (4 * i) 4 != 0xFFFFFFFF).length
         | _ => 0
     | _ => 0)
  | _ => 0

end Sys2Proof.Machine
end

