-- ==== Sys2Proof/Machine/Copy.lean ====
section
/-! DEFINITION. The copy instructions (R226, R228, R235) and the events of the copy engines (R229 to R233). -/
namespace Sys2Proof.Machine

/-! ### COPY, TCOPY, GCOPY (R228, R235) -/

/-- The registered queue that a CQB names (R226). -/
def State.boundQueue (s : State) (g : Group) (q : Nat) : Option (Nat × CopyQueue) :=
  let d := stGet 0 g.csrs.cqb q
  if d = 0 then none else s.queues.find? fun x => x.2.launch == g.launch && x.2.desc == d
/-- The body of an entry that an instruction writes (R227, R235), but for its sequence. -/
def copyBody (kind red cls token loc serial : Nat) (o0 o1 o2 target : DWord) : List Byte :=
  bytesOf 8 (kind + red * 2 ^ 8 + cls * 2 ^ 12 + token * 2 ^ 24 + 2 ^ 27 + loc * 2 ^ 32 + serial * 2 ^ 48)
    ++ bytesOf 8 o0.toNat ++ bytesOf 8 o1.toNat ++ bytesOf 8 o2.toNat ++ bytesOf 8 target.toNat ++ bytesOf 16 0 ++ bytesOf 6 0
/-- The lines of some bytes of an address space leave a core's L1. -/
def State.dropBytes (s : State) (core asid addr n : Nat) : State :=
  match s.resolve (devWho asid 0) (BitVec.ofNat 64 addr) n .rd with
  | .ok gs => gs.foldl (fun (x : State) (g : Seg) => match g.place with | .mem pa => x.dropLine core (pa / 128) | _ => x) s
  | .error _ => s
/-- Claim index `i`: the queue's write index rises (R228). -/
def State.claimIndex (s : State) (core : Nat) (q : CopyQueue) (i : Nat) : State :=
  (s.dropBytes core q.asid (q.desc.toNat + 128) 8).devWrite q.asid (q.desc.toNat + 128) (bytesOf 8 (i + 1))
/-- Write the entry of a claimed index, its sequence with it (R228). -/
def State.writeEntry (s : State) (core : Nat) (q : CopyQueue) (i : Nat) (body : List Byte) : State :=
  let a := s.slotAddr q i
  (s.dropBytes core q.asid a 64).devWrite q.asid a (body ++ bytesOf 2 i)
/-- Claim the next index and write its entry: the lines of the queue leave the issuing core's L1. -/
def State.placeEntry (s : State) (core : Nat) (q : CopyQueue) (i : Nat) (body : List Byte) : State :=
  (s.claimIndex core q i).writeEntry core q i body
/-- What a COPY, TCOPY or GCOPY comes to: the kind, its fields, and its operands 0 to 2 as its entry holds them. -/
structure CopyForm where
  kind : Nat
  cls : BitVec 2
  queue : BitVec 2
  red : BitVec 4
  token : BitVec 3
  ops : DWord × DWord × DWord
deriving DecidableEq, Repr
/-- The executing split's copy instruction waits, having come so far. -/
def State.copyHeld (s : State) (x : CopyStage) : Res :=
  .wait (s.modSplit s.curKey s.sched.split fun sp => { sp with copy := some x })
/-- Write the entry of a claimed index; the instruction is complete (R235). -/
def State.copyWrite (s : State) (f : CopyForm) (key : Nat) (q : CopyQueue) (i : Nat) : Res :=
  let target := BitVec.ofNat 64 ((s.devNum q.asid (q.desc.toNat + 40) 8).getD 0)
  let body := copyBody f.kind f.red.toNat f.cls.toNat f.token.toNat (locid s.sched.core s.sched.slot) (s.serial s.curKey).toNat
    f.ops.1 f.ops.2.1 f.ops.2.2 target
  let s1 := s.writeEntry s.sched.core q i body
  .done ((s1.modSplit s.curKey s.sched.split fun sp => { sp.advance with copy := none }).wakeUp (.copyEntryTake key))
/-- An issued copy instruction goes on (R228, R235): the release at device scope, the claim, the wait while its queue is full, the entry. -/
def State.copyGo (s : State) (f : CopyForm) : CopyStage → Res
  | .counted key =>
    match s.releaseFor s.sched.split 1 with
    | .error s1 => s1.copyHeld (.counted key)
    | .ok s1 =>
      match amGet s1.queues key with
      | none => s1.copyHeld (.counted key)
      | some q =>
        let i := s1.queueWrite q
        let full := decide (s1.queueRead q + s1.queueSize q ≤ i)
        let s2 := s1.claimIndex s.sched.core q i
        if full then s2.copyHeld (.claimed key i) else s2.copyWrite f key q i
  | .claimed key i =>
    match amGet s.queues key with
    | none => .wait s
    | some q => if s.queueRead q + s.queueSize q ≤ i then .wait s else s.copyWrite f key q i
/-- The three instructions: the checks, then the token and the class count rise, and the instruction goes on (R235). -/
def copyOp (i : Instr) (kind : Nat) (cls qn : BitVec 2) (red : BitVec 4) (k : BitVec 3) (ops : Split → DWord × DWord × DWord)
    (s : State) : Out :=
  runScalar (scalarOk i) (fun s g sp =>
    let o := ops sp
    let f : CopyForm := { kind := kind, cls := cls, queue := qn, red := red, token := k, ops := o }
    let size := if red = 2 then 2 else 4
    match sp.copy with
    | some x => s.copyGo f x
    | none =>
    match s.boundQueue g qn.toNat with
    | none => .trap (Trap.of cQueue)
    | some (key, _) =>
      let off : DWord → Bool := fun x => x.toNat % size != 0
      if kind = 1 && decide (2 ^ 32 < o.2.2.toNat) then .trap (Trap.of cIllegal)
      else if kind = 1 && red != 0 && (off o.1 || off o.2.1 || off o.2.2) then
        .trap (Trap.at_ cAlign (if off o.1 then o.1 else if off o.2.1 then o.2.1 else 0))
      else if !g.issued s.sched.split || decide (255 ≤ g.token k.toNat) || decide (4095 ≤ g.async.copies) then .wait s
      else (s.modGroup s.curKey fun x => (x.tokenUp k.toNat).copyUp).copyGo f (.counted key)) s
/-- COPY. -/
def execCopy (d a b : SReg) (cls q : BitVec 2) (op : BitVec 4) (k : BitVec 3) (s : State) : Out :=
  copyOp (.copy d a b cls q op k) 1 cls q op k (fun sp => (sp.reg a, sp.reg b, sp.reg d)) s
/-- TCOPY. -/
def execTcopy (d a b : SReg) (cls q : BitVec 2) (op : BitVec 4) (k : BitVec 3) (s : State) : Out :=
  copyOp (.tcopy d a b cls q op k) 2 cls q op k (fun sp => (sp.reg d, sp.reg a, sp.reg b)) s
/-- GCOPY. -/
def execGcopy (d a b : SReg) (cls q : BitVec 2) (k : BitVec 3) (s : State) : Out :=
  copyOp (.gcopy d a b cls q k) 3 cls q 0 k (fun sp => (sp.reg d, sp.reg a, sp.reg b)) s

/-! ### Executing an entry (R230, R231, R234) -/

def State.modEntry (s : State) (id : Nat) (f : CopyEntry → CopyEntry) : State := { s with entries := amMod f s.entries id }
/-- Whether a word lies in local or own-rank global memory of the device. -/
def ownWord (s : State) (a : Nat) : Bool :=
  decide (a < 2 ^ 57) || (decide (2 ^ 63 ≤ a) && a / 2 ^ 43 % 2 ^ 20 == s.dev.rank)
/-- The checks before any data moves. -/
def State.entryOk (s : State) (e : CopyEntry) : Bool :=
  let b := e.bytes
  let h := entHeader b
  let red := entRed b
  let size := if red = 2 then 2 else 4
  let live := fun (a : Nat) (k : SyncKind) => ownWord s a && (match s.wordPA e.asid a .rd with
    | some pa => s.mem.live pa == some k
    | none => false)
  let counter := fun (a : Nat) => ownWord s a && (match s.counterPlace e.asid a with
    | some (.mem pa) => s.mem.live pa == some .counter
    | some _ => true
    | none => false)
  bitsOf h 46 2 == 0 && bitsOf h 28 4 == 0 && bitsOf h 15 1 == 0 && field b 56 6 == 0 && decide (entKind b ≤ 3) && decide (red ≤ 10)
    && entClass b != 3 && !(entKind b == 3 && red != 0)
    && !(entKind b == 1 && red != 0 && ((entOp b 0).toNat % size != 0 || (entOp b 1).toNat % size != 0 || (entOp b 2).toNat % size != 0))
    && (match entClass b with
        | 1 => live (field b 32 8) .counter
        | 2 => live (field b 32 8) .barrier
        | _ => true)
    && (!entTriggered b || counter (field b 40 8))
/-- Whether an armed entry's counter has reached its threshold. -/
def State.triggered (s : State) (e : CopyEntry) : Bool :=
  let n := match s.counterPlace e.asid (field e.bytes 40 8) with
    | some (.mem pa) => (s.wordAt pa).toNat
    | some (.window off) => (s.windowWord (off / 8)).toNat
    | _ => 0
  decide (field e.bytes 48 8 ≤ n)
/-- Where the transfers of an entry begin (R373): a COPY's source and destination. -/
def CopyEntry.sourceBase (e : CopyEntry) : Option Nat := if entKind e.bytes = 1 then some (entOp e.bytes 1).toNat else none
def CopyEntry.destBase (e : CopyEntry) : Option Nat := if entKind e.bytes = 1 then some (entOp e.bytes 0).toNat else none
/-- Ask other ranks for source bytes. -/
def State.askSource (s : State) (id : Nat) (e : CopyEntry) (l : List (DWord × HomeOp)) : State :=
  let asks : List Ask := l.map fun x => farAsk 0 x.1 x.2
  let base := e.sourceBase
  let r := s.sendAsks e.who.core (.copy id) 0 none asks none 0 base
  let wait := r.2.map fun x => (x.2, (l.zip asks).filterMap fun y => if s.askKey e.who.core base y.2 == x.1 then some (y.1.1, 0) else none)
  r.1.modEntry id fun y => { y with wait := wait }
/-- Perform a plan's writes. -/
def State.runPlan (s : State) (id : Nat) (e : CopyEntry) (ws : List CopyWr) (fault : Bool) (total : Nat) (beyond : Bool) : State :=
  let r := s.enginePuts e.who e.destBase ws []
  let t := r.1.sendAsks e.who.core (.copy id) 0 none r.2.1 none 0 e.destBase
  let s1 := t.1.modEntry id fun y => { y with
    executed := true, total := total, status := if fault || r.2.2 then 4 else y.status, acks := t.2.map (·.2) }
  let s2 := match beyond, e.queue with
    | true, some q => s1.setSticky q 3 e.index
    | _, _ => s1
  s2.wakeUp (.copyEntryComplete id)
/-- An entry ends before its data is written, with the bytes it would have written (R231). -/
def State.entryFail (s : State) (id : Nat) (e : CopyEntry) (status : Nat) : State :=
  (s.modEntry id fun y => { y with total := s.entryTotal e }).entryDone id status
/-- Serve a missing page for an entry: it goes on, fails, or waits (R234). -/
def State.entryPage (s : State) (id : Nat) (e : CopyEntry) (a : DWord) (n : Nat) : State × Option Bool :=
  s.serveRange (e.engine / 24) a.toNat n e.launch e.asid (((s.launch e.launch).map (·.rcb)).getD 0) (.copy id)
/-- The first write whose local page is missing. -/
def State.missingWrite (s : State) (e : CopyEntry) (ws : List CopyWr) : Option CopyWr :=
  ws.find? fun x => match s.localVA e.asid x.addr.toNat with
    | none => false
    | some v => (pageParts v.2 x.bytes.length).any fun p => match s.leafOf (devWho v.1 e.launch) v.1 p.1 with
      | .error _ => true
      | .ok _ => false
/-- Perform a plan, once its pages are there. -/
def State.runWrites (s s1 : State) (id : Nat) (e : CopyEntry) (ws : List CopyWr) (fault : Bool) (total : Nat) (beyond : Bool) : State :=
  match s.missingWrite e ws with
  | none => (if fault then (s1.noteAddr (entOp e.bytes 0)).noteAddr (entOp e.bytes 1) else s1).runPlan id e ws fault total beyond
  | some x =>
    let r := s.entryPage id e x.addr x.bytes.length
    match r.2 with
    | some true => r.1.wakeUp (.copyEntryComplete id)
    | some false => s1.runPlan id e (ws.takeWhile fun y => y.addr != x.addr) true total beyond
    | none => r.1
/-- An entry executes as far as it can: it waits for pages and for other ranks. -/
def State.executeEntry (s : State) (id : Nat) (e : CopyEntry) : State :=
  match s.planEntry e with
  | .bad => s.entryFail id e 5
  | .ask l => s.askSource id e l
  | .page a n =>
    let r := s.entryPage id e a n
    (match r.2 with
     | some true => r.1.wakeUp (.copyEntryComplete id)
     | some false => r.1.entryFail id e 4
     | none => r.1)
  | .run s1 ws fault total beyond => s.runWrites s1 id e ws fault total beyond
  | .overflow s1 ws total beyond a => s.runWrites (s1.modEntry id fun y => { y with overflow := some a }) id e ws true total beyond
/-- The words an entry's checks look at: its completion target and its trigger counter, with the first page of them that is missing (R230,
R234). -/
def State.missingWord (s : State) (e : CopyEntry) : Option DWord :=
  let words := (if entClass e.bytes = 1 || entClass e.bytes = 2 then [field e.bytes 32 8] else [])
    ++ (if entTriggered e.bytes then [field e.bytes 40 8] else [])
  (words.map (BitVec.ofNat 64)).find? fun a => a.toNat % 8 == 0 && (match s.localVA e.asid a.toNat with
    | none => false
    | some v => decide (v.2 < Config.timelineBase) && (match s.leafOf (devWho v.1 e.launch) v.1 v.2 with
        | .error _ => true
        | .ok _ => false))
/-- The step a taken entry is at once its records are read: BADPKT, armed, or executed (R230). -/
def State.admitEntry (s : State) (id : Nat) (e : CopyEntry) : State :=
  if !s.entryOk e then s.entryFail id e 5
  else if entTriggered e.bytes then
    let s1 := s.modEntry id fun y => { y with armed := true, unstarted := false, total := s.entryTotal e }
    if s.triggered e then s1.wakeUp (.triggeredEntryFire id) else s1
  else (s.modEntry id fun y => { y with unstarted := false }).executeEntry id { e with unstarted := false }
/-- Start an entry that has been taken: the words its checks need, the records of a tensor copy, then its checks (R230, R237). -/
def State.startEntry (s : State) (id : Nat) : State :=
  match amGet s.entries id with
  | none => s
  | some e =>
    let wait := fun (x : State) => x.modEntry id fun y => { y with unstarted := true }
    let page := fun (a : DWord) (n : Nat) =>
      let r := s.entryPage id e a n
      match r.2 with
      | some true => (wait r.1).wakeUp (.copyEntryComplete id)
      | some false => r.1.entryFail id e 4
      | none => wait r.1
    match s.missingWord e with
    | some a => page a 8
    | none =>
      if entKind e.bytes = 2 && e.recs.isNone && s.entryOk e then
        match s.tensorRecords e.who e.far (entOp e.bytes 0) (entOp e.bytes 1) with
        | .ok x => (s.modEntry id fun y => { y with recs := some x }).admitEntry id { e with recs := some x }
        | .error (.ask l) => wait (s.askSource id e l)
        | .error (.page a n) => page a n
        | .error _ => s.entryFail id e 4
      else s.admitEntry id e
/-- An entry that is neither armed nor executed goes as far as it can. -/
def State.tryEntry (s : State) (id : Nat) : State :=
  match amGet s.entries id with
  | none => s
  | some e =>
    if e.armed || e.executed || !e.wait.isEmpty then s
    else if e.status = 4 then s.entryFail id e 4
    else if e.unstarted then s.startEntry id
    else s.executeEntry id e
/-- An executed entry completes, once the page of its target is there (R231, R234). -/
def State.finishEntry (s : State) (id : Nat) (e : CopyEntry) : State :=
  match (if entClass e.bytes = 0 then none else s.missingWord e) with
  | none => s.entryDone id e.status
  | some a =>
    let r := s.entryPage id e a 8
    match r.2 with
    | some true => r.1.wakeUp (.copyEntryComplete id)
    | some false => r.1.entryDone id 4
    | none => r.1
/-- Hold a new entry. -/
def State.addEntry (s : State) (e : CopyEntry) : State × Nat :=
  ({ s with entries := amSet s.entries s.nextEntry e, nextEntry := s.nextEntry + 1 }, s.nextEntry)
/-- The team of the group that issued an entry: of the group that holds its slot, or of a team it has left (R234). -/
def State.entryTeam (s : State) (b : List Byte) : Option Nat :=
  if (entToken b).isNone then none
  else
    match ofLocid (entLoc b) with
    | none => none
    | some (c, sl) =>
      match (if s.serial (gkey c sl) = entSerial b then s.group (gkey c sl) else none) with
      | some g => some g.team
      | none => (s.head.teams.find? fun t => t.2.core == c && t.2.gone.contains (sl, entSerial b)).map (·.1)
/-- A new entry of a queue or of a unit 1 node. -/
def newEntry (queue : Option Nat) (index : Nat) (bytes : List Byte) (asid launch node engine : Nat) (team : Option Nat) : CopyEntry :=
  { queue := queue, index := index, bytes := bytes, asid := asid, launch := launch, node := node, engine := engine, team := team,
    armed := false, landed := 0, total := 0, far := [], wait := [], acks := [], executed := false, status := 1 }

/-! ### The events -/

/-- Whether a queue's engine is at work on one of its entries: one at a time (R229). -/
def State.queueBusy (s : State) (queue : Nat) : Bool := s.entries.any fun e => e.2.queue == some queue && !e.2.armed
/-- The head of a queue: its index, while the write index lies above it (R229, R332). -/
def State.queueTop (s : State) (queue : Nat) : Option (CopyQueue × Nat) :=
  match amGet s.queues queue with
  | none => none
  | some q =>
    let h := s.queueRead q
    if s.dev.tripped || decide (s.queueWrite q ≤ h) then none else some (q, h)
/-- The head of a queue whose engine is free to look at it. -/
def State.queueHead (s : State) (queue : Nat) : Option (CopyQueue × Nat) :=
  if s.queueBusy queue then none else s.queueTop queue
/-- COPY_ENTRY_TAKE: a head whose sequence matches is taken; a triggered one waits while 256 are armed. -/
def execCopyEntryTake (queue : Nat) (s : State) : Out :=
  match s.queueHead queue with
  | none => .next s
  | some (q, h) =>
    match s.devRead q.asid (s.slotAddr q h) 64 with
    | none => .next s
    | some b =>
      let armed := (s.entries.filter fun e => e.2.armed && e.2.engine == q.engine).length
      let e := newEntry (some queue) h b q.asid q.launch 0 q.engine (s.entryTeam b)
      if field b 62 2 != h % 65536 then .next s
      else if entTriggered b && decide (256 ≤ armed) && s.entryOk e then .next s
      else
        let s1 := s.devWrite q.asid (q.desc.toNat + 16) (bytesOf 8 (h + 1))
        let s2 : State := { s1 with queues := amSet s1.queues queue { q with headSince := none } }
        let r := s2.addEntry e
        .next (r.1.startEntry r.2)
/-- ABANDONED: 1 ms has passed with a head whose sequence does not match. -/
def execAbandoned (queue : Nat) (s : State) : Out :=
  match s.queueHead queue with
  | none => .next s
  | some (q, h) =>
    let stale := match s.devRead q.asid (s.slotAddr q h) 64 with
      | some b => field b 62 2 != h % 65536
      | none => true
    let late := match q.headSince with
      | some t => decide (Config.msCycles ≤ s.now - t)
      | none => false
    if stale && late then
      let s1 := s.devWrite q.asid (q.desc.toNat + 16) (bytesOf 8 (h + 1))
      let s2 : State := { s1 with queues := amSet s1.queues queue { q with headSince := none } }
      let r := s2.addEntry (newEntry (some queue) h (bytesOf 64 0) q.asid q.launch 0 q.engine none)
      .next (r.1.entryDone r.2 3)
    else .next s
/-- TRIGGERED_ENTRY_FIRE: an armed entry whose counter has reached its threshold executes. -/
def execTriggeredEntryFire (entry : Nat) (s : State) : Out :=
  match amGet s.entries entry with
  | none => .next s
  | some e =>
    if e.armed && s.triggered e then .next ((s.modEntry entry fun y => { y with armed := false }).tryEntry entry) else .next s
/-- TRANSACTION_BYTES_LAND: bytes of a class 2 entry that have landed lower its barrier word's BYTES before the entry completes (R231). -/
def execTransactionBytesLand (entry bytes : Nat) (s : State) : Out :=
  match amGet s.entries entry with
  | none => .next s
  | some e =>
    let left := e.total - e.landed
    let n := if bytes < left then bytes else left
    if entClass e.bytes != 2 || !e.executed || n = 0 || e.status != 1 || !e.acks.isEmpty then .next s
    else
      match s.wordPA e.asid (field e.bytes 32 8) .rd with
      | none => .next s
      | some pa =>
        if s.mem.live pa = some .barrier then
          let r := s.landBytes pa n
          let s1 := r.1.modEntry entry fun y => { y with landed := y.landed + n, status := if r.2 then 4 else y.status }
          .next (if r.2 then s1.escalateLaunch e.launch cQueue (field e.bytes 32 8) else s1)
        else .next s
/-- COPY_ENTRY_COMPLETE: an entry that waits goes on; one whose writes are all performed completes. -/
def execCopyEntryComplete (entry : Nat) (s : State) : Out :=
  match amGet s.entries entry with
  | none => .next s
  | some e =>
    if e.armed then .next s
    else if !e.executed then .next (s.tryEntry entry)
    else if e.acks.isEmpty then .next (s.finishEntry entry e)
    else .next s

end Sys2Proof.Machine
end

