-- ==== Sys2Proof/Machine/Coverage.lean ====
section
/-! DEFINITION. Coverage-fraction launches (R239 to R252): the descriptor, the walker, reconstruction, the controller. -/
namespace Sys2Proof.Machine

/-! ### The descriptor (R239 to R241) -/

/-- A skip-pattern descriptor (R240); none when a field is reserved or invalid. -/
def readPattern (b : List Byte) : Option Pattern :=
  let n := leNat (b.take 16)
  let lp := [bitsOf n 0 2, bitsOf n 2 2, bitsOf n 4 2]
  if decide (2 ^ 78 ≤ n) || lp.contains 3 then none
  else some { lp := lp, mask := BitVec.ofNat 64 (bitsOf n 6 64), sh0 := bitsOf n 70 4, sh1 := bitsOf n 74 4 }
/-- The points of a pattern's period cube, and how many of them it computes. -/
def Pattern.cube (p : Pattern) : Nat := 2 ^ p.lp.foldl (· + ·) 0
def Pattern.count (p : Pattern) : Nat := countBits 64 p.mask.toNat
/-- A pattern's own checks under a shape (R241). -/
def Pattern.fits (dims : Nat) (shape : List Nat) (p : Pattern) : Bool :=
  decide (p.mask.toNat < 2 ^ p.cube) && p.mask != 0
    && (p.lp.zip shape).all (fun x => x.2 % 2 ^ x.1 == 0)
    && (p.lp.drop dims).all (· == 0)
/-- No rung covers more than the one before it. -/
def sparser : List Pattern → Bool
  | p :: q :: rest => decide (q.count * p.cube ≤ p.count * q.cube) && sparser (q :: rest)
  | _ => true
/-- A record of a coverage launch (R241): readable, of the launch's dimensions, and its bounds box holds every lattice point. -/
def State.coverRecord (s : State) (asid addr dims : Nat) (extents : List Nat) : Option (List Byte) :=
  if addr % 64 != 0 then none
  else
    match s.devRead asid addr 192 with
    | none => none
    | some b =>
      let first := (extents.take dims).map fun _ => (0 : Int)
      let last := (extents.take dims).map fun (n : Nat) => (n : Int) - 1
      if recOk b && recDims b == dims && recIn b first && recIn b last then some b else none
/-- Read and check a coverage descriptor (R239, R241); none rejects the launch. -/
def State.readCover (s : State) (asid addr : Nat) : Option Cover :=
  match s.devRead asid addr 128 with
  | none => none
  | some b =>
    let w0 := field b 0 8
    let dims := bitsOf w0 0 2 + 1
    let rungs := bitsOf w0 2 3 + 1
    let ext := [field b 8 2, field b 10 2, field b 12 2]
    let shape := [field b 16 1, field b 17 1, field b 18 1]
    let lo := BitVec.ofNat 32 (field b 24 4)
    let hi := BitVec.ofNat 32 (field b 28 4)
    let u := field b 32 4
    let lad := field b 72 8
    let pats := (upFrom 0 rungs).map fun i => (s.devRead asid (lad + 16 * i) 16).bind readPattern
    let ladder := pats.filterMap id
    let full := ladder.all fun p => p.count == p.cube
    let reserved := bitsOf w0 13 51 != 0 || dims == 4 || decide (24 < bitsOf w0 8 5) || field b 14 2 != 0 || field b 19 5 != 0
      || field b 36 4 != 0 || field b 104 24 != 0 || lad % 16 != 0 || addr % 64 != 0 || ladder.length != rungs
    let sizes := (ext.zip shape).all (fun x => x.1 != 0 && x.2 != 0 && x.1 % x.2 == 0)
      && (shape.take dims).all (fun e => decide (2 ≤ e)) && (ext.drop dims).all (· == 1) && (shape.drop dims).all (· == 1)
    let limits := (fmtF.read lo.toNat).isNan || (fmtF.read hi.toNat).isNan || fLess false (fmtF.read hi.toNat) (fmtF.read lo.toNat)
    let live := match s.wordPA asid (field b 64 8) .rd with
      | some pa => s.mem.live pa == some .counter
      | none => false
    match s.coverRecord asid (field b 40 8) dims ext, s.coverRecord asid (field b 48 8) dims ext with
    | some out, some audit =>
      if reserved || !sizes || limits || !live || decide (rungs ≤ bitsOf w0 5 3) || u = 0 || !ladder.all (Pattern.fits dims shape)
          || !sparser ladder || recFormat out != recFormat audit || (decide (recFormat out = 13 ∨ recFormat out = 14) && !full) then none
      else
        some { core := 0, desc := BitVec.ofNat 64 addr, aexp := bitsOf w0 8 5, start := bitsOf w0 5 3, ladder := ladder, dims := dims,
               extents := ext, shape := shape, lo := lo, hi := hi, interval := u, outRec := out, auditRec := audit,
               log := BitVec.ofNat 64 (field b 56 8), timeline := BitVec.ofNat 64 (field b 64 8), next := 0, skipped := 0,
               rung := bitsOf w0 5 3, instants := 0, tiles := [], errs := [], recon := [], failed := none, final := 0,
               finished := false }
    | _, _ => none

/-! ### The lattice (R239, R240, R242) -/

/-- Component of a coordinate. -/
def at3 (x : List Nat) (i : Nat) : Nat := (x[i]?).getD 0
/-- Tiles along a dimension, and in all. -/
def Cover.along (c : Cover) (i : Nat) : Nat := at3 c.extents i / at3 c.shape i
def Cover.total (c : Cover) : Nat := c.along 0 * c.along 1 * c.along 2
/-- Tile coordinates of a tile id, and back. -/
def Cover.tileAt (c : Cover) (t : Nat) : List Nat :=
  let k := t - 1
  [k % c.along 0, k / c.along 0 % c.along 1, k / c.along 0 / c.along 1]
def Cover.tileId (c : Cover) (x : List Nat) : Nat := 1 + at3 x 0 + c.along 0 * (at3 x 1 + c.along 1 * at3 x 2)
/-- The tile that holds a lattice point. -/
def Cover.tileOf (c : Cover) (x : List Nat) : List Nat := (upFrom 0 3).map fun i => at3 x i / at3 c.shape i
/-- The points of a tile, x0 fastest. -/
def Cover.points (c : Cover) (t : Nat) : List (List Nat) :=
  let o := (upFrom 0 3).map fun i => at3 (c.tileAt t) i * at3 c.shape i
  (upFrom (at3 o 2) (at3 c.shape 2)).flatMap fun z => (upFrom (at3 o 1) (at3 c.shape 1)).flatMap fun y =>
    (upFrom (at3 o 0) (at3 c.shape 0)).map fun x => [x, y, z]
/-- The MASK bit of a point (R240). -/
def Pattern.bit (p : Pattern) (tile x : List Nat) : Nat :=
  let r0 := (at3 x 0 + p.sh0 * at3 tile 1) % 2 ^ at3 p.lp 0
  let r1 := (at3 x 1 + p.sh1 * at3 tile 0) % 2 ^ at3 p.lp 1
  r0 + 2 ^ at3 p.lp 0 * (r1 + 2 ^ at3 p.lp 1 * (at3 x 2 % 2 ^ at3 p.lp 2))
def Cover.pattern (c : Cover) (rung : Nat) : Pattern := (c.ladder[rung]?).getD { lp := [0, 0, 0], mask := 1, sh0 := 0, sh1 := 0 }
/-- Whether a point is computed under a rung. -/
def Cover.computes (c : Cover) (rung : Nat) (x : List Nat) : Bool :=
  let p := c.pattern rung
  p.mask.getLsbD (p.bit (c.tileOf x) x)
/-- Whether a point is computed under the rung of its tile, once that is dispatched. -/
def Cover.computed (c : Cover) (x : List Nat) : Bool :=
  match amGet c.tiles (c.tileId (c.tileOf x)) with
  | some t => c.computes t.rung x
  | none => false
/-- The skipped points of a tile with whether each is an audit point (R242). -/
def Cover.skips (c : Cover) (t : Nat) (k : CoverTile) : List (List Nat × Bool) :=
  let xs := (c.points t).filter fun x => !c.computes k.rung x
  (xs.zip (upFrom k.firstSkip xs.length)).map fun x => (x.1, x.2 % 2 ^ c.aexp == 0)
/-- The audit points of a tile. -/
def Cover.audits (c : Cover) (t : Nat) (k : CoverTile) : List (List Nat) := ((c.skips t k).filter (·.2)).map (·.1)
/-- The points a tile lists: computed and audit points in point order, audits marked. -/
def Cover.listed (c : Cover) (t : Nat) (k : CoverTile) : List (List Nat × Bool) :=
  let as := c.audits t k
  (c.points t).filterMap fun x =>
    if c.computes k.rung x then some (x, false) else if as.contains x then some (x, true) else none
/-- The halo of a tile (R246), itself included. -/
def Cover.halo (c : Cover) (t : Nat) : List Nat :=
  let near := fun (i : Nat) => (upFrom 0 (c.along i)).filter fun v =>
    decide (v ≤ at3 (c.tileAt t) i + 1) && decide (at3 (c.tileAt t) i ≤ v + 1)
  (near 2).flatMap fun z => (near 1).flatMap fun y => (near 0).map fun x => c.tileId [x, y, z]
def Cover.isDone (c : Cover) (t : Nat) : Bool := ((amGet c.tiles t).map (·.done)).getD false

/-! ### Values (R246, R248) -/

/-- How the unit accesses memory. -/
def Cover.who (c : Cover) (l asid : Nat) : Who := { core := c.core, team := none, launch := l, asid := asid, tlb := false }
/-- A point's coordinates as a record takes them. -/
def Cover.coord (c : Cover) (x : List Nat) : List Int := (upFrom 0 c.dims).map fun i => (at3 x i : Int)
/-- Read a point of a record, at its home or with what its rank has answered; else what is missing, and the point's address. -/
def State.pointRead (s : State) (w : Who) (b : List Byte) (c : Cover) (x : List Nat) : Except (Got × DWord) Nat :=
  let a := recAddr b (c.coord x)
  match s.engineGet w c.far a (bytesIn (recFormat b)) with
  | .bytes bs => .ok (leNat bs)
  | e => .error (e, a)
/-- Read points in order. -/
def State.pointsRead (s : State) (w : Who) (b : List Byte) (c : Cover) : List (List Nat) → Except (Got × DWord) (List Nat)
  | [] => .ok []
  | x :: xs =>
    match s.pointRead w b c x with
    | .error e => .error e
    | .ok v => (s.pointsRead w b c xs).map (v :: ·)
/-- The neighbours at a distance along the axes, in order: computed, in the lattice, and where asked in the point's own tile. -/
def Cover.around (c : Cover) (own : Bool) (x : List Nat) (d : Nat) : List (List Nat) :=
  (upFrom 0 c.dims).flatMap fun i =>
    let v := at3 x i
    let down := if d ≤ v then [x.set i (v - d)] else []
    let up := if v + d < at3 c.extents i then [x.set i (v + d)] else []
    (down ++ up).filter fun y => c.computed y && (!own || c.tileOf y == c.tileOf x)
/-- The first computed point of a point's period cube, in bit-index order. -/
def Cover.cubeFirst (c : Cover) (x : List Nat) : List (List Nat) :=
  let t := c.tileOf x
  match amGet c.tiles (c.tileId t) with
  | none => []
  | some k =>
    let p := c.pattern k.rung
    let base := (upFrom 0 3).map fun i => at3 x i / 2 ^ at3 p.lp i * 2 ^ at3 p.lp i
    let cube := (upFrom 0 (2 ^ at3 p.lp 2)).flatMap fun z => (upFrom 0 (2 ^ at3 p.lp 1)).flatMap fun y =>
      (upFrom 0 (2 ^ at3 p.lp 0)).map fun a => [at3 base 0 + a, at3 base 1 + y, at3 base 2 + z]
    ((upFrom 0 64).findSome? fun b =>
      if p.mask.getLsbD b then cube.find? fun y => p.bit t y == b else none).toList
/-- The set N of R246. -/
def Cover.sources (c : Cover) (own : Bool) (x : List Nat) : List (List Nat) :=
  let near := c.around own x 1
  if !near.isEmpty then near
  else
    let far := c.around own x 2
    if !far.isEmpty then far else c.cubeFirst x
/-- Widen a value to FP32: exactly for a floating type, .rn for an integer. -/
def widen (t : BitVec 4) (v : Nat) : Nat := (convert t 12 0 false v).bits
/-- FP32 divided by a count, .rn. -/
def overCount (v n : Nat) : Nat := (finish fmtF 0 (rawDiv (fmtF.read v) (.fin false n 0))).bits
/-- A left fold of FP32 additions, .rn. -/
def foldAdd : List Nat → Nat
  | [] => 0
  | x :: xs => xs.foldl (fun a y => (fAdd 12 0 a y).bits) x
/-- The interpolation of a set of values. -/
def blend (t : BitVec 4) (vs : List Nat) : Nat :=
  if isFloat t then (convert 12 t 0 (t == 8 || t == 9) (overCount (foldAdd (vs.map (widen t))) vs.length)).bits
  else
    let sum := vs.foldl (fun (a : Int) v => a + intVal t v) 0
    let w := wrapInt 64 sum
    let k : Int := if isSigned t && decide (2 ^ 63 ≤ w) then (w : Int) - 2 ^ 64 else w
    let n : Int := vs.length
    let q := k / n
    let r := 2 * (k % n)
    wrapInt (widthOf t) (if r < n then q else if n < r then q + 1 else q + q % 2)
/-- A skipped point's interpolation. -/
def State.interpolate (s : State) (w : Who) (c : Cover) (own : Bool) (x : List Nat) : Except (Got × DWord) Nat :=
  (s.pointsRead w c.outRec c (c.sources own x)).map (blend (recFormat c.outRec))
/-- The error of an estimate (R248). -/
def auditError (t : BitVec 4) (est audit : Nat) : Word :=
  let a := fmtF.read (widen t audit)
  let i := fmtF.read (widen t est)
  if a.isNan || i.isNan || a.isInf || i.isInf then BitVec.ofNat 32 fmtF.infBits
  else
    let d := (fSub 12 0 (widen t est) (widen t audit)).bits % 2 ^ 31
    let m := widen t audit % 2 ^ 31
    BitVec.ofNat 32 (fDiv 12 0 d (if m < 0x3A800000 then 0x3A800000 else m)).bits
/-- The estimates of a tile's audits, in walker order. -/
def State.tileErrors (s : State) (w : Who) (c : Cover) : List (List Nat) → Except (Got × DWord) (List Word)
  | [] => .ok []
  | x :: xs =>
    match s.interpolate w c true x, s.pointRead w c.auditRec c x with
    | .ok i, .ok a => (s.tileErrors w c xs).map (auditError (recFormat c.outRec) i a :: ·)
    | .error e, _ => .error e
    | _, .error e => .error e

/-! ### Faults of the unit (R242, R247) -/

def State.coverOf (s : State) (l : Nat) : Option (Launch × Cover) := (s.launch l).bind fun x => x.cover.map fun c => (x, c)
def State.modCover (s : State) (l : Nat) (f : Cover → Cover) : State := s.modLaunch l fun x => { x with cover := x.cover.map f }
/-- Serve an address for the unit: true, go on; false, a fault with its cause; none, wait. -/
def State.coverServe (s : State) (l : Nat) (x : Launch) (c : Cover) (a : DWord) (n : Nat) : State × Option Bool :=
  s.serveRange (dieOf c.core) a.toNat n l x.asid x.rcb (.cover l)
/-- Reconstruction stops before a tile, with a report. -/
def State.coverFail (s : State) (l t : Nat) (cause : Byte) (a : DWord) : State :=
  (s.modCover l fun c => { c with failed := some (Nat.min (c.failed.getD t) t), final := c.final ||| 512 }).escalateLaunch l cause a.toNat
/-- Send a unit's accesses at other ranks: the tickets, each with its accesses. -/
def State.coverSend (s : State) (l : Nat) (c : Cover) (asks : List Ask) : State × List (Nat × List Ask) :=
  let r := s.sendAsks c.core (.cover l) 0 none asks
  (r.1, r.2.map fun x => (x.2, asks.filter fun a => s.askKey c.core none a == x.1))
/-- Send stores of a tile to other ranks; each is awaited (R247). -/
def State.coverStores (s : State) (l t : Nat) (c : Cover) (log : Bool) (asks : List Ask) : State :=
  if asks.isEmpty then s
  else
    let r := s.coverSend l c asks
    r.1.modCover l fun y => { y with acks := r.2.foldl (fun m x => amSet m x.1 (t, log)) y.acks }
/-- The cause of a fault of the unit's own access. -/
def State.coverCause (s : State) (w : Who) (a : DWord) (n : Nat) (need : Need) : Byte :=
  match s.resolve w a n need with
  | .error (.trap e) => e
  | .error .stall => cPage
  | .ok gs => if need == .wr && s.touchesLive gs then cTagStore else cProtect
/-- What an unanswered read comes to: true, try again; false, reported; none, wait. -/
def State.coverGot (s : State) (l t : Nat) (x : Launch) (c : Cover) (e : Got × DWord) : State × Option Bool :=
  match e.1 with
  | .page a n =>
    let r := s.coverServe l x c a n
    match r.2 with
    | some false => (r.1.coverFail l t cPage a, some false)
    | y => (r.1, y)
  | .ask ps =>
    (match c.bad with
     | some f => ((s.modCover l fun y => { y with bad := none }).coverFail l t f.1 f.2, some false)
     | none =>
       if !c.wait.isEmpty then (s, none)
       else
         let asks := ps.map fun p => farAsk 0 p.1 p.2
         let r := s.coverSend l c asks
         (r.1.modCover l fun y => { y with wait := r.2.map fun z => (z.1, z.2.map fun a => BitVec.ofNat 64 a.addr) }, none))
  | _ => (s.coverFail l t (s.coverCause (c.who l x.asid) e.2 (bytesIn (recFormat c.outRec)) .rd) e.2, some false)

/-! ### The controller (R248 to R250) -/

/-- Free words, where an estimate could not be formed. -/
def freeWords : Nat → State → State × List Word
  | 0, s => (s, [])
  | n + 1, s => let r := freeWords n s.usedFree; (r.1, s.freeVal.setWidth 32 :: r.2)
/-- Form a done tile's estimates, where they are missing. -/
def State.formTile (s : State) (l t : Nat) : State :=
  match s.coverOf l with
  | none => s
  | some (x, c) =>
    match amGet c.tiles t with
    | none => s
    | some k =>
      if !k.done || (amGet c.errs t).isSome then s
      else
        let as := c.audits t k
        match s.tileErrors (c.who l x.asid) c as with
        | .ok es => s.modCover l fun y => { y with errs := amSet y.errs t es, far := [] }
        | .error e =>
          let r := s.coverGot l t x c e
          match r.2 with
          | some false =>
            let f := freeWords as.length r.1
            f.1.modCover l fun y => { y with errs := amSet y.errs t f.2, far := [] }
          | _ => r.1
def State.formErrors (s : State) (l : Nat) : State :=
  match s.coverOf l with
  | none => s
  | some (_, c) => c.tiles.foldl (fun a t => a.formTile l t.1) s
/-- The mean of a window's errors; none when it has no audits. -/
def windowMean (es : List Word) : Option Nat :=
  if es.isEmpty then none else some (overCount (foldAdd (es.map fun e => e.toNat)) es.length)
/-- The decision of an update instant on the rung (R249). A window with an infinite error lies above every HI (R248). -/
def Cover.decide_ (c : Cover) (es : List Word) : Nat :=
  match windowMean es with
  | none => c.rung
  | some m =>
    if es.any (fun e => (fmtF.read e.toNat).isInf) || fLess false (fmtF.read c.hi.toNat) (fmtF.read m) then c.rung - 1
    else if fLess false (fmtF.read m) (fmtF.read c.lo.toNat) then Nat.min (c.rung + 1) (c.ladder.length - 1)
    else c.rung
/-- The walker's state with the rung of tile `t` in force; none while its instant is not decided (R250). -/
def Cover.ready (c : Cover) (t : Nat) : Option Cover :=
  let u := c.interval
  if (t - 1) % u != 0 || (t - 1) / u < 2 then some c
  else
    let win := upFrom (t - 2 * u) u
    if win.all fun w => c.isDone w && (amGet c.errs w).isSome then
      some { c with rung := c.decide_ (win.flatMap fun w => (amGet c.errs w).getD []), instants := c.instants + 1 }
    else none

/-! ### Dispatch (R242, R244) -/

/-- What a request for a tile comes to. -/
inductive Dispatched where
  | beyond
  | wait (s : State)
  | tile (s : State) (t : Nat)
deriving DecidableEq, Repr

/-- Write the log byte of a tile: none to wait for a page. -/
def State.logRung (s : State) (l : Nat) (x : Launch) (c : Cover) (t : Nat) : State × Bool :=
  let a := c.log + BitVec.ofNat 64 (t - 1)
  let bad := fun (s : State) (cause : Byte) =>
    (s.modCover l fun y => { y with final := y.final ||| 1024 }).escalateLaunch l cause a.toNat
  let r := s.coverServe l x c a 1
  match r.2 with
  | none => (r.1, false)
  | some false => (bad r.1 cPage, true)
  | some true =>
    match r.1.resolve (c.who l x.asid) a 1 .wr with
    | .error .stall => (r.1, false)
    | .error (.trap e) => if e == cPage || e == cRevoked then (r.1, false) else (bad r.1 e, true)
    | .ok gs =>
      if gs.any (fun g => g.isRemote) then (r.1.coverStores l t c true [farAsk 0 a (.put (bytesOf 1 c.rung))], true)
      else if anyFmt gs then (bad r.1 cProtect, true)
      else if r.1.touchesLive gs then (bad r.1 cTagStore, true)
      else (r.1.segsHomeWrite gs (bytesOf 1 c.rung), true)
/-- Dispatch the next tile. -/
def State.dispatchTile (s : State) (l : Nat) : Dispatched :=
  let s1 := s.formErrors l
  match s1.coverOf l with
  | none => .beyond
  | some (x, c) =>
    let t := c.next + 1
    if c.total < t then .beyond
    else
      match c.ready t with
      | none => .wait s1
      | some c1 =>
        let r := s1.logRung l x c1 t
        if !r.2 then .wait r.1
        else
          let k : CoverTile := { rung := c1.rung, firstSkip := c1.skipped + 1, done := false }
          .tile (r.1.modCover l fun y =>
            { y with rung := c1.rung, instants := c1.instants, next := t, skipped := c1.skipped + (c1.skips t k).length,
                     tiles := amSet y.tiles t k }) t

/-! ### PTNEXT and PTDONE (R243 to R245) -/

/-- Give the next points of the current tile to the live lanes; none while a P bit holds a register they take (R38). -/
def Group.takePoints (g : Group) (c : Cover) (cur : CurTile) (k : CoverTile) (sp : Split) (audit point : BitVec 3) (first : Nat) :
    Option Group :=
  let live := g.live sp
  let give := (maskLanes live).zip ((c.listed cur.tile k).drop cur.given)
  let took := maskOf fun i => give.any fun x => x.1 == i
  if (upFrom 0 3).any fun j => (g.pmask (sp.wb + first + j) &&& took) != 0 then none
  else
    let g1 := give.foldl (fun (a : Group) x =>
      (upFrom 0 3).foldl (fun (b : Group) j => b.setSlot (sp.wb + first + j) x.1 (BitVec.ofNat 32 (at3 x.2.1 j))) a) g
    let au := maskOf fun i => give.any fun x => x.1 == i && x.2.2
    let g2 := g1.setPred point.toNat ((g1.pred point.toNat &&& ~~~live) ||| took)
    let g3 := g2.setPred audit.toNat ((g2.pred audit.toNat &&& ~~~live) ||| au)
    some (g3.modCtl fun x => { x with tile := some { cur with given := cur.given + give.length } })
/-- What a PTNEXT comes to: ILLEGAL, a wait for a dispatch, a P stall, or its result. -/
inductive PtRes where
  | illegal
  | wait (s : State)
  | stall (s : State)
  /-- A fault of the unit has cancelled the launch, and the group is gone (R242, R335). -/
  | gone (s : State)
  | done (s : State) (g : Group) (d : DWord)
deriving DecidableEq, Repr
/-- PTNEXT of a group's split (R244), once its lane work is complete. -/
def State.ptTry (s : State) (key : Nat) (g : Group) (sp : Split) (audit point : BitVec 3) (first : Nat) : PtRes :=
  let give : State → Group → CurTile → PtRes := fun s g cur =>
    match (s.coverOf g.launch).bind fun x => (amGet x.2.tiles cur.tile).map fun k => (x.2, k) with
    | none => .illegal
    | some (c, k) =>
      if (c.listed cur.tile k).length ≤ cur.given then .illegal
      else
        match g.takePoints c cur k sp audit point first with
        | none => .stall (s.putGroup key g)
        | some g1 => .done s g1 (BitVec.ofNat 64 cur.tile)
  if (s.coverOf g.launch).isNone || g.live sp = 0 then .illegal
  else
    match g.ctl.tile with
    | some cur => give s g cur
    | none =>
      match s.dispatchTile g.launch with
      | .beyond => .done s g (BitVec.allOnes 64)
      | .wait s1 => if (s1.group key).isNone then .gone s1 else .wait s1
      | .tile s1 t => if (s1.group key).isNone then .gone s1 else give s1 (g.modCtl fun x => { x with tile := some { tile := t, given := 0 } }) { tile := t, given := 0 }
/-- PTNEXT. -/
def execPtnext (d : SReg) (audit point : BitVec 3) (first : BitVec 6) (s : State) : Out :=
  runScalar (scalarOk (.ptnext d audit point first)) (fun s g sp =>
    let k := s.sched.split
    if (s.coverOf g.launch).isNone || g.live sp = 0 then .trap (Trap.of cIllegal)
    else if !g.laneDone k then .wait s
    else
      match s.ptTry s.curKey g sp audit point first.toNat with
      | .illegal => .trap (Trap.of cIllegal)
      | .gone s1 => .done s1
      | .wait s1 => .wait (s1.modSplit s.curKey k fun x => { x with status := .ptnext d audit point first.toNat })
      | .stall s1 => .wait (s1.modSplit s.curKey k fun x => { x with pstall := some (x.pstall.getD s.now) })
      | .done s1 g1 v => .done (s1.put g1 (({ sp with pstall := none } : Split).setReg d v).advance)) s
/-- PTNEXT_DISPATCH: a tile, or the end of the tiles, reaches a waiting PTNEXT (R244, R250). -/
def execPtnextDispatch (core slot split : Nat) (s : State) : Out :=
  onSplit core slot split (fun g sp =>
    let key := gkey core slot
    match sp.status with
    | .ptnext d audit point first =>
      (match s.ptTry key g sp audit point first with
       | .illegal => (s.modSplit key split fun x => { x with status := .ready }).takeTrap key split (Trap.of cIllegal) none
       | .wait s1 => s1
       | .gone s1 => s1
       | .stall s1 => s1.modSplit key split fun x => { x with status := .ready, pstall := some s.now }
       | .done s1 g1 v =>
         (s1.putGroup key g1).resume key split fun x => (x.setReg d v).advance)
    | _ => s) s
/-- Whether the group has accesses queued or outstanding that the release of PTDONE waits for. -/
def State.storesOut (s : State) (key : Nat) (g : Group) : Bool :=
  (g.async.laneq.any fun e => match entryInstr e with
    | some i => isLaneMem i
    | none => false)
    || !(g.splits.all fun x => s.releaseReady key x.1 1)
/-- PTDONE (R245). -/
def execPtdone (a : SReg) (s : State) : Out :=
  runScalar (scalarOk (.ptdone a)) (fun s g sp =>
    let key := s.curKey
    match g.ctl.tile, s.coverOf g.launch with
    | some cur, some (_, c) =>
      let left := match amGet c.tiles cur.tile with
        | some k => decide (cur.given < (c.listed cur.tile k).length)
        | none => true
      if sp.reg a != BitVec.ofNat 64 cur.tile || left then .trap (Trap.of cIllegal)
      else
        let s1 := g.splits.foldl (fun (x : State) y => x.quantForward (key / 32) (fromSplit (key % 32) y.1)) s
        let s2 := s1.writeBack (key / 32) fun _ => true
        if s2.storesOut key g then .wait s2
        else
          let s3 := (s2.put (g.modCtl fun x => { x with tile := none }) sp.advance).closeTile g.launch cur.tile false
          .done (s3.formErrors g.launch)
    | _, _ => .trap (Trap.of cIllegal)) s

/-! ### Reconstruction (R246, R247) -/

/-- The skipped points of a tile with the values they receive. -/
def State.rebuilt (s : State) (w : Who) (c : Cover) : List (List Nat × Bool) → Except (Got × DWord) (List (List Nat × Nat))
  | [] => .ok []
  | x :: xs =>
    match if x.2 then s.pointRead w c.auditRec c x.1 else s.interpolate w c false x.1 with
    | .error e => .error e
    | .ok v => (s.rebuilt w c xs).map ((x.1, v) :: ·)
/-- Write points in order; the Bool tells that all went in. -/
def State.writePoints (s : State) (l t : Nat) (x : Launch) (c : Cover) : List (List Nat × Nat) → State × Bool
  | [] => (s, true)
  | p :: ps =>
    let n := bytesIn (recFormat c.outRec)
    let a := recAddr c.outRec (c.coord p.1)
    let r := s.coverServe l x c a n
    match r.2 with
    | none => (r.1, false)
    | some false => (r.1.coverFail l t cPage a, false)
    | some true =>
      match r.1.enginePut (c.who l x.asid) { addr := a, bytes := bytesOf n p.2, kind := .plain } with
      | some (s1, asks) => (s1.coverStores l t c false asks).writePoints l t x c ps
      | none => (r.1.coverFail l t (r.1.coverCause (c.who l x.asid) a n .wr) a, false)
/-- The lowest tile that is ready to be reconstructed. -/
def Cover.nextRecon (c : Cover) : Option Nat :=
  if c.failed.isSome || c.finished then none
  else (c.tiles.find? fun t => !nsHas c.recon t.1 && (c.halo t.1).all c.isDone).map (·.1)
/-- How many tiles from the first are reconstructed, with every store performed and none faulted (R247). -/
def Cover.reached (c : Cover) : Nat :=
  c.acks.foldl (fun n x => Nat.min n (x.2.1 - 1)) (Nat.min (advanceDone c.recon.length c.recon 1) (c.failed.getD (c.total + 1)) - 1)
/-- Advance the coverage timeline; a page of its word that is missing is served, and the word is advanced later (R247). -/
def State.coverTimeline (s : State) (l : Nat) : State :=
  match s.coverOf l with
  | none => s
  | some (x, c) =>
    let s0 := s.modCover l fun y => { y with owed := false }
    match s0.wordPA x.asid c.timeline.toNat .rd with
    | none =>
      let r := s.coverServe l x c c.timeline 8
      (match r.2 with
       | some false => (r.1.modCover l fun y => { y with owed := false }).coverFail l c.reached cPage c.timeline
       | _ => r.1.modCover l fun y => { y with owed := true })
    | some pa =>
      if s0.mem.live pa != some .counter then s0.coverFail l c.reached cProtect c.timeline
      else if (s0.wordAt pa).toNat < c.reached then s0.setWord pa (BitVec.ofNat 64 c.reached)
      else s0
/-- After the last tile: the descriptor's status words, and the unit's count on the spawn-tree counter. -/
def State.coverFinish (s : State) (l : Nat) : State :=
  match s.coverOf l with
  | none => s
  | some (x, c) =>
    let all := c.next == c.total && c.tiles.all fun t => t.2.done && (amGet c.errs t.1).isSome
    if c.finished || !all || !(c.recon.length == c.total || c.failed.isSome) || !c.acks.isEmpty || (c.owed && c.failed.isNone) then s
    else
      let n := c.errs.foldl (fun k e => k + e.2.length) 0
      let r := s.coverServe l x c (c.desc + 80) 24
      if r.2.isNone then r.1
      else
      let s0 := if r.2 = some false then r.1.escalateLaunch l cPage (c.desc.toNat + 80) else r.1
      let s1 := s0.devWrite x.asid (c.desc.toNat + 80) (bytesOf 8 c.instants ++ bytesOf 8 n ++ bytesOf 8 (c.rung + c.final / 8 * 8))
      (s1.modLaunch l fun y => { y with counter := y.counter - 1, cover := y.cover.map fun k => { k with finished := true } }).wakeUp
        (.launchComplete l)
/-- Reconstruct a tile. -/
def State.reconstruct (s : State) (l t : Nat) (x : Launch) (c : Cover) : State :=
  match amGet c.tiles t with
  | none => s
  | some k =>
    match s.rebuilt (c.who l x.asid) c (c.skips t k) with
    | .error e => (s.coverGot l t x c e).1
    | .ok vs =>
      let r := s.writePoints l t x c vs
      if r.2 then (r.1.modCover l fun y => { y with recon := nsAdd y.recon t, far := [] }).coverTimeline l else r.1
/-- TILE_RECONSTRUCT. -/
def execTileReconstruct (launch : Nat) (s : State) : Out :=
  let s1 := s.formErrors launch
  match s1.coverOf launch with
  | none => .next s1
  | some (x, c) =>
    match c.nextRecon with
    | none => .next ((if c.owed then s1.coverTimeline launch else s1).coverFinish launch)
    | some t => .next (((s1.reconstruct launch t x c).coverFinish launch).wakeUp (.tileReconstruct launch))

end Sys2Proof.Machine
end

