-- ==== Sys2Proof/Machine/Launch.lean ====
section
/-! DEFINITION. Command rings and merge units (R318, R319), launch intake (R320, R321, R325, R326), SPAWN (R315, R316), the ready pool
(R327, R328), retirement and completion (R317, R322, R323), cancellation (R324). -/
namespace Sys2Proof.Machine

/-! ### Command rings and merge units (R318, R319) -/

def State.ringBase (s : State) (r : Ring) : Nat := (s.devNum r.asid r.desc.toNat 8).getD 0
def State.ringSize (s : State) (r : Ring) : Nat := 2 ^ bitsOf ((s.devNum r.asid (r.desc.toNat + 8) 8).getD 0) 0 4
def State.ringRead (s : State) (r : Ring) : Nat := (s.devNum r.asid (r.desc.toNat + 16) 8).getD 0
def State.ringWrite (s : State) (r : Ring) : Nat := (s.devNum r.asid (r.desc.toNat + 64) 8).getD 0
/-- The head entry of a ring: its address and bytes, when the write index lies above it. -/
def State.ringHead (s : State) (r : Ring) : Option (Nat × Option (List Byte)) :=
  let h := s.ringRead r
  if s.ringWrite r ≤ h then none
  else let a := s.ringBase r + 64 * (h % s.ringSize r); some (a, s.devRead r.asid a 64)
/-- A head entry whose sequence is right. -/
def State.ringEntry (s : State) (r : Ring) : Option (Nat × List Byte) :=
  match s.ringHead r with
  | some (a, some b) => if field b 6 2 = s.ringRead r % 65536 then some (a, b) else none
  | _ => none
def State.modRing (s : State) (k : Nat) (f : Ring → Ring) : State := s.modHead fun h => { h with rings := amMod f h.rings k }
def State.merger (s : State) (m : Nat) : Merger := (amGet s.head.mergers m).getD { last := 64, chain := none, taken := [] }
def State.setMerger (s : State) (m : Nat) (x : Merger) : State := s.modHead fun h => { h with mergers := amSet h.mergers m x }
/-- Mirror a read index to its producer (R318). -/
def State.mirror (s : State) (asid addr n : Nat) : State :=
  if addr = 0 then s
  else
    match s.enginePut (devWho asid 0) { addr := BitVec.ofNat 64 addr, bytes := bytesOf 8 n, kind := .plain } with
    | some (s1, asks) => (s1.sendAsks 0 .none 0 none asks).1
    | none => s
/-- Take a ring's head entry into its merge unit. -/
def State.takeRing (s : State) (m k : Nat) (r : Ring) (a : Nat) (b : List Byte) (x : Merger) : State :=
  let n := s.ringRead r + 1
  let s1 := s.devWrite r.asid (r.desc.toNat + 16) (bytesOf 8 n)
  let s2 := s1.mirror r.asid ((s1.devNum r.asid (r.desc.toNat + 24) 8).getD 0) n
  let s3 := s2.modRing k fun y => { y with headSince := none, stalled := false }
  (s3.setMerger m { x with taken := x.taken ++ [(r.asid, BitVec.ofNat 64 a, b)] }).wakeUp
    (if field b 0 1 = 2 then .graphReplayIntake else .launchIntake)
/-- The rings of a merge unit in the order of a turn: ascending index after the last served, wrapping round. -/
def State.ringOrder (s : State) (m : Nat) : List (Nat × Ring) :=
  let rs := s.head.rings.filter fun r => r.2.merger == m
  let last := (s.merger m).last
  let place := fun (r : Ring) => if last < r.index then r.index else r.index + 65
  rs.foldl (fun acc r => (acc.filter fun x => decide (place x.2 ≤ place r.2)) ++ [r]
    ++ acc.filter fun x => decide (place r.2 < place x.2)) []
/-- MERGE_UNIT_TAKE: one entry is taken; a chained one keeps the turn at its ring, for 8 entries at most. -/
def execMergeUnitTake (merger : Nat) (s : State) : Out :=
  let x := s.merger merger
  let go := fun (k : Nat) (r : Ring) (n : Nat) =>
    match s.ringEntry r with
    | none => s
    | some (a, b) =>
      let chained := bitsOf (field b 0 8) 8 1 = 1 && decide (n + 1 < 8)
      s.takeRing merger k r a b { x with last := r.index, chain := if chained then some (k, n + 1, s.now) else none }
  if s.dev.tripped then .next s
  else
    match x.chain with
    | some (k, n, _) =>
      (match amGet s.head.rings k with
       | none => .next (s.setMerger merger { x with chain := none })
       | some r => .next (go k r n))
    | none =>
      match (s.ringOrder merger).find? fun r => (s.ringEntry r.2).isSome with
      | none => .next s
      | some (k, r) => .next (go k r 0)
/-- CHAIN_WAIT_TIMEOUT: a chained entry that is not valid within 10 µs ends the turn. -/
def execChainWaitTimeout (merger : Nat) (s : State) : Out :=
  let x := s.merger merger
  match x.chain with
  | none => .next s
  | some (k, _, t) =>
    let valid := match amGet s.head.rings k with
      | some r => (s.ringEntry r).isSome
      | none => false
    if valid || decide (s.now - t < 10 * Config.usCycles) then .next s else .next (s.setMerger merger { x with chain := none })
/-- RING_STALLED: the head has waited 1 ms for its sequence: STALLED, and one host event (R318, R338). -/
def execRingStalled (ring : Nat) (s : State) : Out :=
  match amGet s.head.rings ring with
  | none => .next s
  | some r =>
    let late := match r.headSince with
      | some t => decide (Config.msCycles ≤ s.now - t)
      | none => false
    if !late || r.stalled || (s.ringHead r).isNone || (s.ringEntry r).isSome then .next s
    else
      let w := 1 + s.ringRead r % 2 ^ 32 * 2 ^ 32
      let old := (s.devNum r.asid (r.desc.toNat + 32) 8).getD 0
      let s1 := (s.devWrite r.asid (r.desc.toNat + 32) (bytesOf 8 w)).modRing ring fun y => { y with stalled := true }
      if old % 2 = 1 then .next s1
      else if s1.unacked 2 r.desc.toNat then .next (s1.modRing ring fun y => { y with held := true })
      else .next (s1.event (evt 2 0 0 r.desc.toNat 0 0))

/-! ### Nodes (R312, R315 to R317) -/

/-- Nodes that have not completed, in the package. -/
def State.liveNodes (s : State) : Nat := s.head.launches.foldl (fun n x => n + x.2.nodes.length) 0
/-- What a node's retirements take from the spawn-tree counter in all (R313). -/
def nodeCount (rec_ : List Byte) : Nat := if ndUnit rec_ = 0 then ndTeams rec_ else 1
/-- Code 1 of R315: the record, and a copy entry with it. -/
def recordBad (rec_ ent : List Byte) : Bool :=
  let u := ndUnit rec_
  bitsOf (field rec_ 0 8) 13 3 != 0 || decide (2 < u) || ndTeams rec_ = 0
    || (upFrom 0 4).any (fun i => bitsOf (field rec_ (32 + 8 * i) 8) 2 4 != 0)
    || (u != 0 && (ndTeams rec_ != 1 || ndGroups rec_ != 1 || ndPart rec_ != 0))
    || (u == 1 && ((entToken ent).isSome || entTriggered ent))
/-- A child RCB (R312): none when the index is too high or the child is not VALID. -/
def State.childRcb (s : State) (asid rcb k : Nat) : Option Nat :=
  if k = 0 then some rcb
  else if s.rcbField asid rcb 24 1 < k then none
  else
    match s.devNum asid (s.rcbField asid rcb 16 8 + 8 * (k - 1)) 8 with
    | none => none
    | some c => if s.rcbValid asid c then some c else none
/-- A path that reaches a top-level RCB and supplies a spill region (R310, R321). -/
def State.pathOk (s : State) (asid rcb : Nat) : Bool :=
  (s.rcbPathFrom asid 16 rcb).isSome && (s.rcbRegion asid rcb 72).isSome
/-- Reserve signals at successors (R316): none when one names no waiting node with room. -/
def reserveAll : List Nat → AMap Node → Option (AMap Node)
  | [], ns => some ns
  | h :: hs, ns =>
    match amGet ns h with
    | none => none
    | some n =>
      if n.state == .waiting && decide (n.reserved < n.count) then reserveAll hs (amSet ns h { n with reserved := n.reserved + 1 })
      else none
/-- Earlier nodes of a launch that share an operand with a record, one of the two writing it. -/
def autoOf (ns : AMap Node) (rec_ : List Byte) : List Nat :=
  (ns.filter fun n => (ndOps n.2.record).any fun a => (ndOps rec_).any fun b => a.1 == b.1 && (a.2 || b.2)).map (·.1)
/-- A node of a launch. -/
def mkNode (s : State) (rec_ ent : List Byte) (rcb : Nat) (s1 s2 : DWord) (count : Nat) (auto : List Nat) (graph : Bool) : Node :=
  { record := rec_, rcb := rcb, s1 := s1, s2 := s2, count := count, reserved := 0, auto := auto, succ := ndSucc rec_,
    state := if count = 0 then .ready else .waiting, toPlace := ndTeams rec_, retired := 0, order := s.head.poolNext, since := s.now,
    raised := 0, entry := ent, graph := graph }
/-- Count one more entry of the pool. -/
def State.pooled (s : State) : State := s.modHead fun h => { h with poolNext := h.poolNext + 1 }
/-- What a SPAWN's checks find (R315): the code of the first failure, or the node's RCB, successors' nodes and `auto`. -/
def State.spawnCheck (s : State) (rcb : Nat) (x : Launch) (rec_ ent : List Byte) : Except Nat (Nat × AMap Node × List Nat) :=
  if recordBad rec_ ent then .error 1
  else if ndUnit rec_ = 0 && !partOk (ndPart rec_) (ndGroups rec_) then .error 2
  else
    match s.childRcb x.asid rcb (ndChild rec_) with
    | none => .error 3
    | some r =>
      if !s.pathOk x.asid r then .error 3
      else if ndUnit rec_ = 0 && s.budgetAlone x.asid r (ndUnits rec_) then .error 4
      else
        match reserveAll (ndSucc rec_) x.nodes with
        | none => .error 5
        | some ns =>
          let auto := autoOf x.nodes rec_
          if 255 < ndPreds rec_ + auto.length then .error 6
          else if 65536 ≤ s.liveNodes then .error 7
          else if x.cancelling then .error 8
          else .ok (r, ns, auto)
/-- SPAWN. -/
def execSpawn (d a : SReg) (s : State) : Out :=
  runScalar true (fun s g sp =>
    let addr := sp.reg a
    let split := s.sched.split
    if addr.toNat % 64 != 0 then .trap (Trap.at_ cAlign addr)
    else if !g.issued split then .wait s
    else
      match s.releaseFor split 1 with
      | .error s1 => .wait s1
      | .ok s0 =>
        let w := s0.whoOf s.sched.core g
        match s0.readLines w split split addr 64 with
        | .held s1 => .wait s1
        | .stop x e => stopScalar x s e
        | .bytes s1 rec_ far1 =>
          let code := BitVec.ofNat 64 (ndCode rec_)
          if ndUnit rec_ = 1 && code.toNat % 64 != 0 then .trap (Trap.at_ cAlign code)
          else
            match if ndUnit rec_ = 1 then s1.readLines w split split code 64 else .bytes s1 [] false with
            | .held s2 => .wait s2
            | .stop x e => stopScalar x s e
            | .bytes sr ent far2 =>
              let s2 := if far1 || far2 then sr.endFetch split else sr
              match s2.launch g.launch, s2.team g.team with
              | some x, some t =>
                (match s2.spawnCheck t.rcb x rec_ ent with
                 | .error c => .done (s2.modSplit s.curKey split fun y => (y.setReg d (BitVec.ofNat 64 (2 ^ 63 + c))).advance)
                 | .ok (rcb, ns, auto) =>
                   let h := x.nextHandle
                   let n := mkNode s2 rec_ ent rcb addr (BitVec.ofNat 64 h) (ndPreds rec_ + auto.length) auto false
                   let s3 := (s2.modLaunch g.launch fun y =>
                     { y with nodes := amSet ns h n, nextHandle := h + 1, counter := y.counter + nodeCount rec_ }).pooled
                   .done ((s3.modSplit s.curKey split fun y => (y.setReg d (BitVec.ofNat 64 h)).advance).wakeUp .nodeDispatch))
              | _, _ => .trap (Trap.of cIllegal)) s
/-- A node's signal reaches the nodes that reserved it, then those that hold it in `auto` (R317). -/
def signal (ns : AMap Node) (h : Nat) (succ : List Nat) (now order : Nat) : AMap Node :=
  let lose := fun (n : Node) (own : Bool) =>
    let c := n.count - 1
    let m : Node := { n with count := c, reserved := if own then n.reserved - 1 else n.reserved }
    if c = 0 && n.state == .waiting then { m with state := .ready, since := now, order := order } else m
  let a := succ.foldl (fun m k => amMod (fun n => lose n true) m k) ns
  amMap (fun _ n => if n.auto.contains h then { lose n false with auto := n.auto.filter (· != h) } else n) a
/-- NODE_COMPLETE. -/
def execNodeComplete (launch handle : Nat) (s : State) : Out :=
  match s.launch launch, s.node launch handle with
  | some x, some n =>
    let u := ndUnit n.record
    let beyond := n.state == .running &&
      (if u = 0 then n.toPlace = 0 && n.retired == ndTeams n.record
       else if u = 1 then !(s.entries.any fun e => e.2.launch == launch && e.2.node == handle && e.2.queue.isNone)
       else !(s.head.jobs.any fun j => j.2.launch == launch && j.2.node == handle))
    if !beyond then .next s
    else
      let ns := signal (amDel x.nodes handle) handle n.succ s.now s.head.poolNext
      let s1 := (s.modLaunch launch fun y => { y with nodes := ns, counter := if u = 0 then y.counter else y.counter - 1 }).pooled
      .next ((s1.wakeUp .nodeDispatch).wakeUp (.launchComplete launch))
  | _, _ => .next s

/-! ### Intake (R320, R321, R323) -/

def pkKind (b : List Byte) : Nat := field b 0 1
/-- The next packet in launch intake order: the merge unit whose turn it is, with a packet taken (R319). -/
def State.nextPacket (s : State) : Option (Nat × Nat × DWord × List Byte) :=
  ((upFrom 0 16).map fun i => (s.head.nextMerger + i) % 16).findSome? fun m =>
    match (s.merger m).taken with
    | [] => none
    | p :: _ => some (m, p.1, p.2.1, p.2.2)
/-- The packet leaves its merge unit. -/
def State.dropPacket (s : State) (m : Nat) : State :=
  let x := s.merger m
  (s.setMerger m { x with taken := x.taken.drop 1 }).modHead fun h => { h with nextMerger := (m + 1) % 16 }
/-- Steps 4 and 5 of R323: the status byte of the packet, then the completion count. -/
def State.reportLaunch (s : State) (packetAsid : Nat) (packet : DWord) (asid done status : Nat) : State :=
  (s.devWrite packetAsid (packet.toNat + 2) (bytesOf 1 status)).countOn asid done 1 false
/-- A queue descriptor of a launch's list (R225). -/
def State.queueOk (s : State) (asid addr : Nat) : Bool :=
  if addr % 256 != 0 then false
  else
    match s.devRead asid addr 256 with
    | none => false
    | some b =>
      let c := field b 8 8
      bitsOf c 4 8 == 0 && bitsOf c 13 3 == 0 && bitsOf c 22 42 == 0 && decide (4 ≤ bitsOf c 0 4) && decide (bitsOf c 16 4 < 12)
        && s.dev.topology.clusters.getLsbD (bitsOf c 20 2 * 12 + bitsOf c 16 4)
        && field b 0 8 % 64 == 0 && s.ownMemory (BitVec.ofNat 64 (field b 0 8))
        && field b 48 80 == 0 && field b 136 120 == 0
        && (match s.wordPA asid (addr + 24) .rd with
            | some pa => s.mem.live pa == some .counter
            | none => false)
/-- A launch's queue list (R320, R225); none when it is bad. -/
def State.queueList (s : State) (asid addr : Nat) : Option (List Nat) :=
  if addr = 0 then some []
  else
    match s.devNum asid addr 8 with
    | none => none
    | some n =>
      if 64 < n then none
      else
        match s.devRead asid (addr + 8) (8 * n) with
        | none => none
        | some b =>
          let qs := (upFrom 0 n).map fun i => field b (8 * i) 8
          if qs.all (s.queueOk asid) then some qs else none
/-- Register a launch's queues: the named engines serve them from now on (R225). -/
def State.registerQueues (s : State) (l asid : Nat) : List Nat → State × List Nat
  | [] => (s, [])
  | q :: qs =>
    let c := (s.devNum asid (q + 8) 8).getD 0
    let k := s.nextQueue
    let x : CopyQueue :=
      { desc := BitVec.ofNat 64 q, asid := asid, launch := l, engine := (bitsOf c 20 2 * 12 + bitsOf c 16 4) * 2 + bitsOf c 12 1,
        headSince := none, done := [], held := false }
    let r := ({ s with queues := amSet s.queues k x, nextQueue := k + 1 } : State).registerQueues l asid qs
    (r.1, k :: r.2)
/-- Add a launch. -/
def State.addLaunch (s : State) (x : Launch) : State × Nat :=
  (s.modHead fun h => { h with launches := amSet h.launches h.nextLaunch x, nextLaunch := h.nextLaunch + 1 }, s.head.nextLaunch)
/-- A launch of a packet, before its nodes and queues. -/
def mkLaunch (packetAsid : Nat) (packet : DWord) (b : List Byte) : Launch :=
  { asid := field b 3 1, packetAsid := packetAsid, packet := packet, rcb := field b 8 8,
    segtab := if pkKind b = 1 then BitVec.ofNat 64 (field b 24 8) else 0, done := BitVec.ofNat 64 (field b 56 8), counter := 0,
    nextHandle := 1, nodes := [], queues := [], queueKeys := [], escalated := false, cancelling := false, graph := none,
    waitingGraph := false, kind := pkKind b, cover := none, domain := 0 }
/-- Step 1 and 2 of the validation, common to both kinds: the status of the first failure, 0 for none. -/
def State.packetStatus (s : State) (b : List Byte) : Nat :=
  if bitsOf (field b 0 8) 9 7 != 0 || decide (2 < pkKind b) || (amGet s.mem.roots (field b 3 1)).isNone then 3
  else if !s.pathOk (field b 3 1) (field b 8 8) then 4
  else 0
/-- The seed's node record: one team of one group at the packet's entry, with the packet's partition word. -/
def seedRecord (b : List Byte) : List Byte := bytesOf 8 (field b 4 2 * 2 ^ 48 + 2 ^ 16) ++ bytesOf 8 (field b 16 8) ++ bytesOf 48 0
/-- Kind 1: validated in R321's order, then registered with its seed in the pool. -/
def State.intakeLaunch (s : State) (asid0 : Nat) (packet : DWord) (b : List Byte) : State :=
  let asid := field b 3 1
  let rcb := field b 8 8
  let part := BitVec.ofNat 64 (field b 16 8)
  let cov := field b 40 8
  let reject := fun (st : Nat) => s.reportLaunch asid0 packet asid (field b 56 8) st
  if s.packetStatus b != 0 then reject (s.packetStatus b)
  else if !partOk part 1 || s.budgetAlone asid rcb ((poolDemand part 1 + 16383) / 16384) then reject 5
  else
    let cover := if cov = 0 then none else s.readCover asid cov
    if cov != 0 && cover.isNone then reject 6
    else
      match s.queueList asid (field b 48 8) with
      | none => reject 7
      | some qs =>
        let x : Launch := { mkLaunch asid0 packet b with
          counter := if cover.isSome then 2 else 1, cover := cover, queues := qs.map (BitVec.ofNat 64),
          domain := s.rcbDomain asid rcb,
          nodes := [(0, mkNode s (seedRecord b) [] rcb (BitVec.ofNat 64 (field b 32 8)) 0 0 [] false)] }
        let r := s.addLaunch x
        let q := r.1.registerQueues r.2 asid qs
        ((q.1.modLaunch r.2 fun y => { y with queueKeys := q.2 }).pooled).wakeUp .nodeDispatch
/-- LAUNCH_INTAKE: the next packet in order, where it is not a graph replay. A NOP does nothing. -/
def execLaunchIntake (s : State) : Out :=
  if s.dev.tripped then .next s
  else
    match s.nextPacket with
    | none => .next s
    | some (m, asid, packet, b) =>
      if pkKind b = 2 then .next s
      else if pkKind b = 0 then .next (s.dropPacket m)
      else .next ((s.dropPacket m).intakeLaunch asid packet b)

/-! ### Graph replays (R325, R326) -/

/-- Key of a graph: its address space and descriptor. -/
def graphKey (asid desc : Nat) : Nat := asid * 2 ^ 64 + desc
def gdCount (d : List Byte) : Nat := field d 8 4
def gdMax (d : List Byte) : Nat := if field d 12 4 = 0 then 1 else field d 12 4
/-- A graph descriptor within the limits of R325. -/
def graphOk (d : List Byte) : Bool :=
  field d 0 8 % 64 == 0 && decide (1 ≤ gdCount d) && decide (gdCount d ≤ 4096) && decide (field d 12 4 ≤ 16)
    && field d 24 4 % 64 == 0 && decide (64 ≤ field d 24 4) && decide (field d 24 4 ≤ 4096) && field d 28 4 == 0 && field d 40 24 == 0
/-- The nodes of a graph, by index plus one, all waiting; none when a record fails a check of R315. -/
def State.graphNodes (s : State) (asid rcb : Nat) (d : List Byte) : Option (AMap Node) :=
  let recs := (upFrom 0 (gdCount d)).map fun i => (i + 1, s.devRead asid (field d 0 8 + 64 * i) 64)
  let nodes : List (Option (Nat × Node)) := recs.map fun x =>
    match x.2 with
    | none => none
    | some b =>
      let ent : Option (List Byte) := if ndUnit b = 1 then (if ndCode b % 64 = 0 then s.devRead asid (ndCode b) 64 else none) else some []
      match ent, s.childRcb asid rcb (ndChild b) with
      | some e, some r =>
        if recordBad b e || (ndUnit b == 0 && (!partOk (ndPart b) (ndGroups b) || s.budgetAlone asid r (ndUnits b))) || !s.pathOk asid r
        then none
        else some (x.1, { mkNode s b e r 0 (BitVec.ofNat 64 (x.1 - 1)) (ndPreds b) [] true with state := .waiting })
      | _, _ => none
  if nodes.all Option.isSome then
    let ns := nodes.filterMap id
    ns.foldl (fun (m : Option (AMap Node)) n => m.bind fun y => reserveAll n.2.succ y) (some ns)
  else none
/-- Kind 2: a valid replay waits for an instance of its graph. -/
def State.intakeGraph (s : State) (asid0 : Nat) (packet : DWord) (b : List Byte) : State :=
  let asid := field b 3 1
  let rcb := field b 8 8
  let desc := field b 16 8
  let reject := fun (st : Nat) => s.reportLaunch asid0 packet asid (field b 56 8) st
  if s.packetStatus b != 0 then reject (s.packetStatus b)
  else
    match s.queueList asid (field b 48 8) with
    | none => reject 7
    | some qs =>
      match if desc % 64 = 0 then s.devRead asid desc 64 else none with
      | none => reject 8
      | some d =>
        match if graphOk d then s.graphNodes asid rcb d else none with
        | none => reject 8
        | some ns =>
          let x : Launch := { mkLaunch asid0 packet b with
            queues := qs.map (BitVec.ofNat 64), domain := s.rcbDomain asid rcb, nodes := ns, nextHandle := gdCount d + 1,
            graph := some (graphKey asid desc, 16), waitingGraph := true }
          let r := s.addLaunch x
          let q := r.1.registerQueues r.2 asid qs
          (q.1.modLaunch r.2 fun y => { y with queueKeys := q.2 }).wakeUp (.graphInstanceStart (graphKey asid desc))
/-- GRAPH_REPLAY_INTAKE: the next packet in order, where it is a graph replay. -/
def execGraphReplayIntake (s : State) : Out :=
  if s.dev.tripped then .next s
  else
    match s.nextPacket with
    | none => .next s
    | some (m, asid, packet, b) => if pkKind b = 2 then .next ((s.dropPacket m).intakeGraph asid packet b) else .next s
/-- Whether an instance of a graph is held by a launch. -/
def State.instanceHeld (s : State) (graph i : Nat) : Bool :=
  s.head.launches.any fun x => x.2.graph == some (graph, i) && !x.2.waitingGraph
/-- Start an instance: parameters copied, nodes with no predecessor ready, the counter at the sum of the counts. -/
def State.startGraph (s : State) (l graph i : Nat) (x : Launch) (d : List Byte) : State × Bool :=
  let n := field d 24 4
  let src := field d 16 8
  let dst := field d 32 8 + 4096 * i
  let serve := fun (s : State) (a : Nat) => s.serveRange 0 a n l x.asid x.rcb (.launch l)
  let a := serve s src
  let b := if a.2 == some true then serve a.1 dst else a
  if b.2 == none then (b.1, false)
  else
    let s1 := match b.1.devRead x.asid src n with
      | some bs => b.1.devWrite x.asid dst bs
      | none => b.1.escalateLaunch l cProtect src
    let nodes := amMap (fun _ (y : Node) =>
      { y with s1 := BitVec.ofNat 64 dst, state := if y.count = 0 then NodeState.ready else .waiting, since := s.now,
               order := s.head.poolNext }) x.nodes
    let total := x.nodes.foldl (fun (k : Nat) y => k + nodeCount y.2.record) 0
    (((s1.modLaunch l fun y =>
      { y with nodes := nodes, counter := total, graph := some (graph, i), waitingGraph := false }).pooled).wakeUp .nodeDispatch, true)
/-- GRAPH_INSTANCE_START: the oldest waiting replay of a graph takes the lowest free instance. -/
def execGraphInstanceStart (graph : Nat) (s : State) : Out :=
  match s.head.launches.find? fun x => x.2.waitingGraph && (x.2.graph.map (·.1)) == some graph with
  | none => .next s
  | some (l, x) =>
    match s.devRead x.asid (graph % 2 ^ 64) 64 with
    | none => .next s
    | some d =>
      match (upFrom 0 (gdMax d)).find? fun i => !s.instanceHeld graph i with
      | none => .next s
      | some i => .next (s.startGraph l graph i x d).1

/-! ### Retirement and completion (R313, R322, R323) -/

/-- Units of a core whose owner launch has no team left there, or has ended, lose their owner (R162, R176, R210). -/
def Core.disown (l : Nat) (ended : Bool) (c : Core) : Core :=
  { c with
    codeSlots := amMap (fun _ (x : CodeSlot) => if x.owner = some l then { x with owner := none } else x) c.codeSlots
    queues := amMap (fun _ (q : CoreQueue) =>
      if q.owner = some l && (ended || q.items.isEmpty) then CoreQueue.fresh else q) c.queues
    atten := amFilter (fun _ (t : Atten) => t.owner != some l) c.atten }
/-- Whether work of a team remains after its last group (R313, R386). -/
def State.teamWork (s : State) (team : Nat) (t : Team) : Bool :=
  s.teamBusy t.core team || (s.engines t.core).rankq.any (fun o => o.team == team) || !t.colls.isEmpty
    || s.fabric.tickets.any fun k => k.2.owner == .team team
/-- TEAM_RETIRE: a release at device scope; the counter loses one. -/
def execTeamRetire (team : Nat) (s : State) : Out :=
  match s.team team with
  | none => .next s
  | some t =>
    if !t.groups.isEmpty || s.teamWork team t then .next s
    else
      let s1 := s.writeBack t.core fun _ => true
      let s2 := s1.modHead fun h => { h with teams := amDel h.teams team }
      let s3 := if s2.hasTeam t.launch t.core then s2 else s2.modCore t.core (Core.disown t.launch false)
      let s4 := s3.modLaunch t.launch fun x =>
        { x with counter := x.counter - 1, nodes := amMod (fun n => { n with retired := n.retired + 1 }) x.nodes t.node }
      .next (((s4.wakeUp (.nodeComplete t.launch t.node)).wakeUp (.launchComplete t.launch)).wakeUp .nodeDispatch)
/-- Entries of a registered queue that its groups placed and no engine has taken (log entry 17). -/
def State.queueLeft (s : State) (q : CopyQueue) : Bool :=
  let h := s.queueRead q
  (upFrom h (Nat.min (s.queueWrite q - h) (s.queueSize q))).any fun i =>
    match s.devRead q.asid (s.slotAddr q i) 64 with
    | some b => field b 62 2 == i % 65536 && (entToken b).isSome
    | none => false
/-- Whether asynchronous work of a launch is still under way (R323). -/
def State.launchWork (s : State) (l : Nat) (x : Launch) : Bool :=
  s.entries.any (fun e => e.2.launch == l && !e.2.armed)
    || (!x.cancelling && x.queueKeys.any fun k => match amGet s.queues k with
        | some q => s.queueLeft q
        | none => false)
    || s.cores.any (fun c => c.2.engines.matq.any (fun o => o.launch == l) || c.2.engines.rankq.any fun o => o.launch == l)
    || s.head.jobs.any (fun j => j.2.launch == l) || s.fabric.puts.any (fun p => p.2.launch == l)
    || s.head.teams.any fun t => t.2.launch == l
/-- Whether a launch is over. -/
def State.launchOver (s : State) (l : Nat) (x : Launch) : Bool :=
  !x.waitingGraph && (x.counter = 0 || x.cancelling) && !s.launchWork l x
/-- Take away the pins a launch has left (R182). -/
def Mem.unpinAll (m : Mem) (l : Nat) : Mem :=
  let left := m.pins.filterMap fun x => let y := amDel x.2 l; if y.isEmpty then none else some (x.1, y)
  { m with pins := left, pinPages := amFilter (fun k _ => (amGet left k).isSome) m.pinPages }
/-- Armed entries of a launch complete as CANCELLED (R231). -/
def State.cancelEntries (s : State) (l : Nat) : State :=
  (s.entries.filter fun e => e.2.launch == l && e.2.armed).foldl (fun a e => a.entryDone e.1 2) s
/-- The timelines of a launch's copy queues and coverage keep their scopes when it is over (R279). -/
def State.keepTimed (s : State) (x : Launch) : State :=
  let note := fun (scope : BitVec 2) (a : State) (p : Option Nat) => match p with
    | some pa => a.modMem fun m => { m with timed := amSet m.timed (pa / 8) scope }
    | none => a
  let s1 := x.queueKeys.foldl (fun a k => note 2 a ((amGet s.queues k).bind fun q => s.wordPA q.asid (q.desc.toNat + 24) .rd)) s
  note 1 s1 (x.cover.bind fun c => s.wordPA x.asid c.timeline.toNat .rd)
/-- The steps of R323. -/
def State.finishLaunch (s : State) (l : Nat) (x : Launch) : State :=
  let s1 := (s.keepTimed x).modMem fun m => m.unpinAll l
  let s2 := s1.cancelEntries l
  let s3 : State := { s2 with queues := x.queueKeys.foldl amDel s2.queues }
  let s4 : State := { s3 with cores := amMap (fun _ c => c.disown l true) s3.cores }
  let s5 := s4.modMem fun m => { m with revoked := m.revoked.filter fun r => r.launch != l }
  let status := if x.cancelling then 2 else if ((s5.launch l).map (·.escalated)).getD x.escalated then 9 else 1
  let s6 := s5.reportLaunch x.packetAsid x.packet x.asid x.done.toNat status
  let s7 := s6.modHead fun h => { h with launches := amDel h.launches l }
  match x.graph with
  | some (g, _) => s7.wakeUp (.graphInstanceStart g)
  | none => s7
/-- LAUNCH_COMPLETE. -/
def execLaunchComplete (launch : Nat) (s : State) : Out :=
  match s.launch launch with
  | none => .next s
  | some x => if s.launchOver launch x then .next ((s.finishLaunch launch x).wakeUp .nodeDispatch) else .next s

/-! ### The ready pool (R327, R328) -/

/-- A node's priority with what ageing has added. -/
def State.nodePrio (s : State) (x : Launch) (n : Node) : Nat := Nat.min 7 (s.rcbPrio x.asid n.rcb + n.raised)
/-- Key of an RCB's deficit, in ascending RCB address. -/
def deficitKey (asid rcb : Nat) : Nat := rcb * 256 + asid
/-- What dispatching a node costs. -/
def nodeCost (n : Node) : Nat := if ndUnit n.record = 0 then ndTeams n.record * ndGroups n.record else 1
/-- A coverage launch waits while 16 are served (R241). -/
def State.coverRoom (s : State) (x : Launch) (h : Nat) : Bool :=
  if h != 0 || x.cover.isNone then true
  else decide ((s.head.launches.filter fun y => y.2.cover.isSome && match amGet y.2.nodes 0 with
    | some n => n.state != .ready
    | none => true).length < 16)
/-- Whether a ready node can be dispatched now; for unit 0, the cluster its next team goes to. -/
def State.dispatchable (s : State) (l h : Nat) (x : Launch) (n : Node) : Option Nat :=
  if n.state != .ready || x.cancelling || x.waitingGraph then none
  else if ndUnit n.record != 0 then some 0
  else if s.imageFailed l || !s.coverRoom x h || !s.budgetRoom x.asid n.rcb (ndUnits n.record) none
      || (s.takeRegion x.asid n.rcb 56).isNone || (s.takeRegion x.asid n.rcb 64).isNone || (s.takeRegion x.asid n.rcb 72).isNone then none
  else s.pickCluster l x.asid n.rcb n.record (s.segments x.asid (nodeTable x n))
/-- A candidate of the pool: launch, handle, node, priority, deficit key, quantum, cluster. -/
structure Cand where
  l : Nat
  h : Nat
  n : Node
  prio : Nat
  key : Nat
  quantum : Nat
  cluster : Nat
deriving DecidableEq, Repr
/-- The dispatchable nodes. -/
def State.candidates (s : State) : List Cand :=
  s.head.launches.flatMap fun x => x.2.nodes.filterMap fun y =>
    (s.dispatchable x.1 y.1 x.2 y.2).map fun c =>
      { l := x.1, h := y.1, n := y.2, prio := s.nodePrio x.2 y.2, key := deficitKey x.2.asid y.2.rcb,
        quantum := s.rcbCores x.2.asid y.2.rcb, cluster := c }
/-- A node that has been charged already: some of its teams are placed. -/
def Cand.started (c : Cand) : Bool := c.n.toPlace != ndTeams c.n.record
/-- The first node of an RCB in pool order. -/
def firstOf (cs : List Cand) (key : Nat) : Option Cand :=
  leastBy (fun a b => decide (a.n.order < b.n.order) || (a.n.order == b.n.order && decide (a.h < b.h))) (cs.filter fun c => c.key == key)
/-- Rounds until an RCB can pay for its first node. -/
def roundsFor (deficit : Nat) (c : Cand) : Nat :=
  let cost := if c.started then 0 else nodeCost c.n
  if cost ≤ deficit then 0 else (cost - deficit + c.quantum - 1) / (if c.quantum = 0 then 1 else c.quantum)
/-- The node that deficit round robin serves next among one level's candidates, with the deficits before it is charged. -/
def State.drr (s : State) (cs : List Cand) : Option (Cand × Store Nat) :=
  let keys := (cs.foldl (fun (m : NSet) c => nsAdd m c.key) []).map (·.1)
  let heads := keys.filterMap (firstOf cs)
  match heads.map fun c => roundsFor (stGet 0 s.head.deficits c.key) c with
  | [] => none
  | r :: rs =>
    let rounds := rs.foldl Nat.min r
    let def1 := heads.foldl (fun m c => stSet 0 m c.key (stGet 0 m c.key + rounds * c.quantum)) s.head.deficits
    (heads.find? fun c => roundsFor (stGet 0 def1 c.key) c = 0).map fun c => (c, def1)
/-- Teams saved whole that their core can hold again: their priority with ageing, and the team. -/
def State.returning (s : State) : List (Nat × Nat × Team) :=
  s.head.teams.filterMap fun t =>
    match t.2.out with
    | none => none
    | some since =>
      if s.teamSaved t.2 && !t.2.groups.isEmpty && s.coreHolds t.2 then
        some (Nat.min 7 (s.rcbPrio t.2.asid t.2.rcb + (s.now - since) / (10 * Config.msCycles)), t)
      else none
/-- The highest priority of a ready unit 0 node that waits for room, for which saved teams hold back. -/
def State.waitingPrio (s : State) : Nat :=
  s.head.launches.foldl (fun m x => x.2.nodes.foldl (fun k y =>
    if y.2.state == .ready && !x.2.cancelling && !x.2.waitingGraph && ndUnit y.2.record = 0 then Nat.max k (s.nodePrio x.2 y.2 + 1) else k) m) 0
/-- Read a media job's descriptor and start the job (R342); none to wait for a page. -/
def State.startJob (s : State) (l h : Nat) (x : Launch) (n : Node) : Option State :=
  let d := ndCode n.record
  let r := s.serveRange 0 d 64 l x.asid n.rcb (.launch l)
  if r.2 == none then none
  else
    let run := r.1.modNode l h fun y => { y with state := .running, toPlace := 0 }
    match if d % 64 = 0 then r.1.devRead x.asid d 64 else none with
    | none => some ((run.noteLaunchFault l (if d % 64 = 0 then cProtect else cAlign) d).wakeUp (.nodeComplete l h))
    | some b =>
      let j : MediaJob := { launch := l, node := h, desc := BitVec.ofNat 64 d, bytes := b, frames := 0 }
      some (run.modHead fun m => { m with jobs := amSet m.jobs m.nextJob j, nextJob := m.nextJob + 1 })
/-- The first enabled cluster: the Masthead's choice of copy engine for unit 1 nodes (log entry 18). -/
def State.firstCluster (s : State) : Nat := ((upFrom 0 48).find? fun k => s.dev.topology.clusters.getLsbD k).getD 0
/-- Dispatch the candidate: a team is sent to its cluster, a copy entry to an engine, a job to a media engine. -/
def State.dispatchCand (s : State) (c : Cand) (def1 : Store Nat) : State :=
  let charge := fun (s : State) =>
    let cost := if c.started then 0 else nodeCost c.n
    s.modHead fun h => { h with deficits := stSet 0 def1 c.key (stGet 0 def1 c.key - cost) }
  match s.launch c.l with
  | none => s
  | some x =>
    if ndUnit c.n.record = 0 then
      match execTeamPlacement c.cluster c.l c.h s with
      | .next s1 =>
        let placed := match s1.node c.l c.h with
          | some n => n.toPlace != c.n.toPlace
          | none => false
        if placed then (charge s1).wakeUp .nodeDispatch else s1
      | _ => s
    else if ndUnit c.n.record = 1 then
      let s1 := (charge s).modNode c.l c.h fun y => { y with state := .running, toPlace := 0 }
      let r := s1.addEntry (newEntry none 0 c.n.entry x.asid c.l c.h (2 * s.firstCluster) none)
      (r.1.startEntry r.2).wakeUp .nodeDispatch
    else
      match s.startJob c.l c.h x c.n with
      | some s1 => (charge s1).wakeUp .nodeDispatch
      | none => s
/-- Restore the groups of a saved team. -/
def State.wakeRestore (s : State) (t : Team) : State := t.groups.foldl (fun a x => a.wakeUp (.groupRestore t.core x.2)) s
/-- NODE_DISPATCH: the highest priority level that has a dispatchable node or a saved team that can return; within it saved teams
first, then deficit round robin over RCBs. -/
def execNodeDispatch (s : State) : Out :=
  if s.dev.tripped then .next s
  else
    let cs := s.candidates
    let top := cs.foldl (fun m c => Nat.max m (c.prio + 1)) 0
    let back := (s.returning.filter fun t => decide (top ≤ t.1 + 1) && decide (s.waitingPrio ≤ t.1 + 1))
    match leastBy (fun a b => decide (b.1 < a.1)) back with
    | some t => .next (s.wakeRestore t.2.2)
    | none =>
      match s.drr (cs.filter fun c => c.prio + 1 == top) with
      | none => .next s
      | some (c, def1) => .next (s.dispatchCand c def1)
/-- PRIORITY_AGEING: a node rises one level for each 10 ms it has waited in the pool. -/
def execPriorityAgeing (launch handle : Nat) (s : State) : Out :=
  match s.node launch handle with
  | none => .next s
  | some n =>
    if n.state == .ready && decide (n.raised < 7) && decide (10 * Config.msCycles * (n.raised + 1) ≤ s.now - n.since) then
      .next ((s.modNode launch handle fun y => { y with raised := y.raised + 1 }).wakeUp .nodeDispatch)
    else .next s

/-! ### Pre-emption (R328) -/

/-- Teams of a core that work of a priority may displace: lowest priority first, then youngest. -/
def State.victims (s : State) (core prio : Nat) : List (Nat × Nat × Team) :=
  let ts := (s.teamsOn core).filterMap fun t =>
    let p := s.rcbPrio t.2.asid t.2.rcb
    if t.2.out.isNone && t.2.saveSlot.isSome && !t.2.groups.isEmpty && decide (p < prio) then some (p, t) else none
  ts.foldl (fun acc t =>
    let before := fun (x : Nat × Nat × Team) => decide (x.1 < t.1) || (x.1 == t.1 && decide (t.2.2.started ≤ x.2.2.started))
    (acc.filter before) ++ [t] ++ acc.filter fun x => !before x) []
/-- Pool bytes that saving a team frees. -/
def Team.frees (t : Team) : Nat :=
  t.count * (128 * partSlots t.part + if partDiverge t.part then 8192 else 0)
    + if t.poolSlot.isSome then 16384 * (partScr t.part + partAcc t.part) else 0
/-- The shortest run of victims that frees enough. -/
def enough : Nat → List (Nat × Nat × Team) → Option (List (Nat × Nat × Team))
  | 0, _ => some []
  | _, [] => none
  | n, t :: ts => (enough (n - t.2.2.frees) ts).map (t :: ·)
/-- The teams of a core to save so that a node becomes eligible there. -/
def State.sacrifice (s : State) (l : Nat) (x : Launch) (n : Node) (segs : List (Nat × Nat)) (prio core : Nat) :
    Option (List (Nat × Nat × Team)) :=
  let need := poolDemand (ndPart n.record) (ndGroups n.record) - s.freePool core
  match enough need (s.victims core prio) with
  | none => none
  | some vs => if !vs.isEmpty && s.coreTakes l x.asid n.rcb (ndGroups n.record) 0 segs core then some vs else none
/-- PREEMPTION: a node that no cluster can place displaces teams of strictly lower priority: the lowest priorities, then the youngest
teams, then the lowest core. -/
def execPreemption (launch handle : Nat) (s : State) : Out :=
  match s.launch launch, s.node launch handle with
  | some x, some n =>
    let prio := s.nodePrio x n
    let segs := s.segments x.asid (nodeTable x n)
    let blocked := n.state == .ready && !x.cancelling && !x.waitingGraph && ndUnit n.record == 0 && !s.imageFailed launch
      && (s.pickCluster launch x.asid n.rcb n.record segs).isNone && s.coverRoom x handle
      && s.budgetRoom x.asid n.rcb (ndUnits n.record) none
      && !(s.head.teams.any fun t => t.2.out.isSome && !s.teamSaved t.2)
    if !blocked || s.dev.tripped then .next s
    else
      let all := (upFrom 0 384).filterMap fun c => (s.sacrifice launch x n segs prio c).map fun vs => (c, vs)
      let worst := fun (vs : List (Nat × Nat × Team)) => vs.foldl (fun m t => Nat.max m t.1) 0
      let oldest := fun (vs : List (Nat × Nat × Team)) => vs.foldl (fun m t => Nat.min m t.2.2.started) s.now
      match leastBy (fun a b => decide (worst a.2 < worst b.2) || (worst a.2 == worst b.2 && (decide (oldest b.2 < oldest a.2)
          || (oldest a.2 == oldest b.2 && decide (a.1 < b.1))))) all with
      | none => .next s
      | some (core, vs) =>
        .next (vs.foldl (fun (a : State) t =>
          let b := a.modTeam t.2.1 fun y => { y with out := some s.now }
          t.2.2.groups.foldl (fun c y => c.wakeUp (.groupSave core y.2)) b) s)
  | _, _ => .next s

end Sys2Proof.Machine
end

