-- ==== Sys2Proof/Machine/PackageMem.lean ====
section
/-! DEFINITION. Package memory: walks (R300, R304), shootdown and revocation (R305), migration (R306), and the host's commands for
them on the privileged channel (R333). -/
namespace Sys2Proof.Machine

/-! ### The privileged channel (R333, R334) -/

/-- Answer a request: 0 done, 1 refused, 2 unknown command. -/
def State.answer (s : State) (tag : Byte) (status : Nat) (data : List Byte := []) : State :=
  { s with answers := s.answers ++ [{ tag := tag, status := status, data := data }] }
/-- A host command other than LOADFW: refused before boot's step 5 and after a watchdog trip. -/
def hostCommand (tag : Byte) (m : State → State) (s : State) : Out :=
  if s.dev.phase == .running && !s.dev.tripped then .next (m s) else .next (s.answer tag 1)
/-- ASREG: the root table's address of an address space. -/
def execAsreg (tag asid : Byte) (root : Nat) (s : State) : Out :=
  hostCommand tag (fun s =>
    if root % 4096 != 0 || decide (s.paEnd ≤ root) then s.answer tag 1
    else (s.modMem fun m => { m with roots := amSet m.roots asid.toNat root }).answer tag 0) s

/-! ### Walks (R173, R304) -/

/-- Whether a TLB entry maps any address of a range. -/
def TlbEntry.inRange (asid va len : Nat) (e : TlbEntry) : Bool :=
  e.asid == asid && decide (e.va < va + len) && decide (va < e.va + 2 ^ e.leaf.bits)
def WalkEntry.inRange (asid va len : Nat) (e : WalkEntry) : Bool :=
  e.asid == asid && decide (e.va < va + len) && decide (va < e.va + 2 ^ e.bits)
/-- Add an entry; the oldest goes when the TLB is full. -/
def tlbAdd (cap : Nat) (t : List TlbEntry) (e : TlbEntry) : List TlbEntry :=
  let u := t.filter fun x => !(x.asid == e.asid && x.va == e.va)
  (if cap ≤ u.length then u.drop 1 else u) ++ [e]
/-- The set of the L2 TLB an entry falls in: its page number. -/
def tlbSet (e : TlbEntry) : Nat := e.va / 65536 % 512
/-- Add to an L2 TLB of 512 sets of 8 ways. -/
def tlbAddSet (t : List TlbEntry) (e : TlbEntry) : List TlbEntry :=
  let here := t.filter fun x => tlbSet x == tlbSet e && !(x.asid == e.asid && x.va == e.va)
  let rest := t.filter fun x => tlbSet x != tlbSet e
  rest ++ (if 8 ≤ here.length then here.drop 1 else here) ++ [e]
/-- Keep the table entries of a walk; the oldest go when the die's 256 are taken. -/
def keepWalk (es : List WalkEntry) (asid va : Nat) (path : List (Nat × Nat × Nat)) : List WalkEntry :=
  let fresh := path.map fun p => { asid := asid, va := va / 2 ^ p.1 * 2 ^ p.1, bits := p.1, place := p.2.1, value := p.2.2 : WalkEntry }
  let all := es.filter (fun e => !fresh.any fun f => f.asid == e.asid && f.place == e.place) ++ fresh
  all.drop (all.length - 256)
/-- A leaf enters the core's L1 TLB. -/
def State.tlbFill (s : State) (core asid va : Nat) (l : Leaf) : State :=
  s.modCore core fun c => { c with tlb := tlbAdd 128 c.tlb { asid := asid, va := va / 2 ^ l.bits * 2 ^ l.bits, leaf := l } }
/-- PAGE_WALK: a miss of the core's L1 TLB is served by its cluster's L2 TLB, else by a walk, which fills both and the walk cache. -/
def execPageWalk (core asid va : Nat) (s : State) : Out :=
  let k := clusterOf core
  let die := dieOf core
  if (s.shooting asid va).isSome then .next s
  else
    match tlbFind ((amGet s.mem.tlbs k).getD []) asid va with
    | some l => .next (s.tlbFill core asid va l)
    | none =>
      match s.walkAt die asid va with
      | .leaf l false =>
        let e : TlbEntry := { asid := asid, va := va / 2 ^ l.bits * 2 ^ l.bits, leaf := l }
        let path := walkPath (s.walkerView die asid va) va walkLevels ((amGet s.mem.roots asid).getD 0)
        .next ((s.tlbFill core asid va l).modMem fun m =>
          { m with tlbs := amSet m.tlbs k (tlbAddSet ((amGet m.tlbs k).getD []) e),
                   walkCache := amSet m.walkCache die (keepWalk ((amGet m.walkCache die).getD []) asid va path) })
      | _ => .next s

/-! ### Steps that shootdown and migration share (R305) -/

/-- Steps 2 and 3: TLBs and walk caches drop the range; every access translated before is performed at its home. -/
def State.quiesce (s : State) (asid va len : Nat) : State :=
  let keep := fun (t : List TlbEntry) => t.filter fun e => !e.inRange asid va len
  let s1 : State := { s with cores := amMap (fun _ c => { c with tlb := keep c.tlb }) s.cores }
  let s2 := s1.modMem fun m => { m with tlbs := amMap (fun _ t => keep t) m.tlbs,
                                        walkCache := amMap (fun _ es => es.filter fun e => !e.inRange asid va len) m.walkCache }
  let s3 := s2.cores.foldl (fun a c => (a.quantForward c.1 fun _ => true).writeBack c.1 fun _ => true) s2
  s3.modMem fun m => m.cu.foldl (fun a l => a.recall l.1) m
/-- The pinned lines that were reached through a page of the range. -/
def Mem.pinsIn (m : Mem) (asid va len : Nat) : List Nat :=
  m.pinPages.filterMap fun x =>
    if x.2.any fun p => p.1 == asid && decide (va < p.2 * 65536 + 65536) && decide (p.2 * 65536 < va + len) then some x.1 else none
/-- Wake every party of the address space that waits on a page. -/
def State.wakePages (s : State) (asid : Nat) : State :=
  (s.mem.faults.filter fun r => r.asid == asid).foldl (fun a r => r.waiters.foldl State.wakeWaiter a) s

/-! ### Shootdown (R305) -/

/-- SHOOT: walks of the range stop, TLBs drop it, and the accesses that had translated are performed. -/
def execShoot (tag asid : Byte) (va len : Nat) (remap : Bool) (s : State) : Out :=
  hostCommand tag (fun s =>
    if va % 65536 != 0 || len % 65536 != 0 || len = 0 || decide (2 ^ 57 < va + len) then s.answer tag 1
    else
      let k := amFresh s.mem.shoots 0
      let x : Shoot := { tag := tag, asid := asid.toNat, va := va, len := len, remap := remap, since := s.now, move := none }
      ((s.quiesce asid.toNat va len).modMem fun m => { m with shoots := amSet m.shoots k x }).wakeUp (.shootdownComplete k)) s
/-- Revoke the pins of a line: each launch that held them gets a revocation record. -/
def Mem.revoke (m : Mem) (x : Shoot) (line : Nat) : Mem :=
  let who := ((amGet m.pins line).getD []).map (·.1)
  let fresh : List Revoked := who.map fun l => { launch := l, asid := x.asid, va := x.va, len := x.len, remap := x.remap }
  { m with pins := amDel m.pins line, pinPages := amDel m.pinPages line,
           revoked := m.revoked ++ fresh.filter fun r => !m.revoked.contains r }
/-- PIN_REVOCATION: pins that remain 100 µs into a shootdown are revoked. -/
def execPinRevocation (shoot : Nat) (s : State) : Out :=
  match amGet s.mem.shoots shoot with
  | none => .next s
  | some x =>
    if x.move.isSome || decide (s.now - x.since < 100 * Config.usCycles) then .next s
    else .next ((s.modMem fun m => (m.pinsIn x.asid x.va x.len).foldl (fun a l => a.revoke x l) m).wakeUp (.shootdownComplete shoot))
/-- SHOOTDOWN_COMPLETE: with no pin left in the range, the host is answered. -/
def execShootdownComplete (shoot : Nat) (s : State) : Out :=
  match amGet s.mem.shoots shoot with
  | none => .next s
  | some x =>
    if x.move.isSome || !(s.mem.pinsIn x.asid x.va x.len).isEmpty then .next s
    else .next (((s.modMem fun m => { m with shoots := amDel m.shoots shoot }).answer x.tag 0).wakePages x.asid)

/-! ### Migration (R306) -/

/-- The address and the bits of the leaf entry that maps an address. -/
def leafEntry (m : Mem) (va : Nat) : List (Nat × Nat × Nat × Nat) → Nat → Option (Nat × Nat)
  | [], _ => none
  | (shift, nbits, _, _) :: rest, table =>
    let at_ := table + (va / 2 ^ shift % 2 ^ nbits) * (if rest.isEmpty then 16 else 8)
    let w := m.num at_ 8
    if bitsOf w 0 1 = 0 then none
    else if bitsOf w 1 1 = 1 then some (at_, shift)
    else leafEntry m va rest (bitsOf w 9 43 * 512)
def State.leafAt (s : State) (asid va : Nat) : Option (Nat × Nat) := (amGet s.mem.roots asid).bind fun r => leafEntry s.mem va walkLevels r
/-- The key a range of `unit`-byte things takes when its bytes move. -/
def movedKey (old new size unit k : Nat) : Nat :=
  if old ≤ k * unit ∧ k * unit < old + size then new / unit + (k - old / unit) else k
/-- Move the entries of a map whose keys count units of a range; what stood at the new place goes. -/
def moveMap {α : Type} (old new size unit : Nat) (m : AMap α) : AMap α :=
  let out := fun (base : Nat) (k : Nat) => !(decide (base ≤ k * unit) && decide (k * unit < base + size))
  (m.filter fun x => !out old x.1).foldl (fun a x => amSet a (movedKey old new size unit x.1) x.2)
    (m.filter fun x => out old x.1 && out new x.1)
/-- Copy bytes from a frame to another. -/
def copyFrame (old new size : Nat) (m : List Host.Cell) : List Host.Cell :=
  let here := m.filter fun c => decide (old ≤ c.1) && decide (c.1 < old + size)
  let rest := m.filter fun c => !(decide (new ≤ c.1) && decide (c.1 < new + size))
  here.foldl (fun a c => stSet 0 a (new + (c.1 - old)) c.2) rest
/-- Where an address of a frame lies once it has moved. -/
def movedAddr (old new size pa : Nat) : Nat := if old ≤ pa ∧ pa < old + size then new + (pa - old) else pa
/-- A frame moves with its tags, poison bits, scope records, pins and owner. -/
def Mem.moveFrame (m : Mem) (old new size : Nat) : Mem :=
  { m with hbm := copyFrame old new size m.hbm, sync := moveMap old new size 8 m.sync, poison := moveMap old new size 128 m.poison,
           scopes := moveMap old new size 128 m.scopes, pins := moveMap old new size 128 m.pins,
           pinPages := moveMap old new size 128 m.pinPages, timed := moveMap old new size 8 m.timed, l2 := moveMap old new size 128 m.l2,
           owners := moveMap old new size 65536 m.owners,
           pinFrames := amMap (fun _ x => (movedAddr old new size x.1, x.2.map fun f => (movedAddr old new size f.1, f.2))) m.pinFrames }
/-- A place in a frame that moves. -/
def Place.moved (old new size : Nat) : Place → Place
  | .mem pa => .mem (movedAddr old new size pa)
  | p => p
def SplitStatus.moved (old new size : Nat) : SplitStatus → SplitStatus
  | .bwait w ph => .bwait { w with place := w.place.moved old new size } ph
  | .waittl w n => .waittl { w with place := w.place.moved old new size } n
  | x => x
/-- Move a frame, with the waits registered on its words; no L1 keeps a copy of either place. -/
def State.moveFrame (s : State) (old new size : Nat) : State :=
  let gone := fun (line : Nat) => (decide (old ≤ line * 128) && decide (line * 128 < old + size))
    || (decide (new ≤ line * 128) && decide (line * 128 < new + size))
  let s1 := s.modMem fun m => m.moveFrame old new size
  let s2 : State := { s1 with
    groups := amMap (fun _ (g : Group) =>
      { g with splits := amMap (fun _ (x : Split) => { x with status := x.status.moved old new size }) g.splits }) s1.groups
    cores := amMap (fun _ (c : Core) => { c with l1 := { c.l1 with clean := (byLine gone c.l1.clean).2 } }) s1.cores }
  s2.modFab fun f => { f with waits := f.waits.map fun w => { w with place := w.place.moved old new size } }
/-- Whether every slice keeps at most 16,384 pinned lines when a frame moves. -/
def State.pinsFit (s : State) (old new size : Nat) : Bool :=
  let t : State := { s with mem := { s.mem with pins := moveMap old new size 128 s.mem.pins } }
  t.slicePins.all fun x => decide (x.2 ≤ 16384)
/-- The same for a page's two frames, data and scale. -/
def State.pageFits (s : State) (l : Leaf) (frame size scale : Nat) : Bool :=
  match l.format with
  | none => s.pinsFit l.frame frame size
  | some (sf, _, _) =>
    s.pinsFit l.frame frame size
      && { s with mem := { s.mem with pins := moveMap l.frame frame size 128 s.mem.pins } : State }.pinsFit sf scale 4096
/-- Set or clear MIG in a leaf entry. -/
def Mem.setMig (m : Mem) (at_ : Nat) (on : Bool) : Mem :=
  let w := m.num at_ 8
  let w1 := if bitsOf w 6 1 = 1 then w - 64 else w
  m.homeWrite at_ (bytesOf 8 (if on then w1 + 64 else w1))
/-- MIGRATE: checked, then MIG is set and the range is quiesced; accesses to the page wait. -/
def execMigrate (tag asid : Byte) (va size frame scale : Nat) (s : State) : Out :=
  hostCommand tag (fun s =>
    let no := s.answer tag 1
    if (size != 65536 && size != 2 ^ 21) || va % size != 0 || frame % size != 0 || decide (s.paEnd < frame + size)
        || (s.shooting asid.toNat va).isSome then no
    else
      match s.leafAt asid.toNat va, s.walk asid.toNat va with
      | some (at_, shift), .leaf l false =>
        let scaleBad := l.format.isSome && (scale % 4096 != 0 || decide (s.paEnd < scale + 4096))
        let clash := decide (frame < l.frame + size) && decide (l.frame < frame + size)
        if 2 ^ shift != size || scaleBad || clash || !s.pageFits l frame size scale then no
        else
          let k := amFresh s.mem.shoots 0
          let x : Shoot := { tag := tag, asid := asid.toNat, va := va, len := size, remap := true, since := s.now,
                             move := some (size, frame, scale) }
          let s1 := (s.modMem fun m => m.setMig at_ true).quiesce asid.toNat va size
          (s1.modMem fun m => { m with shoots := amSet m.shoots k x }).wakeUp (.migrationComplete k)
      | _, _ => no) s
/-- MIGRATION_COMPLETE: the frames are copied, the new entry is written, the stalled accesses translate afresh. -/
def execMigrationComplete (migration : Nat) (s : State) : Out :=
  match amGet s.mem.shoots migration with
  | none => .next s
  | some x =>
    match x.move, s.leafAt x.asid x.va, s.walk x.asid x.va with
    | some (size, frame, scale), some (at_, _), .leaf l _ =>
      let s0 := s.cores.foldl (fun a c => a.writeBack c.1 fun _ => true) s
      let s1 := s0.moveFrame l.frame frame size
      let w := s1.mem.num at_ 8
      let w1 := w - bitsOf w 9 43 * 512 + frame
      let s2 := s1.modMem fun m => (m.homeWrite at_ (bytesOf 8 w1)).setMig at_ false
      let s3 := match l.format with
        | none => s2
        | some (sf, _, _) =>
          let t := s2.moveFrame sf scale 4096
          let e := t.mem.num (at_ + 8) 8
          t.modMem fun m => m.homeWrite (at_ + 8) (bytesOf 8 (e - bitsOf e 12 40 * 4096 + scale))
      .next (((s3.modMem fun m => { m with shoots := amDel m.shoots migration }).answer x.tag 0).wakePages x.asid)
    | some _, _, _ => .next ((s.modMem fun m => { m with shoots := amDel m.shoots migration }).answer x.tag 1)
    | none, _, _ => .next s

/-! ### Answers to page requests (R304) -/

/-- Whether a waiter is still there. -/
def State.waiterLives (s : State) : Waiter → Bool
  | .group core slot => match s.group (gkey core slot) with
    | some g => g.ctl.fault.isSome
    | none => false
  | .copy e => (amGet s.entries e).isSome
  | .cover l => (s.launch l).isSome
  | .launch l => (s.launch l).isSome
  | .code core slot => (s.codeSlot core slot).state == .loading
  | .engine core rank => if rank then !(s.core core).engines.rankq.isEmpty else !(s.core core).engines.matq.isEmpty
  | .job n => (amGet s.head.jobs n).isSome
  | .packet n => (amGet s.fabric.held n).isSome
  | .coll t => (s.team t).isSome
/-- PAGEANS: a mapping was made, and the record replays its waiters in order; or there is none, and each escalates. -/
def execPageans (tag asid : Byte) (va : Nat) (mapped : Bool) (s : State) : Out :=
  hostCommand tag (fun s =>
    let page := va / 65536
    let of := fun (r : FaultRec) => r.asid == asid.toNat && r.page == page
    let rs := s.mem.faults.filter of ++ if mapped then s.mem.overflow.filter of else []
    if mapped then
      let s1 := (s.newMapping asid.toNat va).dropFaults of
      (rs.foldl (fun a r => r.waiters.foldl (fun b w => b.releaseWaiter asid.toNat page w) a) s1).answer tag 0
    else
      let s1 := s.modMem fun m => { m with faults := (m.faults.map fun r =>
        if of r then { r with denied := true, waiters := r.waiters.filter s.waiterLives } else r).filter fun r => !r.waiters.isEmpty }
      (rs.foldl (fun a r => r.waiters.foldl State.wakeWaiter a) s1).answer tag 0) s

end Sys2Proof.Machine
end

