-- ==== Sys2Proof/Machine/Device.lean ====
section
/-! DEFINITION. Boot and firmware (R330 to R334), the privileged channel's device commands (R263, R318, R324, R333 to R343), host events
(R336 to R338), errors (R339, R340), power and lasers (R343), media jobs (R342). -/
namespace Sys2Proof.Machine

/-! ### Boot, LOADFW, ATTEST (R332, R334) -/

/-- BOOT: at power-up the boot ROM trains the host port and awaits LOADFW. -/
def execBoot (s : State) : Out :=
  if s.dev.phase == .off then .next (s.modDev fun d => { d with phase := .awaitFirmware, topology := State.fullTopology }) else .next s
/-- Wavelengths of the fibres that are not full (R341). -/
def litWaves (lit : List (Nat × Nat)) : AMap (Nat × Nat) :=
  ((upFrom 0 128).zip lit).filterMap fun x => if x.2 = (if x.1 < 96 then (64, 64) else (28, 28)) then none else some x
/-- The device after a verified image has started: every unit but the HBM contents and the memory metadata is reset; a launch that was
running is LOST. -/
def State.started (s : State) (measurement : BitVec 384) (t : Topology) : State :=
  let z := State.reset
  let lost := s.head.launches.map fun x => evt 9 (s.rcbDomain x.2.asid x.2.rcb) 0 x.2.packet.toNat 0 0
  let ev : EventRing := { z.dev.events with backlog := s.dev.events.backlog ++ lost }
  { z with
    sched := { z.sched with free := s.sched.free, rotor := s.sched.rotor, agenda := s.sched.agenda }
    now := s.now
    mem := { z.mem with hbm := s.mem.hbm, sync := s.mem.sync, poison := s.mem.poison, nextFrame := s.mem.nextFrame }
    dev := { z.dev with phase := .running, measurement := some measurement, topology := t, heartbeat := s.now, events := ev }
    fabric := { z.fabric with waves := litWaves t.lit, podTime := s.fabric.podTime, podAt := s.fabric.podAt, outbox := s.fabric.outbox }
    answers := s.answers }
/-- LOADFW: an image that fails its verification is refused and the device waits for another. -/
def execLoadfw (tag : Byte) (verified : Bool) (measurement : BitVec 384) (t : Topology) (s : State) : Out :=
  if s.dev.phase == .off then .next s
  else if !verified then .next (s.answer tag 1)
  else .next ((s.started measurement t).answer tag 0)
/-- ATTEST: the measurement of the running image, signed. -/
def execAttest (tag : Byte) (s : State) : Out :=
  hostCommand tag (fun s =>
    match s.dev.measurement with
    | none => s.answer tag 1
    | some m => s.answer tag 0 (bytesOf 48 m.toNat ++ Config.attestSignature m)) s

/-! ### The watchdog (R331, R332) -/

/-- The trip: the fabric goes quiet, cores stop issue, a WATCHDOG event is written. -/
def State.trip (s : State) : State :=
  if s.dev.tripped then s else (s.modDev fun d => { d with tripped := true, fabricQuiet := true }).event (evt 8 0 0 0 0 0)
/-- HEARTBEAT: the Masthead writes its register, unless a Pennant controller has failed. -/
def execHeartbeat (s : State) : Out :=
  if s.dev.phase == .running && !s.dev.tripped && s.dev.links.isEmpty then .next (s.modDev fun d => { d with heartbeat := s.now })
  else .next s
/-- WATCHDOG: 50 ms without a heartbeat. -/
def execWatchdog (s : State) : Out :=
  if s.dev.phase == .running && decide (50 * Config.msCycles ≤ s.now - s.dev.heartbeat) then .next s.trip else .next s
/-- COMMAND_LINK_TIMEOUT: a message unanswered for 2 ms is a failure of the firmware. -/
def execCommandLinkTimeout (cluster : Nat) (s : State) : Out :=
  if s.dev.phase == .running then .next (s.modDev fun d => { d with links := amSet d.links cluster s.now }) else .next s

/-! ### Keys, slot tables, rings, cancellation -/

/-- KEYLOAD: one of the job's 16 MAC keys (R106). -/
def execKeyload (tag : Byte) (index : BitVec 4) (key : BitVec 128) (s : State) : Out :=
  hostCommand tag (fun s => (s.modDev fun d => { d with keys := amSet d.keys index.toNat key }).answer tag 0) s
/-- A slot table that R263 admits: 64 entries, 15 in entry 0 and nowhere else, no reserved code. -/
def slotTableOk (es : List (BitVec 4)) : Bool :=
  es.length == 64 && es.head? == some 15 && (es.drop 1).all fun e => decide (e.toNat ≤ 8)
/-- SLOTTBL: the kinds are 0 mesh links, 1 vertical links, 2 bridges, 3 HBM channels, 4 fabric egresses. -/
def execSlottbl (tag : Byte) (kind : Nat) (entries : List (BitVec 4)) (strict : Byte) (s : State) : Out :=
  hostCommand tag (fun s =>
    if decide (4 < kind) || !slotTableOk entries then s.answer tag 1
    else (s.modDev fun d => { d with slotTables := amSet d.slotTables kind (entries, strict) }).answer tag 0) s
/-- A ring descriptor that R318 admits. -/
def ringOk (b : List Byte) : Bool :=
  let c := field b 8 8
  field b 0 8 % 64 == 0 && decide (4 ≤ bitsOf c 0 4) && decide (bitsOf c 4 8 < 16) && bitsOf c 18 46 == 0
    && field b 40 24 == 0 && field b 72 56 == 0
/-- RINGREG: a ring joins its merge unit under its index. -/
def execRingreg (tag asid : Byte) (desc : Nat) (s : State) : Out :=
  hostCommand tag (fun s =>
    match if desc % 128 = 0 then s.devRead asid.toNat desc 128 else none with
    | none => s.answer tag 1
    | some b =>
      let m := bitsOf (field b 8 8) 4 8
      let i := bitsOf (field b 8 8) 12 6
      if !ringOk b || s.head.rings.any fun r => r.2.merger == m && r.2.index == i then s.answer tag 1
      else
        let r : Ring := { asid := asid.toNat, desc := BitVec.ofNat 64 desc, merger := m, index := i, headSince := none,
                          stalled := false, held := false }
        ((s.modHead fun h => { h with rings := amSet h.rings (m * 64 + i) r }).wakeUp (.mergeUnitTake m)).answer tag 0) s
/-- CANCEL: the oldest launch of the packet that is not being cancelled. -/
def execCancel (tag : Byte) (packet : Nat) (s : State) : Out :=
  hostCommand tag (fun s =>
    match s.head.launches.find? fun x => x.2.packet == BitVec.ofNat 64 packet && !x.2.cancelling with
    | none => s.answer tag 1
    | some x => (s.cancelLaunch x.1).answer tag 0) s

/-! ### Host events (R336 to R338) -/

/-- An entry as it stands in host memory. -/
def EventEntry.bytes (e : EventEntry) : List Byte :=
  bytesOf 2 e.kind ++ bytesOf 1 e.domain ++ [e.cause] ++ bytesOf 4 0 ++ bytesOf 8 e.subject.toNat ++ bytesOf 8 e.detail1.toNat
    ++ bytesOf 8 e.detail2.toNat
def State.modEvents (s : State) (f : EventRing → EventRing) : State := s.modDev fun d => { d with events := f d.events }
/-- Write backlog entries while room is open. -/
def State.drainEvents (s : State) : State := s.modEvents fun r => r.drain r.backlog.length
/-- EVRING: base and LOG2N; indices begin at 0. -/
def execEvring (tag : Byte) (base log2n : Nat) (s : State) : Out :=
  hostCommand tag (fun s =>
    if base % 64 != 0 || decide (log2n < 4) || decide (16 < log2n) then s.answer tag 1
    else
      let s1 := s.modEvents fun r =>
        { r with base := some (base, log2n), write := 0, ack := 0, ovf := false, count := 0, written := [] }
      s1.drainEvents.answer tag 0) s
/-- QUEUE and RING events that were held because an earlier one was unacknowledged: written now if the sticky word is still nonzero. -/
def State.heldEvents (s : State) : State :=
  let s1 := s.queues.foldl (fun a q =>
    if q.2.held && !a.unacked 1 q.2.desc.toNat then
      let b : State := { a with queues := amMod (fun y => { y with held := false }) a.queues q.1 }
      if (b.devNum q.2.asid (q.2.desc.toNat + 32) 8).getD 0 != 0 then b.event (evt 1 (b.queueDomain q.2) 0 q.2.desc.toNat 0 0) else b
    else a) s
  s1.head.rings.foldl (fun a r =>
    if r.2.held && !a.unacked 2 r.2.desc.toNat then
      let b := a.modRing r.1 fun y => { y with held := false }
      if (b.devNum r.2.asid (r.2.desc.toNat + 32) 8).getD 0 % 2 = 1 then b.event (evt 2 0 0 r.2.desc.toNat 0 0) else b
    else a) s1
/-- EVACK: the consumed index; with clear, OVF and its count become 0. -/
def execEvack (tag : Byte) (index : Nat) (clear : Bool) (s : State) : Out :=
  hostCommand tag (fun s =>
    if decide (index < s.dev.events.ack) || decide (s.dev.events.write < index) then s.answer tag 1
    else
      let s1 := s.modEvents fun r =>
        { r with ack := index, ovf := r.ovf && !clear, count := if clear then 0 else r.count }
      s1.drainEvents.heldEvents.answer tag 0) s
/-- FREAD: the fault records, then the backlog; `ack` records are acknowledged first. -/
def execFread (tag : Byte) (ack : Nat) (s : State) : Out :=
  hostCommand tag (fun s =>
    let s1 := s.modEvents fun r => { r with records := r.records.drop ack }
    s1.answer tag 0 ((s1.dev.events.records ++ s1.dev.events.backlog).flatMap EventEntry.bytes)) s

/-! ### Power, topology, error counters (R340, R341, R343) -/

/-- POWERCAP: 1,000 W to 3,200 W. -/
def execPowercap (tag : Byte) (watts : Nat) (s : State) : Out :=
  hostCommand tag (fun s =>
    if decide (watts < 1000) || decide (3200 < watts) then s.answer tag 1
    else (s.modDev fun d => { d with cap := watts }).answer tag 0) s
/-- The share to withhold, in thousandths, when the package draws `power` with `held` withheld: what brings the draw it would have with
nothing withheld to the cap, and no less than before while the cap is exceeded (R2, R343, log entry 59). -/
def limiterShare (cap power held : Nat) : Nat :=
  let full := power * 1000 / Nat.max 1 (1000 - held)
  let share := if full ≤ cap then 0 else (full - cap) * 1000 / full + 1
  Nat.min 999 (if power ≤ cap then share else Nat.max held share)
/-- POWER_LIMITER_SAMPLE: the limiter withholds turns in proportion to what must go. -/
def execPowerLimiterSample (milliwatts : Nat) (s : State) : Out :=
  .next (s.modDev fun d =>
    { d with power := milliwatts, withheld := limiterShare (1000 * d.cap) milliwatts d.withheld, sampled := s.now })
/-- LASER_INTERLOCK: every laser of a fibre whose connector is open goes off. -/
def execLaserInterlock (fibre : Nat) (s : State) : Out := .next (s.modDev fun d => { d with lasersOff := nsAdd d.lasersOff fibre })
/-- The topology record (R341). -/
def State.topoRecord (s : State) : List Byte :=
  let t := s.dev.topology
  bytesOf 8 idpart.toNat ++ bytesOf 8 s.idcount.toNat ++ bytesOf 48 t.cores.toNat ++ bytesOf 48 t.slices.toNat
    ++ bytesOf 64 t.channels.toNat
    ++ (upFrom 0 128).flatMap (fun f => bytesOf 2 (s.waves f).1 ++ bytesOf 2 (s.waves f).2) ++ bytesOf 336 0
/-- TOPO. -/
def execTopo (tag : Byte) (s : State) : Out := hostCommand tag (fun s => s.answer tag 0 s.topoRecord) s
/-- ERRCNT: one counter. -/
def execErrcnt (tag : Byte) (counter : ErrorCounter) (s : State) : Out :=
  hostCommand tag (fun s => s.answer tag 0 (bytesOf 8 (stGet 0 s.dev.counters (errKey counter)).toNat)) s

/-! ### Errors (R308, R339) -/

/-- CORRECTABLE_ERROR: corrected and counted, per die, stack or link. -/
def execCorrectableError (counter : ErrorCounter) (s : State) : Out :=
  match counter with
  | .die _ => .next (s.countError counter)
  | .stack _ => .next (s.countError counter)
  | .link _ => .next (s.countError counter)
  | _ => .next s
/-- RETRIED_FLIT: a flit that fails its CRC is retried at the link; nothing else changes. -/
def execRetriedFlit (_link : Nat) (s : State) : Out := .next (s.countError .flits)
/-- A group escalates with cause 0 at its first split's PC. -/
def State.breakGroup (s : State) (key : Nat) : State :=
  match s.group key with
  | none => s
  | some g =>
    let sp := (g.splits.head?).map (·.2)
    s.escalateGroup key { cause := 0, addr := 0, lane := false, split := ((g.splits.head?).map (·.1)).getD 0,
                          pc := (sp.map (·.pc)).getD 0, lp := (sp.map (·.lp)).getD 0 }
/-- UNCORRECTABLE_ERROR: by where it lies. -/
def execUncorrectableError (place : ErrorPlace) (s : State) : Out :=
  match place with
  | .memory pa =>
    let who := amGet s.mem.owners (pa / 65536)
    let dom := (who.map fun w => s.rcbDomain w.1 w.2).getD 0
    .next ((s.modMem fun m => { m with poison := nsAdd m.poison (pa / 128) }).event (evt 5 dom 0 pa 0 0))
  | .groupState core slot => .next (s.breakGroup (gkey core slot))
  | .pool team =>
    (match s.team team with
     | none => .next s
     | some t => .next (t.groups.foldl (fun a g => a.breakGroup (gkey t.core g.2)) s))
  | .codeSlot core slot =>
    let x := s.codeSlot core slot
    if x.state == .landed then .next (s.setCodeSlot core slot { x with state := .empty }) else .next s
  | .bank core => .next (s.macroError core)
  | .controller => .next s.trip

/-! ### Media jobs (R342) -/

def jobFrames (b : List Byte) : Nat := bitsOf (field b 8 8) 16 16
/-- A job whose codec and frame count are not reserved. -/
def jobGood (b : List Byte) : Bool := bitsOf (field b 8 8) 0 2 != 3 && jobFrames b != 0
/-- Sample `v` of bit depth `b` as an exact value with the bits below the quotient kept sticky. -/
def sampleVal (b v : Nat) : FVal := let q := quotient v (2 ^ b - 1); .fin false q.1 (-q.2)
/-- The in-bounds elements of a plane of frame `n`: addresses and values. -/
def planeElems (r : List Byte) (depth n : Nat) (rows : List (List Nat)) : List (DWord × FVal) :=
  ((upFrom 0 rows.length).zip rows).flatMap fun y => ((upFrom 0 y.2.length).zip y.2).filterMap fun x =>
    let c : List Int := [(x.1 : Int), (y.1 : Int), (n : Int)]
    if recIn r c then some (recAddr r c, sampleVal depth x.2) else none
/-- The writes of a plane, or what is not there yet: a page, or the format of a page at another rank. -/
def State.planeWrites (s : State) (w : Who) (far : List (DWord × List Byte)) (r : List Byte) (es : List (DWord × FVal)) : Except Got (List CopyWr) :=
  let f := recFormat r
  if f = 13 then
    match s.bpWrites w far false es with
    | .ok (some ws) => .ok ws
    | .ok none => .error .fault
    | .error x => .error x
  else if !isFloat f then .error .fault
  else
    let missing := es.findSome? fun x => match s.resolve w x.1 (bytesIn f) .wr with
      | .error (.trap c) => some (if c == cPage || c == cRevoked then Got.page x.1 (bytesIn f) else .fault)
      | .error .stall => some (.page x.1 (bytesIn f))
      | .ok _ => none
    match missing with
    | some x => .error x
    | none => .ok (es.map fun x => { addr := x.1, bytes := bytesOf (bytesIn f) ((fmtOf f).round 0 false x.2).bits, kind := .plain })
/-- The writes of the planes in order. -/
def State.frameWrites (s : State) (w : Who) (far : List (DWord × List Byte)) (asid n depth : Nat) :
    List (Nat × List (List Nat)) → Except Got (List CopyWr)
  | [] => .ok []
  | (a, rows) :: rest =>
    match s.devRead asid a 192 with
    | none => .error .fault
    | some r =>
      if !recOk r || recDims r != 3 then .error .fault
      else
        match s.planeWrites w far r (planeElems r depth n rows) with
        | .error e => .error e
        | .ok ws => (s.frameWrites w far asid n depth rest).map (ws ++ ·)
/-- A job ends: its status word, and a FAULT event where it ends on an error. -/
def State.endJob (s : State) (k : Nat) (j : MediaJob) (ok : Bool) : State :=
  let asid := ((s.launch j.launch).map (·.asid)).getD 0
  let s1 := s.devWrite asid (j.desc.toNat + 48) (bytesOf 8 ((if ok then 1 else 4) + j.frames * 2 ^ 32))
  let s2 := match if ok then none else s1.launch j.launch with
    | some x => s1.event (evt 3 (s1.rcbDomain x.asid x.rcb) 0 x.packet.toNat 0 j.desc.toNat)
    | none => s1
  (s2.modHead fun h => { h with jobs := amDel h.jobs k }).wakeUp (.nodeComplete j.launch j.node)
def State.modJob (s : State) (job : Nat) (f : MediaJob → MediaJob) : State := s.modHead fun h => { h with jobs := amMod f h.jobs job }
/-- A frame that is written whole is counted (R280, R342). -/
def State.countFrame (s : State) (job : Nat) (j : MediaJob) (x : Launch) : State :=
  match s.wordPA x.asid (field j.bytes 40 8) .rd with
  | none => s.endJob job j false
  | some pa =>
    if s.mem.live pa = some .counter then
      let n := s.addCounter pa 1
      let s1 := n.1.modJob job fun y => { y with frames := y.frames + 1 }
      if n.2 then (s1.escalateLaunch j.launch cQueue (field j.bytes 40 8)).endJob job { j with frames := j.frames + 1 } false else s1
    else s.endJob job j false
/-- Ask other ranks for a job: the tickets. -/
def State.jobSend (s : State) (job : Nat) (asks : List Ask) : State × List Nat :=
  let r := s.sendAsks 0 (.job job) 0 none asks
  (r.1, r.2.map (·.2))
/-- MEDIA_FRAME_COMPLETE: the next frame in output order is written, and counted once it is performed. A frame that meets a missing page, or
a page at another rank whose format is not known yet, comes again. -/
def execMediaFrameComplete (job depth : Nat) (samples : List (List (List Nat))) (s : State) : Out :=
  match amGet s.head.jobs job with
  | none => .next s
  | some j =>
    match s.launch j.launch with
    | none => .next s
    | some x =>
      if decide (jobFrames j.bytes ≤ j.frames) || !j.wait.isEmpty || !j.acks.isEmpty then .next s
      else
        let w := devWho x.asid j.launch
        let planes := (upFrom 0 3).map fun i => (field j.bytes (16 + 8 * i) 8, (samples[i]?).getD [])
        match s.frameWrites w j.far x.asid j.frames depth planes with
        | .error (.page a n) =>
          let r := s.serveRange 0 a.toNat n j.launch x.asid (((s.node j.launch j.node).map (·.rcb)).getD x.rcb) (.job job)
          .next (if r.2 == some false then r.1.endJob job j false else r.1)
        | .error (.ask l) =>
          let r := s.jobSend job (l.map fun y => farAsk 0 y.1 y.2)
          .next (r.1.modJob job fun y => { y with wait := r.2.zip (l.map (·.1)) })
        | .error _ => .next (s.endJob job j false)
        | .ok ws =>
          let r := s.enginePuts w none ws []
          if r.2.2 then .next (r.1.endJob job j false)
          else if r.2.1.isEmpty then .next (r.1.countFrame job j x)
          else
            let t := r.1.jobSend job r.2.1
            .next (t.1.modJob job fun y => { y with acks := t.2 })
/-- MEDIA_JOB_COMPLETE: done after its last frame, or stopped by a bitstream error. -/
def execMediaJobComplete (job : Nat) (ok : Bool) (s : State) : Out :=
  match amGet s.head.jobs job with
  | none => .next s
  | some j =>
    if ok && jobGood j.bytes && j.frames != jobFrames j.bytes then .next s
    else .next (s.endJob job j (ok && jobGood j.bytes))

end Sys2Proof.Machine
end

