-- ==== Sys2Proof/Machine/Sync.lean ====
section
/-! DEFINITION. FENCE (R289), the sync-word instructions (R290 to R295), the action at a word's home (R291 to R293), and the team barrier
(R296). -/
namespace Sys2Proof.Machine

/-! ### FENCE (R289) -/

/-- Whether a FENCE's wait is over: the release's accesses and the forwarded quantum entries are performed, and for an acquire the earlier
loads have returned (R270, R277). -/
def State.fenceReady (s : State) (key split : Nat) (scope kind : BitVec 2) : Bool :=
  (if kind == 0 then s.quantDone (key / 32) else s.releaseReady key split scope)
    && (kind == 1 || (match s.group key with
        | some g => !(g.outstanding split fun a => a.load)
        | none => true))
/-- What a FENCE whose wait is over does. -/
def State.fenceEnd (s : State) (key split : Nat) (scope kind : BitVec 2) : State :=
  if kind = 1 then s else s.acquire key split scope
/-- FENCE: the release first, then the acquire; every kind forwards the split's quantum entries (R277). -/
def execFence (scope kind : BitVec 2) (s : State) : Out :=
  runScalar (scalarOk (.fence scope kind)) (fun s g sp =>
    let k := s.sched.split
    if !g.issued k then .wait s
    else
      let s1 := if kind = 0 then s.quantForward s.sched.core (fromSplit s.sched.slot k) else s.release s.curKey k scope
      if s1.fenceReady s.curKey k scope kind then
        .done ((s1.fenceEnd s.curKey k scope kind).modSplit s.curKey k Split.advance)
      else .wait (s1.modSplit s.curKey k fun _ => { sp with status := .fence scope kind })) s
/-- FENCE_COMPLETE. -/
def execFenceComplete (core slot split : Nat) (s : State) : Out :=
  onSplit core slot split (fun _ sp => match sp.status with
    | .fence scope kind =>
      if s.fenceReady (gkey core slot) split scope kind then
        (s.fenceEnd (gkey core slot) split scope kind).resume (gkey core slot) split Split.advance
      else s
    | _ => s) s

/-! ### A word's home (R284 to R293) -/

/-- What a sync-word instruction asks of the home. -/
inductive WordOp where
  | init (ctr : Bool) (v : DWord)
  | free
  | arrive (v : DWord)
  | phase (b : Bool)
  | count (n : DWord)
deriving DecidableEq, Repr

/-- The kind of a place's live word. -/
def State.wordKind (s : State) : Place → Option SyncKind
  | .mem pa => s.mem.live pa
  | .window _ => some .counter
  | _ => none
/-- A place's word. -/
def State.wordVal (s : State) : Place → DWord
  | .mem pa => s.wordAt pa
  | .window off => s.windowWord (off / 8)
  | _ => 0
/-- The word SYNCINIT writes (R291). -/
def initWord (ctr : Bool) (v : DWord) : DWord :=
  if ctr then v else mkBarrier false (bitsOf v.toNat 48 15) (bitsOf v.toNat 48 15) 0
/-- Whether SYNCINIT accepts its operand (R291). -/
def initOk (ctr : Bool) (v : DWord) : Bool := ctr || (!v.getLsbD 63 && bitsOf v.toNat 0 48 == 0 && bitsOf v.toNat 48 15 != 0)
/-- Set or clear a word's tag, and tell the waits registered on it. -/
def State.setTag (s : State) (pa : Nat) (k : Option SyncKind) : State :=
  s.modMem fun m => { m with timed := amDel m.timed (pa / 8), sync := match k with
    | some x => amSet m.sync (pa / 8) x
    | none => amDel m.sync (pa / 8) }
/-- Triggered entries armed on a word complete as CANCELLED (R232). -/
def State.cancelArmed (s : State) (pa : Nat) : State :=
  (s.entries.filter fun e => e.2.armed && s.counterPlace e.2.asid (field e.2.bytes 40 8) == some (.mem pa)).foldl (fun a e => a.entryDone e.1 2) s
/-- The traps of the action at a word's home, in order: the kind, the scope, ARRIVE's QUEUE_FAULT (R281, R290, R293). A word of the
timeline window takes only WAITTL, which is not checked there (R422). -/
def State.wordCheck (s : State) (p : Place) (op : WordOp) (party : Party) : Option Byte :=
  let w := s.wordVal p
  let kind := s.wordKind p
  let bad := match op with
    | .init _ _ => false
    | .free => false
    | .arrive _ => kind.isNone
    | .phase _ => kind != some SyncKind.barrier
    | .count _ => kind != some SyncKind.counter
  match p with
  | .window _ => (match op with | .count _ => none | _ => some cProtect)
  | .mem pa =>
    if bad then some cProtect
    else if !s.scopeOk (pa / 128) party then some cScope
    else
      match op with
      | .arrive v =>
        if kind = some .barrier then
          (if barPending w = 0 || decide ((2 ^ 32 - 1 : Int) < barBytes w + (v.toNat : Int)) then some cQueue else none)
        else if 2 ^ 64 ≤ w.toNat + v.toNat then some cQueue else none
      | _ => none
  | _ => some cProtect
/-- ARRIVE's new word and its result (R293). -/
def arriveWord (barrier : Bool) (w v : DWord) : DWord × DWord :=
  if barrier then
    (flipCheck (mkBarrier (barPhase w) (barExpected w) (barPending w - 1) (barBytes w + (v.toNat : Int))),
     if barPhase w then 1 else 0)
  else (w + v, w)
/-- The action at a word's home, once the checks have passed: the value it answers. -/
def State.wordAct (s : State) (p : Place) (op : WordOp) (scope : BitVec 2) (party : Party) : State × DWord :=
  match p with
  | .mem pa =>
    let s1 := (s.modMem fun m => m.recall (pa / 128)).setScope (pa / 128) scope party
    match op with
    | .init ctr v =>
      let s2 := (s1.setTag pa (some (if ctr then .counter else .barrier))).clearScope (pa / 128)
      ((s2.setWord pa (initWord ctr v)).cancelArmed pa, 0)
    | .free =>
      if (s.mem.live pa).isNone then (s1, 0)
      else
        let s2 := (s1.setTag pa none).clearScope (pa / 128)
        ((s2.notify (.mem pa) none (s.wordAt pa)).cancelArmed pa, 0)
    | .arrive v =>
      let r := arriveWord (s.mem.live pa == some SyncKind.barrier) (s.wordAt pa) v
      (s1.setWord pa r.1, r.2)
    | .phase _ => (s1, s.wordAt pa)
    | .count _ => (s1, s.wordAt pa)
  | _ => (s, s.wordVal p)
/-- Whether a wait on a word is met now. -/
def WordOp.met (op : WordOp) (w : DWord) : Bool :=
  match op with
  | .phase b => barPhase w == b
  | .count n => decide (n ≤ w)
  | _ => true

/-! ### The instructions (R290 to R295) -/

/-- The place of a sync word, or what stops the instruction (R283, R290). -/
def State.wordPlace (s : State) (w : Who) (addr : DWord) : Except Stop Place :=
  let ps := s.resolveParts w addr 8 .atom
  if addr.toNat % 8 != 0 then .error (.trap cAlign)
  else if anyProtect ps || anyFmt (okSegs ps) || (okSegs ps).any Seg.isScratch then .error (.trap cProtect)
  else (gather ps).map placeOf
/-- The sub-operation another rank's home is asked for (R288). -/
def WordOp.sub : WordOp → BitVec 4 × Bool × DWord
  | .init ctr v => (0, ctr, v)
  | .free => (1, false, 0)
  | .arrive v => (2, false, v)
  | .phase b => (3, false, if b then 1 else 0)
  | .count n => (5, false, n)
/-- The scope an acquire on an engine's timeline reaches at least (R279, R295), for as long as the word lives. -/
def State.timelineScope (s : State) : Place → BitVec 2
  | .window off => if off < 0x10000 then 1 else 3
  | .mem pa =>
    if s.queues.any fun q => s.wordPA q.2.asid (q.2.desc.toNat + 24) .rd == some pa then 2
    else if s.head.launches.any fun l => match l.2.cover with
      | some c => s.wordPA l.2.asid c.timeline.toNat .rd == some pa
      | none => false then 1
    else (amGet s.mem.timed (pa / 8)).getD 0
  | _ => 0
/-- The wider of two scopes. -/
def wider (a b : BitVec 2) : BitVec 2 := if a < b then b else a
/-- Whether an operation reads the word (ARRIVE, BWAIT, WAITTL), so that a poisoned line stops it (R308). -/
def WordOp.reads : WordOp → Bool
  | .init _ _ => false
  | .free => false
  | _ => true
def State.wordPoisoned (s : State) : Place → Bool
  | .mem pa => nsHas s.mem.poison (pa / 128)
  | _ => false
/-- Whether an operation is a release: SYNCINIT, SYNCFREE, ARRIVE (R291 to R293). -/
def WordOp.release : WordOp → Bool
  | .init _ _ => true
  | .free => true
  | .arrive _ => true
  | _ => false
/-- What a wait is held as: of BWAIT and WAITTL on the word, of the others for the answer of another rank. -/
def WordOp.status (op : WordOp) (d : SReg) (w : WordWait) : SplitStatus :=
  match op with
  | .phase b => .bwait w b
  | .count n => .waittl w n
  | _ => .reply (w.ticket.getD 0) d false
/-- A sync-word instruction: `d` receives what the home answers. -/
def runWord (ok : Bool) (d a : SReg) (scope : BitVec 2) (opOf : Split → WordOp) (s : State) : Out :=
  runScalar ok (fun s g sp =>
    let k := s.sched.split
    let core := s.sched.core
    let addr := sp.reg a
    let op := opOf sp
    let legal := match op with | .init ctr v => initOk ctr v | _ => true
    if !g.issued k then .wait s
    else
      match s.wordPlace (s.whoOf core g) addr with
      | .error e => stopScalar addr s (e, false)
      | .ok p =>
        if !legal then .trap (Trap.of cIllegal)
        else
          match p with
          | .remote rank region off =>
            if !s.scopePass core scope p then .trap (Trap.at_ cScope addr)
            else
              (match if op.release then s.releaseFor k scope else .ok s with
               | .error s1 => .wait s1
               | .ok s1 =>
                 let ask : Ask := { lane := 0, rank := rank, region := region, off := off, op := .sync op.sub.1 op.sub.2.1 scope op.sub.2.2 }
                 let r := (s1.keepForget core s.sched.slot k ask).sendAsks core (.split core s.sched.slot k) 6 none [ask]
                 let tk := ((r.2.head?).map (·.2)).getD 0
                 let w : WordWait := { place := p, addr := addr, scope := scope, due := false, ticket := some tk }
                 .wait (r.1.modSplit s.curKey k fun x => { x with status := op.status d w }))
          | _ =>
            if op.reads && s.wordPoisoned p then .trap { Trap.at_ cProtect addr with poison := true }
            else
            match s.wordCheck p op (.core core) with
            | some c => .trap (Trap.at_ c addr)
            | none =>
              match if op.release then s.releaseFor k scope else .ok s with
              | .error s1 => .wait s1
              | .ok s1 =>
                let s2 := match p with | .mem pa => s1.dropLine core (pa / 128) | _ => s1
                let r := s2.wordAct p op scope (.core core)
                if op.release then .done (r.1.modSplit s.curKey k fun x => (x.setReg d r.2).advance)
                else if op.met r.2 then
                  .done ((r.1.acquire s.curKey k (wider scope (s.timelineScope p))).modSplit s.curKey k Split.advance)
                else
                  let w : WordWait := { place := p, addr := addr, scope := wider scope (s.timelineScope p), due := false, ticket := none }
                  .wait (r.1.modSplit s.curKey k fun x => { x with status := op.status d w })) s

/-- SYNCINIT (R291). -/
def execSyncinit (a b : SReg) (ctr : BitVec 1) (scope : BitVec 2) (s : State) : Out :=
  runWord true 0 a scope (fun sp => .init (ctr == 1) (sp.reg b)) s
/-- SYNCFREE (R292). -/
def execSyncfree (a : SReg) (scope : BitVec 2) (s : State) : Out := runWord true 0 a scope (fun _ => .free) s
/-- ARRIVE (R293). -/
def execArrive (d a b : SReg) (scope : BitVec 2) (s : State) : Out := runWord true d a scope (fun sp => .arrive (sp.reg b)) s
/-- BWAIT (R294). -/
def execBwait (a b : SReg) (scope : BitVec 2) (s : State) : Out :=
  runWord true 0 a scope (fun sp => .phase ((sp.reg b).getLsbD 0)) s
/-- WAITTL (R295). -/
def execWaittl (a b : SReg) (scope : BitVec 2) (s : State) : Out := runWord true 0 a scope (fun sp => .count (sp.reg b)) s

/-- A wait on a word ends: its acquire, or PROTECT when the word was freed (R292, R294). -/
def State.wordWake (s : State) (core slot split : Nat) (w : WordWait) : State :=
  if w.due then (s.acquire (gkey core slot) split w.scope).resume (gkey core slot) split Split.advance else s
/-- BWAIT_RELEASE. -/
def execBwaitRelease (core slot split : Nat) (s : State) : Out :=
  onSplit core slot split (fun _ sp => match sp.status with
    | .bwait w _ => s.wordWake core slot split w
    | .freed addr =>
      (s.modSplit (gkey core slot) split fun x => { x with status := .ready }).takeTrap (gkey core slot) split (Trap.at_ cProtect addr) none
    | _ => s) s
/-- WAITTL_RELEASE. -/
def execWaittlRelease (core slot split : Nat) (s : State) : Out :=
  onSplit core slot split (fun _ sp => match sp.status with
    | .waittl w _ => s.wordWake core slot split w
    | .freed addr =>
      (s.modSplit (gkey core slot) split fun x => { x with status := .ready }).takeTrap (gkey core slot) split (Trap.at_ cProtect addr) none
    | _ => s) s

/-! ### BAR (R296) -/

def atBar : SplitStatus → Bool
  | .bar _ => true
  | _ => false
/-- Every split that has not exited waits at BAR. -/
def Group.atBar (g : Group) : Bool := !g.splits.isEmpty && g.splits.all fun x => Machine.atBar x.2.status
/-- A group whose arrival is committed. -/
def Group.barred (g : Group) : Bool := !g.splits.isEmpty && g.splits.all fun x => x.2.status == .bar true
/-- The keys of a team's live groups. -/
def Team.keys (t : Team) : List Nat := t.groups.map fun x => gkey t.core x.2
/-- A group has arrived: the arrival is committed. -/
def State.barArrive (s : State) (key : Nat) : State :=
  s.modGroup key fun g => if g.atBar && g.running then
    { g with splits := amMap (fun _ sp => { sp with status := .bar true }) g.splits } else g
/-- Release every split of a group at BAR. -/
def State.barFree (s : State) (key : Nat) : State :=
  match s.group key with
  | none => s
  | some g => g.splits.foldl (fun a x => a.resume key x.1 Split.advance) s
/-- Arrivals that can be committed are, and the barrier completes when every live group of the team has arrived. -/
def State.barStep (s : State) (team : Nat) : State :=
  match s.team team with
  | none => s
  | some t =>
    let s1 := t.keys.foldl State.barArrive s
    if !t.keys.isEmpty && t.keys.all (fun k => ((s1.group k).map Group.barred).getD false) then t.keys.foldl State.barFree s1 else s1
/-- Whether `barStep` would change something. -/
def State.barDue (s : State) (team : Nat) : Bool :=
  match s.team team with
  | none => false
  | some t =>
    let gs := t.keys.filterMap s.group
    gs.any (fun g => g.atBar && !g.barred && g.running) || (!gs.isEmpty && gs.all Group.barred)
/-- BAR: waits for the split's lane work and its accesses at team scope. -/
def execBar (s : State) : Out :=
  runScalar true (fun s g sp =>
    let k := s.sched.split
    if !g.laneDone k then .wait s
    else
      match s.releaseFor k 0 with
      | .error s1 => .wait s1
      | .ok s1 => .wait ((s1.modSplit s.curKey k fun _ => { sp with status := .bar false }).barStep g.team)) s
/-- BAR_COMPLETE. -/
def execBarComplete (team : Nat) (s : State) : Out := .next (s.barStep team)

end Sys2Proof.Machine
end

