-- ==== Sys2Proof/Machine/LaneMem.lean ====
section
/-! DEFINITION. Lane memory instructions (R83 to R99): addresses, checks before any effect, elements, tensor coordinates, atomics by use
and scope, and prefetches. -/
namespace Sys2Proof.Machine

/-! ### Addresses and checks (R83, R87) -/

/-- A lane's address (R83). -/
def Group.memAddr (g : Group) (e : LaneEntry) (f : LaneF) (lane : Nat) : DWord :=
  (if f.va ≤ 63 then g.vpair e f.va.toNat lane else g.scalarOf e (f.va.setWidth 5)) + sext f.w2
/-- What stops a lane instruction: the lane, its address, the stop, whether a poisoned line was read. -/
structure LaneStop where
  lane : Nat
  addr : DWord
  stop : Stop
  poison : Bool
deriving DecidableEq, Repr
/-- A stop as the instruction's outcome. -/
def LaneStop.out (s : State) (x : LaneStop) : LRes :=
  match x.stop with
  | .trap c => .trap { cause := c, code := 0, addr := x.addr, lid := x.lane, poison := x.poison }
  | .stall => .wait s
/-- One lane's checked access. -/
structure LaneTo where
  lane : Nat
  addr : DWord
  place : LanePlace
deriving DecidableEq, Repr
/-- Check the lanes in ascending LID: the first that stops is the one reported (R87). `sync` refuses a lane's scope (R281). -/
def State.laneTargets (s : State) (w : Who) (t : BitVec 4) (k : LaneKind) (need : Need) (sync : LanePlace → Bool) (pl : BitVec 3 := 0) :
    List (Nat × DWord) → Except LaneStop (List LaneTo)
  | [] => .ok []
  | (i, a) :: rest =>
    match s.checkLane w a t k need pl with
    | .error e => .error { lane := i, addr := a, stop := e.1, poison := e.2 }
    | .ok p =>
      if sync p then .error { lane := i, addr := a, stop := .trap cScope, poison := false }
      else (s.laneTargets w t k need sync pl rest).map ({ lane := i, addr := a, place := p } :: ·)
/-- The first segment of a lane's place. -/
def LanePlace.seg : LanePlace → Place
  | .plain gs => placeOf gs
  | .elem g => g.place
/-- The remote rank, region and offset a lane names, as what is asked of it. -/
def LaneTo.ask (x : LaneTo) (op : HomeOp) : Option Ask :=
  match x.place.seg with
  | .remote r g o => some { lane := x.lane, rank := r, region := g, off := o, op := op }
  | _ => none
/-- Whether a lane's access waits for an earlier one of its split at another rank (R88). -/
def State.lanesHeld (s : State) (split : Nat) (xs : List LaneTo) : Bool :=
  xs.any fun x => s.farBusy s.sched.core s.sched.slot split x.place.seg
/-- The lanes with their addresses. -/
def Group.laneAddrs (g : Group) (e : LaneEntry) (f : LaneF) (act : LaneMask) : List (Nat × DWord) :=
  (maskLanes act).map fun i => (i, g.memAddr e f i)

/-! ### Issuing (R88, R156, R354) -/

/-- What the lanes of an instruction have come to: the state, the values to write, and what other ranks are asked. -/
structure LaneWork where
  s : State
  parts : List AccPart
  asks : List Ask
deriving DecidableEq, Repr
/-- A value for a lane's destination (R42). -/
def partOf (e : LaneEntry) (vd : BitVec 7) (t : BitVec 4) (lane bits : Nat) : List AccPart :=
  if 63 < vd then []
  else [{ lane := lane, slot := e.tag.wb + vd.toNat, wide := wideType t,
          value := if wideType t then BitVec.ofNat 64 bits else (heldAs t bits).setWidth 64, ticket := none }]
/-- Issue what the lanes have come to as one outstanding access; the state carries its effects. -/
def LaneWork.issue (x : LaneWork) (e : LaneEntry) (load nord : Bool) (vd : BitVec 7) (t : BitVec 4) (src : Option (BitVec 4)) (rm : BitVec 3)
    (keep : Bool)
    (reach : Nat) : State × Nat :=
  let key := x.s.curKey
  let core := x.s.sched.core
  let slot := x.s.sched.slot
  let id := ((x.s.group key).map Group.nextAccess).getD 0
  let r := x.s.sendAsks core (.access core slot id) t (if keep then some (core, slot, e.tag.split) else none) x.asks src rm
  let far := if load then x.asks.flatMap fun a => (partOf e vd t a.lane 0).map fun p => { p with ticket := ticketOf r.2 a.line } else []
  let acks := if far.isEmpty then r.2.map (·.2) else []
  (r.1.issueAccess key { load := load, lane := true, split := e.tag.split, parts := x.parts ++ far, sreg := none, acks := acks,
                         reach := reach, nord := nord, inh := e.tag.inh }, id)
/-- The furthest a set of lanes reaches. -/
def State.laneReach (s : State) (xs : List LaneTo) : Nat :=
  xs.foldl (fun n x => let r := s.reachOf s.sched.core x.place.seg; if n < r then r else n) 0
/-- Raise flags in the executing group. -/
def State.raiseHere (s : State) (n : Num) : State := s.modGroup s.curKey fun g => g.raise n.ff n.fi

/-! ### LD, ST (R89 to R93) -/

/-- One lane of a load (R89, R93): an element of a format page as `td`; ordinary bytes as `plain`, converted to `td` under `rm` where
`conv` (R94); `kept` finds a `.keep` copy. -/
def loadLane (e : LaneEntry) (f : LaneF) (plain : Option (BitVec 4)) (conv kept : Bool) (w : LaneWork) (x : LaneTo) : LaneWork :=
  let core := w.s.sched.core
  let t := plain.getD f.td
  let put := fun (s1 : State) (n : Num) =>
    let v := if conv then (convert t f.td f.rm false n.bits).raise n.ff n.fi else n
    { w with s := s1.raiseHere v, parts := w.parts ++ partOf e f.vd f.td x.lane v.bits }
  match x.place with
  | .plain gs =>
    (match x.ask (.getFormat f.td plain f.rm f.pl) with
     | some a =>
       (match if kept then w.s.keepRead core w.s.sched.slot e.tag.split a (bytesIn t) else none with
        | some bs => put w.s (Num.pure (leNat bs))
        | none => { w with s := if kept then w.s else w.s.keepForget core w.s.sched.slot e.tag.split a, asks := w.asks ++ [a] })
     | none => let r := w.s.segsRead core gs; put r.1 (Num.pure (leNat r.2)))
  | .elem g =>
    (match g.place, g.fmt with
     | .mem pa, some fm =>
       let p := loadPlanes f.td f.pl fm.2.1
       let r := w.s.readElem core pa fm p
       let v := elemValue f.td f.rm p r.2.2 r.2.1
       { w with s := r.1.raiseHere v, parts := w.parts ++ partOf e f.vd f.td x.lane v.bits }
     | _, _ => { w with asks := w.asks ++ (x.ask (.getFormat f.td plain f.rm f.pl)).toList })
/-- The planes a load to `td` selects: T = bp ignores pl (R89). -/
def planeField (f : LaneF) : BitVec 3 := if f.td = 13 then 0 else f.pl

/-- LD. -/
def execLd (f : LaneF) (s : State) : Out :=
  runLane (laneOk (.ld f)) f (fun s g e act =>
    if act = 0 then .done s
    else
      match s.laneTargets (s.whoOf s.sched.core g) f.td .ld .rd (fun _ => false) (planeField f) (g.laneAddrs e f act) with
      | .error x => x.out s
      | .ok xs =>
        if !g.roomFor true || s.lanesHeld e.tag.split xs then .wait s
        else
          let keep := f.fn.getLsbD 0
          let s1 := s.missWalks (s.whoOf s.sched.core g) (xs.map (·.addr))
          let w := xs.foldl (loadLane e f (if f.td = 13 then none else some f.td) false keep) { s := s1, parts := [], asks := [] }
          .done (w.issue e true false f.vd f.td none f.rm keep (s.laneReach xs)).1) s

/-- The elements a set of lanes writes, with the data of each (R90). -/
def elemsOf (xs : List (LaneTo × Nat)) : List (Nat × (Nat × Nat × Nat) × Nat) :=
  xs.filterMap fun x => match x.1.place with
    | .elem g => (match g.place, g.fmt with | .mem pa, some fm => some (pa, fm, x.2) | _, _ => none)
    | _ => none
/-- One lane of a store of `n` bytes: local bytes are written, another rank's are sent. -/
def storeLane (e : LaneEntry) (n : Nat) (w : LaneWork) (x : LaneTo × Nat) : LaneWork :=
  let bs := bytesOf n x.2
  match x.1.place with
  | .plain gs =>
    (match x.1.ask (.put bs) with
     | some a => { w with s := w.s.keepStore w.s.sched.core w.s.sched.slot e.tag.split a bs, asks := w.asks ++ [a] }
     | none => { w with s := w.s.segsWrite w.s.sched.core gs bs })
  | .elem _ => { w with asks := w.asks ++ (x.1.ask (.putElement (BitVec.ofNat 32 x.2))).toList }
/-- The lane of the element that a store's check refuses: the `i`th that lies on a format page here. -/
def elemLane (xs : List (LaneTo × Nat)) (i : Nat) : Option LaneTo :=
  ((xs.filter fun x => !(elemsOf [x]).isEmpty)[i]?).map (·.1)
/-- What is asked of the homes of a set's elements at other ranks, before a store that no one home sees whole. -/
def farElems (xs : List (LaneTo × Nat)) : List Ask :=
  xs.filterMap fun x => match x.1.place with
    | .elem _ => x.1.ask .pageFormat
    | .plain _ => none
/-- Whether no one home sees a set of elements whole: they lie in several lines, or some of them lie here. -/
def probesFormats (xs : List (LaneTo × Nat)) : Bool :=
  let asks := farElems xs
  !asks.isEmpty && (decide (asks.length < xs.length) || decide (1 < (askLines Ask.line asks).length))
/-- The set with its elements at other ranks, each on a page as its home answered: stored planes and block length. -/
def allElems : List Nat → List (LaneTo × Nat) → List (Nat × (Nat × Nat × Nat) × Nat)
  | _, [] => []
  | ms, x :: xs =>
    match x.1.ask .pageFormat with
    | some a => let m := (ms.head?).getD 0; (2 ^ 70 + a.addr, (0, m % 64, if m.testBit 6 then 64 else 32), x.2) :: allElems (ms.drop 1) xs
    | none => elemsOf [x] ++ allElems ms xs
/-- A store of each lane's data, in ascending LID, once every check has passed. A set of elements that no one home sees whole is checked
here, once the homes have answered for their pages (R90, R91; log entry 102). -/
def storeLanes (s : State) (e : LaneEntry) (n : Nat) (t : BitVec 4) (act : LaneMask) (xs : List (LaneTo × Nat)) : LRes :=
  let els := elemsOf xs
  let g := s.curGroup
  let marks := (g.map fun x => x.async.laneMarks).getD []
  let probed := g.any fun x => x.async.laneProbe == 2
  if probesFormats xs && !probed then
    if g.any fun x => x.roomFor true then
      let probe : LaneWork := { s := s, parts := [], asks := farElems xs }
      let r := probe.issue e true false 0 0 none 0 false 0
      .wait (r.1.modGroup s.curKey fun x => x.modAsync fun a => { a with laneWait := some r.2, laneProbe := 1 })
    else .wait s
  else
  match elemCheck (if probed then allElems marks xs else els) with
  | some c =>
    let x := if probed then (xs[c.1]?).map (·.1) else elemLane xs c.1
    .trap { cause := c.2, code := 0, addr := (x.map (·.addr)).getD 0, lid := (x.map (·.lane)).getD (lowLane act), poison := false }
  | none =>
    let w := xs.foldl (storeLane e n) { s := s, parts := [], asks := [] }
    let s1 := w.s.writeBlocks s.sched.core els
    let w1 : LaneWork := { w with s := s1 }
    .done (w1.issue e false false 96 t none 0 false (s.laneReach (xs.map fun x => x.1))).1
/-- ST; `.b64` writes the elements of the odd register 32 above (R90). -/
def execSt (f : LaneF) (s : State) : Out :=
  runLane (laneOk (.st f)) f (fun s g e act =>
    let w := s.whoOf s.sched.core g
    let two := f.fn.getLsbD 0
    let lanes := g.laneAddrs e f act
    if act = 0 then .done s
    else
      match s.laneTargets w f.td .st .wr (fun _ => false) 0 (if two then lanes.flatMap (fun (x : Nat × DWord) => [x, (x.1, x.2 + 32)]) else lanes) with
      | .error x => x.out s
      | .ok xs =>
        if !g.roomFor false || s.lanesHeld e.tag.split xs then .wait s
        else
          let data := fun (x : LaneTo) =>
            if two && x.addr != g.memAddr e f x.lane then
              (if f.vb ≤ 63 then g.src e f.w2 (f.vb + 1) 5 x.lane else g.src e f.w2 f.vb 7 x.lane / 2 ^ 32)
            else g.src e f.w2 f.vb f.td x.lane
          storeLanes (s.missWalks w (xs.map (·.addr))) e (bytesIn f.td) f.td act (xs.map fun x => (x, data x))) s

/-! ### LDT, STT (R94) -/

/-- A lane's coordinates (R94). -/
def Group.coords (g : Group) (e : LaneEntry) (b : List Byte) (vb : BitVec 7) (lane : Nat) : List Int :=
  (upFrom 0 (recDims b)).map fun i => recOrigin b i + (g.vreg e (vb.toNat + i) lane).toInt
/-- A trap of the record itself, with its address. -/
def recTrap (act : LaneMask) (addr : DWord) (c : Byte) : Trap :=
  { cause := c, code := 0, addr := addr, lid := lowLane act, poison := false }
/-- Whether T may not go with the record's format (R94): PROTECT. -/
def recMismatch (t rf : BitVec 4) : Bool :=
  (t == 14) != (rf == 14) || (t == 13 && rf ≤ 12)
/-- The in-bounds lanes with their element addresses. -/
def Group.elements (g : Group) (e : LaneEntry) (f : LaneF) (b : List Byte) (act : LaneMask) : List (Nat × DWord) :=
  (maskLanes act).filterMap fun i =>
    let c := g.coords e b f.vb i
    if recIn b c then some (i, recAddr b c) else none
/-- The shared start of LDT and STT: the record, its checks, and the in-bounds lanes' places. -/
def runTensor (ok : Bool) (f : LaneF) (store : Bool)
    (m : State → Group → LaneEntry → LaneMask → List Byte → List LaneTo → LRes) (s : State) : Out :=
  runLane ok f (fun s g e act =>
    let w := s.whoOf s.sched.core g
    let ra := g.scalarOf e (f.va.setWidth 5)
    if act = 0 then .done s
    else
      match s.fetchRecord w e.tag.split laneReader ra with
      | some s1 => .wait s1
      | none =>
      match s.recordRead w ra with
      | .error (.trap c, p) => .trap { recTrap act (if c == cPage then s.badAddr w ra 192 .rd else ra) c with poison := p }
      | .error (.stall, _) => .wait s
      | .ok (s1, b) =>
        let rf := recFormat b
        if 64 < f.vb.toNat + recDims b || (store && f.td != 13 && rf == 13) then .trap (Trap.of cIllegal)
        else if recMismatch f.td rf then .trap (recTrap act ra cProtect)
        else if !g.roomFor (!store) then .wait s
        else
          match s1.laneTargets w rf (if store then .st else .ld) (if store then .wr else .rd) (fun _ => false) (planeField f) (g.elements e f b act) with
          | .error x => x.out s
          | .ok xs => if s.lanesHeld e.tag.split xs then .wait s else m (s1.missWalks w (ra :: xs.map (·.addr))) g e act b xs) s
/-- A padding lane of an LDT: the spec states no value of T = bp for it (log entry 10). -/
def padLane (e : LaneEntry) (f : LaneF) (b : List Byte) (w : LaneWork) (lane : Nat) : LaneWork :=
  let v := recPadding b f.td f.rm
  if f.td = 13 then
    { w with s := w.s.usedFree, parts := w.parts ++ partOf e f.vd f.td lane (w.s.freeVal.toNat % 2 ^ 32) }
  else { w with s := w.s.raiseHere v, parts := w.parts ++ partOf e f.vd f.td lane v.bits }
/-- LDT. -/
def execLdt (f : LaneF) (s : State) : Out :=
  runTensor (laneOk (.ldt f)) f false (fun s g e act b xs =>
    let rf := recFormat b
    let w0 : LaneWork := xs.foldl (loadLane e f (if rf = 13 then none else some rf) (decide (rf ≤ 12)) false) { s := s, parts := [], asks := [] }
    let out := (maskLanes act).filter fun i => !(recIn b (g.coords e b f.vb i))
    let w := out.foldl (padLane e f b) w0
    .done (w.issue e true false f.vd f.td (if rf ≤ 12 then some rf else none) f.rm false (s.laneReach xs)).1) s
/-- STT: converted to the record's format, flags and all. -/
def execStt (f : LaneF) (s : State) : Out :=
  runTensor (laneOk (.stt f)) f true (fun s g e act b xs =>
    let rf := recFormat b
    let conv := fun (x : LaneTo) =>
      let v := g.src e f.w2 f.vc f.td x.lane
      if rf ≤ 12 then convert f.td rf f.rm (f.fn.getLsbD 0) v else Num.pure v
    let s1 := xs.foldl (fun a x => a.raiseHere (conv x)) s
    match storeLanes s1 e (bytesIn rf) rf act (xs.map fun x => (x, (conv x).bits)) with
    | .trap t => .trap t
    | r => r) s

/-! ### ATOM, CAS, LDA, STR (R95 to R98) -/

/-- The scope field of an atomic form (R92). -/
def laneScope (f : LaneF) : BitVec 2 := (f.fn >>> 4).setWidth 2
/-- The widest scope the lanes act at: team where all lie in the scratchpad (R96). -/
def laneActs (f : LaneF) (xs : List LaneTo) : BitVec 2 :=
  xs.foldl (fun a x => wider a (actScope (laneScope f) x.place.seg)) 0
/-- One lane of an atomic: at another rank it is asked, here `here` performs it and gives the old value. -/
def atomicLane (e : LaneEntry) (f : LaneF) (load : Bool) (op : Nat → HomeOp) (here : State → LaneTo → State × Nat)
    (w : LaneWork) (x : LaneTo) : LaneWork :=
  match x.ask (op x.lane) with
  | some a =>
    if f.rm = 3 then { w with s := (here w.s x).1 }
    else { w with s := w.s.keepForget w.s.sched.core w.s.sched.slot e.tag.split a, asks := w.asks ++ [a] }
  | none =>
    let r := here w.s x
    let s1 := if syncUse f.rm then r.1.scopeMark w.s.sched.core (actScope (laneScope f) x.place.seg) x.place.seg else r.1
    { w with s := s1, parts := if load then w.parts ++ partOf e f.vd f.td x.lane r.2 else w.parts }
/-- Whether a synchronising instruction's homes are asked first: it has lanes at another rank, and their packets are not its only effect. -/
def probesFirst (f : LaneF) (xs : List LaneTo) (asks : List Ask) : Bool :=
  syncUse f.rm && !asks.isEmpty && (decide (asks.length < xs.length) || decide (1 < (askLines Ask.line asks).length))
/-- The number of a need, in a probe of a home. -/
def Need.number : Need → Nat
  | .rd => 0
  | .wr => 1
  | _ => 2
/-- The frame of ATOM, CAS, LDA and STR: checks in every lane, the release, the lanes in ascending LID, the acquire. A synchronising
access of another rank keeps the instruction at the head of the queue until it is answered (R281); where more than one home takes part, all
of them are asked first whether they refuse it (R87, log entry 31). -/
def runAtomic (ok : Bool) (f : LaneF) (need : Need) (load : Bool) (op : Group → LaneEntry → Nat → HomeOp)
    (here : Group → LaneEntry → State → LaneTo → State × Nat) (s : State) : Out :=
  runLane ok f (fun s g e act =>
    let core := s.sched.core
    let refuse := fun (p : LanePlace) => syncUse f.rm && !s.scopePass core (actScope (laneScope f) p.seg) p.seg
    if act = 0 then .done s
    else
      match s.laneTargets (s.whoOf core g) f.td .atom need refuse 0 (g.laneAddrs e f act) with
      | .error x => x.out s
      | .ok xs =>
        let sc := laneActs f xs
        if !g.roomFor load || s.lanesHeld e.tag.split xs then .wait s
        else
          match if releases f.rm then s.releaseFor e.tag.split sc else .ok s with
          | .error s1 => .wait s1
          | .ok s0 =>
            let s1 := s0.missWalks (s.whoOf core g) (xs.map (·.addr))
            let asks := xs.filterMap fun x => x.ask (op g e x.lane)
            if probesFirst f xs asks && g.async.laneProbe != 2 then
              let probe : LaneWork := { s := s1, parts := [], asks := asks.map fun a =>
                { a with op := .scopeProbe need.number (bytesIn f.td) (laneScope f) } }
              let r := probe.issue e false true 96 f.td none 0 false 0
              .wait (r.1.modGroup s.curKey fun x => x.modAsync fun a => { a with laneWait := some r.2, laneProbe := 1 })
            else
            let w := xs.foldl (atomicLane e f load (op g e) (here g e)) { s := s1, parts := [], asks := [] }
            let s2 := if acquires f.rm then w.s.acquire s.curKey e.tag.split sc else w.s
            let w1 : LaneWork := { w with s := s2 }
            let r := w1.issue e load (f.rm == 2) f.vd f.td none 0 false (s.laneReach xs)
            if syncUse f.rm && !w.asks.isEmpty then
              .wait (r.1.modGroup s.curKey fun x => x.modAsync fun a => { a with laneWait := some r.2 })
            else .done r.1) s
/-- One lane's ATOM here, by its use (R96, R172, R260, R277). -/
def atomHere (f : LaneF) (g : Group) (e : LaneEntry) (s : State) (x : LaneTo) : State × Nat :=
  let op := (f.fn &&& 15).toNat
  let b := g.src e f.w2 f.vb f.td x.lane
  let core := s.sched.core
  let p := x.place.seg
  let sc := actScope (laneScope f) p
  let plain : State × Nat :=
    let r := s.rmw core p (bytesIn f.td) sc fun old => some (atomicOp f.td op old b).bits
    (r.1.raiseHere (atomicOp f.td op r.2 b), r.2)
  match p with
  | .scratch _ _ => plain
  | .mem pa =>
    if f.rm = 1 then let r := s.cuUpdate core pa f.td op b; (r.1.raiseHere r.2, 0)
    else if f.rm = 3 then (s.quantAdd core (s.sched.slot * 32 + e.tag.split) p f.td (laneScope f) f.pl (intVal f.td b), 0)
    else plain
  | .remote _ _ _ =>
    if f.rm = 3 then (s.quantAdd core (s.sched.slot * 32 + e.tag.split) p f.td (laneScope f) f.pl (intVal f.td b), 0) else (s, 0)
  | .window _ => plain
/-- ATOM. -/
def execAtom (f : LaneF) (s : State) : Out :=
  runAtomic (laneOk (.atom f)) f .atom (f.vd != 96)
    (fun g e i => .atom ((f.fn &&& 15).setWidth 4) f.td f.rm (laneScope f) (BitVec.ofNat 64 (g.src e f.w2 f.vb f.td i)))
    (atomHere f) s
/-- CAS: bit patterns are compared (R97). -/
def execCas (f : LaneF) (s : State) : Out :=
  runAtomic (laneOk (.cas f)) f .atom true
    (fun g e i => .cas f.td f.rm (laneScope f) (BitVec.ofNat 64 (g.src e f.w2 f.vb f.td i))
      (BitVec.ofNat 64 (g.src e f.w2 f.vc f.td i)))
    (fun g e s x => s.rmw s.sched.core x.place.seg (bytesIn f.td) (actScope (laneScope f) x.place.seg) fun old =>
      if old = g.src e f.w2 f.vb f.td x.lane then some (g.src e f.w2 f.vc f.td x.lane) else none) s
/-- LDA (R98). -/
def execLda (f : LaneF) (s : State) : Out :=
  runAtomic (laneOk (.lda f)) f .rd true (fun _ _ _ => .lda (bytesIn f.td) f.rm (laneScope f))
    (fun _ _ s x => s.rmw s.sched.core x.place.seg (bytesIn f.td) (actScope (laneScope f) x.place.seg) fun _ => none) s
/-- STR (R98). -/
def execStr (f : LaneF) (s : State) : Out :=
  runAtomic (laneOk (.str f)) f .wr false
    (fun g e i => .str (bytesOf (bytesIn f.td) (g.src e f.w2 f.vb f.td i)) f.rm (laneScope f))
    (fun g e s x => s.rmw s.sched.core x.place.seg (bytesIn f.td) (actScope (laneScope f) x.place.seg) fun _ =>
      some (g.src e f.w2 f.vb f.td x.lane)) s

/-! ### PREF (R99, R175) -/

/-- The lines a lane's prefetch brings in; none where the lane is dropped. -/
def State.prefLines (s : State) (w : Who) (addr : DWord) : List Nat :=
  match s.resolve w addr 1 .rd with
  | .ok [g] =>
    (match g.place, g.fmt with
     | .mem pa, none => [pa / 128]
     | .mem pa, some fm => (upFrom 0 fm.2.1).map fun i => planeByte (elemFrame pa) (pa % 65536) (7 - i) / 128
     | _, _ => [])
  | _ => []
/-- One line's prefetch: it counts when the target cache has not all of the line, and is dropped when no miss entry is free (R174). -/
def State.prefLine (s : State) (l2 : Bool) (line : Nat) : State :=
  let core := s.sched.core
  let count := fun (a : State) => a.modCore core fun c => { c with counters := { c.counters with issue := c.counters.issue + 1 } }
  let l1 := (s.core core).l1
  let held := (upFrom (line * 128) 128).all l1.has
  if if l2 then nsHas s.mem.l2 line || (amGet s.mem.msrs line).isSome else held && nsHas s.mem.l2 line then s
  else if s.missesBusy core then s
  else if l2 then (count (s.modMem fun m => { m with msrs := amSet m.msrs line [core] })).wakeUp (.l2MissFill line)
  else
    let s1 := (((if held then s else count s).modMem fun m => m.recall line).l1Room core line).l2Touch line
    let bs := s1.mem.bytes (line * 128) 128
    s1.modCore core fun c =>
      let clean := (upFrom 0 128).foldl (fun m i =>
        if c.l1.has (line * 128 + i) then m else amSet m (line * 128 + i) ((bs[i]?).getD 0)) c.l1.clean
      { c with l1 := { c.l1 with clean := clean, fetched := if held then c.l1.fetched else nsAdd c.l1.fetched line } }
/-- PREF. -/
def execPref (f : LaneF) (s : State) : Out :=
  runLane (laneOk (.pref f)) f (fun s g e act =>
    let w := s.whoOf s.sched.core g
    let lines := (g.laneAddrs e f act).foldl (fun m x => (s.prefLines w x.2).foldl nsAdd m) ([] : NSet)
    .done (lines.foldl (fun a l => a.prefLine (f.fn.getLsbD 0) l.1) s)) s

end Sys2Proof.Machine
end

