-- ==== Sys2Proof/Machine/Answers.lean ====
section
/-! DEFINITION. What the source does with the answers of other ranks (R281, R290, R354, R355, R377), and walks of the rank table (R348,
R349). -/
namespace Sys2Proof.Machine

/-! ### Rank walks (R348, R349) -/

/-- RANK_WALK: a rank that resolves enters the die's cache of 4,096; a table error is reported. -/
def execRankWalk (die rank : Nat) (s : State) : Out :=
  let cache := (amGet s.fabric.ranks die).getD []
  if (amGet cache rank).isSome || !s.permitted rank || s.dev.guardPending.isSome then .next s
  else
    match resolveFrom s rank 8 s.dev.rootNode 0 with
    | .ok r =>
      let s1 := if cache.length < 4096 then s else s.usedFree
      let victim := ((cache[s.freeNat cache.length]?).map (·.1)).getD rank
      let c1 := if cache.length < 4096 then cache else amDel cache victim
      .next (s1.modFab fun f => { f with ranks := amSet f.ranks die (amSet c1 rank r) })
    | .error _ => .next (s.noteRank rank)

/-! ### Answers (R88, R354) -/

/-- The bits an answer's bytes give a destination, with the flags they raise (R42, R52, R89, R94, R95): a last byte of 128 or more holds the
flags of a value already of the destination's type (for bp its page's format); the value is else read as `src` and converted. -/
def Ticket.value (t : Ticket) (bs : List Byte) : Num :=
  if t.src.isNone && bs.length == bytesIn t.ty then Num.pure (leNat bs)
  else
    let v := leNat (bs.take (bs.length - 1))
    let mark := (bs.getLast?).getD 0
    if mark < 128 then (match t.src with
      | none => Num.pure v
      | some x => convert x t.ty t.rm false v)
    else if t.ty = 13 then Num.pure v
    else { bits := v, ff := mark.setWidth 5, fi := (mark >>> 5).setWidth 2 }
/-- A part's value from the answer to its access. -/
def AccPart.fill (t : Ticket) (lane : Bool) (bs : List Byte) (p : AccPart) : AccPart :=
  let v := (t.value bs).bits
  let x : DWord := if lane then (if p.wide then BitVec.ofNat 64 v else (heldAs t.ty v).setWidth 64)
    else if bytesIn t.ty = 4 then sext (BitVec.ofNat 32 v) else BitVec.ofNat 64 v
  { p with value := x, ticket := none }
/-- Fill the parts that wait for a ticket, in order. -/
def fillParts (k : Nat) (t : Ticket) (lane : Bool) : List AccPart → List (List Byte) → List AccPart
  | [], _ => []
  | p :: ps, ds =>
    if p.ticket = some k then p.fill t lane ((ds.head?).getD []) :: fillParts k t lane ps (ds.drop 1)
    else p :: fillParts k t lane ps ds
/-- Keep the line of a `.keep` load, where it came (R354). -/
def State.keepLine (s : State) (t : Ticket) (data : List (List Byte)) : State :=
  match t.keep, data[t.lanes.length]? with
  | some (c, sl, k), some bs =>
    if bs.length = 128 then
      let a := t.addr.toNat
      let line := (t.rank * 16 + a / 2 ^ 39 % 16) * 2 ^ 32 + a % 2 ^ 39 / 128
      s.modMem fun m => { m with keeps := m.keeps.filter (fun x => !(x.core == c && x.slot == sl && x.split == k && x.line == line))
                                            ++ [{ core := c, slot := sl, split := k, line := line, bytes := bs }] }
    else s
  | _, _ => s
/-- The synchronising lane access at the head of the queue has its answers: it leaves the queue, and acquires (R281). Where they say that no
home refuses it, it is to be performed now (R87). -/
def State.laneAnswered (s : State) (key id : Nat) : State :=
  match s.group key with
  | none => s
  | some g =>
    match amGet g.async.access id with
    | none => s
    | some a =>
      if g.async.laneWait != some id || !a.answered then s
      else
        if g.async.laneProbe = 1 then
          s.modGroup key fun x => (x.dropAccess id a).modAsync fun y =>
            { y with laneWait := none, laneProbe := 2, laneMarks := a.parts.map fun p => p.value.toNat % 256 }
        else
        let s1 := s.modGroup key fun x => ((x.landAccess a).dropAccess id a).modAsync fun y => { y with laneWait := none, laneProbe := 0 }
        let f := (g.headInstr.bind (·.2)).bind laneField
        let s2 := match f with
          | some f => if acquires f.rm then s1.acquire key a.split (laneScope f) else s1
          | none => s1
        s2.modGroup key Group.popLane
/-- An answer reaches an access. -/
def State.landAccess (s : State) (core slot id k : Nat) (t : Ticket) (data : List (List Byte)) : State :=
  let key := gkey core slot
  let v := (data.take t.lanes.length).foldl (fun (n : Num) bs => let r := t.value bs; n.raise r.ff r.fi) (Num.pure 0)
  let s1 := s.modGroup key fun g => (if (amGet g.async.access id).isSome then g.raise v.ff v.fi else g).modAsync fun x =>
    { x with access := amMod (fun a => { a with parts := fillParts k t a.lane a.parts data, acks := a.acks.filter (· != k) }) x.access id }
  let held := match s1.group key with
    | some g => g.async.laneWait == some id
    | none => false
  if held then s1.laneAnswered key id else s1.wakeUp (.memoryAccessComplete core slot id)
/-- The instruction a split waits in acquires when its answer comes (R281). -/
def State.replyAcquire (s : State) (core slot split : Nat) (sp : Split) : State :=
  match s.fetch core sp with
  | .instr (.satom _ _ _ scope use _ _) => if acquires use then s.acquire (gkey core slot) split scope else s
  | .instr (.scas _ _ _ scope use _) => if acquires use then s.acquire (gkey core slot) split scope else s
  | _ => s
/-- The access, if any, that belongs to a ticket of a split. -/
def Group.accessOf (g : Group) (k : Nat) : Option (Nat × Access) :=
  g.async.access.find? fun x => x.2.acks.contains k || x.2.parts.any fun p => p.ticket == some k
/-- An answer reaches a split that waits. -/
def State.landSplit (s : State) (core slot split k : Nat) (data : List (List Byte)) : State :=
  let key := gkey core slot
  match s.group key with
  | none => s
  | some g =>
    match g.split split with
    | none => s
    | some sp =>
      let g1 := match g.accessOf k with
        | some x => g.dropAccess x.1 x.2
        | none => g
      let v := leNat ((data.head?).getD [])
      match sp.status with
      | .reply k1 d narrow =>
        if k1 != k then s
        else
          ((s.replyAcquire core slot split sp).modGroup key fun _ => g1).resume key split fun x =>
            (x.setReg d (if narrow then sext (BitVec.ofNat 32 v) else BitVec.ofNat 64 v)).advance
      | .bwait w ph =>
        if w.ticket != some k then s
        else (s.modSplit key split fun x => { x with status := .bwait { w with due := true } ph }).wakeUp (.bwaitRelease core slot split)
      | .waittl w n =>
        if w.ticket != some k then s
        else (s.modSplit key split fun x => { x with status := .waittl { w with due := true } n }).wakeUp (.waittlRelease core slot split)
      | _ => s
/-- An answer reaches a copy entry: source bytes, or an acknowledged write. -/
def State.landCopy (s : State) (e k : Nat) (data : List (List Byte)) : State :=
  (s.modEntry e fun y =>
    let keys := ((y.wait.find? fun x => x.1 == k).map (·.2)).getD []
    let got := (keys.zip data).map fun x => (x.1.1, x.2)
    { y with far := y.far ++ got, wait := y.wait.filter (fun x => x.1 != k), acks := y.acks.filter (· != k) }).wakeUp
      (.copyEntryComplete e)
/-- An answer reaches a matrix operation. -/
def State.landMatrix (s : State) (core op k : Nat) (data : List (List Byte)) : State :=
  let s1 := s.modCore core fun c => { c with engines := { c.engines with matq := c.engines.matq.map fun o =>
    if o.id != op then o
    else
      let keys := ((o.wait.find? fun x => x.1 == k).map (·.2)).getD []
      { o with vals := (keys.zip data).foldl (fun m x => amSet m x.1 x.2) o.vals, wait := o.wait.filter fun x => x.1 != k } } }
  (s1.wakeUp (.mloopStep core)).wakeUp (.matrixOpComplete core)
/-- The rank engine's operation whose sequence bytes a ticket carries has its acknowledgement, or the fault they met. -/
def State.landRank (s : State) (core num k : Nat) (stop : Option (Byte × DWord)) : State :=
  (s.modCore core fun c => { c with engines := { c.engines with rankq := c.engines.rankq.map fun o =>
    if o.num == num then { o with acks := o.acks.filter fun x => x != k, stop := o.stop.or stop } else o } }).wakeUp (.rkencComplete core)
/-- An answer reaches the unit of a coverage launch: points it reads, or a store performed, after which the timeline may go on (R247). -/
def State.landCover (s : State) (l k : Nat) (data : List (List Byte)) : State :=
  (s.modCover l fun c =>
    let keys := ((c.wait.find? fun x => x.1 == k).map (·.2)).getD []
    { c with far := c.far ++ keys.zip data, wait := c.wait.filter (fun x => x.1 != k), acks := amDel c.acks k,
             owed := c.owed || (amGet c.acks k).isSome }).wakeUp (.tileReconstruct l)
/-- A fault at another rank reaches the unit: a read's is met where it was needed, a point's stops reconstruction before its tile, and a log
byte's is reported (R242, R247). -/
def State.faultCover (s : State) (l k : Nat) (cause : Byte) (a : DWord) : State :=
  match s.coverOf l with
  | none => s
  | some (_, c) =>
    let s1 := (s.modCover l fun y =>
      { y with wait := y.wait.filter (fun x => x.1 != k), acks := amDel y.acks k,
               bad := if y.wait.any fun x => x.1 == k then some (cause, a) else y.bad, owed := y.owed || (amGet y.acks k).isSome }).wakeUp
        (.tileReconstruct l)
    match amGet c.acks k with
    | none => s1
    | some (_, true) => (s1.modCover l fun y => { y with final := y.final ||| 1024 }).escalateLaunch l cause a.toNat
    | some (t, false) => s1.coverFail l t cause a
/-- An answer reaches a media job: a page's format, or a store performed, the last of which counts the frame (R280, R342). -/
def State.landJob (s : State) (job k : Nat) (data : List (List Byte)) : State :=
  match amGet s.head.jobs job with
  | none => s
  | some j =>
    let page := (j.wait.find? fun x => x.1 == k).map (·.2)
    let j1 : MediaJob := { j with far := j.far ++ page.toList.zip data, wait := j.wait.filter fun x => x.1 != k, acks := j.acks.filter (· != k) }
    let s1 := s.modJob job fun _ => j1
    match if j.acks.contains k && j1.acks.isEmpty then s1.launch j.launch else none with
    | some x => s1.countFrame job j1 x
    | none => s1
/-- A fault at another rank ends a media job (R342). -/
def State.faultJob (s : State) (job : Nat) : State :=
  match amGet s.head.jobs job with
  | some j => s.endJob job j false
  | none => s
/-- An answer reaches the descriptor lines a reader asked for. -/
def State.landFetch (s : State) (core slot who k : Nat) (data : List (List Byte)) : State :=
  s.modGroup (gkey core slot) fun g => g.modAsync fun x =>
    let mine := (x.fetches.filter fun f => f.who == who && f.ticket == k).map (·.addr)
    { x with fetches := x.fetches.map fun f =>
      match (mine.zip data).find? fun y => f.who == who && f.ticket == k && y.1 == f.addr with
      | some y => { f with bytes := some y.2 }
      | none => f }
/-- An answer reaches the owner of its ticket. -/
def State.landTicket (s : State) (k : Nat) (data : List (List Byte)) : State :=
  match amGet s.fabric.tickets k with
  | none => s
  | some t =>
    let s0 := (s.dropTicket k).keepLine t data
    match t.owner with
    | .access core slot id => s0.landAccess core slot id k t data
    | .split core slot split => s0.landSplit core slot split k data
    | .fetch core slot who => s0.landFetch core slot who k data
    | .copy e => s0.landCopy e k data
    | .matrix core op => s0.landMatrix core op k data
    | .rank core num => s0.landRank core num k none
    | .cover l => s0.landCover l k data
    | .job j => s0.landJob j k data
    | .team team => s0.wakeUp (.teamRetire team)
    | .coll _ => s0
    | .quantum _ => s0
    | .put _ => s0
    | .none => s0

/-! ### Faults found at the target (R355) -/

/-- Other tickets of an access that has ended are nobody's. -/
def State.orphanAccess (s : State) (core slot id : Nat) : State :=
  s.modFab fun f => { f with tickets := amMap (fun _ (t : Ticket) =>
    if t.owner == .access core slot id then { t with owner := .none } else t) f.tickets }
/-- A fault reaches an access: raised precisely where its home made the check (R281), else the group is stopped and escalated. -/
def State.faultAccess (s : State) (core slot id : Nat) (cause : Byte) (precise : Bool) (lane : Nat) (addr : DWord) : State :=
  let key := gkey core slot
  match s.group key with
  | none => s
  | some g =>
    match amGet g.async.access id with
    | none => s
    | some a =>
      let head := g.async.laneWait == some id
      let s1 := (s.orphanAccess core slot id).modGroup key fun x =>
        (x.dropAccess id a).modAsync fun y => if head then { y with laneWait := none, laneProbe := 0 } else y
      let tag := (g.async.laneq.head?).map (·.tag)
      if precise && head then
        s1.takeTrap key a.split { cause := cause, code := 0, addr := addr, lid := lane, poison := false } tag
      else
        let sp := g.split a.split
        s1.escalateGroup key { cause := cause, addr := addr, lane := a.lane, split := a.split,
                               pc := (sp.map (·.pc)).getD 0, lp := (sp.map (·.lp)).getD 0 }
/-- A fault reaches a split that waits for an answer. -/
def State.faultSplit (s : State) (core slot split k : Nat) (cause : Byte) (precise : Bool) (addr : DWord) : State :=
  let key := gkey core slot
  match s.group key with
  | none => s
  | some g =>
    match g.split split with
    | none => s
    | some sp =>
      let mine := match sp.status with
        | .reply k1 _ _ => k1 == k
        | .bwait w _ => w.ticket == some k
        | .waittl w _ => w.ticket == some k
        | _ => false
      if !mine then s
      else
        let s1 := s.modGroup key fun x =>
          let y := match x.accessOf k with
            | some a => x.dropAccess a.1 a.2
            | none => x
          y.modSplit split fun z => { z with status := .ready }
        if precise then s1.takeTrap key split (Trap.at_ cause addr) none
        else s1.escalateGroup key { cause := cause, addr := addr, lane := false, split := split, pc := sp.pc, lp := sp.lp }
/-- A fault reaches a reader that waits for descriptor lines (R355). -/
def State.faultFetch (s : State) (core slot who k : Nat) (cause : Byte) (addr : DWord) : State :=
  let key := gkey core slot
  match s.group key with
  | none => s
  | some g =>
    if !(g.async.fetches.any fun f => f.who == who && f.ticket == k) then s
    else
      let lane := who == laneReader
      let split := if lane then ((g.async.laneq.head?).map (·.tag.split)).getD 0 else who
      let sp := g.split split
      (s.modGroup key fun x => x.modAsync (Async.endFetch who)).escalateGroup key
        { cause := cause, addr := addr, lane := lane, split := split, pc := (sp.map (·.pc)).getD 0, lp := (sp.map (·.lp)).getD 0 }
/-- A collective that ends with its tile unchanged (R389, R390, R393). -/
def CollOut.stop (status : Nat) : CollOut := { status := status, count := 0, nan := false, rerun := false, words := [] }
/-- The collective that a team's engine is at takes its outcome, once. -/
def State.collEnd (s : State) (team : Nat) (o : CollOut) : State :=
  s.modTeam team fun t => { t with colls := t.colls.map fun c => if c.begun && c.out.isNone then { c with out := some o } else c }
/-- A fault reaches the owner of a ticket. -/
def State.faultTicket (s : State) (k : Nat) (cause : Byte) (precise : Bool) (index : Nat) : State :=
  match amGet s.fabric.tickets k with
  | none => s
  | some t =>
    let s0 := s.dropTicket k
    let x := (t.lanes[index]?).getD (0, t.addr)
    match t.owner with
    | .access core slot id => s0.faultAccess core slot id cause precise x.1 x.2
    | .split core slot split => s0.faultSplit core slot split k cause precise x.2
    | .fetch core slot who => s0.faultFetch core slot who k cause x.2
    | .copy e =>
      (s0.modEntry e fun y =>
        { y with status := 4, wait := y.wait.filter (fun z => z.1 != k), acks := y.acks.filter (· != k) }).wakeUp (.copyEntryComplete e)
    | .matrix core op =>
      let s1 := s0.modCore core fun c => { c with engines := { c.engines with matq := c.engines.matq.map fun o =>
        if o.id != op then o
        else { o with stop := some (o.stop.getD (cause, x.2)), wait := o.wait.filter fun z => z.1 != k } } }
      (s1.wakeUp (.mloopStep core)).wakeUp (.matrixOpComplete core)
    | .rank core num => s0.landRank core num k (some (cause, x.2))
    | .cover l => s0.faultCover l k cause x.2
    | .job j => s0.faultJob j
    | .put p =>
      let senders := ((amGet s0.fabric.puts p).map (·.senders)).getD []
      s0.putDone p (allStatus senders 2)
    | .team team => s0.wakeUp (.teamRetire team)
    | .coll team => s0.collEnd team (CollOut.stop 4)
    | .quantum _ => s0
    | .none => s0
/-- TARGET_FAULT_ANSWER. -/
def execTargetFaultAnswer (ticket : Nat) (cause : BitVec 8) (precise : Bool) (index : Nat) (s : State) : Out :=
  .next (s.faultTicket ticket cause precise index)

end Sys2Proof.Machine
end

