-- ==== Sys2Proof/Machine/Branch.lean ====
section
/-! DEFINITION. Branches, jumps, calls, and feeding the lanes (R8, R143 to R146). -/
namespace Sys2Proof.Machine

/-- The target of a branch: PC + 4 + 4 × disp (R10). -/
def branchTarget (pc : DWord) (disp : BitVec 16) : DWord := pc + 4 + sext disp <<< 2
/-- A target with bits [63:18] or [1:0] nonzero (R10, R144). -/
def badTarget (t : DWord) : Bool := decide (2 ^ 18 ≤ t.toNat) || t.toNat % 4 != 0
/-- The trap a target raises for a transfer that stays in its slot (R10): ALIGN outside instruction memory, SEGMENT_CROSS in another slot. -/
def targetTrap (pc target : DWord) : Option Trap :=
  if badTarget target then some (Trap.of cAlign) else if pcSlot pc == pcSlot target then none else some (Trap.of cSegment)

/-- A branch (R143): the slot check holds whether it is taken or not. -/
def branch (disp : BitVec 16) (c : Split → Bool) (s : State) : Out :=
  runScalar true (fun s g sp =>
    let t := branchTarget sp.pc disp
    match targetTrap sp.pc t with
    | some x => .trap x
    | none => .done (s.put g (if c sp then sp.goto t else sp.advance))) s

def execBeq (a b : SReg) (disp : BitVec 16) (s : State) : Out := branch disp (fun sp => sp.reg a == sp.reg b) s
def execBne (a b : SReg) (disp : BitVec 16) (s : State) : Out := branch disp (fun sp => sp.reg a != sp.reg b) s
def execBlt (a b : SReg) (disp : BitVec 16) (s : State) : Out := branch disp (fun sp => (sp.reg a).slt (sp.reg b)) s
def execBge (a b : SReg) (disp : BitVec 16) (s : State) : Out := branch disp (fun sp => !(sp.reg a).slt (sp.reg b)) s
def execBltn (a b : SReg) (disp : BitVec 16) (s : State) : Out := branch disp (fun sp => (sp.reg a).ult (sp.reg b)) s
def execBgen (a b : SReg) (disp : BitVec 16) (s : State) : Out := branch disp (fun sp => !(sp.reg a).ult (sp.reg b)) s
def execBct (c : BitVec 3) (disp : BitVec 16) (s : State) : Out := branch disp (fun sp => sp.cbit c) s
def execBcf (c : BitVec 3) (disp : BitVec 16) (s : State) : Out := branch disp (fun sp => !sp.cbit c) s

/-- JAL (R144): s31 ← PC + 4. -/
def execJal (disp : BitVec 26) (s : State) : Out :=
  runScalar true (fun s g sp =>
    let t := sp.pc + 4 + sext disp <<< 2
    match targetTrap sp.pc t with
    | some x => .trap x
    | none => .done (s.put g ((sp.setReg 31 (sp.pc + 4)).goto t))) s
/-- JALR (R144): the link is written after the target is formed. -/
def execJalr (d a : SReg) (imm : BitVec 16) (s : State) : Out :=
  runScalar true (fun s g sp =>
    let t := sp.reg a + sext imm <<< 2
    match targetTrap sp.pc t with
    | some x => .trap x
    | none => .done (s.put g ((sp.setReg d (sp.pc + 4)).goto t))) s
/-- JMPF (R144): any slot, once it has landed. -/
def execJmpf (d a : SReg) (imm : BitVec 16) (s : State) : Out :=
  runScalar true (fun s g sp =>
    let t := sp.reg a + zext imm <<< 2
    if badTarget t then .trap (Trap.of cAlign)
    else if (s.codeSlot s.sched.core (pcSlot t)).state == .landed then .done (s.put g ((sp.setReg d (sp.pc + 4)).goto t))
    else .trap (Trap.at_ cOverlay (BitVec.ofNat 64 (pcSlot t * 8192)))) s

/-- CALL (R145): the return word holds lp and PC + 4, and the window moves up by 8k. -/
def execCall (k : BitVec 5) (disp : BitVec 16) (s : State) : Out :=
  runScalar (scalarOk (.call k disp)) (fun s g sp =>
    let t := branchTarget sp.pc disp
    let top := if g.csrs.rsb + g.size - 1 < 511 then g.csrs.rsb + g.size - 1 else 511
    match targetTrap sp.pc t with
    | some x => .trap x
    | none =>
      if top < sp.wb + 8 * k.toNat + 63 then .trap (Trap.of cWindowOver)
      else
        let sp1 := sp.setReg 31 (sp.lp.setWidth 64 <<< 32 ||| (sp.pc + 4))
        .done (s.put g ({ sp1 with wb := sp.wb + 8 * k.toNat }.goto t))) s
/-- RET (R145). -/
def execRet (k : BitVec 3) (s : State) : Out :=
  runScalar true (fun s g sp =>
    let w := sp.reg 31
    let rpc := (w.setWidth 32).setWidth 64
    let rlp := (w >>> 32).setWidth 32
    match targetTrap sp.pc rpc with
    | some x => .trap x
    | none =>
      if sp.wb < 8 * k.toNat || sp.wb - 8 * k.toNat < g.csrs.rsb then .trap (Trap.of cWindowUnder)
      else .done (s.put g ({ sp with wb := sp.wb - 8 * k.toNat, lp := rlp }.goto rpc))) s

/-- The address of lane instruction `lp` (R7): 682 to a slot. -/
def laneAddr (lp : Nat) : Nat := lp / 682 * 8192 + lp % 682 * 12
/-- The entries of a run from index `lp`, with the bits read now (R176). -/
def laneEntries (c : Core) (split : Nat) (sp : Split) (lp n : Nat) (inh : Bool) : List LaneEntry :=
  (upFrom lp n).map fun i =>
    { bits := BitVec.ofNat 96 (leNat (c.codeBytes (laneAddr i) 12))
      tag := { split := split, mask := sp.mask, wb := sp.wb, pc := sp.pc, lp := BitVec.ofNat 32 i, regs := none, inh := inh } }
/-- How much of the LRUN at the split's PC and lp is enqueued already (log entry 13). -/
def Split.runDone (sp : Split) : Nat := ((sp.runs.find? fun r => r.1 == sp.pc && r.2.1 == sp.lp).map (·.2.2)).getD 0
def Split.setRun (sp : Split) (k : Nat) : Split :=
  let rest := sp.runs.filter fun r => !(r.1 == sp.pc && r.2.1 == sp.lp)
  { sp with runs := if k = 0 then rest else (sp.pc, sp.lp, k) :: rest }
/-- LRUN (R8, R124): the checks, then the entries as the queue has room; it completes with its last one. -/
def execLrun (n : BitVec 16) (s : State) : Out :=
  runScalar (scalarOk (.lrun n)) (fun s g sp =>
    let lp := sp.lp.toNat
    let had := sp.runDone
    if 21824 ≤ lp then .trap (Trap.of cIllegal)
    else if (lp + n.toNat - 1) / 682 != lp / 682 then .trap (Trap.of cSegment)
    else if (s.codeSlot s.sched.core (lp / 682)).state != .landed then
      .trap (Trap.at_ cOverlay (BitVec.ofNat 64 (lp / 682 * 8192)))
    else
      let room := 64 - g.async.laneq.length
      let left := n.toNat - had
      let k := if left < room then left else room
      let es := laneEntries (s.core s.sched.core) s.sched.split sp (lp + had) k g.ctl.trapSplit.isSome
      let g1 := g.modAsync fun a => { a with laneq := a.laneq ++ es }
      if k = left then .done (s.put g1 { (sp.setRun 0).advance with lp := sp.lp + BitVec.ofNat 32 n.toNat })
      else .wait (s.put g1 (sp.setRun (had + k)))) s
/-- LSET (R146): lp ← s[a] + zext(imm), modulo 2^32, unchecked. -/
def execLset (a : SReg) (imm : BitVec 16) (s : State) : Out :=
  runPure (fun g sp => (g, { sp with lp := (sp.reg a).setWidth 32 + imm.setWidth 32 }.advance)) s

end Sys2Proof.Machine
end

