-- ==== Sys2Proof/Machine/Exchange.lean ====
section
/-! DEFINITION. Lane exchange: SHFL, VOTE, REDL, SCAN (R100 to R105) and XSHFL with its commit (R223, R224). -/
namespace Sys2Proof.Machine

/-! ### SHFL and VOTE (R101, R102) -/

/-- SHFL's source lane for lane `i` with selector `b` in segments of `w`: the lane and whether it is valid. -/
def shflFrom (mode w i b : Nat) : Nat × Bool :=
  let lo := i - i % w
  match mode with
  | 0 => (lo + b % w, true)
  | 1 => (i - b, !(decide (w ≤ b) || decide (i < lo + b)))
  | 2 => (i + b, !(decide (w ≤ b) || decide (lo + w ≤ i + b)))
  | _ => (i ^^^ (b % w), true)
/-- The segment size of SHFL (R100). -/
def shflWidth (fn : BitVec 7) : Nat := if (fn >>> 2) = 0 then 32 else 2 ^ (fn >>> 2).toNat
/-- SHFL. -/
def execShfl (f : LaneF) (s : State) : Out :=
  runLanePure (laneOk (.shfl f)) f (fun g e act =>
    let src := fun i : Nat =>
      let x := shflFrom (f.fn &&& 3).toNat (shflWidth f.fn) i (g.src e f.w2 f.vb 5 i)
      (x.1, x.2 && act.getLsbD x.1)
    (g.laneWrite e f.vd f.td act fun i => Num.pure (g.src e f.w2 f.va f.td (if (src i).2 then (src i).1 else i))).predWrite
      f.vc.toNat act fun i => (src i).2) s
/-- VOTE's result over the active lanes (R102). -/
def voteOf (mode : Nat) (act p : LaneMask) : Word :=
  let t := act &&& p
  match mode with
  | 0 => if t = act then 1 else 0
  | 1 => if t = 0 then 0 else 1
  | 2 => if t = act || t = 0 then 1 else 0
  | _ => t
/-- VOTE. -/
def execVote (f : LaneF) (s : State) : Out :=
  runLanePure (laneOk (.vote f)) f (fun g e act =>
    let p := g.pred f.va.toNat
    let v := voteOf (f.fn &&& 3).toNat act (if f.fn.getLsbD 2 then ~~~p else p)
    if scalarCode f.vd then g.setScalarOf e (f.vd.setWidth 5) (v.setWidth 64)
    else g.laneWrite e f.vd 5 act fun _ => Num.pure v.toNat) s

/-! ### REDL and SCAN (R54, R103, R104) -/

/-- A reduction's combining operation. -/
def redOp (t : BitVec 4) (rm : BitVec 3) (op : Nat) (a b : Nat) : Num :=
  match op with
  | 0 => if t = 12 then fAdd t rm a b else atomicOp t 0 a b
  | 1 => atomicOp t 4 a b
  | 2 => atomicOp t 5 a b
  | 3 => atomicOp t 1 a b
  | 4 => atomicOp t 2 a b
  | 5 => atomicOp t 3 a b
  | k => atomicOp t k a b
/-- The result over no active lane (R103). -/
def redEmpty (t : BitVec 4) (op : Nat) : Nat :=
  let w := widthOf t
  if t = 12 then (if op = 1 || op = 6 then 0x7F800000 else if op = 2 || op = 7 then 0xFF800000 else 0)
  else
    match op with
    | 1 => wrapInt w (intMax t)
    | 2 => wrapInt w (intMin t)
    | 3 => 2 ^ w - 1
    | _ => 0
/-- One level of the tree: adjacent results combine, one alone passes on. -/
def redLevel (f : Nat → Nat → Num) : List (Option Num) → List (Option Num)
  | some x :: some y :: rest => some ((f x.bits y.bits).raise (x.ff ||| y.ff) (x.fi ||| y.fi)) :: redLevel f rest
  | x :: y :: rest => x.or y :: redLevel f rest
  | xs => xs
/-- The pairwise tree over 32 lanes (R54). -/
def redTree (t : BitVec 4) (rm : BitVec 3) (op : Nat) (act : LaneMask) (v : Nat → Nat) : Num :=
  let xs := lanes32.map fun i => if act.getLsbD i then some (Num.pure (v i)) else none
  let r := (upFrom 0 5).foldl (fun l _ => redLevel (redOp t rm op) l) xs
  ((r.head?).bind id).getD (Num.pure (redEmpty t op))
/-- REDL. -/
def execRedl (f : LaneF) (s : State) : Out :=
  runLanePure (laneOk (.redl f)) f (fun g e act =>
    let n := redTree f.td f.rm (f.fn &&& 7).toNat act fun i => g.src e f.w2 f.va f.td i
    if scalarCode f.vd then
      (g.setScalarOf e (f.vd.setWidth 5) (if f.td = 4 then sext (BitVec.ofNat 32 n.bits) else BitVec.ofNat 64 n.bits)).raise n.ff n.fi
    else (g.laneWrite e f.vd f.td act fun _ => Num.pure n.bits).raise n.ff n.fi) s
/-- The left fold of SCAN: each active lane's output, and the flags (R54, R104). -/
def scanFold (f : Nat → Nat → Num) (v : Nat → Nat) (excl : Bool) : List Nat → Option Nat → Nat → Num × List (Nat × Nat)
  | [], _, _ => (Num.pure 0, [])
  | i :: rest, acc, empty =>
    let n := match acc with
      | none => Num.pure (v i)
      | some a => f a (v i)
    let out := if excl then acc.getD empty else n.bits
    let r := scanFold f v excl rest (some n.bits) empty
    (r.1.raise n.ff n.fi, (i, out) :: r.2)
/-- SCAN: with `.excl` the step past the last active lane is not made. -/
def execScan (f : LaneF) (s : State) : Out :=
  runLanePure (laneOk (.scan f)) f (fun g e act =>
    let op := (f.fn &&& 7).toNat
    let excl := f.fn.getLsbD 3
    let v := fun i => g.src e f.w2 f.va f.td i
    let r := scanFold (redOp f.td f.rm op) v excl (maskLanes act) none (redEmpty f.td op)
    let made := scanFold (redOp f.td f.rm op) v excl (if excl then (maskLanes act).dropLast else maskLanes act) none 0
    let out := fun i => ((r.2.find? fun x => x.1 == i).map (·.2)).getD 0
    (g.laneWrite e f.vd f.td act fun i => Num.pure (out i)).raise made.1.ff made.1.fi) s

/-! ### XSHFL (R223, R224) -/

/-- The fields of a partner word: generation, tag, location; none when a reserved bit is set or the cluster is 12 to 15. -/
def partnerWord (w : DWord) : Option (Half × Byte × Nat × Nat) :=
  let n := w.toNat
  if bitsOf n 48 16 != 0 || bitsOf n 24 8 != 0 || bitsOf n 14 2 != 0 then none
  else (ofLocid (bitsOf n 0 14)).map fun x => (BitVec.ofNat 16 (bitsOf n 32 16), BitVec.ofNat 8 (bitsOf n 16 8), x.1, x.2)
/-- The lane an XSHFL takes its value from. -/
def XWait.from_ (x : XWait) (i : Nat) : Nat :=
  let b := stGet 0 x.sels i % 32
  if x.mode = 1 then b else if x.mode = 2 then i ^^^ b else i
/-- What one side writes, given the other side's record; without one every lane keeps its own value. -/
def Group.xwrite (g : Group) (x : XWait) (other : Option XWait) : Group :=
  let ok := fun i => match other with
    | some y => y.wide == x.wide && y.lanes.getLsbD (x.from_ i)
    | none => false
  let val : Nat → DWord := fun i => match other with
    | some y => if ok i then stGet 0 y.values (x.from_ i) else stGet 0 x.values i
    | none => stGet 0 x.values i
  let g1 := (maskLanes x.lanes).foldl (fun a i =>
    if 512 ≤ x.vd then a
    else
      let b := a.setSlot x.vd i ((val i).setWidth 32)
      if x.wide then b.setSlot (x.vd + 1) i ((val i >>> 32).setWidth 32) else b) g
  { g1.predWrite x.pv x.lanes ok with async := { g1.async with xshfl := none } }
/-- Whether a waiting XSHFL of the group at `key` names another group slot at its current generation, and the tag. -/
def State.xnames (s : State) (key other : Nat) (tag : Byte) : Bool :=
  match (s.group key).bind fun g => g.async.xshfl with
  | some x => gkey x.core x.slot == other && x.gen == s.gen other && x.tag == tag
  | none => false
/-- XSHFL at issue: it records its lanes; with an empty partner slot or another generation it completes at once. A slot of another launch
raises PROTECT before the generation is tested (log entry 80), where a lane is active (R14). -/
def execXshfl (f : LaneF) (s : State) : Out :=
  runLane (laneOk (.xshfl f)) f (fun s g e act =>
    match partnerWord (g.scalarOf e (f.vb.setWidth 5)) with
    | none => .trap (Trap.of cIllegal)
    | some (gen, tag, core, slot) =>
      let other := gkey core slot
      let wide := wideType f.td
      let mode := (f.fn &&& 3).toNat
      let x : XWait :=
        { core := core, slot := slot, gen := gen, tag := tag, wide := wide, mode := mode, lanes := act,
          values := (maskLanes act).foldl (fun m i => stSet 0 m i (BitVec.ofNat 64 (g.src e f.w2 f.va f.td i))) [],
          sels := if mode = 0 then [] else (maskLanes act).foldl (fun m i => stSet 0 m i (g.src e f.w2 f.vc 5 i)) [],
          vd := if f.vd ≤ 63 then e.tag.wb + f.vd.toNat else 512, pv := ((f.fn >>> 2) &&& 7).toNat, since := s.now }
      if other = s.curKey then .trap (Trap.of cIllegal)
      else
        match s.group other with
        | none => .done (s.putGroup s.curKey (g.xwrite x none))
        | some o =>
          if o.launch != g.launch then (if act = 0 then .done (s.putGroup s.curKey (g.xwrite x none)) else .trap (Trap.of cProtect))
          else if s.gen other != gen then .done (s.putGroup s.curKey (g.xwrite x none))
          else
            let s1 := s.putGroup s.curKey (g.modAsync fun a => { a with xshfl := some x })
            .wait (if s1.xnames other s.curKey tag then s1.wakeUp (.xshflCommit s.sched.core s.sched.slot core slot) else s1)) s
/-- XSHFL_COMMIT: both have issued and name each other; each writes its recorded lanes and leaves its queue. -/
def execXshflCommit (coreA slotA coreB slotB : Nat) (s : State) : Out :=
  let ka := gkey coreA slotA
  let kb := gkey coreB slotB
  match s.group ka, s.group kb with
  | some a, some b =>
    (match a.async.xshfl, b.async.xshfl with
     | some x, some y =>
       .next (if ka != kb && s.xnames ka kb y.tag && s.xnames kb ka x.tag then
         (s.putGroup ka (a.xwrite x (some y)).popLane).putGroup kb (b.xwrite y (some x)).popLane else s)
     | _, _ => .next s)
  | _, _ => .next s

end Sys2Proof.Machine
end

