-- ==== Sys2Proof/Machine/Homes.lean ====
section
/-! DEFINITION. What a home does with the accesses a packet of another rank asks of it (R281, R290, R345, R354, R355). -/
namespace Sys2Proof.Machine

/-! ### A communicator record (R380) -/

def crP (b : List Byte) : Nat := bitsOf (field b 0 8) 8 16
def crSelf (b : List Byte) : Nat := bitsOf (field b 0 8) 24 16
def crRoot (b : List Byte) : Nat := bitsOf (field b 0 8) 40 16
def crOpx (b : List Byte) : Nat := bitsOf (field b 0 8) 4 2
def crAlg (b : List Byte) : Nat := bitsOf (field b 0 8) 0 2
def crCellRank (b : List Byte) : Nat := bitsOf (field b 16 8) 0 20
def crCellDie (b : List Byte) : Nat := bitsOf (field b 16 8) 20 2
def crCell0 (b : List Byte) : Nat := bitsOf (field b 16 8) 32 8
def crCells (b : List Byte) : Nat := bitsOf (field b 16 8) 40 8 + 1
/-- TIMER in microseconds. -/
def crTimer (b : List Byte) : Nat := if field b 24 2 = 0 then 20 else field b 24 2
def crRound (b : List Byte) : Half := BitVec.ofNat 16 (field b 28 2)
def crScr (b : List Byte) : Nat := field b 32 3
def crMembers (b : List Byte) : Nat := field b 40 8

/-! ### Places -/

/-- What an operation needs of its page, and how many bytes it touches. -/
def opNeed : HomeOp → Need
  | .put _ => .wr
  | .putElement _ => .wr
  | .str _ _ _ => .wr
  | .get _ => .rd
  | .getFormat _ _ _ _ => .rd
  | .pageFormat => .wr
  | .scopeProbe k _ _ => if k = 0 then .rd else if k = 1 then .wr else .atom
  | .line => .rd
  | .lda _ _ _ => .rd
  | .atom _ _ _ _ _ => .atom
  | .cas _ _ _ _ _ => .atom
  | .sync _ _ _ _ => .atom
  | .count _ => .atom
def opSize : HomeOp → Nat
  | .put d => d.length
  | .putElement _ => 1
  | .str d _ _ => d.length
  | .get n => n
  | .getFormat _ t _ _ => (t.map bytesIn).getD 1
  | .pageFormat => 1
  | .scopeProbe _ n _ => n
  | .line => 128
  | .lda n _ _ => n
  | .atom _ t _ _ _ => bytesIn t
  | .cas t _ _ _ _ => bytesIn t
  | .sync _ _ _ _ => 8
  | .count _ => 8
/-- What stops an access at its home: the cause, and whether it is raised precisely at the source (R355). -/
abbrev HomeStop := Byte × Bool
/-- The places of `n` bytes of an exported region (R345): the region's rights, then the page's. -/
def State.homeSegs (s : State) (region : BitVec 4) (off n : Nat) (need : Need) : Except HomeStop (List Seg) :=
  match s.regionCheck region.toNat off n need with
  | none => .error (cProtect, false)
  | some (asid, va) =>
    match gather (s.localParts (devWho asid 0) asid need (pageParts va n)) with
    | .ok gs => .ok gs
    | .error (.trap c) => .error (c, false)
    | .error .stall => .error (cPage, false)
/-- The bytes of its page that an operation needs: one of a format page for an element load (R91), else all. -/
def State.homeSize (s : State) (asid va : Nat) (op : HomeOp) : Nat :=
  match op with
  | .getFormat _ _ _ _ => (match s.localPart (devWho asid 0) asid .rd (va, 1) with
      | .ok g => if g.fmt.isSome then 1 else opSize op
      | .error _ => 1)
  | _ => opSize op
/-- The pages an operation lacks: address space and virtual address. A `.keep` line is not waited for; the timeline window has no pages
(R422). -/
def State.homeMissing (s : State) (region : BitVec 4) (x : BitVec 39 × HomeOp) : List (Nat × Nat) :=
  match x.2 with
  | .line => []
  | op =>
    match s.regionCheck region.toNat x.1.toNat 1 (opNeed op) with
    | none => []
    | some (asid, va) =>
      let n := s.homeSize asid va op
      if (s.regionCheck region.toNat x.1.toNat n (opNeed op)).isNone then []
      else (pageParts va n).filterMap fun p =>
        if Config.timelineBase ≤ p.1 then none
        else
          match s.leafOf (devWho asid 0) asid p.1 with
          | .error _ => some (asid, p.1)
          | .ok _ => none
/-- An RCB of a running launch that maps a page on demand (R304, R309); else an address that no RCB has. -/
def State.packetRcb (s : State) (asid va : Nat) : Nat :=
  ((s.head.launches.find? fun l => l.2.asid == asid && s.onDemand asid l.2.rcb va).map (·.2.rcb)).getD (2 ^ 58)
/-- Serve the pages a packet lacks: true to go on, with pages that cannot be mapped left to fail. -/
def State.homeServe (s : State) (die held : Nat) : List (Nat × Nat) → State × Bool
  | [] => (s, true)
  | (asid, va) :: rest =>
    let r := s.serve die asid va 0 (s.packetRcb asid va) (.packet held)
    let q := r.1.homeServe die held rest
    (q.1, q.2 && r.2.isSome)

/-! ### Operations -/

/-- An element of a format page at its home: the bits of its `p` highest planes, and its block's scale (R303). -/
def Mem.elemAt (m : Mem) (pa : Nat) (fm : Nat × Nat × Nat) (p : Nat) : Mem × Nat × Nat :=
  let r := (upFrom 0 p).foldl (fun (a : Mem × Nat) i =>
    let x := a.1.homeRead (planeByte (elemFrame pa) (pa % 65536) (7 - i)) 1
    (x.1, a.2 + bitsOf (leNat x.2) (pa % 8) 1 * 2 ^ (7 - i))) (m, 0)
  let y := r.1.homeRead (fm.1 + 2 * (pa % 65536 / fm.2.2)) 2
  (y.1, r.2, leNat y.2)
/-- The scope a synchronising operation acts at, and whether its home's checker runs (R281). -/
def opScope : HomeOp → Option (BitVec 2)
  | .lda _ u sc => if syncUse u then some sc else none
  | .str _ u sc => if syncUse u then some sc else none
  | .atom _ _ u sc _ => if syncUse u then some sc else none
  | .cas _ u sc _ _ => if syncUse u then some sc else none
  | .scopeProbe _ _ sc => some sc
  | _ => none
/-- Whether the line of an access passes the scope checker for a party; only package memory has scope records (R262). -/
def State.scopeFits (s : State) (gs : List Seg) (party : Party) : Bool :=
  match placeOf gs with
  | .mem pa => s.scopeOk (pa / 128) party
  | _ => true
/-- What an access of ordinary bytes meets where a page of them is a format page (R90, R91). -/
def formatStop (gs : List Seg) : Byte := if anyFmt (gs.take 1) then cProtect else cFormatEdge
/-- The checks on plain bytes at the home: format page, live word, poison, scope. -/
def State.homeCheck (s : State) (party : Party) (region : BitVec 4) (off : Nat) (op : HomeOp) : Except HomeStop (List Seg) :=
  match s.homeSegs region off (opSize op) (opNeed op) with
  | .error e => .error e
  | .ok gs =>
    if anyFmt gs then .error (formatStop gs, false)
    else if (opNeed op) != .rd && s.touchesLive gs then .error (cTagStore, false)
    else if (opNeed op) != .wr && s.touchesPoison gs then .error (cProtect, false)
    else if (opScope op).isSome && !s.scopeFits gs party then .error (cScope, true)
    else .ok gs
/-- Write the scope record after a check (R262). -/
def State.homeMark (s : State) (party : Party) (op : HomeOp) (gs : List Seg) : State :=
  match opScope op, placeOf gs with
  | some sc, .mem pa => s.setScope (pa / 128) sc party
  | _, _ => s
/-- The last byte of an answer that carries flags (R51, R52, R95); 0 stands for ordinary bytes. -/
def flagMark (n : Num) : List Byte := [0x80 ||| n.fi.setWidth 8 <<< 5 ||| n.ff.setWidth 8]
/-- The stored planes and block length of a format page, as one byte. -/
def pageMark (fm : Nat × Nat × Nat) : List Byte := [0x80 ||| (if fm.2.2 = 64 then 0x40 else 0) ||| BitVec.ofNat 8 fm.2.1]
/-- An element load (R89, R94): the element as `t` with its flags, or with its page's format for bp; ordinary bytes of type `plain`. -/
def State.homeElement (s : State) (region : BitVec 4) (off : Nat) (t : BitVec 4) (plain : Option (BitVec 4)) (rm pl : BitVec 3) :
    Except HomeStop (State × List Byte) :=
  match s.homeSegs region off 1 .rd with
  | .error e => .error e
  | .ok [{ place := .mem pa, len := _, va := _, fmt := some fm }] =>
    let p := loadPlanes t pl fm.2.1
    if t = 14 || (formatLines pa 1 (fm.1, p, fm.2.2)).any (nsHas s.mem.poison) then .error (cProtect, false)
    else
      let r := s.mem.elemAt pa fm p
      let v := elemValue t rm p r.2.2 r.2.1
      .ok ({ s with mem := r.1 }, bytesOf (bytesIn t) v.bits ++ (if t = 13 then pageMark fm else flagMark v))
  | .ok _ =>
    match plain with
    | none => .error (cProtect, false)
    | some x =>
      match s.homeSegs region off (bytesIn x) .rd with
      | .error e => .error e
      | .ok gs =>
        if anyFmt gs then .error (cFormatEdge, false)
        else if s.touchesPoison gs then .error (cProtect, false)
        else let r := s.segsHomeRead gs; .ok (r.1, r.2 ++ [0])
/-- The format of the page that whole blocks are to be stored to (R90). -/
def State.homeFormat (s : State) (region : BitVec 4) (off : Nat) : Except HomeStop (List Byte) :=
  match s.homeSegs region off 1 .wr with
  | .error e => .error e
  | .ok [{ place := .mem _, len := _, va := _, fmt := some fm }] => .ok (pageMark fm)
  | .ok _ => .error (cProtect, false)
/-- The sync-word operation of a sub-operation number (R288). -/
def wordOpOf (sub : BitVec 4) (ctr : Bool) (v : DWord) : WordOp :=
  match sub with
  | 0 => .init ctr v
  | 1 => .free
  | 2 => .arrive v
  | 3 => .phase (v.getLsbD 0)
  | _ => .count v
/-- A sync-word instruction at the word's home (R290 to R295). A wait that is not met is registered, and answered later. -/
def State.homeWord (s : State) (party : Party) (src ticket : Nat) (region : BitVec 4) (off : Nat) (op : WordOp) (scope : BitVec 2) :
    Except HomeStop (State × Option (List Byte)) :=
  match s.homeSegs region off 8 .atom with
  | .error e => .error e
  | .ok gs =>
    let p := placeOf gs
    if anyFmt gs then .error (cProtect, true)
    else if s.touchesPoison gs then .error (cProtect, false)
    else
      match s.wordCheck p op party with
      | some c => .error (c, true)
      | none =>
        let r := s.wordAct p op scope party
        if op.release || op.met r.2 then .ok (r.1, some (bytesOf 8 r.2.toNat))
        else
          let barrier := match op with | .phase _ => true | _ => false
          let w : FarWait := { place := p, rank := src, ticket := ticket, barrier := barrier, value := op.sub.2.2, met := none }
          .ok (r.1.modFab fun f => { f with waits := f.waits ++ [w] }, none)
/-- An engine's addition to a counter word at its home (R238, R286): the old value, PROTECT where it is no live counter, QUEUE_FAULT where
it overflows. -/
def State.homeCount (s : State) (region : BitVec 4) (off : Nat) (n : DWord) : Except HomeStop (State × List Byte) :=
  match s.homeSegs region off 8 .atom with
  | .error e => .error e
  | .ok gs =>
    match placeOf gs with
    | .mem pa =>
      if pa % 8 != 0 || s.mem.live pa != some .counter || s.touchesPoison gs then .error (cProtect, false)
      else
        let r := s.addCounter pa n.toNat
        if r.2 then .error (cQueue, false) else .ok (r.1, bytesOf 8 (s.wordAt pa).toNat)
    | _ => .error (cProtect, false)
/-- One operation but for the stores to format pages: the state and the bytes it answers, none where the answer comes later. -/
def State.homeOne (s : State) (party : Party) (src ticket : Nat) (region : BitVec 4) (off : Nat) (op : HomeOp) :
    Except HomeStop (State × Option (List Byte)) :=
  let plain := fun (f : State → List Seg → State × List Byte) =>
    (s.homeCheck party region off op).map fun gs => let r := f (s.homeMark party op gs) gs; (r.1, some r.2)
  match op with
  | .put d => plain fun a gs => (a.segsHomeWrite gs d, [])
  | .str d _ _ => plain fun a gs => (a.segsHomeWrite gs d, [])
  | .get _ => plain fun a gs => a.segsHomeRead gs
  | .lda _ _ _ => plain fun a gs => a.segsHomeRead gs
  | .line => .ok (match s.homeCheck party region off op with
      | .ok gs => let r := s.segsHomeRead gs; (r.1, some r.2)
      | .error _ => (s, some []))
  | .getFormat t x rm pl => (s.homeElement region off t x rm pl).map fun r => (r.1, some r.2)
  | .pageFormat => (s.homeFormat region off).map fun r => (s, some r)
  | .scopeProbe _ _ _ => (s.homeCheck party region off op).map fun _ => (s, some [])
  | .atom k t _ _ v => plain fun a gs =>
      let r := a.segsHomeRead gs
      let n := atomicOp t k.toNat (leNat r.2) v.toNat
      (r.1.segsHomeWrite gs (bytesOf (bytesIn t) n.bits), r.2 ++ (if t = 12 then flagMark n else []))
  | .cas t _ _ x v => plain fun a gs =>
      let r := a.segsHomeRead gs
      (if leNat r.2 = x.toNat % 2 ^ widthOf t then r.1.segsHomeWrite gs (bytesOf (bytesIn t) v.toNat) else r.1, r.2)
  | .sync sub ctr scope v => s.homeWord party src ticket region off (wordOpOf sub ctr v) scope
  | .putElement _ => .ok (s, some [])
  | .count n => (s.homeCount region off n).map fun r => (r.1, some r.2)

/-! ### Stores to format pages (R90) -/

/-- The elements a packet's element stores name, or the first that cannot be stored, by its index. -/
def State.homeElems (s : State) (region : BitVec 4) : Nat → List (BitVec 39 × HomeOp) →
    Except (Nat × HomeStop) (List (Nat × (Nat × Nat × Nat) × Nat))
  | _, [] => .ok []
  | i, (off, .putElement d) :: rest =>
    match s.homeSegs region off.toNat 1 .wr with
    | .error e => .error (i, e)
    | .ok [{ place := .mem pa, len := _, va := _, fmt := some fm }] =>
      (s.homeElems region (i + 1) rest).map ((pa, fm, d.toNat) :: ·)
    | .ok _ => .error (i, (cProtect, false))
  | i, _ :: rest => s.homeElems region (i + 1) rest
/-- Write whole blocks at their homes. -/
def Mem.homeBlocks (m : Mem) (els : List (Nat × (Nat × Nat × Nat) × Nat)) : Mem :=
  (elemBlocks els).foldl (fun a b =>
    a.homeBlock b.1 b.2 ((lastData els b.1).getD 0 / 65536 % 65536)
      ((upFrom b.1 b.2.2.2).map fun pa => BitVec.ofNat 8 ((lastData els pa).getD 0))) m
/-- A packet's element stores: performed together, or the fault they meet. -/
def State.homeStores (s : State) (region : BitVec 4) (ops : List (BitVec 39 × HomeOp)) : Except (Nat × HomeStop) State :=
  match s.homeElems region 0 ops with
  | .error e => .error e
  | .ok els =>
    match elemCheck els with
    | some c => .error (c.1, (c.2, false))
    | none => .ok (s.modMem fun m => m.homeBlocks els)

/-! ### A packet -/

/-- What a packet's accesses come to: the state, the bytes answered (none while a wait is registered), whether any was performed, and the
first fault with its index. -/
structure HomeRun where
  s : State
  data : List (Option (List Byte))
  any : Bool
  stop : Option (Nat × HomeStop)
deriving DecidableEq, Repr
/-- The first access whose home refuses it precisely: the instruction has no effect (R281, R290). -/
def State.homePrecise (s : State) (party : Party) (src ticket : Nat) (region : BitVec 4) : Nat → List (BitVec 39 × HomeOp) →
    Option (Nat × HomeStop)
  | _, [] => none
  | i, x :: rest =>
    match s.homeOne party src ticket region x.1.toNat x.2 with
    | .error (c, true) => some (i, (c, true))
    | _ => s.homePrecise party src ticket region (i + 1) rest
/-- Perform the accesses in order; one that faults is not performed, the others are (R355). -/
def HomeRun.perform (party : Party) (src ticket : Nat) (region : BitVec 4) : Nat → List (BitVec 39 × HomeOp) → HomeRun → HomeRun
  | _, [], r => r
  | i, x :: rest, r =>
    match r.s.homeOne party src ticket region x.1.toNat x.2 with
    | .error e => HomeRun.perform party src ticket region (i + 1) rest { r with data := r.data ++ [some []], stop := some (r.stop.getD (i, e)) }
    | .ok y => HomeRun.perform party src ticket region (i + 1) rest { r with s := y.1, data := r.data ++ [y.2], any := true }
/-- A packet's accesses at their homes. -/
def State.homeRun (s : State) (party : Party) (src ticket : Nat) (region : BitVec 4) (ops : List (BitVec 39 × HomeOp)) : HomeRun :=
  match s.homePrecise party src ticket region 0 ops with
  | some e => { s := s, data := [], any := false, stop := some e }
  | none =>
    let r := HomeRun.perform party src ticket region 0 ops { s := s, data := [], any := false, stop := none }
    match r.s.homeStores region ops with
    | .ok s1 => { r with s := s1 }
    | .error e => { r with stop := some (r.stop.getD e) }
/-- What the home answers to a run: a fault, the data, or nothing yet. -/
def HomeRun.body (ticket : Nat) (r : HomeRun) : Option PktBody :=
  match r.stop with
  | some (i, c, precise) => some (.fault ticket c precise i)
  | none => if r.data.all Option.isSome then some (.answer ticket (r.data.map fun d => d.getD [])) else none

/-! ### Waits of other ranks (R294, R295) -/

/-- Answer the waits of other ranks that have ended: met, or PROTECT where the word was freed. -/
def State.answerWaits (s : State) : State :=
  let out := s.fabric.waits.filter fun w => w.met.isSome
  if out.isEmpty then s
  else
    out.foldl (fun a w =>
      a.replyTo 0 w.rank w.ticket (if w.met == some true then .answer w.ticket [bytesOf 8 w.value.toNat] else .fault w.ticket cProtect true 0))
      (s.modFab fun f => { f with waits := f.waits.filter fun w => w.met.isNone })

end Sys2Proof.Machine
end

