-- ==== Sys2Proof/Machine/Receive.lean ====
section
/-! DEFINITION. What a packet that has been accepted does here, whichever fabric brought it (R354, R358, R364, R375, R381, R423). -/
namespace Sys2Proof.Machine

/-- How a home sees the rank that sent a packet (R266). -/
def State.partyOf (s : State) (die rank : Nat) : Party :=
  match s.resolveRank die rank with
  | some (0, _, _) => .pod rank
  | _ => .far rank
/-- Answer a packet; one of this device's own comes straight back. -/
def State.answerTo (s : State) (die : Nat) (p : Packet) (body : PktBody) : State :=
  if p.src = s.dev.rank then
    match body with
    | .answer t d => s.landTicket t d
    | .fault t c precise i => s.faultTicket t c precise i
    | _ => s
  else s.replyTo die p.src p.ticket body p.cls
/-- The region counter gains one, or the count is skipped; the first skip after a GUARD is reported (R345, R375, R423). -/
def State.countRegion (s : State) (region : Nat) : State :=
  match (s.dev.regions[region]?).bind regionOf with
  | none => s
  | some (_, _, _, asid, _, _, ctr) =>
    if ctr = 0 then s
    else
      let r := s.tryCount asid ctr 1 (nsHas s.dev.skipNoted region)
      if r.2 then r.1.modDev fun d => { d with skipNoted := nsAdd d.skipNoted region } else r.1

/-! ### Pieces of collectives (R381) -/

def pieceRegion (x : Piece) : BitVec 4 := BitVec.ofNat 4 (x.stage / 2 ^ 39)
def pieceOff (x : Piece) : Nat := x.stage % 2 ^ 39
def pieceBytes (x : Piece) : List Byte := x.words.flatMap fun w => bytesOf 4 w.toNat
/-- What a piece touches: where its bytes land, and the buffer's counter word. -/
def pieceOps (land : Nat) (x : Piece) : List (BitVec 39 × HomeOp) :=
  [(BitVec.ofNat 39 (pieceOff x + land), .put (pieceBytes x)), (BitVec.ofNat 39 (pieceOff x), .cas 6 0 0 0 0)]
/-- The collective that waits at a staging buffer sees a piece land (R390). -/
def Collective.landed (stage now : Nat) (c : Collective) : Collective :=
  if c.begun && (c.members[crSelf c.record]?) == some stage then { c with since := now } else c
def Team.landed (t : Team) (stage now : Nat) : Team := { t with colls := t.colls.map (Collective.landed stage now) }
/-- A piece lands: its bytes are performed, then the receiver's counter gains one (R280, R381); a count that passes 2^64 - 1 is reported
(R286, log entry 82). -/
def State.landPiece (s : State) (party : Party) (land : Nat) (x : Piece) : Except HomeStop State :=
  match s.homeOne party 0 0 (pieceRegion x) (pieceOff x + land) (.put (pieceBytes x)) with
  | .error e => .error e
  | .ok r =>
    match r.1.homeSegs (pieceRegion x) (pieceOff x) 8 .atom with
    | .ok [{ place := .mem pa, len := _, va := _, fmt := none }] =>
      if r.1.mem.live pa = some .counter then
        let n := r.1.addCounter pa 1
        let s0 := if n.2 then n.1.event (evt 3 0 cQueue pa 0 1) else n.1
        let s1 := s0.modFab fun f => { f with pieces := f.pieces ++ [x] }
        .ok (s1.modHead fun h => { h with teams := amMap (fun _ t => t.landed x.stage s.now) h.teams })
      else .error (cProtect, false)
    | .ok _ => .error (cProtect, false)
    | .error e => .error e

/-! ### Accesses (R354, R355, R375) -/

/-- The accesses whose pages must be there before a packet is performed. -/
def pktOps (p : Packet) : BitVec 4 × List (BitVec 39 × HomeOp) :=
  match p.body with
  | .access region ops => (region, ops)
  | .piece land x => (pieceRegion x, pieceOps land x)
  | _ => (0, [])
/-- Whether a packet only stores, so that the remote transport's acknowledgement completes it (R376). -/
def putOnly : PktBody → Bool
  | .access _ ops => ops.all fun o => match o.2 with | .put _ => true | .putElement _ => true | .str _ _ _ => true | _ => false
  | .piece _ _ => true
  | _ => false
/-- Perform a packet's accesses: the state, and the answer if it has one now. The region counter counts packets of the remote fabric. -/
def State.performPacket (s : State) (die : Nat) (pod : Bool) (p : Packet) : State × Option PktBody :=
  let party := s.partyOf die p.src
  match p.body with
  | .access region ops =>
    let r := s.homeRun party p.src p.ticket region ops
    (if !pod && r.any then r.s.countRegion region.toNat else r.s, r.body p.ticket)
  | .piece land x =>
    (match s.landPiece party land x with
     | .ok s1 => (if pod then s1 else s1.countRegion (pieceRegion x).toNat, some (.answer p.ticket []))
     | .error e => (s, some (.fault p.ticket e.1 e.2 0)))
  | _ => (s, none)
/-- Perform a packet's accesses and answer: over the pod every access is answered, over the remote fabric those that return something. -/
def State.finishPacket (s : State) (die : Nat) (pod : Bool) (p : Packet) : State × List (List Byte) :=
  let r := s.performPacket die pod p
  let data := match r.2 with | some (.answer _ d) => d | _ => []
  match r.2 with
  | none => (r.1, data)
  | some (.answer t d) => (if pod || !putOnly p.body then r.1.answerTo die p (.answer t d) else r.1, data)
  | some b => (r.1.answerTo die p b, data)
/-- Serve a packet's pages; false while it waits for one. -/
def State.packetReady (s : State) (die held : Nat) (p : Packet) : State × Bool :=
  let x := pktOps p
  let missing := x.2.flatMap (s.homeMissing x.1)
  if missing.isEmpty then (s, true) else s.homeServe die held missing

/-! ### Other packets -/

/-- A pod request has its answer: the requests behind it are freed of R362's rule 4. -/
def State.clearUnacked (s : State) (ticket : Nat) : State :=
  s.modFab fun f => { f with
    unacked := amFilter (fun _ l => !l.isEmpty) (amMap (fun _ l => l.filter fun x => x.1 != ticket) f.unacked)
    copies := amDel f.copies ticket }
/-- The ticket of an RPUT's packet. -/
def State.putTicket (s : State) (put : Nat) : Option Nat := (s.fabric.tickets.find? fun t => t.2.owner == .put put).map (·.1)
/-- An answer over the remote fabric completes once the request is acknowledged (R376). -/
def State.landFar (s : State) (ticket : Nat) (data : List (List Byte)) : State :=
  if s.fabric.peers.any fun x => x.2.flight.any fun y => y.2.pkt.ticket == ticket && (match y.2.pkt.body with
      | .access _ _ => true
      | _ => false)
  then s.modFab fun f => { f with early := amSet f.early ticket data }
  else s.landTicket ticket data
/-- Reservations that come back with a returned block (R364). -/
def State.blockBack (s : State) (target : Nat) : State :=
  (s.modReserve fun x => { x with held := stSet 0 x.held target (stGet 0 x.held target + 16) }).putPump 0 target
/-- What the packet carries, other than accesses and pieces, takes effect. -/
def State.deliver (s : State) (pod : Bool) (p : Packet) : State :=
  match p.body with
  | .access _ _ => s
  | .piece _ _ => s
  | .answer t d => if pod then (s.clearUnacked t).landTicket t d else s.landFar t d
  | .fault t c precise i => (s.clearUnacked t).faultTicket t c precise i
  | .register r => s.wakeUp (.registerArrival r)
  | .putOutcome put st =>
    let s1 := match s.putTicket put with
      | some k => (s.clearUnacked k).dropTicket k
      | none => s
    s1.putDone put st
  | .contribution die cell c => s.wakeUp (.cellContribution die cell c)
  | .cellReply t slice r =>
    (match (amGet s.fabric.tickets t).map Ticket.owner with
     | some (.coll team) => ((s.clearUnacked t).dropTicket t).wakeUp (.cellAnswer team slice r)
     | _ => s)
  | .reserveRequest => s.wakeUp (.reservationRequest p.src)
  | .reserveGrant => s.wakeUp (.reservationGrant s.dev.rank p.src)
  | .reserveBlock => s.blockBack p.src
  | .reserveReturn n =>
    let s1 := s.modReserve fun x => { x with granted := stSet 0 x.granted p.src (stGet 0 x.granted p.src - n) }
    (match s1.fabric.reserve.requests with
     | [] => s1
     | q :: _ => s1.wakeUp (.reservationGrant q s.dev.rank))
  | .unreachable t => (s.clearUnacked t).faultTicket t cProtect false 0
  | .retire _ => s
  | .podNack _ => s
  | .ack _ _ _ _ => s
  | .nack _ => s
  | .permit _ _ _ => s
/-- Hold a packet whose page is served (R355). -/
def State.holdPacket (s : State) (die : Nat) (pod : Bool) (p : Packet) : State :=
  s.modFab fun f => { f with held := amSet f.held f.nextHeld (die, pod, p), nextHeld := f.nextHeld + 1 }
/-- The lines a packet touches at its target. -/
def pktLines (p : Packet) : List Nat := (pktOps p).2.map fun o => ((pktOps p).1.toNat * 2 ^ 39 + o.1.toNat) / 128
/-- Whether an earlier pod packet of the same source to one of a packet's lines is held, or has been NACKed and is not resent yet; `k` is the
packet's own number (R267, R273). -/
def State.podBehind (s : State) (k : Nat) (p : Packet) : Bool :=
  let mine := fun (x : Nat × Packet) => decide (x.1 < k) && x.2.src == p.src && (pktLines x.2).any fun l => (pktLines p).contains l
  s.fabric.nacked.any mine || s.fabric.held.any fun h => h.2.2.1 && mine (h.1, h.2.2.2)
/-- The number of a pod packet among those that may have to wait: its own if it was NACKed, else the next. -/
def State.podNumber (s : State) (p : Packet) : Nat :=
  ((s.fabric.nacked.find? fun x => x.2.src == p.src && x.2.ticket == p.ticket && isRequest p.body).map (·.1)).getD s.fabric.nextHeld
/-- Note a pod packet that is NACKed, so that later ones to its lines wait for it. -/
def State.noteNack (s : State) (p : Packet) : State :=
  if (pktLines p).isEmpty then s
  else
    let k := s.podNumber p
    s.modFab fun f => { f with nacked := amSet f.nacked k p, nextHeld := Nat.max f.nextHeld (k + 1) }
/-- A packet that came over the pod, or from this device itself, is performed, or waits: for a page, or behind an earlier one to its line. -/
def State.receivePod (s : State) (die : Nat) (p : Packet) : State :=
  let k := s.podNumber p
  let s0 := s.modFab fun f => { f with nacked := amDel f.nacked k }
  let hold := fun (x : State) => x.modFab fun f => { f with held := amSet f.held k (die, true, p), nextHeld := Nat.max f.nextHeld (k + 1) }
  if s0.podBehind k p then hold s0
  else
    let r := s0.packetReady die k p
    if r.2 then (r.1.finishPacket die true p).1.deliver true p else hold r.1

end Sys2Proof.Machine
end

