-- ==== Sys2Proof/Machine/Remote.lean ====
section
/-! DEFINITION. The remote transport: acceptance at the target (R375, R378), acknowledgement, loss and retransmission at the initiator
(R374, R376, R377). -/
namespace Sys2Proof.Machine

/-! ### Sequence numbers -/

/-- How far `a` lies after `b`, modulo 2^32. -/
def seqAfter (a b : BitVec 32) : Nat := (a - b).toNat
/-- Whether the target has accepted a PSN. -/
def Peer.has (p : Peer) (psn : BitVec 32) : Bool := decide (2 ^ 31 ≤ seqAfter psn p.cum) || nsHas p.accepted psn.toNat
/-- Move the cumulative PSN past what is accepted. -/
def Peer.settleCum : Nat → Peer → Peer
  | 0, p => p
  | n + 1, p =>
    if nsHas p.accepted p.cum.toNat then
      Peer.settleCum n { p with accepted := nsDel p.accepted p.cum.toNat, cum := p.cum + 1 }
    else p
/-- Accept a PSN. -/
def Peer.mark (p : Peer) (psn : BitVec 32) : Peer :=
  if p.has psn then p
  else
    let a := nsAdd p.accepted psn.toNat
    Peer.settleCum a.length { p with accepted := a }
/-- The bitmap of the 64 PSNs after the cumulative one. -/
def Peer.bitmap (p : Peer) : BitVec 64 :=
  BitVec.ofNat 64 ((upFrom 0 64).foldl (fun n i =>
    if nsHas p.accepted (p.cum + 1 + BitVec.ofNat 32 i).toNat then n + 2 ^ i else n) 0)
def State.modPeer (s : State) (rank : Nat) (f : Peer → Peer) : State := s.modFab fun x => { x with peers := amMod f x.peers rank }
/-- A packet of the transport itself: it takes no PSN and is not acknowledged. -/
def transportPacket (src dst : Nat) (path : Nat) (body : PktBody) : Packet :=
  { src := src, dst := dst, device := 0, tenant := 8, ticket := 0, cls := 7, hops := 0, psn := 0, path := path, body := body }
/-- Acknowledge to a peer (R376). -/
def State.ackTo (s : State) (rank path : Nat) (marked : Bool) : State :=
  match amGet s.fabric.peers rank with
  | some q => s.emitTo (transportPacket s.dev.rank rank path (.ack q.cum q.bitmap marked path))
  | none => s
/-- NACK a packet: its tag fails, or every entry of the peer table is busy (R352, R375). -/
def State.nackTo (s : State) (p : Packet) : State := s.emitTo (transportPacket s.dev.rank p.src p.path (.nack p.psn))
/-- The active-peer entry of a packet's sender (R352). -/
def State.peerFor (s : State) (rank : Nat) : Option (State × Peer) :=
  let r := (s.resolveRank 0 rank).getD (1, 0, 0)
  s.peerOf rank r.2.1 r.2.2

/-! ### Acceptance (R375, R378) -/

/-- Step 4 alone: a put's payload is placed. -/
def State.placePuts (s : State) (p : Packet) : State :=
  let x := pktOps p
  (s.homeRun (s.partyOf 0 p.src) p.src p.ticket x.1 (x.2.filter fun o => match o.2 with | .put _ => true | _ => false)).s
/-- Step 6: performed, counted, accepted, acknowledged; the last 64 atomics are kept (R378). -/
def State.acceptRemote (s : State) (p : Packet) (marked : Bool) : State :=
  let r := s.finishPacket 0 false p
  let s1 := (r.1.deliver false p).modPeer p.src fun q =>
    let q1 := q.mark p.psn
    let all := q1.atomics ++ [(p.psn.toNat, p.ticket, r.2)]
    { q1 with lastUse := s.now, atomics := if isAtomicPkt p then all.drop (all.length - 64) else q1.atomics }
  s1.ackTo p.src p.path marked
/-- A resent atomic is answered from the record. -/
def State.answerAgain (s : State) (q : Peer) (p : Packet) : State :=
  match q.atomics.find? fun a => a.1 == p.psn.toNat with
  | some a => if isAtomicPkt p then s.replyTo 0 p.src p.ticket (.answer a.2.1 a.2.2) p.cls else s
  | none => s
/-- Whether no access of a packet passes the region check of step 2. -/
def State.regionFails (s : State) (p : Packet) : Bool :=
  let x := pktOps p
  !x.2.isEmpty && x.2.all fun o => (s.regionCheck x.1.toNat o.1.toNat (opSize o.2) (opNeed o.2)).isNone
/-- REMOTE_PACKET_RECEIVE: the steps of R375, told whether the header CRC and the integrity tag pass and whether the packet is marked. -/
def execRemotePacketReceive (p : Packet) (headerOk tagOk marked : Bool) (s : State) : Out :=
  if s.dev.fabricQuiet || s.dev.phase != .running then .next s
  else if !headerOk then .next (s.countError .frames)
  else
    match s.peerFor p.src with
    | none => .next (s.nackTo p)
    | some (s1, q) =>
      if s1.regionFails p then
        .next (((s1.replyTo 0 p.src p.ticket (.fault p.ticket cProtect false 0) p.cls).modPeer p.src fun q => q.mark p.psn).ackTo p.src p.path
          marked)
      else if q.has p.psn then .next ((s1.answerAgain q p).ackTo p.src p.path marked)
      else if s1.fabric.held.any fun h => !h.2.2.1 && h.2.2.2.src == p.src && h.2.2.2.psn == p.psn then .next s1
      else if !tagOk then .next ((s1.placePuts p).nackTo p)
      else
        let r := s1.packetReady 0 s1.fabric.nextHeld p
        .next (if r.2 then r.1.acceptRemote p marked else r.1.holdPacket 0 false p)
/-- RETIRE_NOTICE: the target marks the PSN as retired; nothing is counted or applied for it (R377). -/
def execRetireNotice (peer : Nat) (psn : BitVec 32) (s : State) : Out :=
  if s.dev.fabricQuiet || s.dev.phase != .running then .next s
  else
    match s.peerFor peer with
    | none => .next s
    | some (s1, _) =>
      let s2 := s1.modFab fun f => { f with held := f.held.filter fun h => !(!h.2.2.1 && h.2.2.2.src == peer && h.2.2.2.psn == psn) }
      .next ((s2.modPeer peer fun q => q.mark psn).ackTo peer 0 false)
/-- Try held packets again, in order: a page may have come (R355), an earlier packet to the same line may be performed (R273). -/
def State.retryHeld (s : State) : State :=
  s.fabric.held.foldl (fun a h =>
    if h.2.2.1 && a.podBehind h.1 h.2.2.2 then a
    else
    let r := a.packetReady h.2.1 h.1 h.2.2.2
    if !r.2 then r.1
    else
      let b := r.1.modFab fun f => { f with held := amDel f.held h.1 }
      if h.2.2.1 then (b.finishPacket h.2.1 true h.2.2.2).1 else b.acceptRemote h.2.2.2 false) s

/-! ### The initiator: completion (R376) -/

/-- An acknowledged packet completes what it asked: a store at once, an access that returns something with its answer. -/
def State.ackedPacket (s : State) (p : Packet) : State :=
  if putOnly p.body then s.landTicket p.ticket []
  else
    match p.body with
    | .access _ _ =>
      (match amGet s.fabric.early p.ticket with
       | some d => (s.modFab fun f => { f with early := amDel f.early p.ticket }).landTicket p.ticket d
       | none => s)
    | _ => s
/-- Whether an acknowledgement covers a PSN. -/
def ackCovers (cum : BitVec 32) (bitmap : BitVec 64) (psn : BitVec 32) : Bool :=
  let d := seqAfter psn cum
  decide (2 ^ 31 ≤ d) || (decide (0 < d) && decide (d ≤ 64) && bitmap.getLsbD (d - 1))
/-- Accepted PSNs after one, as the bitmap shows them. -/
def acceptedAfter (cum : BitVec 32) (bitmap : BitVec 64) (psn : BitVec 32) : Nat :=
  ((upFrom (seqAfter psn cum) 64).filter fun i => bitmap.getLsbD i).length

/-! ### Congestion (R374) -/

/-- A path whose weight is 0 keeps it until it is restored. -/
def PathState.lower (p : PathState) (i by_ least now : Nat) : PathState :=
  let w := p.weight i
  let v := Nat.max least (w - by_)
  if w = 0 then p
  else if v = 0 then { p.setWeight i 0 with zeroed := amSet p.zeroed i now } else p.setWeight i v
/-- The window falls by 1/16, at most once per 10 µs. -/
def PathState.shrink (p : PathState) (now : Nat) : PathState :=
  let due := match p.shrunk with | some t => decide (t + 10 * Config.usCycles ≤ now) | none => true
  if due then { p with window := Nat.max 16384 (p.window - p.window / 16), shrunk := some now } else p
/-- An acknowledgement on a path, marked or not. -/
def PathState.acked (p : PathState) (i : Nat) (marked : Bool) (now : Nat) : PathState :=
  if marked then (p.lower i 1 1 now).shrink now
  else
    let n := stGet 0 p.unmarked i + 1
    if n < 64 then { p with unmarked := stSet 0 p.unmarked i n }
    else
      let q : PathState := { p with unmarked := stSet 0 p.unmarked i 0, window := Nat.min 16777216 (p.window + 65536) }
      if q.weight i = 0 then q else q.setWeight i (Nat.min 15 (q.weight i + 1))

/-! ### Retransmission (R377) -/

/-- The retransmission timer of an attempt: 40 µs, doubled, up to 5 ms. -/
def resendTimer (tries : Nat) : Nat := Nat.min (5 * Config.msCycles) (40 * Config.usCycles * 2 ^ (tries - 1))
/-- The next path after the one that failed whose weight is not 0, else the same path. -/
def State.resendPath (s : State) (ps path : Nat) : Nat :=
  let n := ((s.pathSet ps).map setPaths).getD 1
  let q := s.pathState ps
  let opens := s.openPaths ps
  (((upFrom 1 (n - 1)).map fun k => (path + k) % n).find? fun k => opens.contains k && q.weight k != 0).getD path
/-- What a lost packet's sender learns (R355, R377). A put whose reservation request is lost waits on (log entry 85). -/
def State.lostPacket (s : State) (p : Packet) : State :=
  let s1 := s.modFab fun f => { f with early := amDel f.early p.ticket }
  match p.body with
  | .access _ _ => s1.faultTicket p.ticket 0 false 0
  | .piece _ _ => s1.faultTicket p.ticket 0 false 0
  | .contribution _ _ _ => s1.faultTicket p.ticket 0 false 0
  | .register _ => s1.faultTicket p.ticket 0 false 0
  | .reserveRequest => s1.modReserve fun x => { x with asked := nsDel x.asked p.dst }
  | _ => s1
/-- Send a packet again, or after 16 attempts count it lost: a LINK event, and a retire notice to the target. -/
def State.resend (s : State) (rank : Nat) (psn : BitVec 32) (fast : Bool) : State :=
  match amGet s.fabric.peers rank with
  | none => s
  | some q =>
    match amGet q.flight psn.toNat with
    | none => s
    | some x =>
      if 16 ≤ x.tries then
        let s1 := s.modPeer rank fun q => { q with flight := amDel q.flight psn.toNat, retiring := amSet q.retiring psn.toNat s.now }
        ((s1.lostPacket x.pkt).event (evt 7 0 0 rank 0 psn.toNat)).emitTo (transportPacket s.dev.rank rank x.pkt.path (.retire psn))
      else
        let k : Packet := { x.pkt with path := s.resendPath q.pathSet x.pkt.path }
        let y : Flight := { pkt := k, tries := x.tries + 1, sent := s.now, fast := x.fast || fast }
        (s.modPeer rank fun q => { q with flight := amSet q.flight psn.toNat y }).emitTo k
/-- REMOTE_ACK. -/
def execRemoteAck (peer : Nat) (cum : BitVec 32) (bitmap : BitVec 64) (marked : Bool) (path : Nat) (s : State) : Out :=
  match amGet s.fabric.peers peer with
  | none => .next s
  | some q =>
    let covered := q.flight.filter fun x => ackCovers cum bitmap (BitVec.ofNat 32 x.1)
    let left := q.flight.filter fun x => !ackCovers cum bitmap (BitVec.ofNat 32 x.1)
    let retiring := q.retiring.filter fun x => !ackCovers cum bitmap (BitVec.ofNat 32 x.1)
    let s1 := s.modPeer peer fun q => { q with flight := left, retiring := retiring, lastUse := s.now }
    let s2 := s1.setPath q.pathSet ((s1.pathState q.pathSet).acked path marked s.now)
    let s3 := covered.foldl (fun a x => a.ackedPacket x.2.pkt) s2
    let s4 := left.foldl (fun a x =>
      if !x.2.fast && decide (3 ≤ acceptedAfter cum bitmap (BitVec.ofNat 32 x.1)) then a.resend peer (BitVec.ofNat 32 x.1) true else a) s3
    .next (s4.pump 64 peer)
/-- REMOTE_NACK. -/
def execRemoteNack (peer : Nat) (psn : BitVec 32) (s : State) : Out := .next (s.resend peer psn false)
/-- TRIMMED_PACKET_NOTICE: the path's weight falls by 2, and the packet is sent again. -/
def execTrimmedPacketNotice (peer : Nat) (psn : BitVec 32) (s : State) : Out :=
  match (amGet s.fabric.peers peer).bind fun q => (amGet q.flight psn.toNat).map fun x => (q.pathSet, x.pkt.path) with
  | none => .next s
  | some (ps, path) => .next ((s.setPath ps ((s.pathState ps).lower path 2 0 s.now)).resend peer psn false)
/-- RETRANSMIT_TIMEOUT: the path's weight falls to 0 and the packet is sent again; a retire notice is sent again until it is acknowledged. -/
def execRetransmitTimeout (peer : Nat) (psn : BitVec 32) (s : State) : Out :=
  match amGet s.fabric.peers peer with
  | none => .next s
  | some q =>
    match amGet q.flight psn.toNat, amGet q.retiring psn.toNat with
    | some x, _ =>
      if s.now < x.sent + resendTimer x.tries then .next s
      else
        let ps := s.pathState q.pathSet
        let p1 : PathState := { ps.setWeight x.pkt.path 0 with zeroed := amSet ps.zeroed x.pkt.path s.now }
        .next ((s.setPath q.pathSet p1).resend peer psn false)
    | none, some t =>
      if s.now < t + resendTimer 16 then .next s
      else .next ((s.modPeer peer fun q => { q with retiring := amSet q.retiring psn.toNat s.now }).emitTo
        (transportPacket s.dev.rank peer 0 (.retire psn)))
    | none, none => .next s
/-- PATH_WEIGHT_RESTORE: 100 µs after a path's weight fell to 0 it is 1. -/
def execPathWeightRestore (ps path : Nat) (s : State) : Out :=
  let q := s.pathState ps
  match amGet q.zeroed path with
  | some t =>
    if t + 100 * Config.usCycles ≤ s.now then .next (s.setPath ps { q.setWeight path 1 with zeroed := amDel q.zeroed path }) else .next s
  | none => .next s
/-- A remote port's spare has replaced the failed wavelength (R370). -/
def execSpareRetrainingPauseEnd (port : Nat) (s : State) : Out :=
  match amGet s.fabric.paused (128 + port) with
  | some t =>
    if t ≤ s.now then
      let s1 := s.modFab fun f => { f with paused := amDel f.paused (128 + port) }
      .next (s1.fabric.peers.foldl (fun a x => a.pump 64 x.1) s1)
    else .next s
  | none => .next s

end Sys2Proof.Machine
end

