-- ==== Sys2Proof/Machine/Pod.lean ====
section
/-! DEFINITION. The pod fabric: circuit phases (R360), routing and send queues (R361, R362), permits (R363), arbitration (R365),
degradation (R367 to R370), and GUARD (R346, R351, R359). -/
namespace Sys2Proof.Machine

/-! ### Pod time and phases (R359, R360) -/

/-- Pod time in ps: 1.8 core cycles pass in a ns (R4). -/
def State.podPs (s : State) : Nat := s.fabric.podTime * 1000 + (s.now - s.fabric.podAt) * 5000 / 9
def phDuration (p : List Byte) (k : Nat) : Nat := bitsOf (field p (64 + 16 * k) 8) 0 32
/-- The gap at the end of phase `k` in ns; none in static mode and in the last phase of stepped mode. -/
def phGap (p : List Byte) (k : Nat) : Option Nat :=
  let g := bitsOf (field p (64 + 16 * k) 8) 32 32
  if planMode p = 0 || (planMode p = 1 && planPhases p ≤ k + 1) then none
  else some (if g != 0 then g else if planMode p = 1 then 50000 else 500)
/-- When phase `k` begins after EPOCH, in ns. -/
def phStart (p : List Byte) (k : Nat) : Nat := (upFrom 0 k).foldl (fun n i => n + phDuration p i) 0
def planPeriod (p : List Byte) : Nat := phStart p (planPhases p)
/-- How many phases have begun `off` ps after EPOCH. -/
def begunBy (p : List Byte) (off : Nat) : Nat :=
  let in_ := fun (x : Nat) => ((upFrom 1 (planPhases p - 1)).filter fun k => decide (phStart p k * 1000 ≤ x)).length
  if planMode p = 2 then off / (planPeriod p * 1000) * planPhases p + 1 + in_ (off % (planPeriod p * 1000)) else 1 + in_ off
/-- EPOCH, in ps of pod time. -/
def planEpoch (p : List Byte) : Nat := field p 8 8 * 1000
/-- When the `n`th phase begins, in ps of pod time. -/
def phaseBegin (p : List Byte) (n : Nat) : Nat :=
  let k := (n - 1) % planPhases p
  planEpoch p + ((n - 1) / planPhases p * planPeriod p + phStart p k) * 1000
/-- When the `n`th phase's gap begins, in ps of pod time. -/
def gapBegin (p : List Byte) (n : Nat) : Option Nat :=
  let k := (n - 1) % planPhases p
  (phGap p k).map fun g => phaseBegin p n + (phDuration p k - g) * 1000
/-- How many phases should have begun by now. -/
def State.phasesDue (s : State) (p : List Byte) : Nat :=
  if s.podPs < planEpoch p then 0 else begunBy p (s.podPs - planEpoch p)
/-- The index of the phase in force. -/
def State.phaseIndex (s : State) (p : List Byte) : Nat := (s.fabric.phase - 1) % planPhases p

/-! ### Permits (R363) -/

def bufferUnits (channel : Nat) : Nat := if channel = 3 then 64 else 256
/-- Units of a port's receive buffer that transit packets still take. -/
def State.bufferUsed (s : State) (port channel : Nat) : Nat :=
  s.fabric.sendq.foldl (fun n q => if q.1 / 1024 = port / 24 then
    q.2.foldl (fun m x => if x.port = port % 24 && packetChannel x.pkt = channel then m + packetUnits x.pkt else m) n else n) 0
/-- Give a neighbour permits for a port's channel. -/
def State.givePermits (s : State) (port channel units : Nat) : State :=
  s.emit { transportPacket s.dev.rank s.dev.rank port (.permit port channel units) with device := planDevice (s.dev.plan.getD []) }
/-- Whether a direction of a port moves anything: lit wavelengths, and no pause (R367, R368). -/
def State.portOpen (s : State) (port : Nat) (transmit : Bool) : Bool :=
  (amGet s.fabric.paused port).isNone && decide (0 < (if transmit then (s.waves port).1 else (s.waves port).2))
/-- Grant every channel of a port its free space. -/
def State.grantPort (s : State) (port : Nat) : State :=
  if s.portOpen port false then
    (upFrom 0 4).foldl (fun a c => a.givePermits port c (bufferUnits c - a.bufferUsed port c)) s
  else s
/-- LINK_PERMIT_RETURN. -/
def execLinkPermitReturn (port channel units : Nat) (s : State) : Out :=
  let k := port * 4 + channel
  .next (s.modFab fun f => { f with permits := stSet 0 f.permits k (Nat.min (bufferUnits channel) (stGet 0 f.permits k + units)) })

/-! ### Turning wavelengths round (R368) -/

/-- Turn round half of a difference of two or more, and pause the port for 2 µs. -/
def State.rebalance (s : State) (port : Nat) : State :=
  let w := s.waves port
  let rebal := bitsOf (field (s.dev.plan.getD []) 0 8) 16 1 = 1
  let d := if w.1 < w.2 then w.2 - w.1 else w.1 - w.2
  if !rebal || decide (d < 2) then s
  else
    let v := if w.1 < w.2 then (w.1 + d / 2, w.2 - d / 2) else (w.1 - d / 2, w.2 + d / 2)
    s.modFab fun f => { f with waves := amSet f.waves port v, paused := amSet f.paused port (s.now + 2 * Config.usCycles) }
/-- TURNROUND_PAUSE_END: the port grants permits again. -/
def execTurnroundPauseEnd (fibre : Nat) (s : State) : Out :=
  match amGet s.fabric.paused fibre with
  | some t =>
    if t ≤ s.now && decide (fibre < 96) then
      let s1 := s.modFab fun f => { f with paused := amDel f.paused fibre }
      .next (if s1.fabric.gap then s1 else s1.grantPort fibre)
    else .next s
  | none => .next s
/-- The destinations that leave through a port in a phase. -/
def portDests (p : List Byte) (k port : Nat) : List Nat := (upFrom 0 1024).filter fun d => planEgress p k d == some port
/-- CIRCUIT_PHASE_START: the next phase's tables hold; every channel starts with what its receiver grants it; the splits are worked out
again, and a pause whose circuit has changed is dropped (R369). -/
def execCircuitPhaseStart (s : State) : Out :=
  match s.dev.plan with
  | none => .next s
  | some p =>
    let n := s.phasesDue p
    if n ≤ s.fabric.phase || s.dev.fabricQuiet then .next s
    else
      let k0 := s.phaseIndex p
      let k1 := (n - 1) % planPhases p
      let same := fun port => decide (0 < s.fabric.phase) && (k0 == k1 || portDests p k0 port == portDests p k1 port)
      let s1 := s.modFab fun f =>
        { f with phase := n, gap := false, permits := [], paused := f.paused.filter fun x => decide (96 ≤ x.1) || same x.1 }
      .next ((upFrom 0 96).foldl (fun a port => (a.rebalance port).grantPort port) s1)
/-- CIRCUIT_GAP_START. -/
def execCircuitGapStart (s : State) : Out :=
  match s.dev.plan with
  | none => .next s
  | some p =>
    match gapBegin p s.fabric.phase with
    | none => .next s
    | some t =>
      if s.fabric.gap || s.fabric.phase = 0 || decide (s.podPs < t) then .next s
      else .next (s.modFab fun f => { f with gap := true })

/-! ### Routing (R361, R362) -/

/-- How long a packet takes on an egress, in ps: 3.2 GB/s of payload on each wavelength (R357). -/
def State.sendPs (s : State) (port : Nat) (p : Packet) : Nat := 64 * packetUnits p * 625 / (2 * Nat.max 1 (s.waves port).1)
/-- Whether a destination stays unreachable: a fifth hop, or no valid entry left in a static or stepped plan (R361). -/
def State.unreachable (s : State) (p : List Byte) (x : Packet) : Bool :=
  decide (4 ≤ x.hops)
    || (planMode p != 2 && decide (0 < s.fabric.phase)
        && (upFrom (s.phaseIndex p) (planPhases p - s.phaseIndex p)).all fun k => (planEgress p k x.device).isNone)
/-- The tests of R362 on a head: the egress it can start on now. -/
def State.headPort (s : State) (p : List Byte) (x : Packet) : Option Nat :=
  if s.fabric.phase = 0 || s.fabric.gap || s.dev.fabricQuiet then none
  else
    match planEgress p (s.phaseIndex p) x.device with
    | none => none
    | some port =>
      let fits := match gapBegin p s.fabric.phase with
        | some t => decide (s.podPs + s.sendPs port x ≤ t)
        | none => true
      let behind := x.src == s.dev.rank
        && ((amGet s.fabric.unacked x.device).getD []).any fun u => u.2 != s.fabric.phase
      if s.portOpen port true && fits && !behind && decide (stGet 0 s.fabric.busy port ≤ s.podPs)
          && decide (packetUnits x ≤ stGet 0 s.fabric.permits (port * 4 + packetChannel x)) then some port else none
/-- Whether a head holds permits, so that its ageing counter runs (R365). -/
def State.headPermitted (s : State) (p : List Byte) (x : Packet) : Bool :=
  match planEgress p (s.phaseIndex p) x.device with
  | some port => decide (0 < s.fabric.phase) && decide (packetUnits x ≤ stGet 0 s.fabric.permits (port * 4 + packetChannel x))
  | none => false
/-- A ready head: queue, packet, input port at the egress's router, since when it ages. -/
structure Ready where
  key : Nat
  pkt : Packet
  input : Nat
  since : Nat
deriving DecidableEq, Repr
/-- The input port of a queue at the router of an egress: its own, or another die's router in ascending die (R365). -/
def inputPort (die egressDie port : Nat) : Nat :=
  if die = egressDie then port else 25 + (if die < egressDie then die else die - 1)
/-- The heads that can start on a port now. -/
def State.readyHeads (s : State) (p : List Byte) (port : Nat) : List Ready :=
  s.fabric.sendq.filterMap fun q =>
    match q.2 with
    | [] => none
    | x :: _ =>
      if s.headPort p x.pkt == some port then
        some { key := q.1, pkt := x.pkt, input := inputPort (q.1 / 1024) (port / 24) x.port, since := stGet s.now s.fabric.heads q.1 }
      else none

/-! ### Arbitration (R263, R365) -/

/-- The older of two ready heads of one port. -/
def olderOf (a b : Ready) : Ready := if b.since < a.since then b else a
/-- The best by a rank, lowest first; the oldest within a rank. -/
def bestBy (f : Ready → Nat) : List Ready → Option Ready
  | [] => none
  | x :: xs =>
    match bestBy f xs with
    | none => some x
    | some y => if f y < f x then some y else if f x < f y then some x else some (olderOf x y)
/-- Whether a packet is the slot owner's. -/
def ownerHas (owner : Nat) (x : Packet) : Bool :=
  if owner = 15 then x.cls == 7 else if owner = 8 then true else x.tenant == owner
/-- What fills one slot. -/
def State.fillSlot (s : State) (port slot : Nat) (rs : List Ready) : Option Ready :=
  let tbl := (amGet s.dev.slotTables 4).getD ((15 : BitVec 4) :: (upFrom 0 63).map fun _ => 8, 0)
  let owner := ((tbl.1[slot]?).getD 8).toNat
  let strict := decide (owner < 8) && tbl.2.getLsbD owner
  let aged := rs.filter fun r => nsHas s.fabric.aged r.key
  let own := rs.filter fun r => ownerHas owner r.pkt
  if !aged.isEmpty then bestBy (·.input) aged
  else
    let c := if own.isEmpty && !strict then rs else own
    let last := stGet 0 s.fabric.lastWin port
    bestBy (fun r => (7 - r.pkt.cls) * 64 + (r.input + 28 - last) % 28) c
/-- What the RCBs have used of a frame in which slot `at_ + i` lies, `at_` being the next slot of the port. -/
def State.frameUse (s : State) (port at_ i : Nat) : AMap Nat :=
  if at_ = 0 || decide (64 ≤ at_ + i) then [] else (amGet s.fabric.shareUse port).getD []
/-- Whether every fabric share a packet counts against has a slot left in its frame (R309). -/
def sharesLeft (used : AMap Nat) (x : Packet) : Bool := x.shares.all fun y => decide ((amGet used y.1).getD 0 < y.2)
/-- The winner of a port, with the slot it takes: slots of strict owners with nothing ready pass. A head whose subtree has used its share of
the frame's slots waits for the next frame, aged or not (R309; log entry 83). -/
def State.podWinner (s : State) (p : List Byte) (port : Nat) : Option (Ready × Nat) :=
  let rs := s.readyHeads p port
  let at_ := stGet 0 s.fabric.slots port
  (upFrom 0 64).findSome? fun i =>
    (s.fillSlot port ((at_ + i) % 64) (rs.filter fun r => sharesLeft (s.frameUse port at_ i) r.pkt)).map fun r => (r, (at_ + i) % 64)

/-! ### Forwarding (R361, R362) -/

/-- Take the head of a queue. -/
def State.popSend (s : State) (key : Nat) : State :=
  s.modFab fun f =>
    let l := ((amGet f.sendq key).getD []).drop 1
    { f with sendq := if l.isEmpty then amDel f.sendq key else amSet f.sendq key l
             heads := amDel f.heads key
             aged := nsDel f.aged key }
/-- The source of a packet that cannot be routed learns of it (R361). A put that waits for a reservation waits on (log entry 85). -/
def State.tellUnreachable (s : State) (die : Nat) (x : Packet) : State :=
  if x.src = s.dev.rank then
    match x.body with
    | .reserveRequest => s.modReserve fun r => { r with asked := nsDel r.asked x.dst }
    | b => if isRequest b then (s.clearUnacked x.ticket).faultTicket x.ticket cProtect false 0 else s
  else if isRequest x.body then s.replyTo die x.src x.ticket (.unreachable x.ticket) x.cls
  else s
/-- Send a head through its port. -/
def State.sendHead (s : State) (port : Nat) (r : Ready) (slot : Nat) : State :=
  let u := packetUnits r.pkt
  let c := packetChannel r.pkt
  let at_ := stGet 0 s.fabric.slots port
  let used := s.frameUse port at_ (if slot < at_ then slot + 64 - at_ else slot - at_)
  let from_ := ((((amGet s.fabric.sendq r.key).getD []).head?).map Queued.port).getD 24
  let s1 := (s.popSend r.key).modFab fun f =>
    { f with permits := stSet 0 f.permits (port * 4 + c) (stGet 0 f.permits (port * 4 + c) - u)
             busy := stSet 0 f.busy port (s.podPs + s.sendPs port r.pkt)
             slots := stSet 0 f.slots port ((slot + 1) % 64)
             shareUse := amSet f.shareUse port (r.pkt.shares.foldl (fun m y => amSet m y.1 ((amGet m y.1).getD 0 + 1)) used)
             lastWin := stSet 0 f.lastWin port ((r.input + 1) % 28) }
  let s2 := if r.pkt.src = s.dev.rank && isRequest r.pkt.body then
      s1.modFab fun f =>
        let l := ((amGet f.unacked r.pkt.device).getD []) ++ [(r.pkt.ticket, f.phase)]
        { f with unacked := amSet f.unacked r.pkt.device l }
    else s1
  let s3 := if from_ < 24 then s2.givePermits (r.key / 1024 * 24 + from_) c u else s2
  s3.emit { r.pkt with hops := r.pkt.hops + 1, path := port, shares := [] }
/-- POD_PACKET_FORWARD: a queue's head that passes its tests and wins its egress leaves; one that cannot be routed is answered. -/
def execPodPacketForward (die dest : Nat) (s : State) : Out :=
  let key := die * 1024 + dest
  match s.dev.plan, (amGet s.fabric.sendq key).bind List.head? with
  | some p, some x =>
    if s.unreachable p x.pkt then .next ((s.popSend key).tellUnreachable die x.pkt)
    else
      match s.headPort p x.pkt with
      | none => .next s
      | some port =>
        match s.podWinner p port with
        | some (r, slot) => if r.key = key then .next (s.sendHead port r slot) else .next s
        | none => .next s
  | _, _ => .next s
/-- PACKET_AGED: 16 µs at the head with permits. -/
def execPacketAged (die dest : Nat) (s : State) : Out :=
  let key := die * 1024 + dest
  match amGet s.fabric.heads key with
  | some t => if t + 16 * Config.usCycles ≤ s.now then .next (s.modFab fun f => { f with aged := nsAdd f.aged key }) else .next s
  | none => .next s
/-- Keep the ageing counters of the queues' heads (R365). -/
def State.timeHeads (s : State) : State :=
  match s.dev.plan with
  | none => s
  | some p =>
    let on := s.fabric.sendq.filterMap fun q => match q.2 with
      | x :: _ => if s.headPermitted p x.pkt then some (q.1, stGet s.now s.fabric.heads q.1) else none
      | [] => none
    if on == s.fabric.heads then s else s.modFab fun f => { f with heads := on, aged := amFilter (fun k _ => (amGet on k).isSome) f.aged }

/-! ### Reception (R358) -/

/-- Resend a held copy ahead of what waits behind it. -/
def State.podResend (s : State) (dest ticket : Nat) : State :=
  let hit := (amGet s.fabric.copies ticket).bind fun x => if x.2.dst = dest then some x else none
  match hit.or (amGet s.fabric.copies (copyKey dest ticket)) with
  | none => s
  | some (die, x) =>
    let k := die * 1024 + x.device
    s.modFab fun f => { f with sendq := amSet f.sendq k ({ pkt := x, port := 24 } :: (amGet f.sendq k).getD []) }
/-- POD_NACK: the source resends from its held copy. -/
def execPodNack (dest ticket : Nat) (s : State) : Out := .next (s.podResend dest ticket)
/-- POD_PACKET_RECEIVE: a packet for another device joins its send queue; one for this device is checked, and performed or NACKed. -/
def execPodPacketReceive (die port : Nat) (p : Packet) (crcOk : Bool) (s : State) : Out :=
  match s.dev.plan with
  | none => .next s
  | some plan =>
    if s.dev.fabricQuiet || s.dev.phase != .running then .next s
    else if p.device != planDevice plan then .next (s.podQueue die p.device p (port % 24))
    else
      let s1 := s.givePermits port (packetChannel p) (packetUnits p)
      if !crcOk then .next ((s1.noteNack p).replyTo die p.src p.ticket (.podNack p.ticket) p.cls)
      else
        match p.body with
        | .podNack t => .next (s1.podResend p.src t)
        | _ => .next (s1.receivePod die p)

/-! ### Degradation (R367, R370) -/

/-- WAVELENGTH_FAILURE: the wavelength leaves its direction and the host is told; on a remote fibre a spare replaces it after a pause. -/
def execWavelengthFailure (fibre : Nat) (transmit : Bool) (s : State) : Out :=
  let w := (amGet s.fabric.waves fibre).getD (if fibre < 96 then (64, 64) else (28, 28))
  let v := if transmit then (w.1 - 1, w.2) else (w.1, w.2 - 1)
  let s1 := (s.modFab fun f => { f with waves := amSet f.waves fibre v }).event (evt 7 0 0 fibre 0 0)
  if fibre < 96 then .next (s1.rebalance fibre)
  else if decide (26 ≤ (if transmit then w.1 else w.2)) then
    .next (s1.modFab fun f => { f with paused := amSet f.paused (128 + (fibre - 96) / 2) (s.now + 2 * Config.usCycles) })
  else .next s1
/-- PRECISION_TIME_PROTOCOL_MESSAGE: the pod time, in ns, that the message disciplines the router's count to. -/
def execPrecisionTimeProtocolMessage (time : Nat) (s : State) : Out :=
  .next (s.modFab fun f => { f with podTime := time, podAt := s.now })

/-! ### GUARD (R346, R351, R359, R360) -/

/-- A path set entry that R351 admits. -/
def pathSetOk (e : List Byte) : Bool :=
  bitsOf (field e 10 1) 4 4 == 0 && decide (6 ≤ field e 11 1) && decide (field e 11 1 ≤ 12) && field e 12 4 == 0
/-- A forwarding table that R360 admits. -/
def tableOk (t : List Byte) : Bool :=
  (upFrom 0 1024).all fun d => let h := field t (2 * d) 2; bitsOf h 7 8 == 0 && (bitsOf h 15 1 == 0 || decide (bitsOf h 0 7 < 96))
/-- One phase entry that R360 admits. -/
def State.phaseOk (s : State) (p : List Byte) (k : Nat) : Bool :=
  let t := field p (64 + 16 * k + 8) 8
  decide (1 ≤ phDuration p k) && decide ((phGap p k).getD 0 < phDuration p k)
    && t % 2048 == 0 && decide (t + 2048 ≤ s.paEnd) && tableOk (s.mem.bytes t 2048)
/-- A pod plan that R359 and R360 admit. -/
def State.planOk (s : State) (p : List Byte) : Bool :=
  let w := field p 0 8
  bitsOf w 17 47 == 0 && bitsOf w 14 2 == 0 && bitsOf w 2 6 == 0 && planMode p != 3 && (planMode p != 0 || planPhases p == 1)
    && bitsOf (field p 16 8) 10 54 == 0 && (upFrom 0 5).all (fun i => field p (24 + 8 * i) 8 == 0)
    && (upFrom 0 (planPhases p)).all (s.phaseOk p)
/-- A plan with its forwarding tables behind it. -/
def State.loadPlan (s : State) (p : List Byte) : List Byte :=
  p ++ (upFrom 0 (planPhases p)).flatMap fun k => s.mem.bytes (field p (64 + 16 * k + 8) 8) 2048
/-- What GUARD refuses at once: a reserved bit, the number that names no rank (R344), a count outside 1 to 256, an address its table may
not have. -/
def guardOk (s : State) (r : GuardReq) : Bool :=
  !r.reservedBits && r.rank != 0xFFFFF && decide (1 ≤ r.pathN) && decide (r.pathN ≤ 256) && r.rootPA % 512 == 0 && r.pathPA % 4096 == 0
    && decide (r.rootPA + 512 ≤ s.paEnd) && decide (r.regionPA + 1600 ≤ s.paEnd) && decide (r.pathPA + 16 * r.pathN ≤ s.paEnd)
/-- GUARD, step 1: accesses to other ranks are held at translation from here on. -/
def execGuard (tag : Byte) (req : GuardReq) (s : State) : Out :=
  hostCommand tag (fun s =>
    if s.dev.guardPending.isSome || !guardOk s req then s.answer tag 1
    else s.modDev fun d => { d with guardPending := some (tag, req) }) s
/-- Whether every access to another rank that was translated before has been acknowledged or lost. -/
def State.guardDrained (s : State) : Bool :=
  s.fabric.tickets.isEmpty && s.fabric.peers.all fun p => p.2.flight.isEmpty && p.2.queue.isEmpty
/-- A peer's network identifier and path set under new tables. -/
def State.repeer (s : State) (rank : Nat) (p : Peer) : Peer :=
  match s.resolveRank 0 rank with
  | some (_, net, ps) => { p with net := net, pathSet := ps }
  | none => p
/-- GUARD, steps 2 to 4: tables, regions, path sets and plan are loaded, the rank caches emptied, every cell freed, and GUARD answers. -/
def State.guardLoad (s : State) (tag : Byte) (r : GuardReq) : State :=
  let plan := s.mem.bytes (r.regionPA + 512) 1088
  let sets := (upFrom 0 r.pathN).map fun i => s.mem.bytes (r.pathPA + 16 * i) 16
  let s0 := s.modDev fun d => { d with guardPending := none }
  if !sets.all pathSetOk || !s.planOk plan then s0.answer tag 1
  else
    let s1 := s0.modDev fun d =>
      { d with rank := r.rank.toNat, keyIndex := r.keyIndex.toNat, ranges := r.ranges.filter (fun x => x != (0, 0))
               rootNode := s.mem.bytes r.rootPA 512, regions := (upFrom 0 16).map fun i => s.mem.bytes (r.regionPA + 32 * i) 32
               pathSets := sets, plan := some (s.loadPlan plan), skipNoted := [], cells := [] }
    let s2 := s1.modFab fun f =>
      { f with paths := [], ranks := [], cells := [], unacked := [], copies := [], phase := 0, gap := true }
    (s2.modFab fun f => { f with peers := amMap (fun k p => s2.repeer k p) f.peers }).answer tag 0
/-- A GUARD that waits goes on once nothing is outstanding. -/
def State.guardStep (s : State) : State :=
  match s.dev.guardPending with
  | some (tag, r) => if s.guardDrained then s.guardLoad tag r else s
  | none => s

end Sys2Proof.Machine
end

