-- ==== Sys2Proof/Machine/Coll.lean ====
section
/-! DEFINITION. Collectives (R380 to R395): COLL, the team's collective engine, reduction cells. How an algorithm's transfers are cut into
pieces is log entry 11. -/
namespace Sys2Proof.Machine

/-! ### COLL (R383 to R385) -/

/-- The reserved bits of a record are zero (R380). -/
def crClean (b : List Byte) : Bool :=
  let w0 := field b 0 8
  let w2 := field b 16 8
  let w3 := field b 24 8
  bitsOf w0 56 8 == 0 && bitsOf w0 6 2 == 0 && bitsOf w0 2 2 == 0 && field b 12 4 == 0 && bitsOf w2 22 10 == 0 && bitsOf w2 48 16 == 0
    && bitsOf w3 16 16 == 0 && bitsOf w3 48 16 == 0 && bitsOf (field b 32 8) 24 40 == 0 && bitsOf (field b 48 8) 10 6 == 0
    && field b 52 4 == 0
/-- Bytes of a tile. -/
def tileBytes (w : Word) : Nat := 4 * tileRows w * tileCols w
/-- Step 4 of R384, once the record is read. -/
def recordFits (t : Team) (w : Word) (op : Nat) (b : List Byte) : Bool :=
  crClean b && decide (0 < crP b) && decide (crSelf b < crP b) && crAlg b != 3 && (op != 3 || decide (crRoot b < crP b))
    && (crOpx b == 0 || decide (op < 2)) && decide (crCell0 b + crCells b ≤ 256) && decide (crScr b + tileBytes w ≤ t.scratchSize)
/-- Step 5: the operator fits the tile and OPX, and the rows divide among the members. -/
def operatorFits (w : Word) (op red : Nat) (b : List Byte) : Bool :=
  (decide (2 ≤ op) || (if crOpx b != 0 then red == 0 else (red == 5) == tileInt w))
    && (op == 0 || op == 3 || tileRows w % crP b == 0)
/-- Step 6: what stops a barrier word that is not live. -/
def State.barrierStop (s : State) (w : Who) (addr : DWord) : Option Stop :=
  match gather (s.resolveParts w addr 8 .atom) with
  | .error e => some e
  | .ok [{ place := .mem pa, len := _, va := _, fmt := none }] =>
    if s.mem.live pa = some .barrier then none else some (.trap cProtect)
  | .ok _ => some (.trap cProtect)
def mkColl (tile op red : Nat) (record_ : List Byte) (addr word : DWord) : Collective :=
  { num := 0, tile := tile, op := op, red := red, record := record_, recAddr := addr, word := word, joined := [], started := false,
    begun := false, round := crRound record_, members := [], own := [], since := 0, comb := none, sent := [], answers := [],
    resend := [], rerun := [], out := none }
/-- Whether two registrations name one collective (R385). -/
def Collective.agrees (a b : Collective) : Bool :=
  a.recAddr == b.recAddr && a.word == b.word && a.tile == b.tile && a.op == b.op && a.red == b.red && a.record == b.record
/-- Register a group in the first collective of the list it is not in, or a new one; none when it differs from the first group's. -/
def joinColl (group : Nat) (c : Collective) : List Collective → Option (List Collective)
  | [] => some [{ c with joined := nsAdd [] group }]
  | x :: xs =>
    if nsHas x.joined group then (joinColl group c xs).map (x :: ·)
    else if x.agrees c then some ({ x with joined := nsAdd x.joined group } :: xs) else none
/-- COLL. -/
def execColl (d a : SReg) (red : BitVec 3) (op tile : BitVec 4) (s : State) : Out :=
  runMatrix (scalarOk (.coll d a red op tile)) (fun s g sp t =>
    let who := s.whoOf s.sched.core g
    let tw := t.tileWord tile.toNat
    let addr := sp.reg d
    let word := sp.reg a
    if !tileValid tw then .trap (Trap.of cIllegal)
    else if addr.toNat % 64 != 0 then .trap (Trap.at_ cAlign addr)
    else if word.toNat % 8 != 0 then .trap (Trap.at_ cAlign word)
    else if !g.memIssued s.sched.split then .wait s
    else if inScratchWindow addr.toNat then .trap (Trap.at_ cProtect addr)
    else
      match s.nearLoad who addr 64 with
      | .error e => stopScalar e.1 s e.2
      | .ok (s1, b) =>
        if !recordFits t tw op.toNat b then .trap (Trap.at_ cProtect addr)
        else if !operatorFits tw op.toNat red.toNat b then .trap (Trap.of cIllegal)
        else
          match s.barrierStop who word with
          | some e => stopScalar word s (e, false)
          | none =>
            match joinColl g.index (mkColl tile.toNat op.toNat red.toNat b addr word) t.colls with
            | none => .trap (Trap.of cIllegal)
            | some cs =>
              if 4095 ≤ g.async.tiles then .wait s
              else .done ((s1.modTeam g.team fun t => { t with colls := cs }).modGroup s.curKey Group.tileUp).stepOn) s

/-! ### Combining (R236, R388, R392) -/

/-- The reduce operator, OPX in its place when it is not 0. -/
def Collective.combine (c : Collective) (a b : Word) : Word :=
  let k : BitVec 4 × Nat := match crOpx c.record with
    | 1 => (5, 1)
    | 2 => (5, 2)
    | 3 => (5, 3)
    | _ => match c.red with
      | 0 => (12, 0)
      | 1 => (12, 5)
      | 2 => (12, 4)
      | 3 => (12, 7)
      | 4 => (12, 6)
      | _ => (4, 0)
  BitVec.ofNat 32 (atomicOp k.1 k.2 a.toNat b.toNat).bits
def zipWords (f : Word → Word → Word) (a b : List Word) : List Word := (a.zip b).map fun x => f x.1 x.2
/-- Left fold of whole vectors. -/
def foldWords (f : Word → Word → Word) : List (List Word) → List Word
  | [] => []
  | x :: xs => xs.foldl (zipWords f) x
/-- Whether maxnum or minnum meets a NaN among words (R388). -/
def Collective.sawNan (c : Collective) (ws : List Word) : Bool :=
  crOpx c.record == 0 && (c.red == 3 || c.red == 4) && ws.any fun w => ((fmtOf 12).read w.toNat).isNan
/-- The ring's value of element `i` (R388): segments of E elements over L leaders, each a left fold from its own leader. -/
def ringValue (f : Word → Word → Word) (vs : List (List Word)) (e i : Nat) : Word :=
  let l := vs.length
  let seg := ((upFrom 0 l).find? fun c => decide (c * e / l ≤ i) && decide (i < (c + 1) * e / l)).getD 0
  let v := fun (k : Nat) => ((vs[k % l]?).bind fun x => x[i]?).getD 0
  (upFrom (seg + 1) (l - 1)).foldl (fun acc k => f (v k) acc) (v seg)
/-- One level of the pairwise tree over vectors. -/
def treeLevel (f : Word → Word → Word) : List (List Word) → List (List Word)
  | x :: y :: rest => zipWords f x y :: treeLevel f rest
  | xs => xs
/-- The pairwise tree (R54, R388). -/
def treeWords (f : Word → Word → Word) : Nat → List (List Word) → List Word
  | 0, vs => (vs.head?).getD []
  | n + 1, vs => if vs.length ≤ 1 then (vs.head?).getD [] else treeWords f n (treeLevel f vs)
/-- The leaders' values combined under the record's algorithm; cells fold in ascending leader index. -/
def Collective.reduce (c : Collective) (vs : List (List Word)) : List Word :=
  match crAlg c.record with
  | 0 => (upFrom 0 c.own.length).map (ringValue c.combine vs c.own.length)
  | 1 => treeWords c.combine vs.length vs
  | _ => foldWords c.combine vs

/-! ### Members and pieces (R381, R382) -/

def rankOf (stage : Nat) : Nat := stage / 2 ^ 43 % 2 ^ 20
def Collective.self (c : Collective) : Nat := crSelf c.record
def Collective.stage (c : Collective) (m : Nat) : Nat := (c.members[m]?).getD 0
/-- The local set of a member, ascending; its first is its leader. -/
def Collective.localSet (c : Collective) (m : Nat) : List Nat :=
  (upFrom 0 c.members.length).filter fun k => rankOf (c.stage k) == rankOf (c.stage m)
def Collective.leaderOf (c : Collective) (m : Nat) : Nat := ((c.localSet m).head?).getD m
/-- The leaders, by index. -/
def Collective.leaders (c : Collective) : List Nat := (upFrom 0 c.members.length).filter fun m => c.leaderOf m == m
def Collective.leads (c : Collective) : Bool := c.leaderOf c.self == c.self
def Collective.leaderIndex (c : Collective) : Nat := (c.leaders.filter fun m => decide (m < c.self)).length
/-- Words `first` on of what a kind of piece from an index holds, as far as they have landed. -/
def State.landed (s : State) (c : Collective) (kind : PieceKind) (index : Nat) (i : Nat) : Option Word :=
  s.fabric.pieces.findSome? fun x =>
    if x.stage == c.stage c.self && x.round == c.round && x.kind == kind && x.index == index && decide (x.first ≤ i) then x.words[i - x.first]?
    else none
/-- A run of words, once all of it has landed. -/
def State.landedRun (s : State) (c : Collective) (kind : PieceKind) (index first n : Nat) : Option (List Word) :=
  let l := (upFrom first n).map (s.landed c kind index)
  if l.all Option.isSome then some (l.map fun w => w.getD 0) else none
/-- Cut words into pieces of 64 (256 bytes), each with its first index. -/
def cutWords : Nat → Nat → List Word → List (Nat × List Word)
  | 0, _, _ => []
  | n + 1, first, ws => if ws.isEmpty then [] else (first, ws.take 64) :: cutWords n (first + 64) (ws.drop 64)
/-- Send a run of words to a member as pieces (R381); the landing area follows the work area. -/
def State.sendPieces (s : State) (team : Nat) (t : Team) (c : Collective) (kind : PieceKind) (index dest : Nat) (nan : Bool) (first : Nat)
    (ws : List Word) : State :=
  let stage := c.stage dest
  let rank := rankOf stage
  let die := dieOf t.core
  let land := 128 + (4 * c.own.length + 127) / 128 * 128
  (cutWords (ws.length / 64 + 1) first ws).foldl (fun a x =>
    let piece : Piece := { stage := stage, round := c.round, kind := kind, index := index, core := t.core, nan := nan, first := x.1, words := x.2 }
    let res := (a.resolveRank die rank).getD (0, 0, 0)
    let k : Ticket := { owner := .coll team, rank := rank, cls := res.1, addr := BitVec.ofNat 64 stage, ty := 5, src := none, rm := 0, lanes := [],
                        keep := none }
    let r := a.newTicket k
    let body : PktBody := .piece (land + 4 * x.1) piece
    if rank = a.dev.rank then r.1.receivePod die (mkPacket a.dev.rank rank 0 r.2 (a.teamTraffic team) body)
    else r.1.sendTo die rank res r.2 (a.teamTraffic team) body) s

/-! ### Starting (R385, R386, R389) -/

def State.modColl (s : State) (team : Nat) (f : Collective → Collective) : State :=
  s.modTeam team fun t => { t with colls := match t.colls with
    | [] => []
    | c :: rest => f c :: rest }
/-- The collective takes its number once every live group has registered it (R385). -/
def State.collStart (s : State) (team : Nat) (t : Team) (c : Collective) : State :=
  if c.started || t.groups.isEmpty || !(t.groups.all fun g => nsHas c.joined g.1) then s
  else
    let n := (s.windowWord (collWord t.core t.slot0)).toNat + 1
    s.modColl team fun c => { c with started := true, num := n, since := s.now }
/-- The member table (R381): the staging buffers, or none when an entry is malformed or names an unmapped rank. -/
def State.memberTable (s : State) (t : Team) (c : Collective) : Option (List Nat) :=
  match s.devRead t.asid (crMembers c.record) (16 * crP c.record) with
  | none => none
  | some b =>
    let xs := (upFrom 0 (crP c.record)).map fun i => (field b (16 * i) 8, field b (16 * i + 8) 8)
    if xs.all fun x => decide (2 ^ 63 ≤ x.1) && x.1 % 128 == 0 && x.2 == 0 && rankOf x.1 != 0xFFFFF
        && (rankOf x.1 == s.dev.rank || (s.resolveRank (dieOf t.core) (rankOf x.1)).isSome) then some (xs.map (·.1)) else none
/-- The tile's words in row-major order. -/
def Team.tileWords (t : Team) (tile : Nat) : List Word :=
  let w := t.tileWord tile
  (upFrom 0 (tileRows w)).flatMap fun r => (upFrom 0 (tileCols w)).map fun n => t.elem tile r n
/-- First word and length of part `j` of a tile. -/
def Collective.part (c : Collective) (j : Nat) : Nat × Nat :=
  let n := c.own.length / Nat.max 1 (crP c.record)
  (j * n, n)
/-- What OP 2 to 4 send to a member (R387): first word and words. -/
def Collective.dataFor (c : Collective) (k : Nat) : Nat × List Word :=
  let cut := fun (p : Nat × Nat) => (p.1, (c.own.drop p.1).take p.2)
  match c.op with
  | 2 => cut (c.part c.self)
  | 3 => if c.self = crRoot c.record then (0, c.own) else (0, [])
  | _ => cut (c.part k)
/-- The tile is read to its image, and the transfers begin (R386). -/
def State.collBegin (s : State) (team : Nat) (t : Team) (c : Collective) : State :=
  let b := s.devRead t.asid c.recAddr.toNat 64
  let ws := t.tileWords c.tile
  let s1 := s.scratchWrite team (crScr c.record) (ws.flatMap fun w => bytesOf 4 w.toNat)
  let c1 : Collective := { c with begun := true, own := ws, since := s.now, round := (b.map crRound).getD c.round }
  if crP c.record = 1 then s1.modColl team fun _ => { c1 with out := some { CollOut.stop 1 with count := 1 } }
  else
    match s1.memberTable t c1 with
    | none => s1.modColl team fun _ => { c1 with out := some (CollOut.stop 4) }
    | some ms =>
      let c2 : Collective := { c1 with members := ms }
      let s2 := s1.modColl team fun _ => c2
      if 2 ≤ c.op then
        ((upFrom 0 ms.length).filter fun k => k != c2.self).foldl (fun a k =>
          let x := c2.dataFor k
          a.sendPieces team t c2 .data c2.self k false x.1 x.2) s2
      else if c2.leads then s2
      else s2.sendPieces team t c2 .member c2.self (c2.leaderOf c2.self) (c2.sawNan ws) 0 ws
/-- Serve the pages of the member table; a page that cannot be mapped ends the collective with FAULT. -/
def State.collServe (s : State) (team : Nat) (t : Team) (c : Collective) : State × Option Bool :=
  s.serveRange (dieOf t.core) (crMembers c.record) (16 * crP c.record) t.launch t.asid t.rcb (.coll team)

/-! ### The local stage (R388) -/

/-- Pieces of a member's contribution in the order in which they came: members by their first piece. -/
def State.arrivalOrder (s : State) (c : Collective) : List (Nat × Nat) :=
  s.fabric.pieces.foldl (fun m x =>
    if x.stage == c.stage c.self && x.round == c.round && x.kind == .member && !m.any (fun y => y.1 == x.index) then m ++ [(x.index, x.core)]
    else m) []
/-- The cores of a list of members, ascending. -/
def coresOf (ms : List (Nat × Nat)) : List Nat := (ms.foldl (fun (m : NSet) x => nsAdd m x.2) []).map (·.1)
/-- The value of the leader's local set, once every member's contribution has landed: for maxnum and minnum in ascending member index,
else by cores in ascending id, each core's members in arrival order. -/
def State.localValue (s : State) (c : Collective) : Option (List Word × Bool) :=
  let others := (c.localSet c.self).filter fun m => m != c.self
  let n := c.own.length
  if !others.all fun m => (s.landedRun c .member m 0 n).isSome then none
  else
    let val := fun (m : Nat) => (s.landedRun c .member m 0 n).getD []
    let nan := c.sawNan c.own || s.fabric.pieces.any fun x =>
      x.stage == c.stage c.self && x.round == c.round && x.kind == .member && x.nan
    let byIndex := crOpx c.record = 0 && (c.red == 3 || c.red == 4)
    if byIndex then some (foldWords c.combine (c.own :: others.map val), nan)
    else
      let order := s.arrivalOrder c
      let parts := (coresOf order).map fun k => foldWords c.combine ((order.filter fun x => x.2 == k).map fun x => val x.1)
      some (foldWords c.combine (c.own :: parts), nan)

/-! ### Reduction cells, as a leader sees them (R392 to R394) -/

def Collective.slices (c : Collective) : Nat := (c.own.length + 15) / 16
/-- The words of a slice of the leader's value. -/
def Collective.sliceWords (c : Collective) (i : Nat) : List Word := (((c.comb.map (·.1)).getD []).drop (16 * i)).take 16
/-- Whether a leader sends nothing more: it has met SHORT or "cell closed". -/
def Collective.halted (c : Collective) : Bool :=
  c.answers.any fun a => match a.2 with
    | .short _ _ _ => true
    | .closed => true
    | _ => false
/-- The slices of one cell that come next: none while one is out or waits to be resent. -/
def Collective.nextSlice (c : Collective) (k : Nat) : Option Nat :=
  let mine := (upFrom 0 c.slices).filter fun i => i % crCells c.record == k
  if c.halted || mine.any (fun i => (amGet c.sent i).isSome || (amGet c.resend i).isSome) then none
  else mine.find? fun i => (amGet c.answers i).isNone && (amGet c.rerun i).isNone
/-- Send a slice to its cell: a pod packet needs a reservation (R364). -/
def State.sendSlice (s : State) (team : Nat) (t : Team) (c : Collective) (i : Nat) : State :=
  let rank := crCellRank c.record
  let die := dieOf t.core
  let res := if rank = s.dev.rank then some (3, 0, 0) else s.resolveRank die rank
  match res with
  | none => (s.noteRank rank).collEnd team (CollOut.stop 4)
  | some r =>
    let go := if r.1 = 0 then s.reserve t.core rank else (s, true)
    if !go.2 then go.1
    else
      let k : Ticket := { owner := .coll team, rank := rank, cls := r.1, addr := BitVec.ofNat 64 i, ty := 5, src := none, rm := 0, lanes := [],
                          keep := none }
      let x := go.1.newTicket k
      let cell := crCell0 c.record + i % crCells c.record
      let con : CellContrib :=
        { leader := c.leaderIndex, round := c.round, leaders := c.leaders.length, op := BitVec.ofNat 3 c.red,
          opx := BitVec.ofNat 2 (crOpx c.record), int := c.red == 5, slice := i, timer := crTimer c.record, words := c.sliceWords i,
          source := s.dev.rank, ticket := x.2 }
      let s1 := x.1.modColl team fun c => { c with sent := amSet c.sent i s.now, resend := amDel c.resend i }
      if rank = s.dev.rank then s1.wakeUp (.cellContribution (crCellDie c.record) cell con)
      else s1.sendTo die rank r x.2 (s.teamTraffic team) (.contribution (crCellDie c.record) cell con)
/-- Send what the cells can take. -/
def State.sendSlices (s : State) (team : Nat) (t : Team) : State :=
  (upFrom 0 256).foldl (fun a k =>
    match (a.team team).bind fun x => x.colls.head? with
    | some c => if k < crCells c.record && c.out.isNone then
        (match c.nextSlice k with
         | some i => a.sendSlice team t c i
         | none => a)
      else a
    | none => a) s
/-- Rerun a slice among the leaders: each copies it to every other (R394). -/
def State.rerunSlice (s : State) (team : Nat) (t : Team) (i : Nat) : State :=
  match (s.team team).bind fun x => x.colls.head? with
  | none => s
  | some c =>
    if (amGet c.rerun i).isSome || (amGet c.answers i).isSome then s
    else
      let s1 := s.modColl team fun c => { c with sent := amDel c.sent i, resend := amDel c.resend i, rerun := amSet c.rerun i s.now }
      let nan := (c.comb.map (·.2)).getD false
      (c.leaders.filter fun m => m != c.self).foldl (fun a m =>
        a.sendPieces team t c .leader c.leaderIndex m nan (16 * i) (c.sliceWords i)) s1
/-- The leaders whose words of a rerun slice are here, with the words: this leader's own among them. -/
def State.rerunValues (s : State) (c : Collective) (i : Nat) : List (List Word) :=
  (upFrom 0 c.leaders.length).filterMap fun l =>
    if l = c.leaderIndex then some (c.sliceWords i) else s.landedRun c .leader l (16 * i) (c.sliceWords i).length
/-- A rerun slice as an answer: all leaders present, or, once TIMER has passed, those that are (R394). -/
def State.rerunReply (s : State) (c : Collective) (i : Nat) (late : Bool) : Option CellReply :=
  let vs := s.rerunValues c i
  let nan := c.sawNan (vs.flatMap id) || s.fabric.pieces.any fun x =>
    x.stage == c.stage c.self && x.round == c.round && x.kind == .leader && x.nan
  if vs.length = c.leaders.length then some (.result (foldWords c.combine vs) vs.length nan)
  else if late then some (.short (foldWords c.combine vs) vs.length nan) else none

/-! ### Results (R387, R393) -/

/-- The elements a cell's answers give; the rest stay as the member's own. -/
def Collective.answered (c : Collective) : List (Option Word) :=
  (upFrom 0 c.own.length).map fun j => match amGet c.answers (j / 16) with
    | some (.result ws _ _) => ws[j % 16]?
    | some (.short ws _ _) => ws[j % 16]?
    | _ => none
/-- The outcome of a leader's in-network collective, once no slice is out (R393): FAULT is taken elsewhere; CLOSED, SHORT, done. -/
def Collective.cellOut (c : Collective) : Option CollOut :=
  let open_ := !c.sent.isEmpty || !c.resend.isEmpty || c.rerun.any fun r => (amGet c.answers r.1).isNone
  let all := (upFrom 0 c.slices).all fun i => (amGet c.answers i).isSome
  if open_ || !(all || c.halted) then none
  else
    let nan := c.answers.any fun a => match a.2 with | .result _ _ x => x | .short _ _ x => x | _ => false
    let rerun := !c.rerun.isEmpty
    let shorts := c.answers.filterMap fun a => match a.2 with | .short _ n _ => some n | _ => none
    if c.answers.any fun a => a.2 == .closed then some { CollOut.stop 7 with rerun := rerun }
    else
      match shorts with
      | [] => some { status := 1, count := crP c.record, nan := nan, rerun := rerun, words := c.answered }
      | n :: ns => some { status := 6, count := ns.foldl Nat.min n, nan := nan, rerun := rerun, words := c.answered }
/-- The elements of OP 2 to 4, once they have landed (R387). -/
def State.dataOut (s : State) (c : Collective) : Option CollOut :=
  let others := (upFrom 0 c.members.length).filter fun m => m != c.self
  let need : List (Nat × Nat × Nat) := match c.op with
    | 2 => others.map fun m => (m, (c.part m).1, (c.part m).2)
    | 3 => if c.self = crRoot c.record then [] else [(crRoot c.record, 0, c.own.length)]
    | _ => others.map fun m => (m, (c.part c.self).1, (c.part c.self).2)
  if !need.all fun x => (s.landedRun c .data x.1 x.2.1 x.2.2).isSome then none
  else
    let base : List (Option Word) := c.own.map fun _ => none
    let place := fun (at_ : Nat) (ws : List Word) (l : List (Option Word)) => l.take at_ ++ ws.map some ++ l.drop (at_ + ws.length)
    let run := fun (x : Nat × Nat × Nat) => (s.landedRun c .data x.1 x.2.1 x.2.2).getD []
    let words := match c.op with
      | 4 =>
        let mine := c.part c.self
        let own := place mine.1 ((c.own.drop mine.1).take mine.2) base
        need.foldl (fun l x => place (c.part x.1).1 (run x) l) own
      | _ => need.foldl (fun l x => place x.2.1 (run x) l) base
    some { status := 1, count := crP c.record, nan := false, rerun := false, words := words }
/-- A leader's result of a ring or tree, once every leader's value has landed. -/
def State.leadOut (s : State) (c : Collective) : Option CollOut :=
  let n := c.own.length
  let idx := upFrom 0 c.leaders.length
  match c.comb with
  | none => none
  | some (mine, nan) =>
    let val := fun (l : Nat) => if l = c.leaderIndex then some mine else s.landedRun c .leader l 0 n
    if !idx.all fun l => (val l).isSome then none
    else
      let far := s.fabric.pieces.any fun x => x.stage == c.stage c.self && x.round == c.round && x.kind == .leader && x.nan
      some { status := 1, count := crP c.record, nan := nan || far, rerun := false,
             words := (c.reduce (idx.map fun l => (val l).getD [])).map some }
/-- What a member that is no leader has been told by its leader. -/
def State.toldOut (s : State) (c : Collective) : Option CollOut :=
  (s.fabric.results.find? fun r => r.1 == c.stage c.self && r.2.1 == c.round).map (·.2.2)

/-! ### The engine's progress -/

/-- A leader takes its local set's value and begins the algorithm among leaders. -/
def State.collCombine (s : State) (team : Nat) (t : Team) (c : Collective) : State :=
  match s.localValue c with
  | none => s
  | some v =>
    let s1 := s.modColl team fun c => { c with comb := some v }
    if crAlg c.record = 2 then
      (if 64 < c.leaders.length then s1.collEnd team (CollOut.stop 4) else s1.sendSlices team t)
    else
      (c.leaders.filter fun m => m != c.self).foldl (fun a m => a.sendPieces team t c .leader c.leaderIndex m v.2 0 v.1) s1
/-- The outcome that what has landed gives. -/
def State.collOutcome (s : State) (c : Collective) : Option CollOut :=
  if 2 ≤ c.op then s.dataOut c
  else if !c.leads then s.toldOut c
  else if crAlg c.record = 2 then c.cellOut
  else s.leadOut c
/-- Rerun slices whose leaders are all there get their answers. -/
def Collective.fillRerun (s : State) (late : Nat → Bool) (c : Collective) : Collective :=
  c.rerun.foldl (fun a r =>
    if (amGet a.answers r.1).isSome then a
    else
      match s.rerunReply a r.1 (late r.2) with
      | some x => { a with answers := amSet a.answers r.1 x }
      | none => a) c
/-- A leader tells the other members of its local set (R388). -/
def State.tellSet (s : State) (c : Collective) (o : CollOut) : State :=
  if 2 ≤ c.op || !c.leads then s
  else s.modFab fun f => { f with results := f.results ++
    ((c.localSet c.self).filter fun m => m != c.self).map fun m => (c.stage m, c.round, o) }
/-- The engine of a team goes on as far as it can. -/
def State.collStep (s : State) (team : Nat) : State :=
  match s.team team with
  | none => s
  | some t =>
    match t.colls with
    | [] => s
    | c :: _ =>
      if !c.started then s.collStart team t c
      else if !c.begun then
        (if (s.engines t.core).matq.any fun o => o.team == team && o.kind.tile == some c.tile then s
         else if crP c.record = 1 then s.collBegin team t c
         else
           match s.collServe team t c with
           | (s1, none) => s1
           | (s1, some _) => s1.collBegin team t c)
      else if c.out.isSome then s
      else if c.op < 2 && c.leads && c.comb.isNone then s.collCombine team t c
      else
        let s1 := if c.rerun.isEmpty then s else s.modColl team (Collective.fillRerun s fun _ => false)
        let s2 := if crAlg c.record = 2 && c.op < 2 && c.leads then s1.sendSlices team t else s1
        match ((s2.team team).bind fun x => x.colls.head?).bind fun c => (s2.collOutcome c).map fun o => (c, o) with
        | some (c, o) => (s2.collEnd team o).tellSet c o
        | none => s2

/-! ### Completion (R389, R390) -/

/-- Whether a team's collective can complete: it has its outcome, and one that is done waits for its transfers. -/
def State.collReady (s : State) (team : Nat) (c : Collective) : Bool :=
  match c.out with
  | none => false
  | some o => o.status != 1 || !(s.fabric.tickets.any fun t => t.2.owner == .coll team)
/-- The part of the tile that the result may write. -/
def Collective.writes (c : Collective) (j : Nat) : Bool :=
  let p := c.part c.self
  c.op != 1 || (decide (p.1 ≤ j) && decide (j < p.1 + p.2))
/-- Step 1: the result goes through the image into the tile. -/
def State.collTile (s : State) (team : Nat) (t : Team) (c : Collective) (o : CollOut) : State :=
  let cols := tileCols (t.tileWord c.tile)
  let ws := (o.words.zip (upFrom 0 o.words.length)).filterMap fun x => if c.writes x.2 then x.1.map fun w => (x.2, w) else none
  let s1 := ws.foldl (fun a x => a.scratchWrite team (crScr c.record + 4 * x.1) (bytesOf 4 x.2.toNat)) s
  s1.modTeam team fun t => ws.foldl (fun a x => a.setElem c.tile (x.1 / cols) (x.1 % cols) x.2) t
/-- Step 2: STATUS, COUNT, NANSEEN and RERUN; SEQ; ROUND. -/
def State.collRecord (s : State) (t : Team) (c : Collective) (o : CollOut) : State :=
  let b := (s.devRead t.asid c.recAddr.toNat 64).getD c.record
  let st := o.status + (if o.nan then 256 else 0) + (if o.rerun then 512 else 0) + o.count % 2 ^ 16 * 2 ^ 16
  ((s.devWrite t.asid (c.recAddr.toNat + 28) (bytesOf 2 (crRound b + 1).toNat)).devWrite t.asid (c.recAddr.toNat + 48) (bytesOf 8 st)).devWrite
    t.asid (c.recAddr.toNat + 56) (bytesOf 8 c.num)
/-- Step 4: one arrival with 0 bytes on the barrier word, or a report to the fault domain. -/
def State.collArrive (s : State) (t : Team) (c : Collective) : State :=
  let report := fun (cause : Byte) =>
    let packet := ((s.launch t.launch).map (·.packet.toNat)).getD 0
    s.escalateRcb t.asid t.rcb t.launch (evt 3 0 cause packet 0 c.word.toNat)
  match s.wordPA t.asid c.word.toNat .atom with
  | none => report cProtect
  | some pa =>
    let w := s.wordAt pa
    if s.mem.live pa != some .barrier then report cProtect
    else if barPending w = 0 then report cQueue
    else s.setWord pa (flipCheck (mkBarrier (barPhase w) (barExpected w) (barPending w - 1) (barBytes w)))
/-- The groups that registered leave their class; pieces of the round go; tickets still out are nobody's. -/
def State.collLeave (s : State) (team : Nat) (t : Team) (c : Collective) : State :=
  let s1 := t.groups.foldl (fun a g => if nsHas c.joined g.1 then a.modGroup (gkey t.core g.2) Group.tileDown else a) s
  let stage := c.stage c.self
  let s2 := s1.modFab fun f =>
    { f with pieces := f.pieces.filter (fun x => !(x.stage == stage && x.round == c.round))
             results := f.results.filter (fun r => !(r.1 == stage && r.2.1 == c.round))
             tickets := amMap (fun _ (k : Ticket) => if k.owner == .coll team then { k with owner := .none } else k) f.tickets }
  (s2.modTeam team fun t => { t with colls := t.colls.drop 1 }).wakeUp (.teamRetire team)
/-- COLLECTIVE_COMPLETE: tile, record, timeline and arrival, in order. -/
def execCollectiveComplete (team : Nat) (s : State) : Out :=
  match s.team team with
  | none => .next s
  | some t =>
    match t.colls with
    | [] => .next s
    | c :: _ =>
      match c.out with
      | none => .next s
      | some o =>
        if !s.collReady team c then .next s
        else
          let s1 := (s.collTile team t c o).collRecord t c o
          let s2 := s1.setWindow (collWord t.core t.slot0) (BitVec.ofNat 64 c.num)
          .next ((s2.collArrive t c).collLeave team t c)
/-- Whether a wait for a piece is limited: of a ring or tree, or of data that OP 2 to 4 move (R390). -/
def Collective.limited (c : Collective) : Bool := crAlg c.record != 2 || decide (2 ≤ c.op)
/-- COLLECTIVE_TIMEOUT: the wait for a piece has lasted TIMER, and the collective is SHORT; a rerun slice goes with the leaders present. -/
def execCollectiveTimeout (team : Nat) (s : State) : Out :=
  match (s.team team).bind fun t => t.colls.head? with
  | none => .next s
  | some c =>
    let limit := crTimer c.record * Config.usCycles
    if !c.begun || c.out.isSome then .next s
    else if c.limited then
      (if c.since + limit ≤ s.now then .next ((s.collEnd team (CollOut.stop 6)).tellSet c (CollOut.stop 6)) else .next s)
    else .next (s.modColl team (Collective.fillRerun s fun t => decide (t + limit ≤ s.now)))

/-! ### What the cells answer (R392 to R394) -/

/-- CELL_ANSWER. -/
def execCellAnswer (team slice : Nat) (r : CellReply) (s : State) : Out :=
  match s.team team with
  | none => .next s
  | some t =>
    match t.colls with
    | [] => .next s
    | c :: _ =>
      if !c.begun || c.out.isSome || (amGet c.sent slice).isNone then .next s
      else
        match r with
        | .busy => .next (s.modColl team fun c =>
            { c with sent := amDel c.sent slice, resend := amSet c.resend slice (s.now + Config.usCycles) })
        | .lost => .next ((s.rerunSlice team t slice).sendSlices team t)
        | x => .next ((s.modColl team fun c => { c with sent := amDel c.sent slice, answers := amSet c.answers slice x }).sendSlices team t)
/-- CELL_BUSY_RESEND: a microsecond after a busy NACK the slice is sent again. -/
def execCellBusyResend (team slice : Nat) (s : State) : Out :=
  match s.team team with
  | none => .next s
  | some t =>
    match t.colls with
    | [] => .next s
    | c :: _ =>
      match amGet c.resend slice with
      | some x => if x ≤ s.now && c.out.isNone then .next (s.sendSlice team t c slice) else .next s
      | none => .next s
/-- The slices that have had no answer for twice TIMER. -/
def State.lostSlices (s : State) (c : Collective) : List Nat :=
  c.sent.filterMap fun x => if x.2 + 2 * crTimer c.record * Config.usCycles ≤ s.now then some x.1 else none
/-- CELL_LOST_RERUN: no answer came within twice TIMER, and the leaders rerun the slice. -/
def execCellLostRerun (team : Nat) (s : State) : Out :=
  match s.team team with
  | none => .next s
  | some t =>
    match t.colls with
    | [] => .next s
    | c :: _ => if !c.begun || c.out.isSome then .next s else .next ((s.lostSlices c).foldl (fun a i => a.rerunSlice team t i) s)

/-! ### The cells (R391 to R393) -/

def cellKey (die cell : Nat) : Nat := die * 256 + cell
/-- Answer a leader. -/
def State.cellReply (s : State) (die : Nat) (c : CellContrib) (r : CellReply) : State :=
  if c.source = s.dev.rank then
    match (amGet s.fabric.tickets c.ticket).map Ticket.owner with
    | some (.coll team) => (s.dropTicket c.ticket).wakeUp (.cellAnswer team c.slice r)
    | _ => s
  else s.replyTo die c.source c.ticket (.cellReply c.ticket c.slice r)
/-- Insertion of a contribution by its leader, ascending. -/
def insertLeader (x : CellContrib) : List CellContrib → List CellContrib
  | [] => [x]
  | y :: ys => if y.leader ≤ x.leader then y :: insertLeader x ys else x :: y :: ys
/-- The combination of what has arrived, folded in ascending leader index, and whether maxnum or minnum met a NaN. -/
def cellFold (got : List CellContrib) : List Word × Bool :=
  match got with
  | [] => ([], false)
  | x :: _ =>
    let c := mkColl 0 0 x.op.toNat (bytesOf 8 (x.opx.toNat * 16)) 0 0
    let sorted := got.foldl (fun l y => insertLeader y l) []
    (foldWords c.combine (sorted.map (·.words)), c.sawNan (got.flatMap (·.words)))
/-- CELL_CONTRIBUTION: combined, or answered closed, busy or lost; the last of a slice's contributions answers them all. -/
def execCellContribution (die cell : Nat) (c : CellContrib) (s : State) : Out :=
  let key := cellKey die cell
  let s0 := match s.resolveRank die c.source with
    | some (0, _, _) => if c.source = s.dev.rank then s else s.appliedOne c.source
    | _ => s
  if !nsHas s.dev.cells key then .next (s0.cellReply die c .lost)
  else
    let x := (amGet s.fabric.cells key).getD { round := c.round, slice := c.slice, leaders := c.leaders, since := 0, timer := 0, got := [] }
    let ahead := (c.round - x.round).toNat
    if 2 ^ 15 ≤ ahead then .next (s0.cellReply die c .closed)
    else if !x.got.isEmpty && (ahead != 0 || x.slice != c.slice) then .next (s0.cellReply die c .busy)
    else
      let got := if x.got.any fun y => y.leader == c.leader then x.got else x.got ++ [c]
      let y : CellState := if x.got.isEmpty then
          { round := c.round, slice := c.slice, leaders := c.leaders, since := s.now, timer := c.timer, got := got }
        else { x with got := got }
      if got.length < y.leaders then .next (s0.modFab fun f => { f with cells := amSet f.cells key y })
      else
        let r := cellFold got
        .next (got.foldl (fun a m => a.cellReply die m (.result r.1 got.length r.2))
          (s0.modFab fun f => { f with cells := amSet f.cells key { y with got := [] } }))
/-- CELL_TIMER_EXPIRY: what has arrived is answered SHORT, and the round closes. -/
def execCellTimerExpiry (die cell : Nat) (s : State) : Out :=
  let key := cellKey die cell
  match amGet s.fabric.cells key with
  | none => .next s
  | some x =>
    if x.got.isEmpty || decide (s.now < x.since + x.timer * Config.usCycles) then .next s
    else
      let r := cellFold x.got
      .next (x.got.foldl (fun a m => a.cellReply die m (.short r.1 x.got.length r.2))
        (s.modFab fun f => { f with cells := amSet f.cells key { x with round := x.round + 1, got := [] } }))
/-- CELLS: a run of contiguous free cells of the die. -/
def execCells (tag : Byte) (n die : Nat) (s : State) : Out :=
  hostCommand tag (fun s =>
    let firsts := (upFrom 0 (257 - n)).filter fun f => (upFrom f n).all fun k => !nsHas s.dev.cells (cellKey die k)
    if decide (3 < die) || n = 0 || decide (256 < n) || firsts.isEmpty then s.answer tag 1
    else
      let f := (firsts[s.freeNat firsts.length]?).getD 0
      let s1 := s.usedFree
      (s1.modDev fun d => { d with cells := (upFrom f n).foldl (fun m k => nsAdd m (cellKey die k)) d.cells }).answer tag 0
        (bytesOf 1 f ++ bytesOf 1 die)) s
/-- CELLFREE: the named cells; an open round's state is lost. -/
def execCellfree (tag : Byte) (first count die : Nat) (s : State) : Out :=
  hostCommand tag (fun s =>
    let ks := (upFrom first count).map (cellKey die)
    if decide (3 < die) || count = 0 || decide (256 < first + count) || !ks.all (nsHas s.dev.cells) then s.answer tag 1
    else
      ((s.modDev fun d => { d with cells := ks.foldl nsDel d.cells }).modFab fun f => { f with cells := ks.foldl amDel f.cells }).answer
        tag 0) s

end Sys2Proof.Machine
end

