-- ==== Sys2Proof/Machine/LaneFloat.lean ====
section
/-! DEFINITION. Floating lane instructions (R65 to R71). -/
namespace Sys2Proof.Machine

/-- FADD, FSUB, FMUL, FDIV (R66, R70). -/
def execFadd (f : LaneF) (s : State) : Out :=
  lane2 (laneOk (.fadd f)) f f.td f.td f.td (fAdd f.td f.rm) s
def execFsub (f : LaneF) (s : State) : Out :=
  lane2 (laneOk (.fsub f)) f f.td f.td f.td (fSub f.td f.rm) s
def execFmul (f : LaneF) (s : State) : Out :=
  lane2 (laneOk (.fmul f)) f f.td f.td f.td (fMul f.td f.rm) s
def execFdiv (f : LaneF) (s : State) : Out :=
  lane2 (laneOk (.fdiv f)) f f.td f.td f.td (fDiv f.td f.rm) s
/-- FMA: rounded once (R66). -/
def execFma (f : LaneF) (s : State) : Out :=
  lane3 (laneOk (.fma f)) f f.td f.td f.td f.td (fFma f.td f.rm) s
/-- FMIN and FMAX (R67). -/
def execFmin (f : LaneF) (s : State) : Out :=
  lane2 (laneOk (.fmin f)) f f.td f.td f.td (fMinMax f.td false (f.fn.getLsbD 0)) s
def execFmax (f : LaneF) (s : State) : Out :=
  lane2 (laneOk (.fmax f)) f f.td f.td f.td (fMinMax f.td true (f.fn.getLsbD 0)) s
/-- FABS and FNEG (R68): the sign bit only. -/
def execFabs (f : LaneF) (s : State) : Out :=
  lane1 (laneOk (.fabs f)) f f.td f.td (fun a => Num.pure (a % (fmtOf f.td).signBit)) s
def execFneg (f : LaneF) (s : State) : Out :=
  lane1 (laneOk (.fneg f)) f f.td f.td (fun a => Num.pure (a ^^^ (fmtOf f.td).signBit)) s
/-- FCMP (R69). -/
def execFcmp (f : LaneF) (s : State) : Out :=
  laneCmp (laneOk (.fcmp f)) f (fCompare f.td (f.fn &&& 7).toNat) s
/-- The correctly rounded functions (R70). -/
def execFrcp (f : LaneF) (s : State) : Out :=
  lane1 (laneOk (.frcp f)) f f.td f.td (fFun .rcp f.td f.rm) s
def execFrsq (f : LaneF) (s : State) : Out :=
  lane1 (laneOk (.frsq f)) f f.td f.td (fFun .rsq f.td f.rm) s
def execFsqrt (f : LaneF) (s : State) : Out :=
  lane1 (laneOk (.fsqrt f)) f f.td f.td (fFun .sqrt f.td f.rm) s
def execFexp2 (f : LaneF) (s : State) : Out :=
  lane1 (laneOk (.fexp2 f)) f f.td f.td (fFun .exp2 f.td f.rm) s
def execFlog2 (f : LaneF) (s : State) : Out :=
  lane1 (laneOk (.flog2 f)) f f.td f.td (fFun .log2 f.td f.rm) s
def execFsinpi (f : LaneF) (s : State) : Out :=
  lane1 (laneOk (.fsinpi f)) f f.td f.td (fFun .sinpi f.td f.rm) s
def execFcospi (f : LaneF) (s : State) : Out :=
  lane1 (laneOk (.fcospi f)) f f.td f.td (fFun .cospi f.td f.rm) s
/-- FSCALE: the scale is read as i32 (R71). -/
def execFscale (f : LaneF) (s : State) : Out :=
  lane2 (laneOk (.fscale f)) f f.td 4 f.td (fun a n => fScale f.td f.rm a (intVal 4 n)) s
/-- FCLASS (R71). -/
def execFclass (f : LaneF) (s : State) : Out :=
  lane1 (laneOk (.fclass f)) f f.ta 5 (fun a => Num.pure (fClass f.ta a)) s
/-- FRINT (R71). -/
def execFrint (f : LaneF) (s : State) : Out :=
  lane1 (laneOk (.frint f)) f f.td f.td (fRint f.td f.rm) s

end Sys2Proof.Machine
end

