-- ==== Sys2Proof/Machine/LaneInt.lean ====
section
/-! DEFINITION. Integer, logic, bit and move lane instructions (R59 to R64). -/
namespace Sys2Proof.Machine

/-- `.sat` (R60). -/
def satBit (f : LaneF) : Bool := f.fn.getLsbD 0
/-- A two-operand integer form whose exact result wraps or saturates (R60). -/
def intBin (ok : Bool) (f : LaneF) (op : Int → Int → Int) (s : State) : Out :=
  lane2 ok f f.td f.td f.td (fun a b => fitInt f.td (satBit f) (op (intVal f.td a) (intVal f.td b))) s
/-- A two-operand form on bit patterns. -/
def bitBin (ok : Bool) (f : LaneF) (op : Nat → Nat → Nat) (s : State) : Out :=
  lane2 ok f f.td f.td f.td (fun a b => Num.pure (op a b)) s
/-- A shift: the count is read as n32 (R59, R62). -/
def shiftOp (ok : Bool) (f : LaneF) (op : Nat → Nat → Nat → Nat) (s : State) : Out :=
  lane2 ok f f.td 5 f.td (fun a n => Num.pure (op (widthOf f.td) a n)) s
/-- A one-operand form on the w-bit pattern. -/
def bitUn (ok : Bool) (f : LaneF) (op : Nat → Nat → Nat) (s : State) : Out :=
  lane1 ok f f.td f.td (fun a => Num.pure (op (widthOf f.td) a)) s

/-- IADD (R60). -/
def execIadd (f : LaneF) (s : State) : Out :=
  intBin (laneOk (.iadd f)) f (fun a b => a + b) s
/-- ISUB. -/
def execIsub (f : LaneF) (s : State) : Out :=
  intBin (laneOk (.isub f)) f (fun a b => a - b) s
/-- IMUL. -/
def execImul (f : LaneF) (s : State) : Out :=
  intBin (laneOk (.imul f)) f (fun a b => a * b) s
/-- IMULH: the upper w bits of the product. -/
def execImulh (f : LaneF) (s : State) : Out :=
  lane2 (laneOk (.imulh f)) f f.td f.td f.td (fun a b =>
    Num.pure (wrapInt (widthOf f.td) (Int.fdiv (intVal f.td a * intVal f.td b) (2 ^ widthOf f.td : Nat)))) s
/-- IMAD: exact before any wrap or clamp. -/
def execImad (f : LaneF) (s : State) : Out :=
  lane3 (laneOk (.imad f)) f f.td f.td f.td f.td (fun a b c =>
    fitInt f.td (satBit f) (intVal f.td a * intVal f.td b + intVal f.td c)) s
/-- IDIV (R61). -/
def execIdiv (f : LaneF) (s : State) : Out :=
  lane2 (laneOk (.idiv f)) f f.td f.td f.td (iDivide f.td false) s
/-- IREM (R61). -/
def execIrem (f : LaneF) (s : State) : Out :=
  lane2 (laneOk (.irem f)) f f.td f.td f.td (iDivide f.td true) s
/-- IMIN and IMAX, by the signedness of T. -/
def execImin (f : LaneF) (s : State) : Out :=
  intBin (laneOk (.imin f)) f (fun a b => if b < a then b else a) s
def execImax (f : LaneF) (s : State) : Out :=
  intBin (laneOk (.imax f)) f (fun a b => if a < b then b else a) s
/-- IABS and INEG. -/
def execIabs (f : LaneF) (s : State) : Out :=
  lane1 (laneOk (.iabs f)) f f.td f.td (fun a => fitInt f.td (satBit f) ((intVal f.td a).natAbs : Int)) s
def execIneg (f : LaneF) (s : State) : Out :=
  lane1 (laneOk (.ineg f)) f f.td f.td (fun a => fitInt f.td (satBit f) (-(intVal f.td a))) s
/-- Logic on the w-bit patterns. -/
def execLaneAnd (f : LaneF) (s : State) : Out :=
  bitBin (laneOk (.laneAnd f)) f (fun a b => a &&& b) s
def execLaneOr (f : LaneF) (s : State) : Out :=
  bitBin (laneOk (.laneOr f)) f (fun a b => a ||| b) s
def execLaneXor (f : LaneF) (s : State) : Out :=
  bitBin (laneOk (.laneXor f)) f (fun a b => a ^^^ b) s
/-- ANDN: a AND NOT b. -/
def execAndn (f : LaneF) (s : State) : Out :=
  bitBin (laneOk (.andn f)) f (fun a b => a - (a &&& b)) s
/-- NOT. -/
def execLaneNot (f : LaneF) (s : State) : Out :=
  bitUn (laneOk (.laneNot f)) f (fun w a => 2 ^ w - 1 - a) s
/-- Shifts and rotates (R62). -/
def execLaneShl (f : LaneF) (s : State) : Out :=
  shiftOp (laneOk (.laneShl f)) f (fun w a n => if n < w then a * 2 ^ n % 2 ^ w else 0) s
def execLaneShr (f : LaneF) (s : State) : Out :=
  shiftOp (laneOk (.laneShr f)) f (fun w a n => if n < w then a / 2 ^ n else 0) s
def execLaneSar (f : LaneF) (s : State) : Out :=
  shiftOp (laneOk (.laneSar f)) f (fun w a n => sarNat w a (if n < w then n else w)) s
def execRot (f : LaneF) (s : State) : Out :=
  shiftOp (laneOk (.rot f)) f (fun w a n => a * 2 ^ (n % w) % 2 ^ w + a / 2 ^ (w - n % w)) s
/-- CLZ, POPC, BREV (R60). -/
def execClz (f : LaneF) (s : State) : Out :=
  bitUn (laneOk (.clz f)) f clzNat s
def execPopc (f : LaneF) (s : State) : Out :=
  bitUn (laneOk (.popc f)) f popNat s
def execBrev (f : LaneF) (s : State) : Out :=
  bitUn (laneOk (.brev f)) f revNat s
/-- BFX and BFI (R63): the control is read as n32. -/
def execBfx (f : LaneF) (s : State) : Out :=
  lane2 (laneOk (.bfx f)) f f.td 5 f.td (fun a c => Num.pure (bfx f.td a c)) s
def execBfi (f : LaneF) (s : State) : Out :=
  lane3 (laneOk (.bfi f)) f f.td f.td 5 f.td (fun a b c => Num.pure (bfi f.td a b c)) s
/-- ICMP's condition (R64). -/
def intCond (c : Nat) (a b : Int) : Bool :=
  match c with
  | 0 => a == b
  | 1 => a != b
  | 2 => decide (a < b)
  | 3 => decide (a ≤ b)
  | 4 => decide (b < a)
  | _ => decide (b ≤ a)
/-- ICMP. -/
def execIcmp (f : LaneF) (s : State) : Out :=
  laneCmp (laneOk (.icmp f)) f (fun a b => (intCond (f.fn &&& 7).toNat (intVal f.td a) (intVal f.td b), 0)) s
/-- SEL (R64). -/
def execLaneSel (f : LaneF) (s : State) : Out :=
  runLanePure (laneOk (.laneSel f)) f (fun g e act =>
    let p := g.pred (f.fn &&& 7).toNat
    let m := if f.fn.getLsbD 3 then ~~~p else p
    g.laneWrite e f.vd f.td act fun i =>
      Num.pure (if m.getLsbD i then g.src e f.w2 f.va f.td i else g.src e f.w2 f.vb f.td i)) s
/-- MOV. -/
def execMov (f : LaneF) (s : State) : Out :=
  lane1 (laneOk (.mov f)) f f.td f.td Num.pure s

end Sys2Proof.Machine
end

