-- ==== Sys2Proof/Machine/LanePack.lean ====
section
/-! DEFINITION. Packed arithmetic (R72 to R74), conversions (R75 to R77), block encodings (R78, R79), predicate logic and LKILL (R80, R81). -/
namespace Sys2Proof.Machine

/-- Two 16-bit elements computed apart, their flags ORed (R73). -/
def pair2 (x0 x1 : Num) : Num := { bits := x0.bits % 65536 + x1.bits % 65536 * 65536, ff := x0.ff ||| x1.ff, fi := x0.fi ||| x1.fi }
def lo16 (n : Nat) : Nat := n % 65536
def hi16 (n : Nat) : Nat := n / 65536 % 65536
/-- HADD2, HMUL2, HFMA2 (R73). -/
def execHadd2 (f : LaneF) (s : State) : Out :=
  lane2 (laneOk (.hadd2 f)) f 5 5 5 (fun a b =>
    pair2 (fAdd f.td f.rm (lo16 a) (lo16 b)) (fAdd f.td f.rm (hi16 a) (hi16 b))) s
def execHmul2 (f : LaneF) (s : State) : Out :=
  lane2 (laneOk (.hmul2 f)) f 5 5 5 (fun a b =>
    pair2 (fMul f.td f.rm (lo16 a) (lo16 b)) (fMul f.td f.rm (hi16 a) (hi16 b))) s
def execHfma2 (f : LaneF) (s : State) : Out :=
  lane3 (laneOk (.hfma2 f)) f 5 5 5 5 (fun a b c =>
    pair2 (fFma f.td f.rm (lo16 a) (lo16 b) (lo16 c)) (fFma f.td f.rm (hi16 a) (hi16 b) (hi16 c))) s
/-- The type of the same width and the other signedness. -/
def flipSign (t : BitVec 4) : BitVec 4 := t ^^^ 1
/-- IDOT4 and IDOT2 (R74): `n` elements of the width of E. -/
def dot (n : Nat) (f : LaneF) (a b c : Nat) : Num :=
  let w := widthOf f.ta
  let tb := if f.fn.getLsbD 0 then flipSign f.ta else f.ta
  let x := (upFrom 0 n).foldl (fun acc j =>
    acc + intVal f.ta (a / 2 ^ (w * j)) * intVal tb (b / 2 ^ (w * j))) (intVal f.td c)
  fitInt f.td (f.fn.getLsbD 1) x
def execIdot4 (f : LaneF) (s : State) : Out :=
  lane3 (laneOk (.idot4 f)) f 5 5 f.td f.td (dot 4 f) s
def execIdot2 (f : LaneF) (s : State) : Out :=
  lane3 (laneOk (.idot2 f)) f 5 5 f.td f.td (dot 2 f) s
/-- CVT (R76). -/
def execCvt (f : LaneF) (s : State) : Out :=
  lane1 (laneOk (.cvt f)) f f.ta f.td (convert f.ta f.td f.rm (f.fn.getLsbD 0)) s
/-- CVTP (R77): an 8-bit D keeps the other two bytes of vd. -/
def execCvtp (f : LaneF) (s : State) : Out :=
  runLanePure (laneOk (.cvtp f)) f (fun g e act =>
    g.laneWrite e f.vd 5 act fun i =>
      let x0 := convert f.ta f.td f.rm (f.fn.getLsbD 1) (g.src e f.w2 f.va f.ta i)
      let x1 := convert f.ta f.td f.rm (f.fn.getLsbD 1) (g.src e f.w2 f.vb f.ta i)
      if widthOf f.td = 16 then pair2 x0 x1
      else
        let old := g.src e f.w2 f.vd 5 i
        let new := x0.bits % 256 + x1.bits % 256 * 256
        { bits := if f.fn.getLsbD 0 then lo16 old + new * 65536 else new + hi16 old * 65536,
          ff := x0.ff ||| x1.ff, fi := x0.fi ||| x1.fi }) s
/-- CVTX (R77): element K of va. -/
def execCvtx (f : LaneF) (s : State) : Out :=
  lane1 (laneOk (.cvtx f)) f 5 f.td (fun a =>
    convert f.ta f.td f.rm (f.fn.getLsbD 2) (a / 2 ^ (widthOf f.ta * (f.fn &&& 3).toNat) % 2 ^ widthOf f.ta)) s
/-- BPENC (R78): one block across the active lanes; with `.b64` the second elements follow. -/
def execBpenc (f : LaneF) (s : State) : Out :=
  runLanePure (laneOk (.bpenc f)) f (fun g e act =>
    let ls := maskLanes act
    let read := fun c : BitVec 7 => ls.map fun i => (fmtOf f.ta).read (g.src e f.w2 c f.ta i)
    let two := f.fn.getLsbD 0
    let r := bpEncode f.rm (read f.va ++ if two then read f.vb else [])
    let put := fun (a : Group) (vd : BitVec 7) (es : List Nat) =>
      (ls.zip es).foldl (fun b x => b.setLane e vd 5 x.1 (r.1 * 65536 + x.2 % 256)) a
    let g1 := put g f.vd r.2.1
    let g2 := if two && f.vd ≤ 63 then put g1 (f.vd + 1) (r.2.1.drop ls.length) else g1
    if ls.isEmpty then g else g2.raise r.2.2 0) s
/-- BPDEC (R79). -/
def execBpdec (f : LaneF) (s : State) : Out :=
  lane1 (laneOk (.bpdec f)) f 5 f.td (fun a =>
    bpTo f.td f.rm (decodeBp (if f.fn = 0 then 8 else f.fn.toNat + 1) (hi16 a) (a % 256))) s

/-- Predicate logic (R80). -/
def execPand (f : LaneF) (s : State) : Out :=
  lanePred (laneOk (.pand f)) f (fun a b => a &&& b) s
def execPor (f : LaneF) (s : State) : Out :=
  lanePred (laneOk (.por f)) f (fun a b => a ||| b) s
def execPxor (f : LaneF) (s : State) : Out :=
  lanePred (laneOk (.pxor f)) f (fun a b => a ^^^ b) s
def execPnot (f : LaneF) (s : State) : Out :=
  lanePred (laneOk (.pnot f)) f (fun a _ => ~~~a) s
/-- LKILL (R81): the lanes die, and every waiting JOIN is tested again (R129). -/
def execLkill (f : LaneF) (s : State) : Out :=
  runLanePure (laneOk (.lkill f)) f (fun g _ act =>
    { g with lanes := { g.lanes with alive := g.lanes.alive &&& ~~~act } }.joinAll) s

end Sys2Proof.Machine
end

