-- ==== Sys2Proof/Machine/Rank.lean ====
section
/-! DEFINITION. Rank-coded mode (R203 to R215): RKTBL, RKENC, RKMM, RKVAL and the completion of an RKENC. -/
namespace Sys2Proof.Machine

/-! ### Tables (R210, R211) -/

def State.atten (s : State) (core n : Nat) : Atten := (amGet (s.core core).atten n).getD Atten.fresh
/-- Whether a launch may use a table (R210). -/
def Atten.allows (a : Atten) (launch : Nat) : Bool :=
  match a.owner with
  | some l => l == launch
  | none => true
/-- RKTBL. -/
def execRktbl (a : SReg) (table : BitVec 2) (s : State) : Out :=
  runScalar true (fun s g sp =>
    let core := s.sched.core
    let n := table.toNat
    let addr := sp.reg a
    if addr.toNat % 64 != 0 then .trap (Trap.at_ cAlign addr)
    else if !(s.atten core n).allows g.launch then .trap (Trap.of cProtect)
    else if !g.memIssued s.sched.split then .wait s
    else
      match s.nearLoad (s.whoOf core g) addr 512 with
      | .error e => stopScalar e.1 s e.2
      | .ok (s1, bs) =>
        if (s.engines core).matq.any fun o => o.kind.usesTable n then .wait s
        else
          let ws := (upFrom 0 256).foldl (fun m i => stSet 0 m i (BitVec.ofNat 16 (field bs (2 * i) 2))) ([] : Store Half)
          let x : Atten := { weights := ws, owner := some g.launch }
          .done (s1.modCore core fun c => { c with atten := amSet c.atten n x }).stepOn) s

/-! ### RKENC (R205 to R208) -/

/-- The fields of a descriptor. -/
def encSource (b : List Byte) : DWord := BitVec.ofNat 64 (field b 0 8)
def encDest (b : List Byte) : DWord := BitVec.ofNat 64 (field b 8 8)
def encControl (b : List Byte) : Nat := field b 16 8
def encBase (b : List Byte) : Nat := bitsOf (encControl b) 36 15
def encType (b : List Byte) : BitVec 4 := BitVec.ofNat 4 (bitsOf (encControl b) 32 4)
def encThreshold (b : List Byte) : Option Nat := if bitsOf (encControl b) 30 1 = 1 then some (field b 24 8) else none
def encSigned (b : List Byte) : Bool := bitsOf (encControl b) 29 1 == 1
def encK (b : List Byte) : Nat := bitsOf (encControl b) 16 13 + 1
def encRows (b : List Byte) : Nat := bitsOf (encControl b) 8 8 + 1
def encCount (b : List Byte) : Nat := bitsOf (encControl b) 0 8 + 1
def encStride (b : List Byte) : Nat := field b 32 4
/-- The source types RKENC accepts. -/
def encTypeOk (t : Nat) : Bool := t == 0 || t == 2 || t == 4 || t == 10 || t == 11 || t == 12
/-- No reserved bit set, a type that is accepted, an index base that is valid (R205, R206). -/
def encOk (b : List Byte) : Bool :=
  bitsOf (encControl b) 51 13 == 0 && bitsOf (encControl b) 31 1 == 0 && encTypeOk (bitsOf (encControl b) 32 4)
    && encBase b != 32767 && decide (field b 24 8 < 2 ^ widthOf (encType b)) && field b 36 4 == 0 && field b 48 8 == 0 && field b 56 8 == 0
/-- Bytes of the block an RKENC writes. -/
def encBytes (b : List Byte) : Nat := 8 + 2 * encRows b * encCount b
/-- A key or value of a type. -/
def rankVal (t : BitVec 4) (bits : Nat) : FVal :=
  if isFloat t then (fmtOf t).read bits else let v := intVal t bits; .fin (decide (v < 0)) v.natAbs 0
def FVal.mag : FVal → FVal
  | .nan s => .nan s
  | .inf _ => .inf false
  | .fin _ m e => .fin false m e
/-- Insert an index with its key into the first `c` of a list sorted by key descending; an equal key goes after. -/
def insertTop : Nat → List (Nat × FVal × Nat) → Nat × FVal × Nat → List (Nat × FVal × Nat)
  | 0, _, _ => []
  | _, [], x => [x]
  | c + 1, y :: ys, x => if fLess false y.2.1 x.2.1 then (x :: y :: ys).take (c + 1) else y :: insertTop c ys x
/-- Rank one vector (R207): its entries, how many are ranked, and how many values are NaN. -/
def rankVector (b : List Byte) (bs : List Byte) : List Nat × Nat × Nat :=
  let t := encType b
  let size := bytesIn t
  let xs := (upFrom 0 (encK b)).map fun i => let x := field bs (i * size) size; (i, rankVal t x, x / 2 ^ (widthOf t - 1) % 2)
  let key : FVal → FVal := fun v => if encSigned b then v else v.mag
  let allow : FVal → Bool := fun v =>
    match encThreshold b with
    | none => true
    | some th => let y := rankVal t th; !y.isNan && !fLess false (key v) y
  let q := (xs.filter fun x => !x.2.1.isNan && allow x.2.1)
  let top := q.foldl (fun l x => insertTop (encCount b) l (x.1, key x.2.1, x.2.2)) []
  let entries := top.map fun x => x.1 + if encSigned b then 0 else x.2.2 * 32768
  (entries ++ (upFrom 0 (encCount b - entries.length)).map fun _ => 0x7FFF, entries.length, (xs.filter fun x => x.2.1.isNan).length)
/-- The header RKENC writes. -/
def encHeader (b : List Byte) : Nat :=
  encCount b - 1 + (encRows b - 1) * 2 ^ 8 + encBase b * 2 ^ 16 + encK b * 2 ^ 32 + (if encSigned b then 2 ^ 47 else 0)
/-- The vectors lie in the team's scratchpad. -/
def encInside (t : Team) (b : List Byte) : Bool :=
  (upFrom 0 (encRows b)).all fun j =>
    let a := (encSource b + BitVec.ofNat 64 (j * encStride b)).toNat
    inScratchWindow a && decide (a % 2 ^ 24 + encK b * bytesIn (encType b) ≤ t.scratchSize)
/-- RKENC. TRAPADDR of the check of the scratchpad is the source of vector 0 (log entry 92). -/
def execRkenc (d a : SReg) (s : State) : Out :=
  runMatrix true (fun s g sp t =>
    let core := s.sched.core
    let w := s.whoOf core g
    let addr := sp.reg a
    if addr.toNat % 64 != 0 then .trap (Trap.at_ cAlign addr)
    else if !g.memIssued s.sched.split then .wait s
    else
      match s.readLines w s.sched.split s.sched.split addr 64 with
      | .held s1 => .wait s1
      | .stop x e => stopScalar x s e
      | .bytes s1 b far =>
        let size := bytesIn (encType b)
        let src := encSource b
        let dest := encDest b
        if !encOk b then .trap (Trap.at_ cProtect addr)
        else if src.toNat % size != 0 || encStride b % size != 0 then .trap (Trap.at_ cAlign src)
        else if !encInside t b then .trap (Trap.at_ cProtect src)
        else if dest.toNat % 8 != 0 then .trap (Trap.at_ cAlign dest)
        else if !s.nearMemory dest then .trap (Trap.at_ cProtect dest)
        else
          match s.checkBytes w dest (encBytes b) .wr with
          | .error e => stopScalar (if e.1 == .trap cPage then s.badAddr w dest (encBytes b) .wr else dest) s e
          | .ok _ =>
            if 4095 ≤ g.async.tiles then .wait s
            else
              let n := (s.engines core).rankLast + 1
              let o : RankOp := { num := n, desc := addr, bytes := b, team := g.team, launch := g.launch, slot := s.sched.slot,
                                  serial := s.serial s.curKey, split := s.sched.split, pc := sp.pc, d := d }
              let s2 := ((if far then s1.endFetch s.sched.split else s1).modEngines core fun e => { e with rankq := e.rankq ++ [o], rankLast := n }).wakeUp (.rkencComplete core)
              let owe := fun (x : Async) => if d = 0 then x else { x with owed := nsAdd x.owed (s.sched.split * 32 + d.toNat) }
              .done (s2.modGroup s.curKey fun g => g.tileUp.modAsync owe).stepOn) s

/-- Write the lists in order: the counts of those written, and the fault that stopped the rest. -/
def State.encLists (s : State) (w : Who) (b : List Byte) : List Nat → Nat × Nat → State × (Nat × Nat) × Option (Byte × DWord)
  | [], n => (s, n, none)
  | j :: rest, n =>
    let src := (encSource b + BitVec.ofNat 64 (j * encStride b)).toNat % 2 ^ 24
    let bs := s.scratchRead (w.team.getD 0) src (encK b * bytesIn (encType b))
    let r := rankVector b bs
    let x := s.writeRun w 2 (encDest b + BitVec.ofNat 64 (8 + 2 * encCount b * j)) (r.1.flatMap (bytesOf 2))
    match x.2 with
    | some f => (x.1, n, some f)
    | none => x.1.encLists w b rest (n.1 + r.2.1, n.2 + r.2.2)
/-- Write an operation's number to the descriptor's sequence bytes (R208): the tickets of what another rank must acknowledge, and the fault
it met. -/
def State.writeSequence (s : State) (w : Who) (o : RankOp) : State × List Nat × Option (Byte × DWord) :=
  let a := o.desc + 40
  let bs := bytesOf 8 o.num
  if s.isFar a then
    match s.checkBytes w a 8 .wr with
    | .error (.trap c, _) => (s, [], some (c, a))
    | _ => let r := s.sendAsks w.core (.rank w.core o.num) 6 none [farAsk 0 a (.put bs)]; (r.1, r.2.map (·.2), none)
  else let r := s.writeRun w 8 a bs; (r.1, [], r.2)
/-- What an RKENC comes to: its counts, the tickets of its sequence bytes, and the fault it met. -/
structure RankRun where
  s : State
  count : Nat
  nan : Nat
  acks : List Nat
  stop : Option (Byte × DWord)
deriving DecidableEq, Repr
/-- The rank engine's effect on memory (R207, R208, R424): header, lists, and the sequence with the counts of the lists that were written. -/
def State.runRank (s : State) (w : Who) (o : RankOp) : RankRun :=
  let h := s.writeRun w 8 (encDest o.bytes) (bytesOf 8 (encHeader o.bytes))
  let r : State × (Nat × Nat) × Option (Byte × DWord) := match h.2 with
    | some f => (h.1, (0, 0), some f)
    | none => h.1.encLists w o.bytes (upFrom 0 (encRows o.bytes)) (0, 0)
  let q := r.1.writeSequence w o
  { s := q.1, count := r.2.1.1, nan := r.2.1.2, acks := q.2.1, stop := r.2.2.or q.2.2 }
/-- The rank timeline over the operations that are complete (R208). -/
def State.advanceRank (s : State) (core n : Nat) : State :=
  (s.writeBack core fun _ => true).setWindow (512 + core) (BitVec.ofNat 64 n)
/-- The engine's operation ends: count to d, RKNAN, the class and the timeline. -/
def State.rankEnd (s : State) (core : Nat) (o : RankOp) (count nan : Nat) : State :=
  let key := gkey core o.slot
  let s1 := s.modEngines core fun e => { e with rankq := e.rankq.drop 1 }
  let slot := o.split * 32 + o.d.toNat
  let land : Group → Group := fun g =>
    let g1 := g.tileDown.modCsrs fun c => { c with rknan := BitVec.ofNat 64 nan }
    if nsHas g1.async.owed slot then
      (g1.modSplit o.split fun sp => sp.setReg o.d (BitVec.ofNat 64 count)).modAsync fun a => { a with owed := nsDel a.owed slot }
    else g1
  let s2 := if (s1.opGroup core o.slot o.serial).isSome then s1.modGroup key land else s1
  let s3 := (s2.advanceRank core o.num).wakeUp (.teamRetire o.team)
  if (s3.engines core).rankq.isEmpty then s3 else s3.wakeUp (.rkencComplete core)
/-- The fault an operation met, if any, reaches its group or its fault domain. -/
def State.rankFault (s : State) (core : Nat) (o : RankOp) : Option (Byte × DWord) → State
  | some (c, x) => s.lateFault core o.slot o.serial o.team o.launch o.pc c x
  | none => s
/-- RKENC_COMPLETE: the oldest RKENC of the core ranks its vectors and ends, once sequence bytes at another rank are acknowledged; a page that
is missing makes it wait, and one that cannot be mapped stops it at the write that needs it. -/
def execRkencComplete (core : Nat) (s : State) : Out :=
  match (s.engines core).rankq with
  | [] => .next s
  | o :: _ =>
    match o.done with
    | some n => if o.acks.isEmpty then .next ((s.rankFault core o o.stop).rankEnd core o n.1 n.2) else .next s
    | none =>
      let w := s.opWho core o.team o.launch
      match s.serveAll w (.engine core true) [(o.desc, 64)] with
      | (s1, none) => .next s1
      | (s1, some _) =>
        match s1.serveAll w (.engine core true) [(encDest o.bytes, encBytes o.bytes)] with
        | (s2, none) => .next s2
        | (s2, some _) =>
          let r := s2.runRank w o
          let s3 := r.s.rankFault core o r.stop
          if r.acks.isEmpty then .next (s3.rankEnd core o r.count r.nan)
          else .next (s3.modEngines core fun e => match e.rankq with
            | [] => e
            | x :: rest => { e with rankq := { x with done := some (r.count, r.nan), acks := r.acks } :: rest })

/-! ### RKMM and RKVAL (R212, R214) -/

/-- The checks on a rank list block that RKMM and RKVAL share: its alignment, its header, its pages. -/
def State.blockHeader (s : State) (w : Who) (block : DWord) : Except (DWord × (Stop × Bool)) (State × DWord) :=
  if block.toNat % 8 != 0 then .error (block, (.trap cAlign, false))
  else
    match s.nearLoad w block 8 with
    | .error e => .error e
    | .ok (s1, bs) =>
      let h := BitVec.ofNat 64 (leNat bs)
      if hdrOk h then .ok (s1, h) else .error (block, (.trap cProtect, false))
/-- The pages of the block itself. A byte that fails otherwise than by PAGE raises PROTECT here (log entry 91). -/
def State.blockPages (s : State) (w : Who) (block h : DWord) : Option (DWord × (Stop × Bool)) :=
  let n := 8 + 2 * hdrRows h * hdrCount h
  match s.resolve w block n .rd with
  | .ok _ => none
  | .error e => some (s.badAddr w block n .rd, (e, false))
/-- RKMM. -/
def execRkmm (tile : BitVec 4) (a : SReg) (table : BitVec 2) (s : State) : Out :=
  runMatrix true (fun s g sp t =>
    let core := s.sched.core
    let w := s.whoOf core g
    let tw := t.tileWord tile.toNat
    if !tileValid tw || tileInt tw then .trap (Trap.of cIllegal)
    else
      match t.residentB with
      | none => .trap (Trap.of cIllegal)
      | some rb =>
        if tileCols tw != rb.cols || tilePlanes tw != rb.planes then .trap (Trap.of cIllegal)
        else if !(s.atten core table.toNat).allows g.launch then .trap (Trap.of cProtect)
        else if !g.memIssued s.sched.split then .wait s
        else
          match s.blockHeader w (sp.reg a) with
          | .error e => stopScalar e.1 s e.2
          | .ok (s1, h) =>
            if tileRows tw < hdrRows h then .trap (Trap.of cIllegal)
            else
              match s1.blockPages w (sp.reg a) h with
              | some e => stopScalar e.1 s e.2
              | none =>
                match s1.issueMat g sp t (.rkmm tile.toNat (sp.reg a) h table.toNat rb) with
                | .done s2 => .done s2
                | _ => .wait s) s
/-- RKVAL. -/
def execRkval (a b : SReg) (bf : BitVec 1) (table : BitVec 2) (s : State) : Out :=
  runMatrix true (fun s g sp t =>
    let core := s.sched.core
    let w := s.whoOf core g
    let dest := sp.reg b
    let size := if bf = 1 then 2 else 4
    if !(s.atten core table.toNat).allows g.launch then .trap (Trap.of cProtect)
    else if !g.memIssued s.sched.split then .wait s
    else
      match s.blockHeader w (sp.reg a) with
      | .error e => stopScalar e.1 s e.2
      | .ok (s1, h) =>
        match s1.blockPages w (sp.reg a) h with
        | some e => stopScalar e.1 s e.2
        | none =>
          let n := hdrRows h * hdrLen h * size
          if dest.toNat % size != 0 then .trap (Trap.at_ cAlign dest)
          else if !s.nearMemory dest then .trap (Trap.at_ cProtect dest)
          else
            match s1.checkBytes w dest n .wr with
            | .error e => stopScalar (if e.1 == .trap cPage then s.badAddr w dest n .wr else dest) s e
            | .ok _ =>
              match s1.issueMat g sp t (.rkval (sp.reg a) h dest (bf == 1) table.toNat) with
              | .done s2 => .done s2
              | _ => .wait s) s

end Sys2Proof.Machine
end

