-- ==== Sys2Proof/Machine/Replay.lean ====
section
/-! DEFINITION. FAULT_REPLAY: what a Pennant controller does about a replayable fault (R136, R176, R177, R201, R218). -/
namespace Sys2Proof.Machine

/-- The group resumes: the faulting instruction runs again from its start. -/
def State.replayGroup (s : State) (key : Nat) : State := s.modGroup key fun g => g.modCtl fun c => { c with fault := none }
/-- A page or a revoked mapping. -/
def State.replayPage (s : State) (core slot : Nat) (g : Group) (p : PendingFault) : State :=
  let key := gkey core slot
  let w := s.whoOf core g
  let rcb := ((s.team g.team).map (·.rcb)).getD 0
  let r := s.serveRange (dieOf core) p.addr.toNat 8 w.launch w.asid rcb (.group core slot)
  match r.2 with
  | some true => r.1.replayGroup key
  | some false => r.1.escalateGroup key p
  | none => r.1
/-- A slot that is empty or loading: its recorded image is fetched. -/
def State.replayOverlay (s : State) (core slot : Nat) (p : PendingFault) : State :=
  let key := gkey core slot
  let k := pcSlot p.addr % 32
  let x := s.codeSlot core k
  match x.state with
  | .landed => s.replayGroup key
  | .loading => if x.failed then s.escalateGroup key p else s
  | .empty =>
    match x.image with
    | none => s.escalateGroup key p
    | some _ => s.startLoad core k { x with fetch := none, bytes := [] }
/-- A late arrival: a warning, then a replay; a second one with no progress between escalates. -/
def State.replayTimeout (s : State) (core slot : Nat) (g : Group) (p : PendingFault) : State :=
  let key := gkey core slot
  let again := g.ctl.lastTimeout.any fun q => q.split == p.split && q.pc == p.pc && q.lp == p.lp
  if again then s.escalateGroup key p
  else
    let domain := ((s.team g.team).map fun t => s.rcbDomain t.asid t.rcb).getD 0
    let packet := ((s.launch g.launch).map (·.packet.toNat)).getD 0
    let d1 := p.pc.toNat % 2 ^ 18 * 2 ^ 32 + locid core slot * 2 ^ 16 + p.lp.toNat % 2 ^ 15
    (s.event (evt 3 domain p.cause packet d1 p.addr.toNat)).modGroup key fun x =>
      x.modCtl fun c => { c with fault := none, lastTimeout := p :: c.lastTimeout.filter fun q => q.split != p.split }
/-- FAULT_REPLAY. -/
def execFaultReplay (core slot : Nat) (s : State) : Out :=
  match s.group (gkey core slot) with
  | none => .next s
  | some g =>
    match g.ctl.fault with
    | none => .next s
    | some p =>
      if g.ctl.save != .running then .next s
      else if p.cause = cOverlay then .next (s.replayOverlay core slot p)
      else if p.cause = cTimeout then .next (s.replayTimeout core slot g p)
      else if p.cause = cMacro then .next (s.replayGroup (gkey core slot))
      else .next (s.replayPage core slot g p)

end Sys2Proof.Machine
end

