-- ==== Sys2Proof/Machine/ScalarAlu.lean ====
section
/-! DEFINITION. Scalar integer arithmetic and the immediate forms (R139, R140). -/
namespace Sys2Proof.Machine

/-- A − B, products and quotients of 64-bit words (R139). -/
def mulhSigned (a b : DWord) : DWord := BitVec.ofInt 64 (Int.fdiv (a.toInt * b.toInt) (2 ^ 64))
def mulhUnsigned (a b : DWord) : DWord := BitVec.ofNat 64 (a.toNat * b.toNat / 2 ^ 64)
/-- Division (R45, R139): a zero divisor gives all ones, or A for a remainder. -/
def divSigned (a b : DWord) : DWord := if b = 0 then BitVec.allOnes 64 else BitVec.ofInt 64 (Int.tdiv a.toInt b.toInt)
def divUnsigned (a b : DWord) : DWord := if b = 0 then BitVec.allOnes 64 else BitVec.ofNat 64 (a.toNat / b.toNat)
def remSigned (a b : DWord) : DWord := if b = 0 then a else BitVec.ofInt 64 (Int.tmod a.toInt b.toInt)
def remUnsigned (a b : DWord) : DWord := if b = 0 then a else BitVec.ofNat 64 (a.toNat % b.toNat)
/-- The count of a shift: bits [5:0] of B. -/
def shiftCount (b : DWord) : Nat := (b.setWidth 6).toNat
/-- 1 when a condition holds. -/
def boolWord (b : Bool) : DWord := if b then 1 else 0

/-- An ALU instruction over s[a] and s[b] (R139). -/
def alu2 (d a b : SReg) (op : DWord → DWord → DWord) (s : State) : Out :=
  runAlu d (fun _ sp => op (sp.reg a) (sp.reg b)) s
/-- A division or remainder: a zero divisor sets IFLAGS.DZ (R139). -/
def aluDiv (d a b : SReg) (op : DWord → DWord → DWord) (s : State) : Out :=
  runPure (fun g sp => (g.raise 0 (flagIf (sp.reg b == 0) iDZ), (sp.setReg d (op (sp.reg a) (sp.reg b))).advance)) s
/-- An immediate form over s[a] (R140). -/
def aluImm (d a : SReg) (op : DWord → DWord) (s : State) : Out := runAlu d (fun _ sp => op (sp.reg a)) s

def execAdd (d a b : SReg) (s : State) : Out := alu2 d a b (· + ·) s
def execSub (d a b : SReg) (s : State) : Out := alu2 d a b (· - ·) s
def execMul (d a b : SReg) (s : State) : Out := alu2 d a b (· * ·) s
def execMulh (d a b : SReg) (s : State) : Out := alu2 d a b mulhSigned s
def execMulhn (d a b : SReg) (s : State) : Out := alu2 d a b mulhUnsigned s
def execDiv (d a b : SReg) (s : State) : Out := aluDiv d a b divSigned s
def execDivn (d a b : SReg) (s : State) : Out := aluDiv d a b divUnsigned s
def execRem (d a b : SReg) (s : State) : Out := aluDiv d a b remSigned s
def execRemn (d a b : SReg) (s : State) : Out := aluDiv d a b remUnsigned s
def execAnd (d a b : SReg) (s : State) : Out := alu2 d a b (· &&& ·) s
def execOr (d a b : SReg) (s : State) : Out := alu2 d a b (· ||| ·) s
def execXor (d a b : SReg) (s : State) : Out := alu2 d a b (· ^^^ ·) s
def execShl (d a b : SReg) (s : State) : Out := alu2 d a b (fun x y => x <<< shiftCount y) s
def execShr (d a b : SReg) (s : State) : Out := alu2 d a b (fun x y => x >>> shiftCount y) s
def execSar (d a b : SReg) (s : State) : Out := alu2 d a b (fun x y => x.sshiftRight (shiftCount y)) s
def execSlt (d a b : SReg) (s : State) : Out := alu2 d a b (fun x y => boolWord (x.slt y)) s
def execSltn (d a b : SReg) (s : State) : Out := alu2 d a b (fun x y => boolWord (x.ult y)) s
def execSeq (d a b : SReg) (s : State) : Out := alu2 d a b (fun x y => boolWord (x == y)) s
def execMin (d a b : SReg) (s : State) : Out := alu2 d a b (fun x y => if y.slt x then y else x) s
def execMax (d a b : SReg) (s : State) : Out := alu2 d a b (fun x y => if x.slt y then y else x) s
def execMinn (d a b : SReg) (s : State) : Out := alu2 d a b (fun x y => if y.ult x then y else x) s
def execMaxn (d a b : SReg) (s : State) : Out := alu2 d a b (fun x y => if x.ult y then y else x) s
/-- SEL chooses by a condition bit. -/
def execSel (d a b : SReg) (c : BitVec 3) (s : State) : Out :=
  runAlu d (fun _ sp => if sp.cbit c then sp.reg a else sp.reg b) s

def execAddi (d a : SReg) (imm : BitVec 16) (s : State) : Out := aluImm d a (· + sext imm) s
def execAndi (d a : SReg) (imm : BitVec 16) (s : State) : Out := aluImm d a (· &&& zext imm) s
def execOri (d a : SReg) (imm : BitVec 16) (s : State) : Out := aluImm d a (· ||| zext imm) s
def execXori (d a : SReg) (imm : BitVec 16) (s : State) : Out := aluImm d a (· ^^^ zext imm) s
def execShli (d a : SReg) (n : BitVec 6) (s : State) : Out := aluImm d a (· <<< n.toNat) s
def execShri (d a : SReg) (n : BitVec 6) (s : State) : Out := aluImm d a (· >>> n.toNat) s
def execSari (d a : SReg) (n : BitVec 6) (s : State) : Out := aluImm d a (fun x => x.sshiftRight n.toNat) s
def execSlti (d a : SReg) (imm : BitVec 16) (s : State) : Out := aluImm d a (fun x => boolWord (x.slt (sext imm))) s
/-- LUI: the immediate in bits [31:16], sign-extended above (R140). -/
def execLui (d : SReg) (imm : BitVec 16) (s : State) : Out := runAlu d (fun _ _ => sext imm <<< 16) s
/-- SHLOR: bits [63:48] of A are lost (R140). -/
def execShlor (d a : SReg) (imm : BitVec 16) (s : State) : Out := aluImm d a (fun x => x <<< 16 ||| zext imm) s

end Sys2Proof.Machine
end

