-- ==== Sys2Proof/Machine/Splits.lean ====
section
/-! DEFINITION. Divergence and rejoin (R126 to R131), REGROUP (R132, R133), and the timeout of a stall (R39). -/
namespace Sys2Proof.Machine

/-- A lane register read as n32 for a split (R128). -/
def Group.splitReg (g : Group) (sp : Split) (v lane : Nat) : Word := g.slotVal (sp.wb + v) lane
/-- The copy a new split starts as (R127). -/
def Split.child (sp : Split) (mask : LaneMask) (target : DWord) : Split :=
  { sp.goto target with mask := mask, status := .ready, runs := [], naps := [], pstall := none }

/-- BRV (R127). -/
def execBrv (neg : BitVec 1) (p : BitVec 3) (disp : BitVec 16) (s : State) : Out :=
  runScalar true (fun s g sp =>
    let k := s.sched.split
    let target := branchTarget sp.pc disp
    let live := g.live sp
    let t := live &&& (if neg = 1 then ~~~(g.pred p.toNat) else g.pred p.toNat)
    if !g.laneDone k then .wait s
    else
      match targetTrap sp.pc target with
      | some x => .trap x
      | none =>
        if t = 0 then .done (s.put g sp.advance)
        else if t = live then .done (s.put g (sp.goto target))
        else if !g.diverge then .trap (Trap.of cDivergeOff)
        else
          let g1 := g.putSplit (amFresh g.splits 0) (sp.child t target)
          .done (s.put g1 { sp.advance with mask := sp.mask &&& ~~~t })) s

/-- A lane's JMPV target as an address. -/
def Group.jmpvTarget (g : Group) (sp : Split) (v : BitVec 6) (lane : Nat) : DWord := (g.splitReg sp v.toNat lane).setWidth 64
/-- JMPV (R128): targets are checked in every live lane; one target's lanes leave at a time. -/
def execJmpv (v : BitVec 6) (s : State) : Out :=
  runScalar true (fun s g sp =>
    let k := s.sched.split
    let live := g.live sp
    if !g.laneDone k then .wait s
    else if live = 0 then .done (s.put g sp.advance)
    else if (g.pmask (sp.wb + v.toNat) &&& live) != 0 then
      .wait (s.put g { sp with pstall := some (sp.pstall.getD s.now) })
    else
      match (maskLanes live).findSome? fun i => targetTrap sp.pc (g.jmpvTarget sp v i) with
      | some x => .trap x
      | none =>
        let t := g.jmpvTarget sp v (lowLane live)
        let m := live &&& maskOf fun i => g.jmpvTarget sp v i == t
        let sp0 : Split := { sp with pstall := none }
        if m = live then .done (s.put g (sp0.goto t))
        else if !g.diverge then .trap (Trap.of cDivergeOff)
        else
          let g1 := g.putSplit (amFresh g.splits 0) (sp0.child m t)
          .done (s.put g1 { sp0 with mask := sp.mask &&& ~~~m })) s

/-- JOIN (R129): the split waits with its expected mask; a set that can merge does so at once. -/
def execJoin (a : SReg) (id : BitVec 4) (s : State) : Out :=
  runScalar true (fun s g sp =>
    .wait (s.putGroup s.curKey
      ((g.putSplit s.sched.split { sp with status := .joining id.toNat ((sp.reg a).setWidth 32) }).joinAll))) s

/-- Nothing of the group is outstanding and its lane queue is empty (R131, R132). -/
def Group.idle (g : Group) : Bool :=
  g.async.laneq.isEmpty && g.async.access.isEmpty && g.async.tokens.isEmpty && g.async.loads == 0 && g.async.stores == 0
    && g.async.copies == 0 && g.async.tiles == 0
/-- The split that holds the lowest lane any split holds (R131). -/
def Group.lowSplit (g : Group) : Option Nat :=
  (g.splits.foldl (fun (b : Option (Nat × Nat)) x => match b with
    | none => some (x.1, lowLane x.2.mask)
    | some y => if lowLane x.2.mask < y.2 then some (x.1, lowLane x.2.mask) else b) none).map (·.1)
/-- REJOIN_DEADLOCK (R131). -/
def execRejoinDeadlock (core slot : Nat) (s : State) : Out :=
  match s.group (gkey core slot) with
  | none => .next s
  | some g =>
    let stuck := g.running && !g.splits.isEmpty && g.idle && g.joinAll == g
      && g.splits.all fun x => match x.2.status with | .joining _ _ => true | _ => false
    match g.lowSplit with
    | some k => .next (if stuck then s.takeTrap (gkey core slot) k (Trap.of cRejoin) none else s)
    | none => .next s

/-! ### REGROUP (R132, R133) -/

/-- REGROUP: a partner that fails status 1's test answers at once; otherwise the split waits for it. -/
def execRegroup (d a : SReg) (s : State) : Out :=
  runScalar true (fun s g sp =>
    let p := (sp.reg a).toNat
    let there := ((s.team g.team).bind fun t => amGet t.groups p).isSome
    if !there || p == g.index then .done (s.put g (sp.setReg d 1).advance)
    else .wait (s.put g { sp with status := .regroup d p })) s

/-- The splits of a group that wait in REGROUP: number, destination, partner. -/
def Group.regrouping (g : Group) : List (Nat × SReg × Nat) :=
  g.splits.filterMap fun x => match x.2.status with
    | .regroup d p => some (x.1, d, p)
    | _ => none
/-- Finish a REGROUP with a status. -/
def State.regroupEnd (s : State) (key split : Nat) (d : SReg) (v : DWord) : State :=
  (s.modSplit key split fun sp => { (sp.setReg d v).advance with status := .ready }).retireAt key split
/-- The live lanes of a group, ascending. -/
def Group.liveLids (g : Group) : List Nat := maskLanes g.lanes.alive
/-- Where each live lane of the two groups goes: (from the source?, old LID), by new LID (R133). -/
def fuseMap (dst src : Group) : List (Bool × Nat) :=
  dst.liveLids.map (fun i => (false, i)) ++ src.liveLids.map (fun i => (true, i))
/-- The pending word of a spilled slot: the L bits over the P bits (R36); none when its page cannot be read. -/
def State.pendingWord (s : State) (core : Nat) (g : Group) (k : Nat) : Option DWord :=
  match s.resolve (s.whoOf core g) (g.csrs.spb - 64 - BitVec.ofNat 64 (8 * k)) 8 .rd with
  | .ok gs => if anyFmt gs then none else some (BitVec.ofNat 64 (leNat (s.segsRead core gs).2))
  | .error _ => none
/-- Whether a lane has a slot that counts as armed for condition 5 of R132. -/
def State.laneArmed (s : State) (core : Nat) (g : Group) (lane : Nat) : Bool :=
  (upFrom 0 512).any fun k =>
    if g.resident k then (g.pmask k ||| g.lmask k).getLsbD lane
    else
      match s.pendingWord core g k with
      | none => true
      | some w => w.getLsbD lane || w.getLsbD (32 + lane)
/-- Lanes of a group whose LID changes under the map. -/
def movedLids (m : List (Bool × Nat)) (fromSrc : Bool) : List Nat :=
  (upFrom 0 m.length).filterMap fun n => match m[n]? with
    | some (b, i) => if b == fromSrc && i != n then some i else none
    | none => none
/-- The status of a pair (R132), conditions 3 to 6. -/
def State.fuseStatus (s : State) (core : Nat) (dst src : Group) : Nat :=
  let wbOf : Group → Nat := fun g => ((g.splits.head?).map (·.2.wb)).getD 0
  let m := fuseMap dst src
  if 1 < dst.splits.length || 1 < src.splits.length then 3
  else if wbOf dst != wbOf src || dst.csrs.rsb != src.csrs.rsb || dst.size != src.size then 4
  else if (movedLids m false).any (s.laneArmed core dst) || (movedLids m true).any (s.laneArmed core src) then 5
  else if 32 < m.length then 6 else 0
/-- A mask read through the map. -/
def fuseMask (m : List (Bool × Nat)) (a b : LaneMask) : LaneMask :=
  maskOf fun n => match m[n]? with
    | some (src, i) => (if src then b else a).getLsbD i
    | none => false
/-- The lanes of the fused group (R133). Of a dead lane the predicates and VID are zero too (log entry 86). -/
def fuseLanes (m : List (Bool × Nat)) (a b : Group) : Lanes :=
  let rows := upFrom 0 a.size
  let slots := rows.foldl (fun st r => (upFrom 0 m.length).foldl (fun st2 n => match m[n]? with
    | some (src, i) => stSet 0 st2 (r * 32 + n) (stGet 0 (if src then b else a).lanes.slots (r * 32 + i))
    | none => st2) st) ([] : Store Word)
  let bits : (Lanes → Store LaneMask) → Store LaneMask := fun f =>
    rows.foldl (fun st r => stSet 0 st r (fuseMask m (stGet 0 (f a.lanes) r) (stGet 0 (f b.lanes) r))) []
  { slots := slots, pbits := bits (·.pbits), lbits := bits (·.lbits)
    preds := (upFrom 1 7).foldl (fun st p => stSet 0 st p (fuseMask m (a.pred p) (b.pred p))) []
    alive := maskOf fun n => decide (n < m.length)
    vids := (upFrom 0 m.length).foldl (fun st n => match m[n]? with
      | some (src, i) => stSet 0 st n (stGet 0 (if src then b else a).lanes.vids i)
      | none => st) [] }
/-- The destination of a fusion: its lanes, the OR of the flags, the sum of OVWCNT, status 0 in d (R133). -/
def fuseGroup (dst src : Group) (split : Nat) (d : SReg) : Group :=
  let ovw := dst.csrs.ovwcnt.toNat + src.csrs.ovwcnt.toNat
  let g1 : Group := { dst with
    lanes := fuseLanes (fuseMap dst src) dst src
    csrs := { dst.csrs with fflags := dst.csrs.fflags ||| src.csrs.fflags, iflags := dst.csrs.iflags ||| src.csrs.iflags,
                            ovwcnt := BitVec.ofNat 64 (if 2 ^ 64 ≤ ovw then 2 ^ 64 - 1 else ovw) } }
  g1.modSplit split fun sp => { (sp.setReg d 0).advance with status := .ready, mask := BitVec.allOnes 32 }
/-- How one wait of the group at `ka` in REGROUP ends, where it does now (R132): with 1 when the partner is gone, with 2 when the partner's
REGROUPs all name other groups, and as a pair once nothing of either group is outstanding. -/
def State.regroupOne (s : State) (core ka : Nat) (a : Group) (x : Nat × SReg × Nat) : Option State :=
  match ((s.team a.team).bind fun t => amGet t.groups x.2.2).bind fun slot => (s.group (gkey core slot)).map fun b => (gkey core slot, b) with
  | none => some (s.regroupEnd ka x.1 x.2.1 1)
  | some (kb, b) =>
    if b.regrouping.isEmpty then none
    else
      match b.regrouping.find? fun y => y.2.2 == a.index with
      | none => some (s.regroupEnd ka x.1 x.2.1 2)
      | some (sb, db, _) =>
        if !(a.idle && b.idle && a.running && b.running) then none
        else
          let low := decide (a.index < b.index)
          let dst := if low then a else b
          let src := if low then b else a
          let st := s.fuseStatus core dst src
          if st != 0 then
            some ((s.regroupEnd ka x.1 x.2.1 (BitVec.ofNat 64 st)).regroupEnd kb sb db (BitVec.ofNat 64 st))
          else
            let kd := if low then ka else kb
            let ks := if low then kb else ka
            let g := fuseGroup dst src (if low then x.1 else sb) (if low then x.2.1 else db)
            let s1 := ((s.putGroup kd g).bumpGen kd).retireAt kd (if low then x.1 else sb)
            some (s1.retireGroup ks true)
/-- REGROUP_FUSE: a wait of the group in `slotA` ends as R132 states, or all go on. -/
def execRegroupFuse (core slotA _slotB : Nat) (s : State) : Out :=
  let ka := gkey core slotA
  match s.group ka with
  | none => .next s
  | some a => .next ((a.regrouping.findSome? (s.regroupOne core ka a)).getD s)

/-! ### ARRIVAL_TIMEOUT (R39) -/

/-- ARRIVAL_TIMEOUT: the head of the lane queue, or a JMPV or PTNEXT, has stalled for ARRTO cycles. -/
def execArrivalTimeout (core slot : Nat) (s : State) : Out :=
  let key := gkey core slot
  match s.group key with
  | none => .next s
  | some g =>
    if !g.running then .next s
    else if g.late s.now g.async.stall then
      match g.async.laneq with
      | [] => .next s
      | e :: _ =>
        .next ((s.modGroup key fun x => x.modAsync fun a => { a with stall := none, xshfl := none }).takeTrap key e.tag.split
          (Trap.of cTimeout) (some e.tag))
    else
      match g.splits.find? fun x => g.late s.now x.2.pstall with
      | none => .next s
      | some x =>
        .next ((s.modSplit key x.1 fun sp => { sp with pstall := none, status := .ready }).takeTrap key x.1 (Trap.of cTimeout) none)

end Sys2Proof.Machine
end

