-- ==== Sys2Proof/Machine/Waits.lean ====
section
/-! DEFINITION. Waiting and core queues (R156 to R165): WAITC, WAITT, YIELDT, QPUSH, QPOP and the events that end their waits. -/
namespace Sys2Proof.Machine

/-! ### WAITC, WAITT, YIELDT (R157, R159, R160) -/

/-- Which of WAITC's classes have met their field, once met for good (R157). -/
def metNow (a : Async) (l s c t : Nat) (met : List Bool) : List Bool :=
  [((met[0]?).getD false) || decide (a.loads ≤ l), ((met[1]?).getD false) || decide (a.stores ≤ s),
   ((met[2]?).getD false) || decide (a.copies ≤ c), ((met[3]?).getD false) || decide (a.tiles ≤ t)]
/-- Whether every token of a mask is complete (R158, R159). -/
def tokensDone (a : Async) (mask : Byte) : Bool :=
  (upFrom 0 8).all fun k => !(mask.getLsbD k) || stGet 0 a.tokens k == 0

/-- WAITC. -/
def execWaitc (loads stores copies tiles : BitVec 6) (s : State) : Out :=
  runScalar true (fun s g sp =>
    let met := metNow g.async loads.toNat stores.toNat copies.toNat tiles.toNat []
    if !g.issued s.sched.split then .wait s
    else if met.all id then .done (s.put g sp.advance)
    else .wait (s.put g { sp with status := .waitC loads.toNat stores.toNat copies.toNat tiles.toNat met })) s
/-- WAITT: a mask of 0 acts as a NOP. -/
def execWaitt (mask : BitVec 8) (s : State) : Out :=
  runScalar true (fun s g sp =>
    if mask = 0 then .done (s.put g sp.advance)
    else if !g.issued s.sched.split then .wait s
    else if tokensDone g.async mask then .done (s.put g sp.advance)
    else .wait (s.put g { sp with status := .waitT mask false })) s
/-- YIELDT: the continuation must lie in the slot. -/
def execYieldt (k : BitVec 3) (disp : BitVec 16) (s : State) : Out :=
  runScalar true (fun s g sp =>
    let t := branchTarget sp.pc disp
    match targetTrap sp.pc t with
    | some x => .trap x
    | none =>
      if !g.issued s.sched.split then .wait s
      else if g.token k.toNat == 0 then .done (s.put g (sp.goto t))
      else .wait (s.put g { sp with status := .yieldT k.toNat t false })) s

/-- WAITC_RELEASE: every class has met its field at some instant of the wait. -/
def execWaitcRelease (core slot split : Nat) (s : State) : Out :=
  onSplit core slot split (fun g sp => match sp.status with
    | .waitC l st c t met =>
      if (metNow g.async l st c t met).all id then s.resume (gkey core slot) split Split.advance else s
    | _ => s) s
/-- WAITT_RELEASE: at one instant every named token was complete. -/
def execWaittRelease (core slot split : Nat) (s : State) : Out :=
  onSplit core slot split (fun g sp => match sp.status with
    | .waitT mask due => if due || tokensDone g.async mask then s.resume (gkey core slot) split Split.advance else s
    | _ => s) s
/-- YIELDT_WAKE: the token has been complete; the split goes to the continuation. -/
def execYieldtWake (core slot split : Nat) (s : State) : Out :=
  onSplit core slot split (fun g sp => match sp.status with
    | .yieldT k t due => if due || g.token k == 0 then s.resume (gkey core slot) split (·.goto t) else s
    | _ => s) s

/-! ### Core queues (R161 to R164) -/

def State.coreQueue (s : State) (core q : Nat) : CoreQueue := (amGet (s.core core).queues q).getD CoreQueue.fresh
/-- The entries of a core queue (R161). -/
def State.queueLen (s : State) (core q : Nat) : Nat := (s.coreQueue core q).items.length
def State.setQueue (s : State) (core q : Nat) (x : CoreQueue) : State :=
  s.modCore core fun c => { c with queues := amSet c.queues q x }
/-- Whether a launch may use a queue: it owns it, or takes it as owner (R162). -/
def CoreQueue.allows (x : CoreQueue) (launch : Nat) : Bool :=
  x.owner == some launch || (x.owner.isNone && x.items.isEmpty)
/-- The first split of a core that waits on a queue's space or entry (R164): slot and split. A group that is not running is passed by (log
entry 87). -/
def State.firstWaiter (s : State) (core q : Nat) (push : Bool) : Option (Nat × Nat) :=
  let all := s.groups.flatMap fun g => if g.1 / 32 == core && g.2.running then
      g.2.splits.filterMap fun x => match x.2.status with
        | .push k _ t => if push && k == q then some (g.1 % 32, x.1, t) else none
        | .pop k _ t => if !push && k == q then some (g.1 % 32, x.1, t) else none
        | _ => none
    else []
  (all.foldl (fun (b : Option (Nat × Nat × Nat)) x => match b with
    | none => some x
    | some y => if x.2.2 < y.2.2 then some x else b) none).map fun x => (x.1, x.2.1)
/-- Append a value for a launch. -/
def State.pushQueue (s : State) (core q launch : Nat) (v : DWord) : State :=
  s.setQueue core q { items := (s.coreQueue core q).items ++ [v], owner := some launch }
/-- Take the oldest entry for a launch. -/
def State.popQueue (s : State) (core q launch : Nat) : State :=
  s.setQueue core q { items := (s.coreQueue core q).items.drop 1, owner := some launch }
/-- A launch that uses an empty queue with no owner takes it (R162). -/
def State.ownQueue (s : State) (core q launch : Nat) : State :=
  s.setQueue core q { s.coreQueue core q with owner := some launch }

/-- The wait of a split on a queue ends when there is room or an entry (R164). -/
def State.queueRelease (s : State) (core slot split : Nat) : State :=
  let key := gkey core slot
  match s.group key, (s.group key).bind fun g => g.split split with
  | some g, some sp =>
    (match sp.status with
     | .push q v _ => if s.queueLen core q < 64 then (s.pushQueue core q g.launch v).resume key split Split.advance else s
     | .pop q d _ =>
       (match (s.coreQueue core q).items.head? with
        | some v => (s.popQueue core q g.launch).resume key split fun x => (x.setReg d v).advance
        | none => s)
     | _ => s)
  | _, _ => s
/-- The operations that began to wait on a queue before go first, the oldest first, as far as there is room or an entry (R164). -/
def State.serveWaiters (s : State) (core q : Nat) (push : Bool) : Nat → State
  | 0 => s
  | n + 1 =>
    if (if push then decide (64 ≤ s.queueLen core q) else s.queueLen core q == 0) then s
    else
      match s.firstWaiter core q push with
      | none => s
      | some x => (s.queueRelease core x.1 x.2).serveWaiters core q push n

/-- QPUSH (R163): QUEUE_FAULT for another launch's queue; a release at team scope; then, after the operations that began to wait earlier
(R164), the append, or `.nb`'s answer, or the wait. A split begins to wait in this order when it finds no room (log entry 87). -/
def execQpush (a : SReg) (c : BitVec 3) (nb : BitVec 1) (q : BitVec 4) (s : State) : Out :=
  runScalar (scalarOk (.qpush a c nb q)) (fun s g sp =>
    let core := s.sched.core
    let n := q.toNat
    if !(s.coreQueue core n).allows g.launch then .trap (Trap.of cQueue)
    else if !g.issued s.sched.split then .wait s
    else
      match s.releaseFor s.sched.split 0 with
      | .error s1 => .wait s1
      | .ok s0 =>
        let s1 := s0.serveWaiters core n true 1024
        let mine := fun (s2 : State) (sp1 : Split) => s2.modSplit s1.curKey s.sched.split fun _ => sp1
        if 64 ≤ s1.queueLen core n then
          (if nb = 1 then .done (mine (s1.ownQueue core n g.launch) (sp.setCbit c false).advance)
           else .wait (mine (s1.ownQueue core n g.launch) { sp with status := .push n (sp.reg a) s.now }))
        else
          .done (mine (s1.pushQueue core n g.launch (sp.reg a)) (if nb = 1 then sp.setCbit c true else sp).advance)) s
/-- QPOP (R163), after the operations that began to wait earlier (R164). -/
def execQpop (d : SReg) (c : BitVec 3) (nb : BitVec 1) (q : BitVec 4) (s : State) : Out :=
  runScalar (scalarOk (.qpop d c nb q)) (fun s g sp =>
    let core := s.sched.core
    let n := q.toNat
    if !(s.coreQueue core n).allows g.launch then .trap (Trap.of cQueue)
    else
      let s1 := s.serveWaiters core n false 1024
      let mine := fun (s2 : State) (sp1 : Split) => s2.modSplit s1.curKey s.sched.split fun _ => sp1
      match (s1.coreQueue core n).items.head? with
      | none =>
        if nb = 1 then .done (mine (s1.ownQueue core n g.launch) (sp.setCbit c false).advance)
        else .wait (mine (s1.ownQueue core n g.launch) { sp with status := .pop n d s.now })
      | some v =>
        .done (mine (s1.popQueue core n g.launch) ((if nb = 1 then sp.setCbit c true else sp).setReg d v).advance)) s

/-- QUEUE_WAIT_RELEASE: the operation that has waited longest goes when there is room or an entry (R164). -/
def execQueueWaitRelease (core slot split : Nat) (s : State) : Out :=
  onSplit core slot split (fun _ sp => match sp.status with
    | .push q _ _ => if s.firstWaiter core q true == some (slot, split) then s.queueRelease core slot split else s
    | .pop q _ _ => if s.firstWaiter core q false == some (slot, split) then s.queueRelease core slot split else s
    | _ => s) s

end Sys2Proof.Machine
end

