-- ==== Sys2Proof/Machine/Dispatch.lean ====
section
/-! DEFINITION. One arm for each step of the machine. -/
namespace Sys2Proof.Machine

/-- The meaning of every step. -/
def exec (i : Instr) (s : State) : Host.Outcome State Fault Refusal :=
  match i with
  | .trap code => Sys2Proof.Machine.execTrap code s
  | .brk code => Sys2Proof.Machine.execBrk code s
  | .sleep a => Sys2Proof.Machine.execSleep a s
  | .csrr d csr => Sys2Proof.Machine.execCsrr d csr s
  | .csrw a csr => Sys2Proof.Machine.execCsrw a csr s
  | .add d a b => Sys2Proof.Machine.execAdd d a b s
  | .sub d a b => Sys2Proof.Machine.execSub d a b s
  | .mul d a b => Sys2Proof.Machine.execMul d a b s
  | .mulh d a b => Sys2Proof.Machine.execMulh d a b s
  | .mulhn d a b => Sys2Proof.Machine.execMulhn d a b s
  | .div d a b => Sys2Proof.Machine.execDiv d a b s
  | .divn d a b => Sys2Proof.Machine.execDivn d a b s
  | .rem d a b => Sys2Proof.Machine.execRem d a b s
  | .remn d a b => Sys2Proof.Machine.execRemn d a b s
  | .and d a b => Sys2Proof.Machine.execAnd d a b s
  | .or d a b => Sys2Proof.Machine.execOr d a b s
  | .xor d a b => Sys2Proof.Machine.execXor d a b s
  | .shl d a b => Sys2Proof.Machine.execShl d a b s
  | .shr d a b => Sys2Proof.Machine.execShr d a b s
  | .sar d a b => Sys2Proof.Machine.execSar d a b s
  | .slt d a b => Sys2Proof.Machine.execSlt d a b s
  | .sltn d a b => Sys2Proof.Machine.execSltn d a b s
  | .seq d a b => Sys2Proof.Machine.execSeq d a b s
  | .min d a b => Sys2Proof.Machine.execMin d a b s
  | .max d a b => Sys2Proof.Machine.execMax d a b s
  | .minn d a b => Sys2Proof.Machine.execMinn d a b s
  | .maxn d a b => Sys2Proof.Machine.execMaxn d a b s
  | .sel d a b c => Sys2Proof.Machine.execSel d a b c s
  | .addi d a imm => Sys2Proof.Machine.execAddi d a imm s
  | .andi d a imm => Sys2Proof.Machine.execAndi d a imm s
  | .ori d a imm => Sys2Proof.Machine.execOri d a imm s
  | .xori d a imm => Sys2Proof.Machine.execXori d a imm s
  | .shli d a n => Sys2Proof.Machine.execShli d a n s
  | .shri d a n => Sys2Proof.Machine.execShri d a n s
  | .sari d a n => Sys2Proof.Machine.execSari d a n s
  | .slti d a imm => Sys2Proof.Machine.execSlti d a imm s
  | .lui d imm => Sys2Proof.Machine.execLui d imm s
  | .shlor d a imm => Sys2Proof.Machine.execShlor d a imm s
  | .lds d a disp => Sys2Proof.Machine.execLds d a disp s
  | .ldw d a disp => Sys2Proof.Machine.execLdw d a disp s
  | .sts d a disp => Sys2Proof.Machine.execSts d a disp s
  | .stw d a disp => Sys2Proof.Machine.execStw d a disp s
  | .satom d a b scope use narrow op => Sys2Proof.Machine.execSatom d a b scope use narrow op s
  | .scas d a b scope use narrow => Sys2Proof.Machine.execScas d a b scope use narrow s
  | .beq a b disp => Sys2Proof.Machine.execBeq a b disp s
  | .bne a b disp => Sys2Proof.Machine.execBne a b disp s
  | .blt a b disp => Sys2Proof.Machine.execBlt a b disp s
  | .bge a b disp => Sys2Proof.Machine.execBge a b disp s
  | .bltn a b disp => Sys2Proof.Machine.execBltn a b disp s
  | .bgen a b disp => Sys2Proof.Machine.execBgen a b disp s
  | .bct c disp => Sys2Proof.Machine.execBct c disp s
  | .bcf c disp => Sys2Proof.Machine.execBcf c disp s
  | .jal disp => Sys2Proof.Machine.execJal disp s
  | .jalr d a imm => Sys2Proof.Machine.execJalr d a imm s
  | .jmpf d a imm => Sys2Proof.Machine.execJmpf d a imm s
  | .call k disp => Sys2Proof.Machine.execCall k disp s
  | .ret k => Sys2Proof.Machine.execRet k s
  | .lrun n => Sys2Proof.Machine.execLrun n s
  | .lset a imm => Sys2Proof.Machine.execLset a imm s
  | .brv neg p disp => Sys2Proof.Machine.execBrv neg p disp s
  | .jmpv v => Sys2Proof.Machine.execJmpv v s
  | .join a id => Sys2Proof.Machine.execJoin a id s
  | .regroup d a => Sys2Proof.Machine.execRegroup d a s
  | .waitc loads stores copies tiles => Sys2Proof.Machine.execWaitc loads stores copies tiles s
  | .waitt mask => Sys2Proof.Machine.execWaitt mask s
  | .yieldt k disp => Sys2Proof.Machine.execYieldt k disp s
  | .qpush a c nb q => Sys2Proof.Machine.execQpush a c nb q s
  | .qpop d c nb q => Sys2Proof.Machine.execQpop d c nb q s
  | .fence scope kind => Sys2Proof.Machine.execFence scope kind s
  | .syncinit a b ctr scope => Sys2Proof.Machine.execSyncinit a b ctr scope s
  | .syncfree a scope => Sys2Proof.Machine.execSyncfree a scope s
  | .arrive d a b scope => Sys2Proof.Machine.execArrive d a b scope s
  | .bwait a b scope => Sys2Proof.Machine.execBwait a b scope s
  | .waittl a b scope => Sys2Proof.Machine.execWaittl a b scope s
  | .spawn d a => Sys2Proof.Machine.execSpawn d a s
  | .cfetch a k slot => Sys2Proof.Machine.execCfetch a k slot s
  | .pin a b => Sys2Proof.Machine.execPin a b s
  | .unpin a b => Sys2Proof.Machine.execUnpin a b s
  | .wspill a b => Sys2Proof.Machine.execWspill a b s
  | .wfill a b => Sys2Proof.Machine.execWfill a b s
  | .copy d a b cls q op k => Sys2Proof.Machine.execCopy d a b cls q op k s
  | .tcopy d a b cls q op k => Sys2Proof.Machine.execTcopy d a b cls q op k s
  | .gcopy d a b cls q k => Sys2Proof.Machine.execGcopy d a b cls q k s
  | .coll d a red op tile => Sys2Proof.Machine.execColl d a red op tile s
  | .tcfg a => Sys2Proof.Machine.execTcfg a s
  | .tzero tile => Sys2Proof.Machine.execTzero tile s
  | .tld sat a b rm tile => Sys2Proof.Machine.execTld sat a b rm tile s
  | .tst sat a b rm tile => Sys2Proof.Machine.execTst sat a b rm tile s
  | .mfence d => Sys2Proof.Machine.execMfence d s
  | .mloop tile a b k => Sys2Proof.Machine.execMloop tile a b k s
  | .rktbl a table => Sys2Proof.Machine.execRktbl a table s
  | .rkenc d a => Sys2Proof.Machine.execRkenc d a s
  | .rkmm tile a table => Sys2Proof.Machine.execRkmm tile a table s
  | .rkval a b bf table => Sys2Proof.Machine.execRkval a b bf table s
  | .ptnext d audit point first => Sys2Proof.Machine.execPtnext d audit point first s
  | .ptdone a => Sys2Proof.Machine.execPtdone a s
  | .rcap d a => Sys2Proof.Machine.execRcap d a s
  | .iadd f => Sys2Proof.Machine.execIadd f s
  | .isub f => Sys2Proof.Machine.execIsub f s
  | .imul f => Sys2Proof.Machine.execImul f s
  | .imulh f => Sys2Proof.Machine.execImulh f s
  | .imad f => Sys2Proof.Machine.execImad f s
  | .idiv f => Sys2Proof.Machine.execIdiv f s
  | .irem f => Sys2Proof.Machine.execIrem f s
  | .imin f => Sys2Proof.Machine.execImin f s
  | .imax f => Sys2Proof.Machine.execImax f s
  | .iabs f => Sys2Proof.Machine.execIabs f s
  | .ineg f => Sys2Proof.Machine.execIneg f s
  | .laneAnd f => Sys2Proof.Machine.execLaneAnd f s
  | .laneOr f => Sys2Proof.Machine.execLaneOr f s
  | .laneXor f => Sys2Proof.Machine.execLaneXor f s
  | .andn f => Sys2Proof.Machine.execAndn f s
  | .laneNot f => Sys2Proof.Machine.execLaneNot f s
  | .laneShl f => Sys2Proof.Machine.execLaneShl f s
  | .laneShr f => Sys2Proof.Machine.execLaneShr f s
  | .laneSar f => Sys2Proof.Machine.execLaneSar f s
  | .rot f => Sys2Proof.Machine.execRot f s
  | .clz f => Sys2Proof.Machine.execClz f s
  | .popc f => Sys2Proof.Machine.execPopc f s
  | .brev f => Sys2Proof.Machine.execBrev f s
  | .bfx f => Sys2Proof.Machine.execBfx f s
  | .bfi f => Sys2Proof.Machine.execBfi f s
  | .icmp f => Sys2Proof.Machine.execIcmp f s
  | .laneSel f => Sys2Proof.Machine.execLaneSel f s
  | .mov f => Sys2Proof.Machine.execMov f s
  | .fadd f => Sys2Proof.Machine.execFadd f s
  | .fsub f => Sys2Proof.Machine.execFsub f s
  | .fmul f => Sys2Proof.Machine.execFmul f s
  | .fma f => Sys2Proof.Machine.execFma f s
  | .fmin f => Sys2Proof.Machine.execFmin f s
  | .fmax f => Sys2Proof.Machine.execFmax f s
  | .fabs f => Sys2Proof.Machine.execFabs f s
  | .fneg f => Sys2Proof.Machine.execFneg f s
  | .fcmp f => Sys2Proof.Machine.execFcmp f s
  | .frcp f => Sys2Proof.Machine.execFrcp f s
  | .frsq f => Sys2Proof.Machine.execFrsq f s
  | .fsqrt f => Sys2Proof.Machine.execFsqrt f s
  | .fexp2 f => Sys2Proof.Machine.execFexp2 f s
  | .flog2 f => Sys2Proof.Machine.execFlog2 f s
  | .fsinpi f => Sys2Proof.Machine.execFsinpi f s
  | .fcospi f => Sys2Proof.Machine.execFcospi f s
  | .fscale f => Sys2Proof.Machine.execFscale f s
  | .fclass f => Sys2Proof.Machine.execFclass f s
  | .frint f => Sys2Proof.Machine.execFrint f s
  | .fdiv f => Sys2Proof.Machine.execFdiv f s
  | .hadd2 f => Sys2Proof.Machine.execHadd2 f s
  | .hmul2 f => Sys2Proof.Machine.execHmul2 f s
  | .hfma2 f => Sys2Proof.Machine.execHfma2 f s
  | .idot4 f => Sys2Proof.Machine.execIdot4 f s
  | .idot2 f => Sys2Proof.Machine.execIdot2 f s
  | .cvt f => Sys2Proof.Machine.execCvt f s
  | .cvtp f => Sys2Proof.Machine.execCvtp f s
  | .cvtx f => Sys2Proof.Machine.execCvtx f s
  | .bpenc f => Sys2Proof.Machine.execBpenc f s
  | .bpdec f => Sys2Proof.Machine.execBpdec f s
  | .pand f => Sys2Proof.Machine.execPand f s
  | .por f => Sys2Proof.Machine.execPor f s
  | .pxor f => Sys2Proof.Machine.execPxor f s
  | .pnot f => Sys2Proof.Machine.execPnot f s
  | .lkill f => Sys2Proof.Machine.execLkill f s
  | .ld f => Sys2Proof.Machine.execLd f s
  | .st f => Sys2Proof.Machine.execSt f s
  | .ldt f => Sys2Proof.Machine.execLdt f s
  | .stt f => Sys2Proof.Machine.execStt f s
  | .atom f => Sys2Proof.Machine.execAtom f s
  | .cas f => Sys2Proof.Machine.execCas f s
  | .lda f => Sys2Proof.Machine.execLda f s
  | .str f => Sys2Proof.Machine.execStr f s
  | .pref f => Sys2Proof.Machine.execPref f s
  | .shfl f => Sys2Proof.Machine.execShfl f s
  | .vote f => Sys2Proof.Machine.execVote f s
  | .redl f => Sys2Proof.Machine.execRedl f s
  | .scan f => Sys2Proof.Machine.execScan f s
  | .xshfl f => Sys2Proof.Machine.execXshfl f s
  | .rarm f => Sys2Proof.Machine.execRarm f s
  | .rput f => Sys2Proof.Machine.execRput f s
  | .rclr f => Sys2Proof.Machine.execRclr f s
  | .registerArrival p => Sys2Proof.Machine.execRegisterArrival p s
  | .rputOutcome put => Sys2Proof.Machine.execRputOutcome put s
  | .reservationRequest source => Sys2Proof.Machine.execReservationRequest source s
  | .reservationGrant source target => Sys2Proof.Machine.execReservationGrant source target s
  | .reservationIdleReturn source target => Sys2Proof.Machine.execReservationIdleReturn source target s
  | .rejoinDeadlock core slot => Sys2Proof.Machine.execRejoinDeadlock core slot s
  | .regroupFuse core slotA slotB => Sys2Proof.Machine.execRegroupFuse core slotA slotB s
  | .memoryAccessComplete core slot access => Sys2Proof.Machine.execMemoryAccessComplete core slot access s
  | .waitcRelease core slot split => Sys2Proof.Machine.execWaitcRelease core slot split s
  | .waittRelease core slot split => Sys2Proof.Machine.execWaittRelease core slot split s
  | .yieldtWake core slot split => Sys2Proof.Machine.execYieldtWake core slot split s
  | .queueWaitRelease core slot split => Sys2Proof.Machine.execQueueWaitRelease core slot split s
  | .fenceComplete core slot split => Sys2Proof.Machine.execFenceComplete core slot split s
  | .bwaitRelease core slot split => Sys2Proof.Machine.execBwaitRelease core slot split s
  | .waittlRelease core slot split => Sys2Proof.Machine.execWaittlRelease core slot split s
  | .barComplete team => Sys2Proof.Machine.execBarComplete team s
  | .transactionBytesLand entry bytes => Sys2Proof.Machine.execTransactionBytesLand entry bytes s
  | .xshflCommit coreA slotA coreB slotB => Sys2Proof.Machine.execXshflCommit coreA slotA coreB slotB s
  | .overlayLanded core slot => Sys2Proof.Machine.execOverlayLanded core slot s
  | .faultReplay core slot => Sys2Proof.Machine.execFaultReplay core slot s
  | .mloopStep core => Sys2Proof.Machine.execMloopStep core s
  | .matrixOpComplete core => Sys2Proof.Machine.execMatrixOpComplete core s
  | .rkencComplete core => Sys2Proof.Machine.execRkencComplete core s
  | .teamPlacement cluster launch handle => Sys2Proof.Machine.execTeamPlacement cluster launch handle s
  | .groupSave core slot => Sys2Proof.Machine.execGroupSave core slot s
  | .groupSaveComplete core slot => Sys2Proof.Machine.execGroupSaveComplete core slot s
  | .teamPoolSave team => Sys2Proof.Machine.execTeamPoolSave team s
  | .groupRestore core slot => Sys2Proof.Machine.execGroupRestore core slot s
  | .copyEntryTake queue => Sys2Proof.Machine.execCopyEntryTake queue s
  | .abandoned queue => Sys2Proof.Machine.execAbandoned queue s
  | .triggeredEntryFire entry => Sys2Proof.Machine.execTriggeredEntryFire entry s
  | .copyEntryComplete entry => Sys2Proof.Machine.execCopyEntryComplete entry s
  | .ptnextDispatch core slot split => Sys2Proof.Machine.execPtnextDispatch core slot split s
  | .tileReconstruct launch => Sys2Proof.Machine.execTileReconstruct launch s
  | .l2MissFill line => Sys2Proof.Machine.execL2MissFill line s
  | .pinRevocation shoot => Sys2Proof.Machine.execPinRevocation shoot s
  | .shootdownComplete shoot => Sys2Proof.Machine.execShootdownComplete shoot s
  | .migrationComplete migration => Sys2Proof.Machine.execMigrationComplete migration s
  | .graphInstanceStart graph => Sys2Proof.Machine.execGraphInstanceStart graph s
  | .mergeUnitTake merger => Sys2Proof.Machine.execMergeUnitTake merger s
  | .preemption launch handle => Sys2Proof.Machine.execPreemption launch handle s
  | .teamRetire team => Sys2Proof.Machine.execTeamRetire team s
  | .nodeComplete launch handle => Sys2Proof.Machine.execNodeComplete launch handle s
  | .launchComplete launch => Sys2Proof.Machine.execLaunchComplete launch s
  | .podPacketForward die dest => Sys2Proof.Machine.execPodPacketForward die dest s
  | .collectiveComplete team => Sys2Proof.Machine.execCollectiveComplete team s
  | .cellContribution die cell c => Sys2Proof.Machine.execCellContribution die cell c s
  | .cellAnswer team slice r => Sys2Proof.Machine.execCellAnswer team slice r s
  | .cellLostRerun team => Sys2Proof.Machine.execCellLostRerun team s
  | .sleepExpiry core slot split => Sys2Proof.Machine.execSleepExpiry core slot split s
  | .cellBusyResend team slice => Sys2Proof.Machine.execCellBusyResend team slice s
  | .ringStalled ring => Sys2Proof.Machine.execRingStalled ring s
  | .collectiveTimeout team => Sys2Proof.Machine.execCollectiveTimeout team s
  | .priorityAgeing launch handle => Sys2Proof.Machine.execPriorityAgeing launch handle s
  | .chainWaitTimeout merger => Sys2Proof.Machine.execChainWaitTimeout merger s
  | .cellTimerExpiry die cell => Sys2Proof.Machine.execCellTimerExpiry die cell s
  | .arrivalTimeout core slot => Sys2Proof.Machine.execArrivalTimeout core slot s
  | .packetAged die dest => Sys2Proof.Machine.execPacketAged die dest s
  | .retransmitTimeout peer psn => Sys2Proof.Machine.execRetransmitTimeout peer psn s
  | .pathWeightRestore set path => Sys2Proof.Machine.execPathWeightRestore set path s
  | .turnroundPauseEnd fibre => Sys2Proof.Machine.execTurnroundPauseEnd fibre s
  | .spareRetrainingPauseEnd port => Sys2Proof.Machine.execSpareRetrainingPauseEnd port s
  | .rankWalk die rank => Sys2Proof.Machine.execRankWalk die rank s
  | .pageWalk core asid va => Sys2Proof.Machine.execPageWalk core asid va s
  | .rsbWrite a => Sys2Proof.Machine.execRsbWrite a s
  | .spbWrite a => Sys2Proof.Machine.execSpbWrite a s
  | .flagsAccess write ints r => Sys2Proof.Machine.execFlagsAccess write ints r s
  | .cqbWrite k a => Sys2Proof.Machine.execCqbWrite k a s
  | .ovwcntWrite a => Sys2Proof.Machine.execOvwcntWrite a s
  | .loadfw tag verified measurement topo => Sys2Proof.Machine.execLoadfw tag verified measurement topo s
  | .attest tag => Sys2Proof.Machine.execAttest tag s
  | .keyload tag index key => Sys2Proof.Machine.execKeyload tag index key s
  | .guard tag req => Sys2Proof.Machine.execGuard tag req s
  | .asreg tag asid root => Sys2Proof.Machine.execAsreg tag asid root s
  | .ringreg tag asid desc => Sys2Proof.Machine.execRingreg tag asid desc s
  | .slottbl tag kind entries strict => Sys2Proof.Machine.execSlottbl tag kind entries strict s
  | .shoot tag asid va len remap => Sys2Proof.Machine.execShoot tag asid va len remap s
  | .migrate tag asid va size frame scale => Sys2Proof.Machine.execMigrate tag asid va size frame scale s
  | .cancel tag packet => Sys2Proof.Machine.execCancel tag packet s
  | .pageans tag asid va mapped => Sys2Proof.Machine.execPageans tag asid va mapped s
  | .evring tag base log2n => Sys2Proof.Machine.execEvring tag base log2n s
  | .evack tag index clear => Sys2Proof.Machine.execEvack tag index clear s
  | .powercap tag watts => Sys2Proof.Machine.execPowercap tag watts s
  | .topo tag => Sys2Proof.Machine.execTopo tag s
  | .errcnt tag counter => Sys2Proof.Machine.execErrcnt tag counter s
  | .fread tag ack => Sys2Proof.Machine.execFread tag ack s
  | .cells tag n die => Sys2Proof.Machine.execCells tag n die s
  | .cellfree tag first count die => Sys2Proof.Machine.execCellfree tag first count die s
  | .powerLimiterSample milliwatts => Sys2Proof.Machine.execPowerLimiterSample milliwatts s
  | .laserInterlock fibre => Sys2Proof.Machine.execLaserInterlock fibre s
  | .commandLinkTimeout cluster => Sys2Proof.Machine.execCommandLinkTimeout cluster s
  | .uncorrectableError place => Sys2Proof.Machine.execUncorrectableError place s
  | .correctableError counter => Sys2Proof.Machine.execCorrectableError counter s
  | .mediaFrameComplete job depth samples => Sys2Proof.Machine.execMediaFrameComplete job depth samples s
  | .mediaJobComplete job ok => Sys2Proof.Machine.execMediaJobComplete job ok s
  | .targetFaultAnswer ticket cause precise index => Sys2Proof.Machine.execTargetFaultAnswer ticket cause precise index s
  | .podPacketReceive die port p crcOk => Sys2Proof.Machine.execPodPacketReceive die port p crcOk s
  | .podNack dest ticket => Sys2Proof.Machine.execPodNack dest ticket s
  | .linkPermitReturn port channel units => Sys2Proof.Machine.execLinkPermitReturn port channel units s
  | .wavelengthFailure fibre transmit => Sys2Proof.Machine.execWavelengthFailure fibre transmit s
  | .remotePacketReceive p headerOk tagOk marked => Sys2Proof.Machine.execRemotePacketReceive p headerOk tagOk marked s
  | .remoteAck peer cum bitmap marked path => Sys2Proof.Machine.execRemoteAck peer cum bitmap marked path s
  | .remoteNack peer psn => Sys2Proof.Machine.execRemoteNack peer psn s
  | .trimmedPacketNotice peer psn => Sys2Proof.Machine.execTrimmedPacketNotice peer psn s
  | .retireNotice peer psn => Sys2Proof.Machine.execRetireNotice peer psn s
  | .precisionTimeProtocolMessage time => Sys2Proof.Machine.execPrecisionTimeProtocolMessage time s
  | .retriedFlit link => Sys2Proof.Machine.execRetriedFlit link s
  | .nop => Sys2Proof.Machine.execNop s
  | .eret => Sys2Proof.Machine.execEret s
  | .exit => Sys2Proof.Machine.execExit s
  | .bar => Sys2Proof.Machine.execBar s
  | .rfence => Sys2Proof.Machine.execRfence s
  | .rrev => Sys2Proof.Machine.execRrev s
  | .launchIntake => Sys2Proof.Machine.execLaunchIntake s
  | .graphReplayIntake => Sys2Proof.Machine.execGraphReplayIntake s
  | .nodeDispatch => Sys2Proof.Machine.execNodeDispatch s
  | .watchdog => Sys2Proof.Machine.execWatchdog s
  | .boot => Sys2Proof.Machine.execBoot s
  | .heartbeat => Sys2Proof.Machine.execHeartbeat s
  | .circuitPhaseStart => Sys2Proof.Machine.execCircuitPhaseStart s
  | .circuitGapStart => Sys2Proof.Machine.execCircuitGapStart s

end Sys2Proof.Machine
end

