-- ==== Sys2Proof/Machine/Due.lean ====
section
/-! DEFINITION. What time and finished work bring about after every step (log entry 1): waits whose condition is met are latched
(R157 to R160), stalls are timed (R39), and events whose condition holds become due. -/
namespace Sys2Proof.Machine

/-! ### Latching waits -/

/-- A wait's status with the conditions met now. -/
def latch (a : Async) : SplitStatus → SplitStatus
  | .waitC l s c t met => .waitC l s c t (metNow a l s c t met)
  | .waitT mask due => .waitT mask (due || tokensDone a mask)
  | .yieldT k target due => .yieldT k target (due || stGet 0 a.tokens k == 0)
  | x => x
def Group.latched (g : Group) : Group :=
  { g with splits := amMap (fun _ sp => { sp with status := latch g.async sp.status }) g.splits }
/-- Time the P stall and the XSHFL wait of the head (R39, R224): from its first instant, until it ends. -/
def State.timed (s : State) (core : Nat) (g : Group) : Group :=
  let held := g.running && (g.async.xshfl.isSome || (match g.headInstr with
    | some (e, some i) => s.stalledOnP core g e i
    | _ => false))
  g.modAsync fun a => { a with stall := if held then some (a.stall.getD s.now) else none }

/-! ### Events of a group -/

/-- The event that would end a split's wait now, if any. -/
def State.splitDue (s : State) (core slot : Nat) (g : Group) (k : Nat) (sp : Split) : Option Instr :=
  match sp.status with
  | .waitC _ _ _ _ met => if met.all id then some (.waitcRelease core slot k) else none
  | .waitT _ due => if due then some (.waittRelease core slot k) else none
  | .yieldT _ _ due => if due then some (.yieldtWake core slot k) else none
  | .push q _ _ => if s.queueLen core q < 64 && s.firstWaiter core q true == some (slot, k) then some (.queueWaitRelease core slot k) else none
  | .pop q _ _ => if 0 < s.queueLen core q && s.firstWaiter core q false == some (slot, k) then some (.queueWaitRelease core slot k) else none
  | .fence scope kind =>
    if s.fenceReady (gkey core slot) k scope kind then some (.fenceComplete core slot k) else none
  | .bwait w _ => if w.due then some (.bwaitRelease core slot k) else none
  | .waittl w _ => if w.due then some (.waittlRelease core slot k) else none
  | .freed _ => some (.bwaitRelease core slot k)
  | .sleep t => if t ≤ s.now then some (.sleepExpiry core slot k) else none
  | .bar _ => if s.barDue g.team then some (.barComplete g.team) else none
  | .regroup _ p => (s.team g.team).map fun t => .regroupFuse core slot (stGet 32 t.groups p)
  | .ptnext _ _ _ _ => some (.ptnextDispatch core slot k)
  | _ => none
/-- The events a group makes due. -/
def State.groupDue (s : State) (key : Nat) (g : Group) : List Instr :=
  let core := key / 32
  let slot := key % 32
  let waits := if g.running then g.splits.filterMap fun x => s.splitDue core slot g x.1 x.2 else []
  let dead := if g.running && g.splits.all (fun x => match x.2.status with | .joining _ _ => true | _ => false)
    then [Instr.rejoinDeadlock core slot] else []
  let late := if g.running && (g.late s.now g.async.stall || g.splits.any fun x => g.late s.now x.2.pstall)
    then [Instr.arrivalTimeout core slot] else []
  let fault := if g.ctl.fault.isSome then [Instr.faultReplay core slot] else []
  let save := if g.ctl.save == .saving then [Instr.groupSaveComplete core slot] else []
  waits ++ dead ++ late ++ fault ++ save
/-- Everything due in the groups. -/
def State.dueEvents (s : State) : List Instr := s.groups.flatMap fun g => s.groupDue g.1 g.2

/-! ### What is looked at every 64 cycles (log entry 19)

An event whose condition turns out not to hold changes nothing, so these lists may name more than is due. -/

/-- Events of the cores: the matrix queue's head, the rank engine, slots that are loading. -/
def State.coreDue (s : State) : List Instr :=
  s.cores.flatMap fun c =>
    (match c.2.engines.matq with | o :: _ => [o.event c.1] | [] => [])
      ++ (if c.2.engines.rankq.isEmpty then [] else [Instr.rkencComplete c.1])
      ++ c.2.codeSlots.filterMap fun x => if x.2.state == .loading then some (.overlayLanded c.1 x.1) else none
/-- Events of copy queues and entries. -/
def State.copyDue (s : State) : List Instr :=
  (s.queues.flatMap fun q => [Instr.copyEntryTake q.1, .abandoned q.1])
    ++ s.entries.map fun e => if e.2.armed then Instr.triggeredEntryFire e.1 else .copyEntryComplete e.1
/-- Events of command rings, merge units and intake. -/
def State.ringDue (s : State) : List Instr :=
  let ms := (s.head.rings.foldl (fun (m : NSet) r => nsAdd m r.2.merger) []).map (·.1)
  (ms.flatMap fun m => [Instr.mergeUnitTake m, .chainWaitTimeout m]) ++ s.head.rings.map (fun r => Instr.ringStalled r.1)
    ++ if s.nextPacket.isSome then [.launchIntake, .graphReplayIntake] else []
/-- Events of one node. -/
def nodeDue (l h : Nat) (n : Node) : List Instr :=
  match n.state with
  | .ready => [.priorityAgeing l h, .preemption l h]
  | .running => [.nodeComplete l h]
  | _ => []
/-- Events of launches, nodes and teams. -/
def State.launchDue (s : State) : List Instr :=
  (s.head.launches.flatMap fun x =>
    (x.2.nodes.flatMap fun n => nodeDue x.1 n.1 n.2)
      ++ (match if x.2.waitingGraph then x.2.graph else none with | some g => [Instr.graphInstanceStart g.1] | none => [])
      ++ (if x.2.cover.isSome then [.tileReconstruct x.1] else []) ++ [.launchComplete x.1])
    ++ (s.head.teams.flatMap fun t =>
      if t.2.groups.isEmpty then [Instr.teamRetire t.1]
      else if t.2.out.isSome then .teamPoolSave t.1 :: t.2.groups.map fun g => .groupSave t.2.core g.2
      else [])
    ++ if s.head.launches.isEmpty then [] else [.nodeDispatch]
/-- Events of package memory, and the Masthead's heartbeat (every 25 ms, log entry 20) and watchdog. -/
def State.memDue (s : State) : List Instr :=
  (s.mem.shoots.flatMap fun x =>
    if x.2.move.isSome then [Instr.migrationComplete x.1] else [.pinRevocation x.1, .shootdownComplete x.1])
    ++ (s.mem.msrs.map fun m => Instr.l2MissFill m.1)
    ++ (if s.dev.phase == .running && !s.dev.tripped && decide (25 * Config.msCycles ≤ s.now - s.dev.heartbeat) then
         [Instr.heartbeat, .watchdog] else [])
/-- Events of reservations and puts. -/
def State.putDue (s : State) : List Instr :=
  (s.fabric.puts.filterMap fun p => if p.2.outcome.isSome then some (Instr.rputOutcome p.1) else none)
    ++ (match s.fabric.reserve.requests with | q :: _ => [Instr.reservationGrant q s.dev.rank] | [] => [])
    ++ s.fabric.reserve.held.filterMap fun h =>
      if s.idleHeld h.1 then
        some (if h.1 < 2 ^ 20 then Instr.reservationIdleReturn s.dev.rank h.1 else .reservationIdleReturn h.1 s.dev.rank)
      else none
/-- Timers of the pod and the remote transport. -/
def State.fabricDue (s : State) : List Instr :=
  (s.fabric.heads.map fun q => Instr.packetAged (q.1 / 1024) (q.1 % 1024))
    ++ (s.fabric.paused.map fun x => if x.1 < 128 then Instr.turnroundPauseEnd x.1 else .spareRetrainingPauseEnd (x.1 - 128))
    ++ (s.fabric.peers.flatMap fun p =>
      (p.2.flight.filterMap fun x =>
        if x.2.sent + resendTimer x.2.tries ≤ s.now then some (Instr.retransmitTimeout p.1 (BitVec.ofNat 32 x.1)) else none)
        ++ p.2.retiring.filterMap fun x =>
          if x.2 + resendTimer 16 ≤ s.now then some (Instr.retransmitTimeout p.1 (BitVec.ofNat 32 x.1)) else none)
    ++ s.fabric.paths.flatMap fun x => x.2.zeroed.map fun z => Instr.pathWeightRestore x.1 z.1
/-- Timers of a team's collective and of the cells. -/
def State.collDue (s : State) : List Instr :=
  (s.head.teams.flatMap fun t => match t.2.colls with
    | [] => []
    | c :: _ =>
      (c.resend.map fun x => Instr.cellBusyResend t.1 x.1) ++ (if (s.lostSlices c).isEmpty then [] else [Instr.cellLostRerun t.1])
        ++ [Instr.collectiveTimeout t.1, .collectiveComplete t.1])
    ++ s.fabric.cells.map fun x => Instr.cellTimerExpiry (x.1 / 256) (x.1 % 256)
/-- The timers of ring heads whose sequence does not match (R318) and of queue heads that a write index has passed (R229). -/
def State.timeRings (s : State) : State :=
  let since := fun (on : Bool) (t : Option Nat) => if on then some (t.getD s.now) else none
  let s1 := s.modHead fun h =>
    { h with rings := amMap (fun _ (r : Ring) =>
      { r with headSince := since ((s.ringHead r).isSome && (s.ringEntry r).isNone) r.headSince }) h.rings }
  { s1 with queues := amMap (fun k (q : CopyQueue) =>
    { q with headSince := since (s.queueTop k).isSome q.headSince }) s1.queues }
/-- The images of saved groups follow what reaches them (R220), packets wait for pages, idle peers give way to waiting ones (R352). -/
def State.refresh (s : State) : State :=
  let saved := s.groups.filter fun g => g.2.ctl.save == .saved
  let s1 := saved.foldl (fun a g => a.writeSave g.1) s
  let s2 := if s1.fabric.held.isEmpty then s1 else s1.retryHeld
  let s3 := if s2.fabric.peers.length ≤ 1024 then s2
    else
      match leastBy (fun a b => decide (a.2.lastUse < b.2.lastUse)) (s2.fabric.peers.filter fun x =>
          !x.2.busy && stGet 0 s2.fabric.reserve.held x.1 = 0 && stGet 0 s2.fabric.reserve.granted x.1 = 0) with
      | some x => s2.modFab fun f => { f with peers := amDel f.peers x.1 }
      | none => s2
  s3.fabric.peers.foldl (fun a p => if p.2.queue.isEmpty then a else a.pump 64 p.1) s3
/-- Prefetched lines that their home slice has given up count as unused (R175). -/
def State.sweepFetched (s : State) : State :=
  { s with cores := amMap (fun k (c : Core) => c.unused (c.l1.fetched.filter fun l => s.wasted k l.1)) s.cores }
/-- The limiter measures every 10 µs (R343); what it finds is a free value (log entries 10 and 59). -/
def State.sampleDue (s : State) : State :=
  if decide (s.now - s.dev.sampled < 10 * Config.usCycles) then s
  else ((s.modDev fun d => { d with sampled := s.now }).wakeUp (.powerLimiterSample s.freeVal.toNat)).usedFree
/-- Everything looked at every 64 cycles. -/
def State.poll (s : State) : State :=
  if s.dev.phase != .running then s
  else
    let s1 := s.timeRings.refresh.sweepFetched.sampleDue
    (s1.coreDue ++ s1.copyDue ++ s1.ringDue ++ s1.launchDue ++ s1.memDue ++ s1.putDue ++ s1.fabricDue ++ s1.collDue).foldl
      (fun a i => a.wakeUp i) s1

/-! ### What is looked at after every step -/

/-- The pod router: phases, ageing of heads, and the heads that can leave. -/
def State.podStep (s : State) : State :=
  match s.dev.plan with
  | none => s
  | some p =>
    let s1 := if s.fabric.phase < s.phasesDue p && !s.dev.fabricQuiet then s.wakeUp .circuitPhaseStart else s
    let s2 := if s1.fabric.gap then s1 else
      match gapBegin p s1.fabric.phase with
      | some t => if t ≤ s1.podPs && s1.fabric.phase != 0 then s1.wakeUp .circuitGapStart else s1
      | none => s1
    let s3 := s2.timeHeads
    s3.fabric.sendq.foldl (fun a q => match q.2 with
      | x :: _ =>
        let goes := s3.unreachable p x.pkt || match s3.headPort p x.pkt with
          | some port => (s3.podWinner p port).any fun r => r.1.key == q.1
          | none => false
        if goes then a.wakeUp (.podPacketForward (q.1 / 1024) (q.1 % 1024)) else a
      | [] => a) s3
/-- Engines that go on by themselves: collectives, waits of other ranks, GUARD. -/
def State.engineStep (s : State) : State :=
  let s1 := s.head.teams.foldl (fun (a : State) t => if t.2.colls.isEmpty then a else a.collStep t.1) s
  let s2 := if s1.fabric.waits.isEmpty then s1 else s1.answerWaits
  s2.guardStep.podStep
/-- The misses of a turn are filled when it ends (R174, log entry 35). -/
def State.missesFilled (s : State) : State :=
  if s.cores.any fun c => !c.2.misses.isEmpty then { s with cores := amMap (fun _ (c : Core) => { c with misses := [] }) s.cores } else s
/-- What follows every step. -/
def State.settle (s0 : State) : State :=
  let s := s0.missesFilled
  let s1 : State := { s with groups := amMap (fun k g => (s.timed (k / 32) g).latched) s.groups }
  let s2 := (s1.dueEvents.foldl (fun a i => a.wakeUp i) s1).engineStep
  if s2.now % 64 = 0 then s2.poll else s2

end Sys2Proof.Machine
end

