-- ==== Sys2Proof/Machine/Step.lean ====
section
/-! DEFINITION. One step of the package: a cycle passes, the schedule names whose turn it is, and that agent acts. -/
namespace Sys2Proof.Machine

/-- Whether an instruction is an event or CSR step of the table, not one of the words of the two streams. -/
def isEvent (i : Instr) : Bool := (encode i).isNone

/-- A split's turn: fetch, interlocks, and the instruction or its trap. -/
def State.scalarTurn (s : State) (core slot split : Nat) : Out :=
  let s1 := s.setCur core slot split
  match s1.curGroup with
  | none => .next s
  | some g =>
    match g.split split with
    | none => .next s
    | some sp =>
      if s.issuing && g.splitMay split then
        match s1.fetch core sp with
        | .stall => .next s1.markIssue
        | .trap t => .next (s1.markIssue.trapScalar t)
        | .instr i =>
          if g.scalarReady split i && !(isScalarMem i && s1.rankHeld core slot split) then exec i s1.markIssue else .next s1.markIssue
      else .next s

/-- A lane queue's turn. -/
def State.laneTurn (s : State) (core slot : Nat) : Out :=
  let s1 := s.setCur core slot 0
  match s1.curGroup with
  | none => .next s
  | some g =>
    if s.issuing && s1.laneMay core slot g then
      match g.headInstr with
      | none => .next s
      | some (e, none) => .next (s1.trapLane e (Trap.of cIllegal))
      | some (_, some i) => exec i s1
    else .next s

/-- A turn. -/
def State.perform (s : State) : Turn → Out
  | .scalar core slot split => s.scalarTurn core slot split
  | .lane core slot => s.laneTurn core slot
  | .event i => if isEvent i then exec i s else .next s

/-- One step. -/
def step (s : State) : Host.Outcome State Fault Refusal :=
  let s0 : State := { s with now := s.now + 1 }
  let r := s0.nextTurn
  match r.2 with
  | none => .next r.1.settle
  | some t =>
    match r.1.perform t with
    | .next s2 => .next s2.settle
    | .fault e => .fault e
    | .refused e => .refused e

/-- The group that `withFetchWord` runs in, where there is none: 64 slots, one split at PC 0 (log entry 9). -/
def Group.probe : Group :=
  { launch := 0, node := 0, team := 0, index := 0, teamIndex := 0, size := 64, diverge := false, lanes := Lanes.fresh 0,
    trap := TrapCsrs.fresh 0, csrs := GroupCsrs.fresh 0 [], async := Async.fresh, ctl := Control.fresh,
    splits := [(0, Split.fresh 0 0 0)] }
/-- Store an instruction where the next step fetches it (log entry 9): a scalar word at the PC of core 0, group slot 0, split 0, whose
instruction-memory slot has landed; a lane instruction at the head of that group's lane queue. -/
def State.withFetchWord (s : State) (nbits w : Nat) : State :=
  let g := (s.group 0).getD Group.probe
  let sp := (g.split 0).getD (Split.fresh 0 0 0)
  if nbits ≤ 32 then
    let sp1 : Split := { sp with status := .ready, fell := false, pc := 0 }
    let c := s.core 0
    let im := (upFrom 0 4).foldl (fun m i => stSet 0 m i (BitVec.ofNat 8 (w % 2 ^ nbits / 256 ^ i))) c.imem
    let cs : CodeSlot := { CodeSlot.fresh with state := .landed }
    let s1 := (s.putGroup 0 (g.putSplit 0 sp1)).putCore 0 { c with imem := im, codeSlots := amSet c.codeSlots 0 cs }
    { s1 with sched := { s1.sched with agenda := [.scalar 0 0 0] } }
  else
    let tag : LaneTag := { split := 0, mask := sp.mask, wb := sp.wb, pc := sp.pc, lp := 0, regs := none }
    let e : LaneEntry := { bits := BitVec.ofNat 96 (w % 2 ^ nbits), tag := tag }
    let s1 := s.putGroup 0 ((g.putSplit 0 sp).modAsync fun a => { a with laneq := [e] })
    { s1 with sched := { s1.sched with agenda := [.lane 0 0] } }

end Sys2Proof.Machine
end

