-- ==== Sys2Proof/Laws/Encoding.lean ====
section
/-! SUPPORT. What each field of an encoded word reads as. -/
namespace Sys2Proof

theorem fld_ofNat (n k lo len : Nat) (h : n < 2 ^ k) :
    fld (BitVec.ofNat k n) lo len = BitVec.ofNat len (n / 2 ^ lo) := by
  simp [fld, Nat.mod_eq_of_lt h]

theorem ofNat_eq {n : Nat} (x : BitVec n) (m : Nat) (h : m % 2 ^ n = x.toNat) : BitVec.ofNat n m = x := by
  apply BitVec.eq_of_toNat_eq; simpa using h

/-! ### SR words -/

theorem encSR_lt (m : Nat) (d a b : SReg) (fn : Nat) (hm : m < 64) (hf : fn < 2048) : encSR m d a b fn < 2 ^ 32 := by
  have := d.isLt; have := a.isLt; have := b.isLt; simp only [encSR]; omega
theorem encSR_major (m : Nat) (d a b : SReg) (fn : Nat) (hm : m < 64) (hf : fn < 2048) :
    (fld (BitVec.ofNat 32 (encSR m d a b fn)) 26 6).toNat = m := by
  have := d.isLt; have := a.isLt; have := b.isLt
  rw [fld_ofNat _ _ _ _ (encSR_lt m d a b fn hm hf)]; simp only [encSR, BitVec.toNat_ofNat]; omega
theorem encSR_d (m : Nat) (d a b : SReg) (fn : Nat) (hm : m < 64) (hf : fn < 2048) :
    fld (BitVec.ofNat 32 (encSR m d a b fn)) 21 5 = d := by
  have := d.isLt; have := a.isLt; have := b.isLt
  rw [fld_ofNat _ _ _ _ (encSR_lt m d a b fn hm hf)]; apply ofNat_eq; simp only [encSR]; omega
theorem encSR_a (m : Nat) (d a b : SReg) (fn : Nat) (hm : m < 64) (hf : fn < 2048) :
    fld (BitVec.ofNat 32 (encSR m d a b fn)) 16 5 = a := by
  have := d.isLt; have := a.isLt; have := b.isLt
  rw [fld_ofNat _ _ _ _ (encSR_lt m d a b fn hm hf)]; apply ofNat_eq; simp only [encSR]; omega
theorem encSR_b (m : Nat) (d a b : SReg) (fn : Nat) (hm : m < 64) (hf : fn < 2048) :
    fld (BitVec.ofNat 32 (encSR m d a b fn)) 11 5 = b := by
  have := d.isLt; have := a.isLt; have := b.isLt
  rw [fld_ofNat _ _ _ _ (encSR_lt m d a b fn hm hf)]; apply ofNat_eq; simp only [encSR]; omega
/-- A field of fn. -/
theorem encSR_fn (m : Nat) (d a b : SReg) (fn lo len : Nat) (hm : m < 64) (hf : fn < 2048) (hl : lo + len ≤ 11) :
    fld (BitVec.ofNat 32 (encSR m d a b fn)) lo len = BitVec.ofNat len (fn / 2 ^ lo) := by
  rw [fld_ofNat _ _ _ _ (encSR_lt m d a b fn hm hf)]
  apply BitVec.eq_of_toNat_eq
  simp only [encSR, BitVec.toNat_ofNat]
  have e : m * 2 ^ 26 + d.toNat * 2 ^ 21 + a.toNat * 2 ^ 16 + b.toNat * 2 ^ 11 + fn
      = fn + 2 ^ lo * (2 ^ len * (2 ^ (11 - lo - len) * (m * 2 ^ 15 + d.toNat * 2 ^ 10 + a.toNat * 2 ^ 5 + b.toNat))) := by
    rw [← Nat.mul_assoc, ← Nat.mul_assoc, ← Nat.pow_add, ← Nat.pow_add, show lo + len + (11 - lo - len) = 11 by omega]
    omega
  rw [e, Nat.add_mul_div_left _ _ (Nat.two_pow_pos lo), Nat.add_mul_mod_self_left]

/-! ### SI words -/

theorem encSI_lt (m : Nat) (d a : SReg) (imm : Nat) (hm : m < 64) (hi : imm < 65536) : encSI m d a imm < 2 ^ 32 := by
  have := d.isLt; have := a.isLt; simp only [encSI]; omega
theorem encSI_major (m : Nat) (d a : SReg) (imm : Nat) (hm : m < 64) (hi : imm < 65536) :
    (fld (BitVec.ofNat 32 (encSI m d a imm)) 26 6).toNat = m := by
  have := d.isLt; have := a.isLt
  rw [fld_ofNat _ _ _ _ (encSI_lt m d a imm hm hi)]; simp only [encSI, BitVec.toNat_ofNat]; omega
theorem encSI_d (m : Nat) (d a : SReg) (imm : Nat) (hm : m < 64) (hi : imm < 65536) :
    fld (BitVec.ofNat 32 (encSI m d a imm)) 21 5 = d := by
  have := d.isLt; have := a.isLt
  rw [fld_ofNat _ _ _ _ (encSI_lt m d a imm hm hi)]; apply ofNat_eq; simp only [encSI]; omega
theorem encSI_a (m : Nat) (d a : SReg) (imm : Nat) (hm : m < 64) (hi : imm < 65536) :
    fld (BitVec.ofNat 32 (encSI m d a imm)) 16 5 = a := by
  have := d.isLt; have := a.isLt
  rw [fld_ofNat _ _ _ _ (encSI_lt m d a imm hm hi)]; apply ofNat_eq; simp only [encSI]; omega
/-- A field of imm16. -/
theorem encSI_imm (m : Nat) (d a : SReg) (imm lo len : Nat) (hm : m < 64) (hi : imm < 65536) (hl : lo + len ≤ 16) :
    fld (BitVec.ofNat 32 (encSI m d a imm)) lo len = BitVec.ofNat len (imm / 2 ^ lo) := by
  rw [fld_ofNat _ _ _ _ (encSI_lt m d a imm hm hi)]
  apply BitVec.eq_of_toNat_eq
  simp only [encSI, BitVec.toNat_ofNat]
  have e : m * 2 ^ 26 + d.toNat * 2 ^ 21 + a.toNat * 2 ^ 16 + imm
      = imm + 2 ^ lo * (2 ^ len * (2 ^ (16 - lo - len) * (m * 2 ^ 10 + d.toNat * 2 ^ 5 + a.toNat))) := by
    rw [← Nat.mul_assoc, ← Nat.mul_assoc, ← Nat.pow_add, ← Nat.pow_add, show lo + len + (16 - lo - len) = 16 by omega]
    omega
  rw [e, Nat.add_mul_div_left _ _ (Nat.two_pow_pos lo), Nat.add_mul_mod_self_left]

/-! ### Lane words -/

theorem laneNat_lt (op : Nat) (f : LaneF) (h : op < 1024) : laneNat op f < 2 ^ 96 := by
  have := f.vb.isLt; have := f.va.isLt; have := f.vd.isLt; have := f.fn.isLt; have := f.pl.isLt; have := f.rm.isLt
  have := f.ta.isLt; have := f.td.isLt; have := f.pn.isLt; have := f.pg.isLt; have := f.vc.isLt; have := f.w2.isLt
  simp only [laneNat]; omega
theorem laneNat_op (op : Nat) (f : LaneF) (h : op < 1024) : (fld (BitVec.ofNat 96 (laneNat op f)) 22 10).toNat = op := by
  rw [fld_ofNat _ _ _ _ (laneNat_lt op f h)]
  have := f.vb.isLt; have := f.va.isLt; have := f.vd.isLt
  simp only [laneNat, BitVec.toNat_ofNat]; omega
theorem laneNat_bit (op : Nat) (f : LaneF) (h : op < 1024) : fld (BitVec.ofNat 96 (laneNat op f)) 0 1 = 0 := by
  rw [fld_ofNat _ _ _ _ (laneNat_lt op f h)]; apply ofNat_eq; rw [show (0 : BitVec 1).toNat = 0 from rfl]; simp only [laneNat]; omega
theorem field_of (x y z lo len : Nat) (hx : x < 2 ^ lo) (hy : y < 2 ^ len) :
    (x + 2 ^ lo * (y + 2 ^ len * z)) / 2 ^ lo % 2 ^ len = y := by
  rw [Nat.add_mul_div_left _ _ (Nat.two_pow_pos lo), Nat.div_eq_of_lt hx, Nat.zero_add, Nat.add_mul_mod_self_left, Nat.mod_eq_of_lt hy]
theorem laneNat_vd (op : Nat) (f : LaneF) (h : op < 1024) : fld (BitVec.ofNat 96 (laneNat op f)) 15 7 = f.vd := by
  rw [fld_ofNat _ _ _ _ (laneNat_lt op f h)]; apply ofNat_eq
  have := f.vb.isLt
  have := f.va.isLt
  rw [show laneNat op f = (f.vb.toNat * 2 ^ 1 + f.va.toNat * 2 ^ 8) + 2 ^ 15 * (f.vd.toNat + 2 ^ 7 * (op * 2 ^ 0 + f.fn.toNat * 2 ^ 10 + f.pl.toNat * 2 ^ 17 + f.rm.toNat * 2 ^ 20 + f.ta.toNat * 2 ^ 23 + f.td.toNat * 2 ^ 27 + f.pn.toNat * 2 ^ 31 + f.pg.toNat * 2 ^ 32 + f.vc.toNat * 2 ^ 35 + f.w2.toNat * 2 ^ 42)) by simp only [laneNat]; omega]
  exact field_of _ _ _ _ _ (by omega) f.vd.isLt
theorem laneNat_va (op : Nat) (f : LaneF) (h : op < 1024) : fld (BitVec.ofNat 96 (laneNat op f)) 8 7 = f.va := by
  rw [fld_ofNat _ _ _ _ (laneNat_lt op f h)]; apply ofNat_eq
  have := f.vb.isLt
  rw [show laneNat op f = (f.vb.toNat * 2 ^ 1) + 2 ^ 8 * (f.va.toNat + 2 ^ 7 * (f.vd.toNat * 2 ^ 0 + op * 2 ^ 7 + f.fn.toNat * 2 ^ 17 + f.pl.toNat * 2 ^ 24 + f.rm.toNat * 2 ^ 27 + f.ta.toNat * 2 ^ 30 + f.td.toNat * 2 ^ 34 + f.pn.toNat * 2 ^ 38 + f.pg.toNat * 2 ^ 39 + f.vc.toNat * 2 ^ 42 + f.w2.toNat * 2 ^ 49)) by simp only [laneNat]; omega]
  exact field_of _ _ _ _ _ (by omega) f.va.isLt
theorem laneNat_vb (op : Nat) (f : LaneF) (h : op < 1024) : fld (BitVec.ofNat 96 (laneNat op f)) 1 7 = f.vb := by
  rw [fld_ofNat _ _ _ _ (laneNat_lt op f h)]; apply ofNat_eq
  rw [show laneNat op f = (0) + 2 ^ 1 * (f.vb.toNat + 2 ^ 7 * (f.va.toNat * 2 ^ 0 + f.vd.toNat * 2 ^ 7 + op * 2 ^ 14 + f.fn.toNat * 2 ^ 24 + f.pl.toNat * 2 ^ 31 + f.rm.toNat * 2 ^ 34 + f.ta.toNat * 2 ^ 37 + f.td.toNat * 2 ^ 41 + f.pn.toNat * 2 ^ 45 + f.pg.toNat * 2 ^ 46 + f.vc.toNat * 2 ^ 49 + f.w2.toNat * 2 ^ 56)) by simp only [laneNat]; omega]
  exact field_of _ _ _ _ _ (by omega) f.vb.isLt
theorem laneNat_vc (op : Nat) (f : LaneF) (h : op < 1024) : fld (BitVec.ofNat 96 (laneNat op f)) 57 7 = f.vc := by
  rw [fld_ofNat _ _ _ _ (laneNat_lt op f h)]; apply ofNat_eq
  have := f.vb.isLt
  have := f.va.isLt
  have := f.vd.isLt
  have := f.fn.isLt
  have := f.pl.isLt
  have := f.rm.isLt
  have := f.ta.isLt
  have := f.td.isLt
  have := f.pn.isLt
  have := f.pg.isLt
  rw [show laneNat op f = (f.vb.toNat * 2 ^ 1 + f.va.toNat * 2 ^ 8 + f.vd.toNat * 2 ^ 15 + op * 2 ^ 22 + f.fn.toNat * 2 ^ 32 + f.pl.toNat * 2 ^ 39 + f.rm.toNat * 2 ^ 42 + f.ta.toNat * 2 ^ 45 + f.td.toNat * 2 ^ 49 + f.pn.toNat * 2 ^ 53 + f.pg.toNat * 2 ^ 54) + 2 ^ 57 * (f.vc.toNat + 2 ^ 7 * (f.w2.toNat * 2 ^ 0)) by simp only [laneNat]; omega]
  exact field_of _ _ _ _ _ (by omega) f.vc.isLt
theorem laneNat_pg (op : Nat) (f : LaneF) (h : op < 1024) : fld (BitVec.ofNat 96 (laneNat op f)) 54 3 = f.pg := by
  rw [fld_ofNat _ _ _ _ (laneNat_lt op f h)]; apply ofNat_eq
  have := f.vb.isLt
  have := f.va.isLt
  have := f.vd.isLt
  have := f.fn.isLt
  have := f.pl.isLt
  have := f.rm.isLt
  have := f.ta.isLt
  have := f.td.isLt
  have := f.pn.isLt
  rw [show laneNat op f = (f.vb.toNat * 2 ^ 1 + f.va.toNat * 2 ^ 8 + f.vd.toNat * 2 ^ 15 + op * 2 ^ 22 + f.fn.toNat * 2 ^ 32 + f.pl.toNat * 2 ^ 39 + f.rm.toNat * 2 ^ 42 + f.ta.toNat * 2 ^ 45 + f.td.toNat * 2 ^ 49 + f.pn.toNat * 2 ^ 53) + 2 ^ 54 * (f.pg.toNat + 2 ^ 3 * (f.vc.toNat * 2 ^ 0 + f.w2.toNat * 2 ^ 7)) by simp only [laneNat]; omega]
  exact field_of _ _ _ _ _ (by omega) f.pg.isLt
theorem laneNat_pn (op : Nat) (f : LaneF) (h : op < 1024) : fld (BitVec.ofNat 96 (laneNat op f)) 53 1 = f.pn := by
  rw [fld_ofNat _ _ _ _ (laneNat_lt op f h)]; apply ofNat_eq
  have := f.vb.isLt
  have := f.va.isLt
  have := f.vd.isLt
  have := f.fn.isLt
  have := f.pl.isLt
  have := f.rm.isLt
  have := f.ta.isLt
  have := f.td.isLt
  rw [show laneNat op f = (f.vb.toNat * 2 ^ 1 + f.va.toNat * 2 ^ 8 + f.vd.toNat * 2 ^ 15 + op * 2 ^ 22 + f.fn.toNat * 2 ^ 32 + f.pl.toNat * 2 ^ 39 + f.rm.toNat * 2 ^ 42 + f.ta.toNat * 2 ^ 45 + f.td.toNat * 2 ^ 49) + 2 ^ 53 * (f.pn.toNat + 2 ^ 1 * (f.pg.toNat * 2 ^ 0 + f.vc.toNat * 2 ^ 3 + f.w2.toNat * 2 ^ 10)) by simp only [laneNat]; omega]
  exact field_of _ _ _ _ _ (by omega) f.pn.isLt
theorem laneNat_td (op : Nat) (f : LaneF) (h : op < 1024) : fld (BitVec.ofNat 96 (laneNat op f)) 49 4 = f.td := by
  rw [fld_ofNat _ _ _ _ (laneNat_lt op f h)]; apply ofNat_eq
  have := f.vb.isLt
  have := f.va.isLt
  have := f.vd.isLt
  have := f.fn.isLt
  have := f.pl.isLt
  have := f.rm.isLt
  have := f.ta.isLt
  rw [show laneNat op f = (f.vb.toNat * 2 ^ 1 + f.va.toNat * 2 ^ 8 + f.vd.toNat * 2 ^ 15 + op * 2 ^ 22 + f.fn.toNat * 2 ^ 32 + f.pl.toNat * 2 ^ 39 + f.rm.toNat * 2 ^ 42 + f.ta.toNat * 2 ^ 45) + 2 ^ 49 * (f.td.toNat + 2 ^ 4 * (f.pn.toNat * 2 ^ 0 + f.pg.toNat * 2 ^ 1 + f.vc.toNat * 2 ^ 4 + f.w2.toNat * 2 ^ 11)) by simp only [laneNat]; omega]
  exact field_of _ _ _ _ _ (by omega) f.td.isLt
theorem laneNat_ta (op : Nat) (f : LaneF) (h : op < 1024) : fld (BitVec.ofNat 96 (laneNat op f)) 45 4 = f.ta := by
  rw [fld_ofNat _ _ _ _ (laneNat_lt op f h)]; apply ofNat_eq
  have := f.vb.isLt
  have := f.va.isLt
  have := f.vd.isLt
  have := f.fn.isLt
  have := f.pl.isLt
  have := f.rm.isLt
  rw [show laneNat op f = (f.vb.toNat * 2 ^ 1 + f.va.toNat * 2 ^ 8 + f.vd.toNat * 2 ^ 15 + op * 2 ^ 22 + f.fn.toNat * 2 ^ 32 + f.pl.toNat * 2 ^ 39 + f.rm.toNat * 2 ^ 42) + 2 ^ 45 * (f.ta.toNat + 2 ^ 4 * (f.td.toNat * 2 ^ 0 + f.pn.toNat * 2 ^ 4 + f.pg.toNat * 2 ^ 5 + f.vc.toNat * 2 ^ 8 + f.w2.toNat * 2 ^ 15)) by simp only [laneNat]; omega]
  exact field_of _ _ _ _ _ (by omega) f.ta.isLt
theorem laneNat_rm (op : Nat) (f : LaneF) (h : op < 1024) : fld (BitVec.ofNat 96 (laneNat op f)) 42 3 = f.rm := by
  rw [fld_ofNat _ _ _ _ (laneNat_lt op f h)]; apply ofNat_eq
  have := f.vb.isLt
  have := f.va.isLt
  have := f.vd.isLt
  have := f.fn.isLt
  have := f.pl.isLt
  rw [show laneNat op f = (f.vb.toNat * 2 ^ 1 + f.va.toNat * 2 ^ 8 + f.vd.toNat * 2 ^ 15 + op * 2 ^ 22 + f.fn.toNat * 2 ^ 32 + f.pl.toNat * 2 ^ 39) + 2 ^ 42 * (f.rm.toNat + 2 ^ 3 * (f.ta.toNat * 2 ^ 0 + f.td.toNat * 2 ^ 4 + f.pn.toNat * 2 ^ 8 + f.pg.toNat * 2 ^ 9 + f.vc.toNat * 2 ^ 12 + f.w2.toNat * 2 ^ 19)) by simp only [laneNat]; omega]
  exact field_of _ _ _ _ _ (by omega) f.rm.isLt
theorem laneNat_pl (op : Nat) (f : LaneF) (h : op < 1024) : fld (BitVec.ofNat 96 (laneNat op f)) 39 3 = f.pl := by
  rw [fld_ofNat _ _ _ _ (laneNat_lt op f h)]; apply ofNat_eq
  have := f.vb.isLt
  have := f.va.isLt
  have := f.vd.isLt
  have := f.fn.isLt
  rw [show laneNat op f = (f.vb.toNat * 2 ^ 1 + f.va.toNat * 2 ^ 8 + f.vd.toNat * 2 ^ 15 + op * 2 ^ 22 + f.fn.toNat * 2 ^ 32) + 2 ^ 39 * (f.pl.toNat + 2 ^ 3 * (f.rm.toNat * 2 ^ 0 + f.ta.toNat * 2 ^ 3 + f.td.toNat * 2 ^ 7 + f.pn.toNat * 2 ^ 11 + f.pg.toNat * 2 ^ 12 + f.vc.toNat * 2 ^ 15 + f.w2.toNat * 2 ^ 22)) by simp only [laneNat]; omega]
  exact field_of _ _ _ _ _ (by omega) f.pl.isLt
theorem laneNat_fn (op : Nat) (f : LaneF) (h : op < 1024) : fld (BitVec.ofNat 96 (laneNat op f)) 32 7 = f.fn := by
  rw [fld_ofNat _ _ _ _ (laneNat_lt op f h)]; apply ofNat_eq
  have := f.vb.isLt
  have := f.va.isLt
  have := f.vd.isLt
  rw [show laneNat op f = (f.vb.toNat * 2 ^ 1 + f.va.toNat * 2 ^ 8 + f.vd.toNat * 2 ^ 15 + op * 2 ^ 22) + 2 ^ 32 * (f.fn.toNat + 2 ^ 7 * (f.pl.toNat * 2 ^ 0 + f.rm.toNat * 2 ^ 3 + f.ta.toNat * 2 ^ 6 + f.td.toNat * 2 ^ 10 + f.pn.toNat * 2 ^ 14 + f.pg.toNat * 2 ^ 15 + f.vc.toNat * 2 ^ 18 + f.w2.toNat * 2 ^ 25)) by simp only [laneNat]; omega]
  exact field_of _ _ _ _ _ (by omega) f.fn.isLt
theorem laneNat_w2 (op : Nat) (f : LaneF) (h : op < 1024) : fld (BitVec.ofNat 96 (laneNat op f)) 64 32 = f.w2 := by
  rw [fld_ofNat _ _ _ _ (laneNat_lt op f h)]; apply ofNat_eq
  have := f.vb.isLt
  have := f.va.isLt
  have := f.vd.isLt
  have := f.fn.isLt
  have := f.pl.isLt
  have := f.rm.isLt
  have := f.ta.isLt
  have := f.td.isLt
  have := f.pn.isLt
  have := f.pg.isLt
  have := f.vc.isLt
  rw [show laneNat op f = (f.vb.toNat * 2 ^ 1 + f.va.toNat * 2 ^ 8 + f.vd.toNat * 2 ^ 15 + op * 2 ^ 22 + f.fn.toNat * 2 ^ 32 + f.pl.toNat * 2 ^ 39 + f.rm.toNat * 2 ^ 42 + f.ta.toNat * 2 ^ 45 + f.td.toNat * 2 ^ 49 + f.pn.toNat * 2 ^ 53 + f.pg.toNat * 2 ^ 54 + f.vc.toNat * 2 ^ 57) + 2 ^ 64 * (f.w2.toNat + 2 ^ 32 * (0)) by simp only [laneNat]; omega]
  exact field_of _ _ _ _ _ (by omega) f.w2.isLt
theorem laneNat_fields (op : Nat) (f : LaneF) (h : op < 1024) : laneFields (BitVec.ofNat 96 (laneNat op f)) = f := by
  simp only [laneFields, laneNat_vd op f h, laneNat_va op f h, laneNat_vb op f h, laneNat_vc op f h, laneNat_pg op f h, laneNat_pn op f h, laneNat_td op f h, laneNat_ta op f h, laneNat_rm op f h, laneNat_pl op f h, laneNat_fn op f h, laneNat_w2 op f h]
theorem decodeLane_of (w : LWord) (op : Nat) (f : LaneF) (i : Instr) (hf : laneFields w = f) (ho : (fld w 22 10).toNat = op)
    (hb : fld w 0 1 = 0) (hi : laneOf f op = some i) : decodeLane w = .ok i := by
  unfold decodeLane
  rw [hf, ho, hb, hi]
  rfl
/-- A lane instruction's words decode to what its opcode and fields name. -/
theorem decodeLane_laneNat (op : Nat) (f : LaneF) (i : Instr) (h : op < 1024) (hi : laneOf f op = some i) :
    decodeLane (BitVec.ofNat 96 (laneNat op f)) = .ok i :=
  decodeLane_of _ op f i (laneNat_fields op f h) (laneNat_op op f h) (laneNat_bit op f h) hi

end Sys2Proof
end

