-- ==== Sys2Proof/Laws/PerInstr.lean ====
section
/-! SUPPORT. Facts made for every instruction, one lemma a constructor. -/
namespace Sys2Proof.Laws.Codes
open Sys2Proof

/-- Decoding the word of an instruction gives the instruction back, with every operand at every value (R9 to R19). -/
def Statement (i : Instr) : Prop := ∀ w, encode i = some w → decodeWord w = .ok i

/-- An event has no word. -/
theorem none_of {i : Instr} (h : encode i = none) : Statement i := fun _ e => by rw [h] at e; cases e
theorem scalar_of {i : Instr} {n : Nat} (h : scalarNat i = some n) (d : decodeScalar (BitVec.ofNat 32 n) = .ok i) : Statement i := by
  intro w e
  simp only [encode, h, Option.some.injEq] at e
  subst e
  exact d
theorem lane_of {i : Instr} {op : Nat} {f : LaneF} (hs : scalarNat i = none) (hp : laneParts i = some (op, f)) (h : op < 1024)
    (hi : laneOf f op = some i) : Statement i := by
  intro w e
  simp only [encode, hs, hp, Option.some.injEq] at e
  subst e
  exact decodeLane_laneNat op f i h hi


theorem trap (code : BitVec 7) : Statement (.trap code) := by
  have := code.isLt
  obtain ⟨word, hk⟩ : ∃ word, word = encSR 0 0 0 0 (code.toNat * 16 + 1) := ⟨_, rfl⟩
  refine scalar_of (n := word) (by rw [hk]; rfl) ?_
  simp only [encSR, show (0 : SReg).toNat = 0 from rfl] at hk
  have hn : word < 2 ^ 32 := by omega
  have h26_6 : fld (BitVec.ofNat 32 word) 26 6 = 0 := by
    rw [fld_ofNat _ _ _ _ hn]; apply ofNat_eq; rw [show (0 : BitVec 6).toNat = 0 from rfl]; omega
  have h21_5 : fld (BitVec.ofNat 32 word) 21 5 = 0 := by
    rw [fld_ofNat _ _ _ _ hn]; apply ofNat_eq; rw [show (0 : BitVec 5).toNat = 0 from rfl]; omega
  have h16_5 : fld (BitVec.ofNat 32 word) 16 5 = 0 := by
    rw [fld_ofNat _ _ _ _ hn]; apply ofNat_eq; rw [show (0 : BitVec 5).toNat = 0 from rfl]; omega
  have h11_5 : fld (BitVec.ofNat 32 word) 11 5 = 0 := by
    rw [fld_ofNat _ _ _ _ hn]; apply ofNat_eq; rw [show (0 : BitVec 5).toNat = 0 from rfl]; omega
  have h4_7 : fld (BitVec.ofNat 32 word) 4 7 = code := by
    rw [fld_ofNat _ _ _ _ hn]; apply ofNat_eq; omega
  have h0_4 : fld (BitVec.ofNat 32 word) 0 4 = 1 := by
    rw [fld_ofNat _ _ _ _ hn]; apply ofNat_eq; rw [show (1 : BitVec 4).toNat = 1 from rfl]; omega
  clear hk hn
  generalize BitVec.ofNat 32 word = w at *
  simp [decodeScalar, decodeSys, zeroed, h26_6, h21_5, h16_5, h11_5, h4_7, h0_4]
theorem brk (code : BitVec 7) : Statement (.brk code) := by
  have := code.isLt
  obtain ⟨word, hk⟩ : ∃ word, word = encSR 0 0 0 0 (code.toNat * 16 + 3) := ⟨_, rfl⟩
  refine scalar_of (n := word) (by rw [hk]; rfl) ?_
  simp only [encSR, show (0 : SReg).toNat = 0 from rfl] at hk
  have hn : word < 2 ^ 32 := by omega
  have h26_6 : fld (BitVec.ofNat 32 word) 26 6 = 0 := by
    rw [fld_ofNat _ _ _ _ hn]; apply ofNat_eq; rw [show (0 : BitVec 6).toNat = 0 from rfl]; omega
  have h21_5 : fld (BitVec.ofNat 32 word) 21 5 = 0 := by
    rw [fld_ofNat _ _ _ _ hn]; apply ofNat_eq; rw [show (0 : BitVec 5).toNat = 0 from rfl]; omega
  have h16_5 : fld (BitVec.ofNat 32 word) 16 5 = 0 := by
    rw [fld_ofNat _ _ _ _ hn]; apply ofNat_eq; rw [show (0 : BitVec 5).toNat = 0 from rfl]; omega
  have h11_5 : fld (BitVec.ofNat 32 word) 11 5 = 0 := by
    rw [fld_ofNat _ _ _ _ hn]; apply ofNat_eq; rw [show (0 : BitVec 5).toNat = 0 from rfl]; omega
  have h4_7 : fld (BitVec.ofNat 32 word) 4 7 = code := by
    rw [fld_ofNat _ _ _ _ hn]; apply ofNat_eq; omega
  have h0_4 : fld (BitVec.ofNat 32 word) 0 4 = 3 := by
    rw [fld_ofNat _ _ _ _ hn]; apply ofNat_eq; rw [show (3 : BitVec 4).toNat = 3 from rfl]; omega
  clear hk hn
  generalize BitVec.ofNat 32 word = w at *
  simp [decodeScalar, decodeSys, zeroed, h26_6, h21_5, h16_5, h11_5, h4_7, h0_4]
theorem sleep (a : SReg) : Statement (.sleep a) := by
  have := a.isLt
  obtain ⟨word, hk⟩ : ∃ word, word = encSR 0 0 a 0 4 := ⟨_, rfl⟩
  refine scalar_of (n := word) (by rw [hk]; rfl) ?_
  simp only [encSR, show (0 : SReg).toNat = 0 from rfl] at hk
  have hn : word < 2 ^ 32 := by omega
  have h26_6 : fld (BitVec.ofNat 32 word) 26 6 = 0 := by
    rw [fld_ofNat _ _ _ _ hn]; apply ofNat_eq; rw [show (0 : BitVec 6).toNat = 0 from rfl]; omega
  have h21_5 : fld (BitVec.ofNat 32 word) 21 5 = 0 := by
    rw [fld_ofNat _ _ _ _ hn]; apply ofNat_eq; rw [show (0 : BitVec 5).toNat = 0 from rfl]; omega
  have h16_5 : fld (BitVec.ofNat 32 word) 16 5 = a := by
    rw [fld_ofNat _ _ _ _ hn]; apply ofNat_eq; omega
  have h11_5 : fld (BitVec.ofNat 32 word) 11 5 = 0 := by
    rw [fld_ofNat _ _ _ _ hn]; apply ofNat_eq; rw [show (0 : BitVec 5).toNat = 0 from rfl]; omega
  have h4_7 : fld (BitVec.ofNat 32 word) 4 7 = 0 := by
    rw [fld_ofNat _ _ _ _ hn]; apply ofNat_eq; rw [show (0 : BitVec 7).toNat = 0 from rfl]; omega
  have h0_4 : fld (BitVec.ofNat 32 word) 0 4 = 4 := by
    rw [fld_ofNat _ _ _ _ hn]; apply ofNat_eq; rw [show (4 : BitVec 4).toNat = 4 from rfl]; omega
  clear hk hn
  generalize BitVec.ofNat 32 word = w at *
  simp [decodeScalar, decodeSys, zeroed, h26_6, h21_5, h16_5, h11_5, h4_7, h0_4]
theorem csrr (d : SReg) (csr : BitVec 7) : Statement (.csrr d csr) := by
  have := d.isLt
  have := csr.isLt
  obtain ⟨word, hk⟩ : ∃ word, word = encSR 0 d 0 0 (csr.toNat * 16 + 5) := ⟨_, rfl⟩
  refine scalar_of (n := word) (by rw [hk]; rfl) ?_
  simp only [encSR, show (0 : SReg).toNat = 0 from rfl] at hk
  have hn : word < 2 ^ 32 := by omega
  have h26_6 : fld (BitVec.ofNat 32 word) 26 6 = 0 := by
    rw [fld_ofNat _ _ _ _ hn]; apply ofNat_eq; rw [show (0 : BitVec 6).toNat = 0 from rfl]; omega
  have h21_5 : fld (BitVec.ofNat 32 word) 21 5 = d := by
    rw [fld_ofNat _ _ _ _ hn]; apply ofNat_eq; omega
  have h16_5 : fld (BitVec.ofNat 32 word) 16 5 = 0 := by
    rw [fld_ofNat _ _ _ _ hn]; apply ofNat_eq; rw [show (0 : BitVec 5).toNat = 0 from rfl]; omega
  have h11_5 : fld (BitVec.ofNat 32 word) 11 5 = 0 := by
    rw [fld_ofNat _ _ _ _ hn]; apply ofNat_eq; rw [show (0 : BitVec 5).toNat = 0 from rfl]; omega
  have h4_7 : fld (BitVec.ofNat 32 word) 4 7 = csr := by
    rw [fld_ofNat _ _ _ _ hn]; apply ofNat_eq; omega
  have h0_4 : fld (BitVec.ofNat 32 word) 0 4 = 5 := by
    rw [fld_ofNat _ _ _ _ hn]; apply ofNat_eq; rw [show (5 : BitVec 4).toNat = 5 from rfl]; omega
  clear hk hn
  generalize BitVec.ofNat 32 word = w at *
  simp [decodeScalar, decodeSys, zeroed, h26_6, h21_5, h16_5, h11_5, h4_7, h0_4]
theorem csrw (a : SReg) (csr : BitVec 7) : Statement (.csrw a csr) := by
  have := a.isLt
  have := csr.isLt
  obtain ⟨word, hk⟩ : ∃ word, word = encSR 0 0 a 0 (csr.toNat * 16 + 6) := ⟨_, rfl⟩
  refine scalar_of (n := word) (by rw [hk]; rfl) ?_
  simp only [encSR, show (0 : SReg).toNat = 0 from rfl] at hk
  have hn : word < 2 ^ 32 := by omega
  have h26_6 : fld (BitVec.ofNat 32 word) 26 6 = 0 := by
    rw [fld_ofNat _ _ _ _ hn]; apply ofNat_eq; rw [show (0 : BitVec 6).toNat = 0 from rfl]; omega
  have h21_5 : fld (BitVec.ofNat 32 word) 21 5 = 0 := by
    rw [fld_ofNat _ _ _ _ hn]; apply ofNat_eq; rw [show (0 : BitVec 5).toNat = 0 from rfl]; omega
  have h16_5 : fld (BitVec.ofNat 32 word) 16 5 = a := by
    rw [fld_ofNat _ _ _ _ hn]; apply ofNat_eq; omega
  have h11_5 : fld (BitVec.ofNat 32 word) 11 5 = 0 := by
    rw [fld_ofNat _ _ _ _ hn]; apply ofNat_eq; rw [show (0 : BitVec 5).toNat = 0 from rfl]; omega
  have h4_7 : fld (BitVec.ofNat 32 word) 4 7 = csr := by
    rw [fld_ofNat _ _ _ _ hn]; apply ofNat_eq; omega
  have h0_4 : fld (BitVec.ofNat 32 word) 0 4 = 6 := by
    rw [fld_ofNat _ _ _ _ hn]; apply ofNat_eq; rw [show (6 : BitVec 4).toNat = 6 from rfl]; omega
  clear hk hn
  generalize BitVec.ofNat 32 word = w at *
  simp [decodeScalar, decodeSys, zeroed, h26_6, h21_5, h16_5, h11_5, h4_7, h0_4]
theorem add (d : SReg) (a : SReg) (b : SReg) : Statement (.add d a b) := by
  have := d.isLt
  have := a.isLt
  have := b.isLt
  obtain ⟨word, hk⟩ : ∃ word, word = encSR 1 d a b 0 := ⟨_, rfl⟩
  refine scalar_of (n := word) (by rw [hk]; rfl) ?_
  simp only [encSR, show (0 : SReg).toNat = 0 from rfl] at hk
  have hn : word < 2 ^ 32 := by omega
  have h26_6 : fld (BitVec.ofNat 32 word) 26 6 = 1 := by
    rw [fld_ofNat _ _ _ _ hn]; apply ofNat_eq; rw [show (1 : BitVec 6).toNat = 1 from rfl]; omega
  have h21_5 : fld (BitVec.ofNat 32 word) 21 5 = d := by
    rw [fld_ofNat _ _ _ _ hn]; apply ofNat_eq; omega
  have h16_5 : fld (BitVec.ofNat 32 word) 16 5 = a := by
    rw [fld_ofNat _ _ _ _ hn]; apply ofNat_eq; omega
  have h11_5 : fld (BitVec.ofNat 32 word) 11 5 = b := by
    rw [fld_ofNat _ _ _ _ hn]; apply ofNat_eq; omega
  have h5_3 : fld (BitVec.ofNat 32 word) 5 3 = 0 := by
    rw [fld_ofNat _ _ _ _ hn]; apply ofNat_eq; rw [show (0 : BitVec 3).toNat = 0 from rfl]; omega
  have h8_3 : fld (BitVec.ofNat 32 word) 8 3 = 0 := by
    rw [fld_ofNat _ _ _ _ hn]; apply ofNat_eq; rw [show (0 : BitVec 3).toNat = 0 from rfl]; omega
  have h0_5 : fld (BitVec.ofNat 32 word) 0 5 = 0 := by
    rw [fld_ofNat _ _ _ _ hn]; apply ofNat_eq; rw [show (0 : BitVec 5).toNat = 0 from rfl]; omega
  clear hk hn
  generalize BitVec.ofNat 32 word = w at *
  simp [decodeScalar, decodeAlu, zeroed, h26_6, h21_5, h16_5, h11_5, h5_3, h8_3, h0_5]
theorem sub (d : SReg) (a : SReg) (b : SReg) : Statement (.sub d a b) := by
  have := d.isLt
  have := a.isLt
  have := b.isLt
  obtain ⟨word, hk⟩ : ∃ word, word = encSR 1 d a b 1 := ⟨_, rfl⟩
  refine scalar_of (n := word) (by rw [hk]; rfl) ?_
  simp only [encSR] at hk
  have hn : word < 2 ^ 32 := by omega
  have h26_6 : fld (BitVec.ofNat 32 word) 26 6 = 1 := by
    rw [fld_ofNat _ _ _ _ hn]; apply ofNat_eq; rw [show (1 : BitVec 6).toNat = 1 from rfl]; omega
  have h21_5 : fld (BitVec.ofNat 32 word) 21 5 = d := by
    rw [fld_ofNat _ _ _ _ hn]; apply ofNat_eq; omega
  have h16_5 : fld (BitVec.ofNat 32 word) 16 5 = a := by
    rw [fld_ofNat _ _ _ _ hn]; apply ofNat_eq; omega
  have h11_5 : fld (BitVec.ofNat 32 word) 11 5 = b := by
    rw [fld_ofNat _ _ _ _ hn]; apply ofNat_eq; omega
  have h5_3 : fld (BitVec.ofNat 32 word) 5 3 = 0 := by
    rw [fld_ofNat _ _ _ _ hn]; apply ofNat_eq; rw [show (0 : BitVec 3).toNat = 0 from rfl]; omega
  have h8_3 : fld (BitVec.ofNat 32 word) 8 3 = 0 := by
    rw [fld_ofNat _ _ _ _ hn]; apply ofNat_eq; rw [show (0 : BitVec 3).toNat = 0 from rfl]; omega
  have h0_5 : fld (BitVec.ofNat 32 word) 0 5 = 1 := by
    rw [fld_ofNat _ _ _ _ hn]; apply ofNat_eq; rw [show (1 : BitVec 5).toNat = 1 from rfl]; omega
  clear hk hn
  generalize BitVec.ofNat 32 word = w at *
  simp [decodeScalar, decodeAlu, zeroed, h26_6, h21_5, h16_5, h11_5, h5_3, h8_3, h0_5]
theorem mul (d : SReg) (a : SReg) (b : SReg) : Statement (.mul d a b) := by
  have := d.isLt
  have := a.isLt
  have := b.isLt
  obtain ⟨word, hk⟩ : ∃ word, word = encSR 1 d a b 2 := ⟨_, rfl⟩
  refine scalar_of (n := word) (by rw [hk]; rfl) ?_
  simp only [encSR] at hk
  have hn : word < 2 ^ 32 := by omega
  have h26_6 : fld (BitVec.ofNat 32 word) 26 6 = 1 := by
    rw [fld_ofNat _ _ _ _ hn]; apply ofNat_eq; rw [show (1 : BitVec 6).toNat = 1 from rfl]; omega
  have h21_5 : fld (BitVec.ofNat 32 word) 21 5 = d := by
    rw [fld_ofNat _ _ _ _ hn]; apply ofNat_eq; omega
  have h16_5 : fld (BitVec.ofNat 32 word) 16 5 = a := by
    rw [fld_ofNat _ _ _ _ hn]; apply ofNat_eq; omega
  have h11_5 : fld (BitVec.ofNat 32 word) 11 5 = b := by
    rw [fld_ofNat _ _ _ _ hn]; apply ofNat_eq; omega
  have h5_3 : fld (BitVec.ofNat 32 word) 5 3 = 0 := by
    rw [fld_ofNat _ _ _ _ hn]; apply ofNat_eq; rw [show (0 : BitVec 3).toNat = 0 from rfl]; omega
  have h8_3 : fld (BitVec.ofNat 32 word) 8 3 = 0 := by
    rw [fld_ofNat _ _ _ _ hn]; apply ofNat_eq; rw [show (0 : BitVec 3).toNat = 0 from rfl]; omega
  have h0_5 : fld (BitVec.ofNat 32 word) 0 5 = 2 := by
    rw [fld_ofNat _ _ _ _ hn]; apply ofNat_eq; rw [show (2 : BitVec 5).toNat = 2 from rfl]; omega
  clear hk hn
  generalize BitVec.ofNat 32 word = w at *
  simp [decodeScalar, decodeAlu, zeroed, h26_6, h21_5, h16_5, h11_5, h5_3, h8_3, h0_5]
theorem mulh (d : SReg) (a : SReg) (b : SReg) : Statement (.mulh d a b) := by
  have := d.isLt
  have := a.isLt
  have := b.isLt
  obtain ⟨word, hk⟩ : ∃ word, word = encSR 1 d a b 3 := ⟨_, rfl⟩
  refine scalar_of (n := word) (by rw [hk]; rfl) ?_
  simp only [encSR] at hk
  have hn : word < 2 ^ 32 := by omega
  have h26_6 : fld (BitVec.ofNat 32 word) 26 6 = 1 := by
    rw [fld_ofNat _ _ _ _ hn]; apply ofNat_eq; rw [show (1 : BitVec 6).toNat = 1 from rfl]; omega
  have h21_5 : fld (BitVec.ofNat 32 word) 21 5 = d := by
    rw [fld_ofNat _ _ _ _ hn]; apply ofNat_eq; omega
  have h16_5 : fld (BitVec.ofNat 32 word) 16 5 = a := by
    rw [fld_ofNat _ _ _ _ hn]; apply ofNat_eq; omega
  have h11_5 : fld (BitVec.ofNat 32 word) 11 5 = b := by
    rw [fld_ofNat _ _ _ _ hn]; apply ofNat_eq; omega
  have h5_3 : fld (BitVec.ofNat 32 word) 5 3 = 0 := by
    rw [fld_ofNat _ _ _ _ hn]; apply ofNat_eq; rw [show (0 : BitVec 3).toNat = 0 from rfl]; omega
  have h8_3 : fld (BitVec.ofNat 32 word) 8 3 = 0 := by
    rw [fld_ofNat _ _ _ _ hn]; apply ofNat_eq; rw [show (0 : BitVec 3).toNat = 0 from rfl]; omega
  have h0_5 : fld (BitVec.ofNat 32 word) 0 5 = 3 := by
    rw [fld_ofNat _ _ _ _ hn]; apply ofNat_eq; rw [show (3 : BitVec 5).toNat = 3 from rfl]; omega
  clear hk hn
  generalize BitVec.ofNat 32 word = w at *
  simp [decodeScalar, decodeAlu, zeroed, h26_6, h21_5, h16_5, h11_5, h5_3, h8_3, h0_5]
theorem mulhn (d : SReg) (a : SReg) (b : SReg) : Statement (.mulhn d a b) := by
  have := d.isLt
  have := a.isLt
  have := b.isLt
  obtain ⟨word, hk⟩ : ∃ word, word = encSR 1 d a b 4 := ⟨_, rfl⟩
  refine scalar_of (n := word) (by rw [hk]; rfl) ?_
  simp only [encSR] at hk
  have hn : word < 2 ^ 32 := by omega
  have h26_6 : fld (BitVec.ofNat 32 word) 26 6 = 1 := by
    rw [fld_ofNat _ _ _ _ hn]; apply ofNat_eq; rw [show (1 : BitVec 6).toNat = 1 from rfl]; omega
  have h21_5 : fld (BitVec.ofNat 32 word) 21 5 = d := by
    rw [fld_ofNat _ _ _ _ hn]; apply ofNat_eq; omega
  have h16_5 : fld (BitVec.ofNat 32 word) 16 5 = a := by
    rw [fld_ofNat _ _ _ _ hn]; apply ofNat_eq; omega
  have h11_5 : fld (BitVec.ofNat 32 word) 11 5 = b := by
    rw [fld_ofNat _ _ _ _ hn]; apply ofNat_eq; omega
  have h5_3 : fld (BitVec.ofNat 32 word) 5 3 = 0 := by
    rw [fld_ofNat _ _ _ _ hn]; apply ofNat_eq; rw [show (0 : BitVec 3).toNat = 0 from rfl]; omega
  have h8_3 : fld (BitVec.ofNat 32 word) 8 3 = 0 := by
    rw [fld_ofNat _ _ _ _ hn]; apply ofNat_eq; rw [show (0 : BitVec 3).toNat = 0 from rfl]; omega
  have h0_5 : fld (BitVec.ofNat 32 word) 0 5 = 4 := by
    rw [fld_ofNat _ _ _ _ hn]; apply ofNat_eq; rw [show (4 : BitVec 5).toNat = 4 from rfl]; omega
  clear hk hn
  generalize BitVec.ofNat 32 word = w at *
  simp [decodeScalar, decodeAlu, zeroed, h26_6, h21_5, h16_5, h11_5, h5_3, h8_3, h0_5]
theorem div (d : SReg) (a : SReg) (b : SReg) : Statement (.div d a b) := by
  have := d.isLt
  have := a.isLt
  have := b.isLt
  obtain ⟨word, hk⟩ : ∃ word, word = encSR 1 d a b 5 := ⟨_, rfl⟩
  refine scalar_of (n := word) (by rw [hk]; rfl) ?_
  simp only [encSR] at hk
  have hn : word < 2 ^ 32 := by omega
  have h26_6 : fld (BitVec.ofNat 32 word) 26 6 = 1 := by
    rw [fld_ofNat _ _ _ _ hn]; apply ofNat_eq; rw [show (1 : BitVec 6).toNat = 1 from rfl]; omega
  have h21_5 : fld (BitVec.ofNat 32 word) 21 5 = d := by
    rw [fld_ofNat _ _ _ _ hn]; apply ofNat_eq; omega
  have h16_5 : fld (BitVec.ofNat 32 word) 16 5 = a := by
    rw [fld_ofNat _ _ _ _ hn]; apply ofNat_eq; omega
  have h11_5 : fld (BitVec.ofNat 32 word) 11 5 = b := by
    rw [fld_ofNat _ _ _ _ hn]; apply ofNat_eq; omega
  have h5_3 : fld (BitVec.ofNat 32 word) 5 3 = 0 := by
    rw [fld_ofNat _ _ _ _ hn]; apply ofNat_eq; rw [show (0 : BitVec 3).toNat = 0 from rfl]; omega
  have h8_3 : fld (BitVec.ofNat 32 word) 8 3 = 0 := by
    rw [fld_ofNat _ _ _ _ hn]; apply ofNat_eq; rw [show (0 : BitVec 3).toNat = 0 from rfl]; omega
  have h0_5 : fld (BitVec.ofNat 32 word) 0 5 = 5 := by
    rw [fld_ofNat _ _ _ _ hn]; apply ofNat_eq; rw [show (5 : BitVec 5).toNat = 5 from rfl]; omega
  clear hk hn
  generalize BitVec.ofNat 32 word = w at *
  simp [decodeScalar, decodeAlu, zeroed, h26_6, h21_5, h16_5, h11_5, h5_3, h8_3, h0_5]
theorem divn (d : SReg) (a : SReg) (b : SReg) : Statement (.divn d a b) := by
  have := d.isLt
  have := a.isLt
  have := b.isLt
  obtain ⟨word, hk⟩ : ∃ word, word = encSR 1 d a b 6 := ⟨_, rfl⟩
  refine scalar_of (n := word) (by rw [hk]; rfl) ?_
  simp only [encSR] at hk
  have hn : word < 2 ^ 32 := by omega
  have h26_6 : fld (BitVec.ofNat 32 word) 26 6 = 1 := by
    rw [fld_ofNat _ _ _ _ hn]; apply ofNat_eq; rw [show (1 : BitVec 6).toNat = 1 from rfl]; omega
  have h21_5 : fld (BitVec.ofNat 32 word) 21 5 = d := by
    rw [fld_ofNat _ _ _ _ hn]; apply ofNat_eq; omega
  have h16_5 : fld (BitVec.ofNat 32 word) 16 5 = a := by
    rw [fld_ofNat _ _ _ _ hn]; apply ofNat_eq; omega
  have h11_5 : fld (BitVec.ofNat 32 word) 11 5 = b := by
    rw [fld_ofNat _ _ _ _ hn]; apply ofNat_eq; omega
  have h5_3 : fld (BitVec.ofNat 32 word) 5 3 = 0 := by
    rw [fld_ofNat _ _ _ _ hn]; apply ofNat_eq; rw [show (0 : BitVec 3).toNat = 0 from rfl]; omega
  have h8_3 : fld (BitVec.ofNat 32 word) 8 3 = 0 := by
    rw [fld_ofNat _ _ _ _ hn]; apply ofNat_eq; rw [show (0 : BitVec 3).toNat = 0 from rfl]; omega
  have h0_5 : fld (BitVec.ofNat 32 word) 0 5 = 6 := by
    rw [fld_ofNat _ _ _ _ hn]; apply ofNat_eq; rw [show (6 : BitVec 5).toNat = 6 from rfl]; omega
  clear hk hn
  generalize BitVec.ofNat 32 word = w at *
  simp [decodeScalar, decodeAlu, zeroed, h26_6, h21_5, h16_5, h11_5, h5_3, h8_3, h0_5]
theorem rem (d : SReg) (a : SReg) (b : SReg) : Statement (.rem d a b) := by
  have := d.isLt
  have := a.isLt
  have := b.isLt
  obtain ⟨word, hk⟩ : ∃ word, word = encSR 1 d a b 7 := ⟨_, rfl⟩
  refine scalar_of (n := word) (by rw [hk]; rfl) ?_
  simp only [encSR] at hk
  have hn : word < 2 ^ 32 := by omega
  have h26_6 : fld (BitVec.ofNat 32 word) 26 6 = 1 := by
    rw [fld_ofNat _ _ _ _ hn]; apply ofNat_eq; rw [show (1 : BitVec 6).toNat = 1 from rfl]; omega
  have h21_5 : fld (BitVec.ofNat 32 word) 21 5 = d := by
    rw [fld_ofNat _ _ _ _ hn]; apply ofNat_eq; omega
  have h16_5 : fld (BitVec.ofNat 32 word) 16 5 = a := by
    rw [fld_ofNat _ _ _ _ hn]; apply ofNat_eq; omega
  have h11_5 : fld (BitVec.ofNat 32 word) 11 5 = b := by
    rw [fld_ofNat _ _ _ _ hn]; apply ofNat_eq; omega
  have h5_3 : fld (BitVec.ofNat 32 word) 5 3 = 0 := by
    rw [fld_ofNat _ _ _ _ hn]; apply ofNat_eq; rw [show (0 : BitVec 3).toNat = 0 from rfl]; omega
  have h8_3 : fld (BitVec.ofNat 32 word) 8 3 = 0 := by
    rw [fld_ofNat _ _ _ _ hn]; apply ofNat_eq; rw [show (0 : BitVec 3).toNat = 0 from rfl]; omega
  have h0_5 : fld (BitVec.ofNat 32 word) 0 5 = 7 := by
    rw [fld_ofNat _ _ _ _ hn]; apply ofNat_eq; rw [show (7 : BitVec 5).toNat = 7 from rfl]; omega
  clear hk hn
  generalize BitVec.ofNat 32 word = w at *
  simp [decodeScalar, decodeAlu, zeroed, h26_6, h21_5, h16_5, h11_5, h5_3, h8_3, h0_5]
theorem remn (d : SReg) (a : SReg) (b : SReg) : Statement (.remn d a b) := by
  have := d.isLt
  have := a.isLt
  have := b.isLt
  obtain ⟨word, hk⟩ : ∃ word, word = encSR 1 d a b 8 := ⟨_, rfl⟩
  refine scalar_of (n := word) (by rw [hk]; rfl) ?_
  simp only [encSR] at hk
  have hn : word < 2 ^ 32 := by omega
  have h26_6 : fld (BitVec.ofNat 32 word) 26 6 = 1 := by
    rw [fld_ofNat _ _ _ _ hn]; apply ofNat_eq; rw [show (1 : BitVec 6).toNat = 1 from rfl]; omega
  have h21_5 : fld (BitVec.ofNat 32 word) 21 5 = d := by
    rw [fld_ofNat _ _ _ _ hn]; apply ofNat_eq; omega
  have h16_5 : fld (BitVec.ofNat 32 word) 16 5 = a := by
    rw [fld_ofNat _ _ _ _ hn]; apply ofNat_eq; omega
  have h11_5 : fld (BitVec.ofNat 32 word) 11 5 = b := by
    rw [fld_ofNat _ _ _ _ hn]; apply ofNat_eq; omega
  have h5_3 : fld (BitVec.ofNat 32 word) 5 3 = 0 := by
    rw [fld_ofNat _ _ _ _ hn]; apply ofNat_eq; rw [show (0 : BitVec 3).toNat = 0 from rfl]; omega
  have h8_3 : fld (BitVec.ofNat 32 word) 8 3 = 0 := by
    rw [fld_ofNat _ _ _ _ hn]; apply ofNat_eq; rw [show (0 : BitVec 3).toNat = 0 from rfl]; omega
  have h0_5 : fld (BitVec.ofNat 32 word) 0 5 = 8 := by
    rw [fld_ofNat _ _ _ _ hn]; apply ofNat_eq; rw [show (8 : BitVec 5).toNat = 8 from rfl]; omega
  clear hk hn
  generalize BitVec.ofNat 32 word = w at *
  simp [decodeScalar, decodeAlu, zeroed, h26_6, h21_5, h16_5, h11_5, h5_3, h8_3, h0_5]
theorem and (d : SReg) (a : SReg) (b : SReg) : Statement (.and d a b) := by
  have := d.isLt
  have := a.isLt
  have := b.isLt
  obtain ⟨word, hk⟩ : ∃ word, word = encSR 1 d a b 9 := ⟨_, rfl⟩
  refine scalar_of (n := word) (by rw [hk]; rfl) ?_
  simp only [encSR] at hk
  have hn : word < 2 ^ 32 := by omega
  have h26_6 : fld (BitVec.ofNat 32 word) 26 6 = 1 := by
    rw [fld_ofNat _ _ _ _ hn]; apply ofNat_eq; rw [show (1 : BitVec 6).toNat = 1 from rfl]; omega
  have h21_5 : fld (BitVec.ofNat 32 word) 21 5 = d := by
    rw [fld_ofNat _ _ _ _ hn]; apply ofNat_eq; omega
  have h16_5 : fld (BitVec.ofNat 32 word) 16 5 = a := by
    rw [fld_ofNat _ _ _ _ hn]; apply ofNat_eq; omega
  have h11_5 : fld (BitVec.ofNat 32 word) 11 5 = b := by
    rw [fld_ofNat _ _ _ _ hn]; apply ofNat_eq; omega
  have h5_3 : fld (BitVec.ofNat 32 word) 5 3 = 0 := by
    rw [fld_ofNat _ _ _ _ hn]; apply ofNat_eq; rw [show (0 : BitVec 3).toNat = 0 from rfl]; omega
  have h8_3 : fld (BitVec.ofNat 32 word) 8 3 = 0 := by
    rw [fld_ofNat _ _ _ _ hn]; apply ofNat_eq; rw [show (0 : BitVec 3).toNat = 0 from rfl]; omega
  have h0_5 : fld (BitVec.ofNat 32 word) 0 5 = 9 := by
    rw [fld_ofNat _ _ _ _ hn]; apply ofNat_eq; rw [show (9 : BitVec 5).toNat = 9 from rfl]; omega
  clear hk hn
  generalize BitVec.ofNat 32 word = w at *
  simp [decodeScalar, decodeAlu, zeroed, h26_6, h21_5, h16_5, h11_5, h5_3, h8_3, h0_5]
theorem or (d : SReg) (a : SReg) (b : SReg) : Statement (.or d a b) := by
  have := d.isLt
  have := a.isLt
  have := b.isLt
  obtain ⟨word, hk⟩ : ∃ word, word = encSR 1 d a b 10 := ⟨_, rfl⟩
  refine scalar_of (n := word) (by rw [hk]; rfl) ?_
  simp only [encSR] at hk
  have hn : word < 2 ^ 32 := by omega
  have h26_6 : fld (BitVec.ofNat 32 word) 26 6 = 1 := by
    rw [fld_ofNat _ _ _ _ hn]; apply ofNat_eq; rw [show (1 : BitVec 6).toNat = 1 from rfl]; omega
  have h21_5 : fld (BitVec.ofNat 32 word) 21 5 = d := by
    rw [fld_ofNat _ _ _ _ hn]; apply ofNat_eq; omega
  have h16_5 : fld (BitVec.ofNat 32 word) 16 5 = a := by
    rw [fld_ofNat _ _ _ _ hn]; apply ofNat_eq; omega
  have h11_5 : fld (BitVec.ofNat 32 word) 11 5 = b := by
    rw [fld_ofNat _ _ _ _ hn]; apply ofNat_eq; omega
  have h5_3 : fld (BitVec.ofNat 32 word) 5 3 = 0 := by
    rw [fld_ofNat _ _ _ _ hn]; apply ofNat_eq; rw [show (0 : BitVec 3).toNat = 0 from rfl]; omega
  have h8_3 : fld (BitVec.ofNat 32 word) 8 3 = 0 := by
    rw [fld_ofNat _ _ _ _ hn]; apply ofNat_eq; rw [show (0 : BitVec 3).toNat = 0 from rfl]; omega
  have h0_5 : fld (BitVec.ofNat 32 word) 0 5 = 10 := by
    rw [fld_ofNat _ _ _ _ hn]; apply ofNat_eq; rw [show (10 : BitVec 5).toNat = 10 from rfl]; omega
  clear hk hn
  generalize BitVec.ofNat 32 word = w at *
  simp [decodeScalar, decodeAlu, zeroed, h26_6, h21_5, h16_5, h11_5, h5_3, h8_3, h0_5]
theorem xor (d : SReg) (a : SReg) (b : SReg) : Statement (.xor d a b) := by
  have := d.isLt
  have := a.isLt
  have := b.isLt
  obtain ⟨word, hk⟩ : ∃ word, word = encSR 1 d a b 11 := ⟨_, rfl⟩
  refine scalar_of (n := word) (by rw [hk]; rfl) ?_
  simp only [encSR] at hk
  have hn : word < 2 ^ 32 := by omega
  have h26_6 : fld (BitVec.ofNat 32 word) 26 6 = 1 := by
    rw [fld_ofNat _ _ _ _ hn]; apply ofNat_eq; rw [show (1 : BitVec 6).toNat = 1 from rfl]; omega
  have h21_5 : fld (BitVec.ofNat 32 word) 21 5 = d := by
    rw [fld_ofNat _ _ _ _ hn]; apply ofNat_eq; omega
  have h16_5 : fld (BitVec.ofNat 32 word) 16 5 = a := by
    rw [fld_ofNat _ _ _ _ hn]; apply ofNat_eq; omega
  have h11_5 : fld (BitVec.ofNat 32 word) 11 5 = b := by
    rw [fld_ofNat _ _ _ _ hn]; apply ofNat_eq; omega
  have h5_3 : fld (BitVec.ofNat 32 word) 5 3 = 0 := by
    rw [fld_ofNat _ _ _ _ hn]; apply ofNat_eq; rw [show (0 : BitVec 3).toNat = 0 from rfl]; omega
  have h8_3 : fld (BitVec.ofNat 32 word) 8 3 = 0 := by
    rw [fld_ofNat _ _ _ _ hn]; apply ofNat_eq; rw [show (0 : BitVec 3).toNat = 0 from rfl]; omega
  have h0_5 : fld (BitVec.ofNat 32 word) 0 5 = 11 := by
    rw [fld_ofNat _ _ _ _ hn]; apply ofNat_eq; rw [show (11 : BitVec 5).toNat = 11 from rfl]; omega
  clear hk hn
  generalize BitVec.ofNat 32 word = w at *
  simp [decodeScalar, decodeAlu, zeroed, h26_6, h21_5, h16_5, h11_5, h5_3, h8_3, h0_5]
theorem shl (d : SReg) (a : SReg) (b : SReg) : Statement (.shl d a b) := by
  have := d.isLt
  have := a.isLt
  have := b.isLt
  obtain ⟨word, hk⟩ : ∃ word, word = encSR 1 d a b 12 := ⟨_, rfl⟩
  refine scalar_of (n := word) (by rw [hk]; rfl) ?_
  simp only [encSR] at hk
  have hn : word < 2 ^ 32 := by omega
  have h26_6 : fld (BitVec.ofNat 32 word) 26 6 = 1 := by
    rw [fld_ofNat _ _ _ _ hn]; apply ofNat_eq; rw [show (1 : BitVec 6).toNat = 1 from rfl]; omega
  have h21_5 : fld (BitVec.ofNat 32 word) 21 5 = d := by
    rw [fld_ofNat _ _ _ _ hn]; apply ofNat_eq; omega
  have h16_5 : fld (BitVec.ofNat 32 word) 16 5 = a := by
    rw [fld_ofNat _ _ _ _ hn]; apply ofNat_eq; omega
  have h11_5 : fld (BitVec.ofNat 32 word) 11 5 = b := by
    rw [fld_ofNat _ _ _ _ hn]; apply ofNat_eq; omega
  have h5_3 : fld (BitVec.ofNat 32 word) 5 3 = 0 := by
    rw [fld_ofNat _ _ _ _ hn]; apply ofNat_eq; rw [show (0 : BitVec 3).toNat = 0 from rfl]; omega
  have h8_3 : fld (BitVec.ofNat 32 word) 8 3 = 0 := by
    rw [fld_ofNat _ _ _ _ hn]; apply ofNat_eq; rw [show (0 : BitVec 3).toNat = 0 from rfl]; omega
  have h0_5 : fld (BitVec.ofNat 32 word) 0 5 = 12 := by
    rw [fld_ofNat _ _ _ _ hn]; apply ofNat_eq; rw [show (12 : BitVec 5).toNat = 12 from rfl]; omega
  clear hk hn
  generalize BitVec.ofNat 32 word = w at *
  simp [decodeScalar, decodeAlu, zeroed, h26_6, h21_5, h16_5, h11_5, h5_3, h8_3, h0_5]
theorem shr (d : SReg) (a : SReg) (b : SReg) : Statement (.shr d a b) := by
  have := d.isLt
  have := a.isLt
  have := b.isLt
  obtain ⟨word, hk⟩ : ∃ word, word = encSR 1 d a b 13 := ⟨_, rfl⟩
  refine scalar_of (n := word) (by rw [hk]; rfl) ?_
  simp only [encSR] at hk
  have hn : word < 2 ^ 32 := by omega
  have h26_6 : fld (BitVec.ofNat 32 word) 26 6 = 1 := by
    rw [fld_ofNat _ _ _ _ hn]; apply ofNat_eq; rw [show (1 : BitVec 6).toNat = 1 from rfl]; omega
  have h21_5 : fld (BitVec.ofNat 32 word) 21 5 = d := by
    rw [fld_ofNat _ _ _ _ hn]; apply ofNat_eq; omega
  have h16_5 : fld (BitVec.ofNat 32 word) 16 5 = a := by
    rw [fld_ofNat _ _ _ _ hn]; apply ofNat_eq; omega
  have h11_5 : fld (BitVec.ofNat 32 word) 11 5 = b := by
    rw [fld_ofNat _ _ _ _ hn]; apply ofNat_eq; omega
  have h5_3 : fld (BitVec.ofNat 32 word) 5 3 = 0 := by
    rw [fld_ofNat _ _ _ _ hn]; apply ofNat_eq; rw [show (0 : BitVec 3).toNat = 0 from rfl]; omega
  have h8_3 : fld (BitVec.ofNat 32 word) 8 3 = 0 := by
    rw [fld_ofNat _ _ _ _ hn]; apply ofNat_eq; rw [show (0 : BitVec 3).toNat = 0 from rfl]; omega
  have h0_5 : fld (BitVec.ofNat 32 word) 0 5 = 13 := by
    rw [fld_ofNat _ _ _ _ hn]; apply ofNat_eq; rw [show (13 : BitVec 5).toNat = 13 from rfl]; omega
  clear hk hn
  generalize BitVec.ofNat 32 word = w at *
  simp [decodeScalar, decodeAlu, zeroed, h26_6, h21_5, h16_5, h11_5, h5_3, h8_3, h0_5]
theorem sar (d : SReg) (a : SReg) (b : SReg) : Statement (.sar d a b) := by
  have := d.isLt
  have := a.isLt
  have := b.isLt
  obtain ⟨word, hk⟩ : ∃ word, word = encSR 1 d a b 14 := ⟨_, rfl⟩
  refine scalar_of (n := word) (by rw [hk]; rfl) ?_
  simp only [encSR] at hk
  have hn : word < 2 ^ 32 := by omega
  have h26_6 : fld (BitVec.ofNat 32 word) 26 6 = 1 := by
    rw [fld_ofNat _ _ _ _ hn]; apply ofNat_eq; rw [show (1 : BitVec 6).toNat = 1 from rfl]; omega
  have h21_5 : fld (BitVec.ofNat 32 word) 21 5 = d := by
    rw [fld_ofNat _ _ _ _ hn]; apply ofNat_eq; omega
  have h16_5 : fld (BitVec.ofNat 32 word) 16 5 = a := by
    rw [fld_ofNat _ _ _ _ hn]; apply ofNat_eq; omega
  have h11_5 : fld (BitVec.ofNat 32 word) 11 5 = b := by
    rw [fld_ofNat _ _ _ _ hn]; apply ofNat_eq; omega
  have h5_3 : fld (BitVec.ofNat 32 word) 5 3 = 0 := by
    rw [fld_ofNat _ _ _ _ hn]; apply ofNat_eq; rw [show (0 : BitVec 3).toNat = 0 from rfl]; omega
  have h8_3 : fld (BitVec.ofNat 32 word) 8 3 = 0 := by
    rw [fld_ofNat _ _ _ _ hn]; apply ofNat_eq; rw [show (0 : BitVec 3).toNat = 0 from rfl]; omega
  have h0_5 : fld (BitVec.ofNat 32 word) 0 5 = 14 := by
    rw [fld_ofNat _ _ _ _ hn]; apply ofNat_eq; rw [show (14 : BitVec 5).toNat = 14 from rfl]; omega
  clear hk hn
  generalize BitVec.ofNat 32 word = w at *
  simp [decodeScalar, decodeAlu, zeroed, h26_6, h21_5, h16_5, h11_5, h5_3, h8_3, h0_5]
theorem slt (d : SReg) (a : SReg) (b : SReg) : Statement (.slt d a b) := by
  have := d.isLt
  have := a.isLt
  have := b.isLt
  obtain ⟨word, hk⟩ : ∃ word, word = encSR 1 d a b 15 := ⟨_, rfl⟩
  refine scalar_of (n := word) (by rw [hk]; rfl) ?_
  simp only [encSR] at hk
  have hn : word < 2 ^ 32 := by omega
  have h26_6 : fld (BitVec.ofNat 32 word) 26 6 = 1 := by
    rw [fld_ofNat _ _ _ _ hn]; apply ofNat_eq; rw [show (1 : BitVec 6).toNat = 1 from rfl]; omega
  have h21_5 : fld (BitVec.ofNat 32 word) 21 5 = d := by
    rw [fld_ofNat _ _ _ _ hn]; apply ofNat_eq; omega
  have h16_5 : fld (BitVec.ofNat 32 word) 16 5 = a := by
    rw [fld_ofNat _ _ _ _ hn]; apply ofNat_eq; omega
  have h11_5 : fld (BitVec.ofNat 32 word) 11 5 = b := by
    rw [fld_ofNat _ _ _ _ hn]; apply ofNat_eq; omega
  have h5_3 : fld (BitVec.ofNat 32 word) 5 3 = 0 := by
    rw [fld_ofNat _ _ _ _ hn]; apply ofNat_eq; rw [show (0 : BitVec 3).toNat = 0 from rfl]; omega
  have h8_3 : fld (BitVec.ofNat 32 word) 8 3 = 0 := by
    rw [fld_ofNat _ _ _ _ hn]; apply ofNat_eq; rw [show (0 : BitVec 3).toNat = 0 from rfl]; omega
  have h0_5 : fld (BitVec.ofNat 32 word) 0 5 = 15 := by
    rw [fld_ofNat _ _ _ _ hn]; apply ofNat_eq; rw [show (15 : BitVec 5).toNat = 15 from rfl]; omega
  clear hk hn
  generalize BitVec.ofNat 32 word = w at *
  simp [decodeScalar, decodeAlu, zeroed, h26_6, h21_5, h16_5, h11_5, h5_3, h8_3, h0_5]
theorem sltn (d : SReg) (a : SReg) (b : SReg) : Statement (.sltn d a b) := by
  have := d.isLt
  have := a.isLt
  have := b.isLt
  obtain ⟨word, hk⟩ : ∃ word, word = encSR 1 d a b 16 := ⟨_, rfl⟩
  refine scalar_of (n := word) (by rw [hk]; rfl) ?_
  simp only [encSR] at hk
  have hn : word < 2 ^ 32 := by omega
  have h26_6 : fld (BitVec.ofNat 32 word) 26 6 = 1 := by
    rw [fld_ofNat _ _ _ _ hn]; apply ofNat_eq; rw [show (1 : BitVec 6).toNat = 1 from rfl]; omega
  have h21_5 : fld (BitVec.ofNat 32 word) 21 5 = d := by
    rw [fld_ofNat _ _ _ _ hn]; apply ofNat_eq; omega
  have h16_5 : fld (BitVec.ofNat 32 word) 16 5 = a := by
    rw [fld_ofNat _ _ _ _ hn]; apply ofNat_eq; omega
  have h11_5 : fld (BitVec.ofNat 32 word) 11 5 = b := by
    rw [fld_ofNat _ _ _ _ hn]; apply ofNat_eq; omega
  have h5_3 : fld (BitVec.ofNat 32 word) 5 3 = 0 := by
    rw [fld_ofNat _ _ _ _ hn]; apply ofNat_eq; rw [show (0 : BitVec 3).toNat = 0 from rfl]; omega
  have h8_3 : fld (BitVec.ofNat 32 word) 8 3 = 0 := by
    rw [fld_ofNat _ _ _ _ hn]; apply ofNat_eq; rw [show (0 : BitVec 3).toNat = 0 from rfl]; omega
  have h0_5 : fld (BitVec.ofNat 32 word) 0 5 = 16 := by
    rw [fld_ofNat _ _ _ _ hn]; apply ofNat_eq; rw [show (16 : BitVec 5).toNat = 16 from rfl]; omega
  clear hk hn
  generalize BitVec.ofNat 32 word = w at *
  simp [decodeScalar, decodeAlu, zeroed, h26_6, h21_5, h16_5, h11_5, h5_3, h8_3, h0_5]
theorem seq (d : SReg) (a : SReg) (b : SReg) : Statement (.seq d a b) := by
  have := d.isLt
  have := a.isLt
  have := b.isLt
  obtain ⟨word, hk⟩ : ∃ word, word = encSR 1 d a b 17 := ⟨_, rfl⟩
  refine scalar_of (n := word) (by rw [hk]; rfl) ?_
  simp only [encSR] at hk
  have hn : word < 2 ^ 32 := by omega
  have h26_6 : fld (BitVec.ofNat 32 word) 26 6 = 1 := by
    rw [fld_ofNat _ _ _ _ hn]; apply ofNat_eq; rw [show (1 : BitVec 6).toNat = 1 from rfl]; omega
  have h21_5 : fld (BitVec.ofNat 32 word) 21 5 = d := by
    rw [fld_ofNat _ _ _ _ hn]; apply ofNat_eq; omega
  have h16_5 : fld (BitVec.ofNat 32 word) 16 5 = a := by
    rw [fld_ofNat _ _ _ _ hn]; apply ofNat_eq; omega
  have h11_5 : fld (BitVec.ofNat 32 word) 11 5 = b := by
    rw [fld_ofNat _ _ _ _ hn]; apply ofNat_eq; omega
  have h5_3 : fld (BitVec.ofNat 32 word) 5 3 = 0 := by
    rw [fld_ofNat _ _ _ _ hn]; apply ofNat_eq; rw [show (0 : BitVec 3).toNat = 0 from rfl]; omega
  have h8_3 : fld (BitVec.ofNat 32 word) 8 3 = 0 := by
    rw [fld_ofNat _ _ _ _ hn]; apply ofNat_eq; rw [show (0 : BitVec 3).toNat = 0 from rfl]; omega
  have h0_5 : fld (BitVec.ofNat 32 word) 0 5 = 17 := by
    rw [fld_ofNat _ _ _ _ hn]; apply ofNat_eq; rw [show (17 : BitVec 5).toNat = 17 from rfl]; omega
  clear hk hn
  generalize BitVec.ofNat 32 word = w at *
  simp [decodeScalar, decodeAlu, zeroed, h26_6, h21_5, h16_5, h11_5, h5_3, h8_3, h0_5]
theorem min (d : SReg) (a : SReg) (b : SReg) : Statement (.min d a b) := by
  have := d.isLt
  have := a.isLt
  have := b.isLt
  obtain ⟨word, hk⟩ : ∃ word, word = encSR 1 d a b 18 := ⟨_, rfl⟩
  refine scalar_of (n := word) (by rw [hk]; rfl) ?_
  simp only [encSR] at hk
  have hn : word < 2 ^ 32 := by omega
  have h26_6 : fld (BitVec.ofNat 32 word) 26 6 = 1 := by
    rw [fld_ofNat _ _ _ _ hn]; apply ofNat_eq; rw [show (1 : BitVec 6).toNat = 1 from rfl]; omega
  have h21_5 : fld (BitVec.ofNat 32 word) 21 5 = d := by
    rw [fld_ofNat _ _ _ _ hn]; apply ofNat_eq; omega
  have h16_5 : fld (BitVec.ofNat 32 word) 16 5 = a := by
    rw [fld_ofNat _ _ _ _ hn]; apply ofNat_eq; omega
  have h11_5 : fld (BitVec.ofNat 32 word) 11 5 = b := by
    rw [fld_ofNat _ _ _ _ hn]; apply ofNat_eq; omega
  have h5_3 : fld (BitVec.ofNat 32 word) 5 3 = 0 := by
    rw [fld_ofNat _ _ _ _ hn]; apply ofNat_eq; rw [show (0 : BitVec 3).toNat = 0 from rfl]; omega
  have h8_3 : fld (BitVec.ofNat 32 word) 8 3 = 0 := by
    rw [fld_ofNat _ _ _ _ hn]; apply ofNat_eq; rw [show (0 : BitVec 3).toNat = 0 from rfl]; omega
  have h0_5 : fld (BitVec.ofNat 32 word) 0 5 = 18 := by
    rw [fld_ofNat _ _ _ _ hn]; apply ofNat_eq; rw [show (18 : BitVec 5).toNat = 18 from rfl]; omega
  clear hk hn
  generalize BitVec.ofNat 32 word = w at *
  simp [decodeScalar, decodeAlu, zeroed, h26_6, h21_5, h16_5, h11_5, h5_3, h8_3, h0_5]
theorem max (d : SReg) (a : SReg) (b : SReg) : Statement (.max d a b) := by
  have := d.isLt
  have := a.isLt
  have := b.isLt
  obtain ⟨word, hk⟩ : ∃ word, word = encSR 1 d a b 19 := ⟨_, rfl⟩
  refine scalar_of (n := word) (by rw [hk]; rfl) ?_
  simp only [encSR] at hk
  have hn : word < 2 ^ 32 := by omega
  have h26_6 : fld (BitVec.ofNat 32 word) 26 6 = 1 := by
    rw [fld_ofNat _ _ _ _ hn]; apply ofNat_eq; rw [show (1 : BitVec 6).toNat = 1 from rfl]; omega
  have h21_5 : fld (BitVec.ofNat 32 word) 21 5 = d := by
    rw [fld_ofNat _ _ _ _ hn]; apply ofNat_eq; omega
  have h16_5 : fld (BitVec.ofNat 32 word) 16 5 = a := by
    rw [fld_ofNat _ _ _ _ hn]; apply ofNat_eq; omega
  have h11_5 : fld (BitVec.ofNat 32 word) 11 5 = b := by
    rw [fld_ofNat _ _ _ _ hn]; apply ofNat_eq; omega
  have h5_3 : fld (BitVec.ofNat 32 word) 5 3 = 0 := by
    rw [fld_ofNat _ _ _ _ hn]; apply ofNat_eq; rw [show (0 : BitVec 3).toNat = 0 from rfl]; omega
  have h8_3 : fld (BitVec.ofNat 32 word) 8 3 = 0 := by
    rw [fld_ofNat _ _ _ _ hn]; apply ofNat_eq; rw [show (0 : BitVec 3).toNat = 0 from rfl]; omega
  have h0_5 : fld (BitVec.ofNat 32 word) 0 5 = 19 := by
    rw [fld_ofNat _ _ _ _ hn]; apply ofNat_eq; rw [show (19 : BitVec 5).toNat = 19 from rfl]; omega
  clear hk hn
  generalize BitVec.ofNat 32 word = w at *
  simp [decodeScalar, decodeAlu, zeroed, h26_6, h21_5, h16_5, h11_5, h5_3, h8_3, h0_5]
theorem minn (d : SReg) (a : SReg) (b : SReg) : Statement (.minn d a b) := by
  have := d.isLt
  have := a.isLt
  have := b.isLt
  obtain ⟨word, hk⟩ : ∃ word, word = encSR 1 d a b 20 := ⟨_, rfl⟩
  refine scalar_of (n := word) (by rw [hk]; rfl) ?_
  simp only [encSR] at hk
  have hn : word < 2 ^ 32 := by omega
  have h26_6 : fld (BitVec.ofNat 32 word) 26 6 = 1 := by
    rw [fld_ofNat _ _ _ _ hn]; apply ofNat_eq; rw [show (1 : BitVec 6).toNat = 1 from rfl]; omega
  have h21_5 : fld (BitVec.ofNat 32 word) 21 5 = d := by
    rw [fld_ofNat _ _ _ _ hn]; apply ofNat_eq; omega
  have h16_5 : fld (BitVec.ofNat 32 word) 16 5 = a := by
    rw [fld_ofNat _ _ _ _ hn]; apply ofNat_eq; omega
  have h11_5 : fld (BitVec.ofNat 32 word) 11 5 = b := by
    rw [fld_ofNat _ _ _ _ hn]; apply ofNat_eq; omega
  have h5_3 : fld (BitVec.ofNat 32 word) 5 3 = 0 := by
    rw [fld_ofNat _ _ _ _ hn]; apply ofNat_eq; rw [show (0 : BitVec 3).toNat = 0 from rfl]; omega
  have h8_3 : fld (BitVec.ofNat 32 word) 8 3 = 0 := by
    rw [fld_ofNat _ _ _ _ hn]; apply ofNat_eq; rw [show (0 : BitVec 3).toNat = 0 from rfl]; omega
  have h0_5 : fld (BitVec.ofNat 32 word) 0 5 = 20 := by
    rw [fld_ofNat _ _ _ _ hn]; apply ofNat_eq; rw [show (20 : BitVec 5).toNat = 20 from rfl]; omega
  clear hk hn
  generalize BitVec.ofNat 32 word = w at *
  simp [decodeScalar, decodeAlu, zeroed, h26_6, h21_5, h16_5, h11_5, h5_3, h8_3, h0_5]
theorem maxn (d : SReg) (a : SReg) (b : SReg) : Statement (.maxn d a b) := by
  have := d.isLt
  have := a.isLt
  have := b.isLt
  obtain ⟨word, hk⟩ : ∃ word, word = encSR 1 d a b 21 := ⟨_, rfl⟩
  refine scalar_of (n := word) (by rw [hk]; rfl) ?_
  simp only [encSR] at hk
  have hn : word < 2 ^ 32 := by omega
  have h26_6 : fld (BitVec.ofNat 32 word) 26 6 = 1 := by
    rw [fld_ofNat _ _ _ _ hn]; apply ofNat_eq; rw [show (1 : BitVec 6).toNat = 1 from rfl]; omega
  have h21_5 : fld (BitVec.ofNat 32 word) 21 5 = d := by
    rw [fld_ofNat _ _ _ _ hn]; apply ofNat_eq; omega
  have h16_5 : fld (BitVec.ofNat 32 word) 16 5 = a := by
    rw [fld_ofNat _ _ _ _ hn]; apply ofNat_eq; omega
  have h11_5 : fld (BitVec.ofNat 32 word) 11 5 = b := by
    rw [fld_ofNat _ _ _ _ hn]; apply ofNat_eq; omega
  have h5_3 : fld (BitVec.ofNat 32 word) 5 3 = 0 := by
    rw [fld_ofNat _ _ _ _ hn]; apply ofNat_eq; rw [show (0 : BitVec 3).toNat = 0 from rfl]; omega
  have h8_3 : fld (BitVec.ofNat 32 word) 8 3 = 0 := by
    rw [fld_ofNat _ _ _ _ hn]; apply ofNat_eq; rw [show (0 : BitVec 3).toNat = 0 from rfl]; omega
  have h0_5 : fld (BitVec.ofNat 32 word) 0 5 = 21 := by
    rw [fld_ofNat _ _ _ _ hn]; apply ofNat_eq; rw [show (21 : BitVec 5).toNat = 21 from rfl]; omega
  clear hk hn
  generalize BitVec.ofNat 32 word = w at *
  simp [decodeScalar, decodeAlu, zeroed, h26_6, h21_5, h16_5, h11_5, h5_3, h8_3, h0_5]
theorem sel (d : SReg) (a : SReg) (b : SReg) (c : BitVec 3) : Statement (.sel d a b c) := by
  have := d.isLt
  have := a.isLt
  have := b.isLt
  have := c.isLt
  obtain ⟨word, hk⟩ : ∃ word, word = encSR 1 d a b (c.toNat * 32 + 22) := ⟨_, rfl⟩
  refine scalar_of (n := word) (by rw [hk]; rfl) ?_
  simp only [encSR] at hk
  have hn : word < 2 ^ 32 := by omega
  have h26_6 : fld (BitVec.ofNat 32 word) 26 6 = 1 := by
    rw [fld_ofNat _ _ _ _ hn]; apply ofNat_eq; rw [show (1 : BitVec 6).toNat = 1 from rfl]; omega
  have h21_5 : fld (BitVec.ofNat 32 word) 21 5 = d := by
    rw [fld_ofNat _ _ _ _ hn]; apply ofNat_eq; omega
  have h16_5 : fld (BitVec.ofNat 32 word) 16 5 = a := by
    rw [fld_ofNat _ _ _ _ hn]; apply ofNat_eq; omega
  have h11_5 : fld (BitVec.ofNat 32 word) 11 5 = b := by
    rw [fld_ofNat _ _ _ _ hn]; apply ofNat_eq; omega
  have h5_3 : fld (BitVec.ofNat 32 word) 5 3 = c := by
    rw [fld_ofNat _ _ _ _ hn]; apply ofNat_eq; omega
  have h8_3 : fld (BitVec.ofNat 32 word) 8 3 = 0 := by
    rw [fld_ofNat _ _ _ _ hn]; apply ofNat_eq; rw [show (0 : BitVec 3).toNat = 0 from rfl]; omega
  have h0_5 : fld (BitVec.ofNat 32 word) 0 5 = 22 := by
    rw [fld_ofNat _ _ _ _ hn]; apply ofNat_eq; rw [show (22 : BitVec 5).toNat = 22 from rfl]; omega
  clear hk hn
  generalize BitVec.ofNat 32 word = w at *
  simp [decodeScalar, decodeAlu, zeroed, h26_6, h21_5, h16_5, h11_5, h5_3, h8_3, h0_5]
theorem addi (d : SReg) (a : SReg) (imm : BitVec 16) : Statement (.addi d a imm) := by
  have := d.isLt
  have := a.isLt
  have := imm.isLt
  obtain ⟨word, hk⟩ : ∃ word, word = encSI 2 d a imm.toNat := ⟨_, rfl⟩
  refine scalar_of (n := word) (by rw [hk]; rfl) ?_
  simp only [encSI] at hk
  have hn : word < 2 ^ 32 := by omega
  have h26_6 : fld (BitVec.ofNat 32 word) 26 6 = 2 := by
    rw [fld_ofNat _ _ _ _ hn]; apply ofNat_eq; rw [show (2 : BitVec 6).toNat = 2 from rfl]; omega
  have h21_5 : fld (BitVec.ofNat 32 word) 21 5 = d := by
    rw [fld_ofNat _ _ _ _ hn]; apply ofNat_eq; omega
  have h16_5 : fld (BitVec.ofNat 32 word) 16 5 = a := by
    rw [fld_ofNat _ _ _ _ hn]; apply ofNat_eq; omega
  have h0_16 : fld (BitVec.ofNat 32 word) 0 16 = imm := by
    rw [fld_ofNat _ _ _ _ hn]; apply ofNat_eq; omega
  clear hk hn
  generalize BitVec.ofNat 32 word = w at *
  simp [decodeScalar, zeroed, h26_6, h21_5, h16_5, h0_16]
theorem andi (d : SReg) (a : SReg) (imm : BitVec 16) : Statement (.andi d a imm) := by
  have := d.isLt
  have := a.isLt
  have := imm.isLt
  obtain ⟨word, hk⟩ : ∃ word, word = encSI 3 d a imm.toNat := ⟨_, rfl⟩
  refine scalar_of (n := word) (by rw [hk]; rfl) ?_
  simp only [encSI] at hk
  have hn : word < 2 ^ 32 := by omega
  have h26_6 : fld (BitVec.ofNat 32 word) 26 6 = 3 := by
    rw [fld_ofNat _ _ _ _ hn]; apply ofNat_eq; rw [show (3 : BitVec 6).toNat = 3 from rfl]; omega
  have h21_5 : fld (BitVec.ofNat 32 word) 21 5 = d := by
    rw [fld_ofNat _ _ _ _ hn]; apply ofNat_eq; omega
  have h16_5 : fld (BitVec.ofNat 32 word) 16 5 = a := by
    rw [fld_ofNat _ _ _ _ hn]; apply ofNat_eq; omega
  have h0_16 : fld (BitVec.ofNat 32 word) 0 16 = imm := by
    rw [fld_ofNat _ _ _ _ hn]; apply ofNat_eq; omega
  clear hk hn
  generalize BitVec.ofNat 32 word = w at *
  simp [decodeScalar, zeroed, h26_6, h21_5, h16_5, h0_16]
theorem ori (d : SReg) (a : SReg) (imm : BitVec 16) : Statement (.ori d a imm) := by
  have := d.isLt
  have := a.isLt
  have := imm.isLt
  obtain ⟨word, hk⟩ : ∃ word, word = encSI 4 d a imm.toNat := ⟨_, rfl⟩
  refine scalar_of (n := word) (by rw [hk]; rfl) ?_
  simp only [encSI] at hk
  have hn : word < 2 ^ 32 := by omega
  have h26_6 : fld (BitVec.ofNat 32 word) 26 6 = 4 := by
    rw [fld_ofNat _ _ _ _ hn]; apply ofNat_eq; rw [show (4 : BitVec 6).toNat = 4 from rfl]; omega
  have h21_5 : fld (BitVec.ofNat 32 word) 21 5 = d := by
    rw [fld_ofNat _ _ _ _ hn]; apply ofNat_eq; omega
  have h16_5 : fld (BitVec.ofNat 32 word) 16 5 = a := by
    rw [fld_ofNat _ _ _ _ hn]; apply ofNat_eq; omega
  have h0_16 : fld (BitVec.ofNat 32 word) 0 16 = imm := by
    rw [fld_ofNat _ _ _ _ hn]; apply ofNat_eq; omega
  clear hk hn
  generalize BitVec.ofNat 32 word = w at *
  simp [decodeScalar, zeroed, h26_6, h21_5, h16_5, h0_16]
theorem xori (d : SReg) (a : SReg) (imm : BitVec 16) : Statement (.xori d a imm) := by
  have := d.isLt
  have := a.isLt
  have := imm.isLt
  obtain ⟨word, hk⟩ : ∃ word, word = encSI 5 d a imm.toNat := ⟨_, rfl⟩
  refine scalar_of (n := word) (by rw [hk]; rfl) ?_
  simp only [encSI] at hk
  have hn : word < 2 ^ 32 := by omega
  have h26_6 : fld (BitVec.ofNat 32 word) 26 6 = 5 := by
    rw [fld_ofNat _ _ _ _ hn]; apply ofNat_eq; rw [show (5 : BitVec 6).toNat = 5 from rfl]; omega
  have h21_5 : fld (BitVec.ofNat 32 word) 21 5 = d := by
    rw [fld_ofNat _ _ _ _ hn]; apply ofNat_eq; omega
  have h16_5 : fld (BitVec.ofNat 32 word) 16 5 = a := by
    rw [fld_ofNat _ _ _ _ hn]; apply ofNat_eq; omega
  have h0_16 : fld (BitVec.ofNat 32 word) 0 16 = imm := by
    rw [fld_ofNat _ _ _ _ hn]; apply ofNat_eq; omega
  clear hk hn
  generalize BitVec.ofNat 32 word = w at *
  simp [decodeScalar, zeroed, h26_6, h21_5, h16_5, h0_16]
theorem shli (d : SReg) (a : SReg) (n : BitVec 6) : Statement (.shli d a n) := by
  have := d.isLt
  have := a.isLt
  have := n.isLt
  obtain ⟨word, hk⟩ : ∃ word, word = encSI 6 d a n.toNat := ⟨_, rfl⟩
  refine scalar_of (n := word) (by rw [hk]; rfl) ?_
  simp only [encSI] at hk
  have hn : word < 2 ^ 32 := by omega
  have h26_6 : fld (BitVec.ofNat 32 word) 26 6 = 6 := by
    rw [fld_ofNat _ _ _ _ hn]; apply ofNat_eq; rw [show (6 : BitVec 6).toNat = 6 from rfl]; omega
  have h21_5 : fld (BitVec.ofNat 32 word) 21 5 = d := by
    rw [fld_ofNat _ _ _ _ hn]; apply ofNat_eq; omega
  have h16_5 : fld (BitVec.ofNat 32 word) 16 5 = a := by
    rw [fld_ofNat _ _ _ _ hn]; apply ofNat_eq; omega
  have h11_5 : fld (BitVec.ofNat 32 word) 11 5 = 0 := by
    rw [fld_ofNat _ _ _ _ hn]; apply ofNat_eq; rw [show (0 : BitVec 5).toNat = 0 from rfl]; omega
  have h6_10 : fld (BitVec.ofNat 32 word) 6 10 = 0 := by
    rw [fld_ofNat _ _ _ _ hn]; apply ofNat_eq; rw [show (0 : BitVec 10).toNat = 0 from rfl]; omega
  have h0_6 : fld (BitVec.ofNat 32 word) 0 6 = n := by
    rw [fld_ofNat _ _ _ _ hn]; apply ofNat_eq; omega
  clear hk hn
  generalize BitVec.ofNat 32 word = w at *
  simp [decodeScalar, zeroed, h26_6, h21_5, h16_5, h11_5, h6_10, h0_6]
theorem shri (d : SReg) (a : SReg) (n : BitVec 6) : Statement (.shri d a n) := by
  have := d.isLt
  have := a.isLt
  have := n.isLt
  obtain ⟨word, hk⟩ : ∃ word, word = encSI 7 d a n.toNat := ⟨_, rfl⟩
  refine scalar_of (n := word) (by rw [hk]; rfl) ?_
  simp only [encSI] at hk
  have hn : word < 2 ^ 32 := by omega
  have h26_6 : fld (BitVec.ofNat 32 word) 26 6 = 7 := by
    rw [fld_ofNat _ _ _ _ hn]; apply ofNat_eq; rw [show (7 : BitVec 6).toNat = 7 from rfl]; omega
  have h21_5 : fld (BitVec.ofNat 32 word) 21 5 = d := by
    rw [fld_ofNat _ _ _ _ hn]; apply ofNat_eq; omega
  have h16_5 : fld (BitVec.ofNat 32 word) 16 5 = a := by
    rw [fld_ofNat _ _ _ _ hn]; apply ofNat_eq; omega
  have h11_5 : fld (BitVec.ofNat 32 word) 11 5 = 0 := by
    rw [fld_ofNat _ _ _ _ hn]; apply ofNat_eq; rw [show (0 : BitVec 5).toNat = 0 from rfl]; omega
  have h6_10 : fld (BitVec.ofNat 32 word) 6 10 = 0 := by
    rw [fld_ofNat _ _ _ _ hn]; apply ofNat_eq; rw [show (0 : BitVec 10).toNat = 0 from rfl]; omega
  have h0_6 : fld (BitVec.ofNat 32 word) 0 6 = n := by
    rw [fld_ofNat _ _ _ _ hn]; apply ofNat_eq; omega
  clear hk hn
  generalize BitVec.ofNat 32 word = w at *
  simp [decodeScalar, zeroed, h26_6, h21_5, h16_5, h11_5, h6_10, h0_6]
theorem sari (d : SReg) (a : SReg) (n : BitVec 6) : Statement (.sari d a n) := by
  have := d.isLt
  have := a.isLt
  have := n.isLt
  obtain ⟨word, hk⟩ : ∃ word, word = encSI 8 d a n.toNat := ⟨_, rfl⟩
  refine scalar_of (n := word) (by rw [hk]; rfl) ?_
  simp only [encSI] at hk
  have hn : word < 2 ^ 32 := by omega
  have h26_6 : fld (BitVec.ofNat 32 word) 26 6 = 8 := by
    rw [fld_ofNat _ _ _ _ hn]; apply ofNat_eq; rw [show (8 : BitVec 6).toNat = 8 from rfl]; omega
  have h21_5 : fld (BitVec.ofNat 32 word) 21 5 = d := by
    rw [fld_ofNat _ _ _ _ hn]; apply ofNat_eq; omega
  have h16_5 : fld (BitVec.ofNat 32 word) 16 5 = a := by
    rw [fld_ofNat _ _ _ _ hn]; apply ofNat_eq; omega
  have h11_5 : fld (BitVec.ofNat 32 word) 11 5 = 0 := by
    rw [fld_ofNat _ _ _ _ hn]; apply ofNat_eq; rw [show (0 : BitVec 5).toNat = 0 from rfl]; omega
  have h6_10 : fld (BitVec.ofNat 32 word) 6 10 = 0 := by
    rw [fld_ofNat _ _ _ _ hn]; apply ofNat_eq; rw [show (0 : BitVec 10).toNat = 0 from rfl]; omega
  have h0_6 : fld (BitVec.ofNat 32 word) 0 6 = n := by
    rw [fld_ofNat _ _ _ _ hn]; apply ofNat_eq; omega
  clear hk hn
  generalize BitVec.ofNat 32 word = w at *
  simp [decodeScalar, zeroed, h26_6, h21_5, h16_5, h11_5, h6_10, h0_6]
theorem slti (d : SReg) (a : SReg) (imm : BitVec 16) : Statement (.slti d a imm) := by
  have := d.isLt
  have := a.isLt
  have := imm.isLt
  obtain ⟨word, hk⟩ : ∃ word, word = encSI 9 d a imm.toNat := ⟨_, rfl⟩
  refine scalar_of (n := word) (by rw [hk]; rfl) ?_
  simp only [encSI] at hk
  have hn : word < 2 ^ 32 := by omega
  have h26_6 : fld (BitVec.ofNat 32 word) 26 6 = 9 := by
    rw [fld_ofNat _ _ _ _ hn]; apply ofNat_eq; rw [show (9 : BitVec 6).toNat = 9 from rfl]; omega
  have h21_5 : fld (BitVec.ofNat 32 word) 21 5 = d := by
    rw [fld_ofNat _ _ _ _ hn]; apply ofNat_eq; omega
  have h16_5 : fld (BitVec.ofNat 32 word) 16 5 = a := by
    rw [fld_ofNat _ _ _ _ hn]; apply ofNat_eq; omega
  have h0_16 : fld (BitVec.ofNat 32 word) 0 16 = imm := by
    rw [fld_ofNat _ _ _ _ hn]; apply ofNat_eq; omega
  clear hk hn
  generalize BitVec.ofNat 32 word = w at *
  simp [decodeScalar, zeroed, h26_6, h21_5, h16_5, h0_16]
theorem lui (d : SReg) (imm : BitVec 16) : Statement (.lui d imm) := by
  have := d.isLt
  have := imm.isLt
  obtain ⟨word, hk⟩ : ∃ word, word = encSI 10 d 0 imm.toNat := ⟨_, rfl⟩
  refine scalar_of (n := word) (by rw [hk]; rfl) ?_
  simp only [encSI, show (0 : SReg).toNat = 0 from rfl] at hk
  have hn : word < 2 ^ 32 := by omega
  have h26_6 : fld (BitVec.ofNat 32 word) 26 6 = 10 := by
    rw [fld_ofNat _ _ _ _ hn]; apply ofNat_eq; rw [show (10 : BitVec 6).toNat = 10 from rfl]; omega
  have h21_5 : fld (BitVec.ofNat 32 word) 21 5 = d := by
    rw [fld_ofNat _ _ _ _ hn]; apply ofNat_eq; omega
  have h16_5 : fld (BitVec.ofNat 32 word) 16 5 = 0 := by
    rw [fld_ofNat _ _ _ _ hn]; apply ofNat_eq; rw [show (0 : BitVec 5).toNat = 0 from rfl]; omega
  have h0_16 : fld (BitVec.ofNat 32 word) 0 16 = imm := by
    rw [fld_ofNat _ _ _ _ hn]; apply ofNat_eq; omega
  clear hk hn
  generalize BitVec.ofNat 32 word = w at *
  simp [decodeScalar, zeroed, h26_6, h21_5, h16_5, h0_16]
theorem shlor (d : SReg) (a : SReg) (imm : BitVec 16) : Statement (.shlor d a imm) := by
  have := d.isLt
  have := a.isLt
  have := imm.isLt
  obtain ⟨word, hk⟩ : ∃ word, word = encSI 11 d a imm.toNat := ⟨_, rfl⟩
  refine scalar_of (n := word) (by rw [hk]; rfl) ?_
  simp only [encSI] at hk
  have hn : word < 2 ^ 32 := by omega
  have h26_6 : fld (BitVec.ofNat 32 word) 26 6 = 11 := by
    rw [fld_ofNat _ _ _ _ hn]; apply ofNat_eq; rw [show (11 : BitVec 6).toNat = 11 from rfl]; omega
  have h21_5 : fld (BitVec.ofNat 32 word) 21 5 = d := by
    rw [fld_ofNat _ _ _ _ hn]; apply ofNat_eq; omega
  have h16_5 : fld (BitVec.ofNat 32 word) 16 5 = a := by
    rw [fld_ofNat _ _ _ _ hn]; apply ofNat_eq; omega
  have h0_16 : fld (BitVec.ofNat 32 word) 0 16 = imm := by
    rw [fld_ofNat _ _ _ _ hn]; apply ofNat_eq; omega
  clear hk hn
  generalize BitVec.ofNat 32 word = w at *
  simp [decodeScalar, zeroed, h26_6, h21_5, h16_5, h0_16]
theorem lds (d : SReg) (a : SReg) (disp : BitVec 16) : Statement (.lds d a disp) := by
  have := d.isLt
  have := a.isLt
  have := disp.isLt
  obtain ⟨word, hk⟩ : ∃ word, word = encSI 12 d a disp.toNat := ⟨_, rfl⟩
  refine scalar_of (n := word) (by rw [hk]; rfl) ?_
  simp only [encSI] at hk
  have hn : word < 2 ^ 32 := by omega
  have h26_6 : fld (BitVec.ofNat 32 word) 26 6 = 12 := by
    rw [fld_ofNat _ _ _ _ hn]; apply ofNat_eq; rw [show (12 : BitVec 6).toNat = 12 from rfl]; omega
  have h21_5 : fld (BitVec.ofNat 32 word) 21 5 = d := by
    rw [fld_ofNat _ _ _ _ hn]; apply ofNat_eq; omega
  have h16_5 : fld (BitVec.ofNat 32 word) 16 5 = a := by
    rw [fld_ofNat _ _ _ _ hn]; apply ofNat_eq; omega
  have h0_16 : fld (BitVec.ofNat 32 word) 0 16 = disp := by
    rw [fld_ofNat _ _ _ _ hn]; apply ofNat_eq; omega
  clear hk hn
  generalize BitVec.ofNat 32 word = w at *
  simp [decodeScalar, zeroed, h26_6, h21_5, h16_5, h0_16]
theorem ldw (d : SReg) (a : SReg) (disp : BitVec 16) : Statement (.ldw d a disp) := by
  have := d.isLt
  have := a.isLt
  have := disp.isLt
  obtain ⟨word, hk⟩ : ∃ word, word = encSI 13 d a disp.toNat := ⟨_, rfl⟩
  refine scalar_of (n := word) (by rw [hk]; rfl) ?_
  simp only [encSI] at hk
  have hn : word < 2 ^ 32 := by omega
  have h26_6 : fld (BitVec.ofNat 32 word) 26 6 = 13 := by
    rw [fld_ofNat _ _ _ _ hn]; apply ofNat_eq; rw [show (13 : BitVec 6).toNat = 13 from rfl]; omega
  have h21_5 : fld (BitVec.ofNat 32 word) 21 5 = d := by
    rw [fld_ofNat _ _ _ _ hn]; apply ofNat_eq; omega
  have h16_5 : fld (BitVec.ofNat 32 word) 16 5 = a := by
    rw [fld_ofNat _ _ _ _ hn]; apply ofNat_eq; omega
  have h0_16 : fld (BitVec.ofNat 32 word) 0 16 = disp := by
    rw [fld_ofNat _ _ _ _ hn]; apply ofNat_eq; omega
  clear hk hn
  generalize BitVec.ofNat 32 word = w at *
  simp [decodeScalar, zeroed, h26_6, h21_5, h16_5, h0_16]
theorem sts (d : SReg) (a : SReg) (disp : BitVec 16) : Statement (.sts d a disp) := by
  have := d.isLt
  have := a.isLt
  have := disp.isLt
  obtain ⟨word, hk⟩ : ∃ word, word = encSI 14 d a disp.toNat := ⟨_, rfl⟩
  refine scalar_of (n := word) (by rw [hk]; rfl) ?_
  simp only [encSI] at hk
  have hn : word < 2 ^ 32 := by omega
  have h26_6 : fld (BitVec.ofNat 32 word) 26 6 = 14 := by
    rw [fld_ofNat _ _ _ _ hn]; apply ofNat_eq; rw [show (14 : BitVec 6).toNat = 14 from rfl]; omega
  have h21_5 : fld (BitVec.ofNat 32 word) 21 5 = d := by
    rw [fld_ofNat _ _ _ _ hn]; apply ofNat_eq; omega
  have h16_5 : fld (BitVec.ofNat 32 word) 16 5 = a := by
    rw [fld_ofNat _ _ _ _ hn]; apply ofNat_eq; omega
  have h0_16 : fld (BitVec.ofNat 32 word) 0 16 = disp := by
    rw [fld_ofNat _ _ _ _ hn]; apply ofNat_eq; omega
  clear hk hn
  generalize BitVec.ofNat 32 word = w at *
  simp [decodeScalar, zeroed, h26_6, h21_5, h16_5, h0_16]
theorem stw (d : SReg) (a : SReg) (disp : BitVec 16) : Statement (.stw d a disp) := by
  have := d.isLt
  have := a.isLt
  have := disp.isLt
  obtain ⟨word, hk⟩ : ∃ word, word = encSI 15 d a disp.toNat := ⟨_, rfl⟩
  refine scalar_of (n := word) (by rw [hk]; rfl) ?_
  simp only [encSI] at hk
  have hn : word < 2 ^ 32 := by omega
  have h26_6 : fld (BitVec.ofNat 32 word) 26 6 = 15 := by
    rw [fld_ofNat _ _ _ _ hn]; apply ofNat_eq; rw [show (15 : BitVec 6).toNat = 15 from rfl]; omega
  have h21_5 : fld (BitVec.ofNat 32 word) 21 5 = d := by
    rw [fld_ofNat _ _ _ _ hn]; apply ofNat_eq; omega
  have h16_5 : fld (BitVec.ofNat 32 word) 16 5 = a := by
    rw [fld_ofNat _ _ _ _ hn]; apply ofNat_eq; omega
  have h0_16 : fld (BitVec.ofNat 32 word) 0 16 = disp := by
    rw [fld_ofNat _ _ _ _ hn]; apply ofNat_eq; omega
  clear hk hn
  generalize BitVec.ofNat 32 word = w at *
  simp [decodeScalar, zeroed, h26_6, h21_5, h16_5, h0_16]
theorem satom (d : SReg) (a : SReg) (b : SReg) (scope : BitVec 2) (use : BitVec 3) (narrow : BitVec 1) (op : BitVec 4) : Statement (.satom d a b scope use narrow op) := by
  have := d.isLt
  have := a.isLt
  have := b.isLt
  have := scope.isLt
  have := use.isLt
  have := narrow.isLt
  have := op.isLt
  obtain ⟨word, hk⟩ : ∃ word, word = encSR 16 d a b (scope.toNat * 256 + use.toNat * 32 + narrow.toNat * 16 + op.toNat) := ⟨_, rfl⟩
  refine scalar_of (n := word) (by rw [hk]; rfl) ?_
  simp only [encSR] at hk
  have hn : word < 2 ^ 32 := by omega
  have h26_6 : fld (BitVec.ofNat 32 word) 26 6 = 16 := by
    rw [fld_ofNat _ _ _ _ hn]; apply ofNat_eq; rw [show (16 : BitVec 6).toNat = 16 from rfl]; omega
  have h21_5 : fld (BitVec.ofNat 32 word) 21 5 = d := by
    rw [fld_ofNat _ _ _ _ hn]; apply ofNat_eq; omega
  have h16_5 : fld (BitVec.ofNat 32 word) 16 5 = a := by
    rw [fld_ofNat _ _ _ _ hn]; apply ofNat_eq; omega
  have h11_5 : fld (BitVec.ofNat 32 word) 11 5 = b := by
    rw [fld_ofNat _ _ _ _ hn]; apply ofNat_eq; omega
  have h10_1 : fld (BitVec.ofNat 32 word) 10 1 = 0 := by
    rw [fld_ofNat _ _ _ _ hn]; apply ofNat_eq; rw [show (0 : BitVec 1).toNat = 0 from rfl]; omega
  have h8_2 : fld (BitVec.ofNat 32 word) 8 2 = scope := by
    rw [fld_ofNat _ _ _ _ hn]; apply ofNat_eq; omega
  have h5_3 : fld (BitVec.ofNat 32 word) 5 3 = use := by
    rw [fld_ofNat _ _ _ _ hn]; apply ofNat_eq; omega
  have h4_1 : fld (BitVec.ofNat 32 word) 4 1 = narrow := by
    rw [fld_ofNat _ _ _ _ hn]; apply ofNat_eq; omega
  have h0_4 : fld (BitVec.ofNat 32 word) 0 4 = op := by
    rw [fld_ofNat _ _ _ _ hn]; apply ofNat_eq; omega
  clear hk hn
  generalize BitVec.ofNat 32 word = w at *
  simp [decodeScalar, zeroed, h26_6, h21_5, h16_5, h11_5, h10_1, h8_2, h5_3, h4_1, h0_4]
theorem scas (d : SReg) (a : SReg) (b : SReg) (scope : BitVec 2) (use : BitVec 3) (narrow : BitVec 1) : Statement (.scas d a b scope use narrow) := by
  have := d.isLt
  have := a.isLt
  have := b.isLt
  have := scope.isLt
  have := use.isLt
  have := narrow.isLt
  obtain ⟨word, hk⟩ : ∃ word, word = encSR 17 d a b (scope.toNat * 256 + use.toNat * 32 + narrow.toNat * 16) := ⟨_, rfl⟩
  refine scalar_of (n := word) (by rw [hk]; rfl) ?_
  simp only [encSR] at hk
  have hn : word < 2 ^ 32 := by omega
  have h26_6 : fld (BitVec.ofNat 32 word) 26 6 = 17 := by
    rw [fld_ofNat _ _ _ _ hn]; apply ofNat_eq; rw [show (17 : BitVec 6).toNat = 17 from rfl]; omega
  have h21_5 : fld (BitVec.ofNat 32 word) 21 5 = d := by
    rw [fld_ofNat _ _ _ _ hn]; apply ofNat_eq; omega
  have h16_5 : fld (BitVec.ofNat 32 word) 16 5 = a := by
    rw [fld_ofNat _ _ _ _ hn]; apply ofNat_eq; omega
  have h11_5 : fld (BitVec.ofNat 32 word) 11 5 = b := by
    rw [fld_ofNat _ _ _ _ hn]; apply ofNat_eq; omega
  have h10_1 : fld (BitVec.ofNat 32 word) 10 1 = 0 := by
    rw [fld_ofNat _ _ _ _ hn]; apply ofNat_eq; rw [show (0 : BitVec 1).toNat = 0 from rfl]; omega
  have h0_4 : fld (BitVec.ofNat 32 word) 0 4 = 0 := by
    rw [fld_ofNat _ _ _ _ hn]; apply ofNat_eq; rw [show (0 : BitVec 4).toNat = 0 from rfl]; omega
  have h8_2 : fld (BitVec.ofNat 32 word) 8 2 = scope := by
    rw [fld_ofNat _ _ _ _ hn]; apply ofNat_eq; omega
  have h5_3 : fld (BitVec.ofNat 32 word) 5 3 = use := by
    rw [fld_ofNat _ _ _ _ hn]; apply ofNat_eq; omega
  have h4_1 : fld (BitVec.ofNat 32 word) 4 1 = narrow := by
    rw [fld_ofNat _ _ _ _ hn]; apply ofNat_eq; omega
  clear hk hn
  generalize BitVec.ofNat 32 word = w at *
  simp [decodeScalar, zeroed, h26_6, h21_5, h16_5, h11_5, h10_1, h0_4, h8_2, h5_3, h4_1]
theorem beq (a : SReg) (b : SReg) (disp : BitVec 16) : Statement (.beq a b disp) := by
  have := a.isLt
  have := b.isLt
  have := disp.isLt
  obtain ⟨word, hk⟩ : ∃ word, word = encSI 18 a b disp.toNat := ⟨_, rfl⟩
  refine scalar_of (n := word) (by rw [hk]; rfl) ?_
  simp only [encSI] at hk
  have hn : word < 2 ^ 32 := by omega
  have h26_6 : fld (BitVec.ofNat 32 word) 26 6 = 18 := by
    rw [fld_ofNat _ _ _ _ hn]; apply ofNat_eq; rw [show (18 : BitVec 6).toNat = 18 from rfl]; omega
  have h21_5 : fld (BitVec.ofNat 32 word) 21 5 = a := by
    rw [fld_ofNat _ _ _ _ hn]; apply ofNat_eq; omega
  have h16_5 : fld (BitVec.ofNat 32 word) 16 5 = b := by
    rw [fld_ofNat _ _ _ _ hn]; apply ofNat_eq; omega
  have h0_16 : fld (BitVec.ofNat 32 word) 0 16 = disp := by
    rw [fld_ofNat _ _ _ _ hn]; apply ofNat_eq; omega
  clear hk hn
  generalize BitVec.ofNat 32 word = w at *
  simp [decodeScalar, zeroed, h26_6, h21_5, h16_5, h0_16]
theorem bne (a : SReg) (b : SReg) (disp : BitVec 16) : Statement (.bne a b disp) := by
  have := a.isLt
  have := b.isLt
  have := disp.isLt
  obtain ⟨word, hk⟩ : ∃ word, word = encSI 19 a b disp.toNat := ⟨_, rfl⟩
  refine scalar_of (n := word) (by rw [hk]; rfl) ?_
  simp only [encSI] at hk
  have hn : word < 2 ^ 32 := by omega
  have h26_6 : fld (BitVec.ofNat 32 word) 26 6 = 19 := by
    rw [fld_ofNat _ _ _ _ hn]; apply ofNat_eq; rw [show (19 : BitVec 6).toNat = 19 from rfl]; omega
  have h21_5 : fld (BitVec.ofNat 32 word) 21 5 = a := by
    rw [fld_ofNat _ _ _ _ hn]; apply ofNat_eq; omega
  have h16_5 : fld (BitVec.ofNat 32 word) 16 5 = b := by
    rw [fld_ofNat _ _ _ _ hn]; apply ofNat_eq; omega
  have h0_16 : fld (BitVec.ofNat 32 word) 0 16 = disp := by
    rw [fld_ofNat _ _ _ _ hn]; apply ofNat_eq; omega
  clear hk hn
  generalize BitVec.ofNat 32 word = w at *
  simp [decodeScalar, zeroed, h26_6, h21_5, h16_5, h0_16]
theorem blt (a : SReg) (b : SReg) (disp : BitVec 16) : Statement (.blt a b disp) := by
  have := a.isLt
  have := b.isLt
  have := disp.isLt
  obtain ⟨word, hk⟩ : ∃ word, word = encSI 20 a b disp.toNat := ⟨_, rfl⟩
  refine scalar_of (n := word) (by rw [hk]; rfl) ?_
  simp only [encSI] at hk
  have hn : word < 2 ^ 32 := by omega
  have h26_6 : fld (BitVec.ofNat 32 word) 26 6 = 20 := by
    rw [fld_ofNat _ _ _ _ hn]; apply ofNat_eq; rw [show (20 : BitVec 6).toNat = 20 from rfl]; omega
  have h21_5 : fld (BitVec.ofNat 32 word) 21 5 = a := by
    rw [fld_ofNat _ _ _ _ hn]; apply ofNat_eq; omega
  have h16_5 : fld (BitVec.ofNat 32 word) 16 5 = b := by
    rw [fld_ofNat _ _ _ _ hn]; apply ofNat_eq; omega
  have h0_16 : fld (BitVec.ofNat 32 word) 0 16 = disp := by
    rw [fld_ofNat _ _ _ _ hn]; apply ofNat_eq; omega
  clear hk hn
  generalize BitVec.ofNat 32 word = w at *
  simp [decodeScalar, zeroed, h26_6, h21_5, h16_5, h0_16]
theorem bge (a : SReg) (b : SReg) (disp : BitVec 16) : Statement (.bge a b disp) := by
  have := a.isLt
  have := b.isLt
  have := disp.isLt
  obtain ⟨word, hk⟩ : ∃ word, word = encSI 21 a b disp.toNat := ⟨_, rfl⟩
  refine scalar_of (n := word) (by rw [hk]; rfl) ?_
  simp only [encSI] at hk
  have hn : word < 2 ^ 32 := by omega
  have h26_6 : fld (BitVec.ofNat 32 word) 26 6 = 21 := by
    rw [fld_ofNat _ _ _ _ hn]; apply ofNat_eq; rw [show (21 : BitVec 6).toNat = 21 from rfl]; omega
  have h21_5 : fld (BitVec.ofNat 32 word) 21 5 = a := by
    rw [fld_ofNat _ _ _ _ hn]; apply ofNat_eq; omega
  have h16_5 : fld (BitVec.ofNat 32 word) 16 5 = b := by
    rw [fld_ofNat _ _ _ _ hn]; apply ofNat_eq; omega
  have h0_16 : fld (BitVec.ofNat 32 word) 0 16 = disp := by
    rw [fld_ofNat _ _ _ _ hn]; apply ofNat_eq; omega
  clear hk hn
  generalize BitVec.ofNat 32 word = w at *
  simp [decodeScalar, zeroed, h26_6, h21_5, h16_5, h0_16]
theorem bltn (a : SReg) (b : SReg) (disp : BitVec 16) : Statement (.bltn a b disp) := by
  have := a.isLt
  have := b.isLt
  have := disp.isLt
  obtain ⟨word, hk⟩ : ∃ word, word = encSI 22 a b disp.toNat := ⟨_, rfl⟩
  refine scalar_of (n := word) (by rw [hk]; rfl) ?_
  simp only [encSI] at hk
  have hn : word < 2 ^ 32 := by omega
  have h26_6 : fld (BitVec.ofNat 32 word) 26 6 = 22 := by
    rw [fld_ofNat _ _ _ _ hn]; apply ofNat_eq; rw [show (22 : BitVec 6).toNat = 22 from rfl]; omega
  have h21_5 : fld (BitVec.ofNat 32 word) 21 5 = a := by
    rw [fld_ofNat _ _ _ _ hn]; apply ofNat_eq; omega
  have h16_5 : fld (BitVec.ofNat 32 word) 16 5 = b := by
    rw [fld_ofNat _ _ _ _ hn]; apply ofNat_eq; omega
  have h0_16 : fld (BitVec.ofNat 32 word) 0 16 = disp := by
    rw [fld_ofNat _ _ _ _ hn]; apply ofNat_eq; omega
  clear hk hn
  generalize BitVec.ofNat 32 word = w at *
  simp [decodeScalar, zeroed, h26_6, h21_5, h16_5, h0_16]
theorem bgen (a : SReg) (b : SReg) (disp : BitVec 16) : Statement (.bgen a b disp) := by
  have := a.isLt
  have := b.isLt
  have := disp.isLt
  obtain ⟨word, hk⟩ : ∃ word, word = encSI 23 a b disp.toNat := ⟨_, rfl⟩
  refine scalar_of (n := word) (by rw [hk]; rfl) ?_
  simp only [encSI] at hk
  have hn : word < 2 ^ 32 := by omega
  have h26_6 : fld (BitVec.ofNat 32 word) 26 6 = 23 := by
    rw [fld_ofNat _ _ _ _ hn]; apply ofNat_eq; rw [show (23 : BitVec 6).toNat = 23 from rfl]; omega
  have h21_5 : fld (BitVec.ofNat 32 word) 21 5 = a := by
    rw [fld_ofNat _ _ _ _ hn]; apply ofNat_eq; omega
  have h16_5 : fld (BitVec.ofNat 32 word) 16 5 = b := by
    rw [fld_ofNat _ _ _ _ hn]; apply ofNat_eq; omega
  have h0_16 : fld (BitVec.ofNat 32 word) 0 16 = disp := by
    rw [fld_ofNat _ _ _ _ hn]; apply ofNat_eq; omega
  clear hk hn
  generalize BitVec.ofNat 32 word = w at *
  simp [decodeScalar, zeroed, h26_6, h21_5, h16_5, h0_16]
theorem bct (c : BitVec 3) (disp : BitVec 16) : Statement (.bct c disp) := by
  have := c.isLt
  have := disp.isLt
  obtain ⟨word, hk⟩ : ∃ word, word = encSel 24 0 c disp.toNat := ⟨_, rfl⟩
  refine scalar_of (n := word) (by rw [hk]; rfl) ?_
  simp only [encSel] at hk
  have hn : word < 2 ^ 32 := by omega
  have h26_6 : fld (BitVec.ofNat 32 word) 26 6 = 24 := by
    rw [fld_ofNat _ _ _ _ hn]; apply ofNat_eq; rw [show (24 : BitVec 6).toNat = 24 from rfl]; omega
  have h16_5 : fld (BitVec.ofNat 32 word) 16 5 = 0 := by
    rw [fld_ofNat _ _ _ _ hn]; apply ofNat_eq; rw [show (0 : BitVec 5).toNat = 0 from rfl]; omega
  have h0_16 : fld (BitVec.ofNat 32 word) 0 16 = disp := by
    rw [fld_ofNat _ _ _ _ hn]; apply ofNat_eq; omega
  have h24_2 : fld (BitVec.ofNat 32 word) 24 2 = 0 := by
    rw [fld_ofNat _ _ _ _ hn]; apply ofNat_eq; rw [show (0 : BitVec 2).toNat = 0 from rfl]; omega
  have h21_3 : fld (BitVec.ofNat 32 word) 21 3 = c := by
    rw [fld_ofNat _ _ _ _ hn]; apply ofNat_eq; omega
  clear hk hn
  generalize BitVec.ofNat 32 word = w at *
  simp [decodeScalar, zeroed, h26_6, h16_5, h0_16, h24_2, h21_3]
theorem bcf (c : BitVec 3) (disp : BitVec 16) : Statement (.bcf c disp) := by
  have := c.isLt
  have := disp.isLt
  obtain ⟨word, hk⟩ : ∃ word, word = encSel 25 0 c disp.toNat := ⟨_, rfl⟩
  refine scalar_of (n := word) (by rw [hk]; rfl) ?_
  simp only [encSel] at hk
  have hn : word < 2 ^ 32 := by omega
  have h26_6 : fld (BitVec.ofNat 32 word) 26 6 = 25 := by
    rw [fld_ofNat _ _ _ _ hn]; apply ofNat_eq; rw [show (25 : BitVec 6).toNat = 25 from rfl]; omega
  have h16_5 : fld (BitVec.ofNat 32 word) 16 5 = 0 := by
    rw [fld_ofNat _ _ _ _ hn]; apply ofNat_eq; rw [show (0 : BitVec 5).toNat = 0 from rfl]; omega
  have h0_16 : fld (BitVec.ofNat 32 word) 0 16 = disp := by
    rw [fld_ofNat _ _ _ _ hn]; apply ofNat_eq; omega
  have h24_2 : fld (BitVec.ofNat 32 word) 24 2 = 0 := by
    rw [fld_ofNat _ _ _ _ hn]; apply ofNat_eq; rw [show (0 : BitVec 2).toNat = 0 from rfl]; omega
  have h21_3 : fld (BitVec.ofNat 32 word) 21 3 = c := by
    rw [fld_ofNat _ _ _ _ hn]; apply ofNat_eq; omega
  clear hk hn
  generalize BitVec.ofNat 32 word = w at *
  simp [decodeScalar, zeroed, h26_6, h16_5, h0_16, h24_2, h21_3]
theorem jal (disp : BitVec 26) : Statement (.jal disp) := by
  have := disp.isLt
  obtain ⟨word, hk⟩ : ∃ word, word = 26 * 2 ^ 26 + disp.toNat := ⟨_, rfl⟩
  refine scalar_of (n := word) (by rw [hk]; rfl) ?_
  have hn : word < 2 ^ 32 := by omega
  have h26_6 : fld (BitVec.ofNat 32 word) 26 6 = 26 := by
    rw [fld_ofNat _ _ _ _ hn]; apply ofNat_eq; rw [show (26 : BitVec 6).toNat = 26 from rfl]; omega
  have h0_26 : fld (BitVec.ofNat 32 word) 0 26 = disp := by
    rw [fld_ofNat _ _ _ _ hn]; apply ofNat_eq; omega
  clear hk hn
  generalize BitVec.ofNat 32 word = w at *
  simp [decodeScalar, zeroed, h26_6, h0_26]
theorem jalr (d : SReg) (a : SReg) (imm : BitVec 16) : Statement (.jalr d a imm) := by
  have := d.isLt
  have := a.isLt
  have := imm.isLt
  obtain ⟨word, hk⟩ : ∃ word, word = encSI 27 d a imm.toNat := ⟨_, rfl⟩
  refine scalar_of (n := word) (by rw [hk]; rfl) ?_
  simp only [encSI] at hk
  have hn : word < 2 ^ 32 := by omega
  have h26_6 : fld (BitVec.ofNat 32 word) 26 6 = 27 := by
    rw [fld_ofNat _ _ _ _ hn]; apply ofNat_eq; rw [show (27 : BitVec 6).toNat = 27 from rfl]; omega
  have h21_5 : fld (BitVec.ofNat 32 word) 21 5 = d := by
    rw [fld_ofNat _ _ _ _ hn]; apply ofNat_eq; omega
  have h16_5 : fld (BitVec.ofNat 32 word) 16 5 = a := by
    rw [fld_ofNat _ _ _ _ hn]; apply ofNat_eq; omega
  have h0_16 : fld (BitVec.ofNat 32 word) 0 16 = imm := by
    rw [fld_ofNat _ _ _ _ hn]; apply ofNat_eq; omega
  clear hk hn
  generalize BitVec.ofNat 32 word = w at *
  simp [decodeScalar, zeroed, h26_6, h21_5, h16_5, h0_16]
theorem jmpf (d : SReg) (a : SReg) (imm : BitVec 16) : Statement (.jmpf d a imm) := by
  have := d.isLt
  have := a.isLt
  have := imm.isLt
  obtain ⟨word, hk⟩ : ∃ word, word = encSI 28 d a imm.toNat := ⟨_, rfl⟩
  refine scalar_of (n := word) (by rw [hk]; rfl) ?_
  simp only [encSI] at hk
  have hn : word < 2 ^ 32 := by omega
  have h26_6 : fld (BitVec.ofNat 32 word) 26 6 = 28 := by
    rw [fld_ofNat _ _ _ _ hn]; apply ofNat_eq; rw [show (28 : BitVec 6).toNat = 28 from rfl]; omega
  have h21_5 : fld (BitVec.ofNat 32 word) 21 5 = d := by
    rw [fld_ofNat _ _ _ _ hn]; apply ofNat_eq; omega
  have h16_5 : fld (BitVec.ofNat 32 word) 16 5 = a := by
    rw [fld_ofNat _ _ _ _ hn]; apply ofNat_eq; omega
  have h0_16 : fld (BitVec.ofNat 32 word) 0 16 = imm := by
    rw [fld_ofNat _ _ _ _ hn]; apply ofNat_eq; omega
  clear hk hn
  generalize BitVec.ofNat 32 word = w at *
  simp [decodeScalar, zeroed, h26_6, h21_5, h16_5, h0_16]
theorem call (k : BitVec 5) (disp : BitVec 16) : Statement (.call k disp) := by
  have := k.isLt
  have := disp.isLt
  obtain ⟨word, hk⟩ : ∃ word, word = encSI 29 k 0 disp.toNat := ⟨_, rfl⟩
  refine scalar_of (n := word) (by rw [hk]; rfl) ?_
  simp only [encSI, show (0 : SReg).toNat = 0 from rfl] at hk
  have hn : word < 2 ^ 32 := by omega
  have h26_6 : fld (BitVec.ofNat 32 word) 26 6 = 29 := by
    rw [fld_ofNat _ _ _ _ hn]; apply ofNat_eq; rw [show (29 : BitVec 6).toNat = 29 from rfl]; omega
  have h21_5 : fld (BitVec.ofNat 32 word) 21 5 = k := by
    rw [fld_ofNat _ _ _ _ hn]; apply ofNat_eq; omega
  have h16_5 : fld (BitVec.ofNat 32 word) 16 5 = 0 := by
    rw [fld_ofNat _ _ _ _ hn]; apply ofNat_eq; rw [show (0 : BitVec 5).toNat = 0 from rfl]; omega
  have h0_16 : fld (BitVec.ofNat 32 word) 0 16 = disp := by
    rw [fld_ofNat _ _ _ _ hn]; apply ofNat_eq; omega
  clear hk hn
  generalize BitVec.ofNat 32 word = w at *
  simp [decodeScalar, zeroed, h26_6, h21_5, h16_5, h0_16]
theorem ret (k : BitVec 3) : Statement (.ret k) := by
  have := k.isLt
  obtain ⟨word, hk⟩ : ∃ word, word = encSR 30 0 0 0 k.toNat := ⟨_, rfl⟩
  refine scalar_of (n := word) (by rw [hk]; rfl) ?_
  simp only [encSR, show (0 : SReg).toNat = 0 from rfl] at hk
  have hn : word < 2 ^ 32 := by omega
  have h26_6 : fld (BitVec.ofNat 32 word) 26 6 = 30 := by
    rw [fld_ofNat _ _ _ _ hn]; apply ofNat_eq; rw [show (30 : BitVec 6).toNat = 30 from rfl]; omega
  have h21_5 : fld (BitVec.ofNat 32 word) 21 5 = 0 := by
    rw [fld_ofNat _ _ _ _ hn]; apply ofNat_eq; rw [show (0 : BitVec 5).toNat = 0 from rfl]; omega
  have h16_5 : fld (BitVec.ofNat 32 word) 16 5 = 0 := by
    rw [fld_ofNat _ _ _ _ hn]; apply ofNat_eq; rw [show (0 : BitVec 5).toNat = 0 from rfl]; omega
  have h11_5 : fld (BitVec.ofNat 32 word) 11 5 = 0 := by
    rw [fld_ofNat _ _ _ _ hn]; apply ofNat_eq; rw [show (0 : BitVec 5).toNat = 0 from rfl]; omega
  have h3_8 : fld (BitVec.ofNat 32 word) 3 8 = 0 := by
    rw [fld_ofNat _ _ _ _ hn]; apply ofNat_eq; rw [show (0 : BitVec 8).toNat = 0 from rfl]; omega
  have h0_3 : fld (BitVec.ofNat 32 word) 0 3 = k := by
    rw [fld_ofNat _ _ _ _ hn]; apply ofNat_eq; omega
  clear hk hn
  generalize BitVec.ofNat 32 word = w at *
  simp [decodeScalar, zeroed, h26_6, h21_5, h16_5, h11_5, h3_8, h0_3]
theorem lrun (n : BitVec 16) : Statement (.lrun n) := by
  have := n.isLt
  obtain ⟨word, hk⟩ : ∃ word, word = encSI 31 0 0 n.toNat := ⟨_, rfl⟩
  refine scalar_of (n := word) (by rw [hk]; rfl) ?_
  simp only [encSI, show (0 : SReg).toNat = 0 from rfl] at hk
  have hn : word < 2 ^ 32 := by omega
  have h26_6 : fld (BitVec.ofNat 32 word) 26 6 = 31 := by
    rw [fld_ofNat _ _ _ _ hn]; apply ofNat_eq; rw [show (31 : BitVec 6).toNat = 31 from rfl]; omega
  have h21_5 : fld (BitVec.ofNat 32 word) 21 5 = 0 := by
    rw [fld_ofNat _ _ _ _ hn]; apply ofNat_eq; rw [show (0 : BitVec 5).toNat = 0 from rfl]; omega
  have h16_5 : fld (BitVec.ofNat 32 word) 16 5 = 0 := by
    rw [fld_ofNat _ _ _ _ hn]; apply ofNat_eq; rw [show (0 : BitVec 5).toNat = 0 from rfl]; omega
  have h0_16 : fld (BitVec.ofNat 32 word) 0 16 = n := by
    rw [fld_ofNat _ _ _ _ hn]; apply ofNat_eq; omega
  clear hk hn
  generalize BitVec.ofNat 32 word = w at *
  simp [decodeScalar, zeroed, h26_6, h21_5, h16_5, h0_16]
theorem lset (a : SReg) (imm : BitVec 16) : Statement (.lset a imm) := by
  have := a.isLt
  have := imm.isLt
  obtain ⟨word, hk⟩ : ∃ word, word = encSI 32 0 a imm.toNat := ⟨_, rfl⟩
  refine scalar_of (n := word) (by rw [hk]; rfl) ?_
  simp only [encSI, show (0 : SReg).toNat = 0 from rfl] at hk
  have hn : word < 2 ^ 32 := by omega
  have h26_6 : fld (BitVec.ofNat 32 word) 26 6 = 32 := by
    rw [fld_ofNat _ _ _ _ hn]; apply ofNat_eq; rw [show (32 : BitVec 6).toNat = 32 from rfl]; omega
  have h21_5 : fld (BitVec.ofNat 32 word) 21 5 = 0 := by
    rw [fld_ofNat _ _ _ _ hn]; apply ofNat_eq; rw [show (0 : BitVec 5).toNat = 0 from rfl]; omega
  have h16_5 : fld (BitVec.ofNat 32 word) 16 5 = a := by
    rw [fld_ofNat _ _ _ _ hn]; apply ofNat_eq; omega
  have h0_16 : fld (BitVec.ofNat 32 word) 0 16 = imm := by
    rw [fld_ofNat _ _ _ _ hn]; apply ofNat_eq; omega
  clear hk hn
  generalize BitVec.ofNat 32 word = w at *
  simp [decodeScalar, zeroed, h26_6, h21_5, h16_5, h0_16]
theorem brv (neg : BitVec 1) (p : BitVec 3) (disp : BitVec 16) : Statement (.brv neg p disp) := by
  have := neg.isLt
  have := p.isLt
  have := disp.isLt
  obtain ⟨word, hk⟩ : ∃ word, word = encSel 33 neg.toNat p disp.toNat := ⟨_, rfl⟩
  refine scalar_of (n := word) (by rw [hk]; rfl) ?_
  simp only [encSel] at hk
  have hn : word < 2 ^ 32 := by omega
  have h26_6 : fld (BitVec.ofNat 32 word) 26 6 = 33 := by
    rw [fld_ofNat _ _ _ _ hn]; apply ofNat_eq; rw [show (33 : BitVec 6).toNat = 33 from rfl]; omega
  have h16_5 : fld (BitVec.ofNat 32 word) 16 5 = 0 := by
    rw [fld_ofNat _ _ _ _ hn]; apply ofNat_eq; rw [show (0 : BitVec 5).toNat = 0 from rfl]; omega
  have h0_16 : fld (BitVec.ofNat 32 word) 0 16 = disp := by
    rw [fld_ofNat _ _ _ _ hn]; apply ofNat_eq; omega
  have h25_1 : fld (BitVec.ofNat 32 word) 25 1 = 0 := by
    rw [fld_ofNat _ _ _ _ hn]; apply ofNat_eq; rw [show (0 : BitVec 1).toNat = 0 from rfl]; omega
  have h24_1 : fld (BitVec.ofNat 32 word) 24 1 = neg := by
    rw [fld_ofNat _ _ _ _ hn]; apply ofNat_eq; omega
  have h21_3 : fld (BitVec.ofNat 32 word) 21 3 = p := by
    rw [fld_ofNat _ _ _ _ hn]; apply ofNat_eq; omega
  clear hk hn
  generalize BitVec.ofNat 32 word = w at *
  simp [decodeScalar, zeroed, h26_6, h16_5, h0_16, h25_1, h24_1, h21_3]
theorem jmpv (v : BitVec 6) : Statement (.jmpv v) := by
  have := v.isLt
  obtain ⟨word, hk⟩ : ∃ word, word = encSR 34 0 0 0 v.toNat := ⟨_, rfl⟩
  refine scalar_of (n := word) (by rw [hk]; rfl) ?_
  simp only [encSR, show (0 : SReg).toNat = 0 from rfl] at hk
  have hn : word < 2 ^ 32 := by omega
  have h26_6 : fld (BitVec.ofNat 32 word) 26 6 = 34 := by
    rw [fld_ofNat _ _ _ _ hn]; apply ofNat_eq; rw [show (34 : BitVec 6).toNat = 34 from rfl]; omega
  have h21_5 : fld (BitVec.ofNat 32 word) 21 5 = 0 := by
    rw [fld_ofNat _ _ _ _ hn]; apply ofNat_eq; rw [show (0 : BitVec 5).toNat = 0 from rfl]; omega
  have h16_5 : fld (BitVec.ofNat 32 word) 16 5 = 0 := by
    rw [fld_ofNat _ _ _ _ hn]; apply ofNat_eq; rw [show (0 : BitVec 5).toNat = 0 from rfl]; omega
  have h11_5 : fld (BitVec.ofNat 32 word) 11 5 = 0 := by
    rw [fld_ofNat _ _ _ _ hn]; apply ofNat_eq; rw [show (0 : BitVec 5).toNat = 0 from rfl]; omega
  have h6_5 : fld (BitVec.ofNat 32 word) 6 5 = 0 := by
    rw [fld_ofNat _ _ _ _ hn]; apply ofNat_eq; rw [show (0 : BitVec 5).toNat = 0 from rfl]; omega
  have h0_6 : fld (BitVec.ofNat 32 word) 0 6 = v := by
    rw [fld_ofNat _ _ _ _ hn]; apply ofNat_eq; omega
  clear hk hn
  generalize BitVec.ofNat 32 word = w at *
  simp [decodeScalar, zeroed, h26_6, h21_5, h16_5, h11_5, h6_5, h0_6]
theorem join (a : SReg) (id : BitVec 4) : Statement (.join a id) := by
  have := a.isLt
  have := id.isLt
  obtain ⟨word, hk⟩ : ∃ word, word = encSI 35 0 a id.toNat := ⟨_, rfl⟩
  refine scalar_of (n := word) (by rw [hk]; rfl) ?_
  simp only [encSI, show (0 : SReg).toNat = 0 from rfl] at hk
  have hn : word < 2 ^ 32 := by omega
  have h26_6 : fld (BitVec.ofNat 32 word) 26 6 = 35 := by
    rw [fld_ofNat _ _ _ _ hn]; apply ofNat_eq; rw [show (35 : BitVec 6).toNat = 35 from rfl]; omega
  have h21_5 : fld (BitVec.ofNat 32 word) 21 5 = 0 := by
    rw [fld_ofNat _ _ _ _ hn]; apply ofNat_eq; rw [show (0 : BitVec 5).toNat = 0 from rfl]; omega
  have h16_5 : fld (BitVec.ofNat 32 word) 16 5 = a := by
    rw [fld_ofNat _ _ _ _ hn]; apply ofNat_eq; omega
  have h11_5 : fld (BitVec.ofNat 32 word) 11 5 = 0 := by
    rw [fld_ofNat _ _ _ _ hn]; apply ofNat_eq; rw [show (0 : BitVec 5).toNat = 0 from rfl]; omega
  have h4_12 : fld (BitVec.ofNat 32 word) 4 12 = 0 := by
    rw [fld_ofNat _ _ _ _ hn]; apply ofNat_eq; rw [show (0 : BitVec 12).toNat = 0 from rfl]; omega
  have h0_4 : fld (BitVec.ofNat 32 word) 0 4 = id := by
    rw [fld_ofNat _ _ _ _ hn]; apply ofNat_eq; omega
  clear hk hn
  generalize BitVec.ofNat 32 word = w at *
  simp [decodeScalar, zeroed, h26_6, h21_5, h16_5, h11_5, h4_12, h0_4]
theorem regroup (d : SReg) (a : SReg) : Statement (.regroup d a) := by
  have := d.isLt
  have := a.isLt
  obtain ⟨word, hk⟩ : ∃ word, word = encSR 36 d a 0 0 := ⟨_, rfl⟩
  refine scalar_of (n := word) (by rw [hk]; rfl) ?_
  simp only [encSR, show (0 : SReg).toNat = 0 from rfl] at hk
  have hn : word < 2 ^ 32 := by omega
  have h26_6 : fld (BitVec.ofNat 32 word) 26 6 = 36 := by
    rw [fld_ofNat _ _ _ _ hn]; apply ofNat_eq; rw [show (36 : BitVec 6).toNat = 36 from rfl]; omega
  have h21_5 : fld (BitVec.ofNat 32 word) 21 5 = d := by
    rw [fld_ofNat _ _ _ _ hn]; apply ofNat_eq; omega
  have h16_5 : fld (BitVec.ofNat 32 word) 16 5 = a := by
    rw [fld_ofNat _ _ _ _ hn]; apply ofNat_eq; omega
  have h11_5 : fld (BitVec.ofNat 32 word) 11 5 = 0 := by
    rw [fld_ofNat _ _ _ _ hn]; apply ofNat_eq; rw [show (0 : BitVec 5).toNat = 0 from rfl]; omega
  have h0_16 : fld (BitVec.ofNat 32 word) 0 16 = 0 := by
    rw [fld_ofNat _ _ _ _ hn]; apply ofNat_eq; rw [show (0 : BitVec 16).toNat = 0 from rfl]; omega
  have h0_11 : fld (BitVec.ofNat 32 word) 0 11 = 0 := by
    rw [fld_ofNat _ _ _ _ hn]; apply ofNat_eq; rw [show (0 : BitVec 11).toNat = 0 from rfl]; omega
  clear hk hn
  generalize BitVec.ofNat 32 word = w at *
  simp [decodeScalar, zeroed, h26_6, h21_5, h16_5, h11_5, h0_16, h0_11]
theorem waitc (loads : BitVec 6) (stores : BitVec 6) (copies : BitVec 6) (tiles : BitVec 6) : Statement (.waitc loads stores copies tiles) := by
  have := loads.isLt
  have := stores.isLt
  have := copies.isLt
  have := tiles.isLt
  obtain ⟨word, hk⟩ : ∃ word, word = 37 * 2 ^ 26 + loads.toNat * 2 ^ 18 + stores.toNat * 2 ^ 12 + copies.toNat * 2 ^ 6 + tiles.toNat := ⟨_, rfl⟩
  refine scalar_of (n := word) (by rw [hk]; rfl) ?_
  have hn : word < 2 ^ 32 := by omega
  have h26_6 : fld (BitVec.ofNat 32 word) 26 6 = 37 := by
    rw [fld_ofNat _ _ _ _ hn]; apply ofNat_eq; rw [show (37 : BitVec 6).toNat = 37 from rfl]; omega
  have h24_2 : fld (BitVec.ofNat 32 word) 24 2 = 0 := by
    rw [fld_ofNat _ _ _ _ hn]; apply ofNat_eq; rw [show (0 : BitVec 2).toNat = 0 from rfl]; omega
  have h18_6 : fld (BitVec.ofNat 32 word) 18 6 = loads := by
    rw [fld_ofNat _ _ _ _ hn]; apply ofNat_eq; omega
  have h12_6 : fld (BitVec.ofNat 32 word) 12 6 = stores := by
    rw [fld_ofNat _ _ _ _ hn]; apply ofNat_eq; omega
  have h6_6 : fld (BitVec.ofNat 32 word) 6 6 = copies := by
    rw [fld_ofNat _ _ _ _ hn]; apply ofNat_eq; omega
  have h0_6 : fld (BitVec.ofNat 32 word) 0 6 = tiles := by
    rw [fld_ofNat _ _ _ _ hn]; apply ofNat_eq; omega
  clear hk hn
  generalize BitVec.ofNat 32 word = w at *
  simp [decodeScalar, zeroed, h26_6, h24_2, h18_6, h12_6, h6_6, h0_6]
theorem waitt (mask : BitVec 8) : Statement (.waitt mask) := by
  have := mask.isLt
  obtain ⟨word, hk⟩ : ∃ word, word = encSI 38 0 0 mask.toNat := ⟨_, rfl⟩
  refine scalar_of (n := word) (by rw [hk]; rfl) ?_
  simp only [encSI, show (0 : SReg).toNat = 0 from rfl] at hk
  have hn : word < 2 ^ 32 := by omega
  have h26_6 : fld (BitVec.ofNat 32 word) 26 6 = 38 := by
    rw [fld_ofNat _ _ _ _ hn]; apply ofNat_eq; rw [show (38 : BitVec 6).toNat = 38 from rfl]; omega
  have h21_5 : fld (BitVec.ofNat 32 word) 21 5 = 0 := by
    rw [fld_ofNat _ _ _ _ hn]; apply ofNat_eq; rw [show (0 : BitVec 5).toNat = 0 from rfl]; omega
  have h16_5 : fld (BitVec.ofNat 32 word) 16 5 = 0 := by
    rw [fld_ofNat _ _ _ _ hn]; apply ofNat_eq; rw [show (0 : BitVec 5).toNat = 0 from rfl]; omega
  have h11_5 : fld (BitVec.ofNat 32 word) 11 5 = 0 := by
    rw [fld_ofNat _ _ _ _ hn]; apply ofNat_eq; rw [show (0 : BitVec 5).toNat = 0 from rfl]; omega
  have h8_8 : fld (BitVec.ofNat 32 word) 8 8 = 0 := by
    rw [fld_ofNat _ _ _ _ hn]; apply ofNat_eq; rw [show (0 : BitVec 8).toNat = 0 from rfl]; omega
  have h0_8 : fld (BitVec.ofNat 32 word) 0 8 = mask := by
    rw [fld_ofNat _ _ _ _ hn]; apply ofNat_eq; omega
  clear hk hn
  generalize BitVec.ofNat 32 word = w at *
  simp [decodeScalar, zeroed, h26_6, h21_5, h16_5, h11_5, h8_8, h0_8]
theorem yieldt (k : BitVec 3) (disp : BitVec 16) : Statement (.yieldt k disp) := by
  have := k.isLt
  have := disp.isLt
  obtain ⟨word, hk⟩ : ∃ word, word = encSel 39 0 k disp.toNat := ⟨_, rfl⟩
  refine scalar_of (n := word) (by rw [hk]; rfl) ?_
  simp only [encSel] at hk
  have hn : word < 2 ^ 32 := by omega
  have h26_6 : fld (BitVec.ofNat 32 word) 26 6 = 39 := by
    rw [fld_ofNat _ _ _ _ hn]; apply ofNat_eq; rw [show (39 : BitVec 6).toNat = 39 from rfl]; omega
  have h16_5 : fld (BitVec.ofNat 32 word) 16 5 = 0 := by
    rw [fld_ofNat _ _ _ _ hn]; apply ofNat_eq; rw [show (0 : BitVec 5).toNat = 0 from rfl]; omega
  have h0_16 : fld (BitVec.ofNat 32 word) 0 16 = disp := by
    rw [fld_ofNat _ _ _ _ hn]; apply ofNat_eq; omega
  have h24_2 : fld (BitVec.ofNat 32 word) 24 2 = 0 := by
    rw [fld_ofNat _ _ _ _ hn]; apply ofNat_eq; rw [show (0 : BitVec 2).toNat = 0 from rfl]; omega
  have h21_3 : fld (BitVec.ofNat 32 word) 21 3 = k := by
    rw [fld_ofNat _ _ _ _ hn]; apply ofNat_eq; omega
  clear hk hn
  generalize BitVec.ofNat 32 word = w at *
  simp [decodeScalar, zeroed, h26_6, h16_5, h0_16, h24_2, h21_3]
theorem qpush (a : SReg) (c : BitVec 3) (nb : BitVec 1) (q : BitVec 4) : Statement (.qpush a c nb q) := by
  have := a.isLt
  have := c.isLt
  have := nb.isLt
  have := q.isLt
  obtain ⟨word, hk⟩ : ∃ word, word = encSR 40 0 a 0 (c.toNat * 32 + nb.toNat * 16 + q.toNat) := ⟨_, rfl⟩
  refine scalar_of (n := word) (by rw [hk]; rfl) ?_
  simp only [encSR, show (0 : SReg).toNat = 0 from rfl] at hk
  have hn : word < 2 ^ 32 := by omega
  have h26_6 : fld (BitVec.ofNat 32 word) 26 6 = 40 := by
    rw [fld_ofNat _ _ _ _ hn]; apply ofNat_eq; rw [show (40 : BitVec 6).toNat = 40 from rfl]; omega
  have h21_5 : fld (BitVec.ofNat 32 word) 21 5 = 0 := by
    rw [fld_ofNat _ _ _ _ hn]; apply ofNat_eq; rw [show (0 : BitVec 5).toNat = 0 from rfl]; omega
  have h16_5 : fld (BitVec.ofNat 32 word) 16 5 = a := by
    rw [fld_ofNat _ _ _ _ hn]; apply ofNat_eq; omega
  have h11_5 : fld (BitVec.ofNat 32 word) 11 5 = 0 := by
    rw [fld_ofNat _ _ _ _ hn]; apply ofNat_eq; rw [show (0 : BitVec 5).toNat = 0 from rfl]; omega
  have h8_3 : fld (BitVec.ofNat 32 word) 8 3 = 0 := by
    rw [fld_ofNat _ _ _ _ hn]; apply ofNat_eq; rw [show (0 : BitVec 3).toNat = 0 from rfl]; omega
  have h5_3 : fld (BitVec.ofNat 32 word) 5 3 = c := by
    rw [fld_ofNat _ _ _ _ hn]; apply ofNat_eq; omega
  have h4_1 : fld (BitVec.ofNat 32 word) 4 1 = nb := by
    rw [fld_ofNat _ _ _ _ hn]; apply ofNat_eq; omega
  have h0_4 : fld (BitVec.ofNat 32 word) 0 4 = q := by
    rw [fld_ofNat _ _ _ _ hn]; apply ofNat_eq; omega
  clear hk hn
  generalize BitVec.ofNat 32 word = w at *
  simp [decodeScalar, zeroed, h26_6, h21_5, h16_5, h11_5, h8_3, h5_3, h4_1, h0_4]
theorem qpop (d : SReg) (c : BitVec 3) (nb : BitVec 1) (q : BitVec 4) : Statement (.qpop d c nb q) := by
  have := d.isLt
  have := c.isLt
  have := nb.isLt
  have := q.isLt
  obtain ⟨word, hk⟩ : ∃ word, word = encSR 41 d 0 0 (c.toNat * 32 + nb.toNat * 16 + q.toNat) := ⟨_, rfl⟩
  refine scalar_of (n := word) (by rw [hk]; rfl) ?_
  simp only [encSR, show (0 : SReg).toNat = 0 from rfl] at hk
  have hn : word < 2 ^ 32 := by omega
  have h26_6 : fld (BitVec.ofNat 32 word) 26 6 = 41 := by
    rw [fld_ofNat _ _ _ _ hn]; apply ofNat_eq; rw [show (41 : BitVec 6).toNat = 41 from rfl]; omega
  have h21_5 : fld (BitVec.ofNat 32 word) 21 5 = d := by
    rw [fld_ofNat _ _ _ _ hn]; apply ofNat_eq; omega
  have h16_5 : fld (BitVec.ofNat 32 word) 16 5 = 0 := by
    rw [fld_ofNat _ _ _ _ hn]; apply ofNat_eq; rw [show (0 : BitVec 5).toNat = 0 from rfl]; omega
  have h11_5 : fld (BitVec.ofNat 32 word) 11 5 = 0 := by
    rw [fld_ofNat _ _ _ _ hn]; apply ofNat_eq; rw [show (0 : BitVec 5).toNat = 0 from rfl]; omega
  have h8_3 : fld (BitVec.ofNat 32 word) 8 3 = 0 := by
    rw [fld_ofNat _ _ _ _ hn]; apply ofNat_eq; rw [show (0 : BitVec 3).toNat = 0 from rfl]; omega
  have h5_3 : fld (BitVec.ofNat 32 word) 5 3 = c := by
    rw [fld_ofNat _ _ _ _ hn]; apply ofNat_eq; omega
  have h4_1 : fld (BitVec.ofNat 32 word) 4 1 = nb := by
    rw [fld_ofNat _ _ _ _ hn]; apply ofNat_eq; omega
  have h0_4 : fld (BitVec.ofNat 32 word) 0 4 = q := by
    rw [fld_ofNat _ _ _ _ hn]; apply ofNat_eq; omega
  clear hk hn
  generalize BitVec.ofNat 32 word = w at *
  simp [decodeScalar, zeroed, h26_6, h21_5, h16_5, h11_5, h8_3, h5_3, h4_1, h0_4]
theorem fence (scope : BitVec 2) (kind : BitVec 2) : Statement (.fence scope kind) := by
  have := scope.isLt
  have := kind.isLt
  obtain ⟨word, hk⟩ : ∃ word, word = encSR 42 0 0 0 (scope.toNat * 4 + kind.toNat) := ⟨_, rfl⟩
  refine scalar_of (n := word) (by rw [hk]; rfl) ?_
  simp only [encSR, show (0 : SReg).toNat = 0 from rfl] at hk
  have hn : word < 2 ^ 32 := by omega
  have h26_6 : fld (BitVec.ofNat 32 word) 26 6 = 42 := by
    rw [fld_ofNat _ _ _ _ hn]; apply ofNat_eq; rw [show (42 : BitVec 6).toNat = 42 from rfl]; omega
  have h21_5 : fld (BitVec.ofNat 32 word) 21 5 = 0 := by
    rw [fld_ofNat _ _ _ _ hn]; apply ofNat_eq; rw [show (0 : BitVec 5).toNat = 0 from rfl]; omega
  have h16_5 : fld (BitVec.ofNat 32 word) 16 5 = 0 := by
    rw [fld_ofNat _ _ _ _ hn]; apply ofNat_eq; rw [show (0 : BitVec 5).toNat = 0 from rfl]; omega
  have h11_5 : fld (BitVec.ofNat 32 word) 11 5 = 0 := by
    rw [fld_ofNat _ _ _ _ hn]; apply ofNat_eq; rw [show (0 : BitVec 5).toNat = 0 from rfl]; omega
  have h4_7 : fld (BitVec.ofNat 32 word) 4 7 = 0 := by
    rw [fld_ofNat _ _ _ _ hn]; apply ofNat_eq; rw [show (0 : BitVec 7).toNat = 0 from rfl]; omega
  have h2_2 : fld (BitVec.ofNat 32 word) 2 2 = scope := by
    rw [fld_ofNat _ _ _ _ hn]; apply ofNat_eq; omega
  have h0_2 : fld (BitVec.ofNat 32 word) 0 2 = kind := by
    rw [fld_ofNat _ _ _ _ hn]; apply ofNat_eq; omega
  clear hk hn
  generalize BitVec.ofNat 32 word = w at *
  simp [decodeScalar, zeroed, h26_6, h21_5, h16_5, h11_5, h4_7, h2_2, h0_2]
theorem syncinit (a : SReg) (b : SReg) (ctr : BitVec 1) (scope : BitVec 2) : Statement (.syncinit a b ctr scope) := by
  have := a.isLt
  have := b.isLt
  have := ctr.isLt
  have := scope.isLt
  obtain ⟨word, hk⟩ : ∃ word, word = encSR 43 0 a b (ctr.toNat * 64 + scope.toNat * 16) := ⟨_, rfl⟩
  refine scalar_of (n := word) (by rw [hk]; rfl) ?_
  simp only [encSR, show (0 : SReg).toNat = 0 from rfl] at hk
  have hn : word < 2 ^ 32 := by omega
  have h26_6 : fld (BitVec.ofNat 32 word) 26 6 = 43 := by
    rw [fld_ofNat _ _ _ _ hn]; apply ofNat_eq; rw [show (43 : BitVec 6).toNat = 43 from rfl]; omega
  have h21_5 : fld (BitVec.ofNat 32 word) 21 5 = 0 := by
    rw [fld_ofNat _ _ _ _ hn]; apply ofNat_eq; rw [show (0 : BitVec 5).toNat = 0 from rfl]; omega
  have h16_5 : fld (BitVec.ofNat 32 word) 16 5 = a := by
    rw [fld_ofNat _ _ _ _ hn]; apply ofNat_eq; omega
  have h11_5 : fld (BitVec.ofNat 32 word) 11 5 = b := by
    rw [fld_ofNat _ _ _ _ hn]; apply ofNat_eq; omega
  have h4_2 : fld (BitVec.ofNat 32 word) 4 2 = scope := by
    rw [fld_ofNat _ _ _ _ hn]; apply ofNat_eq; omega
  have h6_1 : fld (BitVec.ofNat 32 word) 6 1 = ctr := by
    rw [fld_ofNat _ _ _ _ hn]; apply ofNat_eq; omega
  have h7_4 : fld (BitVec.ofNat 32 word) 7 4 = 0 := by
    rw [fld_ofNat _ _ _ _ hn]; apply ofNat_eq; rw [show (0 : BitVec 4).toNat = 0 from rfl]; omega
  have h0_4 : fld (BitVec.ofNat 32 word) 0 4 = 0 := by
    rw [fld_ofNat _ _ _ _ hn]; apply ofNat_eq; rw [show (0 : BitVec 4).toNat = 0 from rfl]; omega
  clear hk hn
  generalize BitVec.ofNat 32 word = w at *
  simp [decodeScalar, decodeSync, zeroed, h26_6, h21_5, h16_5, h11_5, h4_2, h6_1, h7_4, h0_4]
theorem syncfree (a : SReg) (scope : BitVec 2) : Statement (.syncfree a scope) := by
  have := a.isLt
  have := scope.isLt
  obtain ⟨word, hk⟩ : ∃ word, word = encSR 43 0 a 0 (scope.toNat * 16 + 1) := ⟨_, rfl⟩
  refine scalar_of (n := word) (by rw [hk]; rfl) ?_
  simp only [encSR, show (0 : SReg).toNat = 0 from rfl] at hk
  have hn : word < 2 ^ 32 := by omega
  have h26_6 : fld (BitVec.ofNat 32 word) 26 6 = 43 := by
    rw [fld_ofNat _ _ _ _ hn]; apply ofNat_eq; rw [show (43 : BitVec 6).toNat = 43 from rfl]; omega
  have h21_5 : fld (BitVec.ofNat 32 word) 21 5 = 0 := by
    rw [fld_ofNat _ _ _ _ hn]; apply ofNat_eq; rw [show (0 : BitVec 5).toNat = 0 from rfl]; omega
  have h16_5 : fld (BitVec.ofNat 32 word) 16 5 = a := by
    rw [fld_ofNat _ _ _ _ hn]; apply ofNat_eq; omega
  have h11_5 : fld (BitVec.ofNat 32 word) 11 5 = 0 := by
    rw [fld_ofNat _ _ _ _ hn]; apply ofNat_eq; rw [show (0 : BitVec 5).toNat = 0 from rfl]; omega
  have h4_2 : fld (BitVec.ofNat 32 word) 4 2 = scope := by
    rw [fld_ofNat _ _ _ _ hn]; apply ofNat_eq; omega
  have h6_1 : fld (BitVec.ofNat 32 word) 6 1 = 0 := by
    rw [fld_ofNat _ _ _ _ hn]; apply ofNat_eq; rw [show (0 : BitVec 1).toNat = 0 from rfl]; omega
  have h7_4 : fld (BitVec.ofNat 32 word) 7 4 = 0 := by
    rw [fld_ofNat _ _ _ _ hn]; apply ofNat_eq; rw [show (0 : BitVec 4).toNat = 0 from rfl]; omega
  have h0_4 : fld (BitVec.ofNat 32 word) 0 4 = 1 := by
    rw [fld_ofNat _ _ _ _ hn]; apply ofNat_eq; rw [show (1 : BitVec 4).toNat = 1 from rfl]; omega
  clear hk hn
  generalize BitVec.ofNat 32 word = w at *
  simp [decodeScalar, decodeSync, zeroed, h26_6, h21_5, h16_5, h11_5, h4_2, h6_1, h7_4, h0_4]
theorem arrive (d : SReg) (a : SReg) (b : SReg) (scope : BitVec 2) : Statement (.arrive d a b scope) := by
  have := d.isLt
  have := a.isLt
  have := b.isLt
  have := scope.isLt
  obtain ⟨word, hk⟩ : ∃ word, word = encSR 43 d a b (scope.toNat * 16 + 2) := ⟨_, rfl⟩
  refine scalar_of (n := word) (by rw [hk]; rfl) ?_
  simp only [encSR] at hk
  have hn : word < 2 ^ 32 := by omega
  have h26_6 : fld (BitVec.ofNat 32 word) 26 6 = 43 := by
    rw [fld_ofNat _ _ _ _ hn]; apply ofNat_eq; rw [show (43 : BitVec 6).toNat = 43 from rfl]; omega
  have h21_5 : fld (BitVec.ofNat 32 word) 21 5 = d := by
    rw [fld_ofNat _ _ _ _ hn]; apply ofNat_eq; omega
  have h16_5 : fld (BitVec.ofNat 32 word) 16 5 = a := by
    rw [fld_ofNat _ _ _ _ hn]; apply ofNat_eq; omega
  have h11_5 : fld (BitVec.ofNat 32 word) 11 5 = b := by
    rw [fld_ofNat _ _ _ _ hn]; apply ofNat_eq; omega
  have h4_2 : fld (BitVec.ofNat 32 word) 4 2 = scope := by
    rw [fld_ofNat _ _ _ _ hn]; apply ofNat_eq; omega
  have h6_1 : fld (BitVec.ofNat 32 word) 6 1 = 0 := by
    rw [fld_ofNat _ _ _ _ hn]; apply ofNat_eq; rw [show (0 : BitVec 1).toNat = 0 from rfl]; omega
  have h7_4 : fld (BitVec.ofNat 32 word) 7 4 = 0 := by
    rw [fld_ofNat _ _ _ _ hn]; apply ofNat_eq; rw [show (0 : BitVec 4).toNat = 0 from rfl]; omega
  have h0_4 : fld (BitVec.ofNat 32 word) 0 4 = 2 := by
    rw [fld_ofNat _ _ _ _ hn]; apply ofNat_eq; rw [show (2 : BitVec 4).toNat = 2 from rfl]; omega
  clear hk hn
  generalize BitVec.ofNat 32 word = w at *
  simp [decodeScalar, decodeSync, zeroed, h26_6, h21_5, h16_5, h11_5, h4_2, h6_1, h7_4, h0_4]
theorem bwait (a : SReg) (b : SReg) (scope : BitVec 2) : Statement (.bwait a b scope) := by
  have := a.isLt
  have := b.isLt
  have := scope.isLt
  obtain ⟨word, hk⟩ : ∃ word, word = encSR 43 0 a b (scope.toNat * 16 + 3) := ⟨_, rfl⟩
  refine scalar_of (n := word) (by rw [hk]; rfl) ?_
  simp only [encSR, show (0 : SReg).toNat = 0 from rfl] at hk
  have hn : word < 2 ^ 32 := by omega
  have h26_6 : fld (BitVec.ofNat 32 word) 26 6 = 43 := by
    rw [fld_ofNat _ _ _ _ hn]; apply ofNat_eq; rw [show (43 : BitVec 6).toNat = 43 from rfl]; omega
  have h21_5 : fld (BitVec.ofNat 32 word) 21 5 = 0 := by
    rw [fld_ofNat _ _ _ _ hn]; apply ofNat_eq; rw [show (0 : BitVec 5).toNat = 0 from rfl]; omega
  have h16_5 : fld (BitVec.ofNat 32 word) 16 5 = a := by
    rw [fld_ofNat _ _ _ _ hn]; apply ofNat_eq; omega
  have h11_5 : fld (BitVec.ofNat 32 word) 11 5 = b := by
    rw [fld_ofNat _ _ _ _ hn]; apply ofNat_eq; omega
  have h4_2 : fld (BitVec.ofNat 32 word) 4 2 = scope := by
    rw [fld_ofNat _ _ _ _ hn]; apply ofNat_eq; omega
  have h6_1 : fld (BitVec.ofNat 32 word) 6 1 = 0 := by
    rw [fld_ofNat _ _ _ _ hn]; apply ofNat_eq; rw [show (0 : BitVec 1).toNat = 0 from rfl]; omega
  have h7_4 : fld (BitVec.ofNat 32 word) 7 4 = 0 := by
    rw [fld_ofNat _ _ _ _ hn]; apply ofNat_eq; rw [show (0 : BitVec 4).toNat = 0 from rfl]; omega
  have h0_4 : fld (BitVec.ofNat 32 word) 0 4 = 3 := by
    rw [fld_ofNat _ _ _ _ hn]; apply ofNat_eq; rw [show (3 : BitVec 4).toNat = 3 from rfl]; omega
  clear hk hn
  generalize BitVec.ofNat 32 word = w at *
  simp [decodeScalar, decodeSync, zeroed, h26_6, h21_5, h16_5, h11_5, h4_2, h6_1, h7_4, h0_4]
theorem waittl (a : SReg) (b : SReg) (scope : BitVec 2) : Statement (.waittl a b scope) := by
  have := a.isLt
  have := b.isLt
  have := scope.isLt
  obtain ⟨word, hk⟩ : ∃ word, word = encSR 43 0 a b (scope.toNat * 16 + 5) := ⟨_, rfl⟩
  refine scalar_of (n := word) (by rw [hk]; rfl) ?_
  simp only [encSR, show (0 : SReg).toNat = 0 from rfl] at hk
  have hn : word < 2 ^ 32 := by omega
  have h26_6 : fld (BitVec.ofNat 32 word) 26 6 = 43 := by
    rw [fld_ofNat _ _ _ _ hn]; apply ofNat_eq; rw [show (43 : BitVec 6).toNat = 43 from rfl]; omega
  have h21_5 : fld (BitVec.ofNat 32 word) 21 5 = 0 := by
    rw [fld_ofNat _ _ _ _ hn]; apply ofNat_eq; rw [show (0 : BitVec 5).toNat = 0 from rfl]; omega
  have h16_5 : fld (BitVec.ofNat 32 word) 16 5 = a := by
    rw [fld_ofNat _ _ _ _ hn]; apply ofNat_eq; omega
  have h11_5 : fld (BitVec.ofNat 32 word) 11 5 = b := by
    rw [fld_ofNat _ _ _ _ hn]; apply ofNat_eq; omega
  have h4_2 : fld (BitVec.ofNat 32 word) 4 2 = scope := by
    rw [fld_ofNat _ _ _ _ hn]; apply ofNat_eq; omega
  have h6_1 : fld (BitVec.ofNat 32 word) 6 1 = 0 := by
    rw [fld_ofNat _ _ _ _ hn]; apply ofNat_eq; rw [show (0 : BitVec 1).toNat = 0 from rfl]; omega
  have h7_4 : fld (BitVec.ofNat 32 word) 7 4 = 0 := by
    rw [fld_ofNat _ _ _ _ hn]; apply ofNat_eq; rw [show (0 : BitVec 4).toNat = 0 from rfl]; omega
  have h0_4 : fld (BitVec.ofNat 32 word) 0 4 = 5 := by
    rw [fld_ofNat _ _ _ _ hn]; apply ofNat_eq; rw [show (5 : BitVec 4).toNat = 5 from rfl]; omega
  clear hk hn
  generalize BitVec.ofNat 32 word = w at *
  simp [decodeScalar, decodeSync, zeroed, h26_6, h21_5, h16_5, h11_5, h4_2, h6_1, h7_4, h0_4]
theorem spawn (d : SReg) (a : SReg) : Statement (.spawn d a) := by
  have := d.isLt
  have := a.isLt
  obtain ⟨word, hk⟩ : ∃ word, word = encSR 44 d a 0 0 := ⟨_, rfl⟩
  refine scalar_of (n := word) (by rw [hk]; rfl) ?_
  simp only [encSR, show (0 : SReg).toNat = 0 from rfl] at hk
  have hn : word < 2 ^ 32 := by omega
  have h26_6 : fld (BitVec.ofNat 32 word) 26 6 = 44 := by
    rw [fld_ofNat _ _ _ _ hn]; apply ofNat_eq; rw [show (44 : BitVec 6).toNat = 44 from rfl]; omega
  have h21_5 : fld (BitVec.ofNat 32 word) 21 5 = d := by
    rw [fld_ofNat _ _ _ _ hn]; apply ofNat_eq; omega
  have h16_5 : fld (BitVec.ofNat 32 word) 16 5 = a := by
    rw [fld_ofNat _ _ _ _ hn]; apply ofNat_eq; omega
  have h11_5 : fld (BitVec.ofNat 32 word) 11 5 = 0 := by
    rw [fld_ofNat _ _ _ _ hn]; apply ofNat_eq; rw [show (0 : BitVec 5).toNat = 0 from rfl]; omega
  have h0_16 : fld (BitVec.ofNat 32 word) 0 16 = 0 := by
    rw [fld_ofNat _ _ _ _ hn]; apply ofNat_eq; rw [show (0 : BitVec 16).toNat = 0 from rfl]; omega
  have h0_11 : fld (BitVec.ofNat 32 word) 0 11 = 0 := by
    rw [fld_ofNat _ _ _ _ hn]; apply ofNat_eq; rw [show (0 : BitVec 11).toNat = 0 from rfl]; omega
  clear hk hn
  generalize BitVec.ofNat 32 word = w at *
  simp [decodeScalar, zeroed, h26_6, h21_5, h16_5, h11_5, h0_16, h0_11]
theorem cfetch (a : SReg) (k : BitVec 3) (slot : BitVec 5) : Statement (.cfetch a k slot) := by
  have := a.isLt
  have := k.isLt
  have := slot.isLt
  obtain ⟨word, hk⟩ : ∃ word, word = encSR 45 0 a 0 (k.toNat * 32 + slot.toNat) := ⟨_, rfl⟩
  refine scalar_of (n := word) (by rw [hk]; rfl) ?_
  simp only [encSR, show (0 : SReg).toNat = 0 from rfl] at hk
  have hn : word < 2 ^ 32 := by omega
  have h26_6 : fld (BitVec.ofNat 32 word) 26 6 = 45 := by
    rw [fld_ofNat _ _ _ _ hn]; apply ofNat_eq; rw [show (45 : BitVec 6).toNat = 45 from rfl]; omega
  have h21_5 : fld (BitVec.ofNat 32 word) 21 5 = 0 := by
    rw [fld_ofNat _ _ _ _ hn]; apply ofNat_eq; rw [show (0 : BitVec 5).toNat = 0 from rfl]; omega
  have h16_5 : fld (BitVec.ofNat 32 word) 16 5 = a := by
    rw [fld_ofNat _ _ _ _ hn]; apply ofNat_eq; omega
  have h11_5 : fld (BitVec.ofNat 32 word) 11 5 = 0 := by
    rw [fld_ofNat _ _ _ _ hn]; apply ofNat_eq; rw [show (0 : BitVec 5).toNat = 0 from rfl]; omega
  have h8_3 : fld (BitVec.ofNat 32 word) 8 3 = 0 := by
    rw [fld_ofNat _ _ _ _ hn]; apply ofNat_eq; rw [show (0 : BitVec 3).toNat = 0 from rfl]; omega
  have h5_3 : fld (BitVec.ofNat 32 word) 5 3 = k := by
    rw [fld_ofNat _ _ _ _ hn]; apply ofNat_eq; omega
  have h0_5 : fld (BitVec.ofNat 32 word) 0 5 = slot := by
    rw [fld_ofNat _ _ _ _ hn]; apply ofNat_eq; omega
  clear hk hn
  generalize BitVec.ofNat 32 word = w at *
  simp [decodeScalar, zeroed, h26_6, h21_5, h16_5, h11_5, h8_3, h5_3, h0_5]
theorem pin (a : SReg) (b : SReg) : Statement (.pin a b) := by
  have := a.isLt
  have := b.isLt
  obtain ⟨word, hk⟩ : ∃ word, word = encSR 46 0 a b 1 := ⟨_, rfl⟩
  refine scalar_of (n := word) (by rw [hk]; rfl) ?_
  simp only [encSR, show (0 : SReg).toNat = 0 from rfl] at hk
  have hn : word < 2 ^ 32 := by omega
  have h26_6 : fld (BitVec.ofNat 32 word) 26 6 = 46 := by
    rw [fld_ofNat _ _ _ _ hn]; apply ofNat_eq; rw [show (46 : BitVec 6).toNat = 46 from rfl]; omega
  have h21_5 : fld (BitVec.ofNat 32 word) 21 5 = 0 := by
    rw [fld_ofNat _ _ _ _ hn]; apply ofNat_eq; rw [show (0 : BitVec 5).toNat = 0 from rfl]; omega
  have h16_5 : fld (BitVec.ofNat 32 word) 16 5 = a := by
    rw [fld_ofNat _ _ _ _ hn]; apply ofNat_eq; omega
  have h11_5 : fld (BitVec.ofNat 32 word) 11 5 = b := by
    rw [fld_ofNat _ _ _ _ hn]; apply ofNat_eq; omega
  have h4_7 : fld (BitVec.ofNat 32 word) 4 7 = 0 := by
    rw [fld_ofNat _ _ _ _ hn]; apply ofNat_eq; rw [show (0 : BitVec 7).toNat = 0 from rfl]; omega
  have h0_4 : fld (BitVec.ofNat 32 word) 0 4 = 1 := by
    rw [fld_ofNat _ _ _ _ hn]; apply ofNat_eq; rw [show (1 : BitVec 4).toNat = 1 from rfl]; omega
  clear hk hn
  generalize BitVec.ofNat 32 word = w at *
  simp [decodeScalar, decodeMemctl, zeroed, h26_6, h21_5, h16_5, h11_5, h4_7, h0_4]
theorem unpin (a : SReg) (b : SReg) : Statement (.unpin a b) := by
  have := a.isLt
  have := b.isLt
  obtain ⟨word, hk⟩ : ∃ word, word = encSR 46 0 a b 2 := ⟨_, rfl⟩
  refine scalar_of (n := word) (by rw [hk]; rfl) ?_
  simp only [encSR, show (0 : SReg).toNat = 0 from rfl] at hk
  have hn : word < 2 ^ 32 := by omega
  have h26_6 : fld (BitVec.ofNat 32 word) 26 6 = 46 := by
    rw [fld_ofNat _ _ _ _ hn]; apply ofNat_eq; rw [show (46 : BitVec 6).toNat = 46 from rfl]; omega
  have h21_5 : fld (BitVec.ofNat 32 word) 21 5 = 0 := by
    rw [fld_ofNat _ _ _ _ hn]; apply ofNat_eq; rw [show (0 : BitVec 5).toNat = 0 from rfl]; omega
  have h16_5 : fld (BitVec.ofNat 32 word) 16 5 = a := by
    rw [fld_ofNat _ _ _ _ hn]; apply ofNat_eq; omega
  have h11_5 : fld (BitVec.ofNat 32 word) 11 5 = b := by
    rw [fld_ofNat _ _ _ _ hn]; apply ofNat_eq; omega
  have h4_7 : fld (BitVec.ofNat 32 word) 4 7 = 0 := by
    rw [fld_ofNat _ _ _ _ hn]; apply ofNat_eq; rw [show (0 : BitVec 7).toNat = 0 from rfl]; omega
  have h0_4 : fld (BitVec.ofNat 32 word) 0 4 = 2 := by
    rw [fld_ofNat _ _ _ _ hn]; apply ofNat_eq; rw [show (2 : BitVec 4).toNat = 2 from rfl]; omega
  clear hk hn
  generalize BitVec.ofNat 32 word = w at *
  simp [decodeScalar, decodeMemctl, zeroed, h26_6, h21_5, h16_5, h11_5, h4_7, h0_4]
theorem wspill (a : SReg) (b : SReg) : Statement (.wspill a b) := by
  have := a.isLt
  have := b.isLt
  obtain ⟨word, hk⟩ : ∃ word, word = encSR 46 0 a b 3 := ⟨_, rfl⟩
  refine scalar_of (n := word) (by rw [hk]; rfl) ?_
  simp only [encSR, show (0 : SReg).toNat = 0 from rfl] at hk
  have hn : word < 2 ^ 32 := by omega
  have h26_6 : fld (BitVec.ofNat 32 word) 26 6 = 46 := by
    rw [fld_ofNat _ _ _ _ hn]; apply ofNat_eq; rw [show (46 : BitVec 6).toNat = 46 from rfl]; omega
  have h21_5 : fld (BitVec.ofNat 32 word) 21 5 = 0 := by
    rw [fld_ofNat _ _ _ _ hn]; apply ofNat_eq; rw [show (0 : BitVec 5).toNat = 0 from rfl]; omega
  have h16_5 : fld (BitVec.ofNat 32 word) 16 5 = a := by
    rw [fld_ofNat _ _ _ _ hn]; apply ofNat_eq; omega
  have h11_5 : fld (BitVec.ofNat 32 word) 11 5 = b := by
    rw [fld_ofNat _ _ _ _ hn]; apply ofNat_eq; omega
  have h4_7 : fld (BitVec.ofNat 32 word) 4 7 = 0 := by
    rw [fld_ofNat _ _ _ _ hn]; apply ofNat_eq; rw [show (0 : BitVec 7).toNat = 0 from rfl]; omega
  have h0_4 : fld (BitVec.ofNat 32 word) 0 4 = 3 := by
    rw [fld_ofNat _ _ _ _ hn]; apply ofNat_eq; rw [show (3 : BitVec 4).toNat = 3 from rfl]; omega
  clear hk hn
  generalize BitVec.ofNat 32 word = w at *
  simp [decodeScalar, decodeMemctl, zeroed, h26_6, h21_5, h16_5, h11_5, h4_7, h0_4]
theorem wfill (a : SReg) (b : SReg) : Statement (.wfill a b) := by
  have := a.isLt
  have := b.isLt
  obtain ⟨word, hk⟩ : ∃ word, word = encSR 46 0 a b 4 := ⟨_, rfl⟩
  refine scalar_of (n := word) (by rw [hk]; rfl) ?_
  simp only [encSR, show (0 : SReg).toNat = 0 from rfl] at hk
  have hn : word < 2 ^ 32 := by omega
  have h26_6 : fld (BitVec.ofNat 32 word) 26 6 = 46 := by
    rw [fld_ofNat _ _ _ _ hn]; apply ofNat_eq; rw [show (46 : BitVec 6).toNat = 46 from rfl]; omega
  have h21_5 : fld (BitVec.ofNat 32 word) 21 5 = 0 := by
    rw [fld_ofNat _ _ _ _ hn]; apply ofNat_eq; rw [show (0 : BitVec 5).toNat = 0 from rfl]; omega
  have h16_5 : fld (BitVec.ofNat 32 word) 16 5 = a := by
    rw [fld_ofNat _ _ _ _ hn]; apply ofNat_eq; omega
  have h11_5 : fld (BitVec.ofNat 32 word) 11 5 = b := by
    rw [fld_ofNat _ _ _ _ hn]; apply ofNat_eq; omega
  have h4_7 : fld (BitVec.ofNat 32 word) 4 7 = 0 := by
    rw [fld_ofNat _ _ _ _ hn]; apply ofNat_eq; rw [show (0 : BitVec 7).toNat = 0 from rfl]; omega
  have h0_4 : fld (BitVec.ofNat 32 word) 0 4 = 4 := by
    rw [fld_ofNat _ _ _ _ hn]; apply ofNat_eq; rw [show (4 : BitVec 4).toNat = 4 from rfl]; omega
  clear hk hn
  generalize BitVec.ofNat 32 word = w at *
  simp [decodeScalar, decodeMemctl, zeroed, h26_6, h21_5, h16_5, h11_5, h4_7, h0_4]
theorem copy (d : SReg) (a : SReg) (b : SReg) (cls : BitVec 2) (q : BitVec 2) (op : BitVec 4) (k : BitVec 3) : Statement (.copy d a b cls q op k) := by
  have := d.isLt
  have := a.isLt
  have := b.isLt
  have := cls.isLt
  have := q.isLt
  have := op.isLt
  have := k.isLt
  obtain ⟨word, hk⟩ : ∃ word, word = encSR 47 d a b (cls.toNat * 512 + q.toNat * 128 + op.toNat * 8 + k.toNat) := ⟨_, rfl⟩
  refine scalar_of (n := word) (by rw [hk]; rfl) ?_
  simp only [encSR] at hk
  have hn : word < 2 ^ 32 := by omega
  have h26_6 : fld (BitVec.ofNat 32 word) 26 6 = 47 := by
    rw [fld_ofNat _ _ _ _ hn]; apply ofNat_eq; rw [show (47 : BitVec 6).toNat = 47 from rfl]; omega
  have h21_5 : fld (BitVec.ofNat 32 word) 21 5 = d := by
    rw [fld_ofNat _ _ _ _ hn]; apply ofNat_eq; omega
  have h16_5 : fld (BitVec.ofNat 32 word) 16 5 = a := by
    rw [fld_ofNat _ _ _ _ hn]; apply ofNat_eq; omega
  have h11_5 : fld (BitVec.ofNat 32 word) 11 5 = b := by
    rw [fld_ofNat _ _ _ _ hn]; apply ofNat_eq; omega
  have h9_2 : fld (BitVec.ofNat 32 word) 9 2 = cls := by
    rw [fld_ofNat _ _ _ _ hn]; apply ofNat_eq; omega
  have h7_2 : fld (BitVec.ofNat 32 word) 7 2 = q := by
    rw [fld_ofNat _ _ _ _ hn]; apply ofNat_eq; omega
  have h3_4 : fld (BitVec.ofNat 32 word) 3 4 = op := by
    rw [fld_ofNat _ _ _ _ hn]; apply ofNat_eq; omega
  have h0_3 : fld (BitVec.ofNat 32 word) 0 3 = k := by
    rw [fld_ofNat _ _ _ _ hn]; apply ofNat_eq; omega
  clear hk hn
  generalize BitVec.ofNat 32 word = w at *
  simp [decodeScalar, zeroed, h26_6, h21_5, h16_5, h11_5, h9_2, h7_2, h3_4, h0_3]
theorem tcopy (d : SReg) (a : SReg) (b : SReg) (cls : BitVec 2) (q : BitVec 2) (op : BitVec 4) (k : BitVec 3) : Statement (.tcopy d a b cls q op k) := by
  have := d.isLt
  have := a.isLt
  have := b.isLt
  have := cls.isLt
  have := q.isLt
  have := op.isLt
  have := k.isLt
  obtain ⟨word, hk⟩ : ∃ word, word = encSR 48 d a b (cls.toNat * 512 + q.toNat * 128 + op.toNat * 8 + k.toNat) := ⟨_, rfl⟩
  refine scalar_of (n := word) (by rw [hk]; rfl) ?_
  simp only [encSR] at hk
  have hn : word < 2 ^ 32 := by omega
  have h26_6 : fld (BitVec.ofNat 32 word) 26 6 = 48 := by
    rw [fld_ofNat _ _ _ _ hn]; apply ofNat_eq; rw [show (48 : BitVec 6).toNat = 48 from rfl]; omega
  have h21_5 : fld (BitVec.ofNat 32 word) 21 5 = d := by
    rw [fld_ofNat _ _ _ _ hn]; apply ofNat_eq; omega
  have h16_5 : fld (BitVec.ofNat 32 word) 16 5 = a := by
    rw [fld_ofNat _ _ _ _ hn]; apply ofNat_eq; omega
  have h11_5 : fld (BitVec.ofNat 32 word) 11 5 = b := by
    rw [fld_ofNat _ _ _ _ hn]; apply ofNat_eq; omega
  have h9_2 : fld (BitVec.ofNat 32 word) 9 2 = cls := by
    rw [fld_ofNat _ _ _ _ hn]; apply ofNat_eq; omega
  have h7_2 : fld (BitVec.ofNat 32 word) 7 2 = q := by
    rw [fld_ofNat _ _ _ _ hn]; apply ofNat_eq; omega
  have h3_4 : fld (BitVec.ofNat 32 word) 3 4 = op := by
    rw [fld_ofNat _ _ _ _ hn]; apply ofNat_eq; omega
  have h0_3 : fld (BitVec.ofNat 32 word) 0 3 = k := by
    rw [fld_ofNat _ _ _ _ hn]; apply ofNat_eq; omega
  clear hk hn
  generalize BitVec.ofNat 32 word = w at *
  simp [decodeScalar, zeroed, h26_6, h21_5, h16_5, h11_5, h9_2, h7_2, h3_4, h0_3]
theorem gcopy (d : SReg) (a : SReg) (b : SReg) (cls : BitVec 2) (q : BitVec 2) (k : BitVec 3) : Statement (.gcopy d a b cls q k) := by
  have := d.isLt
  have := a.isLt
  have := b.isLt
  have := cls.isLt
  have := q.isLt
  have := k.isLt
  obtain ⟨word, hk⟩ : ∃ word, word = encSR 49 d a b (cls.toNat * 512 + q.toNat * 128 + k.toNat) := ⟨_, rfl⟩
  refine scalar_of (n := word) (by rw [hk]; rfl) ?_
  simp only [encSR] at hk
  have hn : word < 2 ^ 32 := by omega
  have h26_6 : fld (BitVec.ofNat 32 word) 26 6 = 49 := by
    rw [fld_ofNat _ _ _ _ hn]; apply ofNat_eq; rw [show (49 : BitVec 6).toNat = 49 from rfl]; omega
  have h21_5 : fld (BitVec.ofNat 32 word) 21 5 = d := by
    rw [fld_ofNat _ _ _ _ hn]; apply ofNat_eq; omega
  have h16_5 : fld (BitVec.ofNat 32 word) 16 5 = a := by
    rw [fld_ofNat _ _ _ _ hn]; apply ofNat_eq; omega
  have h11_5 : fld (BitVec.ofNat 32 word) 11 5 = b := by
    rw [fld_ofNat _ _ _ _ hn]; apply ofNat_eq; omega
  have h3_4 : fld (BitVec.ofNat 32 word) 3 4 = 0 := by
    rw [fld_ofNat _ _ _ _ hn]; apply ofNat_eq; rw [show (0 : BitVec 4).toNat = 0 from rfl]; omega
  have h9_2 : fld (BitVec.ofNat 32 word) 9 2 = cls := by
    rw [fld_ofNat _ _ _ _ hn]; apply ofNat_eq; omega
  have h7_2 : fld (BitVec.ofNat 32 word) 7 2 = q := by
    rw [fld_ofNat _ _ _ _ hn]; apply ofNat_eq; omega
  have h0_3 : fld (BitVec.ofNat 32 word) 0 3 = k := by
    rw [fld_ofNat _ _ _ _ hn]; apply ofNat_eq; omega
  clear hk hn
  generalize BitVec.ofNat 32 word = w at *
  simp [decodeScalar, zeroed, h26_6, h21_5, h16_5, h11_5, h3_4, h9_2, h7_2, h0_3]
theorem coll (d : SReg) (a : SReg) (red : BitVec 3) (op : BitVec 4) (tile : BitVec 4) : Statement (.coll d a red op tile) := by
  have := d.isLt
  have := a.isLt
  have := red.isLt
  have := op.isLt
  have := tile.isLt
  obtain ⟨word, hk⟩ : ∃ word, word = encSR 50 d a 0 (red.toNat * 256 + op.toNat * 16 + tile.toNat) := ⟨_, rfl⟩
  refine scalar_of (n := word) (by rw [hk]; rfl) ?_
  simp only [encSR, show (0 : SReg).toNat = 0 from rfl] at hk
  have hn : word < 2 ^ 32 := by omega
  have h26_6 : fld (BitVec.ofNat 32 word) 26 6 = 50 := by
    rw [fld_ofNat _ _ _ _ hn]; apply ofNat_eq; rw [show (50 : BitVec 6).toNat = 50 from rfl]; omega
  have h21_5 : fld (BitVec.ofNat 32 word) 21 5 = d := by
    rw [fld_ofNat _ _ _ _ hn]; apply ofNat_eq; omega
  have h16_5 : fld (BitVec.ofNat 32 word) 16 5 = a := by
    rw [fld_ofNat _ _ _ _ hn]; apply ofNat_eq; omega
  have h11_5 : fld (BitVec.ofNat 32 word) 11 5 = 0 := by
    rw [fld_ofNat _ _ _ _ hn]; apply ofNat_eq; rw [show (0 : BitVec 5).toNat = 0 from rfl]; omega
  have h8_3 : fld (BitVec.ofNat 32 word) 8 3 = red := by
    rw [fld_ofNat _ _ _ _ hn]; apply ofNat_eq; omega
  have h4_4 : fld (BitVec.ofNat 32 word) 4 4 = op := by
    rw [fld_ofNat _ _ _ _ hn]; apply ofNat_eq; omega
  have h0_4 : fld (BitVec.ofNat 32 word) 0 4 = tile := by
    rw [fld_ofNat _ _ _ _ hn]; apply ofNat_eq; omega
  clear hk hn
  generalize BitVec.ofNat 32 word = w at *
  simp [decodeScalar, zeroed, h26_6, h21_5, h16_5, h11_5, h8_3, h4_4, h0_4]
theorem tcfg (a : SReg) : Statement (.tcfg a) := by
  have := a.isLt
  obtain ⟨word, hk⟩ : ∃ word, word = encSR 51 0 a 0 0 := ⟨_, rfl⟩
  refine scalar_of (n := word) (by rw [hk]; rfl) ?_
  simp only [encSR, show (0 : SReg).toNat = 0 from rfl] at hk
  have hn : word < 2 ^ 32 := by omega
  have h26_6 : fld (BitVec.ofNat 32 word) 26 6 = 51 := by
    rw [fld_ofNat _ _ _ _ hn]; apply ofNat_eq; rw [show (51 : BitVec 6).toNat = 51 from rfl]; omega
  have h21_5 : fld (BitVec.ofNat 32 word) 21 5 = 0 := by
    rw [fld_ofNat _ _ _ _ hn]; apply ofNat_eq; rw [show (0 : BitVec 5).toNat = 0 from rfl]; omega
  have h16_5 : fld (BitVec.ofNat 32 word) 16 5 = a := by
    rw [fld_ofNat _ _ _ _ hn]; apply ofNat_eq; omega
  have h11_5 : fld (BitVec.ofNat 32 word) 11 5 = 0 := by
    rw [fld_ofNat _ _ _ _ hn]; apply ofNat_eq; rw [show (0 : BitVec 5).toNat = 0 from rfl]; omega
  have h4_4 : fld (BitVec.ofNat 32 word) 4 4 = 0 := by
    rw [fld_ofNat _ _ _ _ hn]; apply ofNat_eq; rw [show (0 : BitVec 4).toNat = 0 from rfl]; omega
  have h8_3 : fld (BitVec.ofNat 32 word) 8 3 = 0 := by
    rw [fld_ofNat _ _ _ _ hn]; apply ofNat_eq; rw [show (0 : BitVec 3).toNat = 0 from rfl]; omega
  have h21_1 : fld (BitVec.ofNat 32 word) 21 1 = 0 := by
    rw [fld_ofNat _ _ _ _ hn]; apply ofNat_eq; rw [show (0 : BitVec 1).toNat = 0 from rfl]; omega
  have h22_4 : fld (BitVec.ofNat 32 word) 22 4 = 0 := by
    rw [fld_ofNat _ _ _ _ hn]; apply ofNat_eq; rw [show (0 : BitVec 4).toNat = 0 from rfl]; omega
  have h0_4 : fld (BitVec.ofNat 32 word) 0 4 = 0 := by
    rw [fld_ofNat _ _ _ _ hn]; apply ofNat_eq; rw [show (0 : BitVec 4).toNat = 0 from rfl]; omega
  clear hk hn
  generalize BitVec.ofNat 32 word = w at *
  simp [decodeScalar, decodeMtx, zeroed, h26_6, h21_5, h16_5, h11_5, h4_4, h8_3, h21_1, h22_4, h0_4]
theorem tzero (tile : BitVec 4) : Statement (.tzero tile) := by
  have := tile.isLt
  obtain ⟨word, hk⟩ : ∃ word, word = encSR 51 0 0 0 (tile.toNat * 16 + 1) := ⟨_, rfl⟩
  refine scalar_of (n := word) (by rw [hk]; rfl) ?_
  simp only [encSR, show (0 : SReg).toNat = 0 from rfl] at hk
  have hn : word < 2 ^ 32 := by omega
  have h26_6 : fld (BitVec.ofNat 32 word) 26 6 = 51 := by
    rw [fld_ofNat _ _ _ _ hn]; apply ofNat_eq; rw [show (51 : BitVec 6).toNat = 51 from rfl]; omega
  have h21_5 : fld (BitVec.ofNat 32 word) 21 5 = 0 := by
    rw [fld_ofNat _ _ _ _ hn]; apply ofNat_eq; rw [show (0 : BitVec 5).toNat = 0 from rfl]; omega
  have h16_5 : fld (BitVec.ofNat 32 word) 16 5 = 0 := by
    rw [fld_ofNat _ _ _ _ hn]; apply ofNat_eq; rw [show (0 : BitVec 5).toNat = 0 from rfl]; omega
  have h11_5 : fld (BitVec.ofNat 32 word) 11 5 = 0 := by
    rw [fld_ofNat _ _ _ _ hn]; apply ofNat_eq; rw [show (0 : BitVec 5).toNat = 0 from rfl]; omega
  have h4_4 : fld (BitVec.ofNat 32 word) 4 4 = tile := by
    rw [fld_ofNat _ _ _ _ hn]; apply ofNat_eq; omega
  have h8_3 : fld (BitVec.ofNat 32 word) 8 3 = 0 := by
    rw [fld_ofNat _ _ _ _ hn]; apply ofNat_eq; rw [show (0 : BitVec 3).toNat = 0 from rfl]; omega
  have h21_1 : fld (BitVec.ofNat 32 word) 21 1 = 0 := by
    rw [fld_ofNat _ _ _ _ hn]; apply ofNat_eq; rw [show (0 : BitVec 1).toNat = 0 from rfl]; omega
  have h22_4 : fld (BitVec.ofNat 32 word) 22 4 = 0 := by
    rw [fld_ofNat _ _ _ _ hn]; apply ofNat_eq; rw [show (0 : BitVec 4).toNat = 0 from rfl]; omega
  have h0_4 : fld (BitVec.ofNat 32 word) 0 4 = 1 := by
    rw [fld_ofNat _ _ _ _ hn]; apply ofNat_eq; rw [show (1 : BitVec 4).toNat = 1 from rfl]; omega
  clear hk hn
  generalize BitVec.ofNat 32 word = w at *
  simp [decodeScalar, decodeMtx, zeroed, h26_6, h21_5, h16_5, h11_5, h4_4, h8_3, h21_1, h22_4, h0_4]
theorem tld (sat : BitVec 1) (a : SReg) (b : SReg) (rm : BitVec 3) (tile : BitVec 4) : Statement (.tld sat a b rm tile) := by
  have := sat.isLt
  have := a.isLt
  have := b.isLt
  have := rm.isLt
  have := tile.isLt
  obtain ⟨word, hk⟩ : ∃ word, word = 51 * 2 ^ 26 + sat.toNat * 2 ^ 21 + a.toNat * 2 ^ 16 + b.toNat * 2 ^ 11 + rm.toNat * 256 + tile.toNat * 16 + 2 := ⟨_, rfl⟩
  refine scalar_of (n := word) (by rw [hk]; rfl) ?_
  have hn : word < 2 ^ 32 := by omega
  have h26_6 : fld (BitVec.ofNat 32 word) 26 6 = 51 := by
    rw [fld_ofNat _ _ _ _ hn]; apply ofNat_eq; rw [show (51 : BitVec 6).toNat = 51 from rfl]; omega
  have h16_5 : fld (BitVec.ofNat 32 word) 16 5 = a := by
    rw [fld_ofNat _ _ _ _ hn]; apply ofNat_eq; omega
  have h11_5 : fld (BitVec.ofNat 32 word) 11 5 = b := by
    rw [fld_ofNat _ _ _ _ hn]; apply ofNat_eq; omega
  have h4_4 : fld (BitVec.ofNat 32 word) 4 4 = tile := by
    rw [fld_ofNat _ _ _ _ hn]; apply ofNat_eq; omega
  have h8_3 : fld (BitVec.ofNat 32 word) 8 3 = rm := by
    rw [fld_ofNat _ _ _ _ hn]; apply ofNat_eq; omega
  have h21_1 : fld (BitVec.ofNat 32 word) 21 1 = sat := by
    rw [fld_ofNat _ _ _ _ hn]; apply ofNat_eq; omega
  have h22_4 : fld (BitVec.ofNat 32 word) 22 4 = 0 := by
    rw [fld_ofNat _ _ _ _ hn]; apply ofNat_eq; rw [show (0 : BitVec 4).toNat = 0 from rfl]; omega
  have h0_4 : fld (BitVec.ofNat 32 word) 0 4 = 2 := by
    rw [fld_ofNat _ _ _ _ hn]; apply ofNat_eq; rw [show (2 : BitVec 4).toNat = 2 from rfl]; omega
  clear hk hn
  generalize BitVec.ofNat 32 word = w at *
  simp [decodeScalar, decodeMtx, zeroed, h26_6, h16_5, h11_5, h4_4, h8_3, h21_1, h22_4, h0_4]
theorem tst (sat : BitVec 1) (a : SReg) (b : SReg) (rm : BitVec 3) (tile : BitVec 4) : Statement (.tst sat a b rm tile) := by
  have := sat.isLt
  have := a.isLt
  have := b.isLt
  have := rm.isLt
  have := tile.isLt
  obtain ⟨word, hk⟩ : ∃ word, word = 51 * 2 ^ 26 + sat.toNat * 2 ^ 21 + a.toNat * 2 ^ 16 + b.toNat * 2 ^ 11 + rm.toNat * 256 + tile.toNat * 16 + 3 := ⟨_, rfl⟩
  refine scalar_of (n := word) (by rw [hk]; rfl) ?_
  have hn : word < 2 ^ 32 := by omega
  have h26_6 : fld (BitVec.ofNat 32 word) 26 6 = 51 := by
    rw [fld_ofNat _ _ _ _ hn]; apply ofNat_eq; rw [show (51 : BitVec 6).toNat = 51 from rfl]; omega
  have h16_5 : fld (BitVec.ofNat 32 word) 16 5 = a := by
    rw [fld_ofNat _ _ _ _ hn]; apply ofNat_eq; omega
  have h11_5 : fld (BitVec.ofNat 32 word) 11 5 = b := by
    rw [fld_ofNat _ _ _ _ hn]; apply ofNat_eq; omega
  have h4_4 : fld (BitVec.ofNat 32 word) 4 4 = tile := by
    rw [fld_ofNat _ _ _ _ hn]; apply ofNat_eq; omega
  have h8_3 : fld (BitVec.ofNat 32 word) 8 3 = rm := by
    rw [fld_ofNat _ _ _ _ hn]; apply ofNat_eq; omega
  have h21_1 : fld (BitVec.ofNat 32 word) 21 1 = sat := by
    rw [fld_ofNat _ _ _ _ hn]; apply ofNat_eq; omega
  have h22_4 : fld (BitVec.ofNat 32 word) 22 4 = 0 := by
    rw [fld_ofNat _ _ _ _ hn]; apply ofNat_eq; rw [show (0 : BitVec 4).toNat = 0 from rfl]; omega
  have h0_4 : fld (BitVec.ofNat 32 word) 0 4 = 3 := by
    rw [fld_ofNat _ _ _ _ hn]; apply ofNat_eq; rw [show (3 : BitVec 4).toNat = 3 from rfl]; omega
  clear hk hn
  generalize BitVec.ofNat 32 word = w at *
  simp [decodeScalar, decodeMtx, zeroed, h26_6, h16_5, h11_5, h4_4, h8_3, h21_1, h22_4, h0_4]
theorem mfence (d : SReg) : Statement (.mfence d) := by
  have := d.isLt
  obtain ⟨word, hk⟩ : ∃ word, word = encSR 51 d 0 0 4 := ⟨_, rfl⟩
  refine scalar_of (n := word) (by rw [hk]; rfl) ?_
  simp only [encSR, show (0 : SReg).toNat = 0 from rfl] at hk
  have hn : word < 2 ^ 32 := by omega
  have h26_6 : fld (BitVec.ofNat 32 word) 26 6 = 51 := by
    rw [fld_ofNat _ _ _ _ hn]; apply ofNat_eq; rw [show (51 : BitVec 6).toNat = 51 from rfl]; omega
  have h21_5 : fld (BitVec.ofNat 32 word) 21 5 = d := by
    rw [fld_ofNat _ _ _ _ hn]; apply ofNat_eq; omega
  have h16_5 : fld (BitVec.ofNat 32 word) 16 5 = 0 := by
    rw [fld_ofNat _ _ _ _ hn]; apply ofNat_eq; rw [show (0 : BitVec 5).toNat = 0 from rfl]; omega
  have h11_5 : fld (BitVec.ofNat 32 word) 11 5 = 0 := by
    rw [fld_ofNat _ _ _ _ hn]; apply ofNat_eq; rw [show (0 : BitVec 5).toNat = 0 from rfl]; omega
  have h4_4 : fld (BitVec.ofNat 32 word) 4 4 = 0 := by
    rw [fld_ofNat _ _ _ _ hn]; apply ofNat_eq; rw [show (0 : BitVec 4).toNat = 0 from rfl]; omega
  have h8_3 : fld (BitVec.ofNat 32 word) 8 3 = 0 := by
    rw [fld_ofNat _ _ _ _ hn]; apply ofNat_eq; rw [show (0 : BitVec 3).toNat = 0 from rfl]; omega
  have h0_4 : fld (BitVec.ofNat 32 word) 0 4 = 4 := by
    rw [fld_ofNat _ _ _ _ hn]; apply ofNat_eq; rw [show (4 : BitVec 4).toNat = 4 from rfl]; omega
  clear hk hn
  generalize BitVec.ofNat 32 word = w at *
  simp [decodeScalar, decodeMtx, zeroed, h26_6, h21_5, h16_5, h11_5, h4_4, h8_3, h0_4]
theorem mloop (tile : BitVec 4) (a : SReg) (b : SReg) (k : SReg) : Statement (.mloop tile a b k) := by
  have := tile.isLt
  have := a.isLt
  have := b.isLt
  have := k.isLt
  obtain ⟨word, hk⟩ : ∃ word, word = 52 * 2 ^ 26 + tile.toNat * 2 ^ 21 + a.toNat * 2 ^ 16 + b.toNat * 2 ^ 11 + k.toNat := ⟨_, rfl⟩
  refine scalar_of (n := word) (by rw [hk]; rfl) ?_
  have hn : word < 2 ^ 32 := by omega
  have h26_6 : fld (BitVec.ofNat 32 word) 26 6 = 52 := by
    rw [fld_ofNat _ _ _ _ hn]; apply ofNat_eq; rw [show (52 : BitVec 6).toNat = 52 from rfl]; omega
  have h16_5 : fld (BitVec.ofNat 32 word) 16 5 = a := by
    rw [fld_ofNat _ _ _ _ hn]; apply ofNat_eq; omega
  have h11_5 : fld (BitVec.ofNat 32 word) 11 5 = b := by
    rw [fld_ofNat _ _ _ _ hn]; apply ofNat_eq; omega
  have h25_1 : fld (BitVec.ofNat 32 word) 25 1 = 0 := by
    rw [fld_ofNat _ _ _ _ hn]; apply ofNat_eq; rw [show (0 : BitVec 1).toNat = 0 from rfl]; omega
  have h5_6 : fld (BitVec.ofNat 32 word) 5 6 = 0 := by
    rw [fld_ofNat _ _ _ _ hn]; apply ofNat_eq; rw [show (0 : BitVec 6).toNat = 0 from rfl]; omega
  have h21_4 : fld (BitVec.ofNat 32 word) 21 4 = tile := by
    rw [fld_ofNat _ _ _ _ hn]; apply ofNat_eq; omega
  have h0_5 : fld (BitVec.ofNat 32 word) 0 5 = k := by
    rw [fld_ofNat _ _ _ _ hn]; apply ofNat_eq; omega
  clear hk hn
  generalize BitVec.ofNat 32 word = w at *
  simp [decodeScalar, zeroed, h26_6, h16_5, h11_5, h25_1, h5_6, h21_4, h0_5]
theorem rktbl (a : SReg) (table : BitVec 2) : Statement (.rktbl a table) := by
  have := a.isLt
  have := table.isLt
  obtain ⟨word, hk⟩ : ∃ word, word = encSR 53 0 a 0 (table.toNat * 16) := ⟨_, rfl⟩
  refine scalar_of (n := word) (by rw [hk]; rfl) ?_
  simp only [encSR, show (0 : SReg).toNat = 0 from rfl] at hk
  have hn : word < 2 ^ 32 := by omega
  have h26_6 : fld (BitVec.ofNat 32 word) 26 6 = 53 := by
    rw [fld_ofNat _ _ _ _ hn]; apply ofNat_eq; rw [show (53 : BitVec 6).toNat = 53 from rfl]; omega
  have h21_5 : fld (BitVec.ofNat 32 word) 21 5 = 0 := by
    rw [fld_ofNat _ _ _ _ hn]; apply ofNat_eq; rw [show (0 : BitVec 5).toNat = 0 from rfl]; omega
  have h16_5 : fld (BitVec.ofNat 32 word) 16 5 = a := by
    rw [fld_ofNat _ _ _ _ hn]; apply ofNat_eq; omega
  have h11_5 : fld (BitVec.ofNat 32 word) 11 5 = 0 := by
    rw [fld_ofNat _ _ _ _ hn]; apply ofNat_eq; rw [show (0 : BitVec 5).toNat = 0 from rfl]; omega
  have h4_2 : fld (BitVec.ofNat 32 word) 4 2 = table := by
    rw [fld_ofNat _ _ _ _ hn]; apply ofNat_eq; omega
  have h0_4 : fld (BitVec.ofNat 32 word) 0 4 = 0 := by
    rw [fld_ofNat _ _ _ _ hn]; apply ofNat_eq; rw [show (0 : BitVec 4).toNat = 0 from rfl]; omega
  have h6_5 : fld (BitVec.ofNat 32 word) 6 5 = 0 := by
    rw [fld_ofNat _ _ _ _ hn]; apply ofNat_eq; rw [show (0 : BitVec 5).toNat = 0 from rfl]; omega
  have h25_1 : fld (BitVec.ofNat 32 word) 25 1 = 0 := by
    rw [fld_ofNat _ _ _ _ hn]; apply ofNat_eq; rw [show (0 : BitVec 1).toNat = 0 from rfl]; omega
  have h21_4 : fld (BitVec.ofNat 32 word) 21 4 = 0 := by
    rw [fld_ofNat _ _ _ _ hn]; apply ofNat_eq; rw [show (0 : BitVec 4).toNat = 0 from rfl]; omega
  have h7_4 : fld (BitVec.ofNat 32 word) 7 4 = 0 := by
    rw [fld_ofNat _ _ _ _ hn]; apply ofNat_eq; rw [show (0 : BitVec 4).toNat = 0 from rfl]; omega
  have h6_1 : fld (BitVec.ofNat 32 word) 6 1 = 0 := by
    rw [fld_ofNat _ _ _ _ hn]; apply ofNat_eq; rw [show (0 : BitVec 1).toNat = 0 from rfl]; omega
  clear hk hn
  generalize BitVec.ofNat 32 word = w at *
  simp [decodeScalar, decodeRank, zeroed, h26_6, h21_5, h16_5, h11_5, h4_2, h0_4, h6_5, h25_1, h21_4, h7_4, h6_1]
theorem rkenc (d : SReg) (a : SReg) : Statement (.rkenc d a) := by
  have := d.isLt
  have := a.isLt
  obtain ⟨word, hk⟩ : ∃ word, word = encSR 53 d a 0 1 := ⟨_, rfl⟩
  refine scalar_of (n := word) (by rw [hk]; rfl) ?_
  simp only [encSR, show (0 : SReg).toNat = 0 from rfl] at hk
  have hn : word < 2 ^ 32 := by omega
  have h26_6 : fld (BitVec.ofNat 32 word) 26 6 = 53 := by
    rw [fld_ofNat _ _ _ _ hn]; apply ofNat_eq; rw [show (53 : BitVec 6).toNat = 53 from rfl]; omega
  have h21_5 : fld (BitVec.ofNat 32 word) 21 5 = d := by
    rw [fld_ofNat _ _ _ _ hn]; apply ofNat_eq; omega
  have h16_5 : fld (BitVec.ofNat 32 word) 16 5 = a := by
    rw [fld_ofNat _ _ _ _ hn]; apply ofNat_eq; omega
  have h11_5 : fld (BitVec.ofNat 32 word) 11 5 = 0 := by
    rw [fld_ofNat _ _ _ _ hn]; apply ofNat_eq; rw [show (0 : BitVec 5).toNat = 0 from rfl]; omega
  have h4_2 : fld (BitVec.ofNat 32 word) 4 2 = 0 := by
    rw [fld_ofNat _ _ _ _ hn]; apply ofNat_eq; rw [show (0 : BitVec 2).toNat = 0 from rfl]; omega
  have h0_4 : fld (BitVec.ofNat 32 word) 0 4 = 1 := by
    rw [fld_ofNat _ _ _ _ hn]; apply ofNat_eq; rw [show (1 : BitVec 4).toNat = 1 from rfl]; omega
  have h6_5 : fld (BitVec.ofNat 32 word) 6 5 = 0 := by
    rw [fld_ofNat _ _ _ _ hn]; apply ofNat_eq; rw [show (0 : BitVec 5).toNat = 0 from rfl]; omega
  have h4_7 : fld (BitVec.ofNat 32 word) 4 7 = 0 := by
    rw [fld_ofNat _ _ _ _ hn]; apply ofNat_eq; rw [show (0 : BitVec 7).toNat = 0 from rfl]; omega
  have h7_4 : fld (BitVec.ofNat 32 word) 7 4 = 0 := by
    rw [fld_ofNat _ _ _ _ hn]; apply ofNat_eq; rw [show (0 : BitVec 4).toNat = 0 from rfl]; omega
  have h6_1 : fld (BitVec.ofNat 32 word) 6 1 = 0 := by
    rw [fld_ofNat _ _ _ _ hn]; apply ofNat_eq; rw [show (0 : BitVec 1).toNat = 0 from rfl]; omega
  clear hk hn
  generalize BitVec.ofNat 32 word = w at *
  simp [decodeScalar, decodeRank, zeroed, h26_6, h21_5, h16_5, h11_5, h4_2, h0_4, h6_5, h4_7, h7_4, h6_1]
theorem rkmm (tile : BitVec 4) (a : SReg) (table : BitVec 2) : Statement (.rkmm tile a table) := by
  have := tile.isLt
  have := a.isLt
  have := table.isLt
  obtain ⟨word, hk⟩ : ∃ word, word = 53 * 2 ^ 26 + tile.toNat * 2 ^ 21 + a.toNat * 2 ^ 16 + table.toNat * 16 + 2 := ⟨_, rfl⟩
  refine scalar_of (n := word) (by rw [hk]; rfl) ?_
  have hn : word < 2 ^ 32 := by omega
  have h26_6 : fld (BitVec.ofNat 32 word) 26 6 = 53 := by
    rw [fld_ofNat _ _ _ _ hn]; apply ofNat_eq; rw [show (53 : BitVec 6).toNat = 53 from rfl]; omega
  have h16_5 : fld (BitVec.ofNat 32 word) 16 5 = a := by
    rw [fld_ofNat _ _ _ _ hn]; apply ofNat_eq; omega
  have h11_5 : fld (BitVec.ofNat 32 word) 11 5 = 0 := by
    rw [fld_ofNat _ _ _ _ hn]; apply ofNat_eq; rw [show (0 : BitVec 5).toNat = 0 from rfl]; omega
  have h4_2 : fld (BitVec.ofNat 32 word) 4 2 = table := by
    rw [fld_ofNat _ _ _ _ hn]; apply ofNat_eq; omega
  have h0_4 : fld (BitVec.ofNat 32 word) 0 4 = 2 := by
    rw [fld_ofNat _ _ _ _ hn]; apply ofNat_eq; rw [show (2 : BitVec 4).toNat = 2 from rfl]; omega
  have h6_5 : fld (BitVec.ofNat 32 word) 6 5 = 0 := by
    rw [fld_ofNat _ _ _ _ hn]; apply ofNat_eq; rw [show (0 : BitVec 5).toNat = 0 from rfl]; omega
  have h25_1 : fld (BitVec.ofNat 32 word) 25 1 = 0 := by
    rw [fld_ofNat _ _ _ _ hn]; apply ofNat_eq; rw [show (0 : BitVec 1).toNat = 0 from rfl]; omega
  have h21_4 : fld (BitVec.ofNat 32 word) 21 4 = tile := by
    rw [fld_ofNat _ _ _ _ hn]; apply ofNat_eq; omega
  have h7_4 : fld (BitVec.ofNat 32 word) 7 4 = 0 := by
    rw [fld_ofNat _ _ _ _ hn]; apply ofNat_eq; rw [show (0 : BitVec 4).toNat = 0 from rfl]; omega
  have h6_1 : fld (BitVec.ofNat 32 word) 6 1 = 0 := by
    rw [fld_ofNat _ _ _ _ hn]; apply ofNat_eq; rw [show (0 : BitVec 1).toNat = 0 from rfl]; omega
  clear hk hn
  generalize BitVec.ofNat 32 word = w at *
  simp [decodeScalar, decodeRank, zeroed, h26_6, h16_5, h11_5, h4_2, h0_4, h6_5, h25_1, h21_4, h7_4, h6_1]
theorem rkval (a : SReg) (b : SReg) (bf : BitVec 1) (table : BitVec 2) : Statement (.rkval a b bf table) := by
  have := a.isLt
  have := b.isLt
  have := bf.isLt
  have := table.isLt
  obtain ⟨word, hk⟩ : ∃ word, word = encSR 53 0 a b (bf.toNat * 64 + table.toNat * 16 + 3) := ⟨_, rfl⟩
  refine scalar_of (n := word) (by rw [hk]; rfl) ?_
  simp only [encSR, show (0 : SReg).toNat = 0 from rfl] at hk
  have hn : word < 2 ^ 32 := by omega
  have h26_6 : fld (BitVec.ofNat 32 word) 26 6 = 53 := by
    rw [fld_ofNat _ _ _ _ hn]; apply ofNat_eq; rw [show (53 : BitVec 6).toNat = 53 from rfl]; omega
  have h21_5 : fld (BitVec.ofNat 32 word) 21 5 = 0 := by
    rw [fld_ofNat _ _ _ _ hn]; apply ofNat_eq; rw [show (0 : BitVec 5).toNat = 0 from rfl]; omega
  have h16_5 : fld (BitVec.ofNat 32 word) 16 5 = a := by
    rw [fld_ofNat _ _ _ _ hn]; apply ofNat_eq; omega
  have h11_5 : fld (BitVec.ofNat 32 word) 11 5 = b := by
    rw [fld_ofNat _ _ _ _ hn]; apply ofNat_eq; omega
  have h4_2 : fld (BitVec.ofNat 32 word) 4 2 = table := by
    rw [fld_ofNat _ _ _ _ hn]; apply ofNat_eq; omega
  have h0_4 : fld (BitVec.ofNat 32 word) 0 4 = 3 := by
    rw [fld_ofNat _ _ _ _ hn]; apply ofNat_eq; rw [show (3 : BitVec 4).toNat = 3 from rfl]; omega
  have h25_1 : fld (BitVec.ofNat 32 word) 25 1 = 0 := by
    rw [fld_ofNat _ _ _ _ hn]; apply ofNat_eq; rw [show (0 : BitVec 1).toNat = 0 from rfl]; omega
  have h21_4 : fld (BitVec.ofNat 32 word) 21 4 = 0 := by
    rw [fld_ofNat _ _ _ _ hn]; apply ofNat_eq; rw [show (0 : BitVec 4).toNat = 0 from rfl]; omega
  have h7_4 : fld (BitVec.ofNat 32 word) 7 4 = 0 := by
    rw [fld_ofNat _ _ _ _ hn]; apply ofNat_eq; rw [show (0 : BitVec 4).toNat = 0 from rfl]; omega
  have h6_1 : fld (BitVec.ofNat 32 word) 6 1 = bf := by
    rw [fld_ofNat _ _ _ _ hn]; apply ofNat_eq; omega
  clear hk hn
  generalize BitVec.ofNat 32 word = w at *
  simp [decodeScalar, decodeRank, zeroed, h26_6, h21_5, h16_5, h11_5, h4_2, h0_4, h25_1, h21_4, h7_4, h6_1]
theorem ptnext (d : SReg) (audit : BitVec 3) (point : BitVec 3) (first : BitVec 6) : Statement (.ptnext d audit point first) := by
  have := d.isLt
  have := audit.isLt
  have := point.isLt
  have := first.isLt
  obtain ⟨word, hk⟩ : ∃ word, word = 54 * 2 ^ 26 + d.toNat * 2 ^ 21 + audit.toNat * 2 ^ 16 + point.toNat * 2 ^ 11 + first.toNat * 16 := ⟨_, rfl⟩
  refine scalar_of (n := word) (by rw [hk]; rfl) ?_
  have hn : word < 2 ^ 32 := by omega
  have h26_6 : fld (BitVec.ofNat 32 word) 26 6 = 54 := by
    rw [fld_ofNat _ _ _ _ hn]; apply ofNat_eq; rw [show (54 : BitVec 6).toNat = 54 from rfl]; omega
  have h0_4 : fld (BitVec.ofNat 32 word) 0 4 = 0 := by
    rw [fld_ofNat _ _ _ _ hn]; apply ofNat_eq; rw [show (0 : BitVec 4).toNat = 0 from rfl]; omega
  have h19_2 : fld (BitVec.ofNat 32 word) 19 2 = 0 := by
    rw [fld_ofNat _ _ _ _ hn]; apply ofNat_eq; rw [show (0 : BitVec 2).toNat = 0 from rfl]; omega
  have h14_2 : fld (BitVec.ofNat 32 word) 14 2 = 0 := by
    rw [fld_ofNat _ _ _ _ hn]; apply ofNat_eq; rw [show (0 : BitVec 2).toNat = 0 from rfl]; omega
  have h10_1 : fld (BitVec.ofNat 32 word) 10 1 = 0 := by
    rw [fld_ofNat _ _ _ _ hn]; apply ofNat_eq; rw [show (0 : BitVec 1).toNat = 0 from rfl]; omega
  have h21_5 : fld (BitVec.ofNat 32 word) 21 5 = d := by
    rw [fld_ofNat _ _ _ _ hn]; apply ofNat_eq; omega
  have h16_3 : fld (BitVec.ofNat 32 word) 16 3 = audit := by
    rw [fld_ofNat _ _ _ _ hn]; apply ofNat_eq; omega
  have h11_3 : fld (BitVec.ofNat 32 word) 11 3 = point := by
    rw [fld_ofNat _ _ _ _ hn]; apply ofNat_eq; omega
  have h4_6 : fld (BitVec.ofNat 32 word) 4 6 = first := by
    rw [fld_ofNat _ _ _ _ hn]; apply ofNat_eq; omega
  clear hk hn
  generalize BitVec.ofNat 32 word = w at *
  simp [decodeScalar, decodePoint, zeroed, h26_6, h0_4, h19_2, h14_2, h10_1, h21_5, h16_3, h11_3, h4_6]
theorem ptdone (a : SReg) : Statement (.ptdone a) := by
  have := a.isLt
  obtain ⟨word, hk⟩ : ∃ word, word = encSR 54 0 a 0 1 := ⟨_, rfl⟩
  refine scalar_of (n := word) (by rw [hk]; rfl) ?_
  simp only [encSR, show (0 : SReg).toNat = 0 from rfl] at hk
  have hn : word < 2 ^ 32 := by omega
  have h26_6 : fld (BitVec.ofNat 32 word) 26 6 = 54 := by
    rw [fld_ofNat _ _ _ _ hn]; apply ofNat_eq; rw [show (54 : BitVec 6).toNat = 54 from rfl]; omega
  have h0_4 : fld (BitVec.ofNat 32 word) 0 4 = 1 := by
    rw [fld_ofNat _ _ _ _ hn]; apply ofNat_eq; rw [show (1 : BitVec 4).toNat = 1 from rfl]; omega
  have h14_2 : fld (BitVec.ofNat 32 word) 14 2 = 0 := by
    rw [fld_ofNat _ _ _ _ hn]; apply ofNat_eq; rw [show (0 : BitVec 2).toNat = 0 from rfl]; omega
  have h10_1 : fld (BitVec.ofNat 32 word) 10 1 = 0 := by
    rw [fld_ofNat _ _ _ _ hn]; apply ofNat_eq; rw [show (0 : BitVec 1).toNat = 0 from rfl]; omega
  have h21_5 : fld (BitVec.ofNat 32 word) 21 5 = 0 := by
    rw [fld_ofNat _ _ _ _ hn]; apply ofNat_eq; rw [show (0 : BitVec 5).toNat = 0 from rfl]; omega
  have h11_3 : fld (BitVec.ofNat 32 word) 11 3 = 0 := by
    rw [fld_ofNat _ _ _ _ hn]; apply ofNat_eq; rw [show (0 : BitVec 3).toNat = 0 from rfl]; omega
  have h4_6 : fld (BitVec.ofNat 32 word) 4 6 = 0 := by
    rw [fld_ofNat _ _ _ _ hn]; apply ofNat_eq; rw [show (0 : BitVec 6).toNat = 0 from rfl]; omega
  have h11_5 : fld (BitVec.ofNat 32 word) 11 5 = 0 := by
    rw [fld_ofNat _ _ _ _ hn]; apply ofNat_eq; rw [show (0 : BitVec 5).toNat = 0 from rfl]; omega
  have h4_7 : fld (BitVec.ofNat 32 word) 4 7 = 0 := by
    rw [fld_ofNat _ _ _ _ hn]; apply ofNat_eq; rw [show (0 : BitVec 7).toNat = 0 from rfl]; omega
  have h16_5 : fld (BitVec.ofNat 32 word) 16 5 = a := by
    rw [fld_ofNat _ _ _ _ hn]; apply ofNat_eq; omega
  clear hk hn
  generalize BitVec.ofNat 32 word = w at *
  simp [decodeScalar, decodePoint, zeroed, h26_6, h0_4, h14_2, h10_1, h21_5, h11_3, h4_6, h11_5, h4_7, h16_5]
theorem rcap (d : SReg) (a : SReg) : Statement (.rcap d a) := by
  have := d.isLt
  have := a.isLt
  obtain ⟨word, hk⟩ : ∃ word, word = encSR 55 d a 0 0 := ⟨_, rfl⟩
  refine scalar_of (n := word) (by rw [hk]; rfl) ?_
  simp only [encSR, show (0 : SReg).toNat = 0 from rfl] at hk
  have hn : word < 2 ^ 32 := by omega
  have h26_6 : fld (BitVec.ofNat 32 word) 26 6 = 55 := by
    rw [fld_ofNat _ _ _ _ hn]; apply ofNat_eq; rw [show (55 : BitVec 6).toNat = 55 from rfl]; omega
  have h21_5 : fld (BitVec.ofNat 32 word) 21 5 = d := by
    rw [fld_ofNat _ _ _ _ hn]; apply ofNat_eq; omega
  have h16_5 : fld (BitVec.ofNat 32 word) 16 5 = a := by
    rw [fld_ofNat _ _ _ _ hn]; apply ofNat_eq; omega
  have h11_5 : fld (BitVec.ofNat 32 word) 11 5 = 0 := by
    rw [fld_ofNat _ _ _ _ hn]; apply ofNat_eq; rw [show (0 : BitVec 5).toNat = 0 from rfl]; omega
  have h0_16 : fld (BitVec.ofNat 32 word) 0 16 = 0 := by
    rw [fld_ofNat _ _ _ _ hn]; apply ofNat_eq; rw [show (0 : BitVec 16).toNat = 0 from rfl]; omega
  have h0_11 : fld (BitVec.ofNat 32 word) 0 11 = 0 := by
    rw [fld_ofNat _ _ _ _ hn]; apply ofNat_eq; rw [show (0 : BitVec 11).toNat = 0 from rfl]; omega
  clear hk hn
  generalize BitVec.ofNat 32 word = w at *
  simp [decodeScalar, zeroed, h26_6, h21_5, h16_5, h11_5, h0_16, h0_11]
theorem iadd (f : LaneF) : Statement (.iadd f) := lane_of rfl rfl (by decide) rfl
theorem isub (f : LaneF) : Statement (.isub f) := lane_of rfl rfl (by decide) rfl
theorem imul (f : LaneF) : Statement (.imul f) := lane_of rfl rfl (by decide) rfl
theorem imulh (f : LaneF) : Statement (.imulh f) := lane_of rfl rfl (by decide) rfl
theorem imad (f : LaneF) : Statement (.imad f) := lane_of rfl rfl (by decide) rfl
theorem idiv (f : LaneF) : Statement (.idiv f) := lane_of rfl rfl (by decide) rfl
theorem irem (f : LaneF) : Statement (.irem f) := lane_of rfl rfl (by decide) rfl
theorem imin (f : LaneF) : Statement (.imin f) := lane_of rfl rfl (by decide) rfl
theorem imax (f : LaneF) : Statement (.imax f) := lane_of rfl rfl (by decide) rfl
theorem iabs (f : LaneF) : Statement (.iabs f) := lane_of rfl rfl (by decide) rfl
theorem ineg (f : LaneF) : Statement (.ineg f) := lane_of rfl rfl (by decide) rfl
theorem laneAnd (f : LaneF) : Statement (.laneAnd f) := lane_of rfl rfl (by decide) rfl
theorem laneOr (f : LaneF) : Statement (.laneOr f) := lane_of rfl rfl (by decide) rfl
theorem laneXor (f : LaneF) : Statement (.laneXor f) := lane_of rfl rfl (by decide) rfl
theorem andn (f : LaneF) : Statement (.andn f) := lane_of rfl rfl (by decide) rfl
theorem laneNot (f : LaneF) : Statement (.laneNot f) := lane_of rfl rfl (by decide) rfl
theorem laneShl (f : LaneF) : Statement (.laneShl f) := lane_of rfl rfl (by decide) rfl
theorem laneShr (f : LaneF) : Statement (.laneShr f) := lane_of rfl rfl (by decide) rfl
theorem laneSar (f : LaneF) : Statement (.laneSar f) := lane_of rfl rfl (by decide) rfl
theorem rot (f : LaneF) : Statement (.rot f) := lane_of rfl rfl (by decide) rfl
theorem clz (f : LaneF) : Statement (.clz f) := lane_of rfl rfl (by decide) rfl
theorem popc (f : LaneF) : Statement (.popc f) := lane_of rfl rfl (by decide) rfl
theorem brev (f : LaneF) : Statement (.brev f) := lane_of rfl rfl (by decide) rfl
theorem bfx (f : LaneF) : Statement (.bfx f) := lane_of rfl rfl (by decide) rfl
theorem bfi (f : LaneF) : Statement (.bfi f) := lane_of rfl rfl (by decide) rfl
theorem icmp (f : LaneF) : Statement (.icmp f) := lane_of rfl rfl (by decide) rfl
theorem laneSel (f : LaneF) : Statement (.laneSel f) := lane_of rfl rfl (by decide) rfl
theorem mov (f : LaneF) : Statement (.mov f) := lane_of rfl rfl (by decide) rfl
theorem fadd (f : LaneF) : Statement (.fadd f) := lane_of rfl rfl (by decide) rfl
theorem fsub (f : LaneF) : Statement (.fsub f) := lane_of rfl rfl (by decide) rfl
theorem fmul (f : LaneF) : Statement (.fmul f) := lane_of rfl rfl (by decide) rfl
theorem fma (f : LaneF) : Statement (.fma f) := lane_of rfl rfl (by decide) rfl
theorem fmin (f : LaneF) : Statement (.fmin f) := lane_of rfl rfl (by decide) rfl
theorem fmax (f : LaneF) : Statement (.fmax f) := lane_of rfl rfl (by decide) rfl
theorem fabs (f : LaneF) : Statement (.fabs f) := lane_of rfl rfl (by decide) rfl
theorem fneg (f : LaneF) : Statement (.fneg f) := lane_of rfl rfl (by decide) rfl
theorem fcmp (f : LaneF) : Statement (.fcmp f) := lane_of rfl rfl (by decide) rfl
theorem frcp (f : LaneF) : Statement (.frcp f) := lane_of rfl rfl (by decide) rfl
theorem frsq (f : LaneF) : Statement (.frsq f) := lane_of rfl rfl (by decide) rfl
theorem fsqrt (f : LaneF) : Statement (.fsqrt f) := lane_of rfl rfl (by decide) rfl
theorem fexp2 (f : LaneF) : Statement (.fexp2 f) := lane_of rfl rfl (by decide) rfl
theorem flog2 (f : LaneF) : Statement (.flog2 f) := lane_of rfl rfl (by decide) rfl
theorem fsinpi (f : LaneF) : Statement (.fsinpi f) := lane_of rfl rfl (by decide) rfl
theorem fcospi (f : LaneF) : Statement (.fcospi f) := lane_of rfl rfl (by decide) rfl
theorem fscale (f : LaneF) : Statement (.fscale f) := lane_of rfl rfl (by decide) rfl
theorem fclass (f : LaneF) : Statement (.fclass f) := lane_of rfl rfl (by decide) rfl
theorem frint (f : LaneF) : Statement (.frint f) := lane_of rfl rfl (by decide) rfl
theorem fdiv (f : LaneF) : Statement (.fdiv f) := lane_of rfl rfl (by decide) rfl
theorem hadd2 (f : LaneF) : Statement (.hadd2 f) := lane_of rfl rfl (by decide) rfl
theorem hmul2 (f : LaneF) : Statement (.hmul2 f) := lane_of rfl rfl (by decide) rfl
theorem hfma2 (f : LaneF) : Statement (.hfma2 f) := lane_of rfl rfl (by decide) rfl
theorem idot4 (f : LaneF) : Statement (.idot4 f) := lane_of rfl rfl (by decide) rfl
theorem idot2 (f : LaneF) : Statement (.idot2 f) := lane_of rfl rfl (by decide) rfl
theorem cvt (f : LaneF) : Statement (.cvt f) := lane_of rfl rfl (by decide) rfl
theorem cvtp (f : LaneF) : Statement (.cvtp f) := lane_of rfl rfl (by decide) rfl
theorem cvtx (f : LaneF) : Statement (.cvtx f) := lane_of rfl rfl (by decide) rfl
theorem bpenc (f : LaneF) : Statement (.bpenc f) := lane_of rfl rfl (by decide) rfl
theorem bpdec (f : LaneF) : Statement (.bpdec f) := lane_of rfl rfl (by decide) rfl
theorem pand (f : LaneF) : Statement (.pand f) := lane_of rfl rfl (by decide) rfl
theorem por (f : LaneF) : Statement (.por f) := lane_of rfl rfl (by decide) rfl
theorem pxor (f : LaneF) : Statement (.pxor f) := lane_of rfl rfl (by decide) rfl
theorem pnot (f : LaneF) : Statement (.pnot f) := lane_of rfl rfl (by decide) rfl
theorem lkill (f : LaneF) : Statement (.lkill f) := lane_of rfl rfl (by decide) rfl
theorem ld (f : LaneF) : Statement (.ld f) := lane_of rfl rfl (by decide) rfl
theorem st (f : LaneF) : Statement (.st f) := lane_of rfl rfl (by decide) rfl
theorem ldt (f : LaneF) : Statement (.ldt f) := lane_of rfl rfl (by decide) rfl
theorem stt (f : LaneF) : Statement (.stt f) := lane_of rfl rfl (by decide) rfl
theorem atom (f : LaneF) : Statement (.atom f) := lane_of rfl rfl (by decide) rfl
theorem cas (f : LaneF) : Statement (.cas f) := lane_of rfl rfl (by decide) rfl
theorem lda (f : LaneF) : Statement (.lda f) := lane_of rfl rfl (by decide) rfl
theorem str (f : LaneF) : Statement (.str f) := lane_of rfl rfl (by decide) rfl
theorem pref (f : LaneF) : Statement (.pref f) := lane_of rfl rfl (by decide) rfl
theorem shfl (f : LaneF) : Statement (.shfl f) := lane_of rfl rfl (by decide) rfl
theorem vote (f : LaneF) : Statement (.vote f) := lane_of rfl rfl (by decide) rfl
theorem redl (f : LaneF) : Statement (.redl f) := lane_of rfl rfl (by decide) rfl
theorem scan (f : LaneF) : Statement (.scan f) := lane_of rfl rfl (by decide) rfl
theorem xshfl (f : LaneF) : Statement (.xshfl f) := lane_of rfl rfl (by decide) rfl
theorem rarm (f : LaneF) : Statement (.rarm f) := lane_of rfl rfl (by decide) rfl
theorem rput (f : LaneF) : Statement (.rput f) := lane_of rfl rfl (by decide) rfl
theorem rclr (f : LaneF) : Statement (.rclr f) := lane_of rfl rfl (by decide) rfl
theorem registerArrival (p : RegPacket) : Statement (.registerArrival p) := none_of rfl
theorem rputOutcome (put : Nat) : Statement (.rputOutcome put) := none_of rfl
theorem reservationRequest (source : Nat) : Statement (.reservationRequest source) := none_of rfl
theorem reservationGrant (source : Nat) (target : Nat) : Statement (.reservationGrant source target) := none_of rfl
theorem reservationIdleReturn (source : Nat) (target : Nat) : Statement (.reservationIdleReturn source target) := none_of rfl
theorem rejoinDeadlock (core : Nat) (slot : Nat) : Statement (.rejoinDeadlock core slot) := none_of rfl
theorem regroupFuse (core : Nat) (slotA : Nat) (slotB : Nat) : Statement (.regroupFuse core slotA slotB) := none_of rfl
theorem memoryAccessComplete (core : Nat) (slot : Nat) (access : Nat) : Statement (.memoryAccessComplete core slot access) := none_of rfl
theorem waitcRelease (core : Nat) (slot : Nat) (split : Nat) : Statement (.waitcRelease core slot split) := none_of rfl
theorem waittRelease (core : Nat) (slot : Nat) (split : Nat) : Statement (.waittRelease core slot split) := none_of rfl
theorem yieldtWake (core : Nat) (slot : Nat) (split : Nat) : Statement (.yieldtWake core slot split) := none_of rfl
theorem queueWaitRelease (core : Nat) (slot : Nat) (split : Nat) : Statement (.queueWaitRelease core slot split) := none_of rfl
theorem fenceComplete (core : Nat) (slot : Nat) (split : Nat) : Statement (.fenceComplete core slot split) := none_of rfl
theorem bwaitRelease (core : Nat) (slot : Nat) (split : Nat) : Statement (.bwaitRelease core slot split) := none_of rfl
theorem waittlRelease (core : Nat) (slot : Nat) (split : Nat) : Statement (.waittlRelease core slot split) := none_of rfl
theorem barComplete (team : Nat) : Statement (.barComplete team) := none_of rfl
theorem transactionBytesLand (entry : Nat) (bytes : Nat) : Statement (.transactionBytesLand entry bytes) := none_of rfl
theorem xshflCommit (coreA : Nat) (slotA : Nat) (coreB : Nat) (slotB : Nat) : Statement (.xshflCommit coreA slotA coreB slotB) := none_of rfl
theorem overlayLanded (core : Nat) (slot : Nat) : Statement (.overlayLanded core slot) := none_of rfl
theorem faultReplay (core : Nat) (slot : Nat) : Statement (.faultReplay core slot) := none_of rfl
theorem mloopStep (core : Nat) : Statement (.mloopStep core) := none_of rfl
theorem matrixOpComplete (core : Nat) : Statement (.matrixOpComplete core) := none_of rfl
theorem rkencComplete (core : Nat) : Statement (.rkencComplete core) := none_of rfl
theorem teamPlacement (cluster : Nat) (launch : Nat) (handle : Nat) : Statement (.teamPlacement cluster launch handle) := none_of rfl
theorem groupSave (core : Nat) (slot : Nat) : Statement (.groupSave core slot) := none_of rfl
theorem groupSaveComplete (core : Nat) (slot : Nat) : Statement (.groupSaveComplete core slot) := none_of rfl
theorem teamPoolSave (team : Nat) : Statement (.teamPoolSave team) := none_of rfl
theorem groupRestore (core : Nat) (slot : Nat) : Statement (.groupRestore core slot) := none_of rfl
theorem copyEntryTake (queue : Nat) : Statement (.copyEntryTake queue) := none_of rfl
theorem abandoned (queue : Nat) : Statement (.abandoned queue) := none_of rfl
theorem triggeredEntryFire (entry : Nat) : Statement (.triggeredEntryFire entry) := none_of rfl
theorem copyEntryComplete (entry : Nat) : Statement (.copyEntryComplete entry) := none_of rfl
theorem ptnextDispatch (core : Nat) (slot : Nat) (split : Nat) : Statement (.ptnextDispatch core slot split) := none_of rfl
theorem tileReconstruct (launch : Nat) : Statement (.tileReconstruct launch) := none_of rfl
theorem l2MissFill (line : Nat) : Statement (.l2MissFill line) := none_of rfl
theorem pinRevocation (shoot : Nat) : Statement (.pinRevocation shoot) := none_of rfl
theorem shootdownComplete (shoot : Nat) : Statement (.shootdownComplete shoot) := none_of rfl
theorem migrationComplete (migration : Nat) : Statement (.migrationComplete migration) := none_of rfl
theorem graphInstanceStart (graph : Nat) : Statement (.graphInstanceStart graph) := none_of rfl
theorem mergeUnitTake (merger : Nat) : Statement (.mergeUnitTake merger) := none_of rfl
theorem preemption (launch : Nat) (handle : Nat) : Statement (.preemption launch handle) := none_of rfl
theorem teamRetire (team : Nat) : Statement (.teamRetire team) := none_of rfl
theorem nodeComplete (launch : Nat) (handle : Nat) : Statement (.nodeComplete launch handle) := none_of rfl
theorem launchComplete (launch : Nat) : Statement (.launchComplete launch) := none_of rfl
theorem podPacketForward (die : Nat) (dest : Nat) : Statement (.podPacketForward die dest) := none_of rfl
theorem collectiveComplete (team : Nat) : Statement (.collectiveComplete team) := none_of rfl
theorem cellContribution (die : Nat) (cell : Nat) (c : CellContrib) : Statement (.cellContribution die cell c) := none_of rfl
theorem cellAnswer (team : Nat) (slice : Nat) (r : CellReply) : Statement (.cellAnswer team slice r) := none_of rfl
theorem cellLostRerun (team : Nat) : Statement (.cellLostRerun team) := none_of rfl
theorem sleepExpiry (core : Nat) (slot : Nat) (split : Nat) : Statement (.sleepExpiry core slot split) := none_of rfl
theorem cellBusyResend (team : Nat) (slice : Nat) : Statement (.cellBusyResend team slice) := none_of rfl
theorem ringStalled (ring : Nat) : Statement (.ringStalled ring) := none_of rfl
theorem collectiveTimeout (team : Nat) : Statement (.collectiveTimeout team) := none_of rfl
theorem priorityAgeing (launch : Nat) (handle : Nat) : Statement (.priorityAgeing launch handle) := none_of rfl
theorem chainWaitTimeout (merger : Nat) : Statement (.chainWaitTimeout merger) := none_of rfl
theorem cellTimerExpiry (die : Nat) (cell : Nat) : Statement (.cellTimerExpiry die cell) := none_of rfl
theorem arrivalTimeout (core : Nat) (slot : Nat) : Statement (.arrivalTimeout core slot) := none_of rfl
theorem packetAged (die : Nat) (dest : Nat) : Statement (.packetAged die dest) := none_of rfl
theorem retransmitTimeout (peer : Nat) (psn : BitVec 32) : Statement (.retransmitTimeout peer psn) := none_of rfl
theorem pathWeightRestore (set : Nat) (path : Nat) : Statement (.pathWeightRestore set path) := none_of rfl
theorem turnroundPauseEnd (fibre : Nat) : Statement (.turnroundPauseEnd fibre) := none_of rfl
theorem spareRetrainingPauseEnd (port : Nat) : Statement (.spareRetrainingPauseEnd port) := none_of rfl
theorem rankWalk (die : Nat) (rank : Nat) : Statement (.rankWalk die rank) := none_of rfl
theorem pageWalk (core : Nat) (asid : Nat) (va : Nat) : Statement (.pageWalk core asid va) := none_of rfl
theorem rsbWrite (a : SReg) : Statement (.rsbWrite a) := none_of rfl
theorem spbWrite (a : SReg) : Statement (.spbWrite a) := none_of rfl
theorem flagsAccess (write : Bool) (ints : Bool) (r : SReg) : Statement (.flagsAccess write ints r) := none_of rfl
theorem cqbWrite (k : BitVec 2) (a : SReg) : Statement (.cqbWrite k a) := none_of rfl
theorem ovwcntWrite (a : SReg) : Statement (.ovwcntWrite a) := none_of rfl
theorem loadfw (tag : Byte) (verified : Bool) (measurement : BitVec 384) (topo : Topology) : Statement (.loadfw tag verified measurement topo) := none_of rfl
theorem attest (tag : Byte) : Statement (.attest tag) := none_of rfl
theorem keyload (tag : Byte) (index : BitVec 4) (key : BitVec 128) : Statement (.keyload tag index key) := none_of rfl
theorem guard (tag : Byte) (req : GuardReq) : Statement (.guard tag req) := none_of rfl
theorem asreg (tag : Byte) (asid : Byte) (root : Nat) : Statement (.asreg tag asid root) := none_of rfl
theorem ringreg (tag : Byte) (asid : Byte) (desc : Nat) : Statement (.ringreg tag asid desc) := none_of rfl
theorem slottbl (tag : Byte) (kind : Nat) (entries : List (BitVec 4)) (strict : Byte) : Statement (.slottbl tag kind entries strict) := none_of rfl
theorem shoot (tag : Byte) (asid : Byte) (va : Nat) (len : Nat) (remap : Bool) : Statement (.shoot tag asid va len remap) := none_of rfl
theorem migrate (tag : Byte) (asid : Byte) (va : Nat) (size : Nat) (frame : Nat) (scale : Nat) : Statement (.migrate tag asid va size frame scale) := none_of rfl
theorem cancel (tag : Byte) (packet : Nat) : Statement (.cancel tag packet) := none_of rfl
theorem pageans (tag : Byte) (asid : Byte) (va : Nat) (mapped : Bool) : Statement (.pageans tag asid va mapped) := none_of rfl
theorem evring (tag : Byte) (base : Nat) (log2n : Nat) : Statement (.evring tag base log2n) := none_of rfl
theorem evack (tag : Byte) (index : Nat) (clear : Bool) : Statement (.evack tag index clear) := none_of rfl
theorem powercap (tag : Byte) (watts : Nat) : Statement (.powercap tag watts) := none_of rfl
theorem topo (tag : Byte) : Statement (.topo tag) := none_of rfl
theorem errcnt (tag : Byte) (counter : ErrorCounter) : Statement (.errcnt tag counter) := none_of rfl
theorem fread (tag : Byte) (ack : Nat) : Statement (.fread tag ack) := none_of rfl
theorem cells (tag : Byte) (n : Nat) (die : Nat) : Statement (.cells tag n die) := none_of rfl
theorem cellfree (tag : Byte) (first : Nat) (count : Nat) (die : Nat) : Statement (.cellfree tag first count die) := none_of rfl
theorem powerLimiterSample (milliwatts : Nat) : Statement (.powerLimiterSample milliwatts) := none_of rfl
theorem laserInterlock (fibre : Nat) : Statement (.laserInterlock fibre) := none_of rfl
theorem commandLinkTimeout (cluster : Nat) : Statement (.commandLinkTimeout cluster) := none_of rfl
theorem uncorrectableError (place : ErrorPlace) : Statement (.uncorrectableError place) := none_of rfl
theorem correctableError (counter : ErrorCounter) : Statement (.correctableError counter) := none_of rfl
theorem mediaFrameComplete (job : Nat) (depth : Nat) (samples : List (List (List Nat))) : Statement (.mediaFrameComplete job depth samples) := none_of rfl
theorem mediaJobComplete (job : Nat) (ok : Bool) : Statement (.mediaJobComplete job ok) := none_of rfl
theorem targetFaultAnswer (ticket : Nat) (cause : BitVec 8) (precise : Bool) (index : Nat) : Statement (.targetFaultAnswer ticket cause precise index) := none_of rfl
theorem podPacketReceive (die : Nat) (port : Nat) (p : Packet) (crcOk : Bool) : Statement (.podPacketReceive die port p crcOk) := none_of rfl
theorem podNack (dest : Nat) (ticket : Nat) : Statement (.podNack dest ticket) := none_of rfl
theorem linkPermitReturn (port : Nat) (channel : Nat) (units : Nat) : Statement (.linkPermitReturn port channel units) := none_of rfl
theorem wavelengthFailure (fibre : Nat) (transmit : Bool) : Statement (.wavelengthFailure fibre transmit) := none_of rfl
theorem remotePacketReceive (p : Packet) (headerOk : Bool) (tagOk : Bool) (marked : Bool) : Statement (.remotePacketReceive p headerOk tagOk marked) := none_of rfl
theorem remoteAck (peer : Nat) (cum : BitVec 32) (bitmap : BitVec 64) (marked : Bool) (path : Nat) : Statement (.remoteAck peer cum bitmap marked path) := none_of rfl
theorem remoteNack (peer : Nat) (psn : BitVec 32) : Statement (.remoteNack peer psn) := none_of rfl
theorem trimmedPacketNotice (peer : Nat) (psn : BitVec 32) : Statement (.trimmedPacketNotice peer psn) := none_of rfl
theorem retireNotice (peer : Nat) (psn : BitVec 32) : Statement (.retireNotice peer psn) := none_of rfl
theorem precisionTimeProtocolMessage (time : Nat) : Statement (.precisionTimeProtocolMessage time) := none_of rfl
theorem retriedFlit (link : Nat) : Statement (.retriedFlit link) := none_of rfl
theorem nop : Statement (.nop) := by
  obtain ⟨word, hk⟩ : ∃ word, word = 0 := ⟨_, rfl⟩
  refine scalar_of (n := word) (by rw [hk]; rfl) ?_
  have hn : word < 2 ^ 32 := by omega
  have h26_6 : fld (BitVec.ofNat 32 word) 26 6 = 0 := by
    rw [fld_ofNat _ _ _ _ hn]; apply ofNat_eq; rw [show (0 : BitVec 6).toNat = 0 from rfl]; omega
  have h21_5 : fld (BitVec.ofNat 32 word) 21 5 = 0 := by
    rw [fld_ofNat _ _ _ _ hn]; apply ofNat_eq; rw [show (0 : BitVec 5).toNat = 0 from rfl]; omega
  have h16_5 : fld (BitVec.ofNat 32 word) 16 5 = 0 := by
    rw [fld_ofNat _ _ _ _ hn]; apply ofNat_eq; rw [show (0 : BitVec 5).toNat = 0 from rfl]; omega
  have h11_5 : fld (BitVec.ofNat 32 word) 11 5 = 0 := by
    rw [fld_ofNat _ _ _ _ hn]; apply ofNat_eq; rw [show (0 : BitVec 5).toNat = 0 from rfl]; omega
  have h4_7 : fld (BitVec.ofNat 32 word) 4 7 = 0 := by
    rw [fld_ofNat _ _ _ _ hn]; apply ofNat_eq; rw [show (0 : BitVec 7).toNat = 0 from rfl]; omega
  have h0_4 : fld (BitVec.ofNat 32 word) 0 4 = 0 := by
    rw [fld_ofNat _ _ _ _ hn]; apply ofNat_eq; rw [show (0 : BitVec 4).toNat = 0 from rfl]; omega
  clear hk hn
  generalize BitVec.ofNat 32 word = w at *
  simp [decodeScalar, decodeSys, zeroed, h26_6, h21_5, h16_5, h11_5, h4_7, h0_4]
theorem eret : Statement (.eret) := by
  obtain ⟨word, hk⟩ : ∃ word, word = encSR 0 0 0 0 2 := ⟨_, rfl⟩
  refine scalar_of (n := word) (by rw [hk]; rfl) ?_
  simp only [encSR, show (0 : SReg).toNat = 0 from rfl] at hk
  have hn : word < 2 ^ 32 := by omega
  have h26_6 : fld (BitVec.ofNat 32 word) 26 6 = 0 := by
    rw [fld_ofNat _ _ _ _ hn]; apply ofNat_eq; rw [show (0 : BitVec 6).toNat = 0 from rfl]; omega
  have h21_5 : fld (BitVec.ofNat 32 word) 21 5 = 0 := by
    rw [fld_ofNat _ _ _ _ hn]; apply ofNat_eq; rw [show (0 : BitVec 5).toNat = 0 from rfl]; omega
  have h16_5 : fld (BitVec.ofNat 32 word) 16 5 = 0 := by
    rw [fld_ofNat _ _ _ _ hn]; apply ofNat_eq; rw [show (0 : BitVec 5).toNat = 0 from rfl]; omega
  have h11_5 : fld (BitVec.ofNat 32 word) 11 5 = 0 := by
    rw [fld_ofNat _ _ _ _ hn]; apply ofNat_eq; rw [show (0 : BitVec 5).toNat = 0 from rfl]; omega
  have h4_7 : fld (BitVec.ofNat 32 word) 4 7 = 0 := by
    rw [fld_ofNat _ _ _ _ hn]; apply ofNat_eq; rw [show (0 : BitVec 7).toNat = 0 from rfl]; omega
  have h0_4 : fld (BitVec.ofNat 32 word) 0 4 = 2 := by
    rw [fld_ofNat _ _ _ _ hn]; apply ofNat_eq; rw [show (2 : BitVec 4).toNat = 2 from rfl]; omega
  clear hk hn
  generalize BitVec.ofNat 32 word = w at *
  simp [decodeScalar, decodeSys, zeroed, h26_6, h21_5, h16_5, h11_5, h4_7, h0_4]
theorem exit : Statement (.exit) := by
  obtain ⟨word, hk⟩ : ∃ word, word = encSR 0 0 0 0 7 := ⟨_, rfl⟩
  refine scalar_of (n := word) (by rw [hk]; rfl) ?_
  simp only [encSR, show (0 : SReg).toNat = 0 from rfl] at hk
  have hn : word < 2 ^ 32 := by omega
  have h26_6 : fld (BitVec.ofNat 32 word) 26 6 = 0 := by
    rw [fld_ofNat _ _ _ _ hn]; apply ofNat_eq; rw [show (0 : BitVec 6).toNat = 0 from rfl]; omega
  have h21_5 : fld (BitVec.ofNat 32 word) 21 5 = 0 := by
    rw [fld_ofNat _ _ _ _ hn]; apply ofNat_eq; rw [show (0 : BitVec 5).toNat = 0 from rfl]; omega
  have h16_5 : fld (BitVec.ofNat 32 word) 16 5 = 0 := by
    rw [fld_ofNat _ _ _ _ hn]; apply ofNat_eq; rw [show (0 : BitVec 5).toNat = 0 from rfl]; omega
  have h11_5 : fld (BitVec.ofNat 32 word) 11 5 = 0 := by
    rw [fld_ofNat _ _ _ _ hn]; apply ofNat_eq; rw [show (0 : BitVec 5).toNat = 0 from rfl]; omega
  have h4_7 : fld (BitVec.ofNat 32 word) 4 7 = 0 := by
    rw [fld_ofNat _ _ _ _ hn]; apply ofNat_eq; rw [show (0 : BitVec 7).toNat = 0 from rfl]; omega
  have h0_4 : fld (BitVec.ofNat 32 word) 0 4 = 7 := by
    rw [fld_ofNat _ _ _ _ hn]; apply ofNat_eq; rw [show (7 : BitVec 4).toNat = 7 from rfl]; omega
  clear hk hn
  generalize BitVec.ofNat 32 word = w at *
  simp [decodeScalar, decodeSys, zeroed, h26_6, h21_5, h16_5, h11_5, h4_7, h0_4]
theorem bar : Statement (.bar) := by
  obtain ⟨word, hk⟩ : ∃ word, word = encSR 43 0 0 0 4 := ⟨_, rfl⟩
  refine scalar_of (n := word) (by rw [hk]; rfl) ?_
  simp only [encSR, show (0 : SReg).toNat = 0 from rfl] at hk
  have hn : word < 2 ^ 32 := by omega
  have h26_6 : fld (BitVec.ofNat 32 word) 26 6 = 43 := by
    rw [fld_ofNat _ _ _ _ hn]; apply ofNat_eq; rw [show (43 : BitVec 6).toNat = 43 from rfl]; omega
  have h21_5 : fld (BitVec.ofNat 32 word) 21 5 = 0 := by
    rw [fld_ofNat _ _ _ _ hn]; apply ofNat_eq; rw [show (0 : BitVec 5).toNat = 0 from rfl]; omega
  have h16_5 : fld (BitVec.ofNat 32 word) 16 5 = 0 := by
    rw [fld_ofNat _ _ _ _ hn]; apply ofNat_eq; rw [show (0 : BitVec 5).toNat = 0 from rfl]; omega
  have h11_5 : fld (BitVec.ofNat 32 word) 11 5 = 0 := by
    rw [fld_ofNat _ _ _ _ hn]; apply ofNat_eq; rw [show (0 : BitVec 5).toNat = 0 from rfl]; omega
  have h4_2 : fld (BitVec.ofNat 32 word) 4 2 = 0 := by
    rw [fld_ofNat _ _ _ _ hn]; apply ofNat_eq; rw [show (0 : BitVec 2).toNat = 0 from rfl]; omega
  have h6_1 : fld (BitVec.ofNat 32 word) 6 1 = 0 := by
    rw [fld_ofNat _ _ _ _ hn]; apply ofNat_eq; rw [show (0 : BitVec 1).toNat = 0 from rfl]; omega
  have h7_4 : fld (BitVec.ofNat 32 word) 7 4 = 0 := by
    rw [fld_ofNat _ _ _ _ hn]; apply ofNat_eq; rw [show (0 : BitVec 4).toNat = 0 from rfl]; omega
  have h0_4 : fld (BitVec.ofNat 32 word) 0 4 = 4 := by
    rw [fld_ofNat _ _ _ _ hn]; apply ofNat_eq; rw [show (4 : BitVec 4).toNat = 4 from rfl]; omega
  clear hk hn
  generalize BitVec.ofNat 32 word = w at *
  simp [decodeScalar, decodeSync, zeroed, h26_6, h21_5, h16_5, h11_5, h4_2, h6_1, h7_4, h0_4]
theorem rfence : Statement (.rfence) := by
  obtain ⟨word, hk⟩ : ∃ word, word = encSR 46 0 0 0 0 := ⟨_, rfl⟩
  refine scalar_of (n := word) (by rw [hk]; rfl) ?_
  simp only [encSR, show (0 : SReg).toNat = 0 from rfl] at hk
  have hn : word < 2 ^ 32 := by omega
  have h26_6 : fld (BitVec.ofNat 32 word) 26 6 = 46 := by
    rw [fld_ofNat _ _ _ _ hn]; apply ofNat_eq; rw [show (46 : BitVec 6).toNat = 46 from rfl]; omega
  have h21_5 : fld (BitVec.ofNat 32 word) 21 5 = 0 := by
    rw [fld_ofNat _ _ _ _ hn]; apply ofNat_eq; rw [show (0 : BitVec 5).toNat = 0 from rfl]; omega
  have h16_5 : fld (BitVec.ofNat 32 word) 16 5 = 0 := by
    rw [fld_ofNat _ _ _ _ hn]; apply ofNat_eq; rw [show (0 : BitVec 5).toNat = 0 from rfl]; omega
  have h11_5 : fld (BitVec.ofNat 32 word) 11 5 = 0 := by
    rw [fld_ofNat _ _ _ _ hn]; apply ofNat_eq; rw [show (0 : BitVec 5).toNat = 0 from rfl]; omega
  have h4_7 : fld (BitVec.ofNat 32 word) 4 7 = 0 := by
    rw [fld_ofNat _ _ _ _ hn]; apply ofNat_eq; rw [show (0 : BitVec 7).toNat = 0 from rfl]; omega
  have h0_4 : fld (BitVec.ofNat 32 word) 0 4 = 0 := by
    rw [fld_ofNat _ _ _ _ hn]; apply ofNat_eq; rw [show (0 : BitVec 4).toNat = 0 from rfl]; omega
  clear hk hn
  generalize BitVec.ofNat 32 word = w at *
  simp [decodeScalar, decodeMemctl, zeroed, h26_6, h21_5, h16_5, h11_5, h4_7, h0_4]
theorem rrev : Statement (.rrev) := by
  obtain ⟨word, hk⟩ : ∃ word, word = encSR 56 0 0 0 0 := ⟨_, rfl⟩
  refine scalar_of (n := word) (by rw [hk]; rfl) ?_
  simp only [encSR, show (0 : SReg).toNat = 0 from rfl] at hk
  have hn : word < 2 ^ 32 := by omega
  have h26_6 : fld (BitVec.ofNat 32 word) 26 6 = 56 := by
    rw [fld_ofNat _ _ _ _ hn]; apply ofNat_eq; rw [show (56 : BitVec 6).toNat = 56 from rfl]; omega
  have h21_5 : fld (BitVec.ofNat 32 word) 21 5 = 0 := by
    rw [fld_ofNat _ _ _ _ hn]; apply ofNat_eq; rw [show (0 : BitVec 5).toNat = 0 from rfl]; omega
  have h16_5 : fld (BitVec.ofNat 32 word) 16 5 = 0 := by
    rw [fld_ofNat _ _ _ _ hn]; apply ofNat_eq; rw [show (0 : BitVec 5).toNat = 0 from rfl]; omega
  have h11_5 : fld (BitVec.ofNat 32 word) 11 5 = 0 := by
    rw [fld_ofNat _ _ _ _ hn]; apply ofNat_eq; rw [show (0 : BitVec 5).toNat = 0 from rfl]; omega
  have h0_16 : fld (BitVec.ofNat 32 word) 0 16 = 0 := by
    rw [fld_ofNat _ _ _ _ hn]; apply ofNat_eq; rw [show (0 : BitVec 16).toNat = 0 from rfl]; omega
  have h0_11 : fld (BitVec.ofNat 32 word) 0 11 = 0 := by
    rw [fld_ofNat _ _ _ _ hn]; apply ofNat_eq; rw [show (0 : BitVec 11).toNat = 0 from rfl]; omega
  clear hk hn
  generalize BitVec.ofNat 32 word = w at *
  simp [decodeScalar, zeroed, h26_6, h21_5, h16_5, h11_5, h0_16, h0_11]
theorem launchIntake : Statement (.launchIntake) := none_of rfl
theorem graphReplayIntake : Statement (.graphReplayIntake) := none_of rfl
theorem nodeDispatch : Statement (.nodeDispatch) := none_of rfl
theorem watchdog : Statement (.watchdog) := none_of rfl
theorem boot : Statement (.boot) := none_of rfl
theorem heartbeat : Statement (.heartbeat) := none_of rfl
theorem circuitPhaseStart : Statement (.circuitPhaseStart) := none_of rfl
theorem circuitGapStart : Statement (.circuitGapStart) := none_of rfl

end Sys2Proof.Laws.Codes
end

