-- ==== Sys2Proof/Safety.lean ====
section
/-! DEFINITION. What counts as a safe state and a safe run. -/
namespace Sys2Proof.Safety
open Sys2Proof.Machine

/-- A state whose memory is in canonical form. -/
def Safe (s : State) : Prop := s.mem.wf = true
/-- A run of `n` steps that meets no fault and no refusal, and stays safe. -/
def SafeRun : Nat → State → Prop
  | 0, s => Safe s
  | n + 1, s => Safe s ∧ ∃ t, step s = .next t ∧ SafeRun n t

end Sys2Proof.Safety
end

