-- ==== Sys2Proof/Certificates/Slice0/Obligations.lean ====
section
/-! DEFINITION. The statements of this slice. -/

namespace Sys2Proof.Claims
open Sys2Proof Sys2Proof.Machine

/-- `g` is the executing group of `s` and `sp` its executing split. -/
def At (s : State) (g : Group) (sp : Split) : Prop := s.curGroup = some g ∧ g.split s.sched.split = some sp
/-- `g` is the executing group of `s` and `e` the head of its lane queue. -/
def LaneAt (s : State) (g : Group) (e : LaneEntry) : Prop := s.curGroup = some g ∧ g.async.laneq.head? = some e
/-- The executing split goes on as `sp`, its group as `g`; the instruction retires. -/
def goes (s : State) (g : Group) (sp : Split) : State := (s.put g sp).retired
/-- The result `v` is in s[d], the split is at the next instruction, and nothing else has changed. -/
def wrote (s : State) (g : Group) (sp : Split) (d : SReg) (v : DWord) : State := goes s g (sp.setReg d v).advance
/-- The lane instruction at the head of the queue has issued and left the group as `g`. -/
def laneDone (s : State) (g : Group) : State := (s.putGroup s.curKey g).modGroup s.curKey Group.popLane
/-- Every active lane's vd receives a result; the flags it raises are ORed into the group's. -/
def laneResult (s : State) (g : Group) (e : LaneEntry) (f : LaneF) (t : BitVec 4) (r : Nat → Machine.Num) : State :=
  laneDone s (g.laneWrite e f.vd t (g.active e f) r)
/-- A number with no flag. -/
def plain (n : Nat) : Machine.Num := { bits := n, ff := 0, fi := 0 }
/-- The value of an integer modulo 2^w. -/
def mod2 (w : Nat) (x : Int) : Nat := (x % (2 ^ w : Nat)).toNat
/-- The lane's first, second and third source of a type. -/
def srcA (g : Group) (e : LaneEntry) (f : LaneF) (t : BitVec 4) (i : Nat) : Nat := g.src e f.w2 f.va t i
def srcB (g : Group) (e : LaneEntry) (f : LaneF) (t : BitVec 4) (i : Nat) : Nat := g.src e f.w2 f.vb t i
def srcC (g : Group) (e : LaneEntry) (f : LaneF) (t : BitVec 4) (i : Nat) : Nat := g.src e f.w2 f.vc t i
/-- A condition as a word. -/
def asWord (b : Bool) : DWord := if b then 1 else 0
/-- The same machine but for the groups and what the schedule notes. -/
def OnlyGroups (s t : State) : Prop :=
  t.mem = s.mem ∧ t.cores = s.cores ∧ t.gens = s.gens ∧ t.serials = s.serials ∧ t.head = s.head ∧ t.queues = s.queues
    ∧ t.entries = s.entries ∧ t.dev = s.dev ∧ t.fabric = s.fabric ∧ t.answers = s.answers ∧ t.now = s.now
/-- Every group but the executing one is as it was. -/
def OthersSame (s t : State) : Prop := ∀ k, k ≠ s.curKey → t.group k = s.group k

end Sys2Proof.Claims

open Sys2Proof Sys2Proof.Machine Sys2Proof.Claims

/-! ### Scalar arithmetic (R139, R140) -/

/-- R139: what ADD to MAXN write; SEL and the divisions have statements of their own. -/
def Sys2Proof.Claims.ScalarAluResults : Prop :=
  ∀ (s : State) (g : Group) (sp : Split) (d a b : SReg), At s g sp →
    let A := sp.reg a
    let B := sp.reg b
    exec (.add d a b) s = .next (wrote s g sp d (BitVec.ofInt 64 (A.toInt + B.toInt)))
    ∧ exec (.sub d a b) s = .next (wrote s g sp d (BitVec.ofInt 64 (A.toInt - B.toInt)))
    ∧ exec (.mul d a b) s = .next (wrote s g sp d (BitVec.ofInt 64 (A.toInt * B.toInt)))
    ∧ exec (.mulh d a b) s = .next (wrote s g sp d (BitVec.ofInt 64 (A.toInt * B.toInt / 2 ^ 64)))
    ∧ exec (.mulhn d a b) s = .next (wrote s g sp d (BitVec.ofNat 64 (A.toNat * B.toNat / 2 ^ 64)))
    ∧ exec (.and d a b) s = .next (wrote s g sp d (A &&& B))
    ∧ exec (.or d a b) s = .next (wrote s g sp d (A ||| B))
    ∧ exec (.xor d a b) s = .next (wrote s g sp d (A ^^^ B))
    ∧ exec (.shl d a b) s = .next (wrote s g sp d (A <<< (B.toNat % 64)))
    ∧ exec (.shr d a b) s = .next (wrote s g sp d (A >>> (B.toNat % 64)))
    ∧ exec (.sar d a b) s = .next (wrote s g sp d (A.sshiftRight (B.toNat % 64)))
    ∧ exec (.slt d a b) s = .next (wrote s g sp d (asWord (decide (A.toInt < B.toInt))))
    ∧ exec (.sltn d a b) s = .next (wrote s g sp d (asWord (decide (A.toNat < B.toNat))))
    ∧ exec (.seq d a b) s = .next (wrote s g sp d (asWord (decide (A = B))))
    ∧ exec (.min d a b) s = .next (wrote s g sp d (if A.toInt ≤ B.toInt then A else B))
    ∧ exec (.max d a b) s = .next (wrote s g sp d (if A.toInt ≤ B.toInt then B else A))
    ∧ exec (.minn d a b) s = .next (wrote s g sp d (if A.toNat ≤ B.toNat then A else B))
    ∧ exec (.maxn d a b) s = .next (wrote s g sp d (if A.toNat ≤ B.toNat then B else A))

/-- R139, R45: DIV, DIVN, REM and REMN: a zero divisor, the one overflow, and every other pair; IFLAGS.DZ on a zero divisor only. -/
def Sys2Proof.Claims.ScalarDivisionResults : Prop :=
  ∀ (s : State) (g : Group) (sp : Split) (d a b : SReg), At s g sp →
    let A := sp.reg a
    let B := sp.reg b
    let g1 := if B = 0 then g.modCsrs fun c => { c with iflags := c.iflags ||| 1 } else g
    exec (.div d a b) s = .next (wrote s g1 sp d (if B = 0 then BitVec.allOnes 64 else BitVec.ofInt 64 (Int.tdiv A.toInt B.toInt)))
    ∧ exec (.divn d a b) s = .next (wrote s g1 sp d (if B = 0 then BitVec.allOnes 64 else BitVec.ofNat 64 (A.toNat / B.toNat)))
    ∧ exec (.rem d a b) s
        = .next (wrote s g1 sp d (if B = 0 then A else BitVec.ofInt 64 (A.toInt - B.toInt * Int.tdiv A.toInt B.toInt)))
    ∧ exec (.remn d a b) s = .next (wrote s g1 sp d (if B = 0 then A else BitVec.ofNat 64 (A.toNat % B.toNat)))

/-- R140, R10 and SEL of R139. -/
def Sys2Proof.Claims.ScalarImmediateResults : Prop :=
  ∀ (s : State) (g : Group) (sp : Split) (d a b : SReg) (c : BitVec 3) (imm : BitVec 16) (n : BitVec 6), At s g sp →
    let A := sp.reg a
    exec (.sel d a b c) s = .next (wrote s g sp d (if sp.cbits.getLsbD c.toNat then A else sp.reg b))
    ∧ exec (.addi d a imm) s = .next (wrote s g sp d (A + imm.signExtend 64))
    ∧ exec (.andi d a imm) s = .next (wrote s g sp d (A &&& imm.zeroExtend 64))
    ∧ exec (.ori d a imm) s = .next (wrote s g sp d (A ||| imm.zeroExtend 64))
    ∧ exec (.xori d a imm) s = .next (wrote s g sp d (A ^^^ imm.zeroExtend 64))
    ∧ exec (.shli d a n) s = .next (wrote s g sp d (A <<< n.toNat))
    ∧ exec (.shri d a n) s = .next (wrote s g sp d (A >>> n.toNat))
    ∧ exec (.sari d a n) s = .next (wrote s g sp d (A.sshiftRight n.toNat))
    ∧ exec (.slti d a imm) s = .next (wrote s g sp d (asWord (decide (A.toInt < (imm.signExtend 64).toInt))))
    ∧ exec (.lui d imm) s = .next (wrote s g sp d (imm.signExtend 64 <<< 16))
    ∧ exec (.shlor d a imm) s = .next (wrote s g sp d (A <<< 16 ||| imm.zeroExtend 64))

/-- R9, R10, R139, R140: what the ALU words and the immediate forms write, and the division corners. -/
def Obligations.ScalarArithmetic : Prop := Claims.ScalarAluResults ∧ Claims.ScalarDivisionResults ∧ Claims.ScalarImmediateResults

/-- R9, R137: what a write of s[d] reads as, and everything it leaves alone. -/
def Obligations.ScalarWriteFrame : Prop :=
  ∀ (s : State) (g : Group) (sp : Split) (d : SReg) (v : DWord), At s g sp →
    ∃ g1 sp1, (wrote s g sp d v).curGroup = some g1 ∧ g1.split s.sched.split = some sp1
      ∧ sp1.reg d = (if d = 0 then 0 else v) ∧ (∀ r, r ≠ d → sp1.reg r = sp.reg r)
      ∧ sp1.pc = sp.pc + 4 ∧ sp1.lp = sp.lp ∧ sp1.wb = sp.wb ∧ sp1.cbits = sp.cbits ∧ sp1.mask = sp.mask ∧ sp1.status = sp.status
      ∧ (∀ k, k ≠ s.sched.split → g1.split k = g.split k)
      ∧ g1.lanes = g.lanes ∧ g1.trap = g.trap ∧ g1.async = g.async
      ∧ g1.csrs.sinstr = g.csrs.sinstr + 1 ∧ g1.csrs.fflags = g.csrs.fflags ∧ g1.csrs.iflags = g.csrs.iflags
      ∧ g1.csrs.rsb = g.csrs.rsb ∧ g1.csrs.spb = g.csrs.spb ∧ g1.csrs.arrto = g.csrs.arrto ∧ g1.csrs.ovwcnt = g.csrs.ovwcnt
      ∧ g1.csrs.tokstat = g.csrs.tokstat ∧ g1.csrs.cqb = g.csrs.cqb ∧ g1.csrs.rknan = g.csrs.rknan
      ∧ OnlyGroups s (wrote s g sp d v) ∧ OthersSame s (wrote s g sp d v)

/-! ### Branches, jumps, calls (R10, R143 to R146) -/

/-- R10, R143: a branch whose target lies in its own slot of instruction memory goes there when its condition holds, else to PC + 4. -/
def Sys2Proof.Claims.BranchResults : Prop :=
  ∀ (s : State) (g : Group) (sp : Split) (a b : SReg) (c : BitVec 3) (disp : BitVec 16), At s g sp →
    let t := sp.pc + 4 + 4 * disp.signExtend 64
    t.toNat < 2 ^ 18 → t.toNat % 4 = 0 → t.toNat / 8192 = sp.pc.toNat / 8192 →
    let A := sp.reg a
    let B := sp.reg b
    let next := fun (q : Bool) => Host.Outcome.next (goes s g (if q then sp.goto t else sp.advance))
    exec (.beq a b disp) s = next (decide (A = B))
    ∧ exec (.bne a b disp) s = next (decide (A ≠ B))
    ∧ exec (.blt a b disp) s = next (decide (A.toInt < B.toInt))
    ∧ exec (.bge a b disp) s = next (decide (B.toInt ≤ A.toInt))
    ∧ exec (.bltn a b disp) s = next (decide (A.toNat < B.toNat))
    ∧ exec (.bgen a b disp) s = next (decide (B.toNat ≤ A.toNat))
    ∧ exec (.bct c disp) s = next (sp.cbits.getLsbD c.toNat)
    ∧ exec (.bcf c disp) s = next (!sp.cbits.getLsbD c.toNat)

/-- R143: a target in another slot raises SEGMENT_CROSS whether the branch is taken or not. -/
def Sys2Proof.Claims.BranchCrossTraps : Prop :=
  ∀ (s : State) (g : Group) (sp : Split) (a b : SReg) (c : BitVec 3) (disp : BitVec 16), At s g sp →
    let t := sp.pc + 4 + 4 * disp.signExtend 64
    t.toNat < 2 ^ 18 → t.toNat % 4 = 0 → t.toNat / 8192 ≠ sp.pc.toNat / 8192 →
    ∀ i ∈ [Instr.beq a b disp, .bne a b disp, .blt a b disp, .bge a b disp, .bltn a b disp, .bgen a b disp, .bct c disp, .bcf c disp],
      exec i s = .next (s.trapScalar (Trap.of 0x0B))

/-- R10, R144, R145: JAL, JALR, JMPF, CALL and RET where no check fails. -/
def Sys2Proof.Claims.JumpResults : Prop :=
  ∀ (s : State) (g : Group) (sp : Split), At s g sp →
    (∀ disp : BitVec 26,
      let t := sp.pc + 4 + 4 * disp.signExtend 64
      t.toNat < 2 ^ 18 → t.toNat % 4 = 0 → t.toNat / 8192 = sp.pc.toNat / 8192 →
        exec (.jal disp) s = .next (goes s g ((sp.setReg 31 (sp.pc + 4)).goto t)))
    ∧ (∀ (d a : SReg) (imm : BitVec 16),
      let t := sp.reg a + 4 * imm.signExtend 64
      t.toNat < 2 ^ 18 → t.toNat % 4 = 0 → t.toNat / 8192 = sp.pc.toNat / 8192 →
        exec (.jalr d a imm) s = .next (goes s g ((sp.setReg d (sp.pc + 4)).goto t)))
    ∧ (∀ (d a : SReg) (imm : BitVec 16),
      let t := sp.reg a + 4 * imm.zeroExtend 64
      t.toNat < 2 ^ 18 → t.toNat % 4 = 0 → (s.codeSlot s.sched.core (t.toNat / 8192)).state = .landed →
        exec (.jmpf d a imm) s = .next (goes s g ((sp.setReg d (sp.pc + 4)).goto t)))
    ∧ (∀ (k : BitVec 5) (disp : BitVec 16),
      let t := sp.pc + 4 + 4 * disp.signExtend 64
      k.toNat ≤ 7 → t.toNat < 2 ^ 18 → t.toNat % 4 = 0 → t.toNat / 8192 = sp.pc.toNat / 8192 →
      sp.wb + 8 * k.toNat + 63 ≤ min (g.csrs.rsb + g.size - 1) 511 →
        exec (.call k disp) s = .next (goes s g
          ({ sp.setReg 31 (sp.lp.zeroExtend 64 <<< 32 ||| (sp.pc + 4)) with wb := sp.wb + 8 * k.toNat }.goto t)))
    ∧ (∀ k : BitVec 3,
      let rpc : DWord := BitVec.ofNat 64 ((sp.reg 31).toNat % 2 ^ 32)
      let rlp : Word := BitVec.ofNat 32 ((sp.reg 31).toNat / 2 ^ 32)
      rpc.toNat < 2 ^ 18 → rpc.toNat % 4 = 0 → rpc.toNat / 8192 = sp.pc.toNat / 8192 →
      8 * k.toNat + g.csrs.rsb ≤ sp.wb →
        exec (.ret k) s = .next (goes s g ({ sp with wb := sp.wb - 8 * k.toNat, lp := rlp }.goto rpc)))

/-- R145, R32: CALL past the window raises WINDOW_OVER, RET below it WINDOW_UNDER, and the entry to the handler is all that happens. -/
def Sys2Proof.Claims.WindowTraps : Prop :=
  ∀ (s : State) (g : Group) (sp : Split), At s g sp →
    (∀ (k : BitVec 5) (disp : BitVec 16),
      let t := sp.pc + 4 + 4 * disp.signExtend 64
      k.toNat ≤ 7 → t.toNat < 2 ^ 18 → t.toNat % 4 = 0 → t.toNat / 8192 = sp.pc.toNat / 8192 →
      min (g.csrs.rsb + g.size - 1) 511 < sp.wb + 8 * k.toNat + 63 →
        exec (.call k disp) s = .next (s.trapScalar (Trap.of 0x08)))
    ∧ (∀ k : BitVec 3,
      let rpc : DWord := BitVec.ofNat 64 ((sp.reg 31).toNat % 2 ^ 32)
      rpc.toNat < 2 ^ 18 → rpc.toNat % 4 = 0 → rpc.toNat / 8192 = sp.pc.toNat / 8192 →
      sp.wb < 8 * k.toNat + g.csrs.rsb →
        exec (.ret k) s = .next (s.trapScalar (Trap.of 0x09)))

/-- R10, R143 to R145: branches, jumps, calls and returns: where they go, what they write, and where they trap instead. -/
def Obligations.ScalarControl : Prop := Claims.BranchResults ∧ Claims.BranchCrossTraps ∧ Claims.JumpResults ∧ Claims.WindowTraps

/-- R7, R8, R124, R146: LSET, and an LRUN whose whole run has room in the queue. -/
def Obligations.LanePointerResults : Prop :=
  ∀ (s : State) (g : Group) (sp : Split), At s g sp →
    (∀ (a : SReg) (imm : BitVec 16),
      exec (.lset a imm) s = .next (goes s g { sp with lp := BitVec.ofNat 32 ((sp.reg a).toNat + imm.toNat) }.advance))
    ∧ (∀ n : BitVec 16, 1 ≤ n.toNat → n.toNat ≤ 256 → sp.runs = [] → sp.lp.toNat < 21824 →
      (sp.lp.toNat + n.toNat - 1) / 682 = sp.lp.toNat / 682 →
      (s.codeSlot s.sched.core (sp.lp.toNat / 682)).state = .landed → g.async.laneq.length + n.toNat ≤ 64 →
      ∃ t g1 sp1, exec (.lrun n) s = .next t ∧ t.curGroup = some g1 ∧ g1.split s.sched.split = some sp1
        ∧ sp1.lp = sp.lp + BitVec.ofNat 32 n.toNat ∧ sp1.pc = sp.pc + 4
        ∧ g1.async.laneq.length = g.async.laneq.length + n.toNat
        ∧ g1.async.laneq.take g.async.laneq.length = g.async.laneq
        ∧ (∀ k, k < n.toNat → ∃ e, g1.async.laneq[g.async.laneq.length + k]? = some e
            ∧ e.tag.split = s.sched.split ∧ e.tag.mask = sp.mask ∧ e.tag.wb = sp.wb ∧ e.tag.pc = sp.pc
            ∧ e.tag.lp = BitVec.ofNat 32 (sp.lp.toNat + k)
            ∧ e.bits = BitVec.ofNat 96 (leNat ((s.core s.sched.core).codeBytes
                (8192 * ((sp.lp.toNat + k) / 682) + 12 * ((sp.lp.toNat + k) % 682)) 12)))
        ∧ OnlyGroups s t ∧ OthersSame s t)


namespace Sys2Proof.Claims

/-- What a core holds of a byte where it has written it and not yet written it back, else the home's byte (R170, R171). -/
def viewOf (s : State) (core a : Nat) : Byte := (amGet (s.core core).l1.dirty a).getD (s.mem.byte a)
/-- The number that `n` bytes from `pa` hold, as a core has last written them. -/
def viewNat (s : State) (core pa n : Nat) : Nat := leNat ((upFrom pa n).map (viewOf s core))
/-- A byte a load may answer: the core's own newest byte, or, where it has written none, the home's or a clean copy in its L1. -/
def mayRead (s : State) (core a : Nat) (b : Byte) : Prop :=
  match amGet (s.core core).l1.dirty a with
  | some x => b = x
  | none => b = s.mem.byte a ∨ amGet (s.core core).l1.clean a = some b
/-- The frame of an access by one core: for every address in `keep` the newest value of the byte is as it was (but in a live word, where the home
discards a write-back), the home's byte is as it was or has been written back, and a clean copy holds what the L1 or the home held; live words, other
cores, other groups and the rest of the machine are as they were. -/
structure MemFrame (core : Nat) (keep : Nat → Prop) (s t : State) : Prop where
  view : ∀ a, keep a → s.mem.live a = none → viewOf t core a = viewOf s core a
  home : ∀ a, keep a → t.mem.byte a = s.mem.byte a ∨ amGet (s.core core).l1.dirty a = some (t.mem.byte a)
  clean : ∀ a b, keep a → amGet (t.core core).l1.clean a = some b →
    amGet (s.core core).l1.clean a = some b ∨ amGet (s.core core).l1.dirty a = some b ∨ s.mem.byte a = b
  words : t.mem.sync = s.mem.sync
  cores : ∀ c, c ≠ core → t.core c = s.core c
  others : OthersSame s t
  rest : t.head = s.head ∧ t.dev = s.dev ∧ t.fabric = s.fabric ∧ t.answers = s.answers ∧ t.queues = s.queues ∧ t.entries = s.entries
    ∧ t.gens = s.gens ∧ t.serials = s.serials ∧ t.now = s.now
/-- Outside `n` bytes from `pa`. -/
def outside (pa n a : Nat) : Prop := a < pa ∨ pa + n ≤ a
/-- One run of bytes of package memory on an ordinary page. -/
def oneSeg (pa n va : Nat) : Seg := { place := .mem pa, len := n, va := va, fmt := none }
/-- The value an access holds for its scalar register. -/
def regPart (v : DWord) : AccPart := { lane := 0, slot := 0, wide := true, ticket := none, value := v }
/-- The group after an instruction of `split` has issued the access `acc`: it is outstanding under the group's next number, the counter of its class
has gone up by one, the instruction has retired, and the split is at the next instruction. -/
def issued (g : Group) (split : Nat) (acc : Access) : Group :=
  ((g.addAccess g.nextAccess acc).modSplit split Split.advance).retired split

end Sys2Proof.Claims

/-! ### Scalar memory (R138, R141, R142, R156) -/

/-- R141, R156, R170: LDS and LDW of bytes of package memory: the access is outstanding for s[d] with the bytes read, sign-extended for LDW; nothing else
has changed but where bytes lie. The premises: the checks pass, the counter has room, and no line is in the commutative-update state. -/
def Sys2Proof.Claims.ScalarLoadResults : Prop :=
  ∀ (s : State) (g : Group) (sp : Split) (d a : SReg) (disp : BitVec 16) (narrow : Bool) (pa va : Nat), At s g sp →
    let n := if narrow then 4 else 8
    let core := s.sched.core
    g.memIssued s.sched.split = true → g.async.loads < 4095 → s.mem.cu = [] → pa % n = 0 →
    s.checkScalar (s.whoOf core g) (sp.reg a + disp.signExtend 64) n .rd = .ok [oneSeg pa n va] →
    ∃ t bs, exec (if narrow then .ldw d a disp else .lds d a disp) s = .next t ∧ bs.length = n
      ∧ (∀ i b, bs[i]? = some b → mayRead s core (pa + i) b)
      ∧ t.curGroup = some (issued g s.sched.split
          { load := true, lane := false, split := s.sched.split, sreg := some d, acks := [], reach := 0, nord := false,
            parts := [regPart (if narrow then (BitVec.ofNat 32 (leNat bs)).signExtend 64 else BitVec.ofNat 64 (leNat bs))] })
      ∧ MemFrame core (fun _ => True) s t

/-- R141, R156, R170: STS and STW to package memory: the low bytes of s[d] are the newest values of the bytes stored to, and every other byte is as it was. -/
def Sys2Proof.Claims.ScalarStoreResults : Prop :=
  ∀ (s : State) (g : Group) (sp : Split) (d a : SReg) (disp : BitVec 16) (narrow : Bool) (pa va : Nat), At s g sp →
    let n := if narrow then 4 else 8
    let core := s.sched.core
    g.memIssued s.sched.split = true → g.async.stores < 4095 → s.mem.cu = [] →
    s.checkScalar (s.whoOf core g) (sp.reg a + disp.signExtend 64) n .wr = .ok [oneSeg pa n va] →
    ∃ t, exec (if narrow then .stw d a disp else .sts d a disp) s = .next t
      ∧ (∀ i, i < n → viewOf t core (pa + i) = BitVec.ofNat 8 ((sp.reg d).toNat / 256 ^ i))
      ∧ t.curGroup = some (issued g s.sched.split
          { load := false, lane := false, split := s.sched.split, sreg := none, acks := [], reach := 0, nord := false, parts := [] })
      ∧ MemFrame core (outside pa n) s t

/-- R169, R96: LDS, LDW, STS and STW in the team's scratchpad. -/
def Sys2Proof.Claims.ScalarScratchResults : Prop :=
  ∀ (s : State) (g : Group) (sp : Split) (d a : SReg) (disp : BitVec 16) (narrow : Bool) (tm off va : Nat) (team : Team), At s g sp →
    let n := if narrow then 4 else 8
    let core := s.sched.core
    let addr := sp.reg a + disp.signExtend 64
    let seg : Seg := { place := .scratch tm off, len := n, va := va, fmt := none }
    g.memIssued s.sched.split = true → s.team tm = some team →
    (g.async.loads < 4095 → s.checkScalar (s.whoOf core g) addr n .rd = .ok [seg] →
      let v := leNat ((upFrom off n).map fun o => stGet 0 team.scratch o)
      ∃ t, exec (if narrow then .ldw d a disp else .lds d a disp) s = .next t
        ∧ t.curGroup = some (issued g s.sched.split
            { load := true, lane := false, split := s.sched.split, sreg := some d, acks := [], reach := 0, nord := false,
              parts := [regPart (if narrow then (BitVec.ofNat 32 v).signExtend 64 else BitVec.ofNat 64 v)] })
        ∧ OnlyGroups s t ∧ OthersSame s t)
    ∧ (g.async.stores < 4095 → s.checkScalar (s.whoOf core g) addr n .wr = .ok [seg] →
      ∃ t team1, exec (if narrow then .stw d a disp else .sts d a disp) s = .next t ∧ t.team tm = some team1
        ∧ (∀ o, stGet 0 team1.scratch o
            = if off ≤ o ∧ o < off + n then BitVec.ofNat 8 ((sp.reg d).toNat / 256 ^ (o - off)) else stGet 0 team.scratch o)
        ∧ (∀ k, k ≠ tm → t.team k = s.team k) ∧ t.mem = s.mem ∧ t.cores = s.cores ∧ OthersSame s t)

/-- R141, R168 to R172: scalar loads and stores, of global memory and of scratchpad. -/
def Obligations.ScalarMemory : Prop := Claims.ScalarLoadResults ∧ Claims.ScalarStoreResults ∧ Claims.ScalarScratchResults

/-- R142, R172: SATOM and SCAS, plain or without a returned order (use 0 or 2), at device scope or wider, on package memory: the old value is the newest
one, the new value stands at the home, and the core keeps no copy of it; every other byte is as it was. -/
def Obligations.ScalarAtomicResults : Prop :=
  ∀ (s : State) (g : Group) (sp : Split) (d a b : SReg) (scope : BitVec 2) (use : BitVec 3) (narrow : BitVec 1) (op : BitVec 4) (swap : Bool)
    (pa va : Nat), At s g sp →
    let n := if narrow = 1 then 4 else 8
    let w := 2 ^ (8 * n)
    let core := s.sched.core
    let i := if swap then Instr.scas d a b scope use narrow else Instr.satom d a b scope use narrow op
    let old := viewNat s core pa n
    let f := satomOp (narrow == 1) op.toNat
    let ty : BitVec 4 := if swap then (if narrow = 1 then 4 else 6) else f.1
    let new : Nat := if swap then (if old = (sp.reg d).toNat % w then (sp.reg b).toNat % w else old)
      else (atomicOp f.1 f.2 old ((sp.reg b).toNat % w)).bits
    i.wf = true → (use = 0 ∨ use = 2) → scope ≠ 0 → g.memIssued s.sched.split = true → s.mem.cu = [] → pa % n = 0 →
    (if d = 0 then g.async.stores < 4095 else g.async.loads < 4095) → (∀ j, j < n → s.mem.live (pa + j) = none) →
    s.checkScalar (s.whoOf core g) (sp.reg a) n .atom = .ok [oneSeg pa n va] →
    ∃ t, exec i s = .next t
      ∧ (∀ j, j < n → t.mem.byte (pa + j) = BitVec.ofNat 8 (new / 256 ^ j) ∧ amGet (t.core core).l1.dirty (pa + j) = none
          ∧ amGet (t.core core).l1.clean (pa + j) = none)
      ∧ t.curGroup = some (issued g s.sched.split
          { load := (d != 0)
            lane := false
            split := s.sched.split
            sreg := (if d = 0 then none else some d)
            acks := []
            reach := 0
            nord := (use == 2)
            parts := if d = 0 then [] else [regPart (if narrow = 1 then (BitVec.ofNat 32 old).signExtend 64 else BitVec.ofNat 64 old)] })
      ∧ widthOf ty = 8 * n ∧ MemFrame core (outside pa n) s t

/-- R156: MEMORY_ACCESS_COMPLETE of a scalar access that no other rank owes: its register takes the value, and its class's counter goes down by one. -/
def Obligations.AccessCompletes : Prop :=
  ∀ (s : State) (core slot id : Nat) (g : Group) (sp : Split) (acc : Access), s.group (gkey core slot) = some g →
    amGet g.async.access id = some acc → acc.lane = false → acc.acks = [] → (∀ p ∈ acc.parts, p.ticket = none) → g.split acc.split = some sp →
    ∃ g1, exec (.memoryAccessComplete core slot id) s = .next (s.putGroup (gkey core slot) g1)
      ∧ amGet g1.async.access id = none ∧ (∀ k, k ≠ id → amGet g1.async.access k = amGet g.async.access k)
      ∧ g1.async.loads = (if acc.load then g.async.loads - 1 else g.async.loads)
      ∧ g1.async.stores = (if acc.load then g.async.stores else g.async.stores - 1)
      ∧ (∀ k, g1.split k = if k = acc.split then some (match acc.sreg, acc.parts with
          | some d, p :: _ => sp.setReg d p.value
          | _, _ => sp) else g.split k)
      ∧ g1.lanes = g.lanes ∧ g1.csrs = g.csrs ∧ g1.trap = g.trap ∧ g1.ctl = g.ctl

/-- R36, R148: WSPILL and WFILL of one resident slot k = s[a]: the slot's 32 values at SPB + 128k, its pending word at SPB - 64 - 8k. -/
def Obligations.WindowSpillFill : Prop :=
  ∀ (s : State) (g : Group) (sp : Split) (a b : SReg) (k : Nat) (pl pw vl vw : Nat), At s g sp →
    let core := s.sched.core
    let w := s.whoOf core g
    let line := g.csrs.spb + BitVec.ofNat 64 (128 * k)
    let word := g.csrs.spb - 64 - BitVec.ofNat 64 (8 * k)
    (sp.reg a).toNat = k → sp.reg b = 1 → g.resident k = true → g.allLaneDone = true → k < 512 → s.mem.cu = [] →
    (let s1 := s.segsWrite core [oneSeg pl 128 vl] (g.lineBytes k)
     s.checkScalar w line 128 .wr = .ok [oneSeg pl 128 vl] → s1.checkScalar w word 8 .wr = .ok [oneSeg pw 8 vw] → pw + 8 ≤ pl ∨ pl + 128 ≤ pw →
     ∃ t, exec (.wspill a b) s = .next t
      ∧ (∀ i j, i < 32 → j < 4 → s.mem.live (pl + 4 * i + j) = none →
          viewOf t core (pl + 4 * i + j) = BitVec.ofNat 8 ((g.slotVal k i).toNat / 256 ^ j))
      ∧ (∀ j, j < 4 → viewOf t core (pw + j) = BitVec.ofNat 8 ((g.pmask k).toNat / 256 ^ j)
          ∧ viewOf t core (pw + 4 + j) = BitVec.ofNat 8 ((g.lmask k).toNat / 256 ^ j))
      ∧ MemFrame core (fun x => outside pl 128 x ∧ outside pw 8 x) s t)
    ∧ (let s1 := (s.segsRead core [oneSeg pl 128 vl]).1
       s.checkScalar w line 128 .rd = .ok [oneSeg pl 128 vl] → s1.checkScalar w word 8 .rd = .ok [oneSeg pw 8 vw] → pl % 128 = 0 → pw % 8 = 0 →
       (∀ j, j < 128 → amGet (s.core core).l1.clean (pl + j) = none ∧ s.mem.live (pl + j) = none) →
       (∀ j, j < 8 → amGet (s.core core).l1.clean (pw + j) = none ∧ s.mem.live (pw + j) = none) →
       ∃ t g1, exec (.wfill a b) s = .next t ∧ t.curGroup = some g1
        ∧ (∀ i, i < 32 → g1.slotVal k i = BitVec.ofNat 32 (viewNat s core (pl + 4 * i) 4))
        ∧ g1.pmask k = BitVec.ofNat 32 (viewNat s core pw 4) ∧ g1.lmask k = BitVec.ofNat 32 (viewNat s core (pw + 4) 4)
        ∧ (∀ m i, g.row m ≠ g.row k → i < 32 → g1.slotVal m i = g.slotVal m i)
        ∧ (∀ m, g.row m ≠ g.row k → g1.pmask m = g.pmask m ∧ g1.lmask m = g.lmask m)
        ∧ MemFrame core (fun _ => True) s t)

namespace Sys2Proof.Claims

/-- The trap CSRs after entering the handler for a scalar trap (R151, R153): INH is set, LANE clear, SKIP as the cause has it. -/
def scalarTrapCsrs (g : Group) (sp : Split) (cause code : Nat) (skip : Bool) : TrapCsrs :=
  { cause := BitVec.ofNat 32 (cause + 256 * code + 2 ^ 18 + (if skip then 2 ^ 19 else 0)), pc := sp.pc, lp := sp.lp.zeroExtend 64, addr := 0, lane := 0,
    rpc := sp.pc, rlp := sp.lp.zeroExtend 64, vec := g.trap.vec, holdA := g.trap.holdA, holdB := g.trap.holdB }
/-- No split of the group waits at a JOIN. -/
def noJoin (g : Group) : Prop := ∀ x ∈ g.splits, ∀ id m, x.2.status ≠ .joining id m
/-- The group has no quantum add left in its core's combining buffer. -/
def noQuant (s : State) : Prop := s.sched.slot < 32 ∧ (s.core s.sched.core).quant.any (fromGroup s.sched.slot) = false

end Sys2Proof.Claims

/-! ### The SYS group, traps and control registers (R130, R149 to R155) -/

/-- R152, R153: TRAP and BRK outside handler mode with a handler whose slot has landed: the cause (SOFTWARE or BREAK) with the code, SKIP and INH set;
PC and lp saved; the split goes on at TRAPVEC with its own registers and window; the other splits' waits begin again; no lane entry is held. -/
def Sys2Proof.Claims.TrapEntry : Prop :=
  ∀ (s : State) (g : Group) (sp : Split) (code : BitVec 7) (brk : Bool), At s g sp → g.ctl.trapSplit = none → g.trap.vec ≠ 0 →
    (s.codeSlot s.sched.core (g.trap.vec.toNat / 8192)).state = .landed → noQuant s →
    ∃ t g1 sp1, exec (if brk then .brk code else .trap code) s = .next t ∧ t.curGroup = some g1 ∧ g1.split s.sched.split = some sp1
      ∧ g1.trap = scalarTrapCsrs g sp (if brk then 0x10 else 0x11) code.toNat true
      ∧ sp1.pc = g.trap.vec ∧ sp1.status = .ready ∧ sp1.lp = sp.lp ∧ sp1.wb = sp.wb ∧ sp1.sregs = sp.sregs ∧ sp1.cbits = sp.cbits ∧ sp1.mask = sp.mask
      ∧ g1.ctl.trapSplit = some s.sched.split ∧ g1.lanes = g.lanes ∧ g1.csrs = g.csrs ∧ g1.async.laneq = g.async.laneq ∧ g1.async.held = g.async.held
      ∧ (∀ k, k ≠ s.sched.split → g1.split k = (g.split k).map fun x => { x with status := x.status.withdraw, pstall := none })
      ∧ OnlyGroups s t ∧ OthersSame s t

/-- R153, R155, R335: TRAP and BRK in handler mode, or with TRAPVEC 0, or with the handler's slot not landed: the handler is not entered, the group stays
stopped, and its fault domain receives the fault. The premises: the RCB names no fault counter and does not cancel on a fault, and the group has no quantum add in the buffer. -/
def Sys2Proof.Claims.TrapEscalates : Prop :=
  ∀ (s : State) (g : Group) (sp : Split) (tm : Team) (code : BitVec 7) (brk : Bool), At s g sp →
    (g.ctl.trapSplit ≠ none ∨ g.trap.vec = 0 ∨ (s.codeSlot s.sched.core (g.trap.vec.toNat / 8192)).state ≠ .landed) → s.team g.team = some tm →
    s.rcbField tm.asid tm.rcb 88 8 = 0 → s.rcbCof tm.asid tm.rcb = false → noQuant s →
    ∃ t e, exec (if brk then .brk code else .trap code) s = .next t
      ∧ t.curGroup = some { g with ctl := { g.ctl with stopped := true, fault := none }, async := { g.async with xshfl := none } }
      ∧ t.dev.events.records = s.dev.events.records ++ [e] ∧ e.kind = 3 ∧ e.cause = (if brk then 0x10 else 0x11) ∧ e.detail2 = 0
      ∧ t.mem = s.mem ∧ t.cores = s.cores ∧ t.queues = s.queues ∧ t.entries = s.entries ∧ t.fabric = s.fabric ∧ OthersSame s t

/-- R154: ERET in the handler, its lane work done: PC and lp from TRAPRPC and TRAPRLP (PC + 4 past a scalar instruction with SKIP), the held entries back
at the head of the queue, without the faulting one when SKIP is set after a lane trap, and INH clear; outside handler mode ERET raises ILLEGAL. -/
def Sys2Proof.Claims.TrapReturn : Prop :=
  ∀ (s : State) (g : Group) (sp : Split), At s g sp →
    (g.ctl.trapSplit = some s.sched.split → g.handlerDone s.sched.split = true →
      let skip := g.trap.cause.getLsbD 19
      let lane := g.trap.cause.getLsbD 16
      ∃ t g1 sp1, exec .eret s = .next t ∧ t.curGroup = some g1 ∧ g1.split s.sched.split = some sp1
        ∧ sp1.pc = (if skip && !lane then g.trap.rpc + 4 else g.trap.rpc) ∧ sp1.lp = BitVec.ofNat 32 g.trap.rlp.toNat
        ∧ sp1.sregs = sp.sregs ∧ sp1.wb = sp.wb ∧ sp1.cbits = sp.cbits ∧ sp1.mask = sp.mask ∧ sp1.status = sp.status
        ∧ g1.async.laneq = (if lane && skip then g.async.held.drop 1 else g.async.held) ++ g.async.laneq ∧ g1.async.held = []
        ∧ g1.ctl.trapSplit = none ∧ (∀ i, g1.trap.cause.getLsbD i = (g.trap.cause.getLsbD i && i != 18))
        ∧ (∀ k, k ≠ s.sched.split → g1.split k = g.split k) ∧ g1.lanes = g.lanes
        ∧ g1.csrs = { g.csrs with sinstr := g.csrs.sinstr + 1 } ∧ OnlyGroups s t ∧ OthersSame s t)
    ∧ (g.ctl.trapSplit ≠ some s.sched.split → exec .eret s = .next (s.trapScalar (Trap.of 0x01)))

/-- R153 to R155: taking a scalar trap, escalating one that is raised in a handler, and the return. -/
def Obligations.TrapEntryAndReturn : Prop := Claims.TrapEntry ∧ Claims.TrapEscalates ∧ Claims.TrapReturn

/-- R149, R130: NOP; SLEEP of no cycles, SLEEP of n cycles and its end; EXIT of a split that is not its group's last and of the last one. -/
def Obligations.NopSleepExit : Prop :=
  ∀ (s : State) (g : Group) (sp : Split), At s g sp →
    exec .nop s = .next (goes s g sp.advance)
    ∧ (∀ a : SReg, sp.naps = [] → sp.reg a = 0 → exec (.sleep a) s = .next (goes s g sp.advance))
    ∧ (∀ a : SReg, sp.naps = [] → sp.reg a ≠ 0 →
        let till := s.now + min (2 ^ 32 - 1) (sp.reg a).toNat
        exec (.sleep a) s = .next (s.put g { sp with status := .sleep till, naps := [(sp.pc, till)] }))
    ∧ (∀ till, sp.status = .sleep till → till ≤ s.now →
        ∃ g1 sp1, exec (.sleepExpiry s.sched.core s.sched.slot s.sched.split) s = .next (s.modGroup s.curKey fun _ => g1)
          ∧ g1.split s.sched.split = some sp1 ∧ sp1.pc = sp.pc + 4 ∧ sp1.status = .ready ∧ sp1.sregs = sp.sregs ∧ sp1.lp = sp.lp ∧ sp1.wb = sp.wb
          ∧ sp1.cbits = sp.cbits ∧ sp1.mask = sp.mask ∧ g1.lanes = g.lanes ∧ g1.trap = g.trap ∧ g1.async = g.async)
    ∧ (g.laneDone s.sched.split = true → g.ctl.trapSplit ≠ some s.sched.split → noJoin g →
        (∃ k, k ≠ s.sched.split ∧ (g.split k).isSome = true) →
        ∃ t g1, exec .exit s = .next t ∧ t.curGroup = some g1 ∧ g1.split s.sched.split = none
          ∧ (∀ k, k ≠ s.sched.split → g1.split k = g.split k) ∧ g1.lanes = { g.lanes with alive := g.lanes.alive &&& ~~~sp.mask }
          ∧ g1.trap = g.trap ∧ OnlyGroups s t ∧ OthersSame s t)
    ∧ (g.laneDone s.sched.split = true → g.ctl.trapSplit ≠ some s.sched.split → noQuant s →
        (∀ k, k ≠ s.sched.split → g.split k = none) →
        ∃ t, exec .exit s = .next t ∧ t.curGroup = none ∧ t.gen s.curKey = s.gen s.curKey + 1 ∧ OthersSame s t)

/-- R150, R151, R53, R422: what CSRR returns for each register, and that a reserved number raises ILLEGAL. -/
def Sys2Proof.Claims.CsrReads : Prop :=
  ∀ (s : State) (g : Group) (sp : Split) (tm : Team) (d : SReg), At s g sp → s.team g.team = some tm → g.laneDone s.sched.split = true →
    let core := s.sched.core
    let die := core / 96
    let cluster := 3 * (core % 96 / 24) + core % 12 / 4
    let inCluster := 4 * (core % 24 / 12) + core % 4
    let c := s.core core
    (∀ x ∈ ([(0x00, BitVec.ofNat 64 s.now), (0x01, g.csrs.sinstr), (0x02, BitVec.ofNat 64 s.dev.rank),
        (0x03, BitVec.ofNat 64 (4096 * die + 256 * cluster + 32 * inCluster + s.sched.slot)),
        (0x04, BitVec.ofNat 64 (2 ^ 32 * g.teamIndex + 32 * (tm.count - 1) + g.index)), (0x05, (s.gen s.curKey).zeroExtend 64),
        (0x06, sp.mask.zeroExtend 64), (0x07, sp.cbits.zeroExtend 64), (0x08, tm.part),
        (0x09, BitVec.ofNat 64 (65536 * Config.stepping.toNat + 6)),
        (0x0A, BitVec.ofNat 64 (2 ^ 24 * s.channels + 2 ^ 15 * s.slices + 2 ^ 9 * s.clusterCount + s.coreCount)),
        (0x10, g.trap.cause.zeroExtend 64), (0x11, g.trap.pc), (0x12, g.trap.lp), (0x13, g.trap.addr), (0x14, g.trap.lane), (0x15, g.trap.rpc),
        (0x16, g.trap.rlp), (0x17, g.trap.vec), (0x18, g.trap.holdA), (0x19, g.trap.holdB),
        (0x20, BitVec.ofNat 64 g.csrs.rsb), (0x21, g.csrs.spb), (0x22, g.csrs.fflags.zeroExtend 64), (0x23, g.csrs.iflags.zeroExtend 64),
        (0x24, g.csrs.arrto), (0x25, g.csrs.ovwcnt), (0x34, BitVec.ofNat 64 (0x01FFFFFFFFE00000 + 8 * core)),
        (0x35, BitVec.ofNat 64 (0x01FFFFFFFFE10000 + 256 * core + 8 * tm.slot0)), (0x36, BitVec.ofNat 64 (0x01FFFFFFFFE01000 + 8 * core)),
        (0x37, g.csrs.rknan), (0x40, c.counters.issue), (0x41, c.counters.useful), (0x42, c.counters.late), (0x43, c.counters.unused),
        (0x44, c.counters.l1miss)] : List (Nat × DWord)), exec (.csrr d (BitVec.ofNat 7 x.1)) s = .next (wrote s g sp d x.2))
    ∧ (∀ k, k < 8 → exec (.csrr d (BitVec.ofNat 7 (0x28 + k))) s = .next (wrote s g sp d (stGet 0 g.csrs.tokstat k)))
    ∧ (∀ k, k < 4 → exec (.csrr d (BitVec.ofNat 7 (0x30 + k))) s = .next (wrote s g sp d (stGet 0 g.csrs.cqb k)))
    ∧ (∀ n : BitVec 7, (0x0A < n.toNat ∧ n.toNat < 0x10) ∨ (0x19 < n.toNat ∧ n.toNat < 0x20) ∨ (0x25 < n.toNat ∧ n.toNat < 0x28)
        ∨ (0x37 < n.toNat ∧ n.toNat < 0x40) ∨ 0x44 < n.toNat → exec (.csrr d n) s = .next (s.trapScalar (Trap.of 0x01)))
    ∧ (∀ ints : Bool, exec (.flagsAccess false ints d) s
        = .next (wrote s g sp d (if ints then g.csrs.iflags.zeroExtend 64 else g.csrs.fflags.zeroExtend 64)))

/-- R150, R151, R34, R36, R53, R226: what CSRW changes, register by register, and which writes raise ILLEGAL: reserved numbers, read-only registers, the
handler's registers outside handler mode, a TRAPCAUSE that changes a read-only field, an RSB the group's windows do not allow, an unaligned SPB or CQB. -/
def Sys2Proof.Claims.CsrWrites : Prop :=
  ∀ (s : State) (g : Group) (sp : Split) (a : SReg), At s g sp →
    let v := sp.reg a
    let w := fun (n : Nat) => exec (.csrw a (BitVec.ofNat 7 n)) s
    let to_ := fun (g1 : Group) => Host.Outcome.next (goes s g1 sp.advance)
    let ill := Host.Outcome.next (s.trapScalar (Trap.of 0x01))
    w 0x07 = .next (goes s g { sp.advance with cbits := BitVec.ofNat 8 v.toNat })
    ∧ (g.ctl.trapSplit ≠ none →
        w 0x15 = to_ { g with trap := { g.trap with rpc := v } } ∧ w 0x16 = to_ { g with trap := { g.trap with rlp := v } }
        ∧ w 0x18 = to_ { g with trap := { g.trap with holdA := v } } ∧ w 0x19 = to_ { g with trap := { g.trap with holdB := v } }
        ∧ ((∀ i, i < 17 ∨ i = 18 → v.getLsbD i = g.trap.cause.getLsbD i) →
            ∃ c : Word, w 0x10 = to_ { g with trap := { g.trap with cause := c } }
              ∧ ∀ i, c.getLsbD i = if i = 19 then v.getLsbD 19 else g.trap.cause.getLsbD i)
        ∧ ((∃ i, (i < 17 ∨ i = 18) ∧ v.getLsbD i ≠ g.trap.cause.getLsbD i) → w 0x10 = ill))
    ∧ (g.ctl.trapSplit = none → ∀ n ∈ [0x10, 0x15, 0x16, 0x18, 0x19], w n = ill)
    ∧ (∀ i ∈ [Instr.csrw a 0x20, .rsbWrite a], g.allLaneDone = true →
        (v.toNat % 8 = 0 ∧ v.toNat + g.size ≤ 512 ∧ (∀ x ∈ g.splits, v.toNat ≤ x.2.wb ∧ x.2.wb + 64 ≤ v.toNat + g.size) →
          exec i s = to_ { g with csrs := { g.csrs with rsb := v.toNat } })
        ∧ (v.toNat % 8 ≠ 0 ∨ 512 < v.toNat + g.size ∨ (∃ x ∈ g.splits, x.2.wb < v.toNat ∨ v.toNat + g.size < x.2.wb + 64) → exec i s = ill))
    ∧ (∀ i ∈ [Instr.csrw a 0x21, .spbWrite a], g.allLaneDone = true →
        (v.toNat % 128 = 0 → v.toNat < 2 ^ 63 → exec i s = to_ { g with csrs := { g.csrs with spb := v } })
        ∧ (v.toNat % 128 ≠ 0 ∨ 2 ^ 63 ≤ v.toNat → exec i s = ill))
    ∧ (g.laneDone s.sched.split = true →
        w 0x22 = to_ { g with csrs := { g.csrs with fflags := BitVec.ofNat 5 v.toNat } }
        ∧ w 0x23 = to_ { g with csrs := { g.csrs with iflags := BitVec.ofNat 2 v.toNat } }
        ∧ exec (.flagsAccess true false a) s = w 0x22 ∧ exec (.flagsAccess true true a) s = w 0x23)
    ∧ w 0x24 = to_ { g with csrs := { g.csrs with arrto := v } }
    ∧ w 0x25 = to_ { g with csrs := { g.csrs with ovwcnt := v } } ∧ exec (.ovwcntWrite a) s = w 0x25
    ∧ (∀ k : BitVec 2, exec (.cqbWrite k a) s = w (0x30 + k.toNat)
        ∧ (v.toNat % 256 = 0 → w (0x30 + k.toNat) = to_ { g with csrs := { g.csrs with cqb := stSet 0 g.csrs.cqb k.toNat v } })
        ∧ (v.toNat % 256 ≠ 0 → w (0x30 + k.toNat) = ill))
    ∧ (∀ n : BitVec 7, n.toNat < 7 ∨ (7 < n.toNat ∧ n.toNat < 0x10) ∨ (0x10 < n.toNat ∧ n.toNat < 0x15) ∨ n.toNat = 0x17
        ∨ (0x19 < n.toNat ∧ n.toNat < 0x20) ∨ (0x25 < n.toNat ∧ n.toNat < 0x30) ∨ 0x33 < n.toNat → exec (.csrw a n) s = ill)

/-- R150, R151: what CSRR reads and CSRW writes of every control register. -/
def Obligations.ControlRegisters : Prop := Claims.CsrReads ∧ Claims.CsrWrites

namespace Sys2Proof.Claims

/-- The number below 2^w whose bit i is `p i`. -/
def ofBits (w : Nat) (p : Nat → Bool) : Nat := (List.range w).foldl (fun n i => if p i then n + 2 ^ i else n) 0
/-- An exact integer in a type (R51, R60): modulo 2^w, or clamped with IFLAGS.SAT. -/
def fitted (t : BitVec 4) (sat : Bool) (x : Int) : Machine.Num :=
  if sat && decide (x < intMin t) then { bits := mod2 (widthOf t) (intMin t), ff := 0, fi := 2 }
  else if sat && decide (intMax t < x) then { bits := mod2 (widthOf t) (intMax t), ff := 0, fi := 2 }
  else plain (mod2 (widthOf t) x)
/-- The group `g1` is `g` but for predicate `p`, which takes `v` in the active lanes (p0 never changes). -/
def PredWritten (g g1 : Group) (p : Nat) (act : LaneMask) (v : Nat → Bool) : Prop :=
  (∀ q i, i < 32 → (g1.pred q).getLsbD i = if q = p ∧ p ≠ 0 ∧ act.getLsbD i = true then v i else (g.pred q).getLsbD i)
    ∧ g1.lanes = { g.lanes with preds := g1.lanes.preds } ∧ g1.splits = g.splits ∧ g1.trap = g.trap ∧ g1.async = g.async ∧ g1.ctl = g.ctl
    ∧ g1.csrs = { g.csrs with fflags := g1.csrs.fflags } ∧ g1.team = g.team ∧ g1.index = g.index ∧ g1.size = g.size
/-- A predicate operand of the logic instructions, with its inversion bit (R80). -/
def predIn (g : Group) (c : BitVec 7) (inv : Bool) (i : Nat) : Bool := (g.pred c.toNat).getLsbD i != inv

end Sys2Proof.Claims

/-! ### Lane operands and results (R15, R31, R40, R42, R52, R56, R57) -/

/-- R15, R42, R56: what each operand code reads, at the width of a type: a window register or pair, a scalar register, LID, VID, the group's and the team's
index, the immediate; code 96 reads 0. -/
def Obligations.LaneOperands : Prop :=
  ∀ (g : Group) (e : LaneEntry) (w2 : Word) (t : BitVec 4) (i : Nat),
    let m := 2 ^ widthOf t
    (∀ c : BitVec 7, c.toNat < 64 → wideType t = false → g.src e w2 c t i = (g.slotVal (e.tag.wb + c.toNat) i).toNat % m)
    ∧ (∀ c : BitVec 7, c.toNat < 64 → wideType t = true →
        g.src e w2 c t i = (g.slotVal (e.tag.wb + c.toNat + 1) i).toNat * 2 ^ 32 + (g.slotVal (e.tag.wb + c.toNat) i).toNat)
    ∧ (∀ (c : BitVec 7) (sp : Split), 64 ≤ c.toNat → c.toNat ≤ 95 → e.tag.regs = none → g.split e.tag.split = some sp →
        g.src e w2 c t i = (sp.reg (BitVec.ofNat 5 (c.toNat - 64))).toNat % m)
    ∧ g.src e w2 96 t i = 0 ∧ g.src e w2 97 t i = i % m ∧ g.src e w2 98 t i = (stGet 0 g.lanes.vids i).toNat % m
    ∧ g.src e w2 99 t i = g.index % m ∧ g.src e w2 100 t i = g.teamIndex % m
    ∧ g.src e w2 127 t i = (if t = 6 then mod2 64 w2.toInt else w2.toNat % m)

/-- R40, R42, R52, R57: what writing the results of a lane instruction changes: the destination's slot (or pair) in the active lanes, held as the type says,
the flags of the active lanes ORed into the group's, and nothing else; code 96 writes nothing. -/
def Sys2Proof.Claims.LaneWriteFrame : Prop :=
  ∀ (g : Group) (e : LaneEntry) (vd : BitVec 7) (t : BitVec 4) (act : LaneMask) (r : Nat → Machine.Num), g.size ≠ 1 →
    let g1 := g.laneWrite e vd t act r
    let k := e.tag.wb + vd.toNat
    (∀ j i, i < 32 → g1.slotVal j i
      = if 63 < vd.toNat ∨ act.getLsbD i = false then g.slotVal j i
        else if wideType t then
          (if g.row j = g.row (k + 1) then BitVec.ofNat 32 ((r i).bits / 2 ^ 32)
           else if g.row j = g.row k then BitVec.ofNat 32 (r i).bits else g.slotVal j i)
        else if g.row j = g.row k then
          (if t = 0 ∨ t = 2 then BitVec.ofInt 32 (intVal t (r i).bits) else BitVec.ofNat 32 ((r i).bits % 2 ^ widthOf t))
        else g.slotVal j i)
    ∧ (∀ b, b < 5 → (g1.csrs.fflags.getLsbD b = true ↔ g.csrs.fflags.getLsbD b = true ∨ ∃ i, i < 32 ∧ act.getLsbD i = true ∧ (r i).ff.getLsbD b = true))
    ∧ (∀ b, b < 2 → (g1.csrs.iflags.getLsbD b = true ↔ g.csrs.iflags.getLsbD b = true ∨ ∃ i, i < 32 ∧ act.getLsbD i = true ∧ (r i).fi.getLsbD b = true))
    ∧ g1.csrs = { g.csrs with fflags := g1.csrs.fflags, iflags := g1.csrs.iflags } ∧ g1.lanes = { g.lanes with slots := g1.lanes.slots }
    ∧ g1.splits = g.splits ∧ g1.trap = g.trap ∧ g1.async = g.async ∧ g1.ctl = g.ctl ∧ g1.size = g.size

/-- R124: the lane instruction that completes leaves the head of its group's queue; no other group, core or memory changes. -/
def Sys2Proof.Claims.LaneDoneFrame : Prop :=
  ∀ (s : State) (g g1 : Group) (e : LaneEntry) (q : List LaneEntry), s.curGroup = some g → g1.async.laneq = e :: q →
    ∃ g2, (laneDone s g1).curGroup = some g2 ∧ g2.async.laneq = q ∧ g2.lanes = g1.lanes ∧ g2.splits = g1.splits ∧ g2.csrs = g1.csrs ∧ g2.trap = g1.trap
      ∧ g2.async.access = g1.async.access ∧ g2.async.tokens = g1.async.tokens
      ∧ OnlyGroups s (laneDone s g1) ∧ OthersSame s (laneDone s g1)

/-- R14, R31, R33, R52: what a lane instruction that writes registers, and one that leaves the queue, leave as they were. -/
def Obligations.LaneFrames : Prop := Claims.LaneWriteFrame ∧ Claims.LaneDoneFrame

/-- R20: a lane instruction whose bits are not legal raises ILLEGAL with its entry, whatever the guard. -/
def Obligations.LaneIllegal : Prop :=
  ∀ (s : State) (g : Group) (e : LaneEntry) (i : Instr) (op : Nat) (f : LaneF), LaneAt s g e → laneParts i = some (op, f) → i.wf = false →
    exec i s = .next (s.trapLane e (Trap.of 0x01))

/-! ### Integer lane instructions (R59 to R64) -/

/-- R60, R61: integer arithmetic, with `.sat` in fn[0] where the form has it. -/
def Sys2Proof.Claims.LaneIntArithmetic : Prop :=
  ∀ (s : State) (g : Group) (e : LaneEntry) (f : LaneF), LaneAt s g e →
    let t := f.td
    let w := widthOf t
    let sat := f.fn.getLsbD 0
    let A := fun i => intVal t (srcA g e f t i)
    let B := fun i => intVal t (srcB g e f t i)
    let C := fun i => intVal t (srcC g e f t i)
    let res := fun (r : Nat → Machine.Num) => Host.Outcome.next (laneResult s g e f t r)
    ((Instr.iadd f).wf = true → exec (.iadd f) s = res fun i => fitted t sat (A i + B i))
    ∧ ((Instr.isub f).wf = true → exec (.isub f) s = res fun i => fitted t sat (A i - B i))
    ∧ ((Instr.imul f).wf = true → exec (.imul f) s = res fun i => fitted t sat (A i * B i))
    ∧ ((Instr.imulh f).wf = true → exec (.imulh f) s = res fun i => plain (mod2 w (A i * B i / 2 ^ w)))
    ∧ ((Instr.imad f).wf = true → exec (.imad f) s = res fun i => fitted t sat (A i * B i + C i))
    ∧ ((Instr.idiv f).wf = true → exec (.idiv f) s = res fun i =>
        if B i = 0 then { bits := 2 ^ w - 1, ff := 0, fi := 1 } else plain (mod2 w (Int.tdiv (A i) (B i))))
    ∧ ((Instr.irem f).wf = true → exec (.irem f) s = res fun i =>
        if B i = 0 then { bits := mod2 w (A i), ff := 0, fi := 1 } else plain (mod2 w (A i - B i * Int.tdiv (A i) (B i))))
    ∧ ((Instr.imin f).wf = true → exec (.imin f) s = res fun i => plain (mod2 w (min (A i) (B i))))
    ∧ ((Instr.imax f).wf = true → exec (.imax f) s = res fun i => plain (mod2 w (max (A i) (B i))))
    ∧ ((Instr.iabs f).wf = true → exec (.iabs f) s = res fun i => fitted t sat (if A i < 0 then -A i else A i))
    ∧ ((Instr.ineg f).wf = true → exec (.ineg f) s = res fun i => fitted t sat (-A i))

/-- R60, R62, R63: logic, shifts, rotates, bit counts and bit fields, on the patterns of w bits. -/
def Sys2Proof.Claims.LaneIntBits : Prop :=
  ∀ (s : State) (g : Group) (e : LaneEntry) (f : LaneF), LaneAt s g e →
    let t := f.td
    let w := widthOf t
    let A := fun i => srcA g e f t i
    let B := fun i => srcB g e f t i
    let N := fun i => srcB g e f 5 i
    let res := fun (r : Nat → Nat) => Host.Outcome.next (laneResult s g e f t fun i => plain (r i))
    let pos := fun (c : Nat) => c % 256
    let len := fun (c : Nat) => min (c / 256 % 256) w
    ((Instr.laneAnd f).wf = true → exec (.laneAnd f) s = res fun i => A i &&& B i)
    ∧ ((Instr.laneOr f).wf = true → exec (.laneOr f) s = res fun i => A i ||| B i)
    ∧ ((Instr.laneXor f).wf = true → exec (.laneXor f) s = res fun i => A i ^^^ B i)
    ∧ ((Instr.andn f).wf = true → exec (.andn f) s = res fun i => ofBits w fun k => (A i).testBit k && !(B i).testBit k)
    ∧ ((Instr.laneNot f).wf = true → exec (.laneNot f) s = res fun i => ofBits w fun k => !(A i).testBit k)
    ∧ ((Instr.laneShl f).wf = true → exec (.laneShl f) s = res fun i => A i * 2 ^ N i % 2 ^ w)
    ∧ ((Instr.laneShr f).wf = true → exec (.laneShr f) s = res fun i => A i / 2 ^ N i)
    ∧ ((Instr.laneSar f).wf = true → exec (.laneSar f) s = res fun i => mod2 w ((BitVec.ofNat w (A i)).toInt / 2 ^ N i))
    ∧ ((Instr.rot f).wf = true → exec (.rot f) s = res fun i => ofBits w fun k => (A i).testBit ((k + (w - N i % w)) % w))
    ∧ ((Instr.clz f).wf = true → exec (.clz f) s = res fun i => if A i = 0 then w else w - 1 - Nat.log2 (A i))
    ∧ ((Instr.popc f).wf = true → exec (.popc f) s = res fun i => ((List.range w).filter fun k => (A i).testBit k).length)
    ∧ ((Instr.brev f).wf = true → exec (.brev f) s = res fun i => ofBits w fun k => (A i).testBit (w - 1 - k))
    ∧ ((Instr.bfx f).wf = true → exec (.bfx f) s = res fun i =>
        let p := pos (N i)
        let n := len (N i)
        if n = 0 then 0
        else
          let x := intVal t (A i) / 2 ^ p % 2 ^ n
          mod2 w (if isSigned t ∧ 2 ^ (n - 1) ≤ x then x - 2 ^ n else x))
    ∧ ((Instr.bfi f).wf = true → exec (.bfi f) s = res fun i =>
        let c := srcC g e f 5 i
        ofBits w fun k => if pos c ≤ k ∧ k < pos c + len c then (B i).testBit (k - pos c) else (A i).testBit k)

/-- R59 to R63: what the integer and bit instructions of the lane stream write. -/
def Obligations.LaneIntegers : Prop := Claims.LaneIntArithmetic ∧ Claims.LaneIntBits

/-- R58, R64, R69: compares write a predicate in the active lanes, alone or combined with its old value by AND or OR; SEL and MOV. -/
def Obligations.LaneComparesAndMoves : Prop :=
  ∀ (s : State) (g : Group) (e : LaneEntry) (f : LaneF), LaneAt s g e →
    let t := f.td
    let old := fun i => (g.pred f.vd.toNat).getLsbD i
    let how := f.fn.toNat / 8
    let mix := fun (c : Nat → Bool) i => if how = 1 then c i && old i else if how = 2 then c i || old i else c i
    let A := fun i => intVal t (srcA g e f t i)
    let B := fun i => intVal t (srcB g e f t i)
    ((Instr.icmp f).wf = true → ∃ g1, exec (.icmp f) s = .next (laneDone s g1) ∧ g1.csrs.fflags = g.csrs.fflags
        ∧ PredWritten g g1 f.vd.toNat (g.active e f) (mix fun i =>
            match f.fn.toNat % 8 with
            | 0 => decide (A i = B i)
            | 1 => decide (A i ≠ B i)
            | 2 => decide (A i < B i)
            | 3 => decide (A i ≤ B i)
            | 4 => decide (B i < A i)
            | _ => decide (B i ≤ A i)))
    ∧ ((Instr.fcmp f).wf = true → ∃ g1, exec (.fcmp f) s = .next (laneDone s g1)
        ∧ (∀ b, b < 5 → (g1.csrs.fflags.getLsbD b = true ↔ g.csrs.fflags.getLsbD b = true ∨ ∃ i, i < 32 ∧ (g.active e f).getLsbD i = true
            ∧ (fCompare t (f.fn.toNat % 8) (srcA g e f t i) (srcB g e f t i)).2.getLsbD b = true))
        ∧ PredWritten g g1 f.vd.toNat (g.active e f) (mix fun i => (fCompare t (f.fn.toNat % 8) (srcA g e f t i) (srcB g e f t i)).1))
    ∧ ((Instr.laneSel f).wf = true → exec (.laneSel f) s = .next (laneResult s g e f t fun i =>
        plain (if (g.pred (f.fn.toNat % 8)).getLsbD i != f.fn.getLsbD 3 then srcA g e f t i else srcB g e f t i)))
    ∧ ((Instr.mov f).wf = true → exec (.mov f) s = .next (laneResult s g e f t fun i => plain (srcA g e f t i)))

/-! ### Floating, packed and converting lane instructions (R65 to R79) -/

/-- R66 to R71: the floating instructions form their result exactly and round it once into T under the rounding field. -/
def Obligations.LaneFloatResults : Prop :=
  ∀ (s : State) (g : Group) (e : LaneEntry) (f : LaneF), LaneAt s g e →
    let t := f.td
    let fm := fmtOf t
    let A := fun i => fm.read (srcA g e f t i)
    let B := fun i => fm.read (srcB g e f t i)
    let C := fun i => fm.read (srcC g e f t i)
    let res := fun (r : Nat → Machine.Num) => Host.Outcome.next (laneResult s g e f t r)
    let rnd := fun (x : FRaw) => (fm.round f.rm false x.1).raise x.2 0
    ((Instr.fadd f).wf = true → exec (.fadd f) s = res fun i => rnd (rawAdd f.rm (A i) (B i)))
    ∧ ((Instr.fsub f).wf = true → exec (.fsub f) s = res fun i => rnd (rawAdd f.rm (A i) (B i).neg))
    ∧ ((Instr.fmul f).wf = true → exec (.fmul f) s = res fun i => rnd (rawMul (A i) (B i)))
    ∧ ((Instr.fma f).wf = true → exec (.fma f) s = res fun i => rnd (rawFma f.rm (A i) (B i) (C i)))
    ∧ ((Instr.fdiv f).wf = true → exec (.fdiv f) s = res fun i => rnd (rawDiv (A i) (B i)))
    ∧ ((Instr.fmin f).wf = true → exec (.fmin f) s = res fun i => fMinMax t false (f.fn.getLsbD 0) (srcA g e f t i) (srcB g e f t i))
    ∧ ((Instr.fmax f).wf = true → exec (.fmax f) s = res fun i => fMinMax t true (f.fn.getLsbD 0) (srcA g e f t i) (srcB g e f t i))
    ∧ ((Instr.fabs f).wf = true → exec (.fabs f) s = res fun i => plain (srcA g e f t i % fm.signBit))
    ∧ ((Instr.fneg f).wf = true → exec (.fneg f) s = res fun i => plain (srcA g e f t i ^^^ fm.signBit))
    ∧ ((Instr.frcp f).wf = true → exec (.frcp f) s = res fun i => rnd (rawFun .rcp (A i)))
    ∧ ((Instr.frsq f).wf = true → exec (.frsq f) s = res fun i => rnd (rawFun .rsq (A i)))
    ∧ ((Instr.fsqrt f).wf = true → exec (.fsqrt f) s = res fun i => rnd (rawFun .sqrt (A i)))
    ∧ ((Instr.fexp2 f).wf = true → exec (.fexp2 f) s = res fun i => rnd (rawFun .exp2 (A i)))
    ∧ ((Instr.flog2 f).wf = true → exec (.flog2 f) s = res fun i => rnd (rawFun .log2 (A i)))
    ∧ ((Instr.fsinpi f).wf = true → exec (.fsinpi f) s = res fun i => rnd (rawFun .sinpi (A i)))
    ∧ ((Instr.fcospi f).wf = true → exec (.fcospi f) s = res fun i => rnd (rawFun .cospi (A i)))
    ∧ ((Instr.fscale f).wf = true → exec (.fscale f) s = res fun i => fScale t f.rm (srcA g e f t i) (intVal 4 (srcB g e f 4 i)))
    ∧ ((Instr.frint f).wf = true → exec (.frint f) s = res fun i => fRint t f.rm (srcA g e f t i))
    ∧ ((Instr.fclass f).wf = true → exec (.fclass f) s = .next (laneResult s g e f 5 fun i => plain (fClass f.ta (srcA g e f f.ta i))))

/-- R44, R49, R66, R67, R70: the special operands: a NaN operand gives the canonical NaN, with NV when one signals; infinities and zeros that have no value give
the canonical NaN with NV; a finite number over zero gives an infinity with DZ. -/
def Sys2Proof.Claims.FloatSpecials : Prop :=
  ∀ (t : BitVec 4) (rm : BitVec 3) (a b : Nat), t = 10 ∨ t = 11 ∨ t = 12 →
    let fm := fmtOf t
    let x := fm.read a
    let y := fm.read b
    let sig := if x.isSig || y.isSig then (16 : BitVec 5) else 0
    (x.isNan = true ∨ y.isNan = true → ∀ r ∈ [fAdd t rm a b, fSub t rm a b, fMul t rm a b, fDiv t rm a b], r = { bits := fm.nan, ff := sig, fi := 0 })
    ∧ (∀ n, x = .inf n → (y = .inf !n → fAdd t rm a b = { bits := fm.nan, ff := 16, fi := 0 })
        ∧ (y = .inf n → fSub t rm a b = { bits := fm.nan, ff := 16, fi := 0 }) ∧ (y.isZero = true → fMul t rm a b = { bits := fm.nan, ff := 16, fi := 0 })
        ∧ (y.isInf = true → fDiv t rm a b = { bits := fm.nan, ff := 16, fi := 0 }))
    ∧ (∀ n m v, x = .fin n m v → y.isZero = true → (m = 0 → fDiv t rm a b = { bits := fm.nan, ff := 16, fi := 0 })
        ∧ (m ≠ 0 → fDiv t rm a b = { bits := fm.signed (n != y.isNeg) fm.infBits, ff := 8, fi := 0 }))

/-- R49: rounding a finite value to the nearest: no finite number of h, bf or f lies nearer to the exact value than the result, in magnitude m × 2^x, where the
result has not overflowed. -/
def Sys2Proof.Claims.RoundsToNearest : Prop :=
  ∀ (t : BitVec 4) (n : Bool) (m : Nat) (x : Int), t = 10 ∨ t = 11 ∨ t = 12 → m ≠ 0 →
    let fm := fmtOf t
    let r := fm.round 0 false (.fin n m x)
    r.ff.getLsbD 2 = false →
    ∃ rm re, fm.read r.bits = .fin n rm re ∧
      ∀ b n1 m1 x1, fm.read b = .fin n1 m1 x1 →
        let q := min x (min re x1)
        (alignTo false rm re q - alignTo false m x q).natAbs ≤ (alignTo false m1 x1 q - alignTo false m x q).natAbs

/-- R43, R44, R49, R50: special values, and rounding to nearest. -/
def Obligations.FloatRounding : Prop := Claims.FloatSpecials ∧ Claims.RoundsToNearest

/-- R72 to R79: packed arithmetic, dot products, conversions, and block elements. -/
def Obligations.LanePackedResults : Prop :=
  ∀ (s : State) (g : Group) (e : LaneEntry) (f : LaneF), LaneAt s g e →
    let half := fun (op : Nat → Nat → Machine.Num) (a b : Nat) =>
      let x0 := op (a % 2 ^ 16) (b % 2 ^ 16)
      let x1 := op (a / 2 ^ 16 % 2 ^ 16) (b / 2 ^ 16 % 2 ^ 16)
      ({ bits := x0.bits % 2 ^ 16 + x1.bits % 2 ^ 16 * 2 ^ 16, ff := x0.ff ||| x1.ff, fi := x0.fi ||| x1.fi } : Machine.Num)
    let N := fun (c : BitVec 7) i => g.src e f.w2 c 5 i
    let lane := fun (x j : Nat) => x / 2 ^ (widthOf f.ta * j)
    let tb := if f.fn.getLsbD 0 then f.ta ^^^ 1 else f.ta
    let term := fun i j => intVal f.ta (lane (N f.va i) j) * intVal tb (lane (N f.vb i) j)
    let sat := f.fn.getLsbD 1
    ((Instr.hadd2 f).wf = true → exec (.hadd2 f) s = .next (laneResult s g e f 5 fun i => half (fAdd f.td f.rm) (N f.va i) (N f.vb i)))
    ∧ ((Instr.hmul2 f).wf = true → exec (.hmul2 f) s = .next (laneResult s g e f 5 fun i => half (fMul f.td f.rm) (N f.va i) (N f.vb i)))
    ∧ ((Instr.hfma2 f).wf = true → ∃ r, exec (.hfma2 f) s = .next (laneResult s g e f 5 r) ∧ ∀ i,
        let x0 := fFma f.td f.rm (N f.va i % 2 ^ 16) (N f.vb i % 2 ^ 16) (N f.vc i % 2 ^ 16)
        let x1 := fFma f.td f.rm (N f.va i / 2 ^ 16 % 2 ^ 16) (N f.vb i / 2 ^ 16 % 2 ^ 16) (N f.vc i / 2 ^ 16 % 2 ^ 16)
        (r i).bits % 2 ^ 16 = x0.bits % 2 ^ 16 ∧ (r i).bits / 2 ^ 16 = x1.bits % 2 ^ 16 ∧ (r i).ff = x0.ff ||| x1.ff ∧ (r i).fi = 0)
    ∧ ((Instr.idot4 f).wf = true → exec (.idot4 f) s = .next (laneResult s g e f f.td fun i =>
        fitted f.td sat (intVal f.td (srcC g e f f.td i) + term i 0 + term i 1 + term i 2 + term i 3)))
    ∧ ((Instr.idot2 f).wf = true → exec (.idot2 f) s = .next (laneResult s g e f f.td fun i =>
        fitted f.td sat (intVal f.td (srcC g e f f.td i) + term i 0 + term i 1)))
    ∧ ((Instr.cvt f).wf = true → exec (.cvt f) s = .next (laneResult s g e f f.td fun i =>
        convert f.ta f.td f.rm (f.fn.getLsbD 0) (srcA g e f f.ta i)))
    ∧ ((Instr.cvtp f).wf = true → exec (.cvtp f) s = .next (laneResult s g e f 5 fun i =>
        let x0 := convert f.ta f.td f.rm sat (srcA g e f f.ta i)
        let x1 := convert f.ta f.td f.rm sat (srcB g e f f.ta i)
        let old := g.src e f.w2 f.vd 5 i
        let w := widthOf f.td
        let pair := x0.bits % 2 ^ w + x1.bits % 2 ^ w * 2 ^ w
        { bits := if w = 16 then pair else if f.fn.getLsbD 0 then old % 2 ^ 16 + pair * 2 ^ 16 else pair + old / 2 ^ 16 % 2 ^ 16 * 2 ^ 16
          ff := x0.ff ||| x1.ff
          fi := x0.fi ||| x1.fi }))
    ∧ ((Instr.cvtx f).wf = true → exec (.cvtx f) s = .next (laneResult s g e f f.td fun i =>
        convert f.ta f.td f.rm (f.fn.getLsbD 2) (N f.va i / 2 ^ (widthOf f.ta * (f.fn.toNat % 4)) % 2 ^ widthOf f.ta)))
    ∧ ((Instr.bpdec f).wf = true → exec (.bpdec f) s = .next (laneResult s g e f f.td fun i =>
        bpTo f.td f.rm (decodeBp (if f.fn = 0 then 8 else f.fn.toNat + 1) (N f.va i / 2 ^ 16 % 2 ^ 16) (N f.va i % 2 ^ 8))))
    ∧ ((Instr.bpenc f).wf = true → g.size ≠ 1 → ∃ g1, exec (.bpenc f) s = .next (laneDone s g1) ∧
        let ls := (List.range 32).filter fun i => (g.active e f).getLsbD i
        let xs := ls.map fun i => (fmtOf f.ta).read (srcA g e f f.ta i)
        let ys := if f.fn.getLsbD 0 then ls.map fun i => (fmtOf f.ta).read (srcB g e f f.ta i) else []
        let r := bpEncode f.rm (xs ++ ys)
        (f.vd.toNat ≤ 63 → ∀ j i, ls[j]? = some i →
          g1.slotVal (e.tag.wb + f.vd.toNat) i = BitVec.ofNat 32 (r.1 * 2 ^ 16 + (r.2.1.getD j 0) % 2 ^ 8)
          ∧ (f.fn.getLsbD 0 = true → g1.slotVal (e.tag.wb + f.vd.toNat + 1) i = BitVec.ofNat 32 (r.1 * 2 ^ 16 + (r.2.1.getD (ls.length + j) 0) % 2 ^ 8)))
        ∧ (63 < f.vd.toNat → g1.lanes = g.lanes) ∧ (ls ≠ [] → g1.csrs.fflags = g.csrs.fflags ||| r.2.2))

/-- R80, R81: predicate logic, and LKILL of the active lanes in a group no split of which waits at a JOIN. -/
def Obligations.PredicateResults : Prop :=
  ∀ (s : State) (g : Group) (e : LaneEntry) (f : LaneF), LaneAt s g e →
    let act := g.active e f
    let A := predIn g f.va (f.fn.getLsbD 0)
    let B := predIn g f.vb (f.fn.getLsbD 1)
    ((Instr.pand f).wf = true → ∃ g1, exec (.pand f) s = .next (laneDone s g1) ∧ PredWritten g g1 f.vd.toNat act (fun i => A i && B i) ∧ g1.csrs = g.csrs)
    ∧ ((Instr.por f).wf = true → ∃ g1, exec (.por f) s = .next (laneDone s g1) ∧ PredWritten g g1 f.vd.toNat act (fun i => A i || B i) ∧ g1.csrs = g.csrs)
    ∧ ((Instr.pxor f).wf = true → ∃ g1, exec (.pxor f) s = .next (laneDone s g1) ∧ PredWritten g g1 f.vd.toNat act (fun i => A i != B i) ∧ g1.csrs = g.csrs)
    ∧ ((Instr.pnot f).wf = true → ∃ g1, exec (.pnot f) s = .next (laneDone s g1) ∧ PredWritten g g1 f.vd.toNat act (fun i => !predIn g f.va false i)
        ∧ g1.csrs = g.csrs)
    ∧ ((Instr.lkill f).wf = true → noJoin g →
        exec (.lkill f) s = .next (laneDone s { g with lanes := { g.lanes with alive := g.lanes.alive &&& ~~~act } }))

namespace Sys2Proof.Claims

/-- The address of a lane of a memory form (R83): the base, a scalar register or a pair, plus the signed displacement. -/
def laneAddr (g : Group) (e : LaneEntry) (f : LaneF) (i : Nat) : DWord :=
  BitVec.ofNat 64 (srcA g e f 7 i) + f.w2.signExtend 64
/-- What a lane's load holds for its destination until it lands (R42, R57); code 96 holds nothing. -/
def heldParts (e : LaneEntry) (vd : BitVec 7) (t : BitVec 4) (v : Nat → Nat) (i : Nat) : List AccPart :=
  if 63 < vd.toNat then []
  else [{ lane := i, slot := e.tag.wb + vd.toNat, wide := wideType t, ticket := none,
          value := if wideType t then BitVec.ofNat 64 (v i) else (heldAs t (v i)).zeroExtend 64 }]
/-- The outstanding access of a lane instruction that no other rank owes. -/
def laneAccess (e : LaneEntry) (load nord : Bool) (ps : List AccPart) : Access :=
  { load := load, lane := true, split := e.tag.split, parts := ps, sreg := none, acks := [], reach := 0, nord := nord, inh := e.tag.inh }
/-- The group after a lane memory instruction: the access is outstanding, and the entry has left the queue. -/
def laneIssued (g : Group) (acc : Access) : Group := (g.addAccess g.nextAccess acc).popLane
/-- The number the home holds in `n` bytes from `pa`. -/
def homeNat (s : State) (pa n : Nat) : Nat := leNat ((upFrom pa n).map s.mem.byte)
/-- The core's L1 holds nothing of `n` bytes from `pa`. -/
def notCached (s : State) (core pa n : Nat) : Prop :=
  ∀ a, pa ≤ a → a < pa + n → amGet (s.core core).l1.dirty a = none ∧ amGet (s.core core).l1.clean a = none
/-- The byte that the last of a list of stores, in order, leaves at an address: each is its first address and its bytes. -/
def lastByte : List (Nat × List Byte) → Nat → Option Byte
  | [], _ => none
  | x :: xs, a => (lastByte xs a).or (if x.1 ≤ a ∧ a < x.1 + x.2.length then some (x.2.getD (a - x.1) 0) else none)
/-- The active lanes in ascending LID. -/
def lanesOf (m : LaneMask) : List Nat := (List.range 32).filter fun i => m.getLsbD i

end Sys2Proof.Claims

/-! ### Lane memory (R83 to R99) -/

/-- R40, R87: with no lane active a lane memory instruction only leaves the queue; and where a lane's check fails, the lowest such lane's trap is raised, and
no lane has had any effect. -/
def Obligations.LaneMemoryChecks : Prop :=
  ∀ (s : State) (g : Group) (e : LaneEntry) (f : LaneF), LaneAt s g e →
    (g.active e f = 0 → ∀ i ∈ [Instr.ld f, .st f, .ldt f, .stt f, .atom f, .cas f, .lda f, .str f], i.wf = true →
      exec i s = .next (s.modGroup s.curKey Group.popLane))
    ∧ (∀ (j : Nat) (c : Byte), j ∈ lanesOf (g.active e f) → (Instr.ld f).wf = true →
        (∀ i ∈ lanesOf (g.active e f), i < j → ∃ p, s.checkLane (s.whoOf s.sched.core g) (laneAddr g e f i) f.td .ld .rd (planeField f) = .ok p) →
        s.checkLane (s.whoOf s.sched.core g) (laneAddr g e f j) f.td .ld .rd (planeField f) = .error (.trap c, false) →
        exec (.ld f) s = .next (s.trapLane e { cause := c, code := 0, addr := laneAddr g e f j, lid := j, poison := false }))
    ∧ (∀ (j : Nat) (c : Byte), j ∈ lanesOf (g.active e f) → (Instr.st f).wf = true → f.fn = 0 →
        (∀ i ∈ lanesOf (g.active e f), i < j → ∃ p, s.checkLane (s.whoOf s.sched.core g) (laneAddr g e f i) f.td .st .wr = .ok p) →
        s.checkLane (s.whoOf s.sched.core g) (laneAddr g e f j) f.td .st .wr = .error (.trap c, false) →
        exec (.st f) s = .next (s.trapLane e { cause := c, code := 0, addr := laneAddr g e f j, lid := j, poison := false }))

/-- R83, R93, R156, R170: LD of ordinary bytes. Lanes whose bytes the core's L1 has not get the home's bytes; a single lane gets the core's own newest bytes, or
the home's, or a clean copy's; in the scratchpad every lane gets the scratchpad's bytes. The values are held outstanding for vd; where the bytes are does not
change but for moves between L1 and home. -/
def Sys2Proof.Claims.LaneLoadResults : Prop :=
  ∀ (s : State) (g : Group) (e : LaneEntry) (f : LaneF), LaneAt s g e →
    let core := s.sched.core
    let act := g.active e f
    let n := bytesIn f.td
    let acc := fun v => laneAccess e true false ((lanesOf act).flatMap (heldParts e f.vd f.td v))
    (Instr.ld f).wf = true → f.fn = 0 → act ≠ 0 → g.async.loads < 4095 →
    (∀ pa va : Nat → Nat, s.mem.cu = [] → (∀ i ∈ lanesOf act, pa i % n = 0 ∧ notCached s core (pa i) n ∧
        s.checkLane (s.whoOf core g) (laneAddr g e f i) f.td .ld .rd (planeField f) = .ok (.plain [oneSeg (pa i) n (va i)])) →
      ∃ t, exec (.ld f) s = .next t ∧ t.curGroup = some (laneIssued g (acc fun i => homeNat s (pa i) n)) ∧ MemFrame core (fun _ => True) s t)
    ∧ (∀ i pa va, s.mem.cu = [] → lanesOf act = [i] → pa % n = 0 →
        s.checkLane (s.whoOf core g) (laneAddr g e f i) f.td .ld .rd (planeField f) = .ok (.plain [oneSeg pa n va]) →
        ∃ t bs, exec (.ld f) s = .next t ∧ bs.length = n ∧ (∀ k b, bs[k]? = some b → mayRead s core (pa + k) b)
          ∧ t.curGroup = some (laneIssued g (acc fun _ => leNat bs)) ∧ MemFrame core (fun _ => True) s t)
    ∧ (∀ (tm : Nat) (team : Team) (off va : Nat → Nat), s.team tm = some team → (∀ i ∈ lanesOf act,
        s.checkLane (s.whoOf core g) (laneAddr g e f i) f.td .ld .rd (planeField f)
          = .ok (.plain [{ place := .scratch tm (off i), len := n, va := va i, fmt := none }])) →
        ∃ t, exec (.ld f) s = .next t ∧ OnlyGroups s t ∧ OthersSame s t
          ∧ t.curGroup = some (laneIssued g (acc fun i => leNat ((upFrom (off i) n).map fun o => stGet 0 team.scratch o))))

/-- R83, R90, R156, R170: ST of ordinary bytes by any set of lanes: where lanes overlap the highest LID's bytes stay; every other byte is as it was. -/
def Sys2Proof.Claims.LaneStoreResults : Prop :=
  ∀ (s : State) (g : Group) (e : LaneEntry) (f : LaneF) (pa va : Nat → Nat), LaneAt s g e →
    let core := s.sched.core
    let act := g.active e f
    let n := bytesIn f.td
    let data := (lanesOf act).map fun i => (pa i, bytesOf n (srcB g e f f.td i))
    (Instr.st f).wf = true → f.td ≠ 13 → act ≠ 0 → g.async.stores < 4095 → s.mem.cu = [] →
    (∀ i ∈ lanesOf act, s.checkLane (s.whoOf core g) (laneAddr g e f i) f.td .st .wr = .ok (.plain [oneSeg (pa i) n (va i)])) →
    ∃ t, exec (.st f) s = .next t ∧ t.curGroup = some (laneIssued g (laneAccess e false false []))
      ∧ (∀ a b, lastByte data a = some b → s.mem.live a = none → viewOf t core a = b)
      ∧ MemFrame core (fun a => lastByte data a = none) s t

/-- R83 to R88, R93: LD and ST of global memory and of scratchpad. -/
def Obligations.LaneLoadStore : Prop := Claims.LaneLoadResults ∧ Claims.LaneStoreResults

/-- R178, R94: LDT and STT through a record the core holds, with element format of the ordinary types: an LDT lane within bounds gets the home's element
converted into T, one outside gets the padding; STT writes the lanes within bounds, converted into the record's format; each conversion's flags are raised. -/
def Obligations.TensorResults : Prop :=
  ∀ (s : State) (g : Group) (e : LaneEntry) (f : LaneF) (b : List Byte) (pa va : Nat → Nat), LaneAt s g e →
    let core := s.sched.core
    let w := s.whoOf core g
    let act := g.active e f
    let rf := recFormat b
    let n := bytesIn rf
    let coord := fun i => (upFrom 0 (recDims b)).map fun d => recOrigin b d + (g.slotVal (e.tag.wb + (f.vb.toNat + d)) i).toInt
    let ins := (lanesOf act).filter fun i => recIn b (coord i)
    let outs := (lanesOf act).filter fun i => !recIn b (coord i)
    act ≠ 0 → s.mem.cu = [] → rf.toNat ≤ 12 → f.vb.toNat + recDims b ≤ 64 →
    s.recordRead w (g.scalarOf e (f.va.setWidth 5)) = .ok (s, b) →
    ((Instr.ldt f).wf = true → f.td.toNat ≤ 12 → g.async.loads < 4095 →
      (∀ i ∈ ins, pa i % n = 0 ∧ notCached s core (pa i) n ∧
        s.checkLane w (recAddr b (coord i)) rf .ld .rd (planeField f) = .ok (.plain [oneSeg (pa i) n (va i)])) →
      let v := fun i => if recIn b (coord i) then convert rf f.td f.rm false (homeNat s (pa i) n) else recPadding b f.td f.rm
      let g1 := (ins ++ outs).foldl (fun x i => x.raise (v i).ff (v i).fi) g
      ∃ t, exec (.ldt f) s = .next t ∧ MemFrame core (fun _ => True) s t
        ∧ t.curGroup = some (laneIssued g1 (laneAccess e true false ((ins ++ outs).flatMap (heldParts e f.vd f.td fun i => (v i).bits)))))
    ∧ ((Instr.stt f).wf = true → f.td.toNat ≤ 12 → g.async.stores < 4095 →
      (∀ i ∈ ins, s.checkLane w (recAddr b (coord i)) rf .st .wr = .ok (.plain [oneSeg (pa i) n (va i)])) →
      let v := fun i => convert f.td rf f.rm (f.fn.getLsbD 0) (srcC g e f f.td i)
      let data := ins.map fun i => (pa i, bytesOf n (v i).bits)
      let g1 := ins.foldl (fun x i => x.raise (v i).ff (v i).fi) g
      ∃ t, exec (.stt f) s = .next t ∧ t.curGroup = some (laneIssued g1 (laneAccess e false false []))
        ∧ (∀ a y, lastByte data a = some y → s.mem.live a = none → viewOf t core a = y)
        ∧ MemFrame core (fun a => lastByte data a = none) s t)

/-- R95 to R98, R172: ATOM, CAS, LDA and STR of one lane, without a synchronising use, at device scope or wider, on package memory: they act on the newest bytes
at the home, the core keeps no copy of the bytes, and ATOM, CAS and LDA hold the old value for vd. -/
def Obligations.LaneAtomicResults : Prop :=
  ∀ (s : State) (g : Group) (e : LaneEntry) (f : LaneF) (i pa va : Nat), LaneAt s g e →
    let core := s.sched.core
    let n := bytesIn f.td
    let old := viewNat s core pa n
    let B := srcB g e f f.td i
    let C := srcC g e f f.td i
    let sum := atomicOp f.td (f.fn.toNat % 16) old B
    lanesOf (g.active e f) = [i] → s.mem.cu = [] → pa % n = 0 → f.fn.toNat / 16 % 4 ≠ 0 → (f.rm = 0 ∨ f.rm = 2) →
    (∀ k, k < n → s.mem.live (pa + k) = none) →
    let done := fun (x : Instr) (need : Need) (load : Bool) (new : Nat) (g1 : Group) =>
      x.wf = true → (if load then g.async.loads < 4095 else g.async.stores < 4095) →
      s.checkLane (s.whoOf core g) (laneAddr g e f i) f.td .atom need = .ok (.plain [oneSeg pa n va]) →
      ∃ t, exec x s = .next t ∧ MemFrame core (outside pa n) s t
        ∧ (∀ k, k < n → t.mem.byte (pa + k) = BitVec.ofNat 8 (new / 256 ^ k) ∧ amGet (t.core core).l1.dirty (pa + k) = none
            ∧ amGet (t.core core).l1.clean (pa + k) = none)
        ∧ t.curGroup = some (laneIssued g1 (laneAccess e load (f.rm == 2) (if load then heldParts e f.vd f.td (fun _ => old) i else [])))
    done (.atom f) .atom (f.vd != 96) sum.bits (g.raise sum.ff sum.fi)
    ∧ done (.cas f) .atom true (if old = B then C else old) g
    ∧ done (.lda f) .rd true old g
    ∧ done (.str f) .wr false B g

/-- R99: PREF changes no byte's value; R156: a lane access that no other rank owes writes its lanes' slots when it completes. -/
def Obligations.PrefetchAndLaneCompletion : Prop :=
  (∀ (s : State) (g : Group) (e : LaneEntry) (f : LaneF), LaneAt s g e → (Instr.pref f).wf = true → s.mem.cu = [] →
    ∃ t, exec (.pref f) s = .next t ∧ t.curGroup = some g.popLane ∧ MemFrame s.sched.core (fun _ => True) s t)
  ∧ (∀ (s : State) (core slot id : Nat) (g : Group) (acc : Access), s.group (gkey core slot) = some g → amGet g.async.access id = some acc →
      acc.lane = true → acc.acks = [] → (∀ p ∈ acc.parts, p.ticket = none ∧ p.lane < 32) → (acc.parts.map (·.lane)).Nodup → g.size ≠ 1 →
      ∃ g1, exec (.memoryAccessComplete core slot id) s = .next (s.putGroup (gkey core slot) g1)
        ∧ amGet g1.async.access id = none ∧ (∀ k, k ≠ id → amGet g1.async.access k = amGet g.async.access k)
        ∧ g1.async.loads = (if acc.load then g.async.loads - 1 else g.async.loads)
        ∧ g1.async.stores = (if acc.load then g.async.stores else g.async.stores - 1)
        ∧ (∀ p ∈ acc.parts, g1.slotVal p.slot p.lane = BitVec.ofNat 32 p.value.toNat
            ∧ (p.wide = true → g1.slotVal (p.slot + 1) p.lane = BitVec.ofNat 32 (p.value.toNat / 2 ^ 32)))
        ∧ (∀ j i, i < 32 → (∀ p ∈ acc.parts, p.lane = i → g.row j ≠ g.row p.slot ∧ (p.wide = true → g.row j ≠ g.row (p.slot + 1))) →
            g1.slotVal j i = g.slotVal j i)
        ∧ g1.lanes = { g.lanes with slots := g1.lanes.slots } ∧ g1.splits = g.splits ∧ g1.csrs = g.csrs ∧ g1.trap = g.trap ∧ g1.ctl = g.ctl)

namespace Sys2Proof.Claims

/-- A reduction's operation on two patterns of a type (R103). -/
def redTwo (t : BitVec 4) (rm : BitVec 3) (op a b : Nat) : Machine.Num :=
  let w := 2 ^ widthOf t
  if t = 12 then
    (if op = 0 then fAdd 12 rm a b else if op = 1 then fMinMax 12 false false a b else if op = 2 then fMinMax 12 true false a b
     else if op = 6 then fMinMax 12 false true a b else fMinMax 12 true true a b)
  else if op = 0 then plain ((a + b) % w)
  else if op = 1 then plain ((if intVal t b < intVal t a then b else a) % w)
  else if op = 2 then plain ((if intVal t a < intVal t b then b else a) % w)
  else if op = 3 then plain ((a &&& b) % w)
  else if op = 4 then plain ((a ||| b) % w)
  else plain ((a ^^^ b) % w)
/-- What a reduction answers for no active lane (R103). -/
def redNone (t : BitVec 4) (op : Nat) : Nat :=
  if t = 12 then (if op = 1 ∨ op = 6 then 0x7F800000 else if op = 2 ∨ op = 7 then 0xFF800000 else 0)
  else if op = 1 then mod2 (widthOf t) (intMax t)
  else if op = 2 then mod2 (widthOf t) (intMin t)
  else if op = 3 then 2 ^ widthOf t - 1
  else 0
/-- One combination of two results, the flags of both kept. -/
def redJoin (f : Nat → Nat → Machine.Num) (x y : Machine.Num) : Machine.Num :=
  { bits := (f x.bits y.bits).bits, ff := (f x.bits y.bits).ff ||| (x.ff ||| y.ff), fi := (f x.bits y.bits).fi ||| (x.fi ||| y.fi) }
/-- The node `i` of level `k` of R54's pairwise tree; an absent input passes the other one on. -/
def redNode (f : Nat → Nat → Machine.Num) (leaf : Nat → Option Machine.Num) : Nat → Nat → Option Machine.Num
  | 0, i => leaf i
  | k + 1, i =>
    match redNode f leaf k (2 * i), redNode f leaf k (2 * i + 1) with
    | some x, some y => some (redJoin f x y)
    | some x, none => some x
    | none, y => y
/-- R54's left fold through a list of lanes. -/
def redFold (f : Nat → Nat → Machine.Num) (v : Nat → Nat) (ls : List Nat) : Option Machine.Num :=
  ls.foldl (fun acc i => match acc with
    | none => some (plain (v i))
    | some a => some (redJoin f a (plain (v i)))) none
/-- The group `g1` is `g` after its XSHFL `x` completes against the partner's record `other` (R224). -/
def XWritten (g g1 : Group) (x : XWait) (other : Option XWait) : Prop :=
  let j := fun i => if x.mode = 1 then stGet 0 x.sels i % 32 else if x.mode = 2 then i ^^^ (stGet 0 x.sels i % 32) else i
  let ok := fun i => match other with
    | some y => decide (y.wide = x.wide) && y.lanes.getLsbD (j i)
    | none => false
  let val := fun i => match other with
    | some y => if ok i then stGet 0 y.values (j i) else stGet 0 x.values i
    | none => stGet 0 x.values i
  (∀ i, i < 32 → x.lanes.getLsbD i = true → x.vd < 512 →
    (x.wide = false → g1.slotVal x.vd i = BitVec.ofNat 32 (val i).toNat)
    ∧ (x.wide = true → g1.slotVal x.vd i = BitVec.ofNat 32 (val i).toNat ∧ g1.slotVal (x.vd + 1) i = BitVec.ofNat 32 ((val i).toNat / 2 ^ 32)))
  ∧ (∀ k i, i < 32 → (x.lanes.getLsbD i = false ∨ 512 ≤ x.vd ∨ (g.row k ≠ g.row x.vd ∧ (x.wide = true → g.row k ≠ g.row (x.vd + 1)))) →
      g1.slotVal k i = g.slotVal k i)
  ∧ (∀ q i, i < 32 → (g1.pred q).getLsbD i = if q = x.pv ∧ q ≠ 0 ∧ x.lanes.getLsbD i = true then ok i else (g.pred q).getLsbD i)
  ∧ g1.csrs = g.csrs ∧ g1.splits = g.splits ∧ g1.trap = g.trap ∧ g1.ctl = g.ctl ∧ g1.size = g.size ∧ g1.async = { g.async with xshfl := none }
  ∧ g1.lanes = { g.lanes with slots := g1.lanes.slots, preds := g1.lanes.preds }

end Sys2Proof.Claims

/-! ### Lane exchange (R100 to R105, R223, R224) -/

/-- R101, R102, R105: SHFL moves each active lane's value from the lane its mode and selector name, within the segment, where that lane is active, and sets the
validity predicate; VOTE's result goes to every active lane as n32, or zero-extended to a scalar register. -/
def Obligations.ShuffleVoteResults : Prop :=
  ∀ (s : State) (g : Group) (e : LaneEntry) (f : LaneF), LaneAt s g e →
    let act := g.active e f
    let ls := lanesOf act
    let mode := f.fn.toNat % 4
    let w := if f.fn.toNat / 4 % 8 = 0 then 32 else 2 ^ (f.fn.toNat / 4 % 8)
    let b := fun i => srcB g e f 5 i
    let j := fun i => if mode = 0 then i / w * w + b i % w else if mode = 1 then i - b i else if mode = 2 then i + b i else i ^^^ (b i % w)
    let ok := fun i => (match mode with
      | 1 => decide (b i < w ∧ i / w * w + b i ≤ i)
      | 2 => decide (b i < w ∧ i + b i < i / w * w + w)
      | _ => true) && act.getLsbD (j i)
    let p := fun i => (g.pred f.va.toNat).getLsbD i != f.fn.getLsbD 2
    let v := match mode with
      | 0 => if ls.all p then 1 else 0
      | 1 => if ls.any p then 1 else 0
      | 2 => if ls.all p ∨ (ls.all fun i => !p i) then 1 else 0
      | _ => ofBits 32 fun i => act.getLsbD i && p i
    ((Instr.shfl f).wf = true → exec (.shfl f) s = .next (laneDone s
      ((g.laneWrite e f.vd f.td act fun i => plain (srcA g e f f.td (if ok i then j i else i))).predWrite f.vc.toNat act ok)))
    ∧ ((Instr.vote f).wf = true → (f.vd.toNat < 64 ∨ f.vd = 96) → exec (.vote f) s = .next (laneResult s g e f 5 fun _ => plain v))
    ∧ ((Instr.vote f).wf = true → 64 ≤ f.vd.toNat → f.vd.toNat < 96 →
        exec (.vote f) s = .next (laneDone s (g.setScalarOf e (BitVec.ofNat 5 (f.vd.toNat - 64)) (BitVec.ofNat 64 v))))
    ∧ (∀ (r : SReg) (x : DWord) (sp : Split), e.tag.regs = none → g.split e.tag.split = some sp →
        (g.setScalarOf e r x).split e.tag.split = some (sp.setReg r x))

/-- R54, R103, R104, R105: REDL is the pairwise tree over the active lanes, SCAN the left fold in ascending LID. -/
def Obligations.ReductionScanResults : Prop :=
  ∀ (s : State) (g : Group) (e : LaneEntry) (f : LaneF), LaneAt s g e →
    let t := f.td
    let act := g.active e f
    let ls := lanesOf act
    let v := srcA g e f t
    let op := f.fn.toNat % 8
    let two := redTwo t f.rm op
    let n := (redNode two (fun i => if act.getLsbD i then some (plain (v i)) else none) 5 0).getD (plain (redNone t op))
    ((Instr.redl f).wf = true → (f.vd.toNat < 64 ∨ f.vd = 96) →
      exec (.redl f) s = .next (laneDone s ((g.laneWrite e f.vd t act fun _ => plain n.bits).raise n.ff n.fi)))
    ∧ ((Instr.redl f).wf = true → 64 ≤ f.vd.toNat → f.vd.toNat < 96 →
        exec (.redl f) s = .next (laneDone s ((g.setScalarOf e (BitVec.ofNat 5 (f.vd.toNat - 64))
          (if t = 4 then (BitVec.ofNat 32 n.bits).signExtend 64 else BitVec.ofNat 64 n.bits)).raise n.ff n.fi)))
    ∧ ((Instr.scan f).wf = true → ∃ r, exec (.scan f) s
          = .next (laneDone s ((g.laneWrite e f.vd t act r).raise
              ((redFold two v (if f.fn.getLsbD 3 then ls.dropLast else ls)).getD (plain 0)).ff
              ((redFold two v (if f.fn.getLsbD 3 then ls.dropLast else ls)).getD (plain 0)).fi))
        ∧ ∀ j i, ls[j]? = some i → r i = plain (if f.fn.getLsbD 3
            then ((redFold two v (ls.take j)).getD (plain (redNone t op))).bits
            else ((redFold two v (ls.take (j + 1))).getD (plain 0)).bits))

/-- R223, R224: XSHFL with a partner word that is not legal raises ILLEGAL, and PROTECT at a group of another launch; with an empty partner slot or another generation
it completes at once with every lane's own value; else it records its lanes and waits. Two that name each other commit together. -/
def Obligations.XshflResults : Prop :=
  (∀ (s : State) (g : Group) (e : LaneEntry) (f : LaneF), LaneAt s g e → (Instr.xshfl f).wf = true →
    let n := (g.scalarOf e (BitVec.ofNat 5 (f.vb.toNat - 64))).toNat
    let cluster := n / 2 ^ 8 % 16
    let inCluster := n / 2 ^ 5 % 8
    let core := n / 2 ^ 12 % 4 * 96 + 12 * (2 * (cluster / 3) + inCluster / 4) + 4 * (cluster % 3) + inCluster % 4
    let slot := n % 32
    let other := gkey core slot
    let legal := n / 2 ^ 48 = 0 ∧ n / 2 ^ 24 % 256 = 0 ∧ n / 2 ^ 14 % 4 = 0 ∧ n / 2 ^ 8 % 16 < 12
    let act := g.active e f
    let mode := f.fn.toNat % 4
    let mine := fun (x : XWait) => x.core = core ∧ x.slot = slot ∧ x.gen = BitVec.ofNat 16 (n / 2 ^ 32) ∧ x.tag = BitVec.ofNat 8 (n / 2 ^ 16)
      ∧ (x.wide = true ↔ f.td = 7) ∧ x.mode = mode ∧ x.lanes = act ∧ x.pv = f.fn.toNat / 4 % 8 ∧ x.since = s.now
      ∧ x.vd = (if f.vd.toNat < 64 then e.tag.wb + f.vd.toNat else 512)
      ∧ ∀ i, i < 32 → act.getLsbD i = true → stGet 0 x.values i = BitVec.ofNat 64 (srcA g e f f.td i) ∧ (mode ≠ 0 → stGet 0 x.sels i = srcC g e f 5 i)
    (¬ legal ∨ other = s.curKey → exec (.xshfl f) s = .next (s.trapLane e (Trap.of 0x01)))
    ∧ (legal → other ≠ s.curKey → ∀ o, s.group other = some o → o.launch ≠ g.launch → exec (.xshfl f) s = .next (s.trapLane e (Trap.of 0x04)))
    ∧ (legal → other ≠ s.curKey → g.size ≠ 1 → (s.group other = none ∨
          ∃ o, s.group other = some o ∧ o.launch = g.launch ∧ s.gen other ≠ BitVec.ofNat 16 (n / 2 ^ 32)) →
        ∃ x g1, mine x ∧ exec (.xshfl f) s = .next (laneDone s g1) ∧ XWritten g g1 x none)
    ∧ (legal → other ≠ s.curKey → ∀ o, s.group other = some o → o.launch = g.launch → s.gen other = BitVec.ofNat 16 (n / 2 ^ 32) →
        ∃ x t, mine x ∧ exec (.xshfl f) s = .next t ∧ t.curGroup = some (g.modAsync fun a => { a with xshfl := some x })
          ∧ OnlyGroups s t ∧ OthersSame s t))
  ∧ (∀ (s : State) (ca sa cb sb : Nat) (a b : Group) (x y : XWait),
    let ka := gkey ca sa
    let kb := gkey cb sb
    s.group ka = some a → s.group kb = some b → ka ≠ kb → a.async.xshfl = some x → b.async.xshfl = some y →
    gkey x.core x.slot = kb → gkey y.core y.slot = ka → x.gen = s.gen kb → y.gen = s.gen ka → x.tag = y.tag → a.size ≠ 1 → b.size ≠ 1 →
    ∃ t a1 b1, exec (.xshflCommit ca sa cb sb) s = .next t ∧ XWritten a a1 x (some y) ∧ XWritten b b1 y (some x)
      ∧ t.group ka = some a1.popLane ∧ t.group kb = some b1.popLane ∧ OnlyGroups s t ∧ ∀ k, k ≠ ka → k ≠ kb → t.group k = s.group k)

namespace Sys2Proof.Claims

/-- The same machine but for the groups, the device's log, what waits to leave it, and what the schedule notes. -/
def SameStores (s t : State) : Prop :=
  t.mem = s.mem ∧ t.cores = s.cores ∧ t.gens = s.gens ∧ t.serials = s.serials ∧ t.head = s.head ∧ t.queues = s.queues ∧ t.entries = s.entries
    ∧ t.answers = s.answers ∧ t.now = s.now
/-- The number in `n` bits from bit `lo`. -/
def bits (x lo n : Nat) : Nat := x / 2 ^ lo % 2 ^ n
/-- The capability pair that starts at an even scalar register. -/
def capPair (g : Group) (e : LaneEntry) (c : BitVec 7) : Nat :=
  (g.scalarOf e (BitVec.ofNat 5 (c.toNat - 64))).toNat + 2 ^ 64 * (g.scalarOf e (BitVec.ofNat 5 (c.toNat - 63))).toNat
/-- The stack slots a lane of a register packet names. -/
def arrivalSlots (p : RegPacket) (x : RegLane) : List Nat := if p.wide then [x.slot, x.slot + 1] else [x.slot]
/-- Whether a lane of a packet may be written (R117): every slot it names is pending, or holds L and the capability has put-latest. -/
def arrivalFits (g : Group) (p : RegPacket) (x : RegLane) : Bool :=
  (arrivalSlots p x).all fun k => (g.pmask k).getLsbD x.target || ((g.lmask k).getLsbD x.target && p.cap.getLsbD 47)
/-- No put of the device waits for a reservation. -/
def noPutWaits (s : State) : Prop := ∀ p ∈ s.fabric.puts, p.2.sent = true

end Sys2Proof.Claims

/-! ### Registers as fabric addresses (R106 to R121, R364) -/

/-- R106, R107, R110, R111: RCAP mints a capability of the group's own location, generation and rights, with the MAC of the job key, or raises CAP_FAULT and
writes nothing; RREV raises the generation of the group's slot by one and changes nothing else. -/
def Sys2Proof.Claims.CapabilityResults : Prop :=
  ∀ (s : State) (g : Group) (sp : Split), At s g sp →
    (∀ d a : SReg, d ≠ 0 → d.toNat % 2 = 0 →
      let n := (sp.reg a).toNat
      let ok := n < 2 ^ 31 ∧ bits n 29 2 ≠ 0 ∧ bits n 0 5 + bits n 5 6 + 1 ≤ 32 ∧ bits n 11 9 + bits n 20 9 + 1 ≤ 512
      let core := s.sched.core
      (ok → ∀ key, amGet s.dev.keys s.dev.keyIndex = some key → s.dev.rank < 2 ^ 20 → s.dev.keyIndex < 16 → core < 384 → s.sched.slot < 32 →
        ∃ cap : Nat, cap < 2 ^ 128
          ∧ exec (.rcap d a) s = .next (goes s g ((sp.setReg d (BitVec.ofNat 64 cap)).setReg (d + 1) (BitVec.ofNat 64 (cap / 2 ^ 64))).advance)
          ∧ bits cap 108 20 = s.dev.rank
          ∧ bits cap 94 14 = 4096 * (core / 96) + 256 * (3 * (core % 96 / 24) + core % 12 / 4) + 32 * (4 * (core % 24 / 12) + core % 4) + s.sched.slot
          ∧ bits cap 78 16 = (s.gen s.curKey).toNat ∧ bits cap 73 5 = bits n 0 5 ∧ bits cap 67 6 = bits n 5 6 ∧ bits cap 58 9 = bits n 11 9
          ∧ bits cap 49 9 = bits n 20 9 ∧ bits cap 48 1 = bits n 30 1 ∧ bits cap 47 1 = bits n 29 1 ∧ bits cap 43 4 = s.dev.keyIndex
          ∧ bits cap 32 11 = 0 ∧ bits cap 0 32 = (Config.mac key (BitVec.ofNat 96 (cap / 2 ^ 32))).toNat)
      ∧ (¬ ok ∨ amGet s.dev.keys s.dev.keyIndex = none → exec (.rcap d a) s = .next (s.trapScalar (Trap.of 0x0F))))
    ∧ exec .rrev s = .next { goes s g sp.advance with gens := stSet 0 s.gens s.curKey (s.gen s.curKey + 1) }

/-- R112: RARM sets P, and L in its LATEST mode, of the named slots in the active lanes; RCLR clears both; nothing else of the group changes. -/
def Sys2Proof.Claims.ArmingResults : Prop :=
  ∀ (s : State) (g : Group) (e : LaneEntry) (f : LaneF), LaneAt s g e →
    let act := g.active e f
    let named := fun k => ∃ j, j ≤ f.fn.toNat / 2 ∧ g.row k = g.row (e.tag.wb + f.vd.toNat + j)
    let arms := fun (i : Instr) (p l : Bool) => i.wf = true → ∃ g1, exec i s = .next (laneDone s g1)
      ∧ g1 = { g with lanes := { g.lanes with pbits := g1.lanes.pbits, lbits := g1.lanes.lbits } }
      ∧ ∀ k b, b < 32 → ((named k ∧ act.getLsbD b = true) → (g1.pmask k).getLsbD b = p ∧ (g1.lmask k).getLsbD b = l)
        ∧ (¬ (named k ∧ act.getLsbD b = true) → (g1.pmask k).getLsbD b = (g.pmask k).getLsbD b ∧ (g1.lmask k).getLsbD b = (g.lmask k).getLsbD b)
    arms (.rarm f) true (f.fn.getLsbD 0) ∧ arms (.rclr f) false false

/-- R106 to R113: RCAP and RREV, RARM and RCLR. -/
def Obligations.CapabilityAndArming : Prop := Claims.CapabilityResults ∧ Claims.ArmingResults

/-- R113 to R116: RPUT checks every active lane first and raises CAP_FAULT, sending nothing, at the lowest lane that fails; else one packet of all active lanes is
recorded under the token, whose count rises and whose status word is cleared; a rank the rank table does not map completes every lane as stale. The outcome completes
the token and writes the status word. -/
def Obligations.RputResults : Prop :=
  (∀ (s : State) (g : Group) (e : LaneEntry) (f : LaneF), LaneAt s g e → (Instr.rput f).wf = true →
    let k := f.fn.toNat % 8
    let cap := capPair g e f.va
    let w := if f.td = 7 then 2 else 1
    let off := srcB g e f 5
    let ls := lanesOf (g.active e f)
    let fails := fun i => bits cap 67 6 + 1 ≤ i ∨ bits cap 49 9 + 1 < off i + w ∨ (w = 2 ∧ (bits cap 58 9 + off i) % 2 = 1) ∨ bits cap 47 2 = 0
    let rank := bits cap 108 20
    let res := s.resolveRank (s.sched.core / 96) rank
    g.async.puts.getLsbD k = false → g.token k < 255 → (rank = s.dev.rank ∨ s.dev.guardPending = none) →
    (∀ i ∈ ls, fails i → (∀ j ∈ ls, fails j → i ≤ j) → exec (.rput f) s = .next (s.trapLane e { Trap.of 0x0F with lid := i }))
    ∧ ((∀ i ∈ ls, ¬ fails i) → ls ≠ [] → noPutWaits s →
      ∃ t g1 p, exec (.rput f) s = .next t ∧ t.curGroup = some g1.popLane ∧ amGet t.fabric.puts s.fabric.nextPut = some p
        ∧ g1 = { g with
          csrs := { g.csrs with tokstat := stSet 0 g.csrs.tokstat k 0 }
          async := { g.async with tokens := stSet 0 g.async.tokens k (g.token k + 1), puts := g.async.puts ||| BitVec.ofNat 8 (2 ^ k) } }
        ∧ p.core = s.sched.core ∧ p.slot = s.sched.slot ∧ p.serial = s.serial s.curKey ∧ p.token = k ∧ p.target = rank
        ∧ p.packet.cap = BitVec.ofNat 128 cap ∧ p.packet.wide = (f.td == 7) ∧ p.packet.source = s.dev.rank
        ∧ p.packet.lanes = ls.map (fun i => { sender := i, target := bits cap 73 5 + i, slot := bits cap 58 9 + off i,
                                              value := BitVec.ofNat 64 (srcC g e f f.td i) })
        ∧ ((rank = s.dev.rank ∨ res.isSome = true) → p.outcome = none)
        ∧ (rank ≠ s.dev.rank → res = none → ∃ x : DWord, p.outcome = some x ∧ ∀ j, j < 32 → bits x.toNat (2 * j) 2 = if j ∈ ls then 2 else 0)
        ∧ t.fabric.nextPut = s.fabric.nextPut + 1 ∧ SameStores s t ∧ OthersSame s t))
  ∧ (∀ (s : State) (id : Nat) (p : Put) (x : DWord) (g : Group),
    let key := gkey p.core p.slot
    amGet s.fabric.puts id = some p → p.outcome = some x → s.group key = some g → s.serial key = p.serial →
    ∃ t g1, exec (.rputOutcome id) s = .next t ∧ t.group key = some g1
      ∧ g1 = { g with
          csrs := { g.csrs with tokstat := stSet 0 g.csrs.tokstat p.token x }
          async := { g.async with tokens := stSet 0 g.async.tokens p.token (g.token p.token - 1),
                                  puts := g.async.puts &&& ~~~(BitVec.ofNat 8 (2 ^ p.token)) } }
      ∧ amGet t.fabric.puts id = none ∧ SameStores s t ∧ t.dev = s.dev ∧ ∀ k, k ≠ key → t.group k = s.group k)

/-- R117 to R119: a packet whose group, generation, key or MAC does not fit writes nothing and every lane is stale; a packet for a group that is being saved is
held; else each lane's value is written where its lane is alive and its slots permit it, their P cleared, and a discarded lane counts in OVWCNT. The sender on this
device gets each lane's status. -/
def Obligations.ArrivalResults : Prop :=
  ∀ (s : State) (p : RegPacket) (q : Put),
    let n := p.cap.toNat
    let core := 96 * bits n 106 2 + 24 * (bits n 102 4 / 3) + 12 * (bits n 99 3 / 4) + 4 * (bits n 102 4 % 3) + bits n 99 3 % 4
    let key := gkey core (bits n 94 5)
    let fits := bits n 102 4 < 12 ∧ (s.group key).isSome = true ∧ s.gen key = BitVec.ofNat 16 (bits n 78 16) ∧ bits n 32 11 = 0
      ∧ ∃ k, amGet s.dev.keys (bits n 43 4) = some k ∧ Config.mac k (BitVec.ofNat 96 (n / 2 ^ 32)) = BitVec.ofNat 32 n
    (∀ g, bits n 102 4 < 12 → s.group key = some g → g.ctl.save = .saving →
      ∃ t, exec (.registerArrival p) s = .next t ∧ t.group key = some { g with ctl := { g.ctl with arrivals := g.ctl.arrivals ++ [p] } }
        ∧ OnlyGroups s t ∧ ∀ k, k ≠ key → t.group k = s.group k)
    ∧ (¬ (bits n 102 4 < 12 ∧ ∃ g, s.group key = some g ∧ g.ctl.save = .saving) →
        noPutWaits s → p.source = s.dev.rank → amGet s.fabric.puts p.put = some q → q.outcome = none →
        p.lanes.Pairwise (fun x y => x.sender ≠ y.sender ∧ x.target ≠ y.target) → (∀ x ∈ p.lanes, x.sender < 32 ∧ x.target < 32) →
        (¬ fits → ∃ t w, exec (.registerArrival p) s = .next t ∧ amGet t.fabric.puts p.put = some { q with outcome := some w }
          ∧ (∀ x ∈ p.lanes, bits w.toNat (2 * x.sender) 2 = 2) ∧ t.groups = s.groups ∧ SameStores s t)
        ∧ (∀ g, fits → s.group key = some g → g.size ≠ 1 → (∀ x ∈ p.lanes, ∀ k ∈ arrivalSlots p x, g.resident k = true) →
          let alive := fun (x : RegLane) => g.lanes.alive.getLsbD x.target
          let takes := fun (x : RegLane) => alive x && arrivalFits g p x
          ∃ t g1 w, exec (.registerArrival p) s = .next t ∧ t.group key = some g1 ∧ amGet t.fabric.puts p.put = some { q with outcome := some w }
            ∧ (∀ x ∈ p.lanes, bits w.toNat (2 * x.sender) 2 = if alive x = false then 3 else if arrivalFits g p x then 0 else 1)
            ∧ (∀ x ∈ p.lanes, takes x = true → g1.slotVal x.slot x.target = BitVec.ofNat 32 x.value.toNat
                ∧ (p.wide = true → g1.slotVal (x.slot + 1) x.target = BitVec.ofNat 32 (x.value.toNat / 2 ^ 32)))
            ∧ (∀ k i, i < 32 → (∀ x ∈ p.lanes, takes x = true → x.target = i → ∀ j ∈ arrivalSlots p x, g.row j ≠ g.row k) →
                g1.slotVal k i = g.slotVal k i ∧ (g1.pmask k).getLsbD i = (g.pmask k).getLsbD i)
            ∧ (∀ x ∈ p.lanes, takes x = true → ∀ j ∈ arrivalSlots p x, (g1.pmask j).getLsbD x.target = false)
            ∧ g1.csrs.ovwcnt.toNat = min (2 ^ 64 - 1) (g.csrs.ovwcnt.toNat + (p.lanes.filter fun x => alive x && !arrivalFits g p x).length)
            ∧ g1 = { g with
                lanes := { g.lanes with slots := g1.lanes.slots, pbits := g1.lanes.pbits }
                csrs := { g.csrs with ovwcnt := g1.csrs.ovwcnt } }
            ∧ SameStores s t ∧ ∀ k, k ≠ key → t.group k = s.group k))

/-- R364: a request for a block of reservations joins the queue; the oldest is granted 16 entries while 16 are free and its source holds fewer than 64; the source
takes the block; and a source gives back what it has not used for 100 µs. -/
def Obligations.ReservationResults : Prop :=
  ∀ (s : State) (source : Nat),
    let r := s.fabric.reserve
    let own := s.dev.rank
    let sameOut := fun (t : State) => t.groups = s.groups ∧ SameStores s t
    (∃ t, exec (.reservationRequest source) s = .next t ∧ t.fabric.reserve = { r with requests := r.requests ++ [source] } ∧ sameOut t)
    ∧ (noPutWaits s → (∀ rest, r.requests = source :: rest → 2 ^ 20 ≤ source → s.freeEntries ≥ 16 → stGet 0 r.granted source < 64 →
        ∃ t, exec (.reservationGrant source own) s = .next t ∧ t.fabric.reserve.requests = rest
          ∧ stGet 0 t.fabric.reserve.granted source = stGet 0 r.granted source + 16
          ∧ stGet 0 t.fabric.reserve.held source = stGet 0 r.held source + 16 ∧ nsHas t.fabric.reserve.asked source = false ∧ sameOut t)
      ∧ (∀ target, target ≠ own → 2 ^ 20 ≤ source →
        ∃ t, exec (.reservationGrant source target) s = .next t ∧ stGet 0 t.fabric.reserve.held target = stGet 0 r.held target + 16
          ∧ nsHas t.fabric.reserve.asked target = false ∧ sameOut t))
    ∧ (s.freeEntries < 16 → exec (.reservationGrant source own) s = .next s)
    ∧ (∀ target, stGet 0 r.held target ≠ 0 → (amGet r.lastSend target).getD 0 + 180000 ≤ s.now → target ≠ own →
        ∃ t, exec (.reservationIdleReturn source target) s = .next t ∧ stGet 0 t.fabric.reserve.held target = 0
          ∧ stGet 0 t.fabric.reserve.total target = stGet 0 r.total target - stGet 0 r.held target ∧ sameOut t)

namespace Sys2Proof.Claims

/-- The executing split goes on at `pc` without the lanes of `m`, which leave as a new split at `target` with a copy of its state (R127, R128). -/
def SplitOff (s : State) (g : Group) (sp : Split) (t : State) (m : LaneMask) (target pc : DWord) : Prop :=
  ∃ k g1 a b, g.split k = none ∧ t.curGroup = some g1 ∧ g1.split s.sched.split = some a ∧ g1.split k = some b
    ∧ b.pc = target ∧ b.mask = m ∧ b.status = .ready ∧ b.lp = sp.lp ∧ b.wb = sp.wb ∧ b.sregs = sp.sregs ∧ b.cbits = sp.cbits
    ∧ a.pc = pc ∧ a.mask = sp.mask &&& ~~~m ∧ a.status = sp.status ∧ a.lp = sp.lp ∧ a.wb = sp.wb ∧ a.sregs = sp.sregs ∧ a.cbits = sp.cbits
    ∧ (∀ j, j ≠ s.sched.split → j ≠ k → g1.split j = g.split j) ∧ g1.lanes = g.lanes ∧ g1.async = g.async ∧ g1.trap = g.trap
    ∧ OnlyGroups s t ∧ OthersSame s t
/-- The splits of a group that wait at a JOIN. -/
def waitersAtJoin (g : Group) : List (Nat × Split) :=
  g.splits.filter fun x => match x.2.status with
    | .joining _ _ => true
    | _ => false
/-- A split that goes on after its wait: its own registers, lp and window, at the next instruction, with the lanes of `u`. -/
def passed (sp sp1 : Split) (u : LaneMask) : Prop :=
  sp1.pc = sp.pc + 4 ∧ sp1.mask = u ∧ sp1.status = .ready ∧ sp1.lp = sp.lp ∧ sp1.wb = sp.wb ∧ sp1.sregs = sp.sregs ∧ sp1.cbits = sp.cbits
/-- Nothing of the group is outstanding. -/
def idleGroup (g : Group) : Prop :=
  g.async.laneq = [] ∧ g.async.access = [] ∧ g.async.tokens = [] ∧ g.async.loads = 0 ∧ g.async.stores = 0 ∧ g.async.copies = 0 ∧ g.async.tiles = 0
/-- No slot of lane `i` is armed, resident or spilled (R132, condition 5). -/
def unarmed (s : State) (core : Nat) (g : Group) (i : Nat) : Prop :=
  ∀ k, k < 512 →
    (g.resident k = true → (g.pmask k).getLsbD i = false ∧ (g.lmask k).getLsbD i = false)
    ∧ (g.resident k = false → ∃ w, s.pendingWord core g k = some w ∧ w.getLsbD i = false ∧ w.getLsbD (32 + i) = false)
/-- Where the lanes of a fused group come from, by new LID: (from the source, old LID) (R133). -/
def fusedFrom (dst src : Group) : List (Bool × Nat) :=
  ((lanesOf dst.lanes.alive).map fun i => (false, i)) ++ (lanesOf src.lanes.alive).map fun i => (true, i)

end Sys2Proof.Claims

/-! ### Splits, rejoin and REGROUP (R122 to R133, R39) -/

/-- R10, R127: BRV, its split's lane work done. -/
def Sys2Proof.Claims.LaneBranchResults : Prop :=
  ∀ (s : State) (g : Group) (sp : Split) (neg : BitVec 1) (p : BitVec 3) (disp : BitVec 16), At s g sp → g.laneDone s.sched.split = true →
    let target := sp.pc + 4 + 4 * disp.signExtend 64
    let live := sp.mask &&& g.lanes.alive
    let m := live &&& (if neg = 1 then ~~~(g.pred p.toNat) else g.pred p.toNat)
    target.toNat < 2 ^ 18 → target.toNat % 4 = 0 →
    (target.toNat / 8192 ≠ sp.pc.toNat / 8192 → exec (.brv neg p disp) s = .next (s.trapScalar (Trap.of 0x0B)))
    ∧ (target.toNat / 8192 = sp.pc.toNat / 8192 →
      (m = 0 → exec (.brv neg p disp) s = .next (goes s g sp.advance))
      ∧ (m ≠ 0 → m = live → exec (.brv neg p disp) s = .next (goes s g (sp.goto target)))
      ∧ (m ≠ 0 → m ≠ live → g.diverge = false → exec (.brv neg p disp) s = .next (s.trapScalar (Trap.of 0x0D)))
      ∧ (m ≠ 0 → m ≠ live → g.diverge = true → ∃ t, exec (.brv neg p disp) s = .next t ∧ SplitOff s g sp t m target (sp.pc + 4)))

/-- R10, R38, R128: JMPV, its split's lane work done and no live lane's register pending; with a pending lane it waits. -/
def Sys2Proof.Claims.LaneJumpResults : Prop :=
  ∀ (s : State) (g : Group) (sp : Split) (v : BitVec 6), At s g sp → g.laneDone s.sched.split = true →
    let live := sp.mask &&& g.lanes.alive
    let target := fun i => (g.slotVal (sp.wb + v.toNat) i).zeroExtend 64
    let align := fun i => 2 ^ 18 ≤ (target i).toNat ∨ (target i).toNat % 4 ≠ 0
    let cross := fun i => (target i).toNat / 8192 ≠ sp.pc.toNat / 8192
    (live = 0 → exec (.jmpv v) s = .next (goes s g sp.advance))
    ∧ (g.pmask (sp.wb + v.toNat) &&& live ≠ 0 → exec (.jmpv v) s = .next (s.put g { sp with pstall := some (sp.pstall.getD s.now) }))
    ∧ (g.pmask (sp.wb + v.toNat) &&& live = 0 →
      (∀ i ∈ lanesOf live, (∀ j ∈ lanesOf live, j < i → ¬ align j ∧ ¬ cross j) →
        (align i → exec (.jmpv v) s = .next (s.trapScalar (Trap.of 0x02)))
        ∧ (¬ align i → cross i → exec (.jmpv v) s = .next (s.trapScalar (Trap.of 0x0B))))
      ∧ (∀ (e : Nat) (m : LaneMask), (∀ j ∈ lanesOf live, ¬ align j ∧ ¬ cross j ∧ e ≤ j) → e ∈ lanesOf live →
          (∀ j, j < 32 → (m.getLsbD j = true ↔ live.getLsbD j = true ∧ target j = target e)) →
        (m = live → exec (.jmpv v) s = .next (goes s g ({ sp with pstall := none }.goto (target e))))
        ∧ (m ≠ live → g.diverge = false → exec (.jmpv v) s = .next (s.trapScalar (Trap.of 0x0D)))
        ∧ (m ≠ live → g.diverge = true → ∃ t, exec (.jmpv v) s = .next t ∧ SplitOff s g sp t m (target e) sp.pc)))

/-- R127, R128: BRV and JMPV. -/
def Obligations.LaneControl : Prop := Claims.LaneBranchResults ∧ Claims.LaneJumpResults

/-- R129, R131: a split that reaches a JOIN with its expected live lanes passes through; with another that waits there it merges, the member that holds the lowest
lane going on with all the lanes; else it waits. When every split waits and none can merge, and nothing is outstanding, REJOIN_DEADLOCK is taken by the split
that holds the lowest lane. -/
def Obligations.JoinResults : Prop :=
  (∀ (s : State) (g : Group) (sp : Split) (a : SReg) (id : BitVec 4), At s g sp → waitersAtJoin g = [] →
    let expect : LaneMask := BitVec.ofNat 32 (sp.reg a).toNat
    (expect &&& g.lanes.alive &&& ~~~sp.mask = 0 → ∃ t g1 sp1, exec (.join a id) s = .next t ∧ t.curGroup = some g1
      ∧ g1.split s.sched.split = some sp1 ∧ passed sp sp1 sp.mask ∧ g1.lanes = g.lanes ∧ (∀ k, k ≠ s.sched.split → g1.split k = g.split k)
      ∧ g1.csrs = { g.csrs with sinstr := g.csrs.sinstr + 1 } ∧ OnlyGroups s t ∧ OthersSame s t)
    ∧ (expect &&& g.lanes.alive &&& ~~~sp.mask ≠ 0 → exec (.join a id) s = .next (s.put g { sp with status := .joining id.toNat expect })))
  ∧ (∀ (s : State) (g : Group) (sp sp2 : Split) (a : SReg) (id : BitVec 4) (k i : Nat) (e2 : LaneMask), At s g sp → k ≠ s.sched.split →
    waitersAtJoin g = [(k, sp2)] → sp2.status = .joining id.toNat e2 → sp.mask &&& sp2.mask = 0 →
    let u := sp.mask ||| sp2.mask
    (BitVec.ofNat 32 (sp.reg a).toNat ||| e2) &&& g.lanes.alive &&& ~~~u = 0 → u.getLsbD i = true → (∀ j, j < i → u.getLsbD j = false) →
    ∃ t g1 sp1, exec (.join a id) s = .next t ∧ t.curGroup = some g1
      ∧ (sp.mask.getLsbD i = true → g1.split s.sched.split = some sp1 ∧ passed sp sp1 u ∧ g1.split k = none)
      ∧ (sp2.mask.getLsbD i = true → g1.split k = some sp1 ∧ passed sp2 sp1 u ∧ g1.split s.sched.split = none)
      ∧ g1.lanes = g.lanes ∧ OnlyGroups s t ∧ OthersSame s t)
  ∧ (∀ (s : State) (g : Group) (core slot k i : Nat) (sp : Split), s.group (gkey core slot) = some g → g.running = true → idleGroup g →
    (∀ x ∈ g.splits, ∃ id e b, x.2.status = .joining id e ∧ b < 32 ∧ g.lanes.alive.getLsbD b = true ∧ e.getLsbD b = true
      ∧ ∀ y ∈ g.splits, ∀ e1, y.2.status = .joining id e1 → y.2.mask.getLsbD b = false) →
    (k, sp) ∈ g.splits → i < 32 → sp.mask.getLsbD i = true →
    (∀ y ∈ g.splits, y ≠ (k, sp) → ∀ j, y.2.mask.getLsbD j = true → i < j) → (∀ j, j < i → sp.mask.getLsbD j = false) →
    exec (.rejoinDeadlock core slot) s = .next (s.takeTrap (gkey core slot) k (Trap.of 0x0C) none))

/-- R132: REGROUP with no such partner gives 1 at once; with one it waits. A wait ends with 1 when the partner is gone, with 2 when the partner's REGROUP names a
third group; and for a pair with nothing outstanding with 3, 4, 5 or 6 for both, in that order of tests. -/
def Sys2Proof.Claims.RegroupRefusals : Prop :=
  (∀ (s : State) (g : Group) (sp : Split) (d a : SReg), At s g sp →
    let p := (sp.reg a).toNat
    let there := ∃ tm x, s.team g.team = some tm ∧ amGet tm.groups p = some x
    (¬ there ∨ p = g.index → exec (.regroup d a) s = .next (goes s g (sp.setReg d 1).advance))
    ∧ (there → p ≠ g.index → exec (.regroup d a) s = .next (s.put g { sp with status := .regroup d p })))
  ∧ (∀ (s : State) (core sa sb ka kb : Nat) (a : Group) (spa : Split) (da : SReg) (p : Nat) (tm : Team),
    let key := gkey core sa
    let told := fun (t : State) (k n : Nat) (g : Group) (sp : Split) (d : SReg) (v : DWord) => ∃ g1, t.group k = some g1 ∧ g1.lanes = g.lanes
      ∧ g1.split n = some { (sp.setReg d v).advance with status := .ready } ∧ g1.csrs = { g.csrs with sinstr := g.csrs.sinstr + 1 }
    s.group key = some a → a.splits = [(ka, spa)] → spa.status = .regroup da p → s.team a.team = some tm →
    (amGet tm.groups p = none → ∃ t, exec (.regroupFuse core sa sb) s = .next t ∧ told t key ka a spa da 1)
    ∧ (∀ (slot q : Nat) (b : Group) (spb : Split) (db : SReg), amGet tm.groups p = some slot → s.group (gkey core slot) = some b → slot ≠ sa →
      amGet b.splits kb = some spb → spb.status = .regroup db q → (∀ x ∈ b.splits, x.1 ≠ kb → ∀ d r, x.2.status ≠ .regroup d r) →
      (b.splits.filter fun x => x.1 == kb).length = 1 →
      (q ≠ a.index → ∃ t, exec (.regroupFuse core sa sb) s = .next t ∧ told t key ka a spa da 2 ∧ t.group (gkey core slot) = some b)
      ∧ (q = a.index → a.running = true → b.running = true → idleGroup a → idleGroup b →
        let both := fun (v : DWord) => ∃ t, exec (.regroupFuse core sa sb) s = .next t ∧ told t key ka a spa da v ∧ told t (gkey core slot) kb b spb db v
        let from_ := if a.index < b.index then fusedFrom a b else fusedFrom b a
        let mine := fun (g : Group) => (if a.index < b.index then g = b else g = a)
        (1 < b.splits.length → both 3)
        ∧ (b.splits.length = 1 → (spa.wb ≠ spb.wb ∨ a.csrs.rsb ≠ b.csrs.rsb ∨ a.size ≠ b.size) → both 4)
        ∧ (b.splits.length = 1 → spa.wb = spb.wb → a.csrs.rsb = b.csrs.rsb → a.size = b.size → a ≠ b →
          (∀ (g : Group) (n i k : Nat) (src : Bool), (g = a ∨ g = b) → (src = true ↔ mine g) → from_[n]? = some (src, i) → n ≠ i → k < 512 →
              g.resident k = true → ((g.pmask k).getLsbD i = true ∨ (g.lmask k).getLsbD i = true) → both 5)
          ∧ ((∀ n src i, from_[n]? = some (src, i) → n ≠ i → ∀ g, (g = a ∨ g = b) → (src = true ↔ mine g) → unarmed s core g i) →
              32 < from_.length → both 6)))))

/-- R133, R107, R41: a fusion: the lower-indexed group holds its own live lanes and then the other's, each with its slots, predicates and VID; lanes past them are
dead and clear; the flags are ORed and OVWCNT added; the other group is gone; and both generations rise by one. -/
def Sys2Proof.Claims.RegroupFuses : Prop :=
  ∀ (s : State) (core sa sb ka kb : Nat) (a b : Group) (spa spb : Split) (da db : SReg) (tm : Team),
    let kd := gkey core sa
    let ks := gkey core sb
    s.group kd = some a → s.group ks = some b → a.splits = [(ka, spa)] → b.splits = [(kb, spb)] → spa.status = .regroup da b.index →
    spb.status = .regroup db a.index → s.team a.team = some tm → amGet tm.groups b.index = some sb → sa ≠ sb → a.index < b.index →
    a.running = true → b.running = true → idleGroup a → idleGroup b → spa.wb = spb.wb → a.csrs.rsb = b.csrs.rsb → a.size = b.size → a.size ≠ 0 →
    b.ctl.tile = none → (s.core core).quant.any (fromGroup sb) = false →
    let from_ := fusedFrom a b
    from_.length ≤ 32 →
    (∀ n src i, from_[n]? = some (src, i) → n ≠ i → unarmed s core (if src then b else a) i) →
    ∃ t g1, exec (.regroupFuse core sa sb) s = .next t ∧ t.group kd = some g1 ∧ t.group ks = none
      ∧ t.gen kd = s.gen kd + 1 ∧ t.gen ks = s.gen ks + 1
      ∧ (∃ sp1, g1.split ka = some sp1 ∧ sp1.pc = spa.pc + 4 ∧ sp1.status = .ready ∧ sp1.sregs = (spa.setReg da 0).sregs ∧ sp1.lp = spa.lp
        ∧ sp1.wb = spa.wb ∧ sp1.cbits = spa.cbits)
      ∧ (∀ n src i, from_[n]? = some (src, i) →
        let o := if src then b else a
        (∀ k, g1.slotVal k n = o.slotVal k i ∧ (g1.pmask k).getLsbD n = (o.pmask k).getLsbD i ∧ (g1.lmask k).getLsbD n = (o.lmask k).getLsbD i)
        ∧ (∀ p, p < 8 → (g1.pred p).getLsbD n = (o.pred p).getLsbD i) ∧ stGet 0 g1.lanes.vids n = stGet 0 o.lanes.vids i)
      ∧ (∀ n, n < 32 → (g1.lanes.alive.getLsbD n = true ↔ n < from_.length))
      ∧ (∀ n k, from_.length ≤ n → n < 32 → g1.slotVal k n = 0 ∧ (g1.pmask k).getLsbD n = false ∧ (g1.lmask k).getLsbD n = false)
      ∧ g1.csrs = { a.csrs with
          sinstr := a.csrs.sinstr + 1, fflags := a.csrs.fflags ||| b.csrs.fflags, iflags := a.csrs.iflags ||| b.csrs.iflags
          ovwcnt := BitVec.ofNat 64 (min (2 ^ 64 - 1) (a.csrs.ovwcnt.toNat + b.csrs.ovwcnt.toNat)) }
      ∧ g1.trap = a.trap

/-- R132, R133: when REGROUP answers a failure, and what it does when it succeeds. -/
def Obligations.RegroupResults : Prop := Claims.RegroupRefusals ∧ Claims.RegroupFuses

/-- R38, R39: when the head of the lane queue, or a JMPV or PTNEXT, has stalled for ARRTO cycles, the group raises ARRIVAL_TIMEOUT; before that, or with ARRTO 0,
nothing happens. -/
def Obligations.ArrivalTimeoutRaises : Prop :=
  ∀ (s : State) (core slot : Nat) (g : Group), s.group (gkey core slot) = some g → g.running = true →
    let key := gkey core slot
    let late := fun (t : Nat) => g.csrs.arrto ≠ 0 ∧ g.csrs.arrto.toNat ≤ s.now - t
    (∀ t0 e, g.async.stall = some t0 → g.async.laneq.head? = some e → late t0 →
      exec (.arrivalTimeout core slot) s
        = .next ((s.modGroup key fun x => { x with async := { x.async with stall := none, xshfl := none } }).takeTrap key e.tag.split (Trap.of 0x0E)
            (some e.tag)))
    ∧ (∀ k sp t0, g.splits = [(k, sp)] → g.async.stall = none → sp.pstall = some t0 → late t0 →
      exec (.arrivalTimeout core slot) s
        = .next ((s.modSplit key k fun x => { x with pstall := none, status := .ready }).takeTrap key k (Trap.of 0x0E) none))
    ∧ ((∀ t0, g.async.stall = some t0 → ¬ late t0) → (∀ x ∈ g.splits, ∀ t0, x.2.pstall = some t0 → ¬ late t0) → exec (.arrivalTimeout core slot) s = .next s)

namespace Sys2Proof.Claims

/-- In `t` split `k` of the group at `key`, which was `g`, is `sp1`, `n` more instructions have retired, and no other split, group or lane has changed. -/
def SplitNow (s t : State) (key k : Nat) (g : Group) (sp1 : Split) (n : Nat) : Prop :=
  (∃ g1, t.group key = some g1 ∧ g1.split k = some sp1 ∧ (∀ j, j ≠ k → g1.split j = g.split j) ∧ g1.lanes = g.lanes ∧ g1.async = g.async
      ∧ g1.trap = g.trap ∧ g1.csrs = { g.csrs with sinstr := g.csrs.sinstr + BitVec.ofNat 64 n } ∧ g1.team = g.team ∧ g1.index = g.index)
    ∧ ∀ j, j ≠ key → t.group j = s.group j
/-- The executing split has no lane instruction left in its group's queue. -/
def allIssued (s : State) (g : Group) : Prop := ∀ e ∈ g.async.laneq, e.tag.split ≠ s.sched.split
/-- Nothing that a release of a split of the group in a core's slot waits for is outstanding. -/
def nothingOut (s : State) (g : Group) (core slot split : Nat) : Prop :=
  slot < 32 ∧ (∀ x ∈ g.async.access, x.2.split ≠ split) ∧ (s.core core).quant = [] ∧ (∀ x ∈ s.fabric.tickets, x.2.owner ≠ .quantum core)
    ∧ ∀ x ∈ s.fabric.puts, gkey x.2.core x.2.slot ≠ gkey core slot
/-- No split of the core waits on queue `q` to push, or to pop. -/
def noPusher (s : State) (core q : Nat) : Prop :=
  ∀ x ∈ s.groups, x.1 / 32 = core → ∀ y ∈ x.2.splits, ∀ v t, y.2.status ≠ .push q v t
def noPopper (s : State) (core q : Nat) : Prop :=
  ∀ x ∈ s.groups, x.1 / 32 = core → ∀ y ∈ x.2.splits, ∀ d t, y.2.status ≠ .pop q d t
/-- The core's queues but for `q`, all other cores, memory and what the rest of the device holds are as they were. -/
def OnlyQueue (s t : State) (core q : Nat) : Prop :=
  (∀ c k, c ≠ core ∨ k ≠ q → t.coreQueue c k = s.coreQueue c k) ∧ t.mem = s.mem ∧ t.gens = s.gens ∧ t.head = s.head ∧ t.queues = s.queues
    ∧ t.entries = s.entries ∧ t.dev = s.dev ∧ t.now = s.now
/-- A condition bit given a value. -/
def withBit (sp : Split) (c : BitVec 3) (b : Bool) : Split :=
  { sp with cbits := if b then sp.cbits ||| BitVec.ofNat 8 (2 ^ c.toNat) else sp.cbits &&& ~~~(BitVec.ofNat 8 (2 ^ c.toNat)) }

end Sys2Proof.Claims

/-! ### Waits, tokens and core queues (R156 to R165) -/

/-- R157 to R160: WAITC, WAITT and YIELDT go on when their counters or tokens allow it, and wait otherwise; a wait ends when each counter has met its field at
some instant, when the named tokens are complete, or when the token has been complete. -/
def Obligations.WaitResults : Prop :=
  (∀ (s : State) (g : Group) (sp : Split) (l st c t : BitVec 6) (mask : BitVec 8), At s g sp → allIssued s g →
    let met := [decide (g.async.loads ≤ l.toNat), decide (g.async.stores ≤ st.toNat), decide (g.async.copies ≤ c.toNat), decide (g.async.tiles ≤ t.toNat)]
    ((∀ b ∈ met, b = true) → exec (.waitc l st c t) s = .next (goes s g sp.advance))
    ∧ ((∃ b ∈ met, b = false) → exec (.waitc l st c t) s = .next (s.put g { sp with status := .waitC l.toNat st.toNat c.toNat t.toNat met }))
    ∧ ((∀ k, k < 8 → mask.getLsbD k = true → g.token k = 0) → exec (.waitt mask) s = .next (goes s g sp.advance))
    ∧ ((∃ k, k < 8 ∧ mask.getLsbD k = true ∧ g.token k ≠ 0) → exec (.waitt mask) s = .next (s.put g { sp with status := .waitT mask false })))
  ∧ (∀ (s : State) (g : Group) (sp : Split) (k : BitVec 3) (disp : BitVec 16), At s g sp → allIssued s g →
    let target := sp.pc + 4 + 4 * disp.signExtend 64
    target.toNat < 2 ^ 18 → target.toNat % 4 = 0 →
    (target.toNat / 8192 ≠ sp.pc.toNat / 8192 → exec (.yieldt k disp) s = .next (s.trapScalar (Trap.of 0x0B)))
    ∧ (target.toNat / 8192 = sp.pc.toNat / 8192 →
        (g.token k.toNat = 0 → exec (.yieldt k disp) s = .next (goes s g (sp.goto target)))
        ∧ (g.token k.toNat ≠ 0 → exec (.yieldt k disp) s = .next (s.put g { sp with status := .yieldT k.toNat target false }))))
  ∧ (∀ (s : State) (core slot k : Nat) (g : Group) (sp : Split), s.group (gkey core slot) = some g → g.running = true → g.split k = some sp →
    let ends := fun (i : Instr) (sp1 : Split) => ∃ t, exec i s = .next t ∧ SplitNow s t (gkey core slot) k g { sp1 with status := .ready } 1 ∧ OnlyGroups s t
    (∀ l st c t a b d e, sp.status = .waitC l st c t [a, b, d, e] →
      (((a || decide (g.async.loads ≤ l)) && (b || decide (g.async.stores ≤ st)) && (d || decide (g.async.copies ≤ c)) && (e || decide (g.async.tiles ≤ t))) = true →
        ends (.waitcRelease core slot k) sp.advance)
      ∧ (((a || decide (g.async.loads ≤ l)) && (b || decide (g.async.stores ≤ st)) && (d || decide (g.async.copies ≤ c)) && (e || decide (g.async.tiles ≤ t))) = false →
        exec (.waitcRelease core slot k) s = .next s))
    ∧ (∀ mask due, sp.status = .waitT mask due →
      (due = true ∨ (∀ j, j < 8 → mask.getLsbD j = true → g.token j = 0) → ends (.waittRelease core slot k) sp.advance)
      ∧ (due = false → (∃ j, j < 8 ∧ mask.getLsbD j = true ∧ g.token j ≠ 0) → exec (.waittRelease core slot k) s = .next s))
    ∧ (∀ j target due, sp.status = .yieldT j target due →
      (due = true ∨ g.token j = 0 → ends (.yieldtWake core slot k) (sp.goto target))
      ∧ (due = false → g.token j ≠ 0 → exec (.yieldtWake core slot k) s = .next s)))

/-- R161 to R164: QPUSH and QPOP on a queue that the launch owns or takes, where no earlier operation waits: the append, the removal of the oldest entry, `.nb`'s
answer, the wait; another launch's queue raises QUEUE_FAULT. -/
def Sys2Proof.Claims.CoreQueueResults : Prop :=
  ∀ (s : State) (g : Group) (sp : Split) (q : BitVec 4) (c : BitVec 3) (nb : BitVec 1), At s g sp → (nb = 0 → c = 0) →
    let core := s.sched.core
    let n := q.toNat
    let x := s.coreQueue core n
    let mine := x.owner = some g.launch ∨ (x.owner = none ∧ x.items = [])
    let ends := fun (i : Instr) (items : List DWord) (sp1 : Split) (r : Nat) => ∃ t, exec i s = .next t
      ∧ t.coreQueue core n = { items := items, owner := some g.launch } ∧ SplitNow s t s.curKey s.sched.split g sp1 r ∧ OnlyQueue s t core n
    let flag := fun (b : Bool) (y : Split) => if nb = 1 then withBit y c b else y
    (∀ a d : SReg, ¬ mine → exec (.qpush a c nb q) s = .next (s.trapScalar (Trap.of 0x14)) ∧ exec (.qpop d c nb q) s = .next (s.trapScalar (Trap.of 0x14)))
    ∧ (∀ a : SReg, mine → allIssued s g → nothingOut s g core s.sched.slot s.sched.split → noPusher s core n →
      (x.items.length < 64 → ends (.qpush a c nb q) (x.items ++ [sp.reg a]) (flag true sp).advance 1)
      ∧ (64 ≤ x.items.length → nb = 1 → ends (.qpush a c nb q) x.items (withBit sp c false).advance 1)
      ∧ (64 ≤ x.items.length → nb = 0 → ends (.qpush a c nb q) x.items { sp with status := .push n (sp.reg a) s.now } 0))
    ∧ (∀ d : SReg, mine → noPopper s core n →
      (∀ v rest, x.items = v :: rest → ends (.qpop d c nb q) rest ((flag true sp).setReg d v).advance 1)
      ∧ (x.items = [] → nb = 1 → ends (.qpop d c nb q) [] (withBit sp c false).advance 1)
      ∧ (x.items = [] → nb = 0 → ends (.qpop d c nb q) [] { sp with status := .pop n d s.now } 0))

/-- R164: the waiting operation that began first goes when its queue has room or an entry. -/
def Sys2Proof.Claims.QueueReleaseResults : Prop :=
  ∀ (s : State) (core slot k q since : Nat) (g : Group) (sp : Split), slot < 32 →
    let key := gkey core slot
    let x := s.coreQueue core q
    s.group key = some g → g.running = true → g.split k = some sp →
    (∀ v, sp.status = .push q v since →
      (∀ a ∈ s.groups, a.1 / 32 = core → ∀ y ∈ a.2.splits, ∀ v1 t1, y.2.status = .push q v1 t1 → (a.1 = key ∧ y.1 = k) ∨ since < t1) →
      (x.items.length < 64 → ∃ t, exec (.queueWaitRelease core slot k) s = .next t ∧ t.coreQueue core q = { items := x.items ++ [v], owner := some g.launch }
        ∧ SplitNow s t key k g { sp.advance with status := .ready } 1 ∧ OnlyQueue s t core q)
      ∧ (64 ≤ x.items.length → exec (.queueWaitRelease core slot k) s = .next s))
    ∧ (∀ d, sp.status = .pop q d since →
      (∀ a ∈ s.groups, a.1 / 32 = core → ∀ y ∈ a.2.splits, ∀ d1 t1, y.2.status = .pop q d1 t1 → (a.1 = key ∧ y.1 = k) ∨ since < t1) →
      (∀ v rest, x.items = v :: rest → ∃ t, exec (.queueWaitRelease core slot k) s = .next t
        ∧ t.coreQueue core q = { items := rest, owner := some g.launch } ∧ SplitNow s t key k g { (sp.setReg d v).advance with status := .ready } 1
        ∧ OnlyQueue s t core q)
      ∧ (x.items = [] → exec (.queueWaitRelease core slot k) s = .next s))

/-- R161 to R163: QPUSH and QPOP, their waits and releases. -/
def Obligations.CoreQueues : Prop := Claims.CoreQueueResults ∧ Claims.QueueReleaseResults

namespace Sys2Proof.Claims

/-- No BWAIT and no WAITTL is registered on a place. -/
def noWaitOn (s : State) (p : Place) : Prop :=
  ∀ x ∈ s.groups, ∀ y ∈ x.2.splits, (∀ w b, y.2.status = .bwait w b → w.place ≠ p) ∧ ∀ w n, y.2.status = .waittl w n → w.place ≠ p
/-- A barrier word (R285): phase, arrivals expected and pending, and bytes in 33-bit two's complement. -/
def barrierWord (phase : Bool) (expected pending : Nat) (bytes : Int) : DWord :=
  BitVec.ofNat 64 ((if phase then 2 ^ 63 else 0) + expected * 2 ^ 48 + pending * 2 ^ 33 + (bytes % 2 ^ 33).toNat)
/-- The flip of R285: with no arrival and no byte awaited the phase changes and the arrivals are awaited again. -/
def flipped (phase : Bool) (expected pending : Nat) (bytes : Int) : DWord :=
  if pending = 0 ∧ bytes = 0 then barrierWord (!phase) expected expected 0 else barrierWord phase expected pending bytes
/-- A split's instruction on the live or ordinary word at `pa` is done: the word holds `new`, its tag is `kind`, no other live word has changed, and no other
byte's newest value; its split is `sp1`. -/
def WordDone (s t : State) (core pa : Nat) (g : Group) (sp1 : Split) (n : Nat) (new : DWord) (kind : Option SyncKind) : Prop :=
  SplitNow s t s.curKey s.sched.split g sp1 n ∧ t.wordAt pa = new ∧ t.mem.live pa = kind
    ∧ ∀ a, outside pa 8 a → t.mem.live a = s.mem.live a ∧ (s.mem.live a = none → viewOf t core a = viewOf s core a)

end Sys2Proof.Claims

/-! ### Fences, sync words, the team barrier (R283 to R297) -/

/-- R270, R287, R289: FENCE with nothing of its split outstanding goes on: a release past team scope leaves the core no dirty byte, an acquire past team scope no
clean one, and at pod scope or wider none of the split's kept copies; no byte's newest value changes. With a store outstanding a release waits. Kind 3 is ILLEGAL. -/
def Obligations.FenceResults : Prop :=
  (∀ (s : State) (g : Group) (sp : Split) (scope kind : BitVec 2), At s g sp → allIssued s g →
    let core := s.sched.core
    let k := s.sched.split
    (kind = 3 → exec (.fence scope kind) s = .next (s.trapScalar (Trap.of 0x01)))
    ∧ (kind ≠ 3 → nothingOut s g core s.sched.slot k → s.mem.cu = [] → ∃ t, exec (.fence scope kind) s = .next t
      ∧ SplitNow s t s.curKey k g sp.advance 1 ∧ MemFrame core (fun _ => True) s t
      ∧ (kind ≠ 0 → scope ≠ 0 → (t.core core).l1.dirty = [])
      ∧ (kind ≠ 1 → scope ≠ 0 → (t.core core).l1.clean = [])
      ∧ (kind ≠ 1 → 2 ≤ scope.toNat → ∀ x ∈ t.mem.keeps, ¬ (x.core = core ∧ x.slot = s.sched.slot ∧ x.split = k)))
    ∧ ((kind = 1 ∨ kind = 2) → s.sched.slot < 32 → s.mem.cu = [] → (s.core core).quant = [] → (∃ x ∈ g.async.access, x.2.split = k ∧ x.2.nord = false ∧ x.2.reach ≤ 1) →
      ∃ t, exec (.fence scope kind) s = .next t ∧ SplitNow s t s.curKey k g { sp with status := .fence scope kind } 0 ∧ MemFrame core (fun _ => True) s t))
  ∧ (∀ (s : State) (core slot k : Nat) (g : Group) (sp : Split) (scope kind : BitVec 2), s.group (gkey core slot) = some g → g.running = true →
    g.split k = some sp → sp.status = .fence scope kind → nothingOut s g core slot k → s.mem.cu = [] →
    ∃ t, exec (.fenceComplete core slot k) s = .next t ∧ SplitNow s t (gkey core slot) k g { sp.advance with status := .ready } 1
      ∧ t.mem.hbm = s.mem.hbm ∧ t.mem.sync = s.mem.sync ∧ (t.core core).l1.dirty = (s.core core).l1.dirty
      ∧ (kind ≠ 1 → scope ≠ 0 → (t.core core).l1.clean = []))

/-- R283, R285, R286, R290 to R293: SYNCINIT, SYNCFREE and ARRIVE on a word of package memory, with nothing of the split outstanding and no wait registered on the
word: its new value and tag and the answer; ILLEGAL, PROTECT, SCOPE_MISMATCH and QUEUE_FAULT change nothing else. -/
def Obligations.SyncWordUpdates : Prop :=
  ∀ (s : State) (g : Group) (sp : Split) (d a b : SReg) (scope : BitVec 2) (pa : Nat), At s g sp → allIssued s g →
    let core := s.sched.core
    let w := s.wordAt pa
    let v := (sp.reg b).toNat
    let kind := s.mem.live pa
    let ends := fun (i : Instr) (sp1 : Split) (new : DWord) (k : Option SyncKind) => ∃ t, exec i s = .next t ∧ WordDone s t core pa g sp1.advance 1 new k
    let trap := fun (i : Instr) (c : Byte) => exec i s = .next (s.trapScalar { Trap.of c with addr := sp.reg a })
    nothingOut s g core s.sched.slot s.sched.split → s.mem.cu = [] → pa % 8 = 0 → s.wordPlace (s.whoOf core g) (sp.reg a) = .ok (.mem pa) → noWaitOn s (.mem pa) →
    (∀ e ∈ s.entries, e.2.armed = false) →
    let legal := v < 2 ^ 63 ∧ v % 2 ^ 48 = 0 ∧ v ≠ 0
    (¬ legal → exec (.syncinit a b 0 scope) s = .next (s.trapScalar (Trap.of 0x01)))
    ∧ (s.scopeOk (pa / 128) (.core core) = true →
      (legal → ends (.syncinit a b 0 scope) sp (barrierWord false (v / 2 ^ 48) (v / 2 ^ 48) 0) (some .barrier))
      ∧ ends (.syncinit a b 1 scope) sp (sp.reg b) (some .counter)
      ∧ (kind.isSome = true → ends (.syncfree a scope) sp w none)
      ∧ (kind = none → ∃ t, exec (.syncfree a scope) s = .next t ∧ SplitNow s t s.curKey s.sched.split g sp.advance 1
          ∧ ∀ x, t.mem.live x = s.mem.live x ∧ (s.mem.live x = none → viewOf t core x = viewOf s core x))
      ∧ (kind = none → trap (.arrive d a b scope) 0x04)
      ∧ (kind = some .counter →
        (w.toNat + v < 2 ^ 64 → ends (.arrive d a b scope) (sp.setReg d w) (BitVec.ofNat 64 (w.toNat + v)) kind)
        ∧ (2 ^ 64 ≤ w.toNat + v → trap (.arrive d a b scope) 0x14))
      ∧ (kind = some .barrier → ∀ (ph : Bool) (e p : Nat) (y : Int), w = barrierWord ph e p y → e < 2 ^ 15 → p < 2 ^ 15 → -(2 ^ 32) ≤ y → y < 2 ^ 32 →
        (p = 0 ∨ (2 ^ 32 : Int) ≤ y + v → trap (.arrive d a b scope) 0x14)
        ∧ (p ≠ 0 → y + v < (2 ^ 32 : Int) → ends (.arrive d a b scope) (sp.setReg d (if ph then 1 else 0)) (flipped ph e (p - 1) (y + v)) kind)))
    ∧ (s.scopeOk (pa / 128) (.core core) = false → trap (.syncinit a b 1 scope) 0x07 ∧ trap (.syncfree a scope) 0x07
        ∧ (kind.isSome = true → trap (.arrive d a b scope) 0x07))

/-- R290, R294, R295: BWAIT and WAITTL on a word of package memory go on when the phase or the count is there, else they are registered on the word; a word that is
not of the kind raises PROTECT. A registered wait that has been met ends; one whose word was freed raises PROTECT. -/
def Sys2Proof.Claims.SyncWordWaits : Prop :=
  (∀ (s : State) (g : Group) (sp : Split) (a b : SReg) (scope : BitVec 2) (pa : Nat), At s g sp → allIssued s g →
    let core := s.sched.core
    let w := s.wordAt pa
    let v := sp.reg b
    let kind := s.mem.live pa
    let goesOn := fun (i : Instr) => ∃ t, exec i s = .next t ∧ WordDone s t core pa g sp.advance 1 w kind ∧ (scope ≠ 0 → (t.core core).l1.clean = [])
    let trap := fun (i : Instr) (c : Byte) => exec i s = .next (s.trapScalar { Trap.of c with addr := sp.reg a })
    s.sched.slot < 32 → s.mem.cu = [] → pa % 8 = 0 → s.wordPlace (s.whoOf core g) (sp.reg a) = .ok (.mem pa) →
    (kind ≠ some .barrier → trap (.bwait a b scope) 0x04)
    ∧ (kind ≠ some .counter → trap (.waittl a b scope) 0x04)
    ∧ (s.scopeOk (pa / 128) (.core core) = true →
      (kind = some .barrier →
        (w.getLsbD 63 = v.getLsbD 0 → goesOn (.bwait a b scope))
        ∧ (w.getLsbD 63 ≠ v.getLsbD 0 → ∃ t x, exec (.bwait a b scope) s = .next t ∧ x.place = .mem pa ∧ x.addr = sp.reg a ∧ x.due = false ∧ x.ticket = none
            ∧ WordDone s t core pa g { sp with status := .bwait x (v.getLsbD 0) } 0 w kind))
      ∧ (kind = some .counter →
        (v ≤ w → goesOn (.waittl a b scope))
        ∧ (¬ v ≤ w → ∃ t x, exec (.waittl a b scope) s = .next t ∧ x.place = .mem pa ∧ x.addr = sp.reg a ∧ x.due = false ∧ x.ticket = none
            ∧ WordDone s t core pa g { sp with status := .waittl x v } 0 w kind))))
  ∧ (∀ (s : State) (core slot k : Nat) (g : Group) (sp : Split), s.group (gkey core slot) = some g → g.running = true → g.split k = some sp → slot < 32 →
    let key := gkey core slot
    let ends := fun (i : Instr) => ∃ t, exec i s = .next t ∧ SplitNow s t key k g { sp.advance with status := .ready } 1 ∧ t.mem.hbm = s.mem.hbm
      ∧ t.mem.sync = s.mem.sync
    let frees := fun (i : Instr) (addr : DWord) =>
      exec i s = .next ((s.modSplit key k fun x => { x with status := .ready }).takeTrap key k { Trap.of 0x04 with addr := addr } none)
    (∀ w b, sp.status = .bwait w b → (w.due = true → ends (.bwaitRelease core slot k)) ∧ (w.due = false → exec (.bwaitRelease core slot k) s = .next s))
    ∧ (∀ w n, sp.status = .waittl w n → (w.due = true → ends (.waittlRelease core slot k)) ∧ (w.due = false → exec (.waittlRelease core slot k) s = .next s))
    ∧ (∀ addr, sp.status = .freed addr → frees (.bwaitRelease core slot k) addr ∧ frees (.waittlRelease core slot k) addr))

/-- R291, R292, R294, R295: every change of a live word reaches the waits registered on it: a BWAIT whose phase is there and a WAITTL whose count is there are met
for good; a word that is freed, or no longer of the kind, ends the wait with PROTECT; all other waits are as they were. -/
def Sys2Proof.Claims.WordChangesReachWaits : Prop :=
  ∀ (s : State) (p : Place) (kind : Option SyncKind) (v : DWord) (key k : Nat) (g : Group) (sp : Split), s.group key = some g → g.split k = some sp →
    let after := ((s.notify p kind v).group key).bind fun x => x.split k
    (∀ w b, sp.status = .bwait w b → w.due = false → w.place = p →
      (kind ≠ some .barrier → after = some { sp with status := .freed w.addr })
      ∧ (kind = some .barrier → v.getLsbD 63 = b → after = some { sp with status := .bwait { w with due := true } b })
      ∧ (kind = some .barrier → v.getLsbD 63 ≠ b → after = some sp))
    ∧ (∀ w n, sp.status = .waittl w n → w.due = false → w.place = p →
      (kind ≠ some .counter → after = some { sp with status := .freed w.addr })
      ∧ (kind = some .counter → n ≤ v → after = some { sp with status := .waittl { w with due := true } n })
      ∧ (kind = some .counter → ¬ n ≤ v → after = some sp))
    ∧ ((∀ w b, sp.status = .bwait w b → w.place ≠ p) → (∀ w n, sp.status = .waittl w n → w.place ≠ p) → after = some sp)

/-- R294, R295, R297: BWAIT and WAITTL, and how a change of a word reaches those that wait for it. -/
def Obligations.SyncWordWaiters : Prop := Claims.SyncWordWaits ∧ Claims.WordChangesReachWaits

/-- R296: a split at BAR, its lane work and accesses done, waits until every split of every live group of its team waits there, and all of them go on together. -/
def Obligations.TeamBarrierResults : Prop :=
  (∀ (s : State) (g : Group) (sp : Split) (tm : Team), At s g sp → g.laneDone s.sched.split = true → nothingOut s g s.sched.core s.sched.slot s.sched.split →
    s.team g.team = some tm → tm.core = s.sched.core → (tm.groups.map (·.2)).Nodup → (∀ x ∈ tm.groups, x.2 < 32) → (g.splits.map (·.1)).Nodup →
    g.running = true → s.sched.slot < 32 →
    let at_ := fun (x : Split) => ∃ b, x.status = .bar b
    let arrived := fun (y : Group) => y.splits ≠ [] ∧ ∀ x ∈ y.splits, x.2.status = .bar true
    let here := fun (x : Nat × Nat) => gkey s.sched.core x.2 = s.curKey
    (∃ x ∈ tm.groups, here x) → (∀ x ∈ tm.groups, ¬ here x → ∃ y, s.group (gkey s.sched.core x.2) = some y ∧ arrived y ∧ (y.splits.map (·.1)).Nodup) →
    ((∃ k x, k ≠ s.sched.split ∧ g.split k = some x ∧ ¬ at_ x) →
      ∃ t, exec .bar s = .next t ∧ SplitNow s t s.curKey s.sched.split g { sp with status := .bar false } 0)
    ∧ ((∀ k x, k ≠ s.sched.split → g.split k = some x → at_ x) →
      ∃ t, exec .bar s = .next t ∧ ∀ x ∈ tm.groups, ∀ y, s.group (gkey s.sched.core x.2) = some y →
        ∃ y1, t.group (gkey s.sched.core x.2) = some y1 ∧ y1.lanes = y.lanes ∧ ∀ k z, y.split k = some z → ∃ z1, y1.split k = some z1 ∧ passed z z1 z.mask))
  ∧ (∀ (s : State) (team : Nat) (tm : Team), s.team team = some tm → tm.groups ≠ [] → (tm.groups.map (·.2)).Nodup →
    (∀ x ∈ tm.groups, ∃ y, s.group (gkey tm.core x.2) = some y ∧ y.splits ≠ [] ∧ (y.splits.map (·.1)).Nodup ∧ y.running = true
      ∧ ∀ z ∈ y.splits, ∃ b, z.2.status = .bar b) →
    ∃ t, exec (.barComplete team) s = .next t ∧ OnlyGroups s t ∧ ∀ x ∈ tm.groups, ∀ y, s.group (gkey tm.core x.2) = some y →
      ∃ y1, t.group (gkey tm.core x.2) = some y1 ∧ y1.lanes = y.lanes ∧ ∀ k z, y.split k = some z → ∃ z1, y1.split k = some z1 ∧ passed z z1 z.mask)

namespace Sys2Proof.Claims

/-- The one piece of package memory an address range names, on one ordinary page. -/
def onePiece (s : State) (w : Who) (addr : DWord) (n : Nat) (need : Need) (pa va : Nat) : Prop :=
  s.resolveParts w addr n need = [.ok (oneSeg pa n va)]
/-- Lines of 128 bytes from `pa` that `n` bytes touch. -/
def lineIn (pa n line : Nat) : Prop := pa / 128 ≤ line ∧ line ≤ (pa + n - 1) / 128
/-- The host's channel takes commands: the device runs (R333, R332). -/
def open_ (s : State) : Prop := s.dev.phase = .running ∧ s.dev.tripped = false
/-- In `t` the host has one more answer, with a status and data. -/
def answered (s t : State) (tag : Byte) (status : Nat) (data : List Byte) : Prop :=
  t.answers = s.answers ++ [{ tag := tag, status := status, data := data }]

end Sys2Proof.Claims

/-! ### Core memory, pins, translation (R173 to R182, R257, R300 to R306) -/

/-- R176, R177: CFETCH of an image the core has no bytes of reads it now and loads the slot; a bad address or another launch's slot raises its trap; when the load
lands the slot holds the image's bytes and the token and the class count fall. RFENCE empties the core's record cache. -/
def Sys2Proof.Claims.CodeFetchResults : Prop :=
  (∀ (s : State) (g : Group) (sp : Split) (a : SReg) (k : BitVec 3) (slot : BitVec 5) (pa va : Nat), At s g sp →
    let core := s.sched.core
    let addr := sp.reg a
    let c := s.codeSlot core slot.toNat
    let own := addr.toNat < 2 ^ 57 ∨ (2 ^ 63 ≤ addr.toNat ∧ addr.toNat / 2 ^ 43 % 2 ^ 20 = s.dev.rank)
    let others := ∃ l, c.owner = some l ∧ l ≠ g.launch ∧ s.hasTeam l core = true
    (addr.toNat % 128 ≠ 0 → exec (.cfetch a k slot) s = .next (s.trapScalar { Trap.of 0x02 with addr := addr }))
    ∧ (addr.toNat % 128 = 0 → (¬ own ∨ others) → exec (.cfetch a k slot) s = .next (s.trapScalar { Trap.of 0x04 with addr := addr }))
    ∧ (addr.toNat % 128 = 0 → own → ¬ others → c.state ≠ .loading → g.memIssued s.sched.split = true → g.token k.toNat < 255 → g.async.copies < 4095 →
        s.mem.cu = [] → s.mem.poison = [] → onePiece s (s.whoOf core g) addr 8192 .rd pa va → pa % 8192 = 0 → notCached s core pa 8192 →
        ∃ t g1 x, exec (.cfetch a k slot) s = .next t ∧ t.curGroup = some g1 ∧ t.codeSlot core slot.toNat = x
          ∧ x.state = .loading ∧ x.image = some addr ∧ x.owner = some g.launch ∧ x.fetch = some (s.sched.slot, (s.serial s.curKey).toNat, k.toNat)
          ∧ x.bytes = (upFrom pa 8192).map s.mem.byte ∧ x.failed = false
          ∧ g1.async = { g.async with tokens := stSet 0 g.async.tokens k.toNat (g.token k.toNat + 1), copies := g.async.copies + 1 }
          ∧ g1.split s.sched.split = some sp.advance ∧ g1.lanes = g.lanes ∧ OthersSame s t
          ∧ ∀ y, s.mem.live y = none → viewOf t core y = viewOf s core y))
  ∧ (∀ (s : State) (core slot : Nat), slot < 32 →
    let x := s.codeSlot core slot
    x.state = .loading → x.failed = false → x.bytes.length = 8192 →
    ∃ t, exec (.overlayLanded core slot) s = .next t ∧ (t.codeSlot core slot).state = .landed ∧ (t.codeSlot core slot).image = x.image
      ∧ (t.codeSlot core slot).owner = x.owner ∧ (t.core core).codeBytes (8192 * slot) 8192 = x.bytes
      ∧ (∀ k, k ≠ slot → (t.core core).codeBytes (8192 * k) 8192 = (s.core core).codeBytes (8192 * k) 8192 ∧ t.codeSlot core k = s.codeSlot core k)
      ∧ (∀ gs n k g, x.fetch = some (gs, n, k) → s.serial (gkey core gs) = BitVec.ofNat 16 n → s.group (gkey core gs) = some g →
          t.group (gkey core gs) = some { g with async :=
            { g.async with tokens := stSet 0 g.async.tokens k (g.token k - 1), copies := g.async.copies - 1 } })
      ∧ t.mem = s.mem)
  ∧ (∀ (s : State) (g : Group) (sp : Split), At s g sp → g.memIssued s.sched.split = true →
    (∀ x ∈ g.async.access, x.2.split = s.sched.split → x.2.load = true) →
    ∃ t, exec .rfence s = .next t ∧ (t.core s.sched.core).records = [] ∧ SplitNow s t s.curKey s.sched.split g sp.advance 1 ∧ t.mem = s.mem)

/-- R182: PIN and UNPIN of no byte do nothing, of more than 2^30 raise ILLEGAL; else the pin count of each line of the range rises or falls by one and no other; a line
at 255 pins raises PROTECT and nothing is pinned. -/
def Sys2Proof.Claims.PinResults : Prop :=
  ∀ (s : State) (g : Group) (sp : Split) (a b : SReg) (pa va : Nat), At s g sp →
    let n := (sp.reg b).toNat
    let w := s.whoOf s.sched.core g
    (n = 0 → ∀ i ∈ [Instr.pin a b, .unpin a b], ∃ t, exec i s = .next t ∧ SplitNow s t s.curKey s.sched.split g sp.advance 1 ∧ t.mem = s.mem)
    ∧ (2 ^ 30 < n → ∀ i ∈ [Instr.pin a b, .unpin a b], exec i s = .next (s.trapScalar (Trap.of 0x01)))
    ∧ (0 < n → n ≤ 2 ^ 30 → onePiece s w (sp.reg a) n .any pa va →
      (s.mem.pins = [] → n ≤ 2 ^ 21 - 128 → ∃ t, exec (.pin a b) s = .next t ∧ SplitNow s t s.curKey s.sched.split g sp.advance 1
        ∧ (∀ l, lineIn pa n l → t.mem.pinCount l = 1) ∧ (∀ l, ¬ lineIn pa n l → t.mem.pinCount l = 0) ∧ t.mem.hbm = s.mem.hbm)
      ∧ ((∃ l, lineIn pa n l ∧ 255 ≤ s.mem.pinCount l) → exec (.pin a b) s = .next (s.trapScalar { Trap.of 0x04 with addr := sp.reg a }))
      ∧ ((∀ l, lineIn pa n l → amGet s.mem.pins l = none ∨ ∃ c, 1 ≤ c ∧ amGet s.mem.pins l = some [(g.launch, c)]) →
        ∃ t, exec (.unpin a b) s = .next t ∧ SplitNow s t s.curKey s.sched.split g sp.advance 1
          ∧ (∀ l, t.mem.pinCount l = if pa / 128 ≤ l ∧ l ≤ (pa + n - 1) / 128 then s.mem.pinCount l - 1 else s.mem.pinCount l) ∧ t.mem.hbm = s.mem.hbm))

/-- R136, R176, R201, R218: a group stopped by a replayable fault: an overlay that has landed, a page that is mapped, a MACRO mismatch and a first arrival timeout
let its instruction run again; a second timeout at the same place with no instruction of the split between escalates. -/
def Sys2Proof.Claims.ReplayResults : Prop :=
  ∀ (s : State) (core slot : Nat) (g : Group) (p : PendingFault), s.group (gkey core slot) = some g → g.ctl.fault = some p → g.ctl.save = .running →
    let goesOn := fun (last : List PendingFault) => ∃ t, exec (.faultReplay core slot) s = .next t
      ∧ t.group (gkey core slot) = some { g with ctl := { g.ctl with fault := none, lastTimeout := last } } ∧ (∀ k, k ≠ gkey core slot → t.group k = s.group k)
      ∧ t.mem.hbm = s.mem.hbm ∧ t.cores = s.cores
    (p.cause = 0x0A → (s.codeSlot core (p.addr.toNat / 8192 % 32)).state = .landed → goesOn g.ctl.lastTimeout)
    ∧ (p.cause = 0x0A → (s.codeSlot core (p.addr.toNat / 8192 % 32)).state = .empty → (s.codeSlot core (p.addr.toNat / 8192 % 32)).image.isSome = true →
        ∃ t, exec (.faultReplay core slot) s = .next t ∧ (t.codeSlot core (p.addr.toNat / 8192 % 32)).state = .loading ∧ t.groups = s.groups)
    ∧ (p.cause = 0x12 → goesOn g.ctl.lastTimeout)
    ∧ (p.cause = 0x0E → (∀ q ∈ g.ctl.lastTimeout, ¬ (q.split = p.split ∧ q.pc = p.pc ∧ q.lp = p.lp)) →
        goesOn (p :: g.ctl.lastTimeout.filter fun q => q.split != p.split))
    ∧ (p.cause = 0x0E → (∃ q ∈ g.ctl.lastTimeout, q.split = p.split ∧ q.pc = p.pc ∧ q.lp = p.lp) →
        exec (.faultReplay core slot) s = .next (s.escalateGroup (gkey core slot) p))
    ∧ (p.cause = 0x03 → ∀ l, p.addr.toNat < 2 ^ 57 → p.addr.toNat % 65536 + 8 ≤ 65536 → (s.whoOf core g).asid < 256 → s.mem.shoots = [] → s.mem.revoked = [] →
        s.walk (s.whoOf core g).asid p.addr.toNat = .leaf l false → goesOn g.ctl.lastTimeout)

/-- R173, R257, R304 to R306, R349: a fill makes its line present; a walk that finds a leaf puts it in the TLBs, a rank that resolves enters its die's cache; pins
that last 100 µs into a shootdown are revoked, and a shootdown without pins is answered; a migration's frame has its bytes at the new place. -/
def Sys2Proof.Claims.PackageMemoryEvents : Prop :=
  (∀ (s : State) (line : Nat) (who : List Nat), amGet s.mem.msrs line = some who →
    ∃ t, exec (.l2MissFill line) s = .next t ∧ amGet t.mem.msrs line = none ∧ nsHas t.mem.l2 line = true ∧ t.mem.hbm = s.mem.hbm ∧ t.groups = s.groups
      ∧ ∀ c ∈ who, nsHas (t.core c).l1.fetched line = true)
  ∧ (∀ (s : State) (core asid va : Nat) (l : Leaf), s.shooting asid va = none →
    let filled := ∃ t, exec (.pageWalk core asid va) s = .next t ∧ (∃ e ∈ (t.core core).tlb, e.asid = asid ∧ e.leaf = l ∧ e.va ≤ va ∧ va < e.va + 2 ^ l.bits)
      ∧ t.mem.hbm = s.mem.hbm ∧ t.groups = s.groups
    (tlbFind ((amGet s.mem.tlbs (clusterOf core)).getD []) asid va = some l → filled)
    ∧ (tlbFind ((amGet s.mem.tlbs (clusterOf core)).getD []) asid va = none → amGet s.mem.walkCache (dieOf core) = none → s.walk asid va = .leaf l false → filled))
  ∧ (∀ (s : State) (core asid va : Nat) (b : Bool), s.shooting asid va = none → tlbFind ((amGet s.mem.tlbs (clusterOf core)).getD []) asid va = none → amGet s.mem.walkCache (dieOf core) = none →
    s.walk asid va = .none b → exec (.pageWalk core asid va) s = .next s)
  ∧ (∀ (s : State) (die rank : Nat) (r : Nat × Nat × Nat), amGet ((amGet s.fabric.ranks die).getD []) rank = none → s.permitted rank = true →
    s.dev.guardPending = none → resolveFrom s rank 8 s.dev.rootNode 0 = .ok r →
    ∃ t, exec (.rankWalk die rank) s = .next t ∧ amGet ((amGet t.fabric.ranks die).getD []) rank = some r ∧ t.groups = s.groups ∧ t.mem = s.mem)
  ∧ (∀ (s : State) (k : Nat) (x : Shoot), amGet s.mem.shoots k = some x → x.move = none →
    (180000 ≤ s.now - x.since → ∃ t, exec (.pinRevocation k) s = .next t ∧ (∀ l ∈ s.mem.pinsIn x.asid x.va x.len, t.mem.pinCount l = 0)
      ∧ (∀ l, l ∉ s.mem.pinsIn x.asid x.va x.len → t.mem.pinCount l = s.mem.pinCount l)
      ∧ (∀ l ∈ s.mem.pinsIn x.asid x.va x.len, ∀ y ∈ (amGet s.mem.pins l).getD [],
          ({ launch := y.1, asid := x.asid, va := x.va, len := x.len, remap := x.remap } : Revoked) ∈ t.mem.revoked) ∧ t.groups = s.groups)
    ∧ (s.now - x.since < 180000 → exec (.pinRevocation k) s = .next s)
    ∧ (s.mem.pinsIn x.asid x.va x.len = [] → ∃ t, exec (.shootdownComplete k) s = .next t ∧ amGet t.mem.shoots k = none ∧ answered s t x.tag 0 []
      ∧ t.mem.hbm = s.mem.hbm ∧ t.groups = s.groups)
    ∧ (s.mem.pinsIn x.asid x.va x.len ≠ [] → exec (.shootdownComplete k) s = .next s))
  ∧ (∀ (s : State) (k size frame scale : Nat) (x : Shoot), amGet s.mem.shoots k = some x → x.move = some (size, frame, scale) →
    s.leafAt x.asid x.va = none → ∃ t, exec (.migrationComplete k) s = .next t ∧ amGet t.mem.shoots k = none ∧ answered s t x.tag 1 [])
  ∧ (∀ (s : State) (k size frame scale at_ sh : Nat) (x : Shoot) (l : Leaf) (m : Bool), amGet s.mem.shoots k = some x → x.move = some (size, frame, scale) →
    s.leafAt x.asid x.va = some (at_, sh) → s.walk x.asid x.va = .leaf l m → l.format = none → s.mem.cu = [] → (∀ c ∈ s.cores, c.2.l1.dirty = []) →
    l.frame + size ≤ frame ∨ frame + size ≤ l.frame → at_ + 8 ≤ frame ∨ frame + size ≤ at_ → at_ + 8 ≤ l.frame ∨ l.frame + size ≤ at_ → s.mem.sync = [] → s.mem.wf = true →
    ∃ t, exec (.migrationComplete k) s = .next t ∧ amGet t.mem.shoots k = none ∧ answered s t x.tag 0 []
      ∧ (∀ o, o < size → t.mem.byte (frame + o) = s.mem.byte (l.frame + o))
      ∧ (∀ a, outside frame size a → outside at_ 8 a → t.mem.byte a = s.mem.byte a)
      ∧ bits (t.mem.num at_ 8) 6 1 = 0)

/-- R298: two lines below the end of physical memory lie in different channels or at different lines of one, each an enabled channel's line within its 1.5 GiB; a stack's
channels are 32, and four stacks lie beside a die. -/
def Sys2Proof.Claims.ChannelMap : Prop :=
  (∀ (s : State) (l m : Nat), s.dev.topology = State.fullTopology → (l + 1) * 128 ≤ s.paEnd → (m + 1) * 128 ≤ s.paEnd →
    s.lineChannel l = some (l % 512) ∧ s.channelLine l < 12582912 ∧ (l ≠ m → s.lineChannel l ≠ s.lineChannel m ∨ s.channelLine l ≠ s.channelLine m))
  ∧ ∀ c, c < 512 → stackOf c < 16 ∧ stackDie (stackOf c) = c / 128

/-- The statement of the families above. -/
def Obligations.CoreMemoryAndTranslation : Prop :=
  Claims.CodeFetchResults ∧ Claims.PinResults ∧ Claims.ReplayResults ∧ Claims.PackageMemoryEvents ∧ Claims.ChannelMap

namespace Sys2Proof.Claims

/-- `n` bytes at an address lie in a team's scratchpad window (R169). -/
def inScr (tm : Team) (a n : Nat) : Prop := a / 2 ^ 24 = 2 ^ 38 ∧ a % 2 ^ 24 + n ≤ bits tm.part.toNat 4 8 * 16384
/-- A byte of the scratchpad by its address, and a number of `n` bytes. -/
def scrByte (tm : Team) (a : Nat) : Byte := stGet 0 tm.scratch (a % 2 ^ 24)
def scrNum (tm : Team) (a n : Nat) : Nat := leNat ((upFrom (a % 2 ^ 24) n).map fun o => stGet 0 tm.scratch o)
/-- The word of a tile, its rows and columns, and an accumulator element (R183, R185). -/
def tileWord (tm : Team) (k : Nat) : Nat := (stGet 0 tm.tcfg k).toNat
def rowsOf (w : Nat) : Nat := bits w 9 8 + 1
def colsOf (w : Nat) : Nat := bits w 0 9 + 1
def tileElem (tm : Team) (k r n : Nat) : Word := stGet 0 tm.tiles (k * 2 ^ 17 + r * 2 ^ 9 + n)
/-- A configuration word TCFG accepts (R185). -/
def cfgWordGood (w : Nat) : Prop :=
  if bits w 31 1 = 0 then w = 0
  else bits w 27 3 ≠ 0 ∧ bits w 24 3 ≠ 0 ∧ bits w 21 3 ≤ 4 ∧ bits w 18 3 ≤ 5 ∧ bits w 17 1 = 0 ∧ colsOf w ≤ 384
    ∧ (bits w 30 1 = 1 → bits w 18 3 = 3 ∧ bits w 27 3 = 7 ∧ bits w 24 3 = 7)
/-- No operation of the team is in the core's sequencer and no collective of it has begun. -/
def quietTiles (s : State) (core team : Nat) (tm : Team) : Prop :=
  (∀ o ∈ (s.core core).engines.matq, o.team ≠ team) ∧ ∀ c ∈ tm.colls, c.started = false
/-- In `t` the executing split's matrix operation of a kind is last in the core's sequencer, it counts, and the split goes on; the last register write is `sp1`. -/
def matIssued (s t : State) (g : Group) (sp : Split) (kind : MatKind) : Prop :=
  ∃ o g1, (t.core s.sched.core).engines.matq = (s.core s.sched.core).engines.matq ++ [o] ∧ o.kind = kind ∧ o.team = g.team ∧ o.slot = s.sched.slot
    ∧ o.serial = s.serial s.curKey ∧ o.step = 0 ∧ o.wait = [] ∧ o.stop = none
    ∧ t.curGroup = some g1 ∧ g1.async = { g.async with tiles := g.async.tiles + 1 } ∧ g1.ctl.openBatch = g.ctl.openBatch ++ [o.id]
    ∧ g1.split s.sched.split = some sp.advance ∧ (∀ k, k ≠ s.sched.split → g1.split k = g.split k) ∧ g1.lanes = g.lanes ∧ g1.trap = g.trap
    ∧ OthersSame s t ∧ t.mem = s.mem
/-- The head of a core's sequencer is `o`, of a team that lives, and nothing holds it up. -/
def headFree (s : State) (core : Nat) (o : MatOp) (rest : List MatOp) (tm : Team) : Prop :=
  (s.core core).engines.matq = o :: rest ∧ s.team o.team = some tm ∧ o.wait = [] ∧ o.stop = none
    ∧ ∀ g, s.group (gkey core o.slot) = some g → g.ctl.fault = none

end Sys2Proof.Claims

/-! ### The matrix unit (R183 to R202) -/

/-- R185, R186, R198, R200: TCFG installs 16 good words and clears every tile, or raises TILE; TZERO clears a tile; MFENCE gives the batch its number. -/
def Sys2Proof.Claims.TileConfiguration : Prop :=
  ∀ (s : State) (g : Group) (sp : Split) (tm : Team), At s g sp → s.team g.team = some tm →
    let core := s.sched.core
    (∀ a : SReg,
      let addr := (sp.reg a).toNat
      let w := fun i => scrNum tm (addr + 4 * i) 4
      let good := (∀ i, i < 16 → cfgWordGood (w i))
        ∧ ((List.range 16).map fun i => if bits (w i) 31 1 = 1 then rowsOf (w i) * colsOf (w i) * 4 else 0).sum ≤ 16384 * bits tm.part.toNat 12 8
      (addr % 64 ≠ 0 → exec (.tcfg a) s = .next (s.trapScalar { Trap.of 0x02 with addr := sp.reg a }))
      ∧ (addr % 64 = 0 → inScr tm addr 64 → g.memIssued s.sched.split = true →
        (¬ good → exec (.tcfg a) s = .next (s.trapScalar (Trap.of 0x15)))
        ∧ (good → quietTiles s core g.team tm → ∃ t tm1, exec (.tcfg a) s = .next t ∧ SplitNow s t s.curKey s.sched.split g sp.advance 1 ∧ t.mem = s.mem
          ∧ t.team g.team = some tm1 ∧ (∀ i, i < 16 → tileWord tm1 i = w i) ∧ (∀ k r n, tileElem tm1 k r n = 0) ∧ tm1.scratch = tm.scratch)))
    ∧ (∀ tile : BitVec 4,
      (bits (tileWord tm tile.toNat) 31 1 = 0 → exec (.tzero tile) s = .next (s.trapScalar (Trap.of 0x01)))
      ∧ (bits (tileWord tm tile.toNat) 31 1 = 1 → quietTiles s core g.team tm → ∃ t tm1, exec (.tzero tile) s = .next t
        ∧ SplitNow s t s.curKey s.sched.split g sp.advance 1 ∧ t.mem = s.mem ∧ t.team g.team = some tm1
        ∧ (∀ k r n, r < 256 → n < 512 → tileElem tm1 k r n = if k = tile.toNat then 0 else tileElem tm k r n)
        ∧ tm1.tcfg = tm.tcfg ∧ tm1.scratch = tm.scratch))
    ∧ (∀ d : SReg, noWaitOn s (.window (8 * core)) → sp.status = .ready →
      let n := (s.core core).engines.mtxLast + 1
      (n < 2 ^ 64 → ∃ t g1, exec (.mfence d) s = .next t ∧ t.curGroup = some g1 ∧ g1.split s.sched.split = some (sp.setReg d (BitVec.ofNat 64 n)).advance
        ∧ (∀ k, k ≠ s.sched.split → g1.split k = g.split k) ∧ g1.ctl.openBatch = [] ∧ g1.lanes = g.lanes ∧ g1.async = g.async ∧ g1.trap = g.trap
        ∧ (t.core core).engines.mtxLast = n ∧ (g.ctl.openBatch ≠ [] → amGet (t.core core).engines.batches n = some g.ctl.openBatch) ∧ OthersSame s t)
      ∧ (2 ^ 64 ≤ n → exec (.mfence d) s = .next (s.trapScalar (Trap.of 0x14))))

/-- R195 to R197, R199: TLD, TST and MLOOP whose checks pass join the core's sequencer and count as tile operations. The statement's rows and A operands lie
in the team's scratchpad. -/
def Sys2Proof.Claims.MatrixIssue : Prop :=
  ∀ (s : State) (g : Group) (sp : Split) (tm : Team) (tile : BitVec 4) (a b : SReg), At s g sp → s.team g.team = some tm → g.async.tiles < 4095 →
    let core := s.sched.core
    let tw := tileWord tm tile.toNat
    let int := bits tw 30 1 = 1
    bits tw 31 1 = 1 → (∀ c ∈ tm.colls, c.started = true → c.tile ≠ tile.toNat) →
    (∀ (rm : BitVec 3) (sat : BitVec 1), rm.toNat ≤ 4 →
      let desc := (sp.reg b).toNat
      let ty := bits desc 32 4
      let size := bytesIn (BitVec.ofNat 4 ty)
      let stride := bits desc 0 32
      bits desc 36 28 = 0 → (int → ty = 0 ∨ ty = 2 ∨ ty = 4) → (¬ int → 8 ≤ ty ∧ ty ≤ 12) → (sp.reg a).toNat % size = 0 → stride % size = 0 →
      (∀ r, r < rowsOf tw → inScr tm (sp.reg a + BitVec.ofNat 64 (r * stride)).toNat (colsOf tw * size)) →
      (∃ t, exec (.tld sat a b rm tile) s = .next t ∧ matIssued s t g sp (.tld tile.toNat (sp.reg a) (BitVec.ofNat 4 ty) stride rm (sat == 1)))
      ∧ (∃ t, exec (.tst sat a b rm tile) s = .next t ∧ matIssued s t g sp (.tst tile.toNat (sp.reg a) (BitVec.ofNat 4 ty) stride rm (sat == 1))))
    ∧ (∀ (k : SReg) (record : List Byte),
      let x := (sp.reg k).toNat
      let count := bits x 0 16
      let ainc := ((BitVec.ofNat 24 (x / 2 ^ 16)).toInt)
      let binc := ((BitVec.ofNat 24 (x / 2 ^ 40)).toInt)
      let size := bytesIn (tileAType (stGet 0 tm.tcfg tile.toNat))
      let who := s.whoOf core g
      s.recordRead who (sp.reg b) = .ok (s, record) → recFormat record = 0 → recDims record = 2 →
      (∀ j, j < count → (sp.reg a + BitVec.ofInt 64 (j * ainc)).toNat % size = 0
        ∧ inScr tm (sp.reg a + BitVec.ofInt 64 (j * ainc)).toNat (rowsOf tw * tileKs (stGet 0 tm.tcfg tile.toNat) * size)) →
      (∀ j, j < count → ∀ e ∈ bElems (stepB record binc j) (tileKs (stGet 0 tm.tcfg tile.toNat)) (colsOf tw),
        ∃ p, s.bPlace who (stepB record binc j) e.2.2 = .ok p) →
      ∃ t, exec (.mloop tile a b k) s = .next t ∧ matIssued s t g sp (.mloop tile.toNat (sp.reg a) record count ainc binc))

/-- R183, R193, R197, R199: what the head of the sequencer does. A TLD puts the converted values of its rows into the tile; a TST puts the tile's converted values into
its rows; a step of an MLOOP on an INT tile adds the products of its 256 K-rows to every element, modulo 2^32; an operation that has ended leaves the sequencer.
The rows, A and B lie in the team's scratchpad. -/
def Sys2Proof.Claims.MatrixEffects : Prop :=
  ∀ (s : State) (core : Nat) (o : MatOp) (rest : List MatOp) (tm : Team), headFree s core o rest tm →
    (∀ (tile : Nat) (addr : DWord) (ty : BitVec 4) (stride : Nat) (rm : BitVec 3) (sat : Bool), tile < 16 → ty.toNat ≤ 12 →
      let tw := tileWord tm tile
      let acc : BitVec 4 := if bits tw 30 1 = 1 then 4 else 12
      let row := fun r => (addr + BitVec.ofNat 64 (r * stride)).toNat
      let size := bytesIn ty
      (∀ r, r < rowsOf tw → inScr tm (row r) (colsOf tw * size)) →
      (o.kind = .tld tile addr ty stride rm sat → o.step = 0 →
        ∃ t tm1, exec (.matrixOpComplete core) s = .next t ∧ (t.core core).engines.matq = rest ∧ t.team o.team = some tm1 ∧ tm1.scratch = tm.scratch
          ∧ (∀ r n, r < rowsOf tw → n < colsOf tw →
              tileElem tm1 tile r n = BitVec.ofNat 32 (convert ty acc rm sat (scrNum tm (row r + n * size) size)).bits)
          ∧ ∀ k r n, k ≠ tile → r < 256 → n < 512 → tileElem tm1 k r n = tileElem tm k r n)
      ∧ (o.kind = .tst tile addr ty stride rm sat → o.step = 0 → colsOf tw * size ≤ stride → stride < 2 ^ 32 →
        ∃ t tm1, exec (.matrixOpComplete core) s = .next t ∧ (t.core core).engines.matq = rest ∧ t.team o.team = some tm1 ∧ tm1.tiles = tm.tiles
          ∧ (∀ r n, r < rowsOf tw → n < colsOf tw →
              scrNum tm1 (row r + n * size) size = (convert acc ty rm sat (tileElem tm tile r n).toNat).bits % 256 ^ size)
          ∧ ∀ x, (∀ r, r < rowsOf tw → outside (row r % 2 ^ 24) (colsOf tw * size) x) → stGet 0 tm1.scratch x = stGet 0 tm.scratch x))
    ∧ (∀ (tile : Nat) (a : DWord) (record : List Byte) (count : Nat) (ainc binc : Int), tile < 16 → o.kind = .mloop tile a record count ainc binc →
      let tw := tileWord tm tile
      let b := withBase record (BitVec.ofNat 64 (recBase record) + BitVec.ofInt 64 (o.step * binc)).toNat
      let baseA := (a + BitVec.ofInt 64 (o.step * ainc)).toNat
      let cell := fun k n => (recAddr b [recOrigin b 0 + (k : Nat), recOrigin b 1 + (n : Nat)]).toNat
      let valA := fun r k => intVal 0 (scrByte tm (baseA + r * 256 + k)).toNat
      let valB := fun k n => intVal 0 (scrByte tm (cell k n)).toNat
      (count ≤ o.step → ∃ t, exec (.matrixOpComplete core) s = .next t ∧ (t.core core).engines.matq = rest)
      ∧ (o.step < count → bits tw 31 1 = 1 → bits tw 30 1 = 1 → bits tw 18 3 = 3 → bits tw 24 3 = 7 → recFormat b = 0 →
        inScr tm baseA (rowsOf tw * 256) →
        (∀ k n, k < 256 → n < colsOf tw → k < recExt b 0 ∧ n < recExt b 1 ∧ recIn b [recOrigin b 0 + (k : Nat), recOrigin b 1 + (n : Nat)] = true
          ∧ inScr tm (cell k n) 1) →
        ∃ t tm1, exec (.mloopStep core) s = .next t ∧ (t.core core).engines.matq = { o with step := o.step + 1, misses := 0, sent := false, vals := [] } :: rest
          ∧ t.mem = s.mem ∧ t.team o.team = some tm1 ∧ tm1.scratch = tm.scratch
          ∧ (∀ r n, r < rowsOf tw → n < colsOf tw →
              tileElem tm1 tile r n = tileElem tm tile r n + BitVec.ofInt 32 ((List.range 256).map fun k => valA r k * valB k n).sum)
          ∧ ∀ k r n, k ≠ tile → r < 256 → n < 512 → tileElem tm1 k r n = tileElem tm k r n))

/-- R188, R189: a K-block with a NaN or an infinity is poisoned; one of zeros converts to zeros; else every converted value lies in the range of the tile's A bits. -/
def Sys2Proof.Claims.BlockConversion : Prop :=
  ∀ (w : Word) (xs : List FVal), bits w.toNat 30 1 = 0 →
    ((∃ x ∈ xs, x.isNan = true ∨ x.isInf = true) → convertBlock w xs = none)
    ∧ ((∀ x ∈ xs, x.isZero = true) → convertBlock w xs = some (0, xs.map fun _ => 0))
    ∧ (∀ e qs, convertBlock w xs = some (e, qs) → qs.length = xs.length
        ∧ ∀ q ∈ qs, -(2 ^ bits w.toNat 27 3 : Int) ≤ q ∧ q < 2 ^ bits w.toNat 27 3)

/-! ### Rank-coded mode (R203 to R215) -/

/-- R205 to R208, R210 to R212, R214: RKTBL loads a table and its launch owns it; RKENC, RKMM and RKVAL whose checks pass are issued; another launch's table raises
PROTECT. The descriptor, the blocks and the destinations lie in the team's scratchpad. -/
def Sys2Proof.Claims.RankIssue : Prop :=
  ∀ (s : State) (g : Group) (sp : Split) (tm : Team) (a b d : SReg) (table : BitVec 2), At s g sp → s.team g.team = some tm →
    let core := s.sched.core
    let at_ := (amGet (s.core core).atten table.toNat).getD Atten.fresh
    let mine := at_.owner = none ∨ at_.owner = some g.launch
    let addr := (sp.reg a).toNat
    (addr % 64 = 0 → ¬ mine → exec (.rktbl a table) s = .next (s.trapScalar (Trap.of 0x04)))
    ∧ (addr % 64 = 0 → mine → inScr tm addr 512 → g.memIssued s.sched.split = true → (∀ o ∈ (s.core core).engines.matq, o.kind.usesTable table.toNat = false) →
      ∃ t x, exec (.rktbl a table) s = .next t ∧ SplitNow s t s.curKey s.sched.split g sp.advance 1 ∧ t.mem = s.mem
        ∧ amGet (t.core core).atten table.toNat = some x ∧ x.owner = some g.launch
        ∧ (∀ i, i < 256 → stGet 0 x.weights i = BitVec.ofNat 16 (scrNum tm (addr + 2 * i) 2))
        ∧ ∀ k, k ≠ table.toNat → amGet (t.core core).atten k = amGet (s.core core).atten k)
    ∧ (addr % 64 = 0 → inScr tm addr 64 → g.memIssued s.sched.split = true → g.async.tiles < 4095 →
      let bs := tm.scratchBytes (addr % 2 ^ 24) 64
      let size := bytesIn (encType bs)
      encOk bs = true → (encSource bs).toNat % size = 0 → encStride bs % size = 0 →
      (∀ j, j < encRows bs → inScr tm (encSource bs + BitVec.ofNat 64 (j * encStride bs)).toNat (encK bs * size)) →
      (encDest bs).toNat % 8 = 0 → inScr tm (encDest bs).toNat (8 + 2 * encRows bs * encCount bs) →
      ∃ t o g1, exec (.rkenc d a) s = .next t ∧ (t.core core).engines.rankq = (s.core core).engines.rankq ++ [o] ∧ o.num = (s.core core).engines.rankLast + 1
        ∧ (t.core core).engines.rankLast = o.num ∧ o.bytes = bs ∧ o.desc = sp.reg a ∧ o.d = d ∧ o.team = g.team ∧ o.slot = s.sched.slot
        ∧ t.curGroup = some g1 ∧ g1.async.tiles = g.async.tiles + 1 ∧ (d ≠ 0 → nsHas g1.async.owed (s.sched.split * 32 + d.toNat) = true)
        ∧ g1.split s.sched.split = some sp.advance ∧ OthersSame s t ∧ t.mem = s.mem)
    ∧ (∀ (tile : BitVec 4) (rb : ResidentB),
      let tw := tileWord tm tile.toNat
      let h := BitVec.ofNat 64 (scrNum tm addr 8)
      (bits tw 31 1 = 0 ∨ bits tw 30 1 = 1 ∨ tm.residentB = none → exec (.rkmm tile a table) s = .next (s.trapScalar (Trap.of 0x01)))
      ∧ (bits tw 31 1 = 1 → bits tw 30 1 = 0 → tm.residentB = some rb → rb.cols = colsOf tw → rb.planes = bits tw 24 3 + 1 → g.memIssued s.sched.split = true →
        (¬ mine → exec (.rkmm tile a table) s = .next (s.trapScalar (Trap.of 0x04)))
        ∧ (mine → addr % 8 = 0 → hdrOk h = true → hdrRows h ≤ rowsOf tw → inScr tm addr (8 + 2 * hdrRows h * hdrCount h) → g.async.tiles < 4095 →
          (∀ c ∈ tm.colls, c.started = true → c.tile ≠ tile.toNat) →
          ∃ t, exec (.rkmm tile a table) s = .next t ∧ matIssued s t g sp (.rkmm tile.toNat (sp.reg a) h table.toNat rb))))
    ∧ (∀ bf : BitVec 1,
      let h := BitVec.ofNat 64 (scrNum tm addr 8)
      let size := if bf = 1 then 2 else 4
      let dest := (sp.reg b).toNat
      (¬ mine → exec (.rkval a b bf table) s = .next (s.trapScalar (Trap.of 0x04)))
      ∧ (mine → g.memIssued s.sched.split = true → addr % 8 = 0 → hdrOk h = true → inScr tm addr (8 + 2 * hdrRows h * hdrCount h) → dest % size = 0 →
          inScr tm dest (hdrRows h * hdrLen h * size) → g.async.tiles < 4095 → (∀ c ∈ tm.colls, c.started = false) →
          ∃ t, exec (.rkval a b bf table) s = .next t ∧ matIssued s t g sp (.rkval (sp.reg a) h (sp.reg b) (bf == 1) table.toNat)))

/-- R203, R207, R208: the oldest RKENC of a core writes the block's header, each vector's list, and its number into the descriptor, gives the count of ranked
entries to s[d] and of NaNs to RKNAN, and leaves the engine. Ranking by magnitude without a threshold orders integer values by magnitude descending, equal
magnitudes by ascending index. -/
def Sys2Proof.Claims.RankEffects : Prop :=
  (∀ (s : State) (core : Nat) (o : RankOp) (rest : List RankOp) (tm : Team) (g : Group), (s.core core).engines.rankq = o :: rest → s.team o.team = some tm →
    s.group (gkey core o.slot) = some g → s.serial (gkey core o.slot) = o.serial → noWaitOn s (.window (8 * (512 + core))) → o.done = none →
    let b := o.bytes
    let dest := (encDest b).toNat
    let lists : List (List Nat × Nat × Nat) := (List.range (encRows b)).map fun j =>
      rankVector b (tm.scratchBytes ((encSource b + BitVec.ofNat 64 (j * encStride b)).toNat % 2 ^ 24) (encK b * bytesIn (encType b)))
    let n := 8 + 2 * encRows b * encCount b
    inScr tm dest n → inScr tm o.desc.toNat 64 → dest % 2 ^ 24 + n ≤ o.desc.toNat % 2 ^ 24 →
    (∀ j, j < encRows b → let src := (encSource b + BitVec.ofNat 64 (j * encStride b)).toNat % 2 ^ 24
      src + encK b * bytesIn (encType b) ≤ dest % 2 ^ 24 ∨ o.desc.toNat % 2 ^ 24 + 64 ≤ src) →
    ∃ t tm1 g1, exec (.rkencComplete core) s = .next t ∧ (t.core core).engines.rankq = rest ∧ t.team o.team = some tm1
      ∧ scrNum tm1 dest 8 = encCount b - 1 + (encRows b - 1) * 2 ^ 8 + encBase b * 2 ^ 16 + encK b * 2 ^ 32 + (if encSigned b then 2 ^ 47 else 0)
      ∧ (∀ j (l : List Nat × Nat × Nat), lists[j]? = some l → ∀ (i e : Nat), l.1[i]? = some e → scrNum tm1 (dest + 8 + 2 * encCount b * j + 2 * i) 2 = e % 65536)
      ∧ scrNum tm1 (o.desc.toNat + 40) 8 = o.num % 2 ^ 64
      ∧ t.group (gkey core o.slot) = some g1 ∧ g1.async.tiles = g.async.tiles - 1 ∧ g1.csrs.rknan = BitVec.ofNat 64 (lists.map fun l => l.2.2).sum
      ∧ (∀ sp, g.split o.split = some sp → nsHas g.async.owed (o.split * 32 + o.d.toNat) = true →
          ∃ sp1, g1.split o.split = some sp1 ∧ sp1.sregs = (sp.setReg o.d (BitVec.ofNat 64 (lists.map fun l => l.2.1).sum)).sregs))
  ∧ (∀ b bs : List Byte, encSigned b = false → encThreshold b = none → (encType b = 0 ∨ encType b = 2 ∨ encType b = 4) → encCount b ≤ encK b →
    let size := bytesIn (encType b)
    let val := fun i => intVal (encType b) (field bs (i * size) size)
    let l : List Nat := (rankVector b bs).1
    l.length = encCount b ∧ (rankVector b bs).2 = (encCount b, 0)
      ∧ (∀ (j e : Nat), l[j]? = some e → e % 2 ^ 15 < encK b ∧ (32768 ≤ e ↔ val (e % 2 ^ 15) < 0))
      ∧ (∀ (i j e1 e2 : Nat), l[i]? = some e1 → l[j]? = some e2 → i < j →
          (val (e2 % 2 ^ 15)).natAbs < (val (e1 % 2 ^ 15)).natAbs ∨ ((val (e2 % 2 ^ 15)).natAbs = (val (e1 % 2 ^ 15)).natAbs ∧ e1 % 2 ^ 15 < e2 % 2 ^ 15))
      ∧ (∀ x, x < encK b → (∀ e ∈ l, e % 2 ^ 15 ≠ x) → ∀ e ∈ l, (val x).natAbs ≤ (val (e % 2 ^ 15)).natAbs))

/-- The statement of the matrix unit. -/
def Obligations.MatrixUnit : Prop :=
  Claims.TileConfiguration ∧ Claims.MatrixIssue ∧ Claims.MatrixEffects ∧ Claims.BlockConversion
/-- The statement of rank-coded mode. -/
def Obligations.RankCodedMode : Prop := Claims.RankIssue ∧ Claims.RankEffects

/-! ### Asynchronous copy engines (R225 to R238) -/

/-- R156, R158, R226 to R228, R235: COPY, TCOPY and GCOPY with room in their queue, nothing of the split outstanding and no dirty byte in the core's L1: the entry
of the claimed index is written, its token and the class count rise; a CQB that names no registered queue raises QUEUE_FAULT; a COPY of more than 2^32 bytes is ILLEGAL. -/
def Sys2Proof.Claims.CopyIssue : Prop :=
  ∀ (s : State) (g : Group) (sp : Split) (d a b : SReg) (cls q : BitVec 2) (red : BitVec 4) (k : BitVec 3), At s g sp → cls ≠ 3 → red.toNat ≤ 10 → sp.copy = none →
    let core := s.sched.core
    let size := if red = 2 then 2 else 4
    let aligned := red = 0 ∨ ((sp.reg a).toNat % size = 0 ∧ (sp.reg b).toNat % size = 0 ∧ (sp.reg d).toNat % size = 0)
    let entry := fun (i : Instr) (kind rd : Nat) (o0 o1 o2 : DWord) => ∀ (key : Nat) (x : CopyQueue), s.boundQueue g q.toNat = some (key, x) →
      allIssued s g → nothingOut s g core s.sched.slot s.sched.split → (s.core core).l1.dirty = [] → g.token k.toNat < 255 → g.async.copies < 4095 →
      s.queueWrite x < s.queueRead x + s.queueSize x →
      ∃ t g1 body, exec i s = .next t ∧ t.mem = (s.placeEntry core x (s.queueWrite x) body).mem ∧ body.length = 62
        ∧ field body 0 8 = kind + rd * 2 ^ 8 + cls.toNat * 2 ^ 12 + k.toNat * 2 ^ 24 + 2 ^ 27 + locid core s.sched.slot * 2 ^ 32 + (s.serial s.curKey).toNat * 2 ^ 48
        ∧ field body 8 8 = o0.toNat ∧ field body 16 8 = o1.toNat ∧ field body 24 8 = o2.toNat
        ∧ field body 32 8 = ((s.devNum x.asid (x.desc.toNat + 40) 8).getD 0) % 2 ^ 64
        ∧ t.curGroup = some g1 ∧ g1.split s.sched.split = some sp.advance
        ∧ g1.async = { g.async with tokens := stSet 0 g.async.tokens k.toNat (g.token k.toNat + 1), copies := g.async.copies + 1 }
        ∧ g1.lanes = g.lanes ∧ t.entries = s.entries ∧ t.queues = s.queues ∧ OthersSame s t
    core < 384 →
    ((sp.reg d).toNat ≤ 2 ^ 32 → aligned → entry (.copy d a b cls q red k) 1 red.toNat (sp.reg a) (sp.reg b) (sp.reg d))
    ∧ entry (.tcopy d a b cls q red k) 2 red.toNat (sp.reg d) (sp.reg a) (sp.reg b)
    ∧ entry (.gcopy d a b cls q k) 3 0 (sp.reg d) (sp.reg a) (sp.reg b)
    ∧ (s.boundQueue g q.toNat = none → ∀ i ∈ [Instr.copy d a b cls q red k, .tcopy d a b cls q red k, .gcopy d a b cls q k],
        exec i s = .next (s.trapScalar (Trap.of 0x14)))
    ∧ (s.boundQueue g q.toNat ≠ none → 2 ^ 32 < (sp.reg d).toNat → exec (.copy d a b cls q red k) s = .next (s.trapScalar (Trap.of 0x01)))

/-- R230, R231, R234 to R236: an entry of kind COPY between two ordinary pages of local memory moves its bytes, or adds its i32 words, and nothing else in memory
changes; then it is executed, and it completes when no write of it is outstanding; a triggered one does so when its counter has reached the threshold. -/
def Sys2Proof.Claims.CopyData : Prop :=
  ∀ (s : State) (id : Nat) (e : CopyEntry) (ps vs pd vd : Nat) (l : Leaf), amGet s.entries id = some e →
    let n := field e.bytes 24 8
    let src := BitVec.ofNat 64 (field e.bytes 16 8)
    let dst := BitVec.ofNat 64 (field e.bytes 8 8)
    let head := field e.bytes 0 8
    bits head 0 8 = 1 → 0 < n → s.mem.cu = [] → s.mem.poison = [] → (∀ a, pd ≤ a → a < pd + n → s.mem.live a = none) →
    src.toNat < 2 ^ 57 → dst.toNat < 2 ^ 57 → src.toNat % 65536 + n ≤ 65536 → dst.toNat % 65536 + n ≤ 65536 →
    (src.toNat + n ≤ dst.toNat ∨ dst.toNat + n ≤ src.toNat) → (ps + n ≤ pd ∨ pd + n ≤ ps) →
    s.resolve e.who src n .rd = .ok [oneSeg ps n vs] → s.resolve e.who dst n .wr = .ok [oneSeg pd n vd] → s.resolve e.who dst n .rd = .ok [oneSeg pd n vd] →
    s.leafOf (devWho e.asid e.launch) e.asid dst.toNat = .ok l → e.executed = false → e.unstarted = false → e.wait = [] → e.far = [] → e.status ≠ 4 →
    let moves := fun (i : Instr) (new : Nat → Byte) => ∃ t, exec i s = .next t
      ∧ amGet t.entries id = some { e with armed := false, executed := true, total := n, acks := [] }
      ∧ (∀ j, j < n → t.mem.byte (pd + j) = new j) ∧ (∀ a, outside pd n a → t.mem.byte a = s.mem.byte a) ∧ t.mem.sync = s.mem.sync
      ∧ t.groups = s.groups ∧ t.cores = s.cores
    let plainCopy := fun (i : Instr) => bits head 8 4 = 0 → moves i fun j => s.mem.byte (ps + j)
    let adds := fun (i : Instr) => bits head 8 4 = 3 → n % 4 = 0 → moves i fun j =>
      BitVec.ofNat 8 ((s.mem.num (pd + j / 4 * 4) 4 + s.mem.num (ps + j / 4 * 4) 4) / 256 ^ (j % 4))
    (e.armed = false → plainCopy (.copyEntryComplete id) ∧ adds (.copyEntryComplete id))
    ∧ (e.armed = true → s.triggered e = true → plainCopy (.triggeredEntryFire id) ∧ adds (.triggeredEntryFire id))
    ∧ (e.armed = true → s.triggered e = false → exec (.triggeredEntryFire id) s = .next s)

/-- R156, R158, R231: an executed entry of class 0 that no write holds up completes: it is gone, and its token and class count fall in the group that issued it; one
that another rank still owes an acknowledgement stays. R285: the bytes of a class 2 entry that have landed lower its barrier word's BYTES. -/
def Sys2Proof.Claims.CopyCompletion : Prop :=
  ∀ (s : State) (id : Nat) (e : CopyEntry), amGet s.entries id = some e → e.armed = false → e.executed = true →
    let head := field e.bytes 0 8
    (e.acks ≠ [] → exec (.copyEntryComplete id) s = .next s)
    ∧ (e.acks = [] → bits head 12 2 = 0 → e.overflow = none → ∃ t, exec (.copyEntryComplete id) s = .next t ∧ amGet t.entries id = none
        ∧ ∀ (g : Group) (c sl : Nat), e.queue.isSome = true → bits head 27 1 = 1 → ofLocid (bits head 32 14) = some (c, sl) →
            s.serial (gkey c sl) = BitVec.ofNat 16 (bits head 48 16) → s.group (gkey c sl) = some g →
            ∃ g1, t.group (gkey c sl) = some g1 ∧ g1.async.copies = g.async.copies - 1
              ∧ g1.async.tokens = stSet 0 g.async.tokens (bits head 24 3) (g.token (bits head 24 3) - 1))
    ∧ (∀ (m pa ex p : Nat) (ph : Bool) (y : Int), e.acks = [] → e.status = 1 → bits head 12 2 = 2 → 0 < m → e.landed + m ≤ e.total →
        s.wordPA e.asid (field e.bytes 32 8) .rd = some pa → pa % 8 = 0 → s.mem.live pa = some .barrier → s.mem.cu = [] →
        s.wordAt pa = barrierWord ph ex p y → ex < 2 ^ 15 → p < 2 ^ 15 → y < 2 ^ 32 → -(2 ^ 32 : Int) ≤ y - m →
        ∃ t, exec (.transactionBytesLand id m) s = .next t ∧ t.wordAt pa = flipped ph ex p (y - m)
          ∧ amGet t.entries id = some { e with landed := e.landed + m })

/-- R229, R230, R232: the head of a queue is taken when its sequence matches, held when it is not legal or armed or executed; with a wrong sequence it waits, and
after 1 ms it is abandoned and the next index is the head. -/
def Sys2Proof.Claims.CopyQueues : Prop :=
  ∀ (s : State) (key : Nat) (q : CopyQueue) (h : Nat), amGet s.queues key = some q → s.dev.tripped = false →
    (∀ e ∈ s.entries, e.2.queue = some key → e.2.armed = true) → s.queueRead q = h → h < s.queueWrite q →
    (∀ b, s.devRead q.asid (s.slotAddr q h) 64 = some b →
      (field b 62 2 ≠ h % 65536 → exec (.copyEntryTake key) s = .next s)
      ∧ (field b 62 2 = h % 65536 → bits (field b 0 8) 14 1 = 0 → ∃ t, exec (.copyEntryTake key) s = .next t ∧ t.nextEntry = s.nextEntry + 1
        ∧ ∃ q1, amGet t.queues key = some q1 ∧ q1.headSince = none)
      ∧ (∀ since, field b 62 2 ≠ h % 65536 → q.headSince = some since → 1800000 ≤ s.now - since →
          ∃ t, exec (.abandoned key) s = .next t ∧ t.nextEntry = s.nextEntry + 1 ∧ amGet t.entries s.nextEntry = none
            ∧ ∃ q1, amGet t.queues key = some q1 ∧ q1.headSince = none)
      ∧ (field b 62 2 = h % 65536 → exec (.abandoned key) s = .next s))

/-- The statement of the copy engines. -/
def Obligations.CopyEngines : Prop := Claims.CopyIssue ∧ Claims.CopyData ∧ Claims.CopyCompletion ∧ Claims.CopyQueues

namespace Sys2Proof.Claims

/-- Every done tile of a coverage launch has its error estimates (R248). -/
def formed (c : Cover) : Prop := ∀ n k, amGet c.tiles n = some k → k.done = true → amGet c.errs n ≠ none
/-- In `g1` the live lanes of `g`, lowest first, have received the points of `l` in order (R244): coordinates, point bit and audit bit; a live lane for which no
point is left has both bits clear; other lanes, and the registers of lanes that receive nothing, are as they were. -/
def tookPoints (g g1 : Group) (live : LaneMask) (wb : Nat) (audit point : Nat) (l : List (List Nat × Bool)) : Prop :=
  ∀ (i : Nat), i < 32 →
    let n := ((maskLanes live).filter fun j => decide (j < i)).length
    (live.getLsbD i = true → n < l.length → ∃ x b, l[n]? = some (x, b) ∧ (∀ j, j < 3 → g1.slotVal (wb + j) i = BitVec.ofNat 32 (at3 x j))
        ∧ (g1.pred point).getLsbD i = true ∧ (g1.pred audit).getLsbD i = b)
    ∧ (live.getLsbD i = true → l.length ≤ n → (g1.pred point).getLsbD i = false ∧ (g1.pred audit).getLsbD i = false)
    ∧ (live.getLsbD i = false → (g1.pred point).getLsbD i = (g.pred point).getLsbD i ∧ (g1.pred audit).getLsbD i = (g.pred audit).getLsbD i)
    ∧ (¬ (live.getLsbD i = true ∧ n < l.length) → ∀ j, j < 3 → g1.slotVal (wb + j) i = g.slotVal (wb + j) i)
/-- A PTNEXT's operands are ordinary: two predicates other than p0, three registers, no P bit on them. -/
def ptFree (g : Group) (wb : Nat) (audit point : Nat) : Prop :=
  audit ≠ 0 ∧ point ≠ 0 ∧ audit ≠ point ∧ 3 ≤ g.size ∧ ∀ j, j < 3 → g.pmask (wb + j) = 0
/-- The launch's next tile can be dispatched: no update instant is due, its log byte is at `pa`, of an ordinary page. -/
def tileFree (s : State) (l : Nat) (x : Launch) (c : Cover) (pa va : Nat) : Prop :=
  formed c ∧ c.next < c.total ∧ (c.next % c.interval ≠ 0 ∨ c.next / c.interval < 2)
    ∧ s.coverServe l x c (c.log + BitVec.ofNat 64 c.next) 1 = (s, some true)
    ∧ s.resolve (c.who l x.asid) (c.log + BitVec.ofNat 64 c.next) 1 .wr = .ok [oneSeg pa 1 va]
    ∧ s.mem.live pa = none ∧ s.mem.cu = [] ∧ s.mem.poison = []
/-- The tile that dispatch `c.next + 1` records. -/
def nextTile (c : Cover) : CoverTile := { rung := c.rung, firstSkip := c.skipped + 1, done := false }
/-- In `t` the launch's next tile is dispatched and logged. -/
def dispatched (s t : State) (l : Nat) (c : Cover) (pa : Nat) : Prop :=
  (∃ x1 c1, t.coverOf l = some (x1, c1) ∧ c1.next = c.next + 1 ∧ c1.rung = c.rung ∧ amGet c1.tiles (c.next + 1) = some (nextTile c)
    ∧ c1.skipped = c.skipped + (c.skips (c.next + 1) (nextTile c)).length)
    ∧ t.mem.byte pa = BitVec.ofNat 8 c.rung ∧ ∀ a, a ≠ pa → t.mem.byte a = s.mem.byte a

end Sys2Proof.Claims

/-! ### Coverage launches (R239 to R250) -/

/-- R244: PTNEXT gives the next listed points of the group's tile to its live lanes; with no tile it dispatches one, and past the last it writes all ones; outside a
coverage launch, with no live lane, or with every point given it raises ILLEGAL. -/
def Sys2Proof.Claims.TakePoints : Prop :=
  ∀ (s : State) (g : Group) (sp : Split) (d : SReg) (audit point : BitVec 3) (first : BitVec 6), At s g sp → first.toNat ≤ 61 → audit ≠ point ∨ audit = 0 →
    let i := Instr.ptnext d audit point first
    let wb := sp.wb + first.toNat
    let live := g.live sp
    let last := ({ sp with pstall := none } : Split)
    (s.coverOf g.launch = none ∨ live = 0 → exec i s = .next (s.trapScalar (Trap.of 0x01)))
    ∧ (∀ x c, s.coverOf g.launch = some (x, c) → live ≠ 0 → g.laneDone s.sched.split = true →
      (∀ cur k, g.ctl.tile = some cur → amGet c.tiles cur.tile = some k →
        ((c.listed cur.tile k).length ≤ cur.given → exec i s = .next (s.trapScalar (Trap.of 0x01)))
        ∧ (cur.given < (c.listed cur.tile k).length → ptFree g wb audit.toNat point.toNat →
          ∃ t g1, exec i s = .next t ∧ t.curGroup = some g1 ∧ g1.split s.sched.split = some (last.setReg d (BitVec.ofNat 64 cur.tile)).advance
            ∧ g1.ctl.tile = some { tile := cur.tile, given := cur.given + Nat.min (maskCount live) ((c.listed cur.tile k).length - cur.given) }
            ∧ tookPoints g g1 live wb audit.toNat point.toNat ((c.listed cur.tile k).drop cur.given) ∧ OthersSame s t ∧ t.mem = s.mem))
      ∧ (g.ctl.tile = none → formed c → c.total ≤ c.next →
          ∃ t g1, exec i s = .next t ∧ t.curGroup = some g1 ∧ g1.split s.sched.split = some (last.setReg d (BitVec.allOnes 64)).advance
            ∧ g1.lanes = g.lanes ∧ g1.ctl.tile = none ∧ OthersSame s t ∧ t.mem = s.mem)
      ∧ (∀ pa va, g.ctl.tile = none → tileFree s g.launch x c pa va → c.listed (c.next + 1) (nextTile c) ≠ [] → ptFree g wb audit.toNat point.toNat →
          ∃ t g1, exec i s = .next t ∧ t.curGroup = some g1 ∧ g1.split s.sched.split = some (last.setReg d (BitVec.ofNat 64 (c.next + 1))).advance
            ∧ g1.ctl.tile = some { tile := c.next + 1, given := Nat.min (maskCount live) (c.listed (c.next + 1) (nextTile c)).length }
            ∧ tookPoints g g1 live wb audit.toNat point.toNat (c.listed (c.next + 1) (nextTile c)) ∧ dispatched s t g.launch c pa ∧ OthersSame s t))

/-- R244, R250: what a waiting PTNEXT receives once a tile can be dispatched, or when there is none left. R245: PTDONE of the group's tile, all its points given and
nothing outstanding, marks the tile done; another tile's number, a tile with points left, or no tile raises ILLEGAL. -/
def Sys2Proof.Claims.TileTurns : Prop :=
  (∀ (s : State) (core slot split : Nat) (g : Group) (sp : Split) (d : SReg) (audit point : BitVec 3) (first : Nat) (x : Launch) (c : Cover),
    s.group (gkey core slot) = some g → g.running = true → g.split split = some sp → sp.status = .ptnext d audit point first → g.live sp ≠ 0 →
    s.coverOf g.launch = some (x, c) → g.ctl.tile = none →
    let i := Instr.ptnextDispatch core slot split
    (formed c → c.total ≤ c.next → ∃ t g1, exec i s = .next t ∧ t.group (gkey core slot) = some g1
        ∧ g1.split split = some { (sp.setReg d (BitVec.allOnes 64)).advance with status := .ready } ∧ g1.lanes = g.lanes ∧ t.mem = s.mem)
    ∧ (∀ pa va, tileFree s g.launch x c pa va → c.listed (c.next + 1) (nextTile c) ≠ [] → ptFree g (sp.wb + first) audit.toNat point.toNat →
        ∃ t g1, exec i s = .next t ∧ t.group (gkey core slot) = some g1
          ∧ g1.split split = some { (sp.setReg d (BitVec.ofNat 64 (c.next + 1))).advance with status := .ready }
          ∧ tookPoints g g1 (g.live sp) (sp.wb + first) audit.toNat point.toNat (c.listed (c.next + 1) (nextTile c)) ∧ dispatched s t g.launch c pa))
  ∧ (∀ (s : State) (g : Group) (sp : Split) (a : SReg), At s g sp →
    (g.ctl.tile = none ∨ s.coverOf g.launch = none → exec (.ptdone a) s = .next (s.trapScalar (Trap.of 0x01)))
    ∧ (∀ cur x c k, g.ctl.tile = some cur → s.coverOf g.launch = some (x, c) → amGet c.tiles cur.tile = some k →
      (sp.reg a ≠ BitVec.ofNat 64 cur.tile ∨ cur.given < (c.listed cur.tile k).length → exec (.ptdone a) s = .next (s.trapScalar (Trap.of 0x01)))
      ∧ (sp.reg a = BitVec.ofNat 64 cur.tile → (c.listed cur.tile k).length ≤ cur.given → formed c → c.audits cur.tile k = [] →
          g.async.laneq = [] → g.async.access = [] → (s.core s.sched.core).quant = [] → (s.core s.sched.core).l1.dirty = [] → s.sched.slot < 32 →
          (∀ y ∈ s.fabric.tickets, y.2.owner ≠ .quantum s.sched.core) → (∀ y ∈ s.fabric.puts, gkey y.2.core y.2.slot ≠ s.curKey) →
          ∃ t g1 x1 c1, exec (.ptdone a) s = .next t ∧ t.curGroup = some g1 ∧ g1.split s.sched.split = some sp.advance ∧ g1.ctl.tile = none
            ∧ g1.lanes = g.lanes ∧ t.coverOf g.launch = some (x1, c1) ∧ amGet c1.tiles cur.tile = some { k with done := true }
            ∧ (∀ n, n ≠ cur.tile → amGet c1.tiles n = amGet c.tiles n) ∧ OthersSame s t ∧ t.mem = s.mem)))

/-- R246, R247: the tile next in turn, with no skipped point, is reconstructed and the launch's counter word rises to the tiles reached; after the last one the
status words are written and the launch counter falls. The interpolation of up to 6 integer values is their exact mean rounded to the nearest, ties to even. R249: a
decision moves the rung by at most one and stays on the ladder. -/
def Sys2Proof.Claims.Reconstruction : Prop :=
  (∀ (s : State) (l : Nat) (x : Launch) (c : Cover), s.coverOf l = some (x, c) → formed c →
    (∀ n k pa, c.nextRecon = some n → amGet c.tiles n = some k → c.skips n k = [] → c.next < c.total →
      s.wordPA x.asid c.timeline.toNat .rd = some pa → s.mem.live pa = some .counter →
      ∃ t x1 c1, exec (.tileReconstruct l) s = .next t ∧ t.coverOf l = some (x1, c1) ∧ nsHas c1.recon n = true ∧ c1.tiles = c.tiles
        ∧ (noWaitOn s (.mem pa) → pa % 8 = 0 → s.mem.cu = [] →
            c1.reached < 2 ^ 64 → t.wordAt pa = if (s.wordAt pa).toNat < c1.reached then BitVec.ofNat 64 c1.reached else s.wordAt pa))
    ∧ (c.nextRecon = none → c.finished = false → c.next = c.total → (∀ y ∈ c.tiles, y.2.done = true ∧ amGet c.errs y.1 ≠ none) →
        (c.recon.length = c.total ∨ c.failed ≠ none) → c.acks = [] → c.owed = false → s.coverServe l x c (c.desc + 80) 24 = (s, some true) →
        ∃ t, exec (.tileReconstruct l) s = .next t ∧ t.launch l = some { x with counter := x.counter - 1, cover := some { c with finished := true } }
          ∧ t.mem = (s.devWrite x.asid (c.desc.toNat + 80)
              (bytesOf 8 c.instants ++ bytesOf 8 (c.errs.map fun e => e.2.length).sum ++ bytesOf 8 (c.rung + c.final / 8 * 8))).mem))
  ∧ (∀ (ty : BitVec 4) (vs : List Nat), ty.toNat ≤ 5 → vs ≠ [] → vs.length ≤ 6 → (∀ v ∈ vs, v < 2 ^ widthOf ty) →
      let r := intVal ty (blend ty vs)
      let d := 2 * (r * vs.length - (vs.map (intVal ty)).sum)
      d ≤ vs.length ∧ -d ≤ vs.length ∧ (d = vs.length ∨ d = -(vs.length : Int) → r % 2 = 0))
  ∧ (∀ (c : Cover) (es : List Word), c.rung < c.ladder.length →
      c.decide_ es < c.ladder.length ∧ c.decide_ es ≤ c.rung + 1 ∧ c.rung ≤ c.decide_ es + 1)

/-- The statement of coverage launches. -/
def Obligations.CoverageLaunches : Prop := Claims.TakePoints ∧ Claims.TileTurns ∧ Claims.Reconstruction

namespace Sys2Proof.Claims

/-- A group at its start (R314, R176, R33, R52): the entry PC, s1 and s2, every other scalar register and lp 0, every lane alive with its VID, registers, predicates
and P bits clear, one split. -/
def startsAs (g : Group) (l h team index teamIndex : Nat) (part pc s1 s2 : DWord) : Prop :=
  g.launch = l ∧ g.node = h ∧ g.team = team ∧ g.index = index ∧ g.teamIndex = teamIndex ∧ g.size = bits part.toNat 0 4 * 64
    ∧ g.diverge = part.getLsbD 20 ∧ g.lanes.alive = BitVec.allOnes 32 ∧ (∀ i, i < 32 → stGet 0 g.lanes.vids i = BitVec.ofNat 16 (32 * index + i))
    ∧ (∀ r i, g.slotVal r i = 0) ∧ (∀ r, g.pmask r = 0) ∧ (∀ p, 0 < p → g.pred p = 0) ∧ g.running = true
    ∧ (∀ k, k ≠ 0 → g.split k = none)
    ∧ ∃ sp, g.split 0 = some sp ∧ sp.pc = pc ∧ sp.lp = 0 ∧ sp.wb = 0 ∧ sp.cbits = 0 ∧ sp.mask = BitVec.allOnes 32 ∧ sp.status = .ready
        ∧ ∀ r : SReg, sp.reg r = if r = 1 then s1 else if r = 2 then s2 else 0
/-- No group of the machine but those of a core changes. -/
def OtherCoresSame (s t : State) (core : Nat) : Prop := ∀ k, k / 32 ≠ core → t.group k = s.group k
/-- A group's splits with their waits withdrawn (R219): what each was doing it starts again, or goes on waiting for. -/
def withdrawn (g g1 : Group) : Prop :=
  ∀ k sp, g.split k = some sp → ∃ sp1, g1.split k = some sp1 ∧ sp1.pc = sp.pc ∧ sp1.lp = sp.lp ∧ sp1.wb = sp.wb ∧ sp1.sregs = sp.sregs
    ∧ sp1.cbits = sp.cbits ∧ sp1.mask = sp.mask ∧ (sp1.status = .ready ∨ sp1.status = sp.status)

end Sys2Proof.Claims

/-! ### The Pennant controller (R217 to R222, R328) -/

/-- R217, R314, R327: the next team of a ready node with no code segments to load goes to the eligible core of its cluster that is near the homes of most of the
node's operands, of those the one with the least free pool, of those the lowest; its groups start in the lowest free slots. R317: with room nowhere it waits. -/
def Sys2Proof.Claims.Placement : Prop :=
  (∀ (s : State) (cluster l h : Nat) (x : Launch) (n : Node), s.launch l = some x → s.node l h = some n → n.state = .ready → 0 < n.toPlace → x.cancelling = false →
    field n.record 0 1 = 0 → s.imageFailed l = false → s.dev.tripped = false → field n.record 16 8 = 0 → x.segtab = 0 →
    let part := BitVec.ofNat 64 (field n.record 8 8)
    let groups := bits (field n.record 0 8) 8 5 + 1
    let takes := fun (c : Nat) => c ∈ clusterCores cluster ∧ s.coreTakes l x.asid n.rcb groups part [] c = true
    let near := affinity (s.operandHomes x.asid n.record)
    ((∀ c, ¬ takes c) → exec (.teamPlacement cluster l h) s = .next s)
    ∧ (∀ (c : Nat) (save pool : Option (Nat × Nat)) (spill : Nat × Nat), takes c →
      (∀ d, takes d → near d < near c ∨ (near d = near c ∧ (s.freePool c < s.freePool d ∨ (s.freePool c = s.freePool d ∧ c ≤ d)))) →
      s.budgetRoom x.asid n.rcb (ndUnits n.record) (some c) = true →
      s.takeRegion x.asid n.rcb 56 = some save → s.takeRegion x.asid n.rcb 64 = some pool → s.takeRegion x.asid n.rcb 72 = some (some spill) →
      ∃ t tm, exec (.teamPlacement cluster l h) s = .next t ∧ t.team s.head.nextTeam = some tm
        ∧ tm.core = c ∧ tm.launch = l ∧ tm.node = h ∧ tm.part = part ∧ tm.count = groups ∧ tm.rcb = n.rcb ∧ tm.asid = x.asid
        ∧ tm.saveSlot = save ∧ tm.poolSlot = pool ∧ tm.spillSlot = spill ∧ tm.scratch = [] ∧ tm.tiles = [] ∧ tm.tcfg = [] ∧ tm.colls = []
        ∧ (∀ i, i < groups → ∃ slot g, (s.freeSlots c)[i]? = some slot ∧ amGet tm.groups i = some slot ∧ t.group (gkey c slot) = some g
            ∧ startsAs g l h s.head.nextTeam i (ndTeams n.record - n.toPlace) part (BitVec.ofNat 64 (4 * bits (field n.record 0 8) 48 16)) n.s1 n.s2
            ∧ g.trap.vec = BitVec.ofNat 64 (s.rcbHandler x.asid n.rcb) ∧ g.trap.cause = 0 ∧ t.serial (gkey c slot) = s.serial (gkey c slot) + 1)
        ∧ t.node l h = some { n with toPlace := n.toPlace - 1, state := if n.toPlace = 1 then .running else .ready }
        ∧ (noWaitOn s (.window (8 * (0x2000 + 32 * c + tm.slot0))) → OtherCoresSame s t c) ∧ t.mem.hbm = s.mem.hbm ∧ t.mem.sync = s.mem.sync))

/-- R219 to R222, R202, R328: a save stops a group of a chosen team and marks its area; its completion, with no answer of another rank awaited, leaves it saved; with
all groups saved the team's share is saved once its matrix operations and collectives are over; a restore lets it run again. Pre-emption chooses only teams of lower
priority that have a save slot. -/
def Sys2Proof.Claims.SaveAndRestore : Prop :=
  (∀ (s : State) (core slot : Nat) (g : Group) (tm : Team), slot < 32 → s.group (gkey core slot) = some g → s.team g.team = some tm →
    (∀ j since base, tm.saveSlot = some j → tm.out = some since → g.ctl.save = .running → s.savingOn core = false → (s.core core).quant = [] →
      base = s.regionBase tm.asid 56 0x2A0000 j + g.index * 0x15000 →
      ∃ t g1, exec (.groupSave core slot) s = .next t ∧ t.group (gkey core slot) = some g1 ∧ withdrawn g g1 ∧ g1.ctl = { g.ctl with save := .saving }
        ∧ g1.lanes = g.lanes ∧ g1.trap = g.trap ∧ g1.csrs = g.csrs ∧ t.mem = (s.devWrite tm.asid base (bytesOf 1 1)).mem
        ∧ ∀ k, k ≠ gkey core slot → t.group k = s.group k)
    ∧ (tm.out = none ∨ tm.saveSlot = none ∨ g.ctl.save ≠ .running → exec (.groupSave core slot) s = .next s)
    ∧ (g.ctl.save = .saving → g.async.laneWait = none → (∀ y ∈ g.splits, ∀ k d n, y.2.status ≠ .reply k d n) → g.ctl.arrivals = [] →
      ∃ t, exec (.groupSaveComplete core slot) s = .next t ∧ t.group (gkey core slot) = some { g with ctl := { g.ctl with save := .saved } }
        ∧ (∀ k, k ≠ gkey core slot → t.group k = s.group k)
        ∧ ((∀ y ∈ tm.groups, ∀ g2, gkey tm.core y.2 ≠ gkey core slot → s.group (gkey tm.core y.2) = some g2 → g2.ctl.save = .saved) →
            t.team g.team = some { tm with out := some s.now }))
    ∧ (g.ctl.save ≠ .saving ∨ (∃ y ∈ g.splits, ∃ k d n, y.2.status = .reply k d n) → exec (.groupSaveComplete core slot) s = .next s)
    ∧ (g.ctl.save = .saved → tm.out = none ∨ (s.teamSaved tm = true ∧ poolDemand tm.part tm.count - tm.poolHeld s ≤ s.freePool tm.core) →
      ∃ t g1, exec (.groupRestore core slot) s = .next t ∧ t.group (gkey core slot) = some g1 ∧ g1.ctl = { g.ctl with save := .running } ∧ g1.splits = g.splits
        ∧ g1.lanes = g.lanes ∧ g1.trap = g.trap ∧ g1.csrs = g.csrs ∧ t.team g.team = some { tm with out := none, poolSaved := false }
        ∧ ∀ k, k ≠ gkey core slot → t.group k = s.group k))
  ∧ (∀ (s : State) (k : Nat) (tm : Team), s.team k = some tm → tm.out ≠ none → tm.poolSaved = false → tm.poolSlot ≠ none → s.teamSaved tm = true →
    (tm.colls = [] → (∀ o ∈ (s.core tm.core).engines.matq, o.team ≠ k) →
      ∃ t, exec (.teamPoolSave k) s = .next t ∧ t.team k = some { tm with poolSaved := true } ∧ t.groups = s.groups
        ∧ ∀ j, tm.poolSlot = some j → t.mem = (s.putParts tm.asid (s.regionBase tm.asid 64 0x210000 j) tm.poolParts).mem)
    ∧ (tm.colls ≠ [] ∨ (∃ o ∈ (s.core tm.core).engines.matq, o.team = k) → exec (.teamPoolSave k) s = .next s))
  ∧ (∀ (s : State) (l h : Nat), amWf s.head.teams = true →
    ∃ t, exec (.preemption l h) s = .next t ∧ t.groups = s.groups ∧ t.mem = s.mem
      ∧ (∀ k tm, s.team k = some tm → t.team k = some tm ∨ (t.team k = some { tm with out := some s.now } ∧ tm.out = none ∧ tm.saveSlot ≠ none
          ∧ ∃ x n, s.launch l = some x ∧ s.node l h = some n ∧ s.rcbPrio tm.asid tm.rcb < Nat.min 7 (s.rcbPrio x.asid n.rcb + n.raised)))
      ∧ (∀ x n c vs, s.launch l = some x → s.node l h = some n → n.state = .ready → x.cancelling = false → x.waitingGraph = false → field n.record 0 1 = 0 →
          s.imageFailed l = false → s.dev.tripped = false → s.coverRoom x h = true → s.budgetRoom x.asid n.rcb (ndUnits n.record) none = true →
          (∀ y ∈ s.head.teams, y.2.out = none) → field n.record 16 8 = 0 → x.segtab = 0 →
          (∀ d, d < 384 → s.coreTakes l x.asid n.rcb (ndGroups n.record) (ndPart n.record) [] d = false) →
          c < 384 → s.sacrifice l x n [] (Nat.min 7 (s.rcbPrio x.asid n.rcb + n.raised)) c = some vs →
          ∃ k tm, s.team k = some tm ∧ t.team k = some { tm with out := some s.now }))

/-- R313, R322: a team with no group and no work left retires: it is gone, the launch counter and the node count it, and the core keeps no dirty byte. -/
def Sys2Proof.Claims.TeamRetirement : Prop :=
  ∀ (s : State) (k : Nat) (tm : Team), s.team k = some tm →
    (tm.groups ≠ [] → exec (.teamRetire k) s = .next s)
    ∧ (∀ x n, tm.groups = [] → tm.colls = [] → (∀ o ∈ (s.core tm.core).engines.matq, o.team ≠ k) → (∀ o ∈ (s.core tm.core).engines.rankq, o.team ≠ k) →
        (∀ y ∈ s.fabric.tickets, y.2.owner ≠ .team k) → s.launch tm.launch = some x → amGet x.nodes tm.node = some n → s.mem.cu = [] →
        ∃ t x1, exec (.teamRetire k) s = .next t ∧ t.team k = none ∧ (∀ j, j ≠ k → t.team j = s.team j) ∧ t.groups = s.groups
          ∧ t.launch tm.launch = some x1 ∧ x1.counter = x.counter - 1 ∧ amGet x1.nodes tm.node = some { n with retired := n.retired + 1 }
          ∧ (t.core tm.core).l1.dirty = [] ∧ ∀ a, s.mem.live a = none → viewOf t tm.core a = viewOf s tm.core a)

/-- The statement of placement, saving and retirement. -/
def Obligations.TeamLifecycle : Prop := Claims.Placement ∧ Claims.SaveAndRestore ∧ Claims.TeamRetirement

namespace Sys2Proof.Claims

/-- The 64 bytes at a scratchpad address. -/
def scrRecord (tm : Team) (a : Nat) : List Byte := (upFrom (a % 2 ^ 24) 64).map fun o => stGet 0 tm.scratch o
/-- Code 1 of R315: a reserved bit of word 0 or of an operand entry, a reserved unit, no team, or a partition word, groups or teams on unit 2. -/
def badRecord (b : List Byte) : Prop :=
  bits (field b 0 8) 13 3 ≠ 0 ∨ 2 < field b 0 1 ∨ field b 2 2 = 0 ∨ (¬ ∀ i ∈ [0, 1, 2, 3], bits (field b (32 + 8 * i) 8) 2 4 = 0)
    ∨ (field b 0 1 ≠ 0 ∧ (field b 2 2 ≠ 1 ∨ bits (field b 0 8) 8 5 ≠ 0 ∨ field b 8 8 ≠ 0))
/-- A successor that a new node may reserve a signal at (R316). -/
def signalRoom (ns : AMap Node) (h : Nat) : Prop := ∃ n, amGet ns h = some n ∧ n.state = .waiting ∧ n.reserved < n.count
/-- The one byte of a packet that holds its status is at `pa`, on an ordinary page (R320). -/
def statusAt (s : State) (asid : Nat) (packet : DWord) (pa va : Nat) : Prop :=
  s.resolve (devWho asid 0) (BitVec.ofNat 64 (packet.toNat + 2)) 1 .wr = .ok [oneSeg pa 1 va] ∧ s.mem.live pa = none ∧ s.mem.cu = [] ∧ s.mem.poison = []
/-- In `t` the byte at `pa` has a value, and every other byte of memory is as it was. -/
def statusWritten (s t : State) (pa v : Nat) : Prop := t.mem.byte pa = BitVec.ofNat 8 v ∧ ∀ a, a ≠ pa → t.mem.byte a = s.mem.byte a
/-- The next packet in intake order is `b`, found in merge unit `m` (R319). -/
def packetNext (s : State) (m asid : Nat) (packet : DWord) (b : List Byte) : Prop :=
  s.dev.tripped = false ∧ s.nextPacket = some (m, asid, packet, b)
/-- What both packet kinds must have (R321): no reserved bit, a kind, a registered address space, a path to a top level with a spill region. -/
def packetFit (s : State) (b : List Byte) : Prop :=
  bits (field b 0 8) 9 7 = 0 ∧ field b 0 1 ≤ 2 ∧ amGet s.mem.roots (field b 3 1) ≠ none ∧ s.pathOk (field b 3 1) (field b 8 8) = true

end Sys2Proof.Claims

/-! ### Launches (R312 to R328) -/

/-- R315, R316: SPAWN of a unit 0 record in the scratchpad, with nothing of the split outstanding: the code of the first check that fails in rd, or a new node with
the next handle, which the launch counter counts by its teams. An address off 64 bytes raises ALIGN. -/
def Sys2Proof.Claims.SpawnResults : Prop :=
  ∀ (s : State) (g : Group) (sp : Split) (tm : Team) (x : Launch) (d a : SReg), At s g sp → s.team g.team = some tm → s.launch g.launch = some x →
    let core := s.sched.core
    let k := s.sched.split
    let addr := sp.reg a
    let b := scrRecord tm addr.toNat
    let part := BitVec.ofNat 64 (field b 8 8)
    let groups := bits (field b 0 8) 8 5 + 1
    let units := (poolDemand part groups + 16383) / 16384
    let child := s.childRcb x.asid tm.rcb (field b 5 1)
    let next := [field b 24 4, field b 28 4].filter (· != 0)
    let auto := autoOf x.nodes b
    let count := field b 4 1 + auto.length
    let refused := fun (c : Nat) => ∃ t, exec (.spawn d a) s = .next t
      ∧ SplitNow s t s.curKey k g (sp.setReg d (BitVec.ofNat 64 (2 ^ 63 + c))).advance 1 ∧ t.head = s.head ∧ t.mem = s.mem
    (addr.toNat % 64 ≠ 0 → exec (.spawn d a) s = .next (s.trapScalar { Trap.of 0x02 with addr := addr }))
    ∧ (addr.toNat % 64 = 0 → inScr tm addr.toNat 64 → allIssued s g → nothingOut s g core s.sched.slot k → (s.core core).l1.dirty = [] → field b 0 1 ≠ 1 →
      (badRecord b → refused 1)
      ∧ (¬ badRecord b → field b 0 1 = 0 →
        (partOk part groups = false → refused 2)
        ∧ (partOk part groups = true →
          (child = none → refused 3)
          ∧ (∀ r, child = some r →
            (s.pathOk x.asid r = false → refused 3)
            ∧ (s.pathOk x.asid r = true →
              (s.budgetAlone x.asid r units = true → refused 4)
              ∧ (s.budgetAlone x.asid r units = false →
                ((∃ h ∈ next, ¬ signalRoom x.nodes h) → refused 5)
                ∧ ((∀ h ∈ next, signalRoom x.nodes h) → next.Nodup →
                  (255 < count → refused 6)
                  ∧ (count ≤ 255 → 65536 ≤ s.liveNodes → refused 7)
                  ∧ (count ≤ 255 → s.liveNodes < 65536 → x.cancelling = true → refused 8)
                  ∧ (count ≤ 255 → s.liveNodes < 65536 → x.cancelling = false →
                    ∃ t x1 n, exec (.spawn d a) s = .next t ∧ SplitNow s t s.curKey k g (sp.setReg d (BitVec.ofNat 64 x.nextHandle)).advance 1 ∧ t.mem = s.mem
                      ∧ t.launch g.launch = some x1 ∧ x1.counter = x.counter + field b 2 2 ∧ x1.nextHandle = x.nextHandle + 1
                      ∧ amGet x1.nodes x.nextHandle = some n ∧ n.record = b ∧ n.rcb = r ∧ n.s1 = addr ∧ n.s2 = BitVec.ofNat 64 x.nextHandle
                      ∧ n.count = count ∧ n.auto = auto ∧ n.succ = next ∧ n.toPlace = field b 2 2 ∧ n.state = (if count = 0 then .ready else .waiting)
                      ∧ ∀ h y, h ≠ x.nextHandle → amGet x.nodes h = some y →
                          amGet x1.nodes h = some (if h ∈ next then { y with reserved := y.reserved + 1 } else y)))))))))

/-- R317: a node whose teams have all retired completes: it is gone; each successor it reserved at, and each node that counts it in `auto`, loses one, and is ready at
0. R323: with its counter 0 and no work left a launch completes: status, completion count, queues, owners; else it stays. R327: ageing. -/
def Sys2Proof.Claims.Completion : Prop :=
  (∀ (s : State) (l h : Nat) (x : Launch) (n : Node), s.launch l = some x → amGet x.nodes h = some n →
    let i := Instr.nodeComplete l h
    (n.state ≠ .running ∨ (field n.record 0 1 = 0 ∧ (0 < n.toPlace ∨ n.retired ≠ ndTeams n.record)) → exec i s = .next s)
    ∧ (n.state = .running → (field n.record 0 1 = 0 ∧ n.toPlace = 0 ∧ n.retired = ndTeams n.record)
          ∨ (field n.record 0 1 = 1 ∧ ∀ e ∈ s.entries, ¬ (e.2.launch = l ∧ e.2.node = h ∧ e.2.queue = none))
          ∨ (field n.record 0 1 = 2 ∧ ∀ j ∈ s.head.jobs, ¬ (j.2.launch = l ∧ j.2.node = h)) → n.succ.Nodup →
        ∃ t x1, exec i s = .next t ∧ t.launch l = some x1 ∧ amGet x1.nodes h = none
          ∧ x1.counter = (if field n.record 0 1 = 0 then x.counter else x.counter - 1) ∧ t.groups = s.groups ∧ t.mem = s.mem
          ∧ ∀ k y, k ≠ h → amGet x.nodes k = some y →
              (k ∉ n.succ → h ∉ y.auto → amGet x1.nodes k = some y)
              ∧ (k ∈ n.succ → h ∉ y.auto → ∃ z, amGet x1.nodes k = some z ∧ z.count = y.count - 1 ∧ z.reserved = y.reserved - 1 ∧ z.record = y.record
                  ∧ z.state = if y.count ≤ 1 ∧ y.state = .waiting then .ready else y.state)
              ∧ (k ∉ n.succ → h ∈ y.auto → ∃ z, amGet x1.nodes k = some z ∧ z.count = y.count - 1 ∧ z.reserved = y.reserved ∧ h ∉ z.auto
                  ∧ z.state = if y.count ≤ 1 ∧ y.state = .waiting then .ready else y.state)))
  ∧ (∀ (s : State) (l : Nat) (x : Launch), l ≠ 0 → s.launch l = some x →
    (x.waitingGraph = true ∨ (x.counter ≠ 0 ∧ x.cancelling = false) ∨ (∃ y ∈ s.head.teams, y.2.launch = l) → exec (.launchComplete l) s = .next s)
    ∧ (∀ pa va, x.waitingGraph = false → x.counter = 0 ∨ x.cancelling = true → s.launchWork l x = false → (∀ e ∈ s.entries, e.2.launch ≠ l) →
        statusAt s x.packetAsid x.packet pa va → x.done = 0 →
        ∃ t, exec (.launchComplete l) s = .next t ∧ t.launch l = none ∧ (∀ k, k ≠ l → t.launch k = s.launch k)
          ∧ statusWritten s t pa (if x.cancelling then 2 else if x.escalated then 9 else 1)
          ∧ (∀ k ∈ x.queueKeys, amGet t.queues k = none) ∧ (∀ c k, (t.codeSlot c k).owner ≠ some l) ∧ t.groups = s.groups))
  ∧ (∀ (s : State) (l h : Nat) (n : Node), s.node l h = some n →
    (n.state = .ready → n.raised < 7 → 18000000 * (n.raised + 1) ≤ s.now - n.since → ∃ t, exec (.priorityAgeing l h) s = .next t
        ∧ t.node l h = some { n with raised := n.raised + 1 } ∧ t.groups = s.groups ∧ t.mem = s.mem)
    ∧ (n.state ≠ .ready ∨ s.now - n.since < 18000000 * (n.raised + 1) → exec (.priorityAgeing l h) s = .next s))

/-- R320, R321, R325, R326: a packet of kind 0 does nothing; one that is not fit, or whose partition word is bad, has its status reported; a fit launch of kind 1 with
no queue list and no coverage descriptor is registered with its seed; a fit replay waits for an instance; the oldest waiting replay takes the lowest free one, with
its parameters copied and its nodes without predecessor ready. -/
def Sys2Proof.Claims.Intake : Prop :=
  (∀ (s : State) (m asid : Nat) (packet : DWord) (b : List Byte), packetNext s m asid packet b →
    let kind := field b 0 1
    let part := BitVec.ofNat 64 (field b 16 8)
    let units := (poolDemand part 1 + 16383) / 16384
    (kind = 0 → ∃ t, exec .launchIntake s = .next t ∧ t.head.launches = s.head.launches ∧ t.mem = s.mem ∧ (t.merger m).taken = (s.merger m).taken.drop 1)
    ∧ (kind = 2 → exec .launchIntake s = .next s) ∧ (kind ≠ 2 → exec .graphReplayIntake s = .next s)
    ∧ (∀ pa va i, statusAt s asid packet pa va → field b 56 8 = 0 → i = (if kind = 2 then Instr.graphReplayIntake else .launchIntake) → kind ≠ 0 →
      let rejected := fun (st : Nat) => ∃ t, exec i s = .next t ∧ statusWritten s t pa st ∧ t.head.launches = s.head.launches
      (bits (field b 0 8) 9 7 ≠ 0 ∨ 2 < kind ∨ amGet s.mem.roots (field b 3 1) = none → rejected 3)
      ∧ (bits (field b 0 8) 9 7 = 0 → kind ≤ 2 → amGet s.mem.roots (field b 3 1) ≠ none → s.pathOk (field b 3 1) (field b 8 8) = false → rejected 4)
      ∧ (packetFit s b → kind = 1 → partOk part 1 = false ∨ s.budgetAlone (field b 3 1) (field b 8 8) units = true → rejected 5)
      ∧ (packetFit s b → kind = 2 → field b 48 8 = 0 → field b 16 8 % 64 ≠ 0 → rejected 8))
    ∧ (packetFit s b → kind = 1 → partOk part 1 = true → s.budgetAlone (field b 3 1) (field b 8 8) units = false → field b 40 8 = 0 → field b 48 8 = 0 →
        ∃ t x n, exec .launchIntake s = .next t ∧ t.launch s.head.nextLaunch = some x ∧ x.asid = field b 3 1 ∧ x.packet = packet ∧ x.rcb = field b 8 8
          ∧ x.counter = 1 ∧ x.nextHandle = 1 ∧ x.cover = none ∧ x.queueKeys = [] ∧ x.done = BitVec.ofNat 64 (field b 56 8) ∧ x.segtab = BitVec.ofNat 64 (field b 24 8)
          ∧ x.nodes = [(0, n)] ∧ n.state = .ready ∧ n.toPlace = 1 ∧ n.rcb = field b 8 8 ∧ n.s1 = BitVec.ofNat 64 (field b 32 8) ∧ n.s2 = 0
          ∧ ndPc n.record = 4 * field b 4 2 ∧ ndPart n.record = part ∧ ndGroups n.record = 1
          ∧ (∀ k, k ≠ s.head.nextLaunch → t.launch k = s.launch k) ∧ t.mem = s.mem ∧ t.groups = s.groups)
    ∧ (∀ desc ns, packetFit s b → kind = 2 → field b 48 8 = 0 → field b 16 8 % 64 = 0 → s.devRead (field b 3 1) (field b 16 8) 64 = some desc → graphOk desc = true →
        s.graphNodes (field b 3 1) (field b 8 8) desc = some ns →
        ∃ t x, exec .graphReplayIntake s = .next t ∧ t.launch s.head.nextLaunch = some x ∧ x.waitingGraph = true ∧ x.asid = field b 3 1 ∧ x.rcb = field b 8 8
          ∧ x.nodes = ns ∧ (∃ y, x.graph = some (field b 3 1 * 2 ^ 64 + field b 16 8, y)) ∧ t.mem = s.mem ∧ t.groups = s.groups))
  ∧ (∀ (s : State) (graph l i n : Nat) (x : Launch) (d bs : List Byte),
    s.head.launches.find? (fun y => y.2.waitingGraph && (y.2.graph.map (·.1)) == some graph) = some (l, x) → s.launch l = some x →
    s.devRead x.asid (graph % 2 ^ 64) 64 = some d → n = field d 24 4 →
    ((∀ j, j < gdMax d → s.instanceHeld graph j = true) → exec (.graphInstanceStart graph) s = .next s)
    ∧ (i < gdMax d → s.instanceHeld graph i = false → (∀ j, j < i → s.instanceHeld graph j = true) →
        s.serveRange 0 (field d 16 8) n l x.asid x.rcb (.launch l) = (s, some true) →
        s.serveRange 0 (field d 32 8 + 4096 * i) n l x.asid x.rcb (.launch l) = (s, some true) → s.devRead x.asid (field d 16 8) n = some bs →
        ∃ t x1, exec (.graphInstanceStart graph) s = .next t ∧ t.mem = (s.devWrite x.asid (field d 32 8 + 4096 * i) bs).mem
          ∧ t.launch l = some x1 ∧ x1.graph = some (graph, i) ∧ x1.waitingGraph = false ∧ x1.counter = (x.nodes.map fun y => nodeCount y.2.record).sum
          ∧ (∀ h y, amGet x.nodes h = some y → ∃ z, amGet x1.nodes h = some z ∧ z.s1 = BitVec.ofNat 64 (field d 32 8 + 4096 * i) ∧ z.record = y.record
              ∧ z.count = y.count ∧ z.state = if y.count = 0 then .ready else .waiting)))

/-- R318, R319: with no turn held, a merge unit takes the head entry of the ring, of those with a valid entry, that comes first after the one last served; a chained
entry awaited 10 µs ends the turn; a head whose sequence is wrong for 1 ms marks the ring STALLED with one host event. -/
def Sys2Proof.Claims.RingsAndMergers : Prop :=
  (∀ (s : State) (m : Nat), s.dev.tripped = false → (s.merger m).chain = none →
    let order := fun (r : Ring) => if (s.merger m).last < r.index then r.index else r.index + 65
    ((∀ y ∈ s.head.rings, y.2.merger = m → s.ringEntry y.2 = none) → exec (.mergeUnitTake m) s = .next s)
    ∧ ((∃ y ∈ s.head.rings, y.2.merger = m ∧ s.ringEntry y.2 ≠ none) →
      ∃ t y a b, exec (.mergeUnitTake m) s = .next t ∧ y ∈ s.head.rings ∧ y.2.merger = m ∧ s.ringEntry y.2 = some (a, b)
        ∧ (∀ z ∈ s.head.rings, z.2.merger = m → s.ringEntry z.2 ≠ none → order y.2 ≤ order z.2)
        ∧ (t.merger m).taken = (s.merger m).taken ++ [(y.2.asid, BitVec.ofNat 64 a, b)] ∧ (t.merger m).last = y.2.index
        ∧ ((t.merger m).chain.isSome = true ↔ bits (field b 0 8) 8 1 = 1)
        ∧ ∀ s1, s1 = s.devWrite y.2.asid (y.2.desc.toNat + 16) (bytesOf 8 (s.ringRead y.2 + 1)) → s1.devNum y.2.asid (y.2.desc.toNat + 24) 8 = some 0 →
            t.mem = s1.mem))
  ∧ (∀ (s : State) (m k n since : Nat) (r : Ring), (s.merger m).chain = some (k, n, since) → amGet s.head.rings k = some r →
    (s.ringEntry r = none → 18000 ≤ s.now - since → ∃ t, exec (.chainWaitTimeout m) s = .next t ∧ (t.merger m).chain = none
        ∧ (t.merger m).taken = (s.merger m).taken ∧ t.mem = s.mem)
    ∧ (s.ringEntry r ≠ none ∨ s.now - since < 18000 → exec (.chainWaitTimeout m) s = .next s))
  ∧ (∀ (s : State) (k since : Nat) (r : Ring), amGet s.head.rings k = some r → r.headSince = some since → r.stalled = false → s.ringHead r ≠ none → s.ringEntry r = none →
    (s.now - since < 1800000 → exec (.ringStalled k) s = .next s)
    ∧ (1800000 ≤ s.now - since → ∃ t, exec (.ringStalled k) s = .next t
        ∧ t.mem = (s.devWrite r.asid (r.desc.toNat + 32) (bytesOf 8 (1 + s.ringRead r % 2 ^ 32 * 2 ^ 32))).mem
        ∧ (∀ old, s.devNum r.asid (r.desc.toNat + 32) 8 = some old →
            (old % 2 = 1 → amGet t.head.rings k = some { r with stalled := true } ∧ t.dev = s.dev)
            ∧ (old % 2 = 0 → s.unacked 2 r.desc.toNat = true → amGet t.head.rings k = some { r with stalled := true, held := true } ∧ t.dev = s.dev)
            ∧ (old % 2 = 0 → s.unacked 2 r.desc.toNat = false → amGet t.head.rings k = some { r with stalled := true }
                ∧ t.dev = (s.event (evt 2 0 0 r.desc.toNat 0 0)).dev))))

/-- R327: of the nodes that can be dispatched, one of the highest priority goes; where it is one copy node, its entry is on an engine and it runs; after a watchdog trip
nothing goes. -/
def Sys2Proof.Claims.Dispatching : Prop :=
  (∀ (s : State), s.dev.tripped = true → exec .nodeDispatch s = .next s)
  ∧ (∀ (s : State) (c : Cand) (x : Launch), s.dev.tripped = false → (∀ y ∈ s.head.teams, y.2.out = none) → c ∈ s.candidates →
    (∀ d ∈ s.candidates, d = c ∨ d.prio < c.prio) → 0 < c.quantum → s.launch c.l = some x → amGet x.nodes c.h = some c.n → field c.n.record 0 1 = 1 →
    ∃ t, exec .nodeDispatch s = .next t ∧ t.node c.l c.h = some { c.n with state := .running, toPlace := 0 } ∧ t.nextEntry = s.nextEntry + 1)

/-- The statement of launches and the Masthead controller. -/
def Obligations.LaunchLifecycle : Prop :=
  Claims.SpawnResults ∧ Claims.Completion ∧ Claims.Intake ∧ Claims.RingsAndMergers ∧ Claims.Dispatching

namespace Sys2Proof.Claims

/-- The commands of the host's channel other than LOADFW (R333), with their tag. -/
def hostCommands (tag : Byte) (i : Instr) : Prop :=
  (∃ ix key, i = .keyload tag ix key) ∨ i = .attest tag ∨ (∃ r, i = .guard tag r) ∨ (∃ a r, i = .asreg tag a r) ∨ (∃ a d, i = .ringreg tag a d)
    ∨ (∃ k es st, i = .slottbl tag k es st) ∨ (∃ a va n re, i = .shoot tag a va n re) ∨ (∃ a va z f sc, i = .migrate tag a va z f sc) ∨ (∃ p, i = .cancel tag p)
    ∨ (∃ a va b, i = .pageans tag a va b) ∨ (∃ b n, i = .evring tag b n) ∨ (∃ n b, i = .evack tag n b) ∨ (∃ w, i = .powercap tag w) ∨ i = .topo tag
    ∨ (∃ c, i = .errcnt tag c) ∨ (∃ n, i = .fread tag n) ∨ (∃ n d, i = .cells tag n d) ∨ ∃ f n d, i = .cellfree tag f n d
/-- The state with one more answer on the host's channel. -/
def answering (s : State) (tag : Byte) (status : Nat) (data : List Byte) : State :=
  { s with answers := s.answers ++ [{ tag := tag, status := status, data := data }] }
/-- A refusal that changes nothing but the answers. -/
def refuses (s : State) (tag : Byte) (i : Instr) : Prop := exec i s = .next (answering s tag 1 [])

end Sys2Proof.Claims

/-! ### Firmware, the host's channel, errors (R308, R318, R324, R330 to R346) -/

/-- R333, R334: before the firmware runs and after a watchdog trip every command but LOADFW is refused. Boot waits for firmware; an image that does not verify is
refused; one that does starts the device, which keeps memory and its tags and loses the rest. ATTEST answers the measurement. -/
def Sys2Proof.Claims.BootAndFirmware : Prop :=
  (∀ (s : State) (tag : Byte) (i : Instr), hostCommands tag i → ¬ open_ s → refuses s tag i)
  ∧ (∀ s : State, s.dev.phase = .off → exec .boot s = .next { s with dev := { s.dev with phase := .awaitFirmware, topology := State.fullTopology } })
  ∧ (∀ (s : State) (tag : Byte) (m : BitVec 384) (tp : Topology), s.dev.phase ≠ .off →
    exec (.loadfw tag false m tp) s = .next (answering s tag 1 [])
    ∧ ∃ t, exec (.loadfw tag true m tp) s = .next t ∧ answered s t tag 0 [] ∧ t.dev.phase = .running ∧ t.dev.measurement = some m ∧ t.dev.topology = tp
      ∧ t.dev.tripped = false ∧ t.dev.cap = 3200 ∧ t.dev.keys = [] ∧ t.dev.events.base = none
      ∧ t.mem.hbm = s.mem.hbm ∧ t.mem.sync = s.mem.sync ∧ t.mem.poison = s.mem.poison
      ∧ t.mem.roots = [] ∧ t.mem.pins = [] ∧ t.mem.l2 = [] ∧ t.groups = [] ∧ t.cores = [] ∧ t.head.launches = [] ∧ t.head.rings = [] ∧ t.queues = [] ∧ t.entries = []
      ∧ t.fabric.tickets = [] ∧ t.fabric.peers = []
      ∧ ∀ x ∈ s.head.launches, evt 9 (s.rcbDomain x.2.asid x.2.rcb) 0 x.2.packet.toNat 0 0 ∈ t.dev.events.backlog)
  ∧ (∀ (s : State) (tag : Byte) (m : BitVec 384), open_ s → s.dev.measurement = some m →
    exec (.attest tag) s = .next (answering s tag 0 (bytesOf 48 m.toNat ++ Config.attestSignature m)))

/-- R106, R263, R301, R318, R324, R338, R340, R341, R343, R391: what the commands store, and what they refuse. -/
def Sys2Proof.Claims.Commands : Prop :=
  ∀ (s : State) (tag : Byte), open_ s →
    (∀ (ix : BitVec 4) (key : BitVec 128), exec (.keyload tag ix key) s = .next (answering { s with dev := { s.dev with keys := amSet s.dev.keys ix.toNat key } } tag 0 []))
    ∧ (∀ (asid : Byte) (root : Nat),
      (root % 4096 = 0 → root < s.paEnd → exec (.asreg tag asid root) s = .next (answering { s with mem := { s.mem with roots := amSet s.mem.roots asid.toNat root } } tag 0 []))
      ∧ (root % 4096 ≠ 0 ∨ s.paEnd ≤ root → refuses s tag (.asreg tag asid root)))
    ∧ (∀ (kind : Nat) (es : List (BitVec 4)) (strict : Byte),
      let good := kind ≤ 4 ∧ es.length = 64 ∧ es[0]? = some 15 ∧ ∀ i, 0 < i → i < 64 → ∃ e, es[i]? = some e ∧ e.toNat ≤ 8
      (good → exec (.slottbl tag kind es strict) s = .next (answering { s with dev := { s.dev with slotTables := amSet s.dev.slotTables kind (es, strict) } } tag 0 []))
      ∧ (¬ good → refuses s tag (.slottbl tag kind es strict)))
    ∧ (∀ w : Nat, (1000 ≤ w → w ≤ 3200 → exec (.powercap tag w) s = .next (answering { s with dev := { s.dev with cap := w } } tag 0 []))
      ∧ (w < 1000 ∨ 3200 < w → refuses s tag (.powercap tag w)))
    ∧ (∀ base n : Nat,
      (base % 64 = 0 → 4 ≤ n → n ≤ 16 → ∃ t, exec (.evring tag base n) s = .next t ∧ answered s t tag 0 [] ∧ t.dev.events.base = some (base, n) ∧ t.dev.events.ack = 0
        ∧ t.dev.events.ovf = false ∧ t.dev.events.count = 0 ∧ t.dev.events.write = Nat.min s.dev.events.backlog.length (2 ^ n)
        ∧ t.dev.events.backlog = s.dev.events.backlog.drop (2 ^ n) ∧ t.dev.events.records = s.dev.events.records ∧ t.mem = s.mem ∧ t.groups = s.groups)
      ∧ (base % 64 ≠ 0 ∨ n < 4 ∨ 16 < n → refuses s tag (.evring tag base n)))
    ∧ (∀ (n : Nat) (clear : Bool),
      (s.dev.events.ack ≤ n → n ≤ s.dev.events.write → ∃ t, exec (.evack tag n clear) s = .next t ∧ answered s t tag 0 [] ∧ t.dev.events.ack = n
        ∧ (s.dev.events.base ≠ none → s.dev.events.backlog = [] → (∀ q ∈ s.queues, q.2.held = false) → (∀ r ∈ s.head.rings, r.2.held = false) →
            t.dev.events = { s.dev.events with ack := n, ovf := s.dev.events.ovf && !clear, count := if clear then 0 else s.dev.events.count }))
      ∧ (n < s.dev.events.ack ∨ s.dev.events.write < n → refuses s tag (.evack tag n clear)))
    ∧ (∀ n : Nat, ∃ t, exec (.fread tag n) s = .next t ∧ t.dev.events = { s.dev.events with records := s.dev.events.records.drop n }
        ∧ answered s t tag 0 ((s.dev.events.records.drop n ++ s.dev.events.backlog).flatMap EventEntry.bytes))
    ∧ (∀ c : ErrorCounter, exec (.errcnt tag c) s = .next (answering s tag 0 (bytesOf 8 (stGet 0 s.dev.counters (errKey c)).toNat)))
    ∧ (∃ data, exec (.topo tag) s = .next (answering s tag 0 data) ∧ data.length = 1024 ∧ field data 16 48 = s.dev.topology.cores.toNat
        ∧ field data 64 48 = s.dev.topology.slices.toNat ∧ field data 112 64 = s.dev.topology.channels.toNat)
    ∧ (∀ p : Nat, (∀ x ∈ s.head.launches, x.2.packet = BitVec.ofNat 64 p → x.2.cancelling = true) → refuses s tag (.cancel tag p))
    ∧ (∀ (p l : Nat) (x : Launch), s.launch l = some x → x.packet = BitVec.ofNat 64 p → x.cancelling = false →
        (∀ y ∈ s.head.launches, y.2.packet = BitVec.ofNat 64 p → y.1 = l) → (∀ g ∈ s.groups, g.2.launch ≠ l) → (∀ e ∈ s.entries, e.2.launch ≠ l) →
        ∃ t x1, exec (.cancel tag p) s = .next t ∧ answered s t tag 0 [] ∧ t.launch l = some x1 ∧ x1.cancelling = true ∧ x1.waitingGraph = false
          ∧ (∀ n ∈ x1.nodes, n.2.state = .running ∨ n.2.state = .done) ∧ (∀ n ∈ x.nodes, n.2.state = .running → n ∈ x1.nodes)
          ∧ t.groups = s.groups ∧ t.mem = s.mem)
    ∧ (∀ (asid : Byte) (desc : Nat) (b : List Byte),
      (desc % 128 ≠ 0 ∨ s.devRead asid.toNat desc 128 = none → refuses s tag (.ringreg tag asid desc))
      ∧ (desc % 128 = 0 → s.devRead asid.toNat desc 128 = some b →
        let m := bits (field b 8 8) 4 8
        let ix := bits (field b 8 8) 12 6
        let good := field b 0 8 % 64 = 0 ∧ 4 ≤ bits (field b 8 8) 0 4 ∧ m < 16 ∧ bits (field b 8 8) 18 46 = 0 ∧ field b 40 24 = 0 ∧ field b 72 56 = 0
          ∧ ∀ r ∈ s.head.rings, ¬ (r.2.merger = m ∧ r.2.index = ix)
        (¬ good → refuses s tag (.ringreg tag asid desc))
        ∧ (good → ∃ t r, exec (.ringreg tag asid desc) s = .next t ∧ answered s t tag 0 [] ∧ amGet t.head.rings (m * 64 + ix) = some r
            ∧ r.asid = asid.toNat ∧ r.desc = BitVec.ofNat 64 desc ∧ r.merger = m ∧ r.index = ix ∧ r.stalled = false ∧ t.mem = s.mem)))
    ∧ (∀ n die : Nat,
      let free := fun f => f + n ≤ 256 ∧ ∀ k, f ≤ k → k < f + n → nsHas s.dev.cells (die * 256 + k) = false
      (3 < die ∨ n = 0 ∨ (∀ f, ¬ free f) → refuses s tag (.cells tag n die))
      ∧ (die ≤ 3 → 0 < n → (∃ f, free f) → ∃ t f, exec (.cells tag n die) s = .next t ∧ free f ∧ answered s t tag 0 (bytesOf 1 f ++ bytesOf 1 die)
          ∧ ∀ k, nsHas t.dev.cells k = (nsHas s.dev.cells k || decide (die * 256 + f ≤ k ∧ k < die * 256 + f + n))))
    ∧ (∀ first n die : Nat,
      let good := die ≤ 3 ∧ 0 < n ∧ first + n ≤ 256 ∧ ∀ k, first ≤ k → k < first + n → nsHas s.dev.cells (die * 256 + k) = true
      (¬ good → refuses s tag (.cellfree tag first n die))
      ∧ (good → ∃ t, exec (.cellfree tag first n die) s = .next t ∧ answered s t tag 0 []
          ∧ ∀ k, let gone := die * 256 + first ≤ k ∧ k < die * 256 + first + n
            nsHas t.dev.cells k = (nsHas s.dev.cells k && !decide gone) ∧ (gone → amGet t.fabric.cells k = none)
              ∧ (¬ gone → amGet t.fabric.cells k = amGet s.fabric.cells k)))

/-- R304 to R306, R346: SHOOT and MIGRATE with an argument out of place are refused, and else begin; an answered page replays the groups that wait for it; GUARD is
held until the fabric is quiet. -/
def Sys2Proof.Claims.MemoryCommands : Prop :=
  ∀ (s : State) (tag asid : Byte) (va n : Nat), open_ s →
    (∀ remap : Bool,
      let good := va % 65536 = 0 ∧ n % 65536 = 0 ∧ n ≠ 0 ∧ va + n ≤ 2 ^ 57
      (¬ good → refuses s tag (.shoot tag asid va n remap))
      ∧ (good → amWf s.cores = true → (∀ c ∈ s.cores, c.2.quant = []) → ∃ t x k, exec (.shoot tag asid va n remap) s = .next t ∧ amGet t.mem.shoots k = some x ∧ amGet s.mem.shoots k = none
          ∧ x.asid = asid.toNat ∧ x.va = va ∧ x.len = n ∧ x.remap = remap ∧ x.since = s.now ∧ x.move = none ∧ x.tag = tag ∧ t.answers = s.answers
          ∧ (∀ c ∈ t.cores, ∀ e ∈ c.2.tlb, ¬ (e.asid = asid.toNat ∧ e.va < va + n ∧ va < e.va + 2 ^ e.leaf.bits)) ∧ (∀ c ∈ t.cores, c.2.l1.dirty = [])
          ∧ t.groups = s.groups))
    ∧ (∀ frame scale : Nat,
      (¬ ((n = 65536 ∨ n = 2 ^ 21) ∧ va % n = 0 ∧ frame % n = 0 ∧ frame + n ≤ s.paEnd) → refuses s tag (.migrate tag asid va n frame scale))
      ∧ (s.leafAt asid.toNat va = none → refuses s tag (.migrate tag asid va n frame scale))
      ∧ (∀ at_ sh l, n = 65536 ∨ n = 2 ^ 21 → va % n = 0 → frame % n = 0 → frame + n ≤ s.paEnd → s.shooting asid.toNat va = none → s.leafAt asid.toNat va = some (at_, sh) →
          2 ^ sh = n → s.walk asid.toNat va = .leaf l false → l.format = none → frame + n ≤ l.frame ∨ l.frame + n ≤ frame → s.pinsFit l.frame frame n = true →
          s.mem.cu = [] → (∀ c ∈ s.cores, c.2.quant = [] ∧ c.2.l1.dirty = []) →
          ∃ t x k, exec (.migrate tag asid va n frame scale) s = .next t ∧ amGet t.mem.shoots k = some x ∧ x.move = some (n, frame, scale) ∧ x.va = va
            ∧ x.asid = asid.toNat ∧ x.tag = tag ∧ t.answers = s.answers ∧ ((∀ j, j < 8 → s.mem.live (at_ + j) = none) → bits (t.mem.num at_ 8) 6 1 = 1)
            ∧ (∀ a, outside at_ 8 a → t.mem.byte a = s.mem.byte a) ∧ t.groups = s.groups))
    ∧ (∀ (r : FaultRec) (core slot : Nat) (g : Group) (p : PendingFault), s.mem.faults = [r] → s.mem.overflow = [] → r.asid = asid.toNat → r.page = va / 65536 → r.waiters = [.group core slot] →
      s.group (gkey core slot) = some g → g.ctl.fault = some p →
      (s.faultsOn core slot asid.toNat (va / 65536) = true →
        ∃ t, exec (.pageans tag asid va true) s = .next t ∧ answered s t tag 0 [] ∧ t.mem.faults = []
          ∧ t.group (gkey core slot) = some { g with ctl := { g.ctl with fault := none } } ∧ t.mem.hbm = s.mem.hbm)
      ∧ (∃ t r1, exec (.pageans tag asid va false) s = .next t ∧ answered s t tag 0 [] ∧ t.mem.faults = [r1] ∧ r1.denied = true ∧ r1.waiters = r.waiters
          ∧ .event (.faultReplay core slot) ∈ t.sched.wake ∧ t.groups = s.groups))
    ∧ (∀ r : GuardReq,
      let good := s.dev.guardPending = none ∧ r.reservedBits = false ∧ r.rank ≠ 0xFFFFF ∧ 1 ≤ r.pathN ∧ r.pathN ≤ 256 ∧ r.rootPA % 512 = 0 ∧ r.pathPA % 4096 = 0
        ∧ r.rootPA + 512 ≤ s.paEnd ∧ r.regionPA + 1600 ≤ s.paEnd ∧ r.pathPA + 16 * r.pathN ≤ s.paEnd
      (¬ good → refuses s tag (.guard tag r))
      ∧ (good → exec (.guard tag r) s = .next { s with dev := { s.dev with guardPending := some (tag, r) } }))

/-- R308, R331, R332, R339, R340, R343: heartbeats, the watchdog and its trip, link timeouts, error counts, an uncorrectable error where it lies, the limiter and the
laser interlock. -/
def Sys2Proof.Claims.DeviceEvents : Prop :=
  (∀ (s : State), s.dev.phase = .running → s.dev.tripped = false →
    (s.dev.links = [] → exec .heartbeat s = .next { s with dev := { s.dev with heartbeat := s.now } })
    ∧ (s.dev.links ≠ [] → exec .heartbeat s = .next s)
    ∧ (s.now - s.dev.heartbeat < 90000000 → exec .watchdog s = .next s)
    ∧ (90000000 ≤ s.now - s.dev.heartbeat → ∃ t, exec .watchdog s = .next t ∧ t.dev.tripped = true ∧ t.dev.fabricQuiet = true ∧ t.groups = s.groups ∧ t.mem = s.mem
        ∧ t.dev.events = s.dev.events.put (evt 8 0 0 0 0 0))
    ∧ (∀ k, exec (.commandLinkTimeout k) s = .next { s with dev := { s.dev with links := amSet s.dev.links k s.now } }))
  ∧ (∀ (s : State) (fibre mw link : Nat),
    exec (.laserInterlock fibre) s = .next { s with dev := { s.dev with lasersOff := nsAdd s.dev.lasersOff fibre } }
    ∧ (∃ w, exec (.powerLimiterSample mw) s = .next { s with dev := { s.dev with power := mw, withheld := w, sampled := s.now } } ∧ w ≤ 999
        ∧ (1000 * s.dev.cap < mw → 0 < w ∧ (s.dev.withheld ≤ 999 → s.dev.withheld ≤ w)) ∧ (mw ≤ 1000 * s.dev.cap → s.dev.withheld = 0 → w = 0))
    ∧ (stGet 0 s.dev.counters 8 ≠ BitVec.allOnes 64 → ∃ t, exec (.retriedFlit link) s = .next t ∧ stGet 0 t.dev.counters 8 = stGet 0 s.dev.counters 8 + 1 ∧ (∀ k, k ≠ 8 → stGet 0 t.dev.counters k = stGet 0 s.dev.counters k)
        ∧ t.groups = s.groups ∧ t.mem = s.mem ∧ t.fabric = s.fabric))
  ∧ (∀ (s : State) (c : ErrorCounter), (∃ n, c = .die n ∨ c = .stack n ∨ c = .link n) → stGet 0 s.dev.counters (errKey c) ≠ BitVec.allOnes 64 →
    ∃ t, exec (.correctableError c) s = .next t ∧ stGet 0 t.dev.counters (errKey c) = stGet 0 s.dev.counters (errKey c) + 1
      ∧ (∀ k, k ≠ errKey c → stGet 0 t.dev.counters k = stGet 0 s.dev.counters k) ∧ t.groups = s.groups ∧ t.mem = s.mem ∧ t.cores = s.cores)
  ∧ (∀ (s : State) (pa core slot : Nat),
    (∃ t, exec (.uncorrectableError (.memory pa)) s = .next t ∧ nsHas t.mem.poison (pa / 128) = true ∧ t.mem.hbm = s.mem.hbm ∧ t.groups = s.groups
      ∧ (amGet s.mem.owners (pa / 65536) = none → t.dev.events = s.dev.events.put (evt 5 0 0 pa 0 0)))
    ∧ (∀ g k sp, s.group (gkey core slot) = some g → g.splits = (k, sp) :: g.splits.tail → 
        exec (.uncorrectableError (.groupState core slot)) s
          = .next (s.escalateGroup (gkey core slot) { cause := 0, addr := 0, lane := false, split := k, pc := sp.pc, lp := sp.lp }))
    ∧ ((s.codeSlot core slot).state = .landed → ∃ t, exec (.uncorrectableError (.codeSlot core slot)) s = .next t
        ∧ t.codeSlot core slot = { s.codeSlot core slot with state := .empty } ∧ t.groups = s.groups ∧ t.mem = s.mem)
    ∧ (s.dev.tripped = false → ∃ t, exec (.uncorrectableError .controller) s = .next t ∧ t.dev.tripped = true ∧ t.dev.fabricQuiet = true ∧ t.mem = s.mem))

/-- R342: a frame of a job is in memory before the job's counter rises by one; with its frames done a job ends, and its node is told. -/
def Sys2Proof.Claims.MediaJobs : Prop :=
  ∀ (s : State) (k : Nat) (j : MediaJob) (x : Launch), amGet s.head.jobs k = some j → s.launch j.launch = some x →
    let frames := bits (field j.bytes 8 8) 16 16
    let good := bits (field j.bytes 8 8) 0 2 ≠ 3 ∧ frames ≠ 0
    let ends := fun (i : Instr) (done : Bool) => ∃ t, exec i s = .next t ∧ amGet t.head.jobs k = none
      ∧ t.mem = (s.devWrite x.asid (j.desc.toNat + 48) (bytesOf 8 ((if done then 1 else 4) + j.frames * 2 ^ 32))).mem
      ∧ .event (.nodeComplete j.launch j.node) ∈ t.sched.wake ∧ t.groups = s.groups
    (good → j.frames = frames → ends (.mediaJobComplete k true) true)
    ∧ (good → j.frames < frames → exec (.mediaJobComplete k true) s = .next s)
    ∧ ends (.mediaJobComplete k false) false
    ∧ (∀ (depth pa : Nat) (pl : List (List (List Nat))) (ws : List CopyWr) (s1 : State), j.frames < frames → j.wait = [] → j.acks = [] →
        s.frameWrites (devWho x.asid j.launch) j.far x.asid j.frames depth ((upFrom 0 3).map fun i => (field j.bytes (16 + 8 * i) 8, (pl[i]?).getD [])) = .ok ws →
        s.enginePuts (devWho x.asid j.launch) none ws [] = (s1, [], false) → s1.wordPA x.asid (field j.bytes 40 8) .rd = some pa → s1.mem.live pa = some .counter →
        noWaitOn s1 (.mem pa) → pa % 8 = 0 → s1.mem.cu = [] → (s1.wordAt pa).toNat + 1 < 2 ^ 64 → amGet s1.head.jobs k = some j →
        ∃ t, exec (.mediaFrameComplete k depth pl) s = .next t ∧ amGet t.head.jobs k = some { j with frames := j.frames + 1 } ∧ t.wordAt pa = s1.wordAt pa + 1
          ∧ ∀ a, outside pa 8 a → t.mem.byte a = s1.mem.byte a)

/-- The statement of the device's firmware and host channel. -/
def Obligations.DeviceAndHostChannel : Prop :=
  Claims.BootAndFirmware ∧ Claims.Commands ∧ Claims.MemoryCommands ∧ Claims.DeviceEvents ∧ Claims.MediaJobs

namespace Sys2Proof.Claims

/-- Only the fabric's state changes, and what the schedule notes. -/
def OnlyFabric (s t : State) : Prop :=
  t.mem = s.mem ∧ t.cores = s.cores ∧ t.groups = s.groups ∧ t.head = s.head ∧ t.queues = s.queues ∧ t.entries = s.entries ∧ t.dev = s.dev
    ∧ t.answers = s.answers ∧ t.now = s.now
/-- A store packet of `d` to a region of this device, at an offset that its home places at `pa` on one ordinary page. -/
def storePacket (s : State) (p : Packet) (region : BitVec 4) (off : BitVec 39) (d : List Byte) (pa va : Nat) : Prop :=
  p.body = .access region [(off, .put d)] ∧ 0 < d.length ∧ s.homeSegs region off.toNat d.length .wr = .ok [oneSeg pa d.length va]
    ∧ s.homeMissing region (off, .put d) = [] ∧ (∀ a, pa ≤ a → a < pa + d.length → s.mem.live a = none) ∧ s.mem.cu = [] ∧ s.mem.poison = []
/-- In `t` the bytes are at `pa`, and every other byte is as it was. -/
def bytesStored (s t : State) (pa : Nat) (d : List Byte) : Prop :=
  (∀ i, i < d.length → t.mem.byte (pa + i) = (d[i]?).getD 0) ∧ ∀ a, outside pa d.length a → t.mem.byte a = s.mem.byte a
/-- The last packet given to the outside in `t`, all the earlier ones being those of `s`. -/
def sentOne (s t : State) (p : Packet) : Prop := t.fabric.outbox = s.fabric.outbox ++ [p]
/-- Whether an acknowledgement covers a PSN (R376): below the cumulative one, or a bit of the bitmap after it. -/
def covers (cum : BitVec 32) (bitmap : BitVec 64) (psn : BitVec 32) : Prop :=
  2 ^ 31 ≤ (psn - cum).toNat ∨ (0 < (psn - cum).toNat ∧ (psn - cum).toNat ≤ 64 ∧ bitmap.getLsbD ((psn - cum).toNat - 1) = true)
/-- PSN `psn` is accepted at a peer entry. -/
def accepted (q : Peer) (psn : BitVec 32) : Prop := 2 ^ 31 ≤ (psn - q.cum).toNat ∨ nsHas q.accepted psn.toNat = true
/-- The device takes packets: firmware runs and the fabric is not quiet. -/
def fabricOn (s : State) : Prop := s.dev.phase = .running ∧ s.dev.fabricQuiet = false

end Sys2Proof.Claims

/-! ### The pod fabric (R357 to R370) -/

/-- R359, R360, R363, R368, R369: pod time, the start of a phase and of its gap, permits, and the ends of pauses. -/
def Sys2Proof.Claims.PodTiming : Prop :=
  (∀ (s : State) (time : Nat),
    exec (.precisionTimeProtocolMessage time) s = .next { s with fabric := { s.fabric with podTime := time, podAt := s.now } })
  ∧ (∀ (s : State) (port ch units : Nat), ch < 4 →
    ∃ t, exec (.linkPermitReturn port ch units) s = .next t ∧ OnlyFabric s t
      ∧ (∀ k, stGet 0 t.fabric.permits k = if k = port * 4 + ch then Nat.min (if ch = 3 then 64 else 256) (stGet 0 s.fabric.permits k + units)
          else stGet 0 s.fabric.permits k))
  ∧ (∀ (s : State) (p : List Byte), s.dev.plan = some p →
    (s.phasesDue p ≤ s.fabric.phase → exec .circuitPhaseStart s = .next s)
    ∧ (s.fabric.phase < s.phasesDue p → s.dev.fabricQuiet = false →
        ∃ t, exec .circuitPhaseStart s = .next t ∧ t.fabric.phase = s.phasesDue p ∧ t.fabric.gap = false ∧ t.fabric.permits = [] ∧ t.fabric.sendq = s.fabric.sendq
          ∧ OnlyFabric s t)
    ∧ (∀ at_, gapBegin p s.fabric.phase = some at_ →
        (s.fabric.gap = false → s.fabric.phase ≠ 0 → at_ ≤ s.podPs → exec .circuitGapStart s = .next { s with fabric := { s.fabric with gap := true } })
        ∧ (s.podPs < at_ → exec .circuitGapStart s = .next s)))
  ∧ (∀ (s : State) (fibre port till : Nat),
    (fibre < 96 → amGet s.fabric.paused fibre = some till →
      (s.now < till → exec (.turnroundPauseEnd fibre) s = .next s)
      ∧ (till ≤ s.now → ∃ t, exec (.turnroundPauseEnd fibre) s = .next t ∧ amGet t.fabric.paused fibre = none ∧ OnlyFabric s t
          ∧ (∀ k, k ≠ fibre → amGet t.fabric.paused k = amGet s.fabric.paused k)
          ∧ (s.fabric.gap = false → 0 < (s.waves fibre).2 → ∃ l, t.fabric.outbox = s.fabric.outbox ++ l ∧ l.length = 4
              ∧ ∀ x ∈ l, ∃ ch n, x.body = .permit fibre ch n)
          ∧ (s.fabric.gap = true → t.fabric.outbox = s.fabric.outbox)))
    ∧ (amGet s.fabric.paused (128 + port) = some till →
      (s.now < till → exec (.spareRetrainingPauseEnd port) s = .next s)
      ∧ (till ≤ s.now → (∀ q ∈ s.fabric.peers, q.2.queue = []) → ∃ t, exec (.spareRetrainingPauseEnd port) s = .next t
          ∧ amGet t.fabric.paused (128 + port) = none ∧ t.fabric.outbox = s.fabric.outbox ∧ OnlyFabric s t)))

/-- R361, R362, R365: a head that passes its tests and is the one ready for its egress leaves with one more hop, takes its permits, and returns those of the port it
came by; one that cannot be routed leaves its queue, and the access it belongs to here ends in PROTECT; 16 µs at the head with permits ages it. -/
def Sys2Proof.Claims.PodForwarding : Prop :=
  (∀ (s : State) (p : List Byte) (die dest : Nat) (x : Queued) (rest : List Queued), s.dev.plan = some p → dest < 1024 →
    amGet s.fabric.sendq (die * 1024 + dest) = some (x :: rest) → s.unreachable p x.pkt = false →
    let i := Instr.podPacketForward die dest
    let u := packetUnits x.pkt
    (s.headPort p x.pkt = none → exec i s = .next s)
    ∧ (∀ port r, s.headPort p x.pkt = some port → s.readyHeads p port = [r] → r.key = die * 1024 + dest → r.pkt = x.pkt → amGet s.dev.slotTables 4 = none →
      ∃ t, exec i s = .next t ∧ OnlyFabric s t
        ∧ amGet t.fabric.sendq (die * 1024 + dest) = (if rest = [] then none else some rest)
        ∧ (∀ k, k ≠ die * 1024 + dest → amGet t.fabric.sendq k = amGet s.fabric.sendq k)
        ∧ t.fabric.outbox.getLast? = some { x.pkt with hops := x.pkt.hops + 1, path := port, shares := [] }
        ∧ t.fabric.outbox.length = s.fabric.outbox.length + (if x.port < 24 then 2 else 1)
        ∧ (∀ k, stGet 0 t.fabric.permits k = if k = port * 4 + packetChannel x.pkt then stGet 0 s.fabric.permits k - u else stGet 0 s.fabric.permits k)
        ∧ (x.pkt.src = s.dev.rank → isRequest x.pkt.body = true →
            amGet t.fabric.unacked x.pkt.device = some ((amGet s.fabric.unacked x.pkt.device).getD [] ++ [(x.pkt.ticket, s.fabric.phase)]))))
  ∧ (∀ (s : State) (p : List Byte) (die dest : Nat) (x : Queued) (rest : List Queued), s.dev.plan = some p → amGet s.fabric.sendq (die * 1024 + dest) = some (x :: rest) →
    ∀ k : Ticket, 4 ≤ x.pkt.hops → x.pkt.src = s.dev.rank → isRequest x.pkt.body = true → amGet s.fabric.tickets x.pkt.ticket = some k → k.owner = .none →
    ∃ t, exec (.podPacketForward die dest) s = .next t ∧ amGet t.fabric.sendq (die * 1024 + dest) = (if rest = [] then none else some rest)
      ∧ t.fabric.outbox = s.fabric.outbox ∧ amGet t.fabric.tickets x.pkt.ticket = none ∧ OnlyFabric s t)
  ∧ (∀ (s : State) (die dest since : Nat), amGet s.fabric.heads (die * 1024 + dest) = some since →
    (since + 28800 ≤ s.now → ∃ t, exec (.packetAged die dest) s = .next t ∧ nsHas t.fabric.aged (die * 1024 + dest) = true ∧ OnlyFabric s t)
    ∧ (s.now < since + 28800 → exec (.packetAged die dest) s = .next s))

/-- R358, R361, R363, R367, R368, R370: a packet for another device joins its queue; one for this device that fails its CRC is NACKed; a store is performed at its home; a
NACK resends the held copy at the head of its queue. A wavelength's failure is reported, and is made good by turning round or by a spare. -/
def Sys2Proof.Claims.PodReception : Prop :=
  (∀ (s : State) (plan : List Byte) (die port : Nat) (p : Packet) (ok : Bool), s.dev.plan = some plan → fabricOn s →
    (p.device ≠ planDevice plan → ∃ t, exec (.podPacketReceive die port p ok) s = .next t ∧ OnlyFabric s t
        ∧ amGet t.fabric.sendq (die * 1024 + p.device) = some ((amGet s.fabric.sendq (die * 1024 + p.device)).getD [] ++ [{ pkt := p, port := port % 24 }]))
    ∧ (∀ dev ps, p.device = planDevice plan → s.resolveRank die p.src = some (0, dev, ps) →
      (∃ t q, exec (.podPacketReceive die port p false) s = .next t ∧ t.mem = s.mem ∧ t.groups = s.groups
        ∧ (amGet t.fabric.sendq (die * 1024 + dev)) = some ((amGet s.fabric.sendq (die * 1024 + dev)).getD [] ++ [q]) ∧ q.pkt.body = .podNack p.ticket ∧ q.pkt.dst = p.src)
      ∧ (∀ region off d pa va, storePacket s p region off d pa va → p.src ≠ s.dev.rank → s.podBehind (s.podNumber p) p = false →
          ∃ t q, exec (.podPacketReceive die port p true) s = .next t ∧ bytesStored s t pa d ∧ t.groups = s.groups ∧ t.cores = s.cores
            ∧ amGet t.fabric.sendq (die * 1024 + dev) = some ((amGet s.fabric.sendq (die * 1024 + dev)).getD [] ++ [q])
            ∧ q.pkt.body = .answer p.ticket [[]] ∧ q.pkt.dst = p.src)))
  ∧ (∀ (s : State) (dest ticket die : Nat) (x : Packet), amGet s.fabric.copies ticket = some (die, x) → x.dst = dest →
    ∃ t, exec (.podNack dest ticket) s = .next t ∧ OnlyFabric s t ∧ t.fabric.copies = s.fabric.copies
      ∧ amGet t.fabric.sendq (die * 1024 + x.device) = some ({ pkt := x, port := 24 } :: (amGet s.fabric.sendq (die * 1024 + x.device)).getD []))
  ∧ (∀ (s : State) (fibre : Nat) (tx : Bool) (a b : Nat), (amGet s.fabric.waves fibre).getD (if fibre < 96 then (64, 64) else (28, 28)) = (a, b) → 0 < a → 0 < b →
    nsHas s.dev.lasersOff fibre = false →
    let left := if tx then (a - 1, b) else (a, b - 1)
    let turns := bits (field (s.dev.plan.getD []) 0 8) 16 1 = 1 ∧ (left.1 + 2 ≤ left.2 ∨ left.2 + 2 ≤ left.1)
    ∃ t c d, exec (.wavelengthFailure fibre tx) s = .next t ∧ amGet t.fabric.waves fibre = some (c, d) ∧ c + d = left.1 + left.2
      ∧ t.dev.events = s.dev.events.put (evt 7 0 0 fibre 0 0) ∧ t.groups = s.groups ∧ t.mem = s.mem
      ∧ (fibre < 96 → ¬ turns → (c, d) = left ∧ t.fabric.paused = s.fabric.paused)
      ∧ (fibre < 96 → turns → c ≤ d + 1 ∧ d ≤ c + 1 ∧ amGet t.fabric.paused fibre = some (s.now + 3600))
      ∧ (96 ≤ fibre → (c, d) = left ∧ (26 ≤ (if tx then a else b) → amGet t.fabric.paused (128 + (fibre - 96) / 2) = some (s.now + 3600))))

/-! ### The remote fabric (R371 to R378) -/

/-- R375, R377, R378: a frame that fails its header CRC is dropped and counted; a packet already accepted is acknowledged again with no effect; one whose tag fails is
NACKed; a store that passes every test is performed once and acknowledged; a retire notice marks its PSN. -/
def Sys2Proof.Claims.RemoteTarget : Prop :=
  (∀ (s : State) (p : Packet) (tag ecn : Bool), fabricOn s → stGet 0 s.dev.counters 9 ≠ BitVec.allOnes 64 →
    ∃ t, exec (.remotePacketReceive p false tag ecn) s = .next t ∧ stGet 0 t.dev.counters 9 = stGet 0 s.dev.counters 9 + 1 ∧ t.mem = s.mem ∧ t.groups = s.groups
      ∧ t.fabric = s.fabric)
  ∧ (∀ (s : State) (p : Packet) (ecn : Bool) (q : Peer), fabricOn s → amGet s.fabric.peers p.src = some q → q.accepted.length < 2 ^ 30 →
    (accepted q p.psn → s.regionFails p = false → (∀ a ∈ q.atomics, a.1 ≠ p.psn.toNat) → ∃ t k, exec (.remotePacketReceive p true true ecn) s = .next t ∧ OnlyFabric s t ∧ sentOne s t k
        ∧ k.dst = p.src ∧ (∃ b, k.body = .ack q.cum b ecn p.path) ∧ t.fabric.peers = s.fabric.peers)
    ∧ (∀ region off d pa va, ¬ accepted q p.psn → s.fabric.held = [] → storePacket s p region off d pa va →
      (∃ t k, exec (.remotePacketReceive p true false ecn) s = .next t ∧ sentOne s t k ∧ k.dst = p.src ∧ k.body = .nack p.psn ∧ t.groups = s.groups
          ∧ amGet t.fabric.peers p.src = some q)
      ∧ (∀ b pl n asid rp sc, (s.dev.regions[region.toNat]?).bind regionOf = some (b, pl, n, asid, rp, sc, 0) →
        ∃ t k q1, exec (.remotePacketReceive p true true ecn) s = .next t ∧ bytesStored s t pa d ∧ sentOne s t k ∧ k.dst = p.src
          ∧ (∃ c bm, k.body = .ack c bm ecn p.path) ∧ amGet t.fabric.peers p.src = some q1 ∧ accepted q1 p.psn ∧ t.groups = s.groups)))
  ∧ (∀ (s : State) (peer : Nat) (psn : BitVec 32) (q : Peer), fabricOn s → amGet s.fabric.peers peer = some q → q.accepted.length < 2 ^ 30 → s.fabric.held = [] →
    ∃ t k q1, exec (.retireNotice peer psn) s = .next t ∧ amGet t.fabric.peers peer = some q1 ∧ accepted q1 psn ∧ sentOne s t k ∧ k.dst = peer
      ∧ (∃ c bm, k.body = .ack c bm false 0) ∧ OnlyFabric s t)

/-- R374, R376, R377, R355: an acknowledgement frees what it covers; a NACK, a trimmed packet and a timeout send a packet again, and lower the weight of its path; after
the 16th attempt it is lost, with a LINK event and a retire notice; a path at weight 0 is at 1 again after 100 µs. A fault that the target answers reaches what asked. -/
def Sys2Proof.Claims.RemoteInitiator : Prop :=
  (∀ (s : State) (peer : Nat) (cum : BitVec 32) (bitmap : BitVec 64) (ecn : Bool) (path : Nat) (q : Peer), amGet s.fabric.peers peer = some q → q.queue = [] →
    (∀ x ∈ q.flight, x.1 < 2 ^ 32) → (∀ x ∈ q.flight, x.2.fast = true) → amWf q.flight = true →
    ∃ t q1, exec (.remoteAck peer cum bitmap ecn path) s = .next t ∧ amGet t.fabric.peers peer = some q1 ∧ t.fabric.outbox = s.fabric.outbox
      ∧ (∀ psn : BitVec 32, (covers cum bitmap psn → amGet q1.flight psn.toNat = none) ∧ (¬ covers cum bitmap psn → amGet q1.flight psn.toNat = amGet q.flight psn.toNat))
      ∧ (∀ (psn : BitVec 32) x, covers cum bitmap psn → amGet q.flight psn.toNat = some x → putOnly x.pkt.body = true → amGet t.fabric.tickets x.pkt.ticket = none)
      ∧ (ecn = true → (s.pathState q.pathSet).weight path ≠ 0 →
          (t.pathState q.pathSet).weight path = Nat.max 1 ((s.pathState q.pathSet).weight path - 1)))
  ∧ (∀ (s : State) (peer : Nat) (psn : BitVec 32) (q : Peer) (x : Flight), amGet s.fabric.peers peer = some q → amGet q.flight psn.toNat = some x →
    let resent := fun (i : Instr) => ∃ t q1 path wire, exec i s = .next t ∧ sentOne s t { x.pkt with path := path, wire := wire } ∧ amGet t.fabric.peers peer = some q1
      ∧ (∃ f, amGet q1.flight psn.toNat = some { pkt := { x.pkt with path := path }, tries := x.tries + 1, sent := s.now, fast := f })
      ∧ q1.retiring = q.retiring ∧ t.groups = s.groups ∧ t.mem = s.mem ∧ (x.pkt.dst = peer → wire = some (s.wireAddr q.net q.pathSet path))
    let lost := fun (i : Instr) => ∃ t q1 k, exec i s = .next t ∧ amGet t.fabric.peers peer = some q1 ∧ amGet q1.flight psn.toNat = none
      ∧ amGet q1.retiring psn.toNat = some s.now ∧ sentOne s t k ∧ k.body = .retire psn ∧ k.dst = peer
      ∧ ((x.pkt.body = .reserveGrant ∨ x.pkt.body = .reserveBlock) → t.dev.events = s.dev.events.put (evt 7 0 0 peer 0 psn.toNat))
    let weighs := fun (i : Instr) (w : Nat) => ∃ t, exec i s = .next t ∧ (t.pathState q.pathSet).weight x.pkt.path = w
    let w := (s.pathState q.pathSet).weight x.pkt.path
    (x.tries < 16 → resent (.remoteNack peer psn) ∧ resent (.trimmedPacketNotice peer psn)
        ∧ (x.sent + Nat.min 9000000 (72000 * 2 ^ (x.tries - 1)) ≤ s.now → resent (.retransmitTimeout peer psn)))
    ∧ (16 ≤ x.tries → (x.pkt.body = .reserveGrant ∨ x.pkt.body = .reserveBlock ∨ x.pkt.body = .reserveRequest) → lost (.remoteNack peer psn))
    ∧ (x.tries < 16 → weighs (.trimmedPacketNotice peer psn) (w - 2))
    ∧ (x.tries < 16 → x.sent + Nat.min 9000000 (72000 * 2 ^ (x.tries - 1)) ≤ s.now → weighs (.retransmitTimeout peer psn) 0)
    ∧ (s.now < x.sent + Nat.min 9000000 (72000 * 2 ^ (x.tries - 1)) → exec (.retransmitTimeout peer psn) s = .next s))
  ∧ (∀ (s : State) (ps path since : Nat), amGet (s.pathState ps).zeroed path = some since →
    (s.now < since + 180000 → exec (.pathWeightRestore ps path) s = .next s)
    ∧ (since + 180000 ≤ s.now → ∃ t, exec (.pathWeightRestore ps path) s = .next t ∧ (t.pathState ps).weight path = 1 ∧ amGet (t.pathState ps).zeroed path = none
        ∧ OnlyFabric s t))
  ∧ (∀ (s : State) (ticket ix : Nat) (cause : Byte) (precise : Bool) (k : Ticket),
    (amGet s.fabric.tickets ticket = none → exec (.targetFaultAnswer ticket cause precise ix) s = .next s)
    ∧ (amGet s.fabric.tickets ticket = some k →
      (∀ e y, k.owner = .copy e → amGet s.entries e = some y → ∃ t y1, exec (.targetFaultAnswer ticket cause precise ix) s = .next t
          ∧ amGet t.fabric.tickets ticket = none ∧ amGet t.entries e = some y1 ∧ y1.status = 4 ∧ ticket ∉ y1.acks ∧ y1.bytes = y.bytes ∧ t.mem = s.mem ∧ t.groups = s.groups)
      ∧ (∀ core slot id g a, k.owner = .access core slot id → s.group (gkey core slot) = some g → amGet g.async.access id = some a → precise = false ∨ g.async.laneWait ≠ some id →
          s.team g.team = none → ∃ t g1, exec (.targetFaultAnswer ticket cause precise ix) s = .next t ∧ t.group (gkey core slot) = some g1 ∧ g1.ctl.stopped = true
            ∧ amGet g1.async.access id = none ∧ amGet t.fabric.tickets ticket = none)
      ∧ (∀ core slot j d nr g sp, k.owner = .split core slot j → s.group (gkey core slot) = some g → g.split j = some sp → sp.status = .reply ticket d nr → precise = false →
          s.team g.team = none → ∃ t g1, exec (.targetFaultAnswer ticket cause precise ix) s = .next t ∧ t.group (gkey core slot) = some g1 ∧ g1.ctl.stopped = true
            ∧ g1.split j = some { sp with status := .ready } ∧ amGet t.fabric.tickets ticket = none)))

/-- The eight forms of the remote transport each complete: REMOTE_PACKET_RECEIVE performs a store of an accepting region and acknowledges it (R375), RETIRE_NOTICE marks its PSN (R377),
REMOTE_ACK frees the packets it covers (R376), REMOTE_NACK and TRIMMED_PACKET_NOTICE send the packet again, RETRANSMIT_TIMEOUT sends it again once its timer has run (R377), PATH_WEIGHT_RESTORE
brings a path back to weight 1 after 100 µs (R374), and TARGET_FAULT_ANSWER ends the copy entry that asked with FAULT (R355). -/
def Sys2Proof.Claims.RemoteForms : Prop :=
  ∀ (s : State) (peer : Nat) (psn : BitVec 32) (q : Peer), fabricOn s → s.fabric.held = [] → amGet s.fabric.peers peer = some q → q.accepted.length < 2 ^ 30 →
  (∀ (p : Packet) (ecn : Bool) region off d pa va b pl n asid rp sc, p.src = peer → ¬ accepted q p.psn → storePacket s p region off d pa va →
      (s.dev.regions[region.toNat]?).bind regionOf = some (b, pl, n, asid, rp, sc, 0) →
      ∃ t, exec (.remotePacketReceive p true true ecn) s = .next t ∧ bytesStored s t pa d ∧ t.fabric.outbox.length = s.fabric.outbox.length + 1)
  ∧ (∃ t q1, exec (.retireNotice peer psn) s = .next t ∧ amGet t.fabric.peers peer = some q1 ∧ accepted q1 psn)
  ∧ (∀ (cum : BitVec 32) (bitmap : BitVec 64) (ecn : Bool) (path : Nat), q.queue = [] → (∀ x ∈ q.flight, x.1 < 2 ^ 32 ∧ x.2.fast = true) → amWf q.flight = true →
      ∃ t q1, exec (.remoteAck peer cum bitmap ecn path) s = .next t ∧ amGet t.fabric.peers peer = some q1 ∧ (covers cum bitmap psn → amGet q1.flight psn.toNat = none))
  ∧ (∀ x, amGet q.flight psn.toNat = some x → x.tries < 16 →
      (∃ t, exec (.remoteNack peer psn) s = .next t ∧ t.fabric.outbox.length = s.fabric.outbox.length + 1)
      ∧ (∃ t, exec (.trimmedPacketNotice peer psn) s = .next t ∧ t.fabric.outbox.length = s.fabric.outbox.length + 1)
      ∧ (x.sent + Nat.min 9000000 (72000 * 2 ^ (x.tries - 1)) ≤ s.now →
          ∃ t, exec (.retransmitTimeout peer psn) s = .next t ∧ t.fabric.outbox.length = s.fabric.outbox.length + 1 ∧ (t.pathState q.pathSet).weight x.pkt.path = 0))
  ∧ (∀ ps path since, amGet (s.pathState ps).zeroed path = some since → since + 180000 ≤ s.now →
      ∃ t, exec (.pathWeightRestore ps path) s = .next t ∧ (t.pathState ps).weight path = 1)
  ∧ (∀ ticket k e y cause precise ix, amGet s.fabric.tickets ticket = some k → k.owner = .copy e → amGet s.entries e = some y →
      ∃ t y1, exec (.targetFaultAnswer ticket cause precise ix) s = .next t ∧ amGet t.entries e = some y1 ∧ y1.status = 4)

/-- The statement of the pod fabric, and that of the remote fabric. -/
def Obligations.PodFabric : Prop := Claims.PodTiming ∧ Claims.PodForwarding ∧ Claims.PodReception
def Obligations.RemoteFabric : Prop := Claims.RemoteForms ∧ Claims.RemoteTarget ∧ Claims.RemoteInitiator

/-! ### Collectives and reduction cells (R380 to R395) -/

/-- R384, R385: COLL's checks in order, each with its trap; else the group is registered, the operation counts as a tile operation, and the split goes on. -/
def Sys2Proof.Claims.CollIssue : Prop :=
  ∀ (s : State) (g : Group) (sp : Split) (tm : Team) (d a : SReg) (red : BitVec 3) (op tile : BitVec 4), At s g sp → s.team g.team = some tm →
    op.toNat ≤ 4 → red.toNat ≤ 5 → op.toNat ≤ 1 ∨ red = 0 →
    let core := s.sched.core
    let who := s.whoOf core g
    let tw := tileWord tm tile.toNat
    let addr := sp.reg d
    let word := sp.reg a
    let i := Instr.coll d a red op tile
    let trap := fun (c : Byte) (x : DWord) => exec i s = .next (s.trapScalar { Trap.of c with addr := x })
    (bits tw 31 1 = 0 → trap 0x01 0)
    ∧ (bits tw 31 1 = 1 → addr.toNat % 64 ≠ 0 → trap 0x02 addr)
    ∧ (bits tw 31 1 = 1 → addr.toNat % 64 = 0 → word.toNat % 8 ≠ 0 → trap 0x02 word)
    ∧ (bits tw 31 1 = 1 → addr.toNat % 64 = 0 → word.toNat % 8 = 0 → g.memIssued s.sched.split = true →
      (addr.toNat / 2 ^ 24 = 2 ^ 38 → trap 0x04 addr)
      ∧ (∀ s1 b, addr.toNat / 2 ^ 24 ≠ 2 ^ 38 → s.nearLoad who addr 64 = .ok (s1, b) → tm.colls = [] →
        (bits (field b 0 8) 8 16 = 0 ∨ bits (field b 0 8) 8 16 ≤ bits (field b 0 8) 24 16 ∨ bits (field b 0 8) 0 2 = 3 ∨ bits (field b 0 8) 56 8 ≠ 0 → trap 0x04 addr)
        ∧ (recordFits tm (stGet 0 tm.tcfg tile.toNat) op.toNat b = true → op = 1 → rowsOf tw % bits (field b 0 8) 8 16 ≠ 0 → trap 0x01 0)
        ∧ (recordFits tm (stGet 0 tm.tcfg tile.toNat) op.toNat b = true → operatorFits (stGet 0 tm.tcfg tile.toNat) op.toNat red.toNat b = true →
          ∀ pw vw, onePiece s who word 8 .atom pw vw →
          (s.mem.live pw ≠ some .barrier → trap 0x04 word)
          ∧ (s.mem.live pw = some .barrier → g.async.tiles < 4095 → s1.group s.curKey = some g → s1.sched = s.sched → s1.team g.team = some tm → 
            ∃ t g1 c tm1, exec i s = .next t ∧ t.curGroup = some g1 ∧ g1.async = { g.async with tiles := g.async.tiles + 1 }
              ∧ g1.split s.sched.split = some sp.advance ∧ g1.lanes = g.lanes ∧ t.team g.team = some tm1 ∧ tm1.colls = [c] ∧ tm1.tiles = tm.tiles
              ∧ c.tile = tile.toNat ∧ c.op = op.toNat ∧ c.red = red.toNat ∧ c.record = b ∧ c.recAddr = addr ∧ c.word = word ∧ c.started = false
              ∧ (∀ j, nsHas c.joined j = decide (j = g.index))))))

/-- R389, R390, R296: a collective with its outcome and no transfer out completes: the result is in its tile, STATUS and SEQ in its record, its number on the team's
timeline, one arrival on its barrier word, and the groups that joined leave their class; past TIMER without a piece it is SHORT. -/
def Sys2Proof.Claims.CollCompletion : Prop :=
  (∀ (s : State) (k : Nat) (tm : Team) (c : Collective) (rest : List Collective), s.team k = some tm → tm.colls = c :: rest →
    (c.out = none → exec (.collectiveComplete k) s = .next s)
    ∧ (∀ o, c.out = some o → o.status = 1 → (∃ x ∈ s.fabric.tickets, x.2.owner = .coll k) → exec (.collectiveComplete k) s = .next s)
    ∧ (∀ o b pa, c.out = some o → (∀ x ∈ s.fabric.tickets, x.2.owner ≠ .coll k) → s.devRead tm.asid c.recAddr.toNat 64 = some b →
      let tw := tileWord tm c.tile
      let st := o.status + (if o.nan then 256 else 0) + (if o.rerun then 512 else 0) + o.count % 2 ^ 16 * 2 ^ 16
      let s1 := ((s.devWrite tm.asid (c.recAddr.toNat + 28) (bytesOf 2 (BitVec.ofNat 16 (field b 28 2) + 1 : Half).toNat)).devWrite tm.asid (c.recAddr.toNat + 48) (bytesOf 8 st)).devWrite
        tm.asid (c.recAddr.toNat + 56) (bytesOf 8 c.num)
      s1.wordPA tm.asid c.word.toNat .atom = some pa → pa % 8 = 0 → s1.mem.live pa = some .barrier → s1.mem.cu = [] → c.op ≠ 1 → c.tile < 16 → amWf tm.groups = true →
      noWaitOn s (.mem pa) → noWaitOn s (.window (8 * (0x2000 + 32 * tm.core + tm.slot0))) → o.words.length ≤ rowsOf tw * colsOf tw →
      ∀ ph ex p y, s1.wordAt pa = barrierWord ph ex p y → 0 < p → ex < 2 ^ 15 → p < 2 ^ 15 → y < 2 ^ 32 → -(2 ^ 32 : Int) ≤ y →
      ∃ t tm1, exec (.collectiveComplete k) s = .next t ∧ t.team k = some tm1 ∧ tm1.colls = rest
        ∧ t.wordAt pa = flipped ph ex (p - 1) y ∧ (∀ a, outside pa 8 a → t.mem.byte a = s1.mem.byte a)
        ∧ t.windowWord (0x2000 + 32 * tm.core + tm.slot0) = BitVec.ofNat 64 c.num
        ∧ (∀ r n w, r < rowsOf tw → n < colsOf tw → o.words[r * colsOf tw + n]? = some (some w) → tileElem tm1 c.tile r n = w)
        ∧ (∀ r n, r < rowsOf tw → n < colsOf tw → (∀ w, o.words[r * colsOf tw + n]? ≠ some (some w)) → tileElem tm1 c.tile r n = tileElem tm c.tile r n)
        ∧ ∀ ix slot g, amGet tm.groups ix = some slot → (∀ jx, amGet tm.groups jx = some slot → jx = ix) → s.group (gkey tm.core slot) = some g →
            ∃ g1, t.group (gkey tm.core slot) = some g1 ∧ g1.async.tiles = (if nsHas c.joined ix then g.async.tiles - 1 else g.async.tiles) ∧ g1.lanes = g.lanes))
  ∧ (∀ (s : State) (k : Nat) (tm : Team) (c : Collective), s.team k = some tm → tm.colls = [c] →
    let timer := 1800 * (if field c.record 24 2 = 0 then 20 else field c.record 24 2)
    (c.begun = false ∨ c.out ≠ none → exec (.collectiveTimeout k) s = .next s)
    ∧ (c.begun = true → c.out = none → bits (field c.record 0 8) 0 2 ≠ 2 ∨ 2 ≤ c.op →
      (s.now < c.since + timer → exec (.collectiveTimeout k) s = .next s)
      ∧ (c.since + timer ≤ s.now → ∃ t c1 o, exec (.collectiveTimeout k) s = .next t ∧ t.team k = some { tm with colls := [c1] } ∧ c1 = { c with out := some o }
          ∧ o.status = 6 ∧ o.words = [] ∧ t.groups = s.groups ∧ t.mem = s.mem)))

/-- R391 to R394: a contribution to a cell that is not allocated is answered lost; the first of several opens the round; the last answers every leader with what the cell
combined; one of an old round is answered closed, one of another slice busy. A cell's TIMER closes the round. What a leader does with each answer. -/
def Sys2Proof.Claims.ReductionCells : Prop :=
  (∀ (s : State) (die cell : Nat) (c : CellContrib) (k : Ticket) (team : Nat), c.source = s.dev.rank → amGet s.fabric.tickets c.ticket = some k → k.owner = .coll team →
    let key := die * 256 + cell
    let tells := fun (r : CellReply) => ∃ t, exec (.cellContribution die cell c) s = .next t ∧ .event (.cellAnswer team c.slice r) ∈ t.sched.wake
      ∧ amGet t.fabric.tickets c.ticket = none ∧ amGet t.fabric.cells key = amGet s.fabric.cells key ∧ t.mem = s.mem ∧ t.groups = s.groups
    (nsHas s.dev.cells key = false → tells .lost)
    ∧ (nsHas s.dev.cells key = true → amGet s.fabric.cells key = none →
      (1 < c.leaders → ∃ t, exec (.cellContribution die cell c) s = .next t ∧ t.fabric.tickets = s.fabric.tickets ∧ t.mem = s.mem ∧ t.groups = s.groups
        ∧ amGet t.fabric.cells key = some { round := c.round, slice := c.slice, leaders := c.leaders, since := s.now, timer := c.timer, got := [c] })
      ∧ (c.leaders = 1 → ∃ t n, exec (.cellContribution die cell c) s = .next t ∧ .event (.cellAnswer team c.slice (.result c.words 1 n)) ∈ t.sched.wake
        ∧ amGet t.fabric.tickets c.ticket = none))
    ∧ (∀ x, nsHas s.dev.cells key = true → amGet s.fabric.cells key = some x →
      (2 ^ 15 ≤ (c.round - x.round).toNat → tells .closed)
      ∧ (x.got ≠ [] → c.round = x.round → x.slice ≠ c.slice → tells .busy)
      ∧ (x.got ≠ [] → c.round = x.round → x.slice = c.slice → (∀ y ∈ x.got, y.leader ≠ c.leader) → x.got.length + 1 < x.leaders →
          ∃ t, exec (.cellContribution die cell c) s = .next t ∧ amGet t.fabric.cells key = some { x with got := x.got ++ [c] } ∧ t.fabric.tickets = s.fabric.tickets)))
  ∧ (∀ (s : State) (die cell : Nat) (x : CellState), amGet s.fabric.cells (die * 256 + cell) = some x →
    (x.got = [] ∨ s.now < x.since + x.timer * 1800 → exec (.cellTimerExpiry die cell) s = .next s)
    ∧ (∀ c k team, x.got = [c] → x.since + x.timer * 1800 ≤ s.now → c.source = s.dev.rank → amGet s.fabric.tickets c.ticket = some k → k.owner = .coll team →
        ∃ t n, exec (.cellTimerExpiry die cell) s = .next t ∧ amGet t.fabric.cells (die * 256 + cell) = some { x with round := x.round + 1, got := [] }
          ∧ .event (.cellAnswer team c.slice (.short c.words 1 n)) ∈ t.sched.wake ∧ amGet t.fabric.tickets c.ticket = none))
  ∧ (∀ (got : List CellContrib) (n : Nat), (∀ c ∈ got, c.op = 5 ∧ c.opx = 0 ∧ c.words.length = n) → got ≠ [] →
    (cellFold got).1.length = n ∧ ∀ j, j < n → (cellFold got).1[j]? = some (BitVec.ofNat 32 (got.map fun c => ((c.words[j]?).getD 0).toNat).sum))
  ∧ (∀ (s : State) (team slice : Nat) (tm : Team) (c : Collective), s.team team = some tm → tm.colls = [c] →
    let same := fun (t : State) (f : Collective → Prop) => ∃ tm1 c1, t.team team = some tm1 ∧ tm1.colls = [c1] ∧ f c1
    (c.begun = true → c.out = none → amGet c.sent slice ≠ none →
      (∃ t, exec (.cellAnswer team slice .busy) s = .next t ∧ t.groups = s.groups ∧ t.mem = s.mem
        ∧ same t fun c1 => amGet c1.sent slice = none ∧ amGet c1.resend slice = some (s.now + 1800) ∧ c1.answers = c.answers)
      ∧ (∀ r ws n nan, r = .result ws n nan ∨ r = .short ws n nan ∨ r = .closed → ∃ t, exec (.cellAnswer team slice r) s = .next t
        ∧ same t fun c1 => amGet c1.answers slice = some r)
      ∧ (amGet c.rerun slice = none → amGet c.answers slice = none → ∃ t, exec (.cellAnswer team slice .lost) s = .next t
        ∧ same t fun c1 => amGet c1.rerun slice = some s.now))
    ∧ (c.out ≠ none ∨ amGet c.sent slice = none → ∀ r, exec (.cellAnswer team slice r) s = .next s)
    ∧ (∀ at_, amGet c.resend slice = some at_ → c.out = none →
      (s.now < at_ → exec (.cellBusyResend team slice) s = .next s)
      ∧ (at_ ≤ s.now → bits (field c.record 16 8) 0 20 = s.dev.rank → ∃ t con, exec (.cellBusyResend team slice) s = .next t
          ∧ .event (.cellContribution (bits (field c.record 16 8) 20 2) (bits (field c.record 16 8) 32 8 + slice % (bits (field c.record 16 8) 40 8 + 1)) con) ∈ t.sched.wake
          ∧ con.slice = slice ∧ con.round = c.round ∧ con.words = c.sliceWords slice ∧ con.source = s.dev.rank
          ∧ same t fun c1 => amGet c1.sent slice = some s.now ∧ amGet c1.resend slice = none))
    ∧ (c.begun = true → c.out = none → (∀ x ∈ c.sent, s.now < x.2 + 3600 * (if field c.record 24 2 = 0 then 20 else field c.record 24 2)) →
        exec (.cellLostRerun team) s = .next s)
    ∧ (∀ at_, c.begun = true → c.out = none → c.sent = [(slice, at_)] → at_ + 3600 * (if field c.record 24 2 = 0 then 20 else field c.record 24 2) ≤ s.now →
        amGet c.rerun slice = none → amGet c.answers slice = none →
        ∃ t, exec (.cellLostRerun team) s = .next t ∧ same t fun c1 => c1.sent = [] ∧ amGet c1.rerun slice = some s.now))

/-- The statement of collectives. -/
def Obligations.Collectives : Prop := Claims.CollIssue ∧ Claims.CollCompletion ∧ Claims.ReductionCells

/-! ### Encodings, the step, reset, and memory's form -/

/-- R5, R9, R14: decoding the bytes of an instruction's word, laid out with the low byte at the lowest address, gives the instruction back with every operand at every
value its fields hold; so does the opcode table's numbering of the bits. -/
def Obligations.DecodeEncode : Prop :=
  ∀ i : Instr,
    (∀ w : Word, encode i = some (.inl w) → decodeScalarBytes (leBytes 4 w.toNat) = .ok i ∧ decodeTableWord 32 w.toNat = some i)
    ∧ (∀ w : LWord, encode i = some (.inr w) → decodeLaneBytes (leBytes 12 w.toNat) = .ok i ∧ decodeTableWord 96 w.toNat = some i)

/-- R9 to R20: a word that names an instruction is that instruction's word and no other's; a word that is no instruction's word is refused (and raises ILLEGAL). -/
def Obligations.WordsHaveOneMeaning : Prop :=
  (∀ (w : Word) (i : Instr), decodeScalar w = .ok i → encode i = some (.inl w))
  ∧ (∀ (w : LWord) (i : Instr), decodeLane w = .ok i → encode i = some (.inr w))
  ∧ (∀ i j : Instr, encode i ≠ none → encode i = encode j → i = j)

namespace Sys2Proof.Claims

/-- What a step gives after an instruction: what settles in the cycle follows its next state. -/
def settled : Host.Outcome State Fault Refusal → Host.Outcome State Fault Refusal
  | .next t => .next t.settle
  | .fault e => .fault e
  | .refused e => .refused e
/-- The state at a turn of a group's split: one cycle on, the turn taken off the agenda. -/
def atTurn (s : State) (rest : List Turn) (core slot split : Nat) : State :=
  ({ s with now := s.now + 1, sched := { s.sched with agenda := rest } } : State).setCur core slot split
/-- A split of a group may issue: the group runs, the device has not tripped, the split is ready and its PC lies in instruction memory, was not reached past a slot's
end, and names a slot of the given state. -/
structure MayFetch (s : State) (core slot split : Nat) (g : Group) (sp : Split) (st : SlotState) : Prop where
  isGroup : s.group (gkey core slot) = some g
  isSplit : g.split split = some sp
  issues : s.dev.tripped = false
  may : g.splitMay split = true
  notFell : sp.fell = false
  inside : sp.pc.toNat < 2 ^ 18
  aligned : sp.pc.toNat % 4 = 0
  slotState : (s.codeSlot core (pcSlot sp.pc)).state = st

/-- A scalar turn whose PC names a word. -/
def ScalarTurns : Prop :=
  ∀ (s : State) (rest : List Turn) (core slot split : Nat) (g : Group) (sp : Split), s.sched.agenda = .scalar core slot split :: rest →
    (∀ i, MayFetch s core slot split g sp .landed → decodeScalarBytes ((s.core core).codeBytes sp.pc.toNat 4) = .ok i →
      let s1 := (atTurn s rest core slot split).markIssue
      let ready := g.scalarReady split i = true ∧ ¬ (isScalarMem i = true ∧ s.rankHeld core slot split = true)
      (ready → step s = settled (exec i s1)) ∧ (¬ ready → step s = .next s1.settle))
    ∧ (∀ e, MayFetch s core slot split g sp .landed → decodeScalarBytes ((s.core core).codeBytes sp.pc.toNat 4) = .error e →
      step s = .next ((atTurn s rest core slot split).markIssue.trapScalar (Trap.of cIllegal)).settle)
    ∧ (MayFetch s core slot split g sp .empty →
      step s = .next ((atTurn s rest core slot split).markIssue.trapScalar (Trap.at_ cOverlay (BitVec.ofNat 64 (pcSlot sp.pc * 8192)))).settle)
    ∧ (MayFetch s core slot split g sp .loading → step s = .next (atTurn s rest core slot split).markIssue.settle)
    ∧ (s.group (gkey core slot) = some g → g.split split = some sp → s.dev.tripped = false → g.splitMay split = true → sp.fell = true →
      step s = .next ((atTurn s rest core slot split).markIssue.trapScalar (Trap.of cSegment)).settle)
/-- A lane turn. -/
def LaneTurns : Prop :=
  ∀ (s : State) (rest : List Turn) (core slot : Nat) (g : Group) (e : LaneEntry) (q : List LaneEntry), s.sched.agenda = .lane core slot :: rest →
    s.group (gkey core slot) = some g → g.async.laneq = e :: q → s.dev.tripped = false →
    (∀ i, decodeLane e.bits = .ok i → (atTurn s rest core slot 0).laneMay core slot g = true → step s = settled (exec i (atTurn s rest core slot 0)))
    ∧ (∀ x, decodeLane e.bits = .error x → g.running = true → step s = .next ((atTurn s rest core slot 0).trapLane e (Trap.of cIllegal)).settle)

end Sys2Proof.Claims

/-- R9, R14, R20, R176: a turn runs the instruction that the bytes at the PC, or the head of the lane queue, decode to: it advances the clock by a cycle, and what the
instruction does is `exec` of it, followed by what settles. A split whose registers are owed waits; a slot that is loading stalls; an empty slot raises OVERLAY_MISS
with the slot's first address; bytes that decode to nothing raise ILLEGAL; a PC reached past a slot's end raises SEGMENT_CROSS. -/
def Obligations.StepRunsDecoded : Prop := Sys2Proof.Claims.ScalarTurns ∧ Sys2Proof.Claims.LaneTurns

/-- R9 to R19: words written out from the encodings, field by field (opcode or major, registers, immediates), and the instructions they stand for. -/
def Obligations.DecodeWords : Prop :=
  decodeScalar 0b000000_00000_00000_00000_0000000_0000#32 = .ok .nop
  ∧ decodeScalar 0b000000_00000_00000_00000_0101010_0001#32 = .ok (.trap 42)
  ∧ decodeScalar 0b000001_00011_00100_00101_000_000_00001#32 = .ok (.sub 3 4 5)
  ∧ decodeScalar 0b000010_00111_00010_1111111111111111#32 = .ok (.addi 7 2 0xFFFF)
  ∧ decodeScalar 0b001101_11111_00001_0000000000001000#32 = .ok (.ldw 31 1 8)
  ∧ decodeScalar 0b010010_00001_00010_1111111111111110#32 = .ok (.beq 1 2 0xFFFE)
  ∧ decodeScalar 0b010000_00110_00111_01000_0_01_010_1_0011#32 = .ok (.satom 6 7 8 1 2 1 3)
  ∧ decodeScalar 0b101011_00001_00010_00011_0000_0_10_0010#32 = .ok (.arrive 1 2 3 2)
  ∧ decodeScalar 0b101111_00001_00010_00011_01_10_0101_011#32 = .ok (.copy 1 2 3 1 2 5 3)
  ∧ decodeScalar 0b111001_00000_00000_00000_00000000000#32 = .error .reservedMajor
  ∧ decodeScalar 0b000000_00001_00000_00000_0000000_0000#32 = .error .reservedField
  ∧ decodeLane 0b00000000000000000000000000000000_0000000_011_0_1100_1100_001_000_0000000_0001000000_0000001_0000010_1000111_0#96
      = .ok (.fadd { vd := 1, va := 2, vb := 71, vc := 0, pg := 3, pn := 0, td := 12, ta := 12, rm := 1, pl := 0, fn := 0, w2 := 0 })
  ∧ decodeLane 0b10000000000000000000000000000001_0000101_111_1_0111_0111_000_000_0000000_0000000100_0000110_0001000_1111111_0#96
      = .ok (.imad { vd := 6, va := 8, vb := 127, vc := 5, pg := 7, pn := 1, td := 7, ta := 7, rm := 0, pl := 0, fn := 0, w2 := 0x80000001 })
  ∧ decodeLane 0b00000000000000000000000000010000_0000000_000_0_1100_1100_000_011_0000000_0010110000_0000001_1000010_0000011_0#96
      = .ok (.ld { vd := 1, va := 66, vb := 3, vc := 0, pg := 0, pn := 0, td := 12, ta := 12, rm := 0, pl := 3, fn := 0, w2 := 16 })
  ∧ decodeLane 0b00000000000000000000000000000000_0000000_000_0_0000_0000_000_000_0000000_0000011100_0000000_0000000_0000000_0#96
      = .error .reservedOpcode
  ∧ decodeLane 0b00000000000000000000000000000000_0000000_000_0_0000_0000_000_000_0000000_0000000000_0000000_0000000_0000000_1#96
      = .error .reservedField

/-- R151, R162, R175, R210, R334, R343, R422: what device reset leaves. The cycle counter is 0; every core's counters of R151 and the numbers of its matrix and rank
timelines are 0; every queue is empty and without owner, and every attenuation table holds +0 and has none; no line is dirty in an L1; the power cap is 3,200 W; the
boot has not begun, so no group, launch, ring or queue stands; memory lists nothing. -/
def Obligations.ResetLeaves : Prop :=
  State.reset.now = 0
  ∧ (∀ c, let k := State.reset.core c
      k.counters = { issue := 0, useful := 0, late := 0, unused := 0, l1miss := 0 } ∧ k.engines.mtxLast = 0 ∧ k.engines.rankLast = 0
      ∧ k.engines.matq = [] ∧ k.engines.rankq = [] ∧ k.l1.dirty = []
      ∧ (∀ q, amGet k.queues q = none) ∧ ∀ n, State.reset.atten c n = { weights := [], owner := none })
  ∧ (∀ i, stGet 0 (State.reset.atten 0 0).weights i = 0)
  ∧ State.reset.dev.cap = 3200 ∧ State.reset.dev.phase = .off
  ∧ (∀ k, State.reset.group k = none) ∧ State.reset.head.launches = [] ∧ State.reset.head.rings = [] ∧ State.reset.queues = []
  ∧ (∀ a, State.reset.mem.byte a = 0) ∧ (∀ w, stGet (0 : DWord) State.reset.mem.window w = 0)
  ∧ (∀ c, stGet 0 State.reset.dev.counters c = 0)

/-- R298 and log entry 4 (the model's own form of memory): every step keeps package memory in its canonical form: addresses rise, and no listed byte is the one an
unlisted address reads as. -/
def Obligations.StepKeepsMemoryForm : Prop := ∀ s t : State, s.mem.wf = true → step s = .next t → t.mem.wf = true

/-- Log entry 4: package memory is in its canonical form at reset. -/
def Obligations.ResetMemoryForm : Prop := State.reset.mem.wf = true
end

