-- ==== Sys2Proof/Laws/Maps.lean ====
section
/-! SUPPORT. Reads after writes and the canonical form of the two containers. -/
namespace Sys2Proof.Machine

variable {α β : Type}

/-! ### The order of keys -/

theorem amWfFrom_weaken {m : AMap α} {i j : Nat} (h : amWfFrom m (some j) = true) (l : i ≤ j) : amWfFrom m (some i) = true := by
  cases m with
  | nil => rfl
  | cons x m => simp only [amWfFrom, Bool.and_eq_true, decide_eq_true_eq] at h ⊢; exact ⟨by omega, h.2⟩

theorem amWf_of_from {m : AMap α} {j : Nat} (h : amWfFrom m (some j) = true) : amWf m = true := by
  cases m with
  | nil => rfl
  | cons x m => simp only [amWfFrom, Bool.and_eq_true] at h; exact h.2

theorem amWf_cons {x : Nat × α} {m : AMap α} : amWf (x :: m) = amWfFrom m (some x.1) := by
  simp [amWf, amWfFrom]

/-! ### Reads after writes -/

@[simp] theorem amGet_nil (k : Nat) : amGet ([] : AMap α) k = none := rfl
@[simp] theorem amGet_cons (x : Nat × α) (m : AMap α) (k : Nat) : amGet (x :: m) k = if k = x.1 then some x.2 else amGet m k := by
  obtain ⟨j, v⟩ := x
  rfl

theorem amGet_amSet (m : AMap α) (k k1 : Nat) (v : α) : amGet (amSet m k v) k1 = if k1 = k then some v else amGet m k1 := by
  induction m with
  | nil => simp [amSet]
  | cons x m ih =>
    obtain ⟨j, w⟩ := x
    simp only [amSet]
    split
    · subst_vars; simp only [amGet_cons]; split <;> rfl
    · split
      · simp only [amGet_cons]
      · simp only [amGet_cons, ih]
        split
        · rw [if_neg (by omega)]
        · rfl
@[simp] theorem amGet_amSet_same (m : AMap α) (k : Nat) (v : α) : amGet (amSet m k v) k = some v := by simp [amGet_amSet]
theorem amGet_amSet_other (m : AMap α) {k k1 : Nat} (v : α) (h : k1 ≠ k) : amGet (amSet m k v) k1 = amGet m k1 := by
  simp [amGet_amSet, h]

/-- A filter on keys leaves the values of the keys it keeps, and no others. -/
theorem amGet_filter (p : Nat → Bool) (m : AMap α) (k : Nat) : amGet (m.filter fun x => p x.1) k = if p k then amGet m k else none := by
  induction m with
  | nil => simp
  | cons x m ih =>
    by_cases hp : p x.1
    · simp only [List.filter_cons, hp, if_true, amGet_cons, ih]
      split
      · subst_vars; simp [hp]
      · rfl
    · simp only [List.filter_cons, hp, amGet_cons, ih, Bool.false_eq_true, if_false]
      split
      · split
        · subst_vars; contradiction
        · rfl
      · rfl

theorem amDel_eq_filter (m : AMap α) (k : Nat) : amDel m k = m.filter fun x => decide (x.1 ≠ k) := by
  induction m with
  | nil => rfl
  | cons x m ih =>
    obtain ⟨j, w⟩ := x
    simp only [amDel]
    split
    · subst_vars; simp [ih]
    · rw [List.filter_cons_of_pos (by simp; omega), ih]
theorem amGet_amDel (m : AMap α) (k k1 : Nat) : amGet (amDel m k) k1 = if k1 = k then none else amGet m k1 := by
  rw [amDel_eq_filter, amGet_filter (fun j => decide (j ≠ k))]
  split <;> simp_all
@[simp] theorem amGet_amDel_same (m : AMap α) (k : Nat) : amGet (amDel m k) k = none := by simp [amGet_amDel]
theorem amGet_amDel_other (m : AMap α) {k k1 : Nat} (n : k1 ≠ k) : amGet (amDel m k) k1 = amGet m k1 := by simp [amGet_amDel, n]

theorem amGet_amMod (f : α → α) (m : AMap α) (k k1 : Nat) :
    amGet (amMod f m k) k1 = if k1 = k then (amGet m k1).map f else amGet m k1 := by
  induction m with
  | nil => simp [amMod]
  | cons x m ih =>
    obtain ⟨j, w⟩ := x
    simp only [amMod]
    split
    · subst_vars; simp only [amGet_cons]; split <;> rfl
    · simp only [amGet_cons, ih]
      split
      · rw [if_neg (by omega)]
      · rfl
@[simp] theorem amGet_amMod_same (f : α → α) (m : AMap α) (k : Nat) : amGet (amMod f m k) k = (amGet m k).map f := by
  simp [amGet_amMod]
theorem amGet_amMod_other (f : α → α) (m : AMap α) {k k1 : Nat} (h : k1 ≠ k) : amGet (amMod f m k) k1 = amGet m k1 := by
  simp [amGet_amMod, h]
theorem amGet_amMap {β : Type} (f : Nat → α → β) (m : AMap α) (k : Nat) : amGet (amMap f m) k = (amGet m k).map (f k) := by
  induction m with
  | nil => rfl
  | cons x m ih =>
    obtain ⟨j, w⟩ := x
    simp only [amMap, amGet_cons, ih]
    split
    · subst_vars; rfl
    · rfl

theorem stGet_stSet [DecidableEq α] (d : α) (m : Store α) (k k1 : Nat) (v : α) :
    stGet d (stSet d m k v) k1 = if k1 = k then v else stGet d m k1 := by
  simp only [stGet, stSet]
  split
  · subst_vars; rw [amGet_amDel]; split <;> simp_all
  · rw [amGet_amSet]; split <;> simp_all
@[simp] theorem stGet_stSet_same [DecidableEq α] (d : α) (m : Store α) (k : Nat) (v : α) : stGet d (stSet d m k v) k = v := by
  simp [stGet_stSet]
theorem stGet_stSet_other [DecidableEq α] (d : α) (m : Store α) {k k1 : Nat} (n : k1 ≠ k) (v : α) :
    stGet d (stSet d m k v) k1 = stGet d m k1 := by simp [stGet_stSet, n]

/-! ### The canonical form is kept -/

theorem amSet_from {m : AMap α} {j k : Nat} (v : α) (h : amWfFrom m (some j) = true) (l : j < k) :
    amWfFrom (amSet m k v) (some j) = true := by
  induction m generalizing j with
  | nil => simp [amSet, amWfFrom, l]
  | cons x m ih =>
    obtain ⟨i, w⟩ := x
    simp only [amWfFrom, Bool.and_eq_true, decide_eq_true_eq] at h
    simp only [amSet]
    split
    · subst_vars; simp [amWfFrom, h.1, h.2]
    · split
      · simp only [amWfFrom, Bool.and_eq_true, decide_eq_true_eq]; exact ⟨l, by assumption, h.2⟩
      · simp only [amWfFrom, Bool.and_eq_true, decide_eq_true_eq]; exact ⟨h.1, ih h.2 (by omega)⟩

theorem amSet_wf {m : AMap α} (h : amWf m = true) (k : Nat) (v : α) : amWf (amSet m k v) = true := by
  cases m with
  | nil => rfl
  | cons x m =>
    obtain ⟨i, w⟩ := x
    rw [amWf_cons] at h
    simp only [amSet]
    split
    · subst_vars; rw [amWf_cons]; exact h
    · split
      · rw [amWf_cons]; simp only [amWfFrom, Bool.and_eq_true, decide_eq_true_eq]; exact ⟨by assumption, h⟩
      · rw [amWf_cons]; exact amSet_from v h (by simp; omega)

theorem filter_from (p : Nat × α → Bool) {m : AMap α} {j : Nat} (h : amWfFrom m (some j) = true) :
    amWfFrom (m.filter p) (some j) = true := by
  induction m generalizing j with
  | nil => rfl
  | cons x m ih =>
    simp only [amWfFrom, Bool.and_eq_true, decide_eq_true_eq] at h
    simp only [List.filter]
    split
    · simp only [amWfFrom, Bool.and_eq_true, decide_eq_true_eq]; exact ⟨h.1, ih h.2⟩
    · exact ih (amWfFrom_weaken h.2 (by omega))

theorem filter_wf (p : Nat × α → Bool) {m : AMap α} (h : amWf m = true) : amWf (m.filter p) = true := by
  cases m with
  | nil => rfl
  | cons x m =>
    rw [amWf_cons] at h
    simp only [List.filter]
    split
    · rw [amWf_cons]; exact filter_from p h
    · exact amWf_of_from (filter_from p h)

theorem amDel_wf {m : AMap α} (h : amWf m = true) (k : Nat) : amWf (amDel m k) = true := by
  rw [amDel_eq_filter]; exact filter_wf _ h

theorem amDel_all {p : Nat × α → Bool} {m : AMap α} (h : m.all p = true) (k : Nat) : (amDel m k).all p = true := by
  rw [amDel_eq_filter]
  simp only [List.all_eq_true, List.mem_filter] at h ⊢
  exact fun x hx => h x hx.1

theorem amSet_all {p : Nat × α → Bool} {m : AMap α} (h : m.all p = true) {k : Nat} {v : α} (hv : p (k, v) = true) :
    (amSet m k v).all p = true := by
  induction m with
  | nil => simp [amSet, hv]
  | cons x m ih =>
    obtain ⟨j, w⟩ := x
    simp only [List.all_cons, Bool.and_eq_true] at h
    simp only [amSet]
    split
    · simp [hv, h.2]
    · split
      · simp [hv, h.1, h.2]
      · simp [h.1, ih h.2]

/-- A write keeps a store canonical. -/
theorem stSet_wf [DecidableEq α] {d : α} {m : Store α} (h : stWf d m = true) (k : Nat) (v : α) : stWf d (stSet d m k v) = true := by
  simp only [stWf, Bool.and_eq_true] at h ⊢
  simp only [stSet]
  split
  · exact ⟨amDel_wf h.1 k, amDel_all h.2 k⟩
  · exact ⟨amSet_wf h.1 k v, amSet_all h.2 (by simpa using ‹_›)⟩

theorem stWf_filter [DecidableEq α] {d : α} {m : Store α} (p : Nat × α → Bool) (h : stWf d m = true) :
    stWf d (m.filter p) = true := by
  simp only [stWf, Bool.and_eq_true] at h ⊢
  refine ⟨filter_wf p h.1, ?_⟩
  have := h.2
  simp only [List.all_eq_true, List.mem_filter] at this ⊢
  exact fun x hx => this x hx.1

theorem stWf_amWf [DecidableEq α] {d : α} {m : Store α} (h : stWf d m = true) : amWf m = true := by
  simp only [stWf, Bool.and_eq_true] at h; exact h.1

end Sys2Proof.Machine
end

