-- ==== Sys2Proof/Laws/State.lean ====
section
/-! SUPPORT. What each update of State does to each field of it, and what each accessor reads after it. -/
namespace Sys2Proof.Machine

/-! ### putGroup -/

@[simp] theorem State.putGroup_sched (s : State) (k : Nat) (g : Group) : (s.putGroup k g).sched = s.sched := rfl
@[simp] theorem State.putGroup_now (s : State) (k : Nat) (g : Group) : (s.putGroup k g).now = s.now := rfl
@[simp] theorem State.putGroup_mem (s : State) (k : Nat) (g : Group) : (s.putGroup k g).mem = s.mem := rfl
@[simp] theorem State.putGroup_cores (s : State) (k : Nat) (g : Group) : (s.putGroup k g).cores = s.cores := rfl
@[simp] theorem State.putGroup_groups (s : State) (k : Nat) (g : Group) : (s.putGroup k g).groups = amSet s.groups k g := rfl
@[simp] theorem State.putGroup_gens (s : State) (k : Nat) (g : Group) : (s.putGroup k g).gens = s.gens := rfl
@[simp] theorem State.putGroup_serials (s : State) (k : Nat) (g : Group) : (s.putGroup k g).serials = s.serials := rfl
@[simp] theorem State.putGroup_head (s : State) (k : Nat) (g : Group) : (s.putGroup k g).head = s.head := rfl
@[simp] theorem State.putGroup_queues (s : State) (k : Nat) (g : Group) : (s.putGroup k g).queues = s.queues := rfl
@[simp] theorem State.putGroup_nextQueue (s : State) (k : Nat) (g : Group) : (s.putGroup k g).nextQueue = s.nextQueue := rfl
@[simp] theorem State.putGroup_entries (s : State) (k : Nat) (g : Group) : (s.putGroup k g).entries = s.entries := rfl
@[simp] theorem State.putGroup_nextEntry (s : State) (k : Nat) (g : Group) : (s.putGroup k g).nextEntry = s.nextEntry := rfl
@[simp] theorem State.putGroup_dev (s : State) (k : Nat) (g : Group) : (s.putGroup k g).dev = s.dev := rfl
@[simp] theorem State.putGroup_fabric (s : State) (k : Nat) (g : Group) : (s.putGroup k g).fabric = s.fabric := rfl
@[simp] theorem State.putGroup_answers (s : State) (k : Nat) (g : Group) : (s.putGroup k g).answers = s.answers := rfl

/-! ### modGroup -/

@[simp] theorem State.modGroup_sched (s : State) (k : Nat) (f : Group → Group) : (s.modGroup k f).sched = s.sched := rfl
@[simp] theorem State.modGroup_now (s : State) (k : Nat) (f : Group → Group) : (s.modGroup k f).now = s.now := rfl
@[simp] theorem State.modGroup_mem (s : State) (k : Nat) (f : Group → Group) : (s.modGroup k f).mem = s.mem := rfl
@[simp] theorem State.modGroup_cores (s : State) (k : Nat) (f : Group → Group) : (s.modGroup k f).cores = s.cores := rfl
@[simp] theorem State.modGroup_groups (s : State) (k : Nat) (f : Group → Group) : (s.modGroup k f).groups = amMod f s.groups k := rfl
@[simp] theorem State.modGroup_gens (s : State) (k : Nat) (f : Group → Group) : (s.modGroup k f).gens = s.gens := rfl
@[simp] theorem State.modGroup_serials (s : State) (k : Nat) (f : Group → Group) : (s.modGroup k f).serials = s.serials := rfl
@[simp] theorem State.modGroup_head (s : State) (k : Nat) (f : Group → Group) : (s.modGroup k f).head = s.head := rfl
@[simp] theorem State.modGroup_queues (s : State) (k : Nat) (f : Group → Group) : (s.modGroup k f).queues = s.queues := rfl
@[simp] theorem State.modGroup_nextQueue (s : State) (k : Nat) (f : Group → Group) : (s.modGroup k f).nextQueue = s.nextQueue := rfl
@[simp] theorem State.modGroup_entries (s : State) (k : Nat) (f : Group → Group) : (s.modGroup k f).entries = s.entries := rfl
@[simp] theorem State.modGroup_nextEntry (s : State) (k : Nat) (f : Group → Group) : (s.modGroup k f).nextEntry = s.nextEntry := rfl
@[simp] theorem State.modGroup_dev (s : State) (k : Nat) (f : Group → Group) : (s.modGroup k f).dev = s.dev := rfl
@[simp] theorem State.modGroup_fabric (s : State) (k : Nat) (f : Group → Group) : (s.modGroup k f).fabric = s.fabric := rfl
@[simp] theorem State.modGroup_answers (s : State) (k : Nat) (f : Group → Group) : (s.modGroup k f).answers = s.answers := rfl

/-! ### modSplit -/

@[simp] theorem State.modSplit_sched (s : State) (k n : Nat) (f : Split → Split) : (s.modSplit k n f).sched = s.sched := rfl
@[simp] theorem State.modSplit_now (s : State) (k n : Nat) (f : Split → Split) : (s.modSplit k n f).now = s.now := rfl
@[simp] theorem State.modSplit_mem (s : State) (k n : Nat) (f : Split → Split) : (s.modSplit k n f).mem = s.mem := rfl
@[simp] theorem State.modSplit_cores (s : State) (k n : Nat) (f : Split → Split) : (s.modSplit k n f).cores = s.cores := rfl
@[simp] theorem State.modSplit_groups (s : State) (k n : Nat) (f : Split → Split) : (s.modSplit k n f).groups = amMod (fun g => g.modSplit n f) s.groups k := rfl
@[simp] theorem State.modSplit_gens (s : State) (k n : Nat) (f : Split → Split) : (s.modSplit k n f).gens = s.gens := rfl
@[simp] theorem State.modSplit_serials (s : State) (k n : Nat) (f : Split → Split) : (s.modSplit k n f).serials = s.serials := rfl
@[simp] theorem State.modSplit_head (s : State) (k n : Nat) (f : Split → Split) : (s.modSplit k n f).head = s.head := rfl
@[simp] theorem State.modSplit_queues (s : State) (k n : Nat) (f : Split → Split) : (s.modSplit k n f).queues = s.queues := rfl
@[simp] theorem State.modSplit_nextQueue (s : State) (k n : Nat) (f : Split → Split) : (s.modSplit k n f).nextQueue = s.nextQueue := rfl
@[simp] theorem State.modSplit_entries (s : State) (k n : Nat) (f : Split → Split) : (s.modSplit k n f).entries = s.entries := rfl
@[simp] theorem State.modSplit_nextEntry (s : State) (k n : Nat) (f : Split → Split) : (s.modSplit k n f).nextEntry = s.nextEntry := rfl
@[simp] theorem State.modSplit_dev (s : State) (k n : Nat) (f : Split → Split) : (s.modSplit k n f).dev = s.dev := rfl
@[simp] theorem State.modSplit_fabric (s : State) (k n : Nat) (f : Split → Split) : (s.modSplit k n f).fabric = s.fabric := rfl
@[simp] theorem State.modSplit_answers (s : State) (k n : Nat) (f : Split → Split) : (s.modSplit k n f).answers = s.answers := rfl

/-! ### put -/

@[simp] theorem State.put_sched (s : State) (g : Group) (sp : Split) : (s.put g sp).sched = s.sched := rfl
@[simp] theorem State.put_now (s : State) (g : Group) (sp : Split) : (s.put g sp).now = s.now := rfl
@[simp] theorem State.put_mem (s : State) (g : Group) (sp : Split) : (s.put g sp).mem = s.mem := rfl
@[simp] theorem State.put_cores (s : State) (g : Group) (sp : Split) : (s.put g sp).cores = s.cores := rfl
@[simp] theorem State.put_groups (s : State) (g : Group) (sp : Split) : (s.put g sp).groups = amSet s.groups s.curKey (g.putSplit s.sched.split sp) := rfl
@[simp] theorem State.put_gens (s : State) (g : Group) (sp : Split) : (s.put g sp).gens = s.gens := rfl
@[simp] theorem State.put_serials (s : State) (g : Group) (sp : Split) : (s.put g sp).serials = s.serials := rfl
@[simp] theorem State.put_head (s : State) (g : Group) (sp : Split) : (s.put g sp).head = s.head := rfl
@[simp] theorem State.put_queues (s : State) (g : Group) (sp : Split) : (s.put g sp).queues = s.queues := rfl
@[simp] theorem State.put_nextQueue (s : State) (g : Group) (sp : Split) : (s.put g sp).nextQueue = s.nextQueue := rfl
@[simp] theorem State.put_entries (s : State) (g : Group) (sp : Split) : (s.put g sp).entries = s.entries := rfl
@[simp] theorem State.put_nextEntry (s : State) (g : Group) (sp : Split) : (s.put g sp).nextEntry = s.nextEntry := rfl
@[simp] theorem State.put_dev (s : State) (g : Group) (sp : Split) : (s.put g sp).dev = s.dev := rfl
@[simp] theorem State.put_fabric (s : State) (g : Group) (sp : Split) : (s.put g sp).fabric = s.fabric := rfl
@[simp] theorem State.put_answers (s : State) (g : Group) (sp : Split) : (s.put g sp).answers = s.answers := rfl

/-! ### retired -/

@[simp] theorem State.retired_sched (s : State) : (s.retired).sched = s.sched := rfl
@[simp] theorem State.retired_now (s : State) : (s.retired).now = s.now := rfl
@[simp] theorem State.retired_mem (s : State) : (s.retired).mem = s.mem := rfl
@[simp] theorem State.retired_cores (s : State) : (s.retired).cores = s.cores := rfl
@[simp] theorem State.retired_groups (s : State) : (s.retired).groups = amMod (fun g => g.retired s.sched.split) s.groups s.curKey := rfl
@[simp] theorem State.retired_gens (s : State) : (s.retired).gens = s.gens := rfl
@[simp] theorem State.retired_serials (s : State) : (s.retired).serials = s.serials := rfl
@[simp] theorem State.retired_head (s : State) : (s.retired).head = s.head := rfl
@[simp] theorem State.retired_queues (s : State) : (s.retired).queues = s.queues := rfl
@[simp] theorem State.retired_nextQueue (s : State) : (s.retired).nextQueue = s.nextQueue := rfl
@[simp] theorem State.retired_entries (s : State) : (s.retired).entries = s.entries := rfl
@[simp] theorem State.retired_nextEntry (s : State) : (s.retired).nextEntry = s.nextEntry := rfl
@[simp] theorem State.retired_dev (s : State) : (s.retired).dev = s.dev := rfl
@[simp] theorem State.retired_fabric (s : State) : (s.retired).fabric = s.fabric := rfl
@[simp] theorem State.retired_answers (s : State) : (s.retired).answers = s.answers := rfl

/-! ### retireAt -/

@[simp] theorem State.retireAt_sched (s : State) (k n : Nat) : (s.retireAt k n).sched = s.sched := rfl
@[simp] theorem State.retireAt_now (s : State) (k n : Nat) : (s.retireAt k n).now = s.now := rfl
@[simp] theorem State.retireAt_mem (s : State) (k n : Nat) : (s.retireAt k n).mem = s.mem := rfl
@[simp] theorem State.retireAt_cores (s : State) (k n : Nat) : (s.retireAt k n).cores = s.cores := rfl
@[simp] theorem State.retireAt_groups (s : State) (k n : Nat) : (s.retireAt k n).groups = amMod (fun g => g.retired n) s.groups k := rfl
@[simp] theorem State.retireAt_gens (s : State) (k n : Nat) : (s.retireAt k n).gens = s.gens := rfl
@[simp] theorem State.retireAt_serials (s : State) (k n : Nat) : (s.retireAt k n).serials = s.serials := rfl
@[simp] theorem State.retireAt_head (s : State) (k n : Nat) : (s.retireAt k n).head = s.head := rfl
@[simp] theorem State.retireAt_queues (s : State) (k n : Nat) : (s.retireAt k n).queues = s.queues := rfl
@[simp] theorem State.retireAt_nextQueue (s : State) (k n : Nat) : (s.retireAt k n).nextQueue = s.nextQueue := rfl
@[simp] theorem State.retireAt_entries (s : State) (k n : Nat) : (s.retireAt k n).entries = s.entries := rfl
@[simp] theorem State.retireAt_nextEntry (s : State) (k n : Nat) : (s.retireAt k n).nextEntry = s.nextEntry := rfl
@[simp] theorem State.retireAt_dev (s : State) (k n : Nat) : (s.retireAt k n).dev = s.dev := rfl
@[simp] theorem State.retireAt_fabric (s : State) (k n : Nat) : (s.retireAt k n).fabric = s.fabric := rfl
@[simp] theorem State.retireAt_answers (s : State) (k n : Nat) : (s.retireAt k n).answers = s.answers := rfl

/-! ### markIssue -/

@[simp] theorem State.markIssue_sched (s : State) : (s.markIssue).sched = s.sched := rfl
@[simp] theorem State.markIssue_now (s : State) : (s.markIssue).now = s.now := rfl
@[simp] theorem State.markIssue_mem (s : State) : (s.markIssue).mem = s.mem := rfl
@[simp] theorem State.markIssue_cores (s : State) : (s.markIssue).cores = s.cores := rfl
@[simp] theorem State.markIssue_gens (s : State) : (s.markIssue).gens = s.gens := rfl
@[simp] theorem State.markIssue_serials (s : State) : (s.markIssue).serials = s.serials := rfl
@[simp] theorem State.markIssue_head (s : State) : (s.markIssue).head = s.head := rfl
@[simp] theorem State.markIssue_queues (s : State) : (s.markIssue).queues = s.queues := rfl
@[simp] theorem State.markIssue_nextQueue (s : State) : (s.markIssue).nextQueue = s.nextQueue := rfl
@[simp] theorem State.markIssue_entries (s : State) : (s.markIssue).entries = s.entries := rfl
@[simp] theorem State.markIssue_nextEntry (s : State) : (s.markIssue).nextEntry = s.nextEntry := rfl
@[simp] theorem State.markIssue_dev (s : State) : (s.markIssue).dev = s.dev := rfl
@[simp] theorem State.markIssue_fabric (s : State) : (s.markIssue).fabric = s.fabric := rfl
@[simp] theorem State.markIssue_answers (s : State) : (s.markIssue).answers = s.answers := rfl

/-! ### putCore -/

@[simp] theorem State.putCore_sched (s : State) (k : Nat) (c : Core) : (s.putCore k c).sched = s.sched := rfl
@[simp] theorem State.putCore_now (s : State) (k : Nat) (c : Core) : (s.putCore k c).now = s.now := rfl
@[simp] theorem State.putCore_mem (s : State) (k : Nat) (c : Core) : (s.putCore k c).mem = s.mem := rfl
@[simp] theorem State.putCore_cores (s : State) (k : Nat) (c : Core) : (s.putCore k c).cores = amSet s.cores k c := rfl
@[simp] theorem State.putCore_groups (s : State) (k : Nat) (c : Core) : (s.putCore k c).groups = s.groups := rfl
@[simp] theorem State.putCore_gens (s : State) (k : Nat) (c : Core) : (s.putCore k c).gens = s.gens := rfl
@[simp] theorem State.putCore_serials (s : State) (k : Nat) (c : Core) : (s.putCore k c).serials = s.serials := rfl
@[simp] theorem State.putCore_head (s : State) (k : Nat) (c : Core) : (s.putCore k c).head = s.head := rfl
@[simp] theorem State.putCore_queues (s : State) (k : Nat) (c : Core) : (s.putCore k c).queues = s.queues := rfl
@[simp] theorem State.putCore_nextQueue (s : State) (k : Nat) (c : Core) : (s.putCore k c).nextQueue = s.nextQueue := rfl
@[simp] theorem State.putCore_entries (s : State) (k : Nat) (c : Core) : (s.putCore k c).entries = s.entries := rfl
@[simp] theorem State.putCore_nextEntry (s : State) (k : Nat) (c : Core) : (s.putCore k c).nextEntry = s.nextEntry := rfl
@[simp] theorem State.putCore_dev (s : State) (k : Nat) (c : Core) : (s.putCore k c).dev = s.dev := rfl
@[simp] theorem State.putCore_fabric (s : State) (k : Nat) (c : Core) : (s.putCore k c).fabric = s.fabric := rfl
@[simp] theorem State.putCore_answers (s : State) (k : Nat) (c : Core) : (s.putCore k c).answers = s.answers := rfl

/-! ### modCore -/

@[simp] theorem State.modCore_sched (s : State) (k : Nat) (f : Core → Core) : (s.modCore k f).sched = s.sched := rfl
@[simp] theorem State.modCore_now (s : State) (k : Nat) (f : Core → Core) : (s.modCore k f).now = s.now := rfl
@[simp] theorem State.modCore_mem (s : State) (k : Nat) (f : Core → Core) : (s.modCore k f).mem = s.mem := rfl
@[simp] theorem State.modCore_cores (s : State) (k : Nat) (f : Core → Core) : (s.modCore k f).cores = amSet s.cores k (f (s.core k)) := rfl
@[simp] theorem State.modCore_groups (s : State) (k : Nat) (f : Core → Core) : (s.modCore k f).groups = s.groups := rfl
@[simp] theorem State.modCore_gens (s : State) (k : Nat) (f : Core → Core) : (s.modCore k f).gens = s.gens := rfl
@[simp] theorem State.modCore_serials (s : State) (k : Nat) (f : Core → Core) : (s.modCore k f).serials = s.serials := rfl
@[simp] theorem State.modCore_head (s : State) (k : Nat) (f : Core → Core) : (s.modCore k f).head = s.head := rfl
@[simp] theorem State.modCore_queues (s : State) (k : Nat) (f : Core → Core) : (s.modCore k f).queues = s.queues := rfl
@[simp] theorem State.modCore_nextQueue (s : State) (k : Nat) (f : Core → Core) : (s.modCore k f).nextQueue = s.nextQueue := rfl
@[simp] theorem State.modCore_entries (s : State) (k : Nat) (f : Core → Core) : (s.modCore k f).entries = s.entries := rfl
@[simp] theorem State.modCore_nextEntry (s : State) (k : Nat) (f : Core → Core) : (s.modCore k f).nextEntry = s.nextEntry := rfl
@[simp] theorem State.modCore_dev (s : State) (k : Nat) (f : Core → Core) : (s.modCore k f).dev = s.dev := rfl
@[simp] theorem State.modCore_fabric (s : State) (k : Nat) (f : Core → Core) : (s.modCore k f).fabric = s.fabric := rfl
@[simp] theorem State.modCore_answers (s : State) (k : Nat) (f : Core → Core) : (s.modCore k f).answers = s.answers := rfl

/-! ### setCodeSlot -/

@[simp] theorem State.setCodeSlot_sched (s : State) (k n : Nat) (x : CodeSlot) : (s.setCodeSlot k n x).sched = s.sched := rfl
@[simp] theorem State.setCodeSlot_now (s : State) (k n : Nat) (x : CodeSlot) : (s.setCodeSlot k n x).now = s.now := rfl
@[simp] theorem State.setCodeSlot_mem (s : State) (k n : Nat) (x : CodeSlot) : (s.setCodeSlot k n x).mem = s.mem := rfl
@[simp] theorem State.setCodeSlot_groups (s : State) (k n : Nat) (x : CodeSlot) : (s.setCodeSlot k n x).groups = s.groups := rfl
@[simp] theorem State.setCodeSlot_gens (s : State) (k n : Nat) (x : CodeSlot) : (s.setCodeSlot k n x).gens = s.gens := rfl
@[simp] theorem State.setCodeSlot_serials (s : State) (k n : Nat) (x : CodeSlot) : (s.setCodeSlot k n x).serials = s.serials := rfl
@[simp] theorem State.setCodeSlot_head (s : State) (k n : Nat) (x : CodeSlot) : (s.setCodeSlot k n x).head = s.head := rfl
@[simp] theorem State.setCodeSlot_queues (s : State) (k n : Nat) (x : CodeSlot) : (s.setCodeSlot k n x).queues = s.queues := rfl
@[simp] theorem State.setCodeSlot_nextQueue (s : State) (k n : Nat) (x : CodeSlot) : (s.setCodeSlot k n x).nextQueue = s.nextQueue := rfl
@[simp] theorem State.setCodeSlot_entries (s : State) (k n : Nat) (x : CodeSlot) : (s.setCodeSlot k n x).entries = s.entries := rfl
@[simp] theorem State.setCodeSlot_nextEntry (s : State) (k n : Nat) (x : CodeSlot) : (s.setCodeSlot k n x).nextEntry = s.nextEntry := rfl
@[simp] theorem State.setCodeSlot_dev (s : State) (k n : Nat) (x : CodeSlot) : (s.setCodeSlot k n x).dev = s.dev := rfl
@[simp] theorem State.setCodeSlot_fabric (s : State) (k n : Nat) (x : CodeSlot) : (s.setCodeSlot k n x).fabric = s.fabric := rfl
@[simp] theorem State.setCodeSlot_answers (s : State) (k n : Nat) (x : CodeSlot) : (s.setCodeSlot k n x).answers = s.answers := rfl

/-! ### modTeam -/

@[simp] theorem State.modTeam_sched (s : State) (k : Nat) (f : Team → Team) : (s.modTeam k f).sched = s.sched := rfl
@[simp] theorem State.modTeam_now (s : State) (k : Nat) (f : Team → Team) : (s.modTeam k f).now = s.now := rfl
@[simp] theorem State.modTeam_mem (s : State) (k : Nat) (f : Team → Team) : (s.modTeam k f).mem = s.mem := rfl
@[simp] theorem State.modTeam_cores (s : State) (k : Nat) (f : Team → Team) : (s.modTeam k f).cores = s.cores := rfl
@[simp] theorem State.modTeam_groups (s : State) (k : Nat) (f : Team → Team) : (s.modTeam k f).groups = s.groups := rfl
@[simp] theorem State.modTeam_gens (s : State) (k : Nat) (f : Team → Team) : (s.modTeam k f).gens = s.gens := rfl
@[simp] theorem State.modTeam_serials (s : State) (k : Nat) (f : Team → Team) : (s.modTeam k f).serials = s.serials := rfl
@[simp] theorem State.modTeam_queues (s : State) (k : Nat) (f : Team → Team) : (s.modTeam k f).queues = s.queues := rfl
@[simp] theorem State.modTeam_nextQueue (s : State) (k : Nat) (f : Team → Team) : (s.modTeam k f).nextQueue = s.nextQueue := rfl
@[simp] theorem State.modTeam_entries (s : State) (k : Nat) (f : Team → Team) : (s.modTeam k f).entries = s.entries := rfl
@[simp] theorem State.modTeam_nextEntry (s : State) (k : Nat) (f : Team → Team) : (s.modTeam k f).nextEntry = s.nextEntry := rfl
@[simp] theorem State.modTeam_dev (s : State) (k : Nat) (f : Team → Team) : (s.modTeam k f).dev = s.dev := rfl
@[simp] theorem State.modTeam_fabric (s : State) (k : Nat) (f : Team → Team) : (s.modTeam k f).fabric = s.fabric := rfl
@[simp] theorem State.modTeam_answers (s : State) (k : Nat) (f : Team → Team) : (s.modTeam k f).answers = s.answers := rfl

/-! ### modLaunch -/

@[simp] theorem State.modLaunch_sched (s : State) (k : Nat) (f : Launch → Launch) : (s.modLaunch k f).sched = s.sched := rfl
@[simp] theorem State.modLaunch_now (s : State) (k : Nat) (f : Launch → Launch) : (s.modLaunch k f).now = s.now := rfl
@[simp] theorem State.modLaunch_mem (s : State) (k : Nat) (f : Launch → Launch) : (s.modLaunch k f).mem = s.mem := rfl
@[simp] theorem State.modLaunch_cores (s : State) (k : Nat) (f : Launch → Launch) : (s.modLaunch k f).cores = s.cores := rfl
@[simp] theorem State.modLaunch_groups (s : State) (k : Nat) (f : Launch → Launch) : (s.modLaunch k f).groups = s.groups := rfl
@[simp] theorem State.modLaunch_gens (s : State) (k : Nat) (f : Launch → Launch) : (s.modLaunch k f).gens = s.gens := rfl
@[simp] theorem State.modLaunch_serials (s : State) (k : Nat) (f : Launch → Launch) : (s.modLaunch k f).serials = s.serials := rfl
@[simp] theorem State.modLaunch_queues (s : State) (k : Nat) (f : Launch → Launch) : (s.modLaunch k f).queues = s.queues := rfl
@[simp] theorem State.modLaunch_nextQueue (s : State) (k : Nat) (f : Launch → Launch) : (s.modLaunch k f).nextQueue = s.nextQueue := rfl
@[simp] theorem State.modLaunch_entries (s : State) (k : Nat) (f : Launch → Launch) : (s.modLaunch k f).entries = s.entries := rfl
@[simp] theorem State.modLaunch_nextEntry (s : State) (k : Nat) (f : Launch → Launch) : (s.modLaunch k f).nextEntry = s.nextEntry := rfl
@[simp] theorem State.modLaunch_dev (s : State) (k : Nat) (f : Launch → Launch) : (s.modLaunch k f).dev = s.dev := rfl
@[simp] theorem State.modLaunch_fabric (s : State) (k : Nat) (f : Launch → Launch) : (s.modLaunch k f).fabric = s.fabric := rfl
@[simp] theorem State.modLaunch_answers (s : State) (k : Nat) (f : Launch → Launch) : (s.modLaunch k f).answers = s.answers := rfl

/-! ### modHead -/

@[simp] theorem State.modHead_sched (s : State) (f : Masthead → Masthead) : (s.modHead f).sched = s.sched := rfl
@[simp] theorem State.modHead_now (s : State) (f : Masthead → Masthead) : (s.modHead f).now = s.now := rfl
@[simp] theorem State.modHead_mem (s : State) (f : Masthead → Masthead) : (s.modHead f).mem = s.mem := rfl
@[simp] theorem State.modHead_cores (s : State) (f : Masthead → Masthead) : (s.modHead f).cores = s.cores := rfl
@[simp] theorem State.modHead_groups (s : State) (f : Masthead → Masthead) : (s.modHead f).groups = s.groups := rfl
@[simp] theorem State.modHead_gens (s : State) (f : Masthead → Masthead) : (s.modHead f).gens = s.gens := rfl
@[simp] theorem State.modHead_serials (s : State) (f : Masthead → Masthead) : (s.modHead f).serials = s.serials := rfl
@[simp] theorem State.modHead_head (s : State) (f : Masthead → Masthead) : (s.modHead f).head = f s.head := rfl
@[simp] theorem State.modHead_queues (s : State) (f : Masthead → Masthead) : (s.modHead f).queues = s.queues := rfl
@[simp] theorem State.modHead_nextQueue (s : State) (f : Masthead → Masthead) : (s.modHead f).nextQueue = s.nextQueue := rfl
@[simp] theorem State.modHead_entries (s : State) (f : Masthead → Masthead) : (s.modHead f).entries = s.entries := rfl
@[simp] theorem State.modHead_nextEntry (s : State) (f : Masthead → Masthead) : (s.modHead f).nextEntry = s.nextEntry := rfl
@[simp] theorem State.modHead_dev (s : State) (f : Masthead → Masthead) : (s.modHead f).dev = s.dev := rfl
@[simp] theorem State.modHead_fabric (s : State) (f : Masthead → Masthead) : (s.modHead f).fabric = s.fabric := rfl
@[simp] theorem State.modHead_answers (s : State) (f : Masthead → Masthead) : (s.modHead f).answers = s.answers := rfl

/-! ### modMem -/

@[simp] theorem State.modMem_sched (s : State) (f : Mem → Mem) : (s.modMem f).sched = s.sched := rfl
@[simp] theorem State.modMem_now (s : State) (f : Mem → Mem) : (s.modMem f).now = s.now := rfl
@[simp] theorem State.modMem_mem (s : State) (f : Mem → Mem) : (s.modMem f).mem = f s.mem := rfl
@[simp] theorem State.modMem_cores (s : State) (f : Mem → Mem) : (s.modMem f).cores = s.cores := rfl
@[simp] theorem State.modMem_groups (s : State) (f : Mem → Mem) : (s.modMem f).groups = s.groups := rfl
@[simp] theorem State.modMem_gens (s : State) (f : Mem → Mem) : (s.modMem f).gens = s.gens := rfl
@[simp] theorem State.modMem_serials (s : State) (f : Mem → Mem) : (s.modMem f).serials = s.serials := rfl
@[simp] theorem State.modMem_head (s : State) (f : Mem → Mem) : (s.modMem f).head = s.head := rfl
@[simp] theorem State.modMem_queues (s : State) (f : Mem → Mem) : (s.modMem f).queues = s.queues := rfl
@[simp] theorem State.modMem_nextQueue (s : State) (f : Mem → Mem) : (s.modMem f).nextQueue = s.nextQueue := rfl
@[simp] theorem State.modMem_entries (s : State) (f : Mem → Mem) : (s.modMem f).entries = s.entries := rfl
@[simp] theorem State.modMem_nextEntry (s : State) (f : Mem → Mem) : (s.modMem f).nextEntry = s.nextEntry := rfl
@[simp] theorem State.modMem_dev (s : State) (f : Mem → Mem) : (s.modMem f).dev = s.dev := rfl
@[simp] theorem State.modMem_fabric (s : State) (f : Mem → Mem) : (s.modMem f).fabric = s.fabric := rfl
@[simp] theorem State.modMem_answers (s : State) (f : Mem → Mem) : (s.modMem f).answers = s.answers := rfl

/-! ### modDev -/

@[simp] theorem State.modDev_sched (s : State) (f : Device → Device) : (s.modDev f).sched = s.sched := rfl
@[simp] theorem State.modDev_now (s : State) (f : Device → Device) : (s.modDev f).now = s.now := rfl
@[simp] theorem State.modDev_mem (s : State) (f : Device → Device) : (s.modDev f).mem = s.mem := rfl
@[simp] theorem State.modDev_cores (s : State) (f : Device → Device) : (s.modDev f).cores = s.cores := rfl
@[simp] theorem State.modDev_groups (s : State) (f : Device → Device) : (s.modDev f).groups = s.groups := rfl
@[simp] theorem State.modDev_gens (s : State) (f : Device → Device) : (s.modDev f).gens = s.gens := rfl
@[simp] theorem State.modDev_serials (s : State) (f : Device → Device) : (s.modDev f).serials = s.serials := rfl
@[simp] theorem State.modDev_head (s : State) (f : Device → Device) : (s.modDev f).head = s.head := rfl
@[simp] theorem State.modDev_queues (s : State) (f : Device → Device) : (s.modDev f).queues = s.queues := rfl
@[simp] theorem State.modDev_nextQueue (s : State) (f : Device → Device) : (s.modDev f).nextQueue = s.nextQueue := rfl
@[simp] theorem State.modDev_entries (s : State) (f : Device → Device) : (s.modDev f).entries = s.entries := rfl
@[simp] theorem State.modDev_nextEntry (s : State) (f : Device → Device) : (s.modDev f).nextEntry = s.nextEntry := rfl
@[simp] theorem State.modDev_dev (s : State) (f : Device → Device) : (s.modDev f).dev = f s.dev := rfl
@[simp] theorem State.modDev_fabric (s : State) (f : Device → Device) : (s.modDev f).fabric = s.fabric := rfl
@[simp] theorem State.modDev_answers (s : State) (f : Device → Device) : (s.modDev f).answers = s.answers := rfl

/-! ### modFab -/

@[simp] theorem State.modFab_sched (s : State) (f : Fabric → Fabric) : (s.modFab f).sched = s.sched := rfl
@[simp] theorem State.modFab_now (s : State) (f : Fabric → Fabric) : (s.modFab f).now = s.now := rfl
@[simp] theorem State.modFab_mem (s : State) (f : Fabric → Fabric) : (s.modFab f).mem = s.mem := rfl
@[simp] theorem State.modFab_cores (s : State) (f : Fabric → Fabric) : (s.modFab f).cores = s.cores := rfl
@[simp] theorem State.modFab_groups (s : State) (f : Fabric → Fabric) : (s.modFab f).groups = s.groups := rfl
@[simp] theorem State.modFab_gens (s : State) (f : Fabric → Fabric) : (s.modFab f).gens = s.gens := rfl
@[simp] theorem State.modFab_serials (s : State) (f : Fabric → Fabric) : (s.modFab f).serials = s.serials := rfl
@[simp] theorem State.modFab_head (s : State) (f : Fabric → Fabric) : (s.modFab f).head = s.head := rfl
@[simp] theorem State.modFab_queues (s : State) (f : Fabric → Fabric) : (s.modFab f).queues = s.queues := rfl
@[simp] theorem State.modFab_nextQueue (s : State) (f : Fabric → Fabric) : (s.modFab f).nextQueue = s.nextQueue := rfl
@[simp] theorem State.modFab_entries (s : State) (f : Fabric → Fabric) : (s.modFab f).entries = s.entries := rfl
@[simp] theorem State.modFab_nextEntry (s : State) (f : Fabric → Fabric) : (s.modFab f).nextEntry = s.nextEntry := rfl
@[simp] theorem State.modFab_dev (s : State) (f : Fabric → Fabric) : (s.modFab f).dev = s.dev := rfl
@[simp] theorem State.modFab_fabric (s : State) (f : Fabric → Fabric) : (s.modFab f).fabric = f s.fabric := rfl
@[simp] theorem State.modFab_answers (s : State) (f : Fabric → Fabric) : (s.modFab f).answers = s.answers := rfl

/-! ### bumpGen -/

@[simp] theorem State.bumpGen_sched (s : State) (k : Nat) : (s.bumpGen k).sched = s.sched := rfl
@[simp] theorem State.bumpGen_now (s : State) (k : Nat) : (s.bumpGen k).now = s.now := rfl
@[simp] theorem State.bumpGen_mem (s : State) (k : Nat) : (s.bumpGen k).mem = s.mem := rfl
@[simp] theorem State.bumpGen_cores (s : State) (k : Nat) : (s.bumpGen k).cores = s.cores := rfl
@[simp] theorem State.bumpGen_groups (s : State) (k : Nat) : (s.bumpGen k).groups = s.groups := rfl
@[simp] theorem State.bumpGen_gens (s : State) (k : Nat) : (s.bumpGen k).gens = stSet 0 s.gens k (s.gen k + 1) := rfl
@[simp] theorem State.bumpGen_serials (s : State) (k : Nat) : (s.bumpGen k).serials = s.serials := rfl
@[simp] theorem State.bumpGen_head (s : State) (k : Nat) : (s.bumpGen k).head = s.head := rfl
@[simp] theorem State.bumpGen_queues (s : State) (k : Nat) : (s.bumpGen k).queues = s.queues := rfl
@[simp] theorem State.bumpGen_nextQueue (s : State) (k : Nat) : (s.bumpGen k).nextQueue = s.nextQueue := rfl
@[simp] theorem State.bumpGen_entries (s : State) (k : Nat) : (s.bumpGen k).entries = s.entries := rfl
@[simp] theorem State.bumpGen_nextEntry (s : State) (k : Nat) : (s.bumpGen k).nextEntry = s.nextEntry := rfl
@[simp] theorem State.bumpGen_dev (s : State) (k : Nat) : (s.bumpGen k).dev = s.dev := rfl
@[simp] theorem State.bumpGen_fabric (s : State) (k : Nat) : (s.bumpGen k).fabric = s.fabric := rfl
@[simp] theorem State.bumpGen_answers (s : State) (k : Nat) : (s.bumpGen k).answers = s.answers := rfl

/-! ### usedFree -/

@[simp] theorem State.usedFree_now (s : State) : (s.usedFree).now = s.now := rfl
@[simp] theorem State.usedFree_mem (s : State) : (s.usedFree).mem = s.mem := rfl
@[simp] theorem State.usedFree_cores (s : State) : (s.usedFree).cores = s.cores := rfl
@[simp] theorem State.usedFree_groups (s : State) : (s.usedFree).groups = s.groups := rfl
@[simp] theorem State.usedFree_gens (s : State) : (s.usedFree).gens = s.gens := rfl
@[simp] theorem State.usedFree_serials (s : State) : (s.usedFree).serials = s.serials := rfl
@[simp] theorem State.usedFree_head (s : State) : (s.usedFree).head = s.head := rfl
@[simp] theorem State.usedFree_queues (s : State) : (s.usedFree).queues = s.queues := rfl
@[simp] theorem State.usedFree_nextQueue (s : State) : (s.usedFree).nextQueue = s.nextQueue := rfl
@[simp] theorem State.usedFree_entries (s : State) : (s.usedFree).entries = s.entries := rfl
@[simp] theorem State.usedFree_nextEntry (s : State) : (s.usedFree).nextEntry = s.nextEntry := rfl
@[simp] theorem State.usedFree_dev (s : State) : (s.usedFree).dev = s.dev := rfl
@[simp] theorem State.usedFree_fabric (s : State) : (s.usedFree).fabric = s.fabric := rfl
@[simp] theorem State.usedFree_answers (s : State) : (s.usedFree).answers = s.answers := rfl

/-! ### setCur -/

@[simp] theorem State.setCur_now (s : State) (c n k : Nat) : (s.setCur c n k).now = s.now := rfl
@[simp] theorem State.setCur_mem (s : State) (c n k : Nat) : (s.setCur c n k).mem = s.mem := rfl
@[simp] theorem State.setCur_cores (s : State) (c n k : Nat) : (s.setCur c n k).cores = s.cores := rfl
@[simp] theorem State.setCur_groups (s : State) (c n k : Nat) : (s.setCur c n k).groups = s.groups := rfl
@[simp] theorem State.setCur_gens (s : State) (c n k : Nat) : (s.setCur c n k).gens = s.gens := rfl
@[simp] theorem State.setCur_serials (s : State) (c n k : Nat) : (s.setCur c n k).serials = s.serials := rfl
@[simp] theorem State.setCur_head (s : State) (c n k : Nat) : (s.setCur c n k).head = s.head := rfl
@[simp] theorem State.setCur_queues (s : State) (c n k : Nat) : (s.setCur c n k).queues = s.queues := rfl
@[simp] theorem State.setCur_nextQueue (s : State) (c n k : Nat) : (s.setCur c n k).nextQueue = s.nextQueue := rfl
@[simp] theorem State.setCur_entries (s : State) (c n k : Nat) : (s.setCur c n k).entries = s.entries := rfl
@[simp] theorem State.setCur_nextEntry (s : State) (c n k : Nat) : (s.setCur c n k).nextEntry = s.nextEntry := rfl
@[simp] theorem State.setCur_dev (s : State) (c n k : Nat) : (s.setCur c n k).dev = s.dev := rfl
@[simp] theorem State.setCur_fabric (s : State) (c n k : Nat) : (s.setCur c n k).fabric = s.fabric := rfl
@[simp] theorem State.setCur_answers (s : State) (c n k : Nat) : (s.setCur c n k).answers = s.answers := rfl

/-! ### wakeUp -/

@[simp] theorem State.wakeUp_now (s : State) (i : Instr) : (s.wakeUp i).now = s.now := by unfold State.wakeUp; split <;> rfl
@[simp] theorem State.wakeUp_mem (s : State) (i : Instr) : (s.wakeUp i).mem = s.mem := by unfold State.wakeUp; split <;> rfl
@[simp] theorem State.wakeUp_cores (s : State) (i : Instr) : (s.wakeUp i).cores = s.cores := by unfold State.wakeUp; split <;> rfl
@[simp] theorem State.wakeUp_groups (s : State) (i : Instr) : (s.wakeUp i).groups = s.groups := by unfold State.wakeUp; split <;> rfl
@[simp] theorem State.wakeUp_gens (s : State) (i : Instr) : (s.wakeUp i).gens = s.gens := by unfold State.wakeUp; split <;> rfl
@[simp] theorem State.wakeUp_serials (s : State) (i : Instr) : (s.wakeUp i).serials = s.serials := by unfold State.wakeUp; split <;> rfl
@[simp] theorem State.wakeUp_head (s : State) (i : Instr) : (s.wakeUp i).head = s.head := by unfold State.wakeUp; split <;> rfl
@[simp] theorem State.wakeUp_queues (s : State) (i : Instr) : (s.wakeUp i).queues = s.queues := by unfold State.wakeUp; split <;> rfl
@[simp] theorem State.wakeUp_nextQueue (s : State) (i : Instr) : (s.wakeUp i).nextQueue = s.nextQueue := by unfold State.wakeUp; split <;> rfl
@[simp] theorem State.wakeUp_entries (s : State) (i : Instr) : (s.wakeUp i).entries = s.entries := by unfold State.wakeUp; split <;> rfl
@[simp] theorem State.wakeUp_nextEntry (s : State) (i : Instr) : (s.wakeUp i).nextEntry = s.nextEntry := by unfold State.wakeUp; split <;> rfl
@[simp] theorem State.wakeUp_dev (s : State) (i : Instr) : (s.wakeUp i).dev = s.dev := by unfold State.wakeUp; split <;> rfl
@[simp] theorem State.wakeUp_fabric (s : State) (i : Instr) : (s.wakeUp i).fabric = s.fabric := by unfold State.wakeUp; split <;> rfl
@[simp] theorem State.wakeUp_answers (s : State) (i : Instr) : (s.wakeUp i).answers = s.answers := by unfold State.wakeUp; split <;> rfl
@[simp] theorem State.wakeUp_sched_core (s : State) (i : Instr) : (s.wakeUp i).sched.core = s.sched.core := by
  unfold State.wakeUp; split <;> rfl
@[simp] theorem State.wakeUp_sched_slot (s : State) (i : Instr) : (s.wakeUp i).sched.slot = s.sched.slot := by
  unfold State.wakeUp; split <;> rfl
@[simp] theorem State.wakeUp_sched_split (s : State) (i : Instr) : (s.wakeUp i).sched.split = s.sched.split := by
  unfold State.wakeUp; split <;> rfl
@[simp] theorem State.wakeUp_sched_free (s : State) (i : Instr) : (s.wakeUp i).sched.free = s.sched.free := by
  unfold State.wakeUp; split <;> rfl
@[simp] theorem State.wakeUp_sched_agenda (s : State) (i : Instr) : (s.wakeUp i).sched.agenda = s.sched.agenda := by
  unfold State.wakeUp; split <;> rfl
@[simp] theorem State.wakeUp_sched_rotor (s : State) (i : Instr) : (s.wakeUp i).sched.rotor = s.sched.rotor := by
  unfold State.wakeUp; split <;> rfl
@[simp] theorem State.wakeUp_sched_flip (s : State) (i : Instr) : (s.wakeUp i).sched.flip = s.sched.flip := by
  unfold State.wakeUp; split <;> rfl
@[simp] theorem State.wakeUp_curKey (s : State) (i : Instr) : (s.wakeUp i).curKey = s.curKey := by
  unfold State.wakeUp; split <;> rfl

/-! ### The executing group and split -/

@[simp] theorem State.setCur_core (s : State) (c n k : Nat) : (s.setCur c n k).sched.core = c := rfl
@[simp] theorem State.setCur_slot (s : State) (c n k : Nat) : (s.setCur c n k).sched.slot = n := rfl
@[simp] theorem State.setCur_split (s : State) (c n k : Nat) : (s.setCur c n k).sched.split = k := rfl
@[simp] theorem State.setCur_curKey (s : State) (c n k : Nat) : (s.setCur c n k).curKey = gkey c n := rfl
@[simp] theorem State.put_curKey (s : State) (g : Group) (sp : Split) : (s.put g sp).curKey = s.curKey := rfl
@[simp] theorem State.putGroup_curKey (s : State) (k : Nat) (g : Group) : (s.putGroup k g).curKey = s.curKey := rfl
@[simp] theorem State.modGroup_curKey (s : State) (k : Nat) (f : Group → Group) : (s.modGroup k f).curKey = s.curKey := rfl
@[simp] theorem State.retired_curKey (s : State) : s.retired.curKey = s.curKey := rfl
@[simp] theorem State.modMem_curKey (s : State) (f : Mem → Mem) : (s.modMem f).curKey = s.curKey := rfl
@[simp] theorem State.modCore_curKey (s : State) (k : Nat) (f : Core → Core) : (s.modCore k f).curKey = s.curKey := rfl

@[simp] theorem State.group_putGroup (s : State) (k : Nat) (g : Group) : (s.putGroup k g).group k = some g :=
  amGet_amSet_same ..
theorem State.group_putGroup_other (s : State) {k j : Nat} (g : Group) (h : j ≠ k) : (s.putGroup k g).group j = s.group j :=
  amGet_amSet_other _ _ h
@[simp] theorem State.group_modGroup (s : State) (k : Nat) (f : Group → Group) : (s.modGroup k f).group k = (s.group k).map f :=
  amGet_amMod_same ..
theorem State.group_modGroup_other (s : State) {k j : Nat} (f : Group → Group) (h : j ≠ k) : (s.modGroup k f).group j = s.group j :=
  amGet_amMod_other _ _ h
@[simp] theorem State.curGroup_put (s : State) (g : Group) (sp : Split) :
    (s.put g sp).curGroup = some (g.putSplit s.sched.split sp) := State.group_putGroup ..
@[simp] theorem State.curGroup_retired (s : State) : s.retired.curGroup = s.curGroup.map fun g => g.retired s.sched.split :=
  State.group_modGroup ..
@[simp] theorem State.core_putCore (s : State) (k : Nat) (c : Core) : (s.putCore k c).core k = c := by
  simp [State.core, State.putCore]
theorem State.core_putCore_other (s : State) {k j : Nat} (c : Core) (h : j ≠ k) : (s.putCore k c).core j = s.core j := by
  simp [State.core, State.putCore, amGet_amSet_other _ _ h]

/-! ### Groups and splits -/

@[simp] theorem Group.split_putSplit (g : Group) (k : Nat) (sp : Split) : (g.putSplit k sp).split k = some sp :=
  amGet_amSet_same ..
theorem Group.split_putSplit_other (g : Group) {k j : Nat} (sp : Split) (h : j ≠ k) : (g.putSplit k sp).split j = g.split j :=
  amGet_amSet_other _ _ h
@[simp] theorem Group.split_modSplit (g : Group) (k : Nat) (f : Split → Split) : (g.modSplit k f).split k = (g.split k).map f :=
  amGet_amMod_same ..
theorem Group.split_modSplit_other (g : Group) {k j : Nat} (f : Split → Split) (h : j ≠ k) : (g.modSplit k f).split j = g.split j :=
  amGet_amMod_other _ _ h
@[simp] theorem Group.split_retired (g : Group) (k j : Nat) : (g.retired k).split j = g.split j := rfl

@[simp] theorem Group.putSplit_launch (g : Group) (k : Nat) (sp : Split) : (g.putSplit k sp).launch = g.launch := rfl
@[simp] theorem Group.putSplit_node (g : Group) (k : Nat) (sp : Split) : (g.putSplit k sp).node = g.node := rfl
@[simp] theorem Group.putSplit_team (g : Group) (k : Nat) (sp : Split) : (g.putSplit k sp).team = g.team := rfl
@[simp] theorem Group.putSplit_index (g : Group) (k : Nat) (sp : Split) : (g.putSplit k sp).index = g.index := rfl
@[simp] theorem Group.putSplit_teamIndex (g : Group) (k : Nat) (sp : Split) : (g.putSplit k sp).teamIndex = g.teamIndex := rfl
@[simp] theorem Group.putSplit_size (g : Group) (k : Nat) (sp : Split) : (g.putSplit k sp).size = g.size := rfl
@[simp] theorem Group.putSplit_diverge (g : Group) (k : Nat) (sp : Split) : (g.putSplit k sp).diverge = g.diverge := rfl
@[simp] theorem Group.putSplit_lanes (g : Group) (k : Nat) (sp : Split) : (g.putSplit k sp).lanes = g.lanes := rfl
@[simp] theorem Group.putSplit_trap (g : Group) (k : Nat) (sp : Split) : (g.putSplit k sp).trap = g.trap := rfl
@[simp] theorem Group.putSplit_csrs (g : Group) (k : Nat) (sp : Split) : (g.putSplit k sp).csrs = g.csrs := rfl
@[simp] theorem Group.putSplit_async (g : Group) (k : Nat) (sp : Split) : (g.putSplit k sp).async = g.async := rfl
@[simp] theorem Group.putSplit_ctl (g : Group) (k : Nat) (sp : Split) : (g.putSplit k sp).ctl = g.ctl := rfl
@[simp] theorem Group.modSplit_launch (g : Group) (k : Nat) (f : Split → Split) : (g.modSplit k f).launch = g.launch := rfl
@[simp] theorem Group.modSplit_node (g : Group) (k : Nat) (f : Split → Split) : (g.modSplit k f).node = g.node := rfl
@[simp] theorem Group.modSplit_team (g : Group) (k : Nat) (f : Split → Split) : (g.modSplit k f).team = g.team := rfl
@[simp] theorem Group.modSplit_index (g : Group) (k : Nat) (f : Split → Split) : (g.modSplit k f).index = g.index := rfl
@[simp] theorem Group.modSplit_teamIndex (g : Group) (k : Nat) (f : Split → Split) : (g.modSplit k f).teamIndex = g.teamIndex := rfl
@[simp] theorem Group.modSplit_size (g : Group) (k : Nat) (f : Split → Split) : (g.modSplit k f).size = g.size := rfl
@[simp] theorem Group.modSplit_diverge (g : Group) (k : Nat) (f : Split → Split) : (g.modSplit k f).diverge = g.diverge := rfl
@[simp] theorem Group.modSplit_lanes (g : Group) (k : Nat) (f : Split → Split) : (g.modSplit k f).lanes = g.lanes := rfl
@[simp] theorem Group.modSplit_trap (g : Group) (k : Nat) (f : Split → Split) : (g.modSplit k f).trap = g.trap := rfl
@[simp] theorem Group.modSplit_csrs (g : Group) (k : Nat) (f : Split → Split) : (g.modSplit k f).csrs = g.csrs := rfl
@[simp] theorem Group.modSplit_async (g : Group) (k : Nat) (f : Split → Split) : (g.modSplit k f).async = g.async := rfl
@[simp] theorem Group.modSplit_ctl (g : Group) (k : Nat) (f : Split → Split) : (g.modSplit k f).ctl = g.ctl := rfl
@[simp] theorem Group.modAsync_launch (g : Group) (f : Async → Async) : (g.modAsync f).launch = g.launch := rfl
@[simp] theorem Group.modAsync_node (g : Group) (f : Async → Async) : (g.modAsync f).node = g.node := rfl
@[simp] theorem Group.modAsync_team (g : Group) (f : Async → Async) : (g.modAsync f).team = g.team := rfl
@[simp] theorem Group.modAsync_index (g : Group) (f : Async → Async) : (g.modAsync f).index = g.index := rfl
@[simp] theorem Group.modAsync_teamIndex (g : Group) (f : Async → Async) : (g.modAsync f).teamIndex = g.teamIndex := rfl
@[simp] theorem Group.modAsync_size (g : Group) (f : Async → Async) : (g.modAsync f).size = g.size := rfl
@[simp] theorem Group.modAsync_diverge (g : Group) (f : Async → Async) : (g.modAsync f).diverge = g.diverge := rfl
@[simp] theorem Group.modAsync_lanes (g : Group) (f : Async → Async) : (g.modAsync f).lanes = g.lanes := rfl
@[simp] theorem Group.modAsync_trap (g : Group) (f : Async → Async) : (g.modAsync f).trap = g.trap := rfl
@[simp] theorem Group.modAsync_csrs (g : Group) (f : Async → Async) : (g.modAsync f).csrs = g.csrs := rfl
@[simp] theorem Group.modAsync_ctl (g : Group) (f : Async → Async) : (g.modAsync f).ctl = g.ctl := rfl
@[simp] theorem Group.modAsync_splits (g : Group) (f : Async → Async) : (g.modAsync f).splits = g.splits := rfl
@[simp] theorem Group.modCtl_launch (g : Group) (f : Control → Control) : (g.modCtl f).launch = g.launch := rfl
@[simp] theorem Group.modCtl_node (g : Group) (f : Control → Control) : (g.modCtl f).node = g.node := rfl
@[simp] theorem Group.modCtl_team (g : Group) (f : Control → Control) : (g.modCtl f).team = g.team := rfl
@[simp] theorem Group.modCtl_index (g : Group) (f : Control → Control) : (g.modCtl f).index = g.index := rfl
@[simp] theorem Group.modCtl_teamIndex (g : Group) (f : Control → Control) : (g.modCtl f).teamIndex = g.teamIndex := rfl
@[simp] theorem Group.modCtl_size (g : Group) (f : Control → Control) : (g.modCtl f).size = g.size := rfl
@[simp] theorem Group.modCtl_diverge (g : Group) (f : Control → Control) : (g.modCtl f).diverge = g.diverge := rfl
@[simp] theorem Group.modCtl_lanes (g : Group) (f : Control → Control) : (g.modCtl f).lanes = g.lanes := rfl
@[simp] theorem Group.modCtl_trap (g : Group) (f : Control → Control) : (g.modCtl f).trap = g.trap := rfl
@[simp] theorem Group.modCtl_csrs (g : Group) (f : Control → Control) : (g.modCtl f).csrs = g.csrs := rfl
@[simp] theorem Group.modCtl_async (g : Group) (f : Control → Control) : (g.modCtl f).async = g.async := rfl
@[simp] theorem Group.modCtl_splits (g : Group) (f : Control → Control) : (g.modCtl f).splits = g.splits := rfl
@[simp] theorem Group.modCsrs_launch (g : Group) (f : GroupCsrs → GroupCsrs) : (g.modCsrs f).launch = g.launch := rfl
@[simp] theorem Group.modCsrs_node (g : Group) (f : GroupCsrs → GroupCsrs) : (g.modCsrs f).node = g.node := rfl
@[simp] theorem Group.modCsrs_team (g : Group) (f : GroupCsrs → GroupCsrs) : (g.modCsrs f).team = g.team := rfl
@[simp] theorem Group.modCsrs_index (g : Group) (f : GroupCsrs → GroupCsrs) : (g.modCsrs f).index = g.index := rfl
@[simp] theorem Group.modCsrs_teamIndex (g : Group) (f : GroupCsrs → GroupCsrs) : (g.modCsrs f).teamIndex = g.teamIndex := rfl
@[simp] theorem Group.modCsrs_size (g : Group) (f : GroupCsrs → GroupCsrs) : (g.modCsrs f).size = g.size := rfl
@[simp] theorem Group.modCsrs_diverge (g : Group) (f : GroupCsrs → GroupCsrs) : (g.modCsrs f).diverge = g.diverge := rfl
@[simp] theorem Group.modCsrs_lanes (g : Group) (f : GroupCsrs → GroupCsrs) : (g.modCsrs f).lanes = g.lanes := rfl
@[simp] theorem Group.modCsrs_trap (g : Group) (f : GroupCsrs → GroupCsrs) : (g.modCsrs f).trap = g.trap := rfl
@[simp] theorem Group.modCsrs_async (g : Group) (f : GroupCsrs → GroupCsrs) : (g.modCsrs f).async = g.async := rfl
@[simp] theorem Group.modCsrs_ctl (g : Group) (f : GroupCsrs → GroupCsrs) : (g.modCsrs f).ctl = g.ctl := rfl
@[simp] theorem Group.modCsrs_splits (g : Group) (f : GroupCsrs → GroupCsrs) : (g.modCsrs f).splits = g.splits := rfl
@[simp] theorem Group.modTrap_launch (g : Group) (f : TrapCsrs → TrapCsrs) : (g.modTrap f).launch = g.launch := rfl
@[simp] theorem Group.modTrap_node (g : Group) (f : TrapCsrs → TrapCsrs) : (g.modTrap f).node = g.node := rfl
@[simp] theorem Group.modTrap_team (g : Group) (f : TrapCsrs → TrapCsrs) : (g.modTrap f).team = g.team := rfl
@[simp] theorem Group.modTrap_index (g : Group) (f : TrapCsrs → TrapCsrs) : (g.modTrap f).index = g.index := rfl
@[simp] theorem Group.modTrap_teamIndex (g : Group) (f : TrapCsrs → TrapCsrs) : (g.modTrap f).teamIndex = g.teamIndex := rfl
@[simp] theorem Group.modTrap_size (g : Group) (f : TrapCsrs → TrapCsrs) : (g.modTrap f).size = g.size := rfl
@[simp] theorem Group.modTrap_diverge (g : Group) (f : TrapCsrs → TrapCsrs) : (g.modTrap f).diverge = g.diverge := rfl
@[simp] theorem Group.modTrap_lanes (g : Group) (f : TrapCsrs → TrapCsrs) : (g.modTrap f).lanes = g.lanes := rfl
@[simp] theorem Group.modTrap_csrs (g : Group) (f : TrapCsrs → TrapCsrs) : (g.modTrap f).csrs = g.csrs := rfl
@[simp] theorem Group.modTrap_async (g : Group) (f : TrapCsrs → TrapCsrs) : (g.modTrap f).async = g.async := rfl
@[simp] theorem Group.modTrap_ctl (g : Group) (f : TrapCsrs → TrapCsrs) : (g.modTrap f).ctl = g.ctl := rfl
@[simp] theorem Group.modTrap_splits (g : Group) (f : TrapCsrs → TrapCsrs) : (g.modTrap f).splits = g.splits := rfl
@[simp] theorem Group.raise_launch (g : Group) (a : BitVec 5) (b : BitVec 2) : (g.raise a b).launch = g.launch := rfl
@[simp] theorem Group.raise_node (g : Group) (a : BitVec 5) (b : BitVec 2) : (g.raise a b).node = g.node := rfl
@[simp] theorem Group.raise_team (g : Group) (a : BitVec 5) (b : BitVec 2) : (g.raise a b).team = g.team := rfl
@[simp] theorem Group.raise_index (g : Group) (a : BitVec 5) (b : BitVec 2) : (g.raise a b).index = g.index := rfl
@[simp] theorem Group.raise_teamIndex (g : Group) (a : BitVec 5) (b : BitVec 2) : (g.raise a b).teamIndex = g.teamIndex := rfl
@[simp] theorem Group.raise_size (g : Group) (a : BitVec 5) (b : BitVec 2) : (g.raise a b).size = g.size := rfl
@[simp] theorem Group.raise_diverge (g : Group) (a : BitVec 5) (b : BitVec 2) : (g.raise a b).diverge = g.diverge := rfl
@[simp] theorem Group.raise_lanes (g : Group) (a : BitVec 5) (b : BitVec 2) : (g.raise a b).lanes = g.lanes := rfl
@[simp] theorem Group.raise_trap (g : Group) (a : BitVec 5) (b : BitVec 2) : (g.raise a b).trap = g.trap := rfl
@[simp] theorem Group.raise_async (g : Group) (a : BitVec 5) (b : BitVec 2) : (g.raise a b).async = g.async := rfl
@[simp] theorem Group.raise_ctl (g : Group) (a : BitVec 5) (b : BitVec 2) : (g.raise a b).ctl = g.ctl := rfl
@[simp] theorem Group.raise_splits (g : Group) (a : BitVec 5) (b : BitVec 2) : (g.raise a b).splits = g.splits := rfl
@[simp] theorem Group.setSlot_launch (g : Group) (k i : Nat) (v : Word) : (g.setSlot k i v).launch = g.launch := rfl
@[simp] theorem Group.setSlot_node (g : Group) (k i : Nat) (v : Word) : (g.setSlot k i v).node = g.node := rfl
@[simp] theorem Group.setSlot_team (g : Group) (k i : Nat) (v : Word) : (g.setSlot k i v).team = g.team := rfl
@[simp] theorem Group.setSlot_index (g : Group) (k i : Nat) (v : Word) : (g.setSlot k i v).index = g.index := rfl
@[simp] theorem Group.setSlot_teamIndex (g : Group) (k i : Nat) (v : Word) : (g.setSlot k i v).teamIndex = g.teamIndex := rfl
@[simp] theorem Group.setSlot_size (g : Group) (k i : Nat) (v : Word) : (g.setSlot k i v).size = g.size := rfl
@[simp] theorem Group.setSlot_diverge (g : Group) (k i : Nat) (v : Word) : (g.setSlot k i v).diverge = g.diverge := rfl
@[simp] theorem Group.setSlot_trap (g : Group) (k i : Nat) (v : Word) : (g.setSlot k i v).trap = g.trap := rfl
@[simp] theorem Group.setSlot_csrs (g : Group) (k i : Nat) (v : Word) : (g.setSlot k i v).csrs = g.csrs := rfl
@[simp] theorem Group.setSlot_async (g : Group) (k i : Nat) (v : Word) : (g.setSlot k i v).async = g.async := rfl
@[simp] theorem Group.setSlot_ctl (g : Group) (k i : Nat) (v : Word) : (g.setSlot k i v).ctl = g.ctl := rfl
@[simp] theorem Group.setSlot_splits (g : Group) (k i : Nat) (v : Word) : (g.setSlot k i v).splits = g.splits := rfl
@[simp] theorem Group.setP_launch (g : Group) (k : Nat) (m : LaneMask) : (g.setP k m).launch = g.launch := rfl
@[simp] theorem Group.setP_node (g : Group) (k : Nat) (m : LaneMask) : (g.setP k m).node = g.node := rfl
@[simp] theorem Group.setP_team (g : Group) (k : Nat) (m : LaneMask) : (g.setP k m).team = g.team := rfl
@[simp] theorem Group.setP_index (g : Group) (k : Nat) (m : LaneMask) : (g.setP k m).index = g.index := rfl
@[simp] theorem Group.setP_teamIndex (g : Group) (k : Nat) (m : LaneMask) : (g.setP k m).teamIndex = g.teamIndex := rfl
@[simp] theorem Group.setP_size (g : Group) (k : Nat) (m : LaneMask) : (g.setP k m).size = g.size := rfl
@[simp] theorem Group.setP_diverge (g : Group) (k : Nat) (m : LaneMask) : (g.setP k m).diverge = g.diverge := rfl
@[simp] theorem Group.setP_trap (g : Group) (k : Nat) (m : LaneMask) : (g.setP k m).trap = g.trap := rfl
@[simp] theorem Group.setP_csrs (g : Group) (k : Nat) (m : LaneMask) : (g.setP k m).csrs = g.csrs := rfl
@[simp] theorem Group.setP_async (g : Group) (k : Nat) (m : LaneMask) : (g.setP k m).async = g.async := rfl
@[simp] theorem Group.setP_ctl (g : Group) (k : Nat) (m : LaneMask) : (g.setP k m).ctl = g.ctl := rfl
@[simp] theorem Group.setP_splits (g : Group) (k : Nat) (m : LaneMask) : (g.setP k m).splits = g.splits := rfl
@[simp] theorem Group.setL_launch (g : Group) (k : Nat) (m : LaneMask) : (g.setL k m).launch = g.launch := rfl
@[simp] theorem Group.setL_node (g : Group) (k : Nat) (m : LaneMask) : (g.setL k m).node = g.node := rfl
@[simp] theorem Group.setL_team (g : Group) (k : Nat) (m : LaneMask) : (g.setL k m).team = g.team := rfl
@[simp] theorem Group.setL_index (g : Group) (k : Nat) (m : LaneMask) : (g.setL k m).index = g.index := rfl
@[simp] theorem Group.setL_teamIndex (g : Group) (k : Nat) (m : LaneMask) : (g.setL k m).teamIndex = g.teamIndex := rfl
@[simp] theorem Group.setL_size (g : Group) (k : Nat) (m : LaneMask) : (g.setL k m).size = g.size := rfl
@[simp] theorem Group.setL_diverge (g : Group) (k : Nat) (m : LaneMask) : (g.setL k m).diverge = g.diverge := rfl
@[simp] theorem Group.setL_trap (g : Group) (k : Nat) (m : LaneMask) : (g.setL k m).trap = g.trap := rfl
@[simp] theorem Group.setL_csrs (g : Group) (k : Nat) (m : LaneMask) : (g.setL k m).csrs = g.csrs := rfl
@[simp] theorem Group.setL_async (g : Group) (k : Nat) (m : LaneMask) : (g.setL k m).async = g.async := rfl
@[simp] theorem Group.setL_ctl (g : Group) (k : Nat) (m : LaneMask) : (g.setL k m).ctl = g.ctl := rfl
@[simp] theorem Group.setL_splits (g : Group) (k : Nat) (m : LaneMask) : (g.setL k m).splits = g.splits := rfl
@[simp] theorem Group.setPred_launch (g : Group) (p : Nat) (m : LaneMask) : (g.setPred p m).launch = g.launch := by
  unfold Group.setPred; split <;> rfl
@[simp] theorem Group.setPred_node (g : Group) (p : Nat) (m : LaneMask) : (g.setPred p m).node = g.node := by
  unfold Group.setPred; split <;> rfl
@[simp] theorem Group.setPred_team (g : Group) (p : Nat) (m : LaneMask) : (g.setPred p m).team = g.team := by
  unfold Group.setPred; split <;> rfl
@[simp] theorem Group.setPred_index (g : Group) (p : Nat) (m : LaneMask) : (g.setPred p m).index = g.index := by
  unfold Group.setPred; split <;> rfl
@[simp] theorem Group.setPred_teamIndex (g : Group) (p : Nat) (m : LaneMask) : (g.setPred p m).teamIndex = g.teamIndex := by
  unfold Group.setPred; split <;> rfl
@[simp] theorem Group.setPred_size (g : Group) (p : Nat) (m : LaneMask) : (g.setPred p m).size = g.size := by
  unfold Group.setPred; split <;> rfl
@[simp] theorem Group.setPred_diverge (g : Group) (p : Nat) (m : LaneMask) : (g.setPred p m).diverge = g.diverge := by
  unfold Group.setPred; split <;> rfl
@[simp] theorem Group.setPred_trap (g : Group) (p : Nat) (m : LaneMask) : (g.setPred p m).trap = g.trap := by
  unfold Group.setPred; split <;> rfl
@[simp] theorem Group.setPred_csrs (g : Group) (p : Nat) (m : LaneMask) : (g.setPred p m).csrs = g.csrs := by
  unfold Group.setPred; split <;> rfl
@[simp] theorem Group.setPred_async (g : Group) (p : Nat) (m : LaneMask) : (g.setPred p m).async = g.async := by
  unfold Group.setPred; split <;> rfl
@[simp] theorem Group.setPred_ctl (g : Group) (p : Nat) (m : LaneMask) : (g.setPred p m).ctl = g.ctl := by
  unfold Group.setPred; split <;> rfl
@[simp] theorem Group.setPred_splits (g : Group) (p : Nat) (m : LaneMask) : (g.setPred p m).splits = g.splits := by
  unfold Group.setPred; split <;> rfl

@[simp] theorem Group.modAsync_async (g : Group) (f : Async → Async) : (g.modAsync f).async = f g.async := rfl
@[simp] theorem Group.modCtl_ctl (g : Group) (f : Control → Control) : (g.modCtl f).ctl = f g.ctl := rfl
@[simp] theorem Group.modCsrs_csrs (g : Group) (f : GroupCsrs → GroupCsrs) : (g.modCsrs f).csrs = f g.csrs := rfl
@[simp] theorem Group.modTrap_trap (g : Group) (f : TrapCsrs → TrapCsrs) : (g.modTrap f).trap = f g.trap := rfl
@[simp] theorem Group.raise_none (g : Group) : g.raise 0 0 = g := by simp [Group.raise]

/-! ### Scalar registers -/

/-- s0 reads zero (R9). -/
@[simp] theorem Split.reg_zero (sp : Split) : sp.reg 0 = 0 := rfl
/-- A write of s0 is discarded (R9). -/
@[simp] theorem Split.setReg_zero (sp : Split) (v : DWord) : sp.setReg 0 v = sp := rfl
theorem Split.reg_setReg_same (sp : Split) {r : SReg} (v : DWord) (h : r ≠ 0) :
    (sp.setReg r v).reg r = v := by
  simp only [Split.reg, Split.setReg, if_neg h]; exact stGet_stSet_same _ _ _ _
theorem Split.reg_setReg_other (sp : Split) {r q : SReg} (v : DWord) (h : q ≠ r) :
    (sp.setReg r v).reg q = sp.reg q := by
  simp only [Split.reg, Split.setReg]
  split
  · rfl
  · split
    · rfl
    · exact stGet_stSet_other _ _ (fun e => h (BitVec.eq_of_toNat_eq e)) _

@[simp] theorem Split.setReg_pc (sp : Split) (r : SReg) (v : DWord) : (sp.setReg r v).pc = sp.pc := by
  unfold Split.setReg; split <;> rfl
@[simp] theorem Split.setReg_fell (sp : Split) (r : SReg) (v : DWord) : (sp.setReg r v).fell = sp.fell := by
  unfold Split.setReg; split <;> rfl
@[simp] theorem Split.setReg_lp (sp : Split) (r : SReg) (v : DWord) : (sp.setReg r v).lp = sp.lp := by
  unfold Split.setReg; split <;> rfl
@[simp] theorem Split.setReg_wb (sp : Split) (r : SReg) (v : DWord) : (sp.setReg r v).wb = sp.wb := by
  unfold Split.setReg; split <;> rfl
@[simp] theorem Split.setReg_cbits (sp : Split) (r : SReg) (v : DWord) : (sp.setReg r v).cbits = sp.cbits := by
  unfold Split.setReg; split <;> rfl
@[simp] theorem Split.setReg_mask (sp : Split) (r : SReg) (v : DWord) : (sp.setReg r v).mask = sp.mask := by
  unfold Split.setReg; split <;> rfl
@[simp] theorem Split.setReg_status (sp : Split) (r : SReg) (v : DWord) : (sp.setReg r v).status = sp.status := by
  unfold Split.setReg; split <;> rfl
@[simp] theorem Split.setReg_lastIssue (sp : Split) (r : SReg) (v : DWord) : (sp.setReg r v).lastIssue = sp.lastIssue := by
  unfold Split.setReg; split <;> rfl
@[simp] theorem Split.setReg_runs (sp : Split) (r : SReg) (v : DWord) : (sp.setReg r v).runs = sp.runs := by
  unfold Split.setReg; split <;> rfl
@[simp] theorem Split.setReg_naps (sp : Split) (r : SReg) (v : DWord) : (sp.setReg r v).naps = sp.naps := by
  unfold Split.setReg; split <;> rfl
@[simp] theorem Split.setReg_pstall (sp : Split) (r : SReg) (v : DWord) : (sp.setReg r v).pstall = sp.pstall := by
  unfold Split.setReg; split <;> rfl
@[simp] theorem Split.setReg_copy (sp : Split) (r : SReg) (v : DWord) : (sp.setReg r v).copy = sp.copy := by
  unfold Split.setReg; split <;> rfl
@[simp] theorem Split.setCbit_pc (sp : Split) (n : BitVec 3) (b : Bool) : (sp.setCbit n b).pc = sp.pc := rfl
@[simp] theorem Split.setCbit_fell (sp : Split) (n : BitVec 3) (b : Bool) : (sp.setCbit n b).fell = sp.fell := rfl
@[simp] theorem Split.advance_lp (sp : Split) : sp.advance.lp = sp.lp := rfl
@[simp] theorem Split.goto_lp (sp : Split) (t : DWord) : (sp.goto t).lp = sp.lp := rfl
@[simp] theorem Split.setCbit_lp (sp : Split) (n : BitVec 3) (b : Bool) : (sp.setCbit n b).lp = sp.lp := rfl
@[simp] theorem Split.advance_wb (sp : Split) : sp.advance.wb = sp.wb := rfl
@[simp] theorem Split.goto_wb (sp : Split) (t : DWord) : (sp.goto t).wb = sp.wb := rfl
@[simp] theorem Split.setCbit_wb (sp : Split) (n : BitVec 3) (b : Bool) : (sp.setCbit n b).wb = sp.wb := rfl
@[simp] theorem Split.advance_sregs (sp : Split) : sp.advance.sregs = sp.sregs := rfl
@[simp] theorem Split.goto_sregs (sp : Split) (t : DWord) : (sp.goto t).sregs = sp.sregs := rfl
@[simp] theorem Split.setCbit_sregs (sp : Split) (n : BitVec 3) (b : Bool) : (sp.setCbit n b).sregs = sp.sregs := rfl
@[simp] theorem Split.advance_cbits (sp : Split) : sp.advance.cbits = sp.cbits := rfl
@[simp] theorem Split.goto_cbits (sp : Split) (t : DWord) : (sp.goto t).cbits = sp.cbits := rfl
@[simp] theorem Split.advance_mask (sp : Split) : sp.advance.mask = sp.mask := rfl
@[simp] theorem Split.goto_mask (sp : Split) (t : DWord) : (sp.goto t).mask = sp.mask := rfl
@[simp] theorem Split.setCbit_mask (sp : Split) (n : BitVec 3) (b : Bool) : (sp.setCbit n b).mask = sp.mask := rfl
@[simp] theorem Split.advance_status (sp : Split) : sp.advance.status = sp.status := rfl
@[simp] theorem Split.goto_status (sp : Split) (t : DWord) : (sp.goto t).status = sp.status := rfl
@[simp] theorem Split.setCbit_status (sp : Split) (n : BitVec 3) (b : Bool) : (sp.setCbit n b).status = sp.status := rfl
@[simp] theorem Split.advance_lastIssue (sp : Split) : sp.advance.lastIssue = sp.lastIssue := rfl
@[simp] theorem Split.goto_lastIssue (sp : Split) (t : DWord) : (sp.goto t).lastIssue = sp.lastIssue := rfl
@[simp] theorem Split.setCbit_lastIssue (sp : Split) (n : BitVec 3) (b : Bool) : (sp.setCbit n b).lastIssue = sp.lastIssue := rfl
@[simp] theorem Split.advance_runs (sp : Split) : sp.advance.runs = sp.runs := rfl
@[simp] theorem Split.goto_runs (sp : Split) (t : DWord) : (sp.goto t).runs = sp.runs := rfl
@[simp] theorem Split.setCbit_runs (sp : Split) (n : BitVec 3) (b : Bool) : (sp.setCbit n b).runs = sp.runs := rfl
@[simp] theorem Split.advance_naps (sp : Split) : sp.advance.naps = sp.naps := rfl
@[simp] theorem Split.goto_naps (sp : Split) (t : DWord) : (sp.goto t).naps = sp.naps := rfl
@[simp] theorem Split.setCbit_naps (sp : Split) (n : BitVec 3) (b : Bool) : (sp.setCbit n b).naps = sp.naps := rfl
@[simp] theorem Split.advance_pstall (sp : Split) : sp.advance.pstall = sp.pstall := rfl
@[simp] theorem Split.goto_pstall (sp : Split) (t : DWord) : (sp.goto t).pstall = sp.pstall := rfl
@[simp] theorem Split.setCbit_pstall (sp : Split) (n : BitVec 3) (b : Bool) : (sp.setCbit n b).pstall = sp.pstall := rfl
@[simp] theorem Split.advance_copy (sp : Split) : sp.advance.copy = sp.copy := rfl
@[simp] theorem Split.goto_copy (sp : Split) (t : DWord) : (sp.goto t).copy = sp.copy := rfl
@[simp] theorem Split.setCbit_copy (sp : Split) (n : BitVec 3) (b : Bool) : (sp.setCbit n b).copy = sp.copy := rfl
@[simp] theorem Split.advance_pc (sp : Split) : sp.advance.pc = sp.pc + 4 := rfl
@[simp] theorem Split.goto_pc (sp : Split) (t : DWord) : (sp.goto t).pc = t := rfl
@[simp] theorem Split.goto_fell (sp : Split) (t : DWord) : (sp.goto t).fell = false := rfl
@[simp] theorem Split.reg_advance (sp : Split) (r : SReg) : sp.advance.reg r = sp.reg r := rfl
@[simp] theorem Split.reg_goto (sp : Split) (t : DWord) (r : SReg) : (sp.goto t).reg r = sp.reg r := rfl

end Sys2Proof.Machine
end

