-- ==== Sys2Proof/Laws/Memory.lean ====
section
/-! SUPPORT. What the operations over package memory and the L1s read, write, and leave alone. -/
namespace Sys2Proof.Machine

/-! ### Lists of numbers and bytes -/

theorem mem_upFrom {lo n k : Nat} : k ∈ upFrom lo n ↔ lo ≤ k ∧ k < lo + n := by
  induction n generalizing lo with
  | zero => simp [upFrom]
  | succ n ih => simp only [upFrom, List.mem_cons, ih]; omega
@[simp] theorem upFrom_length (lo n : Nat) : (upFrom lo n).length = n := by
  induction n generalizing lo with
  | zero => rfl
  | succ n ih => simp [upFrom, ih]
theorem upFrom_getElem? {lo n i : Nat} (h : i < n) : (upFrom lo n)[i]? = some (lo + i) := by
  induction n generalizing lo i with
  | zero => omega
  | succ n ih =>
    cases i with
    | zero => rfl
    | succ i => simp only [upFrom, List.getElem?_cons_succ]; rw [ih (by omega)]; congr 1; omega
@[simp] theorem leBytes_length (k n : Nat) : (leBytes k n).length = k := by
  induction k generalizing n with
  | zero => rfl
  | succ k ih => simp [leBytes, ih]
@[simp] theorem bytesOf_length (k n : Nat) : (bytesOf k n).length = k := leBytes_length k n

/-! ### Bytes of package memory -/

theorem Mem.byte_setByte (m : Mem) (pa k : Nat) (b : Byte) : (m.setByte pa b).byte k = if k = pa then b else m.byte k := by
  simp only [Mem.byte, Mem.setByte, stGet_stSet]
theorem Mem.byte_setBytes (m : Mem) (pa k : Nat) (bs : List Byte) :
    (m.setBytes pa bs).byte k = if pa ≤ k ∧ k < pa + bs.length then bs.getD (k - pa) 0 else m.byte k := by
  induction bs generalizing m pa with
  | nil => simp only [Mem.setBytes, List.length_nil]; rw [if_neg (by omega)]
  | cons b bs ih =>
    simp only [Mem.setBytes, ih, Mem.byte_setByte, List.length_cons]
    by_cases h : k = pa
    · subst h
      rw [if_neg (by omega), if_pos rfl, if_pos ⟨Nat.le_refl _, by omega⟩]
      simp
    · by_cases h2 : pa + 1 ≤ k ∧ k < pa + 1 + bs.length
      · rw [if_pos h2, if_pos (by omega)]
        obtain ⟨j, hj⟩ : ∃ j, k - pa = j + 1 := ⟨k - pa - 1, by omega⟩
        have : k - (pa + 1) = j := by omega
        rw [hj, this]
        rfl
      · rw [if_neg h2, if_neg h, if_neg (by omega)]
/-- Writing bytes changes nothing of memory but the bytes. -/
theorem Mem.setBytes_same {α : Type} (q : Mem → α) (hq : ∀ (m : Mem) (h : Store Byte), q { m with hbm := h } = q m) (m : Mem) (pa : Nat)
    (bs : List Byte) : q (m.setBytes pa bs) = q m := by
  induction bs generalizing m pa with
  | nil => rfl
  | cons b bs ih => simp only [Mem.setBytes, ih, Mem.setByte, hq]
@[simp] theorem Mem.setBytes_cu (m : Mem) (pa : Nat) (bs : List Byte) : (m.setBytes pa bs).cu = m.cu :=
  Mem.setBytes_same Mem.cu (fun _ _ => rfl) m pa bs
@[simp] theorem Mem.setBytes_sync (m : Mem) (pa : Nat) (bs : List Byte) : (m.setBytes pa bs).sync = m.sync :=
  Mem.setBytes_same Mem.sync (fun _ _ => rfl) m pa bs

/-! ### Recalls: a line that is not in the commutative-update state stays as it is (R261) -/

theorem Mem.recall_none {m : Mem} {line : Nat} (h : amGet m.cu line = none) : m.recall line = m := by simp [Mem.recall, h]
theorem Mem.recall_nil {m : Mem} (h : m.cu = []) (line : Nat) : m.recall line = m := Mem.recall_none (by simp [h])
theorem foldl_id {α β : Type} {f : α → β → α} {a : α} (l : List β) (h : ∀ b, f a b = a) : l.foldl f a = a := by
  induction l with
  | nil => rfl
  | cons b l ih => simp [h, ih]
theorem Mem.recallRange_nil {m : Mem} (h : m.cu = []) (pa n : Nat) : m.recallRange pa n = m := by
  simp only [Mem.recallRange]
  split
  · rfl
  · exact foldl_id _ (Mem.recall_nil h)
theorem Mem.homeRead_nil {m : Mem} (h : m.cu = []) (pa n : Nat) : m.homeRead pa n = (m, m.bytes pa n) := by
  simp [Mem.homeRead, Mem.recallRange_nil h]
/-- A write at the home: the bytes, and nothing else of package memory (R256). -/
theorem Mem.byte_homeWrite {m : Mem} (h : m.cu = []) (pa k : Nat) (bs : List Byte) :
    (m.homeWrite pa bs).byte k = if pa ≤ k ∧ k < pa + bs.length then bs.getD (k - pa) 0 else m.byte k := by
  simp only [Mem.homeWrite, Mem.recallRange_nil h]
  exact Mem.byte_setBytes m pa k bs
theorem Mem.homeWrite_sync {m : Mem} (h : m.cu = []) (pa : Nat) (bs : List Byte) : (m.homeWrite pa bs).sync = m.sync := by
  simp only [Mem.homeWrite, Mem.recallRange_nil h, Mem.unpoison, Mem.setBytes_sync]
theorem Mem.homeWrite_cu {m : Mem} (h : m.cu = []) (pa : Nat) (bs : List Byte) : (m.homeWrite pa bs).cu = [] := by
  simp only [Mem.homeWrite, Mem.recallRange_nil h, Mem.unpoison, Mem.setBytes_cu, h]

/-! ### The L1 (R170 to R172) -/

theorem Mem.writeBackByte_nil {m : Mem} (h : m.cu = []) (pa : Nat) (b : Byte) :
    m.writeBackByte pa b = if (m.live pa).isSome then m else m.setByte pa b := by
  simp only [Mem.writeBackByte, Mem.recall_nil h]
/-- Writing back a list of bytes: every address that is no live word takes its byte (R171, R284). -/
theorem writeBack_bytes {m : Mem} (h : m.cu = []) (l : AMap Byte) :
    let t := l.foldr (fun x a => a.writeBackByte x.1 x.2) m
    t.cu = [] ∧ t.sync = m.sync ∧ ∀ a, t.byte a = if (m.live a).isSome then m.byte a else (amGet l a).getD (m.byte a) := by
  induction l with
  | nil => refine ⟨h, rfl, fun a => ?_⟩; simp
  | cons x l ih =>
    simp only [List.foldr_cons]
    obtain ⟨h1, h2, h3⟩ := ih
    rw [Mem.writeBackByte_nil h1]
    have hl : ∀ a, Mem.live (l.foldr (fun x a => a.writeBackByte x.1 x.2) m) a = m.live a := fun a => by simp only [Mem.live, h2]
    rw [hl]
    split
    · refine ⟨h1, h2, fun a => ?_⟩
      rw [h3, amGet_cons]
      by_cases ha : a = x.1
      · subst ha; simp_all
      · simp [ha]
    · refine ⟨h1, h2, fun a => ?_⟩
      rw [Mem.byte_setByte, h3, amGet_cons]
      by_cases ha : a = x.1
      · subst ha; simp_all
      · simp [ha]
theorem amGet_foldr_amSet {α : Type} (l c : AMap α) (k : Nat) : amGet (l.foldr (fun x m => amSet m x.1 x.2) c) k = (amGet l k).or (amGet c k) := by
  induction l with
  | nil => simp
  | cons x l ih =>
    simp only [List.foldr_cons, amGet_amSet, amGet_cons, ih]
    split <;> simp

theorem State.core_putCore_if (s : State) (c d : Nat) (x : Core) : (s.putCore c x).core d = if d = c then x else s.core d := by
  simp only [State.core, State.putCore, amGet_amSet]
  split <;> rfl
theorem State.core_modCore_if (s : State) (c d : Nat) (f : Core → Core) :
    (s.modCore c f).core d = if d = c then f (s.core c) else s.core d := by simp only [State.modCore, State.core_putCore_if]

/-- What a core holds of a byte where it is newer than the home's, else the home's byte. -/
def State.viewAt (s : State) (core a : Nat) : Byte := (amGet (s.core core).l1.dirty a).getD (s.mem.byte a)

/-- How one state's package memory and one core's L1 may stand to another's when that core has only moved bytes between them (R171): no
byte's newest value changes but in a live word, home bytes change only to what the core had written, and a clean copy holds what the L1
or the home held. -/
structure Moved (core : Nat) (s t : State) : Prop where
  cu : t.mem.cu = []
  sync : t.mem.sync = s.mem.sync
  view : ∀ a, s.mem.live a = none → t.viewAt core a = s.viewAt core a
  dirty : ∀ a, amGet (t.core core).l1.dirty a = amGet (s.core core).l1.dirty a ∨ amGet (t.core core).l1.dirty a = none
  home : ∀ a, t.mem.byte a = s.mem.byte a ∨ amGet (s.core core).l1.dirty a = some (t.mem.byte a)
  clean : ∀ a b, amGet (t.core core).l1.clean a = some b →
    amGet (s.core core).l1.clean a = some b ∨ amGet (s.core core).l1.dirty a = some b ∨ s.mem.byte a = b
  others : ∀ c, c ≠ core → t.core c = s.core c
  same : t = { s with mem := t.mem, cores := t.cores, sched := t.sched }
  place : t.sched = { s.sched with wake := t.sched.wake, free := t.sched.free }

theorem Moved.refl {core : Nat} {s : State} (h : s.mem.cu = []) : Moved core s s :=
  ⟨h, rfl, fun _ _ => rfl, fun _ => .inl rfl, fun _ => .inl rfl, fun _ _ e => .inl e, fun _ _ => rfl, rfl, rfl⟩
theorem Moved.trans {core : Nat} {s t u : State} (h : Moved core s t) (k : Moved core t u) : Moved core s u where
  cu := k.cu
  sync := k.sync.trans h.sync
  view a l := by rw [k.view a (by simpa [Mem.live, h.sync] using l), h.view a l]
  dirty a := by rcases k.dirty a with e | e <;> rcases h.dirty a with d | d <;> simp_all
  home a := by
    rcases k.home a with e | e
    · rw [e]; exact h.home a
    · rcases h.dirty a with d | d
      · right; rw [← d, e]
      · rw [d] at e; cases e
  clean a b e := by
    rcases k.clean a b e with c | d | m
    · exact h.clean a b c
    · rcases h.dirty a with q | q
      · right; left; rw [← q, d]
      · rw [q] at d; cases d
    · rcases h.home a with q | q
      · right; right; rw [← q, m]
      · right; left; rw [q, m]
  others c n := (k.others c n).trans (h.others c n)
  same := by
    have a := h.same
    have b := k.same
    rw [b, a]
  place := by
    have a := h.place
    have b := k.place
    rw [b, a]

/-- A change of a core's records other than its L1's bytes. -/
theorem Moved.modCore {core : Nat} {s : State} (h : s.mem.cu = []) (f : Core → Core) (hd : (f (s.core core)).l1.dirty = (s.core core).l1.dirty)
    (hc : ∀ a b, amGet (f (s.core core)).l1.clean a = some b → amGet (s.core core).l1.clean a = some b) : Moved core s (s.modCore core f) where
  cu := h
  sync := rfl
  view a _ := by simp only [State.viewAt, State.core_modCore_if, if_true, hd]; rfl
  dirty a := by left; rw [State.core_modCore_if, if_pos rfl, hd]
  home a := .inl rfl
  clean a b e := by rw [State.core_modCore_if, if_pos rfl] at e; exact .inl (hc a b e)
  others c n := by rw [State.core_modCore_if, if_neg n]
  same := rfl
  place := rfl
theorem Moved.putCore {core : Nat} {s : State} (h : s.mem.cu = []) (x : Core) (hx : x.l1 = (s.core core).l1) : Moved core s (s.putCore core x) :=
  Moved.modCore h (fun _ => x) (by rw [hx]) (fun _ _ e => by rw [hx] at e; exact e)
/-- A change of memory's records other than its bytes. -/
theorem Moved.modMem {core : Nat} {s : State} (f : Mem → Mem) (h : (f s.mem).cu = []) (hs : (f s.mem).sync = s.mem.sync)
    (hb : (f s.mem).hbm = s.mem.hbm) : Moved core s (s.modMem f) where
  cu := h
  sync := hs
  view a _ := by simp only [State.viewAt, Mem.byte, State.modMem, hb]; rfl
  dirty a := .inl rfl
  home a := by left; simp only [Mem.byte, State.modMem, hb]
  clean a b e := .inl e
  others c n := rfl
  same := rfl
  place := rfl
theorem Moved.wakeUp {core : Nat} {s : State} (h : s.mem.cu = []) (i : Instr) : Moved core s (s.wakeUp i) := by
  simp only [State.wakeUp]
  split
  · exact .refl h
  · exact ⟨h, rfl, fun _ _ => rfl, fun _ => .inl rfl, fun _ => .inl rfl, fun _ _ e => .inl e, fun _ _ => rfl, rfl, rfl⟩
theorem Moved.usedFree {core : Nat} {s : State} (h : s.mem.cu = []) : Moved core s s.usedFree :=
  ⟨h, rfl, fun _ _ => rfl, fun _ => .inl rfl, fun _ => .inl rfl, fun _ _ e => .inl e, fun _ _ => rfl, rfl, rfl⟩
theorem Moved.foldl {α : Type} {core : Nat} {f : State → α → State} (l : List α) (hf : ∀ s x, s.mem.cu = [] → Moved core s (f s x)) {s : State}
    (h : s.mem.cu = []) : Moved core s (l.foldl f s) := by
  induction l generalizing s with
  | nil => exact .refl h
  | cons x l ih => exact (hf s x h).trans (ih (hf s x h).cu)

theorem byLine_fst (p : Nat → Bool) (m : AMap Byte) (k : Nat) : amGet (byLine p m).1 k = if p (k / 128) then amGet m k else none :=
  amGet_filter (fun j => p (j / 128)) m k
theorem byLine_snd (p : Nat → Bool) (m : AMap Byte) (k : Nat) : amGet (byLine p m).2 k = if p (k / 128) then none else amGet m k := by
  rw [show (byLine p m).2 = m.filter fun x => !p (x.1 / 128) from rfl, amGet_filter (fun j => !p (j / 128)) m k]
  cases p (k / 128) <;> rfl

/-- A line that becomes present in its home slice: no byte of package memory, no sync word and no L1 changes (R256). -/
theorem l2Touch_moved {s : State} (h : s.mem.cu = []) (core line : Nat) : Moved core s (s.l2Touch line) := by
  simp only [State.l2Touch]
  split
  · exact .refl h
  · split
    · exact Moved.modMem (fun m => { m with l2 := nsAdd m.l2 line }) h rfl rfl
    · have k1 := Moved.usedFree (core := core) h
      refine (k1.trans (Moved.modMem _ ?_ ?_ ?_)).trans (Moved.modMem (fun m => { m with l2 := nsAdd m.l2 line }) ?_ rfl rfl) <;>
        (try dsimp only [State.modMem]) <;> split <;> first | rfl | exact h
@[simp] theorem l2Touch_cores (s : State) (line : Nat) : (s.l2Touch line).cores = s.cores := by
  simp only [State.l2Touch]
  split
  · rfl
  · split <;> rfl
theorem State.core_modMem (s : State) (f : Mem → Mem) (c : Nat) : (s.modMem f).core c = s.core c := rfl
@[simp] theorem l2Touch_core (s : State) (line c : Nat) : (s.l2Touch line).core c = s.core c := by
  simp only [State.core, l2Touch_cores]
@[simp] theorem l2Touch_fold_core {α : Type} (f : α → Nat) (l : List α) (s : State) (c : Nat) :
    (l.foldl (fun a x => a.l2Touch (f x)) s).core c = s.core c := by
  induction l generalizing s with
  | nil => rfl
  | cons x l ih => rw [List.foldl_cons, ih, l2Touch_core]
theorem l2Touch_fold_moved {s : State} (h : s.mem.cu = []) (core : Nat) (l : NSet) :
    Moved core s (l.foldl (fun a x => a.l2Touch x.1) s) := Moved.foldl l (fun _ x k => l2Touch_moved k core x.1) h
theorem writeBack_moved {s : State} (h : s.mem.cu = []) (core : Nat) (p : Nat → Bool) : Moved core s (s.writeBack core p) := by
  simp only [State.writeBack]
  split
  · exact .refl h
  · obtain ⟨h1, h2, h3⟩ := writeBack_bytes h (byLine p (s.core core).l1.dirty).1
    have hb : ∀ (m : Mem) (q : NSet) a, Mem.byte { m with poison := q } a = m.byte a := fun _ _ _ => rfl
    have hc : ∀ (m : Mem) (q : Core), ({ s with mem := m }.putCore core q).core core = q := fun m q => by
      rw [State.core_putCore_if, if_pos rfl]
    refine Moved.trans ?_ (l2Touch_fold_moved (by exact h1) core _)
    constructor
    · exact h1
    · exact h2
    · intro a l
      simp only [State.viewAt, hc, byLine_snd, State.putCore_mem, hb, h3, l, byLine_fst]
      split <;> simp
    · intro a
      simp only [hc, byLine_snd]
      split <;> simp
    · intro a
      simp only [State.putCore_mem, hb, h3, byLine_fst]
      split
      · exact .inl rfl
      · split
        · cases hq : amGet (s.core core).l1.dirty a <;> simp
        · exact .inl rfl
    · intro a b e
      simp only [hc, amGet_foldr_amSet, amGet_filter (fun j => (s.mem.live j).isNone), byLine_fst] at e
      split at e
      · split at e
        · cases hq : amGet (s.core core).l1.dirty a <;> simp_all
        · left; simpa using e
      · left; simpa using e
    · intro c n
      rw [State.core_putCore_if, if_neg n]; rfl
    · rfl
    · rfl
theorem dropLine_moved {s : State} (h : s.mem.cu = []) (core line : Nat) : Moved core s (s.dropLine core line) := by
  have k := writeBack_moved h core (· == line)
  refine k.trans (Moved.modCore k.cu _ rfl ?_)
  intro a b e
  simp only [byLine_snd] at e
  split at e
  · cases e
  · exact e
@[simp] theorem unused_dirty (c : Core) (l : NSet) : (c.unused l).l1.dirty = c.l1.dirty := by
  simp only [Core.unused]; split <;> rfl
@[simp] theorem unused_clean (c : Core) (l : NSet) : (c.unused l).l1.clean = c.l1.clean := by
  simp only [Core.unused]; split <;> rfl
theorem l1Room_moved {s : State} (h : s.mem.cu = []) (core line : Nat) : Moved core s (s.l1Room core line) := by
  simp only [State.l1Room]
  split
  · exact .refl h
  · have k0 := Moved.usedFree (core := core) h
    split
    · exact k0.trans (Moved.modMem (s := s.usedFree) _ (by simp [Mem.partialHome, State.usedFree, h, amMod]) rfl rfl)
    · have k := fun v => k0.trans (dropLine_moved (s := s.usedFree) h core v)
      exact (k _).trans (Moved.modCore (k _).cu _ (unused_dirty _ _) fun _ _ e => by rwa [unused_clean] at e)
theorem demand_moved {s : State} (h : s.mem.cu = []) (core line : Nat) : Moved core s (s.demand core line) := by
  simp only [State.demand]
  split
  · exact Moved.modCore h (fun _ => _) rfl fun _ _ e => e
  · split
    · exact .refl h
    · have k0 := l2Touch_moved h core line
      have k : Moved core s ((s.l2Touch line).modMem fun m => { m with msrs := amDel m.msrs line }) :=
        k0.trans (Moved.modMem _ k0.cu rfl rfl)
      split
      · exact k.trans (Moved.modCore k.cu _ rfl fun _ _ e => e)
      · exact k
/-- The end of a core's outstanding prefetch moves no byte (R174, R175). -/
theorem prefetchDone_moved {s : State} (h : s.mem.cu = []) (core line : Nat) : Moved core s (s.prefetchDone core line) := by
  simp only [State.prefetchDone]
  split
  · exact .refl h
  · rename_i who _
    have k0 := l2Touch_moved h core line
    have k1 : ∀ r : Mem → AMap (List Nat), Moved core s ((s.l2Touch line).modMem fun m => { m with msrs := r m }) := fun r =>
      k0.trans (Moved.modMem (fun m => { m with msrs := r m }) k0.cu rfl rfl)
    have k2 := k1 fun m => if (who.filter (· != core)).isEmpty then amDel m.msrs line else amSet m.msrs line (who.filter (· != core))
    exact k2.trans (Moved.modCore k2.cu _ rfl fun _ _ e => e)
theorem trainMiss_moved {s : State} (h : s.mem.cu = []) (core line : Nat) : Moved core s (s.trainMiss core line) := by
  simp only [State.trainMiss]
  split
  · exact Moved.putCore h _ rfl
  · split
    · exact Moved.putCore h _ rfl
    · refine Moved.trans ?_ (Moved.foldl _ (fun a l k => ?_) ?_)
      · exact Moved.putCore h _ rfl
      · have k1 : Moved core a (a.modMem fun m => { m with msrs := amSet m.msrs l [core] }) := Moved.modMem _ k rfl rfl
        have k2 := k1.trans (Moved.modCore k1.cu (fun c => { c with counters := { c.counters with issue := c.counters.issue + 1 } }) rfl
          fun _ _ e => e)
        exact k2.trans (Moved.wakeUp k2.cu _)
      · exact h
/-- Taking a miss entry moves no byte (R174). -/
theorem missEntry_moved {s : State} (h : s.mem.cu = []) (core line : Nat) : Moved core s (s.missEntry core line) := by
  simp only [State.missEntry]
  split
  · exact .refl h
  · have k1 : Moved core s (match s.missesBusy core, s.prefetching core with
      | true, l :: _ => s.prefetchDone core l
      | _, _ => s) := by
      split
      · exact prefetchDone_moved h core _
      · exact .refl h
    have k2 := k1.trans (trainMiss_moved k1.cu core line)
    exact k2.trans (Moved.modCore k2.cu _ rfl fun _ _ e => e)
theorem amGet_foldl_fill (q : Nat → Bool) (w : Nat → Byte) (lo : Nat) (l : List Nat) (c : AMap Byte) (a : Nat) (b : Byte)
    (e : amGet (l.foldl (fun m i => if q (lo + i) then m else amSet m (lo + i) (w i)) c) a = some b) :
    amGet c a = some b ∨ ∃ i ∈ l, a = lo + i ∧ w i = b := by
  induction l generalizing c with
  | nil => exact .inl e
  | cons x l ih =>
    rcases ih _ e with r | ⟨i, hi, r⟩
    · dsimp only at r
      split at r
      · exact .inl r
      · rw [amGet_amSet] at r
        split at r
        · right; exact ⟨x, by simp, by assumption, by simpa using r⟩
        · exact .inl r
    · right; exact ⟨i, by simp [hi], r⟩
theorem Mem.bytes_getD (m : Mem) (pa n i : Nat) (h : i < n) : ((m.bytes pa n)[i]?).getD 0 = m.byte (pa + i) := by
  simp [Mem.bytes, List.getElem?_map, upFrom_getElem? h]
theorem l1Fetch_moved {s : State} (h : s.mem.cu = []) (core pa : Nat) : Moved core s (s.l1Fetch core pa) := by
  simp only [State.l1Fetch]
  have k0 := demand_moved h core (pa / 128)
  split
  · exact k0
  · have k1 := (k0.trans (l1Room_moved k0.cu core (pa / 128)))
    have k2 := k1.trans (missEntry_moved k1.cu core (pa / 128))
    have k3 := k2.trans (l2Touch_moved k2.cu core (pa / 128))
    refine k3.trans ?_
    generalize (State.l2Touch _ (pa / 128)) = t at k3
    simp only [Mem.homeRead_nil k3.cu]
    have hc : ∀ (x : State) (f : Core → Core), (x.modCore core f).core core = f (x.core core) := fun x f => by
      rw [State.core_modCore_if, if_pos rfl]
    constructor
    · exact k3.cu
    · rfl
    · intro a _; simp only [State.viewAt, hc]; rfl
    · intro a; left; simp only [hc]
    · intro a; exact .inl rfl
    · intro a b e
      simp only [hc] at e
      rcases amGet_foldl_fill (fun k => (amGet (t.core core).l1.dirty k).isSome) (fun i => ((t.mem.bytes (pa / 32 * 32) 32)[i]?).getD 0) (pa / 32 * 32)
        (upFrom 0 32) _ _ _ e with r | ⟨i, hi, ha, hw⟩
      · exact .inl r
      · right; right
        rw [Mem.bytes_getD _ _ _ _ (by rw [mem_upFrom] at hi; omega)] at hw
        rw [ha]; exact hw
    · intro c n; rw [State.core_modCore_if, if_neg n]
    · rfl
    · rfl

/-- What a load of local bytes answers (R170): where no line is in the commutative-update state, nothing but places of bytes changes, and each
byte is the core's newest, or a clean copy the L1 held. -/
theorem l1Load_moved {s : State} (h : s.mem.cu = []) (core pa n : Nat) : Moved core s (s.l1Load core pa n).1 := by
  simp only [State.l1Load, h, amGet_nil, Option.isSome_none, Bool.or_self, Bool.false_and, Bool.false_eq_true, if_false]
  exact Moved.foldl _ (fun a p k => l1Fetch_moved k core p) h

/-! ### What a load finds -/

@[simp] theorem putCore_l1 (s : State) (core : Nat) (x : Core) : ((s.putCore core x).core core).l1 = x.l1 := by simp
@[simp] theorem modCore_l1 (s : State) (core : Nat) (f : Core → Core) : ((s.modCore core f).core core).l1 = (f (s.core core)).l1 := by
  simp [State.core_modCore_if]
/-- The two L1s hold the same bytes of a line. -/
def SameLine (line : Nat) (a b : L1) : Prop :=
  ∀ k, k / 128 = line → amGet b.dirty k = amGet a.dirty k ∧ amGet b.clean k = amGet a.clean k
theorem SameLine.refl (line : Nat) (a : L1) : SameLine line a a := fun _ _ => ⟨rfl, rfl⟩
theorem SameLine.trans {line : Nat} {a b c : L1} (h : SameLine line a b) (k : SameLine line b c) : SameLine line a c :=
  fun j e => ⟨(k j e).1.trans (h j e).1, (k j e).2.trans (h j e).2⟩

theorem demand_sameLine (s : State) (core l line : Nat) : SameLine line (s.core core).l1 ((s.demand core l).core core).l1 := by
  simp only [State.demand]
  split
  · intro k _; simp
  · split
    · exact SameLine.refl _ _
    · split
      · intro k _; simp [State.core_modMem]
      · intro k _; simp [State.core_modMem]
theorem foldl_l1 {α : Type} (core : Nat) (f : State → α → State) (hf : ∀ a x, ((f a x).core core).l1 = (a.core core).l1) (l : List α) (s : State) :
    ((l.foldl f s).core core).l1 = (s.core core).l1 := by
  induction l generalizing s with
  | nil => rfl
  | cons x l ih => rw [List.foldl_cons, ih, hf]
theorem trainMiss_l1 (s : State) (core line : Nat) : ((s.trainMiss core line).core core).l1 = (s.core core).l1 := by
  simp only [State.trainMiss]
  split
  · simp
  · split
    · simp
    · rw [foldl_l1]
      · simp
      · intro a x
        simp only [State.wakeUp]
        split <;> simp [State.core, State.modMem]
theorem writeBack_sameLine (s : State) (core : Nat) (p : Nat → Bool) {line : Nat} (h : p line = false) :
    SameLine line (s.core core).l1 ((s.writeBack core p).core core).l1 := by
  simp only [State.writeBack]
  split
  · exact SameLine.refl _ _
  · intro k e
    simp [byLine_snd, amGet_foldr_amSet, amGet_filter (fun j => (s.mem.live j).isNone), byLine_fst, e, h]
theorem dropLine_sameLine (s : State) (core : Nat) {l line : Nat} (h : line ≠ l) :
    SameLine line (s.core core).l1 ((s.dropLine core l).core core).l1 := by
  refine (writeBack_sameLine s core (· == l) (line := line) (by simpa using h)).trans ?_
  simp only [State.dropLine, modCore_l1]
  intro k e
  simp [byLine_snd, e, h]
theorem freeNat_lt (s : State) {n : Nat} (h : 0 < n) : s.freeNat n < n := by
  simp only [State.freeNat, if_neg (by omega : ¬ n = 0)]
  exact Nat.mod_lt _ h
theorem l1Room_sameLine (s : State) (core line : Nat) : SameLine line (s.core core).l1 ((s.l1Room core line).core core).l1 := by
  simp only [State.l1Room]
  generalize hl : List.map (fun (x : Nat × Unit) => x.1) (List.filter (fun x => x.1 % 256 == line % 256) (s.core core).l1.lines) = ls
  split
  · exact SameLine.refl _ _
  · rename_i h
    simp only [Bool.or_eq_true, decide_eq_true_eq, not_or, List.contains_iff_mem] at h
    split
    · exact SameLine.refl _ _
    · rename_i h0
      have hv : line ≠ (ls[s.freeNat ls.length]?).getD line := by
        have hlt := freeNat_lt s (n := ls.length) (by cases ls <;> simp_all)
        rw [List.getElem?_eq_getElem hlt, Option.getD_some]
        intro e
        exact h.1 (e ▸ List.getElem_mem hlt)
      simp only [modCore_l1]
      intro k e
      rw [unused_dirty, unused_clean]
      exact dropLine_sameLine s.usedFree core hv k e
theorem prefetchDone_sameLine (s : State) (core l line : Nat) : SameLine line (s.core core).l1 ((s.prefetchDone core l).core core).l1 := by
  simp only [State.prefetchDone]
  split
  · exact SameLine.refl _ _
  · intro k _; simp [State.core_modMem]
theorem missEntry_sameLine (s : State) (core l line : Nat) : SameLine line (s.core core).l1 ((s.missEntry core l).core core).l1 := by
  simp only [State.missEntry]
  split
  · exact SameLine.refl _ _
  · refine SameLine.trans (b := ((match s.missesBusy core, s.prefetching core with
      | true, l :: _ => s.prefetchDone core l
      | _, _ => s : State).core core).l1) ?_ ?_
    · split
      · exact prefetchDone_sameLine s core _ line
      · exact SameLine.refl _ _
    · intro k _
      rw [modCore_l1, trainMiss_l1]
      exact ⟨rfl, rfl⟩
theorem L1.has_iff (l : L1) (pa : Nat) : l.has pa = ((amGet l.dirty pa).isSome || (amGet l.clean pa).isSome) := rfl
/-- A fetch leaves the line's bytes it finds dirty, brings the byte it is for, and drops none of that line. -/
theorem l1Fetch_line (s : State) (h : s.mem.cu = []) (core pa : Nat) :
    (∀ k, k / 128 = pa / 128 → amGet ((s.l1Fetch core pa).core core).l1.dirty k = amGet (s.core core).l1.dirty k)
    ∧ (∀ k, k / 128 = pa / 128 → (s.core core).l1.has k = true → ((s.l1Fetch core pa).core core).l1.has k = true)
    ∧ ((s.l1Fetch core pa).core core).l1.has pa = true := by
  have k0 := demand_sameLine s core (pa / 128) (pa / 128)
  have m0 := (demand_moved h core (pa / 128)).cu
  simp only [State.l1Fetch]
  split
  · rename_i hh
    exact ⟨fun k e => (k0 k e).1, fun k e q => by rw [L1.has_iff, (k0 k e).1, (k0 k e).2]; exact q, hh⟩
  · have k1 := k0.trans (l1Room_sameLine (s.demand core (pa / 128)) core (pa / 128))
    have m1 := (l1Room_moved m0 core (pa / 128)).cu
    have k2 := k1.trans (missEntry_sameLine ((s.demand core (pa / 128)).l1Room core (pa / 128)) core (pa / 128) (pa / 128))
    have m2 := (missEntry_moved m1 core (pa / 128))
    have m2 := (l2Touch_moved m2.cu core (pa / 128)).cu
    rw [← l2Touch_core (State.missEntry ((s.demand core (pa / 128)).l1Room core (pa / 128)) core (pa / 128)) (pa / 128) core] at k2
    replace k1 := k2
    clear k2
    generalize (State.l2Touch _ (pa / 128)) = t at k1 m2 ⊢
    have fill : ∀ (q : Nat → Bool) (w : Nat → Byte) (lo : Nat) (l : List Nat) (c : AMap Byte) (a : Nat),
        ((amGet c a).isSome = true ∨ ∃ i ∈ l, a = lo + i ∧ q a = false) →
          (amGet (l.foldl (fun m i => if q (lo + i) then m else amSet m (lo + i) (w i)) c) a).isSome = true := by
      intro q w lo l
      induction l with
      | nil => intro c a hc; simpa using hc
      | cons x l ih =>
        intro c a hc
        rw [List.foldl_cons]
        apply ih
        by_cases ha : a = lo + x ∧ q a = false
        · left; rw [← ha.1, ha.2]; simp
        · rcases hc with hc | ⟨i, hi, hia⟩
          · left
            split
            · exact hc
            · rw [amGet_amSet]; split
              · rfl
              · exact hc
          · rcases List.mem_cons.mp hi with rfl | hi
            · exact absurd hia ha
            · exact .inr ⟨i, hi, hia⟩
    have ht : ∀ (m : Mem), State.core { t with mem := m } core = t.core core := fun _ => rfl
    simp only [modCore_l1, L1.has_iff, ht, Mem.homeRead_nil m2]
    refine ⟨fun k e => (k1 k e).1, fun k e q => ?_, ?_⟩
    · rw [Bool.or_eq_true] at q ⊢
      rcases q with q | q
      · left; rw [(k1 k e).1]; exact q
      · right
        exact fill (fun j => (amGet (t.core core).l1.dirty j).isSome) _ (pa / 32 * 32) _ _ k (.inl (by rw [(k1 k e).2]; exact q))
    · rw [Bool.or_eq_true]
      by_cases hd : (amGet (t.core core).l1.dirty pa).isSome = true
      · exact .inl hd
      · right
        exact fill (fun j => (amGet (t.core core).l1.dirty j).isSome) _ (pa / 32 * 32) _ _ pa
          (.inr ⟨pa % 32, by rw [mem_upFrom]; omega, by omega, by simpa using hd⟩)
/-- What a load of bytes of one line answers, where no line is in the commutative-update state (R170): the core's own newest byte where it has
written it, else the home's byte or a clean copy. -/
theorem l1Load_value {s : State} (h : s.mem.cu = []) (core : Nat) {pa n : Nat} (hn : ∀ i, i < n → (pa + i) / 128 = pa / 128) {i : Nat} (hi : i < n) :
    ∃ b, ((s.l1Load core pa n).2)[i]? = some b ∧ (match amGet (s.core core).l1.dirty (pa + i) with
      | some x => b = x
      | none => b = s.mem.byte (pa + i) ∨ amGet (s.core core).l1.clean (pa + i) = some b) := by
  have key : ∀ (l : List Nat) (a : State), a.mem.cu = [] → (∀ p ∈ l, p / 128 = pa / 128) →
      (∀ k, k / 128 = pa / 128 → amGet ((l.foldl (fun a p => a.l1Fetch core p) a).core core).l1.dirty k = amGet (a.core core).l1.dirty k)
      ∧ (∀ k, k / 128 = pa / 128 → ((a.core core).l1.has k = true ∨ k ∈ l) →
          ((l.foldl (fun a p => a.l1Fetch core p) a).core core).l1.has k = true) := by
    intro l
    induction l with
    | nil => intro a _ _; exact ⟨fun _ _ => rfl, fun k _ q => by simpa using q⟩
    | cons x l ih =>
      intro a ha hp
      have hx := hp x (by simp)
      obtain ⟨d1, d2, d3⟩ := l1Fetch_line a ha core x
      obtain ⟨e1, e2⟩ := ih (a.l1Fetch core x) (l1Fetch_moved ha core x).cu (fun p m => hp p (by simp [m]))
      refine ⟨fun k e => (e1 k e).trans (d1 k (e.trans hx.symm)), fun k e q => e2 k e ?_⟩
      rcases q with q | q
      · exact .inl (d2 k (e.trans hx.symm) q)
      · rcases List.mem_cons.mp q with rfl | q
        · exact .inl d3
        · exact .inr q
  have hm := l1Load_moved h core pa n
  obtain ⟨k1, k2⟩ := key (upFrom pa n) s h (fun p m => by rw [mem_upFrom] at m; have := hn (p - pa) (by omega); rwa [show pa + (p - pa) = p by omega] at this)
  simp only [State.l1Load, h, amGet_nil, Option.isSome_none, Bool.or_self, Bool.false_and, Bool.false_eq_true, if_false] at hm ⊢
  have h1 := k1 (pa + i) (hn i hi)
  have h2 := k2 (pa + i) (hn i hi) (.inr (by rw [mem_upFrom]; omega))
  generalize (List.foldl (fun a p => a.l1Fetch core p) s (upFrom pa n)) = t at hm h1 h2
  refine ⟨((t.core core).l1.byte (pa + i)).getD 0, by simp [List.getElem?_map, upFrom_getElem? hi], ?_⟩
  rw [L1.has_iff, Bool.or_eq_true] at h2
  simp only [L1.byte]
  cases hd : amGet (s.core core).l1.dirty (pa + i) with
  | some x => simp [h1, hd]
  | none =>
    rw [hd] at h1
    simp only [h1, Option.isSome_none, Bool.false_eq_true, false_or] at h2
    obtain ⟨b, hb⟩ := Option.isSome_iff_exists.mp h2
    simp only [h1, hb, Option.none_or, Option.getD_some]
    rcases hm.clean _ _ hb with c | c | c
    · exact .inr c
    · rw [hd] at c; cases c
    · exact .inl c.symm

/-! ### Stores into the L1 (R170) -/

theorem L1.dirty_stores (l : L1) (pa k : Nat) (bs : List Byte) :
    amGet (l.stores pa bs).dirty k = if pa ≤ k ∧ k < pa + bs.length then some (bs.getD (k - pa) 0) else amGet l.dirty k := by
  induction bs generalizing l pa with
  | nil => simp only [L1.stores, List.length_nil]; rw [if_neg (by omega)]
  | cons b bs ih =>
    simp only [L1.stores, ih, L1.store, amGet_amSet, List.length_cons]
    by_cases h : k = pa
    · subst h
      rw [if_neg (by omega), if_pos rfl, if_pos ⟨Nat.le_refl _, by omega⟩]
      simp
    · by_cases h2 : pa + 1 ≤ k ∧ k < pa + 1 + bs.length
      · rw [if_pos h2, if_pos (by omega)]
        obtain ⟨j, hj⟩ : ∃ j, k - pa = j + 1 := ⟨k - pa - 1, by omega⟩
        have : k - (pa + 1) = j := by omega
        rw [hj, this]
        rfl
      · rw [if_neg h2, if_neg h, if_neg (by omega)]
theorem L1.clean_stores (l : L1) (pa k : Nat) (bs : List Byte) :
    amGet (l.stores pa bs).clean k = if pa ≤ k ∧ k < pa + bs.length then none else amGet l.clean k := by
  induction bs generalizing l pa with
  | nil => simp only [L1.stores, List.length_nil]; rw [if_neg (by omega)]
  | cons b bs ih =>
    simp only [L1.stores, ih, L1.store, amGet_amDel, List.length_cons]
    by_cases h : k = pa
    · subst h
      rw [if_neg (by omega), if_pos rfl, if_pos ⟨Nat.le_refl _, by omega⟩]
    · by_cases h2 : pa + 1 ≤ k ∧ k < pa + 1 + bs.length
      · rw [if_pos h2, if_pos (by omega)]
      · rw [if_neg h2, if_neg h, if_neg (by omega)]
/-- A store of local bytes (R170): after moves of bytes, the stored ones are dirty in the core's L1, and nothing else has changed. -/
theorem l1Store_moved {s : State} (h : s.mem.cu = []) (core pa : Nat) {bs : List Byte} (hb : bs ≠ []) :
    ∃ u, Moved core s u ∧ s.l1Store core pa bs = u.modCore core fun c => { c with l1 := c.l1.stores pa bs } := by
  simp only [State.l1Store]
  split
  · rename_i he
    exact absurd (List.isEmpty_iff.mp he) hb
  · have k1 : Moved core s (s.modMem fun m => m.recallRange pa bs.length) :=
      Moved.modMem _ (by rw [Mem.recallRange_nil h]; exact h) (by rw [Mem.recallRange_nil h]) (by rw [Mem.recallRange_nil h])
    exact ⟨_, k1.trans (Moved.foldl _ (fun a l k => (demand_moved k core l).trans (l1Room_moved (demand_moved k core l).cu core l)) k1.cu), rfl⟩

end Sys2Proof.Machine
end

