-- ==== Sys2Proof/Laws/Run.lean ====
section
/-! SUPPORT. What the two instruction frames do: each answers one equation for each way an instruction ends. -/
namespace Sys2Proof.Machine

/-! ### Scalar instructions (R137) -/

section
variable {s s1 : State} {g : Group} {sp : Split} {ok : Bool} {f : State → Group → Split → Res}

theorem runScalar_done (hg : s.curGroup = some g) (hs : g.split s.sched.split = some sp) (hf : f s g sp = .done s1) :
    runScalar true f s = .next s1.retired := by simp [runScalar, hg, hs, hf]
theorem runScalar_trap {t : Trap} (hg : s.curGroup = some g) (hs : g.split s.sched.split = some sp) (hf : f s g sp = .trap t) :
    runScalar true f s = .next (s.trapScalar t) := by simp [runScalar, hg, hs, hf]
theorem runScalar_wait (hg : s.curGroup = some g) (hs : g.split s.sched.split = some sp) (hf : f s g sp = .wait s1) :
    runScalar true f s = .next s1 := by simp [runScalar, hg, hs, hf]
theorem runScalar_illegal (hg : s.curGroup = some g) (hs : g.split s.sched.split = some sp) :
    runScalar false f s = .next (s.trapScalar (Trap.of cIllegal)) := by simp [runScalar, hg, hs]
/-- Everything `runScalar` can answer. -/
theorem runScalar_cases (h : runScalar ok f s = .next s1) :
    ∃ g sp, s.curGroup = some g ∧ g.split s.sched.split = some sp
      ∧ ((ok = true ∧ ((∃ u, f s g sp = .done u ∧ s1 = u.retired) ∨ (∃ t, f s g sp = .trap t ∧ s1 = s.trapScalar t)
            ∨ f s g sp = .wait s1))
          ∨ (ok = false ∧ s1 = s.trapScalar (Trap.of cIllegal))) := by
  simp only [runScalar] at h
  split at h
  · cases h
  · split at h
    · cases h
    · refine ⟨_, _, ‹_›, ‹_›, ?_⟩
      split at h
      · left
        refine ⟨‹_›, ?_⟩
        split at h <;> cases h <;> simp_all
      · right
        cases h
        simp_all

theorem runPure_at {q : Group → Split → Group × Split} (hg : s.curGroup = some g) (hs : g.split s.sched.split = some sp) :
    runPure q s = .next (s.put (q g sp).1 (q g sp).2).retired := by simp [runPure, runScalar, hg, hs]
theorem runAlu_at {d : SReg} {q : Group → Split → DWord} (hg : s.curGroup = some g) (hs : g.split s.sched.split = some sp) :
    runAlu d q s = .next (s.put g (sp.setReg d (q g sp)).advance).retired := by simp [runAlu, runPure, runScalar, hg, hs]
end

/-! ### Lane instructions (R124) -/

section
variable {s s1 : State} {g : Group} {e : LaneEntry} {ok : Bool} {f : LaneF} {m : State → Group → LaneEntry → LaneMask → LRes}

theorem laneq_of_head (he : g.async.laneq.head? = some e) : ∃ q, g.async.laneq = e :: q := by
  cases hq : g.async.laneq with
  | nil => simp [hq] at he
  | cons x q => simp [hq] at he; exact ⟨q, by rw [he]⟩
theorem runLane_done (hg : s.curGroup = some g) (he : g.async.laneq.head? = some e) (hm : m s g e (g.active e f) = .done s1) :
    runLane true f m s = .next (s1.modGroup s1.curKey Group.popLane) := by
  obtain ⟨q, hq⟩ := laneq_of_head he
  simp [runLane, hg, hq, hm]
theorem runLane_trap {t : Trap} (hg : s.curGroup = some g) (he : g.async.laneq.head? = some e)
    (hm : m s g e (g.active e f) = .trap t) : runLane true f m s = .next (s.trapLane e t) := by
  obtain ⟨q, hq⟩ := laneq_of_head he
  simp [runLane, hg, hq, hm]
theorem runLane_wait (hg : s.curGroup = some g) (he : g.async.laneq.head? = some e) (hm : m s g e (g.active e f) = .wait s1) :
    runLane true f m s = .next s1 := by
  obtain ⟨q, hq⟩ := laneq_of_head he
  simp [runLane, hg, hq, hm]
theorem runLane_illegal (hg : s.curGroup = some g) (he : g.async.laneq.head? = some e) :
    runLane false f m s = .next (s.trapLane e (Trap.of cIllegal)) := by
  obtain ⟨q, hq⟩ := laneq_of_head he
  simp [runLane, hg, hq]
theorem runLanePure_at {q : Group → LaneEntry → LaneMask → Group} (hg : s.curGroup = some g)
    (he : g.async.laneq.head? = some e) :
    runLanePure true f q s = .next ((s.putGroup s.curKey (q g e (g.active e f))).modGroup s.curKey Group.popLane) := by
  obtain ⟨l, hq⟩ := laneq_of_head he
  simp [runLanePure, runLane, hg, hq, State.curKey]
end

end Sys2Proof.Machine
end

