-- ==== Sys2Proof/Laws/Access.lean ====
section
/-! SUPPORT. What issuing an access changes. -/
namespace Sys2Proof.Machine

/-- A step of the schedule's list of due events, and nothing else. -/
theorem wakeUp_eq (s : State) (i : Instr) : ∃ w, s.wakeUp i = { s with sched := { s.sched with wake := w } } := by
  simp only [State.wakeUp]
  split
  · exact ⟨s.sched.wake, rfl⟩
  · exact ⟨_, rfl⟩
/-- Issuing an access: its group holds it under the group's next number, and nothing else but the due events changes (R156). -/
theorem issueAccess_eq {s : State} {key : Nat} {g : Group} (hg : s.group key = some g) (a : Access) :
    ∃ w, s.issueAccess key a
      = { s with groups := amSet s.groups key (g.addAccess g.nextAccess a), sched := { s.sched with wake := w } } := by
  simp only [State.issueAccess, hg]
  split
  · obtain ⟨w, h⟩ := wakeUp_eq (s.putGroup key (g.addAccess g.nextAccess a)) (.memoryAccessComplete (key / 32) (key % 32) g.nextAccess)
    exact ⟨w, by rw [h]; rfl⟩
  · exact ⟨s.sched.wake, rfl⟩
theorem Moved.group {core : Nat} {s t : State} (h : Moved core s t) (k : Nat) : t.group k = s.group k := by rw [h.same]; rfl
theorem Moved.curKey {core : Nat} {s t : State} (h : Moved core s t) : t.curKey = s.curKey := by rw [State.curKey, h.place]; rfl
theorem Moved.split {core : Nat} {s t : State} (h : Moved core s t) : t.sched.split = s.sched.split := by rw [h.place]
theorem Moved.core_eq {core : Nat} {s t : State} (h : Moved core s t) : t.sched.core = s.sched.core := by rw [h.place]

end Sys2Proof.Machine
end

