-- ==== Sys2Proof/Laws/MemForm.lean ====
section
/-! SUPPORT. Every operation over package memory keeps its canonical form. -/
namespace Sys2Proof.Machine

theorem Mem.wf_of_hbm {m n : Mem} (h : m.wf = true) (e : n.hbm = m.hbm) : n.wf = true := by
  unfold Mem.wf at h ⊢; rw [e]; exact h
theorem Mem.setByte_wf {m : Mem} (h : m.wf = true) (pa : Nat) (b : Byte) : (m.setByte pa b).wf = true := stSet_wf h pa b
theorem Mem.setBytes_wf {m : Mem} (h : m.wf = true) (pa : Nat) (bs : List Byte) : (m.setBytes pa bs).wf = true := by
  induction bs generalizing m pa with
  | nil => exact h
  | cons b bs ih => exact ih (Mem.setByte_wf h pa b) (pa + 1)
theorem mergePartial_wf (line op : Nat) (t : BitVec 4) {m : Mem} (h : m.wf = true) (ps : AMap (BitVec 64)) :
    (mergePartial line op t m ps).wf = true := by
  induction ps generalizing m with
  | nil => exact h
  | cons x rest ih =>
    obtain ⟨off, v⟩ := x
    exact ih (Mem.setBytes_wf h _ _)
/-- A fold of steps that each keep the form keeps it. -/
theorem Mem.foldl_wf {α : Type} (f : Mem → α → Mem) (hf : ∀ m x, m.wf = true → (f m x).wf = true) {m : Mem} (h : m.wf = true)
    (xs : List α) : (xs.foldl f m).wf = true := by
  induction xs generalizing m with
  | nil => exact h
  | cons x xs ih => exact ih (hf m x h)
theorem Mem.recall_wf {m : Mem} (h : m.wf = true) (line : Nat) : (m.recall line).wf = true := by
  unfold Mem.recall
  split
  · exact h
  · exact Mem.wf_of_hbm (Mem.foldl_wf _ (fun a p ha => mergePartial_wf _ _ _ ha _) h _) rfl
theorem Mem.recallRange_wf {m : Mem} (h : m.wf = true) (pa n : Nat) : (m.recallRange pa n).wf = true := by
  unfold Mem.recallRange
  split
  · exact h
  · exact Mem.foldl_wf _ (fun a l ha => Mem.recall_wf ha l) h _
theorem Mem.homeRead_wf {m : Mem} (h : m.wf = true) (pa n : Nat) : (m.homeRead pa n).1.wf = true := Mem.recallRange_wf h pa n
theorem Mem.homeWrite_wf {m : Mem} (h : m.wf = true) (pa : Nat) (bs : List Byte) : (m.homeWrite pa bs).wf = true :=
  Mem.wf_of_hbm (Mem.setBytes_wf (Mem.recallRange_wf h pa bs.length) pa bs) rfl
theorem Mem.writeBackByte_wf {m : Mem} (h : m.wf = true) (pa : Nat) (b : Byte) : (m.writeBackByte pa b).wf = true := by
  unfold Mem.writeBackByte
  split
  · exact h
  · exact Mem.setByte_wf (Mem.recall_wf h _) pa b
theorem Mem.homeElem_wf {m : Mem} (h : m.wf = true) (pa : Nat) (fm : Nat × Nat × Nat) (v : Nat) : (m.homeElem pa fm v).wf = true :=
  Mem.foldl_wf _ (fun _ _ ha => Mem.homeWrite_wf (Mem.homeRead_wf ha _ _) _ _) h _
theorem Mem.homeBlock_wf {m : Mem} (h : m.wf = true) (pa : Nat) (fm : Nat × Nat × Nat) (scale : Nat) (els : List Byte) :
    (m.homeBlock pa fm scale els).wf = true :=
  Mem.foldl_wf _ (fun _ _ ha => Mem.homeElem_wf ha _ _ _) (Mem.homeWrite_wf h _ _) _
theorem copyFrame_wf (old new size : Nat) {m : List Host.Cell} (h : stWf (0 : Byte) m = true) :
    stWf (0 : Byte) (copyFrame old new size m) = true := by
  have go : ∀ (xs : List Host.Cell) (a : Store Byte), stWf (0 : Byte) a = true →
      stWf (0 : Byte) (xs.foldl (fun a c => stSet 0 a (new + (c.1 - old)) c.2) a) = true := by
    intro xs
    induction xs with
    | nil => exact fun a ha => ha
    | cons x xs ih => exact fun a ha => ih _ (stSet_wf ha _ _)
  exact go _ _ (stWf_filter _ h)
theorem Mem.moveFrame_wf {m : Mem} (h : m.wf = true) (old new size : Nat) : (m.moveFrame old new size).wf = true :=
  copyFrame_wf old new size h
/-- A frame taken for a page on demand. -/
theorem State.takeFrame_wf {s s1 : State} {fr : Nat} (h : s.mem.wf = true) (e : s.takeFrame = some (s1, fr)) : s1.mem.wf = true := by
  unfold State.takeFrame at e
  by_cases hb : s.paEnd < (s.mem.nextFrame + 1) * 65536
  · simp only [if_pos hb] at e; cases e
  · simp only [if_neg hb, Option.some.injEq, Prod.mk.injEq] at e
    rw [← e.1]
    exact stWf_filter _ h

end Sys2Proof.Machine
end

