-- ==== Sys2Proof/Tests/Slice0.lean ====
section
/-! SUPPORT. Tests of this slice: what WellFormed refuses, words written out from the spec's encodings, single steps on small states, and
for each statement a state and operands that meet what it supposes. -/

set_option Elab.async false

namespace Sys2Proof.Tests
open Sys2Proof Sys2Proof.Machine Sys2Proof.Claims

/-! ### Small states -/

/-- A split at 0x100 with numbers in its registers. -/
def sp0 : Split := { Split.fresh 0x100 7 3 with sregs := [(1, 7), (2, 3), (3, 0x2000), (4, 0xFFFFFFFFFFFFFFFF)], cbits := 2 }
/-- A group of one split and 64 slots. -/
def g0 : Group := { Group.probe with splits := [(0, sp0)] }
/-- A page of the first GiB, at its own address. -/
def leaf0 : Leaf := { frame := 0, bits := 30, rd := true, wr := true, atomics := true, format := none }
/-- A core whose code has landed in slot 0 and whose TLB holds the first GiB of address space 0. -/
def core0 : Core := { Core.fresh with codeSlots := [(0, { CodeSlot.fresh with state := .landed })], tlb := [{ asid := 0, va := 0, leaf := leaf0 }] }
/-- The team of the group. -/
def team0 : Team :=
  { launch := 0, node := 0, index := 0, core := 0, groups := [(0, 0)], count := 1, part := 0, rcb := 0x4000, asid := 0, saveSlot := none, poolSlot := none,
    spillSlot := (0, 0), slot0 := 0, scratch := [], tiles := [], tcfg := [], residentB := none, colls := [], poolSaved := false, started := 0, out := none }
/-- The machine with a group as the executing one. -/
def mk (g : Group) : State :=
  { State.reset with groups := [(0, g)], cores := [(0, core0)], head := { State.reset.head with teams := [(0, team0)] } }
def s0 : State := mk g0
/-- The group with another executing split. -/
def withSp (sp : Split) : Group := { g0 with splits := [(0, sp)] }
/-- A state after an outcome; the reset state where there is none. -/
def nextOf : Host.Outcome State Fault Refusal → State
  | .next t => t
  | _ => State.reset
/-- The executing split after an instruction. -/
def splitAfter (i : Instr) (s : State) : Split := (((nextOf (exec i s)).curGroup.getD g0).split s.sched.split).getD sp0
/-- The executing group after an instruction. -/
def groupAfter (i : Instr) (s : State) : Group := (nextOf (exec i s)).curGroup.getD g0
theorem ok_of {ε α : Type} {e : Except ε α} {x : α} (h : e.toOption = some x) : e = .ok x := by
  cases e with
  | error _ => cases h
  | ok y => cases h; rfl
theorem error_of {ε α : Type} {e : Except ε α} {x : ε} (h : (match e with | .error y => some y | .ok _ => none) = some x) : e = .error x := by
  cases e with
  | ok _ => cases h
  | error y => cases h; rfl

/-! ### Well-formedness: an ill-formed term for each check, and what decoding refuses -/

/-- A lane form with everything zero. -/
def blank : LaneF := { vd := 0, va := 0, vb := 0, vc := 0, pg := 0, pn := 0, td := 0, ta := 0, rm := 0, pl := 0, fn := 0, w2 := 0 }
theorem wf_blank : (Instr.iadd blank).wf = true := by decide
theorem wf_type_reserved : (Instr.mov { blank with td := 15, ta := 15 }).wf = false := by decide
theorem wf_type_differs : (Instr.iadd { blank with td := 4, ta := 5 }).wf = false := by decide
theorem wf_odd_pair : (Instr.iadd { blank with td := 6, ta := 6, vd := 1 }).wf = false := by decide
theorem wf_odd_pair_source : (Instr.iadd { blank with td := 6, ta := 6, va := 3 }).wf = false := by decide
theorem wf_destination_code : (Instr.iadd { blank with vd := 64 }).wf = false ∧ (Instr.iadd { blank with vd := 97 }).wf = false := by decide
theorem wf_source_code : (Instr.iadd { blank with va := 101 }).wf = false ∧ (Instr.iadd { blank with va := 126 }).wf = false := by decide
theorem wf_immediate_unused : (Instr.iadd { blank with w2 := 1 }).wf = false ∧ (Instr.iadd { blank with w2 := 1, vb := 127 }).wf = true := by decide
theorem wf_operand_unused : (Instr.iadd { blank with vc := 1 }).wf = false ∧ (Instr.laneNot { blank with vb := 96 }).wf = false := by decide
theorem wf_rounding : (Instr.fadd { blank with td := 12, ta := 12, rm := 5 }).wf = false ∧ (Instr.iadd { blank with rm := 1 }).wf = false := by decide
theorem wf_planes_unused : (Instr.iadd { blank with pl := 1 }).wf = false := by decide
theorem wf_fn : (Instr.iadd { blank with fn := 2 }).wf = false ∧ (Instr.icmp { blank with fn := 6 }).wf = false ∧ (Instr.icmp { blank with fn := 24 }).wf = false := by decide
theorem wf_predicate_code : (Instr.icmp { blank with vd := 8 }).wf = false ∧ (Instr.pand { blank with va := 8 }).wf = false := by decide
theorem wf_signed_only : (Instr.iabs { blank with td := 5, ta := 5 }).wf = false := by decide
theorem wf_class_type : (Instr.fclass { blank with td := 4, ta := 12 }).wf = false := by decide
theorem wf_packed_type : (Instr.hadd2 { blank with td := 12, ta := 12 }).wf = false ∧ (Instr.idot4 { blank with td := 4, ta := 2 }).wf = false := by decide
theorem wf_pack_half : (Instr.cvtp { blank with td := 2, ta := 4, fn := 1 }).wf = false ∧ (Instr.cvtx { blank with td := 4, ta := 2, fn := 2 }).wf = false := by decide
theorem wf_bp : (Instr.bpenc { blank with td := 13, ta := 12, fn := 2 }).wf = false ∧ (Instr.bpdec { blank with td := 12, ta := 0 }).wf = false := by decide
theorem wf_base : (Instr.ld { blank with va := 1 }).wf = false ∧ (Instr.ld { blank with va := 96 }).wf = false := by decide
theorem wf_store_data : (Instr.st { blank with vb := 127 }).wf = false ∧ (Instr.st { blank with vd := 1 }).wf = false := by decide
theorem wf_atom_op : (Instr.atom { blank with td := 12, ta := 12, fn := 1 }).wf = false ∧ (Instr.atom { blank with td := 4, ta := 4, fn := 9 }).wf = false := by decide
theorem wf_atom_use : (Instr.atom { blank with td := 4, ta := 4, rm := 4 }).wf = false ∧ (Instr.atom { blank with td := 4, ta := 4, rm := 1 }).wf = false
    ∧ (Instr.atom { blank with td := 4, ta := 4, rm := 1, vd := 96 }).wf = true := by decide
theorem wf_cas_use : (Instr.cas { blank with td := 4, ta := 4, rm := 3 }).wf = false ∧ (Instr.lda { blank with td := 4, ta := 4, rm := 6 }).wf = false
    ∧ (Instr.str { blank with td := 4, ta := 4, rm := 5 }).wf = false := by decide
theorem wf_tensor : (Instr.ldt { blank with va := 5 }).wf = false ∧ (Instr.stt { blank with va := 65, vc := 127 }).wf = false := by decide
theorem wf_pref : (Instr.pref { blank with fn := 2 }).wf = false := by decide
theorem wf_exchange : (Instr.shfl { blank with td := 4, ta := 4 }).wf = false ∧ (Instr.vote { blank with fn := 8 }).wf = false
    ∧ (Instr.redl { blank with td := 12, ta := 12, fn := 3 }).wf = false ∧ (Instr.scan { blank with td := 5, ta := 5, fn := 6 }).wf = false
    ∧ (Instr.xshfl { blank with td := 5, ta := 5, vb := 1 }).wf = false := by decide
theorem wf_registers : (Instr.rarm { blank with vd := 63, fn := 2 }).wf = false ∧ (Instr.rclr { blank with fn := 1 }).wf = false
    ∧ (Instr.rput { blank with td := 5, ta := 5, va := 65 }).wf = false := by decide
theorem wf_satom : (Instr.satom 1 2 3 0 0 0 9).wf = false ∧ (Instr.satom 1 2 3 0 3 0 0).wf = false ∧ (Instr.satom 1 2 3 0 1 0 0).wf = false
    ∧ (Instr.scas 1 2 3 0 1 0).wf = false := by decide
theorem wf_call_lrun : (Instr.call 8 0).wf = false ∧ (Instr.lrun 0).wf = false ∧ (Instr.lrun 257).wf = false ∧ (Instr.lrun 256).wf = true := by decide
theorem wf_queue_fence : (Instr.qpush 1 1 0 0).wf = false ∧ (Instr.qpop 1 1 0 0).wf = false ∧ (Instr.fence 0 3).wf = false := by decide
theorem wf_copies : (Instr.copy 1 2 3 3 0 0 0).wf = false ∧ (Instr.copy 1 2 3 0 0 11 0).wf = false ∧ (Instr.tcopy 1 2 3 3 0 0 0).wf = false ∧ (Instr.gcopy 1 2 3 3 0 0).wf = false := by decide
theorem wf_coll : (Instr.coll 1 2 0 5 0).wf = false ∧ (Instr.coll 1 2 6 0 0).wf = false ∧ (Instr.coll 1 2 1 2 0).wf = false := by decide
theorem wf_tiles : (Instr.tld 0 1 2 5 0).wf = false ∧ (Instr.tst 0 1 2 5 0).wf = false := by decide
theorem wf_ptnext : (Instr.ptnext 1 2 2 0).wf = false ∧ (Instr.ptnext 1 0 0 62).wf = false ∧ (Instr.ptnext 1 0 0 61).wf = true := by decide
theorem wf_rcap : (Instr.rcap 0 1).wf = false ∧ (Instr.rcap 3 1).wf = false := by decide
theorem decode_refuses : decodeTableWord 32 0xE400_0000 = none ∧ decodeTableWord 32 0x0000_0008 = none ∧ decodeTableWord 32 0x0020_0000 = none
    ∧ decodeTableWord 96 (0x07000000) = none ∧ decodeTableWord 96 1 = none := by decide

/-! ### Words worked out in the spec -/

/-- A lane instruction's number from its words. -/
def words (w0 w1 w2 : Nat) : Nat := w0 + w1 * 2 ^ 32 + w2 * 2 ^ 64
theorem decode_scalar_alu : decodeTableWord 32 0x08A3_FFF8 = some (.addi 5 3 0xFFF8) ∧ decodeTableWord 32 0x0464_2805 = some (.div 3 4 5)
    ∧ decodeTableWord 32 0 = some .nop ∧ decodeTableWord 32 0x0001_0206 = some (.csrw 1 0x20) ∧ decodeTableWord 32 0x0060_0025 = some (.csrr 3 2)
    ∧ decodeTableWord 32 0x0001_0004 = some (.sleep 1) := by decide
theorem decode_scalar_memory : decodeTableWord 32 0x40C4_39C0 = some (.satom 6 4 7 1 6 0 0) ∧ decodeTableWord 32 0x3D6A_0000 = some (.stw 11 10 0)
    ∧ decodeTableWord 32 0x38E5_0000 = some (.sts 7 5 0) ∧ decodeTableWord 32 0xB804_2801 = some (.pin 4 5) ∧ decodeTableWord 32 0xB804_2802 = some (.unpin 4 5)
    ∧ decodeTableWord 32 0xB800_0000 = some .rfence ∧ decodeTableWord 32 0xB404_002C = some (.cfetch 4 1 12) := by decide
theorem decode_control : decodeTableWord 32 0x48E0_FFFD = some (.beq 7 0 0xFFFD) ∧ decodeTableWord 32 0x7440_000F = some (.call 2 15)
    ∧ decodeTableWord 32 0x7800_0002 = some (.ret 2) ∧ decodeTableWord 32 0x8540_0003 = some (.brv 1 2 3) ∧ decodeTableWord 32 0x8800_000C = some (.jmpv 12)
    ∧ decodeTableWord 32 0x8C0A_0000 = some (.join 10 0) ∧ decodeTableWord 32 0x90C5_0000 = some (.regroup 6 5) := by decide
theorem decode_waits : decodeTableWord 32 0x9403_FFFF = some (.waitc 0 63 63 63) ∧ decodeTableWord 32 0x94FF_F03F = some (.waitc 63 63 0 63)
    ∧ decodeTableWord 32 0x9800_0005 = some (.waitt 5) ∧ decodeTableWord 32 0xA007_0055 = some (.qpush 7 2 1 5) ∧ decodeTableWord 32 0xA520_0005 = some (.qpop 9 0 0 5) := by decide
theorem decode_sync : decodeTableWord 32 0xA800_0009 = some (.fence 2 1) ∧ decodeTableWord 32 0xA800_0002 = some (.fence 0 2) ∧ decodeTableWord 32 0xAC04_2810 = some (.syncinit 4 5 0 1)
    ∧ decodeTableWord 32 0xAC04_2850 = some (.syncinit 4 5 1 1) ∧ decodeTableWord 32 0xAC04_0011 = some (.syncfree 4 1) ∧ decodeTableWord 32 0xAD04_3012 = some (.arrive 8 4 6 1)
    ∧ decodeTableWord 32 0xAC04_4813 = some (.bwait 4 9 1) ∧ decodeTableWord 32 0xAC00_0004 = some .bar ∧ decodeTableWord 32 0xAC04_3015 = some (.waittl 4 6 1) := by decide
theorem decode_engines : decodeTableWord 32 0xBCC4_2A09 = some (.copy 6 4 5 1 0 1 1) ∧ decodeTableWord 32 0xCC03_0000 = some (.tcfg 3) ∧ decodeTableWord 32 0xD004_2806 = some (.mloop 0 4 5 6)
    ∧ decodeTableWord 32 0xCC00_0031 = some (.tzero 3) ∧ decodeTableWord 32 0xCC07_4003 = some (.tst 0 7 8 0 0) ∧ decodeTableWord 32 0xCC04_2822 = some (.tld 0 4 5 0 2)
    ∧ decodeTableWord 32 0xCD20_0004 = some (.mfence 9) ∧ decodeTableWord 32 0xC885_0300 = some (.coll 4 5 3 0 0) ∧ decodeTableWord 32 0xC885_0001 = some (.coll 4 5 0 0 1) := by decide
theorem decode_rank_points : decodeTableWord 32 0xD4C5_0001 = some (.rkenc 6 5) ∧ decodeTableWord 32 0xD404_0020 = some (.rktbl 4 2) ∧ decodeTableWord 32 0xD407_0022 = some (.rkmm 0 7 2)
    ∧ decodeTableWord 32 0xD407_4863 = some (.rkval 7 9 1 2) ∧ decodeTableWord 32 0xD8C2_0840 = some (.ptnext 6 2 1 4) ∧ decodeTableWord 32 0xD806_0001 = some (.ptdone 6) := by decide
theorem decode_launch_registers : decodeTableWord 32 0xB0C4_0000 = some (.spawn 6 4) ∧ decodeTableWord 32 0xDD05_0000 = some (.rcap 8 5) ∧ decodeTableWord 32 0xE000_0000 = some .rrev := by decide
theorem decode_lane_arithmetic :
    decodeTableWord 96 (words 0x1001_8104 0x00F9_8000 0) = some (.fadd { blank with vd := 3, va := 1, vb := 2, pg := 3, pn := 1, td := 12, ta := 12 })
    ∧ decodeTableWord 96 (words 0x0641_0106 0x0008_800A 0) = some (.icmp { blank with vd := 2, va := 1, vb := 3, td := 4, ta := 4, fn := 10 })
    ∧ decodeTableWord 96 (words 0x2204_8800 0x0011_8001 0) = some (.cvt { blank with vd := 9, va := 8, td := 8, ta := 12, fn := 1 })
    ∧ decodeTableWord 96 (words 0x14C3_FF0C 0x0019_8000 0x43E0_0000) = some (.fdiv { blank with vd := 7, va := 127, vb := 6, td := 12, ta := 12, w2 := 0x43E0_0000 })
    ∧ decodeTableWord 96 (words 0x2801_8104 0x0000_0002 0) = some (.pand { blank with vd := 3, va := 1, vb := 2, fn := 2 })
    ∧ decodeTableWord 96 (words 0x2900_0000 0x0020_0000 0) = some (.lkill { blank with pn := 1 }) := by decide
theorem decode_lane_memory :
    decodeTableWord 96 (words 0x2D04_840C 0x0008_9810 0x40) = some (.atom { blank with vd := 9, va := 4, vb := 6, td := 4, ta := 4, rm := 6, fn := 16, w2 := 64 }) := by decide
theorem decode_lane_exchange :
    decodeTableWord 96 (words 0x3463_8200 0x0000_0003 0) = some (.vote { blank with vd := 71, va := 2, fn := 3 })
    ∧ decodeTableWord 96 (words 0x34A4_8500 0x0019_8002 0) = some (.redl { blank with vd := 73, va := 5, td := 12, ta := 12, fn := 2 })
    ∧ decodeTableWord 96 (words 0x3505_0398 0x080A_A009 0) = some (.xshfl { blank with vd := 10, va := 3, vb := 76, vc := 4, td := 5, ta := 5, fn := 9 })
    ∧ decodeTableWord 96 (words 0x3840_48FE 0x280A_A002 0) = some (.rput { blank with va := 72, vb := 127, vc := 20, td := 5, ta := 5, fn := 2 }) := by decide

/-! ### Scalar arithmetic and control -/

theorem witness_ScalarArithmetic : At s0 g0 sp0 := ⟨rfl, rfl⟩
theorem witness_ScalarWriteFrame : At s0 g0 sp0 := ⟨rfl, rfl⟩
theorem witness_ScalarArithmetic_zeroDivisor : At s0 g0 sp0 ∧ sp0.reg 0 = 0 := ⟨⟨rfl, rfl⟩, rfl⟩
theorem test_add_wraps : (splitAfter (.add 5 4 1) s0).reg 5 = 6 := by decide
theorem test_write_s0 : (splitAfter (.add 0 1 1) s0).reg 0 = 0 := by decide
theorem test_sub_borrow : (splitAfter (.sub 5 2 1) s0).reg 5 = 0xFFFFFFFFFFFFFFFC := by decide
theorem test_mulh_signed : (splitAfter (.mulh 5 4 1) s0).reg 5 = 0xFFFFFFFFFFFFFFFF := by decide
theorem test_mulhn_unsigned : (splitAfter (.mulhn 5 4 1) s0).reg 5 = 6 := by decide
theorem test_div_truncates : (splitAfter (.div 5 1 2) s0).reg 5 = 2 := by decide
theorem test_div_zero : (splitAfter (.div 5 1 0) s0).reg 5 = 0xFFFFFFFFFFFFFFFF ∧ (groupAfter (.div 5 1 0) s0).csrs.iflags = 1 := by decide
theorem test_rem_zero : (splitAfter (.rem 5 1 0) s0).reg 5 = 7 := by decide
theorem test_sar_sign : (splitAfter (.sari 5 4 63) s0).reg 5 = 0xFFFFFFFFFFFFFFFF := by decide
theorem test_slt_sltn : (splitAfter (.slt 5 4 1) s0).reg 5 = 1 ∧ (splitAfter (.sltn 5 4 1) s0).reg 5 = 0 := by decide
theorem test_sel : (splitAfter (.sel 5 1 2 1) s0).reg 5 = 7 ∧ (splitAfter (.sel 5 1 2 0) s0).reg 5 = 3 := by decide
theorem test_lui_sign : (splitAfter (.lui 5 0x8000) s0).reg 5 = 0xFFFFFFFF80000000 := by decide
theorem test_shlor : (splitAfter (.shlor 5 1 0xFFFF) s0).reg 5 = 0x7FFFF := by decide

theorem witness_ScalarControl_branch (d : BitVec 16) (h : d = 0xFFFF ∨ d = 0) :
    At s0 g0 sp0 ∧ (sp0.pc + 4 + 4 * d.signExtend 64).toNat < 2 ^ 18 ∧ (sp0.pc + 4 + 4 * d.signExtend 64).toNat % 4 = 0
      ∧ (sp0.pc + 4 + 4 * d.signExtend 64).toNat / 8192 = sp0.pc.toNat / 8192 := by
  rcases h with rfl | rfl <;> exact ⟨⟨rfl, rfl⟩, by decide⟩
theorem witness_ScalarControl_cross :
    At s0 g0 sp0 ∧ (sp0.pc + 4 + 4 * (0x2000 : BitVec 16).signExtend 64).toNat < 2 ^ 18 ∧ (sp0.pc + 4 + 4 * (0x2000 : BitVec 16).signExtend 64).toNat % 4 = 0
      ∧ (sp0.pc + 4 + 4 * (0x2000 : BitVec 16).signExtend 64).toNat / 8192 ≠ sp0.pc.toNat / 8192 := ⟨⟨rfl, rfl⟩, by decide⟩
theorem test_beq_taken : (splitAfter (.beq 1 1 0xFFFF) s0).pc = 0x100 := by decide
theorem test_blt_signed : (splitAfter (.blt 4 1 3) s0).pc = 0x110 ∧ (splitAfter (.bltn 4 1 3) s0).pc = 0x104 := by decide
theorem test_bct : (splitAfter (.bct 1 1) s0).pc = 0x108 ∧ (splitAfter (.bcf 1 1) s0).pc = 0x104 := by decide
theorem witness_ScalarControl_jumps :
    At s0 g0 sp0 ∧ (sp0.pc + 4 + 4 * (5 : BitVec 26).signExtend 64).toNat / 8192 = sp0.pc.toNat / 8192
      ∧ (sp0.reg 0 + 4 * (5 : BitVec 16).signExtend 64).toNat % 4 = 0
      ∧ (s0.codeSlot s0.sched.core ((sp0.reg 0 + 4 * (5 : BitVec 16).zeroExtend 64).toNat / 8192)).state = .landed := ⟨⟨rfl, rfl⟩, by decide⟩
/-- A window at 0 of 512 slots for CALL 7; RET 7 from a window at 56. -/
def gWide : Group := { g0 with size := 512, splits := [(0, { sp0 with wb := 56, sregs := [(31, 0x500000040)] })] }
theorem witness_ScalarControl_call :
    At (mk gWide) gWide { sp0 with wb := 56, sregs := [(31, 0x500000040)] } ∧ 56 + 8 * (7 : BitVec 5).toNat + 63 ≤ min (gWide.csrs.rsb + gWide.size - 1) 511
      ∧ 8 * (7 : BitVec 3).toNat + gWide.csrs.rsb ≤ 56 := ⟨⟨rfl, rfl⟩, by decide⟩
theorem test_jal : (splitAfter (.jal 1) s0).pc = 0x108 ∧ (splitAfter (.jal 1) s0).reg 31 = 0x104 := by decide
theorem test_jalr_source_is_link : (splitAfter (.jalr 1 1 0) (mk (withSp { sp0 with sregs := [(1, 0x40)] }))).pc = 0x40 := by decide
theorem test_jmpf_slot_missing : (splitAfter (.jmpf 0 3 0) s0).pc = 0x100 := by decide
theorem test_call : (splitAfter (.call 7 3) (mk gWide)).wb = 112 ∧ (splitAfter (.call 7 3) (mk gWide)).reg 31 = 0x104 := by decide
theorem test_ret : (splitAfter (.ret 7) (mk gWide)).wb = 0 ∧ (splitAfter (.ret 7) (mk gWide)).pc = 0x40 ∧ (splitAfter (.ret 7) (mk gWide)).lp = 5 := by decide
theorem witness_ScalarControl_windows :
    At s0 g0 sp0 ∧ min (g0.csrs.rsb + g0.size - 1) 511 < sp0.wb + 8 * (1 : BitVec 5).toNat + 63 ∧ sp0.wb < 8 * (1 : BitVec 3).toNat + g0.csrs.rsb
      ∧ (BitVec.ofNat 64 ((sp0.reg 31).toNat % 2 ^ 32) : DWord).toNat < 2 ^ 18
      ∧ (BitVec.ofNat 64 ((sp0.reg 31).toNat % 2 ^ 32) : DWord).toNat / 8192 = sp0.pc.toNat / 8192 := ⟨⟨rfl, rfl⟩, by decide⟩
theorem witness_LanePointerResults (n : BitVec 16) (h : n = 1 ∨ n = 64) :
    At s0 g0 sp0 ∧ 1 ≤ n.toNat ∧ n.toNat ≤ 256 ∧ sp0.runs = [] ∧ sp0.lp.toNat < 21824 ∧ (sp0.lp.toNat + n.toNat - 1) / 682 = sp0.lp.toNat / 682
      ∧ (s0.codeSlot s0.sched.core (sp0.lp.toNat / 682)).state = .landed ∧ g0.async.laneq.length + n.toNat ≤ 64 := by
  rcases h with rfl | rfl <;> exact ⟨⟨rfl, rfl⟩, by decide⟩
theorem test_lset : (splitAfter (.lset 1 5) s0).lp = 12 := by decide
theorem test_lrun : (splitAfter (.lrun 2) s0).lp = 2 ∧ (groupAfter (.lrun 2) s0).async.laneq.length = 2 := by decide

/-! ### Scalar memory, traps, control registers -/

/-- The machine with eight bytes at 0x2000. -/
def sMem : State := { s0 with mem := { s0.mem with hbm := [(0x2000, 0xFE), (0x2003, 0x80), (0x2007, 0x7F)] } }
theorem witness_ScalarMemory_ordinary :
    At sMem g0 sp0 ∧ g0.memIssued sMem.sched.split = true ∧ g0.async.loads < 4095 ∧ g0.async.stores < 4095 ∧ sMem.mem.cu = [] ∧ 0x2000 % 8 = 0
      ∧ sMem.checkScalar (sMem.whoOf sMem.sched.core g0) (sp0.reg 3 + (0 : BitVec 16).signExtend 64) 8 .rd = .ok [oneSeg 0x2000 8 0x2000]
      ∧ sMem.checkScalar (sMem.whoOf sMem.sched.core g0) (sp0.reg 3 + (4 : BitVec 16).signExtend 64) 4 .wr = .ok [oneSeg 0x2004 4 0x2004] :=
  ⟨⟨rfl, rfl⟩, rfl, by decide, by decide, rfl, rfl, ok_of (by decide +kernel), ok_of (by decide +kernel)⟩
/-- A split that addresses the scratchpad. -/
def spScratch : Split := { sp0 with sregs := [(3, 0x4000000000003FF8)] }
/-- A team with 16 KiB of scratchpad. -/
def teamScratch : Team := { team0 with part := 0x11, scratch := [(0x3FF8, 5), (0x3FFF, 0x80)] }
def sScratch : State := { mk (withSp spScratch) with head := { State.reset.head with teams := [(0, teamScratch)] } }
/-- The first access an instruction leaves outstanding. -/
def accessAfter (i : Instr) (s : State) : Option Access := ((groupAfter i s).async.access.head?).map (·.2)
theorem test_lds : ((accessAfter (.lds 5 3 0) sMem).map fun a => a.parts.map (·.value)) = some [0x7F000000800000FE] := by decide +kernel
theorem test_ldw_sign : ((accessAfter (.ldw 5 3 0) sMem).map fun a => a.parts.map (·.value)) = some [0xFFFFFFFF800000FE] := by decide +kernel
theorem test_sts : viewOf (nextOf (exec (.sts 4 3 0) sMem)) 0 0x2007 = 0xFF ∧ viewOf (nextOf (exec (.stw 4 3 0) sMem)) 0 0x2007 = 0x7F := by decide +kernel
theorem test_lds_misaligned : (groupAfter (.lds 5 3 4) sMem).ctl.stopped = true ∧ (accessAfter (.lds 5 3 4) sMem) = none := by decide +kernel
theorem witness_ScalarMemory_scratch :
    At sScratch (withSp spScratch) spScratch ∧ sScratch.team 0 = some teamScratch
      ∧ (∀ need, need = Need.rd ∨ need = .wr → sScratch.checkScalar (sScratch.whoOf 0 (withSp spScratch)) (spScratch.reg 3 + (0 : BitVec 16).signExtend 64) 8 need
          = .ok [{ place := .scratch 0 0x3FF8, len := 8, va := 0x4000000000003FF8, fmt := none }]) :=
  ⟨⟨rfl, rfl⟩, rfl, fun _ h => by rcases h with rfl | rfl <;> rfl⟩
theorem test_scratch_load : ((accessAfter (.lds 5 3 0) sScratch).map fun a => a.parts.map (·.value)) = some [0x8000000000000005] := by decide +kernel
theorem test_scratch_end : (accessAfter (.lds 5 3 8) sScratch) = none := by decide +kernel
theorem witness_ScalarAtomicResults :
    At sMem g0 sp0 ∧ (Instr.satom 5 3 1 1 2 0 0).wf = true ∧ (Instr.scas 5 3 1 3 0 1).wf = true
      ∧ sMem.checkScalar (sMem.whoOf 0 g0) (sp0.reg 3) 8 .atom = .ok [oneSeg 0x2000 8 0x2000]
      ∧ sMem.checkScalar (sMem.whoOf 0 g0) (sp0.reg 3) 4 .atom = .ok [oneSeg 0x2000 4 0x2000]
      ∧ (∀ j ∈ upFrom 0 8, sMem.mem.live (0x2000 + j) = none) ∧ sMem.mem.cu = [] := ⟨⟨rfl, rfl⟩, by decide, by decide, ok_of (by decide +kernel), ok_of (by decide +kernel), by decide, rfl⟩
theorem test_satom_add : (nextOf (exec (.satom 5 3 1 1 0 0 0) sMem)).mem.byte 0x2000 = 5 ∧ (nextOf (exec (.satom 5 3 1 1 0 0 0) sMem)).mem.byte 0x2001 = 1 := by decide +kernel
theorem test_scas_old : ((accessAfter (.scas 1 3 2 1 0 0) sMem).map fun a => a.parts.map (·.value)) = some [0x7F000000800000FE] := by decide +kernel
/-- A load that waits for its completion. -/
def accLoad : Access := { load := true, lane := false, split := 0, sreg := some 5, acks := [], reach := 0, nord := false, parts := [regPart 9] }
def gLoad : Group := { g0 with async := { g0.async with loads := 1, access := [(4, accLoad)] } }
theorem witness_AccessCompletes :
    (mk gLoad).group (gkey 0 0) = some gLoad ∧ amGet gLoad.async.access 4 = some accLoad ∧ accLoad.lane = false ∧ accLoad.acks = []
      ∧ (∀ p ∈ accLoad.parts, p.ticket = none) ∧ gLoad.split accLoad.split = some sp0 := ⟨rfl, rfl, rfl, rfl, by decide +kernel, rfl⟩
theorem test_access_completes : (splitAfter (.memoryAccessComplete 0 0 4) (mk gLoad)).reg 5 = 9 ∧ (groupAfter (.memoryAccessComplete 0 0 4) (mk gLoad)).async.loads = 0 := by decide +kernel
/-- Slot 1 with a value, a pending bit and a loaned bit; SPB at 0x3000. -/
def gSpill : Group :=
  { g0 with lanes := { g0.lanes with slots := [(32, 0x11), (63, 0x22)], pbits := [(1, 4)], lbits := [(1, 8)] }, csrs := { g0.csrs with spb := 0x3000 }, splits := [(0, { sp0 with sregs := [(1, 1)] })] }
theorem witness_WindowSpillFill :
    At (mk gSpill) gSpill { sp0 with sregs := [(1, 1)] } ∧ gSpill.resident 1 = true ∧ gSpill.allLaneDone = true ∧ (mk gSpill).mem.cu = []
      ∧ (mk gSpill).checkScalar ((mk gSpill).whoOf 0 gSpill) (gSpill.csrs.spb + BitVec.ofNat 64 128) 128 .wr = .ok [oneSeg 0x3080 128 0x3080]
      ∧ ((mk gSpill).segsWrite 0 [oneSeg 0x3080 128 0x3080] (gSpill.lineBytes 1)).checkScalar ((mk gSpill).whoOf 0 gSpill) (gSpill.csrs.spb - 64 - BitVec.ofNat 64 8) 8 .wr
          = .ok [oneSeg 0x2FB8 8 0x2FB8] := ⟨⟨rfl, rfl⟩, rfl, rfl, rfl, ok_of (by decide +kernel), ok_of (by decide +kernel)⟩
theorem witness_WindowSpillFill_fill :
    (mk gSpill).checkScalar ((mk gSpill).whoOf 0 gSpill) (gSpill.csrs.spb + BitVec.ofNat 64 128) 128 .rd = .ok [oneSeg 0x3080 128 0x3080]
      ∧ ((mk gSpill).segsRead 0 [oneSeg 0x3080 128 0x3080]).1.checkScalar ((mk gSpill).whoOf 0 gSpill) (gSpill.csrs.spb - 64 - BitVec.ofNat 64 8) 8 .rd
          = .ok [oneSeg 0x2FB8 8 0x2FB8]
      ∧ (∀ j ∈ upFrom 0 128, amGet ((mk gSpill).core 0).l1.clean (0x3080 + j) = none ∧ (mk gSpill).mem.live (0x3080 + j) = none)
      ∧ (∀ j ∈ upFrom 0 8, amGet ((mk gSpill).core 0).l1.clean (0x2FB8 + j) = none ∧ (mk gSpill).mem.live (0x2FB8 + j) = none) :=
  ⟨ok_of (by decide +kernel), ok_of (by decide +kernel), by decide +kernel, by decide +kernel⟩
theorem test_wspill_word : viewOf (nextOf (exec (.wspill 1 1) (mk gSpill))) 0 0x2FB8 = 4 ∧ viewOf (nextOf (exec (.wspill 1 1) (mk gSpill))) 0 0x2FBC = 8 := by decide +kernel
theorem test_wfill : (groupAfter (.wfill 1 1) { mk gSpill with mem := { s0.mem with hbm := [(0x2FB8, 9), (0x3084, 7)] } }).slotVal 1 1 = 7
    ∧ (groupAfter (.wfill 1 1) { mk gSpill with mem := { s0.mem with hbm := [(0x2FB8, 9), (0x3084, 7)] } }).pmask 1 = 9 := by decide +kernel

/-- A group whose handler lies at 0x40, with another split that waits for a token; a machine with its code. -/
def gTrap : Group := { g0 with trap := { g0.trap with vec := 0x40 }, splits := [(0, sp0), (1, { sp0 with status := .waitT 3 false, pc := 0x200 })] }
/-- The same group in its handler, after a scalar trap at 0x104 with SKIP. -/
def gHandler : Group :=
  { gTrap with trap := { gTrap.trap with cause := 0xC0011, rpc := 0x104, rlp := 9 }, ctl := { gTrap.ctl with trapSplit := some 0 } }
/-- In the handler of a lane trap with SKIP, two entries held. -/
def entry0 : LaneEntry := { bits := 0, tag := { split := 0, mask := BitVec.allOnes 32, wb := 0, pc := 0x100, lp := 0, regs := none } }
def gLaneHandler : Group :=
  { gHandler with trap := { gHandler.trap with cause := 0xD0001 }, async := { gHandler.async with held := [entry0, { entry0 with bits := 1 }] } }
theorem witness_TrapEntryAndReturn_entry :
    At (mk gTrap) gTrap sp0 ∧ gTrap.ctl.trapSplit = none ∧ gTrap.trap.vec ≠ 0
      ∧ ((mk gTrap).codeSlot 0 (gTrap.trap.vec.toNat / 8192)).state = .landed ∧ noQuant (mk gTrap) := ⟨⟨rfl, rfl⟩, rfl, by decide, rfl, by decide, rfl⟩
theorem witness_TrapEntryAndReturn_escalates :
    At s0 g0 sp0 ∧ g0.trap.vec = 0 ∧ s0.team g0.team = some team0 ∧ s0.rcbField team0.asid team0.rcb 88 8 = 0 ∧ s0.rcbCof team0.asid team0.rcb = false :=
  ⟨⟨rfl, rfl⟩, rfl, rfl, by decide +kernel, by decide +kernel⟩
theorem witness_TrapEntryAndReturn_return :
    At (mk gHandler) gHandler sp0 ∧ gHandler.ctl.trapSplit = some (mk gHandler).sched.split ∧ gHandler.laneDone 0 = true
      ∧ At (mk gLaneHandler) gLaneHandler sp0 ∧ gLaneHandler.laneDone 0 = true ∧ At s0 g0 sp0 ∧ g0.ctl.trapSplit ≠ some s0.sched.split :=
  ⟨⟨rfl, rfl⟩, rfl, rfl, ⟨rfl, rfl⟩, rfl, ⟨rfl, rfl⟩, by decide⟩
theorem test_trap_entry : (splitAfter (.trap 42) (mk gTrap)).pc = 0x40 ∧ (groupAfter (.trap 42) (mk gTrap)).trap.cause = 0xC2A11
    ∧ (groupAfter (.trap 42) (mk gTrap)).trap.rpc = 0x100 := by decide +kernel
theorem test_brk_other_split : ((groupAfter (.brk 1) (mk gTrap)).split 1).map (·.status) = some .ready := by decide +kernel
theorem test_eret_skip : (splitAfter .eret (mk gHandler)).pc = 0x108 ∧ (splitAfter .eret (mk gHandler)).lp = 9 ∧ (groupAfter .eret (mk gHandler)).trap.cause = 0x80011 := by decide
theorem test_eret_lane_skip : (splitAfter .eret (mk gLaneHandler)).pc = 0x104 ∧ (groupAfter .eret (mk gLaneHandler)).async.laneq = [{ entry0 with bits := 1 }] := by decide
/-- A split asleep until cycle 0. -/
def gAsleep : Group := { g0 with splits := [(0, { sp0 with status := .sleep 0, naps := [(0x100, 0)] })] }
theorem witness_NopSleepExit :
    At s0 g0 sp0 ∧ sp0.naps = [] ∧ sp0.reg 0 = 0 ∧ sp0.reg 4 ≠ 0 ∧ g0.laneDone 0 = true ∧ g0.ctl.trapSplit ≠ some s0.sched.split ∧ noQuant s0
      ∧ (∀ k, k ≠ s0.sched.split → g0.split k = none) :=
  ⟨⟨rfl, rfl⟩, rfl, rfl, by decide, rfl, by decide, ⟨by decide, rfl⟩, fun k h => by
    have hk : k ≠ 0 := h
    simp [g0, Group.split, amGet, hk]⟩
theorem noJoin_gTrap : noJoin gTrap := by
  intro x h id m e
  simp only [gTrap, List.mem_cons, List.not_mem_nil, or_false] at h
  rcases h with rfl | rfl <;> cases e
theorem witness_NopSleepExit_others :
    At (mk gTrap) gTrap sp0 ∧ gTrap.laneDone 0 = true ∧ gTrap.ctl.trapSplit ≠ some (mk gTrap).sched.split ∧ noJoin gTrap ∧ (gTrap.split 1).isSome = true
      ∧ At (mk gAsleep) gAsleep { sp0 with status := .sleep 0, naps := [(0x100, 0)] } ∧ 0 ≤ (mk gAsleep).now :=
  ⟨⟨rfl, rfl⟩, rfl, by decide, noJoin_gTrap, rfl, ⟨rfl, rfl⟩, Nat.le_refl _⟩
theorem test_sleep_max : (splitAfter (.sleep 4) s0).status = .sleep (2 ^ 32 - 1) := by decide
theorem test_exit_last : (nextOf (exec .exit s0)).curGroup = none := by decide +kernel
theorem test_exit_alive : (groupAfter .exit (mk gTrap)).lanes.alive = 0 ∧ ((groupAfter .exit (mk gTrap)).split 0) = none := by decide +kernel
theorem witness_ControlRegisters_reads : At s0 g0 sp0 ∧ s0.team g0.team = some team0 ∧ g0.laneDone s0.sched.split = true := ⟨⟨rfl, rfl⟩, rfl, rfl⟩
/-- Values at the edges of what CSRW accepts: RSB 448, SPB 2^63 - 128, CQB 256. -/
def gCsr (v : DWord) : Group :=
  { gHandler with size := 64, splits := [(0, { sp0 with wb := 448, sregs := [(1, v)] })] }
theorem witness_ControlRegisters_rsb :
    At (mk (gCsr 448)) (gCsr 448) { sp0 with wb := 448, sregs := [(1, 448)] } ∧ (gCsr 448).allLaneDone = true ∧ (448 : DWord).toNat + (gCsr 448).size ≤ 512
      ∧ (∀ x ∈ (gCsr 448).splits, (448 : DWord).toNat ≤ x.2.wb ∧ x.2.wb + 64 ≤ (448 : DWord).toNat + (gCsr 448).size)
      ∧ 512 < (456 : DWord).toNat + (gCsr 456).size ∧ (∃ x ∈ (gCsr 440).splits, (440 : DWord).toNat + (gCsr 440).size < x.2.wb + 64) :=
  ⟨⟨rfl, rfl⟩, rfl, by decide, by decide, by decide, ⟨_, List.mem_cons_self .., by decide⟩⟩
theorem witness_ControlRegisters_cause :
    (∀ i, i < 17 ∨ i = 18 → (0x40011 : DWord).getLsbD i = (0x40011 : Word).getLsbD i)
      ∧ ∃ i, (i < 17 ∨ i = 18) ∧ (0x40010 : DWord).getLsbD i ≠ (0x40011 : Word).getLsbD i := by
  refine ⟨fun i h => ?_, ⟨0, by decide⟩⟩
  rcases h with h | rfl
  · have : ∀ j : Fin 17, (0x40011 : DWord).getLsbD j.val = (0x40011 : Word).getLsbD j.val := by decide
    exact this ⟨i, h⟩
  · decide
theorem test_csrr_locid : (splitAfter (.csrr 5 0x03) s0).reg 5 = 0 ∧ (splitAfter (.csrr 5 0x17) (mk gTrap)).reg 5 = 0x40 := by decide +kernel
theorem test_csrw_rsb : (groupAfter (.csrw 1 0x20) (mk (gCsr 448))).csrs.rsb = 448 := by decide
theorem test_csrw_readonly : (groupAfter (.csrw 1 0x00) (mk gTrap)).trap.cause = 0x40001 := by decide +kernel

/-! ### Lane operands, results, arithmetic -/

/-- The head of a lane queue at window 0. -/
def e0 : LaneEntry := { bits := 0, tag := { split := 0, mask := BitVec.allOnes 32, wb := 0, pc := 0x100, lp := 0, regs := none } }
/-- A group with an entry at the head, and slots of lane 0 (slot, value). -/
def gLane (vals : List (Nat × Word)) : Group :=
  { g0 with lanes := { g0.lanes with slots := vals.map fun x => (x.1 * 32, x.2) }, async := { g0.async with laneq := [e0] } }
/-- Two sources in v2 and v4, a third in v6; the destination is v0. -/
def form (t : BitVec 4) : LaneF := { blank with va := 2, td := t, ta := t }
def form2 (t : BitVec 4) : LaneF := { form t with vb := 4 }
def form3 (t : BitVec 4) : LaneF := { form2 t with vc := 6 }
/-- v0 of lane 0 after an instruction on v2, v4 and v6. -/
def out (i : Instr) (a b c : Word) : Word := (groupAfter i (mk (gLane [(2, a), (4, b), (6, c)]))).slotVal 0 0
/-- FFLAGS and IFLAGS after it. -/
def flags (i : Instr) (a b c : Word) : BitVec 5 × BitVec 2 :=
  let g := groupAfter i (mk (gLane [(2, a), (4, b), (6, c)]))
  (g.csrs.fflags, g.csrs.iflags)

theorem witness_LaneOperands (c : BitVec 7) (h : c = 64 ∨ c = 95) :
    64 ≤ c.toNat ∧ c.toNat ≤ 95 ∧ e0.tag.regs = none ∧ (gLane []).split e0.tag.split = some sp0 ∧ wideType 6 = true ∧ wideType 5 = false := by
  rcases h with rfl | rfl <;> exact ⟨by decide, by decide, rfl, rfl, rfl, rfl⟩
theorem witness_LaneFrames : (gLane []).size ≠ 1 ∧ (mk (gLane [])).curGroup = some (gLane []) ∧ (gLane []).async.laneq = e0 :: [] := ⟨by decide, rfl, rfl⟩
theorem witness_LaneIllegal : LaneAt (mk (gLane [])) (gLane []) e0 ∧ laneParts (.iadd { blank with vc := 1 }) = some (0, { blank with vc := 1 })
    ∧ (Instr.iadd { blank with vc := 1 }).wf = false := ⟨⟨rfl, rfl⟩, by decide, by decide⟩
theorem witness_LaneIntegers : LaneAt (mk (gLane [])) (gLane []) e0
    ∧ (∀ i ∈ [Instr.iadd (form2 6), .isub (form2 6), .imul (form2 0), .imulh (form2 7), .imad (form3 4), .idiv (form2 4), .irem (form2 4), .imin (form2 4), .imax (form2 4),
        .iabs (form 4), .ineg (form 4), .laneAnd (form2 4), .laneOr (form2 4), .laneXor (form2 4), .andn (form2 4), .laneNot (form 4), .laneShl (form2 4), .laneShr (form2 4),
        .laneSar (form2 4), .rot (form2 4), .clz (form 4), .popc (form 4), .brev (form 4), .bfx (form2 4), .bfi (form3 4)], i.wf = true) := ⟨⟨rfl, rfl⟩, by decide⟩
theorem witness_LaneComparesAndMoves : LaneAt (mk (gLane [])) (gLane []) e0
    ∧ (∀ i ∈ [Instr.icmp { form2 4 with vd := 7, fn := 21 }, .fcmp { form2 12 with fn := 23 }, .laneSel { form2 14 with fn := 15 }, .mov (form 12)], i.wf = true) := ⟨⟨rfl, rfl⟩, by decide⟩
theorem test_iadd_wraps : out (.iadd (form2 4)) 0x7FFFFFFF 1 0 = 0x80000000 ∧ out (.iadd { form2 4 with fn := 1 }) 0x7FFFFFFF 1 0 = 0x7FFFFFFF
    ∧ flags (.iadd { form2 4 with fn := 1 }) 0x7FFFFFFF 1 0 = (0, 2) := by decide +kernel
theorem test_isub_n8 : out (.isub (form2 1)) 3 5 0 = 0xFE ∧ out (.isub (form2 0)) 3 5 0 = 0xFFFFFFFE := by decide +kernel
theorem test_imul_sat : out (.imul { form2 2 with fn := 1 }) 0x7000 0x7000 0 = 0x7FFF := by decide +kernel
theorem test_imulh : out (.imulh (form2 4)) 0xFFFFFFFF 5 0 = 0xFFFFFFFF ∧ out (.imulh (form2 5)) 0xFFFFFFFF 5 0 = 4 := by decide +kernel
theorem test_imad : out (.imad (form3 4)) 3 5 7 = 22 := by decide +kernel
theorem test_idiv : out (.idiv (form2 4)) 0xFFFFFFF9 2 0 = 0xFFFFFFFD ∧ out (.idiv (form2 5)) 9 0 0 = 0xFFFFFFFF ∧ flags (.idiv (form2 5)) 9 0 0 = (0, 1) := by decide +kernel
theorem test_irem : out (.irem (form2 4)) 0xFFFFFFF9 2 0 = 0xFFFFFFFF ∧ out (.irem (form2 5)) 9 0 0 = 9 := by decide +kernel
theorem test_imin_imax : out (.imin (form2 4)) 0xFFFFFFFF 2 0 = 0xFFFFFFFF ∧ out (.imax (form2 5)) 0xFFFFFFFF 2 0 = 0xFFFFFFFF := by decide +kernel
theorem test_iabs_ineg : out (.iabs { form 4 with fn := 1 }) 0x80000000 0 0 = 0x7FFFFFFF ∧ out (.iabs (form 4)) 0x80000000 0 0 = 0x80000000 ∧ out (.ineg (form 4)) 1 0 0 = 0xFFFFFFFF := by
  decide +kernel
theorem test_logic : out (.laneAnd (form2 4)) 12 10 0 = 8 ∧ out (.laneOr (form2 4)) 12 10 0 = 14 ∧ out (.laneXor (form2 4)) 12 10 0 = 6 ∧ out (.andn (form2 4)) 12 10 0 = 4
    ∧ out (.laneNot (form 5)) 0 0 0 = 0xFFFFFFFF := by decide +kernel
theorem test_shift_width : out (.laneShl (form2 5)) 1 32 0 = 0 ∧ out (.laneShr (form2 5)) 0x80000000 32 0 = 0 ∧ out (.laneSar (form2 4)) 0x80000000 40 0 = 0xFFFFFFFF := by decide +kernel
theorem test_rot : out (.rot (form2 5)) 0x80000001 33 0 = 3 := by decide +kernel
theorem test_clz_popc_brev : out (.clz (form 5)) 0 0 0 = 32 ∧ out (.clz (form 4)) 1 0 0 = 31 ∧ out (.popc (form 5)) 0xF0F 0 0 = 8 ∧ out (.brev (form 5)) 1 0 0 = 0x80000000 := by decide +kernel
theorem test_bfx_bfi : out (.bfx (form2 4)) 0xF0 0x0404 0 = 0xFFFFFFFF ∧ out (.bfx (form2 5)) 0xF0 0x0404 0 = 15 ∧ out (.bfi (form3 5)) 0xFFFF 5 0x0808 = 0x05FF := by decide +kernel
/-- The named predicate of lane 0 after a compare. -/
def predAfter (i : Instr) (p : Nat) (a b : Word) : Bool := ((groupAfter i (mk (gLane [(2, a), (4, b)]))).pred p).getLsbD 0
theorem test_icmp : predAfter (.icmp { form2 4 with vd := 1, fn := 2 }) 1 0xFFFFFFFF 1 = true ∧ predAfter (.icmp { form2 5 with vd := 1, fn := 2 }) 1 0xFFFFFFFF 1 = false
    ∧ predAfter (.icmp { form2 4 with vd := 1, fn := 10 }) 1 0 1 = false := by decide +kernel
theorem test_fcmp_nan : predAfter (.fcmp { form2 12 with vd := 1, fn := 0 }) 1 0x7FC00000 0x7FC00000 = false ∧ predAfter (.fcmp { form2 12 with vd := 1, fn := 0 }) 1 0x80000000 0 = true := by
  decide +kernel
theorem test_sel_mov : out (.laneSel (form2 12)) 1 2 0 = 1 ∧ out (.laneSel { form2 12 with fn := 9 }) 1 2 0 = 1 ∧ out (.mov { form 5 with va := 127, w2 := 77 }) 0 0 0 = 77 := by decide +kernel

/-! ### Floating, packed and converting instructions -/

theorem witness_LaneFloatResults : LaneAt (mk (gLane [])) (gLane []) e0
    ∧ (∀ i ∈ [Instr.fadd { form2 10 with rm := 4 }, .fsub (form2 11), .fmul (form2 12), .fma (form3 12), .fdiv (form2 12), .fmin { form2 12 with fn := 1 }, .fmax (form2 12), .fabs (form 12),
        .fneg (form 12), .frcp (form 12), .frsq (form 12), .fsqrt (form 12), .fexp2 (form 12), .flog2 (form 12), .fsinpi (form 12), .fcospi (form 12), .fscale (form2 12), .frint (form 12),
        .fclass { form 5 with ta := 12 }], i.wf = true) := ⟨⟨rfl, rfl⟩, by decide⟩
theorem witness_FloatRounding :
    ((fmtOf 12).read 0x7FC00000).isNan = true ∧ (fmtOf 12).read 0x7F800000 = .inf false ∧ (fmtOf 12).read 0xFF800000 = .inf true ∧ ((fmtOf 12).read 0).isZero = true
      ∧ (fmtOf 12).read 0 = .fin false 0 (-149) ∧ (fmtOf 12).read 0x3F800000 = .fin false (2 ^ 23) (-23) ∧ ((fmtOf 12).round 0 false (.fin true 1 (-200))).ff.getLsbD 2 = false := by decide +kernel
theorem witness_LanePackedResults : LaneAt (mk (gLane [])) (gLane []) e0
    ∧ (∀ i ∈ [Instr.hadd2 (form2 10), .hmul2 (form2 11), .hfma2 (form3 10), .idot4 { form3 4 with ta := 0, fn := 3 }, .idot2 { form3 6 with ta := 3 }, .cvt { form 8 with ta := 12, fn := 1 },
        .cvtp { form2 0 with ta := 12, fn := 3 }, .cvtx { form 12 with ta := 8, fn := 3 }, .bpdec { form 12 with ta := 13, fn := 7 }, .bpenc { form 13 with ta := 12 },
        .bpenc { form2 13 with ta := 12, fn := 1 }], i.wf = true) ∧ (gLane []).size ≠ 1 := ⟨⟨rfl, rfl⟩, by decide, by decide⟩
theorem test_fadd : out (.fadd (form2 12)) 0x4B800000 0x3F800000 0 = 0x4B800000 ∧ flags (.fadd (form2 12)) 0x4B800000 0x3F800000 0 = (1, 0)
    ∧ out (.fadd { form2 12 with rm := 2 }) 0x4B800000 0x3F800000 0 = 0x4B800001 := by decide +kernel
theorem test_fsub_zero : out (.fsub (form2 12)) 0x3F800000 0x3F800000 0 = 0 ∧ out (.fsub { form2 12 with rm := 3 }) 0x3F800000 0x3F800000 0 = 0x80000000 := by decide +kernel
theorem test_fmul : out (.fmul (form2 12)) 0x40000000 0xC0400000 0 = 0xC0C00000 ∧ out (.fmul (form2 12)) 0x7F800000 0 0 = 0x7FC00000 := by decide +kernel
theorem test_fma_once : out (.fma (form3 12)) 0x3F800001 0x3F800001 0xBF800002 = 0x28800000 := by decide +kernel
/-- Lane 0 divides 1 by 0 (DZ), the other lanes 0 by 0 (NV). -/
theorem test_fdiv : out (.fdiv (form2 12)) 0x3F800000 0x40400000 0 = 0x3EAAAAAB ∧ flags (.fdiv (form2 12)) 0x3F800000 0 0 = (24, 0) := by decide +kernel
theorem test_fmin_zero : out (.fmin (form2 12)) 0 0x80000000 0 = 0x80000000 ∧ out (.fmax { form2 12 with fn := 1 }) 0x7FC00000 0x3F800000 0 = 0x3F800000 := by decide +kernel
theorem test_fabs_fneg_payload : out (.fabs (form 12)) 0xFFC00001 0 0 = 0x7FC00001 ∧ out (.fneg (form 12)) 0x7FC00001 0 0 = 0xFFC00001 := by decide +kernel
theorem test_frcp_frsq_fsqrt : out (.frcp (form 12)) 0x40000000 0 0 = 0x3F000000 ∧ out (.frsq (form 12)) 0x40800000 0 0 = 0x3F000000 ∧ out (.fsqrt (form 12)) 0x41100000 0 0 = 0x40400000 := by
  decide +kernel
theorem test_fexp2_exact : out (.fexp2 (form 12)) 0x40400000 0 0 = 0x41000000 ∧ out (.flog2 (form 12)) 0x41000000 0 0 = 0x40400000 := by decide +kernel
theorem test_sinpi_quarter : out (.fsinpi (form 12)) 0x3F000000 0 0 = 0x3F800000 ∧ out (.fcospi (form 12)) 0x3F800000 0 0 = 0xBF800000 := by decide +kernel
theorem test_fscale : out (.fscale (form2 12)) 0x3F800000 0xFFFFFFFF 0 = 0x3F000000 := by decide +kernel
theorem test_frint_tie : out (.frint (form 12)) 0x40200000 0 0 = 0x40000000 ∧ out (.frint { form 12 with rm := 1 }) 0xBFC00000 0 0 = 0xBF800000 := by decide +kernel
/-- e4 0x57 is 15 and e5 0x3A is 0.75 (R43's worked values). -/
theorem test_cvt_small : out (.cvt { form 12 with ta := 8 }) 0x57 0 0 = 0x41700000 ∧ out (.cvt { form 12 with ta := 9 }) 0x3A 0 0 = 0x3F400000 := by decide +kernel
theorem test_cvt_saturates : out (.cvt { form 4 with ta := 12 }) 0x4F000000 0 0 = 0x7FFFFFFF := by decide +kernel
theorem test_cvtp_cvtx : out (.cvtp { form2 2 with ta := 4 }) 5 0xFFFFFFFF 0 = 0xFFFF0005 ∧ out (.cvtx { form 4 with ta := 0, fn := 3 }) 0x80112233 0 0 = 0xFFFFFF80 := by decide +kernel
theorem test_hadd2 : out (.hadd2 (form2 10)) 0x3C003C00 0x40003C00 0 = 0x42004000 ∧ out (.hmul2 (form2 10)) 0x40003C00 0x40003C00 0 = 0x44003C00
    ∧ out (.hfma2 (form3 10)) 0x40003C00 0x40003C00 0x3C003C00 = 0x45004000 := by decide +kernel
theorem test_idot : out (.idot4 { form3 4 with ta := 0 }) 0xFF020304 0x01010101 10 = 18 ∧ out (.idot2 { form3 4 with ta := 2 }) 0xFFFF0003 0x00020002 10 = 14 := by decide +kernel
/-- The element -37 under scale 0x3E80 at 8, 4 and 3 planes (R47's worked decode). -/
theorem test_bpdec_planes : out (.bpdec { form 12 with ta := 13 }) 0x3E8000DB 0 0 = 0xC1140000 ∧ out (.bpdec { form 12 with ta := 13, fn := 3 }) 0x3E8000DB 0 0 = 0xC1200000
    ∧ out (.bpdec { form 12 with ta := 13, fn := 2 }) 0x3E8000DB 0 0 = 0xC1400000 := by decide +kernel
/-- Lanes 0 to 2 hold 5.0, -1.0 and 0.5, the others 0.0 (R79's worked block). -/
def gBlock : Group := { gLane [] with lanes := { g0.lanes with slots := [(64, 0x40A00000), (65, 0xBF800000), (66, 0x3F000000)] } }
theorem test_bpenc_block : [0, 1, 2, 3].map (fun i => (groupAfter (.bpenc { form 13 with ta := 12 }) (mk gBlock)).slotVal 0 i) = [0x3D22007E, 0x3D2200E7, 0x3D22000D, 0x3D220000]
    ∧ (groupAfter (.bpenc { form 13 with ta := 12 }) (mk gBlock)).csrs.fflags = 1 := by decide +kernel
theorem noJoin_gLane : noJoin (gLane []) := by
  intro x h id m e
  have hx : x = (0, sp0) := List.mem_singleton.mp h
  subst hx
  cases e
theorem witness_PredicateResults : LaneAt (mk (gLane [])) (gLane []) e0 ∧ noJoin (gLane [])
    ∧ (∀ i ∈ [Instr.pand { blank with vd := 7, va := 7, vb := 1, fn := 3 }, .por { blank with vd := 1 }, .pxor blank, .pnot { blank with vd := 1 }, .lkill blank], i.wf = true) :=
  ⟨⟨rfl, rfl⟩, noJoin_gLane, by decide⟩
theorem test_predicates : predAfter (.pand { blank with vd := 1, fn := 2 }) 1 0 0 = false ∧ predAfter (.por { blank with vd := 1, va := 2, vb := 3 }) 1 0 0 = false
    ∧ predAfter (.pxor { blank with vd := 1, va := 2 }) 1 0 0 = true ∧ predAfter (.pnot { blank with vd := 1, va := 2 }) 1 0 0 = true ∧ predAfter (.pnot blank) 0 0 0 = true := by decide +kernel
theorem test_lkill : (groupAfter (.lkill { blank with pg := 1 }) (mk (gLane []))).lanes.alive = 0xFFFFFFFF ∧ (groupAfter (.lkill blank) (mk (gLane []))).lanes.alive = 0 := by decide +kernel

/-! ### Lane memory -/

/-- Lanes 0 and 31 address 0x2000 and 0x2004 through v2:v3; v4 holds data. -/
def gTwo : Group :=
  { g0 with lanes := { g0.lanes with alive := 0x80000001, slots := [(64, 0x2000), (95, 0x2004), (128, 0x11223344), (159, 0x55667788)] }, async := { g0.async with laneq := [e0] } }
/-- One lane, at 0x2000 through s3. -/
def gOne : Group := { g0 with lanes := { g0.lanes with alive := 4, slots := [(130, 5), (194, 7)] }, async := { g0.async with laneq := [e0] } }
/-- A machine with a group and the bytes of `sMem`. -/
def mkMem (g : Group) : State := { mk g with mem := sMem.mem }
/-- A load form with base v2, and one with base s3. -/
def ldV : LaneF := { blank with vd := 0, va := 2, td := 5, ta := 5 }
def ldS : LaneF := { blank with vd := 0, va := 67, td := 5, ta := 5 }
def stV : LaneF := { blank with va := 2, vb := 4, td := 5, ta := 5 }
theorem witness_LaneMemoryChecks_none : LaneAt (mkMem (gLane [])) (gLane []) e0 ∧ (gLane []).active e0 { ldV with pn := 1 } = 0
    ∧ (∀ i ∈ [Instr.ld { ldV with pn := 1 }, .lda { ldV with pn := 1 }], i.wf = true) := ⟨⟨rfl, rfl⟩, by decide, by decide⟩
/-- Lane 31's page is not mapped. -/
def gBad : Group := { gTwo with lanes := { gTwo.lanes with slots := [(64, 0x2000), (95, 0x40000000), (128, 1)] } }
theorem witness_LaneMemoryChecks_fault : LaneAt (mkMem gBad) gBad e0 ∧ 31 ∈ lanesOf (gBad.active e0 ldV) ∧ (Instr.ld ldV).wf = true ∧ (Instr.st stV).wf = true ∧ stV.fn = 0
    ∧ (mkMem gBad).checkLane ((mkMem gBad).whoOf 0 gBad) (laneAddr gBad e0 ldV 0) 5 .ld .rd = .ok (.plain [oneSeg 0x2000 4 0x2000])
    ∧ (mkMem gBad).checkLane ((mkMem gBad).whoOf 0 gBad) (laneAddr gBad e0 ldV 31) 5 .ld .rd = .error (.trap 0x03, false)
    ∧ (mkMem gBad).checkLane ((mkMem gBad).whoOf 0 gBad) (laneAddr gBad e0 stV 31) 5 .st .wr = .error (.trap 0x03, false) :=
  ⟨⟨rfl, rfl⟩, by decide, by decide, by decide, rfl, ok_of (by decide +kernel), error_of (by decide +kernel), error_of (by decide +kernel)⟩
theorem witness_LaneLoadStore : LaneAt (mkMem gTwo) gTwo e0 ∧ (Instr.ld ldV).wf = true ∧ gTwo.active e0 ldV ≠ 0 ∧ gTwo.async.loads < 4095 ∧ (mkMem gTwo).mem.cu = []
    ∧ lanesOf (gTwo.active e0 ldV) = [0, 31] ∧ (∀ i, i = 0 ∨ i = 31 → notCached (mkMem gTwo) 0 (0x2000 + i / 31 * 4) 4
        ∧ (mkMem gTwo).checkLane ((mkMem gTwo).whoOf 0 gTwo) (laneAddr gTwo e0 ldV i) 5 .ld .rd = .ok (.plain [oneSeg (0x2000 + i / 31 * 4) 4 (0x2000 + i / 31 * 4)])
        ∧ (mkMem gTwo).checkLane ((mkMem gTwo).whoOf 0 gTwo) (laneAddr gTwo e0 stV i) 5 .st .wr = .ok (.plain [oneSeg (0x2000 + i / 31 * 4) 4 (0x2000 + i / 31 * 4)])) :=
  ⟨⟨rfl, rfl⟩, by decide, by decide, by decide, rfl, by decide, fun i h => by
    rcases h with rfl | rfl <;> exact ⟨fun _ _ _ => ⟨rfl, rfl⟩, ok_of (by decide +kernel), ok_of (by decide +kernel)⟩⟩
theorem witness_LaneLoadStore_one : LaneAt (mkMem gOne) gOne e0 ∧ lanesOf (gOne.active e0 ldS) = [2] ∧ (Instr.ld ldS).wf = true
    ∧ (mkMem gOne).checkLane ((mkMem gOne).whoOf 0 gOne) (laneAddr gOne e0 ldS 2) 5 .ld .rd = .ok (.plain [oneSeg 0x2000 4 0x2000]) :=
  ⟨⟨rfl, rfl⟩, by decide, by decide, ok_of (by decide +kernel)⟩
/-- One lane in the scratchpad, through s3. -/
def gPad : Group := { gOne with splits := [(0, spScratch)] }
def sPad : State := { mk gPad with head := { State.reset.head with teams := [(0, teamScratch)] } }
theorem witness_LaneLoadStore_scratch : LaneAt sPad gPad e0 ∧ sPad.team 0 = some teamScratch
    ∧ sPad.checkLane (sPad.whoOf 0 gPad) (laneAddr gPad e0 ldS 2) 5 .ld .rd = .ok (.plain [{ place := .scratch 0 0x3FF8, len := 4, va := 0x4000000000003FF8, fmt := none }]) :=
  ⟨⟨rfl, rfl⟩, rfl, ok_of (by decide +kernel)⟩
/-- The values the first outstanding access holds, with their lanes. -/
def heldAfter (i : Instr) (s : State) : Option (List (Nat × DWord)) := (accessAfter i s).map fun a => a.parts.map fun p => (p.lane, p.value)
theorem test_ld_lanes : heldAfter (.ld ldV) (mkMem gTwo) = some [(0, 0x800000FE), (31, 0x7F000000)] := by decide +kernel
theorem test_ld_guard_off : heldAfter (.ld { ldV with pn := 1 }) (mkMem gTwo) = none := by decide +kernel
theorem test_st_overlap : viewOf (nextOf (exec (.st { stV with va := 67 }) (mkMem gTwo))) 0 0x2000 = 0x88 := by decide +kernel
theorem test_ld_page_fault : heldAfter (.ld ldV) (mkMem gBad) = none := by decide +kernel
theorem witness_LaneAtomicResults : LaneAt (mkMem gOne) gOne e0 ∧ lanesOf (gOne.active e0 ldS) = [2] ∧ (mkMem gOne).mem.cu = []
    ∧ (∀ k ∈ upFrom 0 4, (mkMem gOne).mem.live (0x2000 + k) = none)
    ∧ (∀ i ∈ [Instr.atom { ldS with vb := 4, fn := 16 }, .cas { ldS with vb := 4, vc := 6, fn := 32, rm := 2 }, .lda { ldS with fn := 48 }, .str { ldS with vb := 4, fn := 16 }], i.wf = true)
    ∧ (∀ need, need = Need.atom ∨ need = .rd ∨ need = .wr →
        (mkMem gOne).checkLane ((mkMem gOne).whoOf 0 gOne) (laneAddr gOne e0 ldS 2) 5 .atom need = .ok (.plain [oneSeg 0x2000 4 0x2000])) :=
  ⟨⟨rfl, rfl⟩, by decide, rfl, by decide, by decide, fun _ h => by rcases h with rfl | rfl | rfl <;> exact ok_of (by decide +kernel)⟩
theorem test_atom_add : (nextOf (exec (.atom { ldS with vb := 4, fn := 16 }) (mkMem gOne))).mem.byte 0x2000 = 3 ∧ heldAfter (.atom { ldS with vb := 4, fn := 16 }) (mkMem gOne) = some [(2, 0x800000FE)] := by
  decide +kernel
theorem test_cas_fails : (nextOf (exec (.cas { ldS with vb := 4, vc := 6, fn := 16 }) (mkMem gOne))).mem.byte 0x2000 = 0xFE := by decide +kernel
theorem test_str : (nextOf (exec (.str { ldS with vb := 4, fn := 16 }) (mkMem gOne))).mem.byte 0x2000 = 5 ∧ heldAfter (.lda { ldS with fn := 16 }) (mkMem gOne) = some [(2, 0x800000FE)] := by decide +kernel
theorem witness_PrefetchAndLaneCompletion : LaneAt (mkMem gTwo) gTwo e0 ∧ (Instr.pref { blank with va := 2 }).wf = true ∧ (mkMem gTwo).mem.cu = [] := ⟨⟨rfl, rfl⟩, by decide, rfl⟩
/-- Two lanes' values outstanding, one of them a pair. -/
def accLanes : Access :=
  { load := true, lane := true, split := 0, sreg := none, acks := [], reach := 0, nord := false,
    parts := [{ lane := 0, slot := 5, wide := false, ticket := none, value := 9 }, { lane := 31, slot := 62, wide := true, ticket := none, value := 0x500000006 }] }
def gLanes : Group := { g0 with async := { g0.async with loads := 1, access := [(0, accLanes)] } }
theorem witness_PrefetchAndLaneCompletion_access : (mk gLanes).group (gkey 0 0) = some gLanes ∧ amGet gLanes.async.access 0 = some accLanes ∧ accLanes.lane = true
    ∧ (∀ p ∈ accLanes.parts, p.ticket = none ∧ p.lane < 32) ∧ (accLanes.parts.map (·.lane)).Nodup ∧ gLanes.size ≠ 1 := ⟨rfl, rfl, rfl, by decide, by decide, by decide⟩
theorem test_lane_completion : (groupAfter (.memoryAccessComplete 0 0 0) (mk gLanes)).slotVal 63 31 = 5 ∧ (groupAfter (.memoryAccessComplete 0 0 0) (mk gLanes)).slotVal 5 0 = 9 := by decide +kernel
/-- 64 elements at another rank, in two blocks of 32. -/
def farPair : List (LaneTo × Nat) := (upFrom 0 64).map fun k =>
  ({ lane := k % 32, addr := BitVec.ofNat 64 k, place := .elem { place := .remote 30 0 (k + 96 * (k / 32)), len := 1, va := 0, fmt := none } }, 7)
theorem test_store_formats : probesFormats farPair = true ∧ elemCheck (allElems ((upFrom 0 64).map fun k => 0x88 - k / 32) farPair) = some (32, cFormatEdge) := by decide +kernel

/-- The worked record of ten i32 values: origin 8, padding -1, here at base 0x2000. -/
def tensorBytes : List Byte :=
  bytesOf 8 0x14 ++ bytesOf 8 0x2000 ++ bytesOf 24 10 ++ bytesOf 48 4 ++ bytesOf 24 0 ++ bytesOf 24 10 ++ bytesOf 8 0xFFFFFFFF ++ bytesOf 24 8 ++ bytesOf 12 32 ++ bytesOf 12 0
/-- The values 100 + i at 0x2000 + 4 i. -/
def cells100 : List Host.Cell := (upFrom 0 10).map fun i => (0x2000 + 4 * i, BitVec.ofNat 8 (100 + i))
/-- Each of four lanes has its LID in v2; the record lies at s4 = 0x3000. -/
def gTensor : Group :=
  { g0 with lanes := { g0.lanes with alive := 15, slots := [(65, 1), (66, 2), (67, 3), (193, 7)] }, async := { g0.async with laneq := [e0] },
            splits := [(0, { sp0 with sregs := [(4, 0x3000)] })] }
def sTensor : State := { mk gTensor with mem := { s0.mem with hbm := cells100 }, cores := [(0, { core0 with records := [(0x3000, tensorBytes)] })] }
def ldtF : LaneF := { blank with vd := 5, va := 68, vb := 2, td := 4, ta := 4 }
def sttF : LaneF := { blank with va := 68, vb := 2, vc := 6, td := 4, ta := 4 }
theorem witness_TensorResults : LaneAt sTensor gTensor e0 ∧ gTensor.active e0 ldtF ≠ 0 ∧ (Instr.ldt ldtF).wf = true ∧ (Instr.stt sttF).wf = true ∧ recDims tensorBytes = 1
    ∧ (recFormat tensorBytes).toNat ≤ 12 ∧ sTensor.recordRead (sTensor.whoOf 0 gTensor) (gTensor.scalarOf e0 4) = .ok (sTensor, tensorBytes)
    ∧ (∀ i, i = 0 ∨ i = 1 → recIn tensorBytes [8 + i] = true ∧ notCached sTensor 0 (0x2020 + 4 * i.toNat) 4
        ∧ (∀ k, k = LaneKind.ld ∧ True ∨ k = .st ∧ True → ∀ need, need = Need.rd ∨ need = .wr →
            sTensor.checkLane (sTensor.whoOf 0 gTensor) (recAddr tensorBytes [8 + i]) 4 k need = .ok (.plain [oneSeg (0x2020 + 4 * i.toNat) 4 (0x2020 + 4 * i.toNat)])))
    ∧ recIn tensorBytes [10] = false := by
  refine ⟨⟨rfl, rfl⟩, by decide, by decide, by decide, by decide +kernel, by decide +kernel, ?_, fun i h => ?_, by decide +kernel⟩
  · have h : recOk tensorBytes = true := by decide +kernel
    show (if recOk tensorBytes then Except.ok (sTensor, tensorBytes) else Except.error (Stop.trap cProtect, false)) = Except.ok (sTensor, tensorBytes)
    rw [if_pos h]
  · rcases h with rfl | rfl <;> refine ⟨by decide +kernel, fun _ _ _ => ⟨rfl, rfl⟩, fun k hk need hn => ?_⟩ <;> rcases hk with ⟨rfl, _⟩ | ⟨rfl, _⟩ <;> rcases hn with rfl | rfl
      <;> exact ok_of (by decide +kernel)
theorem test_ldt_padding : heldAfter (.ldt ldtF) sTensor = some [(0, 108), (1, 109), (2, 0xFFFFFFFF), (3, 0xFFFFFFFF)] := by decide +kernel
theorem test_stt_in_bounds : viewOf (nextOf (exec (.stt sttF) sTensor)) 0 0x2024 = 7 ∧ viewOf (nextOf (exec (.stt sttF) sTensor)) 0 0x2028 = 0 := by decide +kernel

/-! ### Lane exchange -/

/-- R105's worked sequence: lanes 0 to 3 hold 1, 2, 3, 4 in v6; p2 is true in lanes 1 and 3. -/
def gSeq : Group :=
  { g0 with lanes := { g0.lanes with alive := 15, slots := [(192, 1), (193, 2), (194, 3), (195, 4), (288, 100), (289, 101), (290, 103), (291, 106)], preds := [(2, 0xA)] },
            async := { g0.async with laneq := [e0] } }
def shflF : LaneF := { blank with vd := 10, va := 9, vb := 127, vc := 3, td := 5, ta := 5, fn := 2, w2 := 1 }
def voteF : LaneF := { blank with vd := 71, va := 2, fn := 3 }
def scanF : LaneF := { blank with vd := 11, va := 6, td := 4, ta := 4, fn := 8 }
def redlF : LaneF := { blank with vd := 73, va := 6, td := 12, ta := 12 }
theorem witness_ShuffleVoteResults : LaneAt (mk gSeq) gSeq e0 ∧ (Instr.shfl shflF).wf = true ∧ (Instr.vote voteF).wf = true ∧ 64 ≤ voteF.vd.toNat ∧ voteF.vd.toNat < 96
    ∧ (Instr.vote { voteF with vd := 96 }).wf = true ∧ e0.tag.regs = none ∧ gSeq.split e0.tag.split = some sp0 := ⟨⟨rfl, rfl⟩, by decide, by decide, by decide, by decide, by decide, rfl, rfl⟩
theorem witness_ReductionScanResults : LaneAt (mk gSeq) gSeq e0 ∧ (Instr.redl redlF).wf = true ∧ 64 ≤ redlF.vd.toNat ∧ redlF.vd.toNat < 96 ∧ (Instr.redl { redlF with vd := 63 }).wf = true
    ∧ (Instr.scan scanF).wf = true := ⟨⟨rfl, rfl⟩, by decide, by decide, by decide, by decide, by decide⟩
theorem test_scan_exclusive : [0, 1, 2, 3].map (fun i => (groupAfter (.scan scanF) (mk gSeq)).slotVal 11 i) = [0, 1, 3, 6] := by decide +kernel
theorem test_vote_ballot : (splitAfter (.vote voteF) (mk gSeq)).reg 7 = 0xA := by decide +kernel
theorem test_shfl_down : [0, 1, 2, 3].map (fun i => (groupAfter (.shfl shflF) (mk gSeq)).slotVal 10 i) = [101, 103, 106, 106] ∧ ((groupAfter (.shfl shflF) (mk gSeq)).pred 3) = 7 := by decide +kernel
/-- R54's worked case: 2^24, 1, 1, 1. -/
def gTree : Group := { gSeq with lanes := { gSeq.lanes with slots := [(192, 0x4B800000), (193, 0x3F800000), (194, 0x3F800000), (195, 0x3F800000)] } }
theorem test_redl_tree : (splitAfter (.redl redlF) (mk gTree)).reg 9 = 0x4B800001 ∧ (groupAfter (.redl redlF) (mk gTree)).csrs.fflags = 1 := by decide +kernel
theorem test_scan_fold : (groupAfter (.scan { redlF with vd := 11 }) (mk gTree)).slotVal 11 3 = 0x4B800000 := by decide +kernel
/-- The partner word in s12: generation 0x11, tag 5, die 1, cluster 7, core 0, slot 9 (R223's worked words); cluster 7 is rows 4 and 5, columns 4 to 7. -/
def xshflF : LaneF := { blank with vd := 10, va := 6, vb := 76, td := 5, ta := 5, fn := 4 }
def gX : Group := { gSeq with splits := [(0, { sp0 with sregs := [(12, 0x1100051709)] })] }
def keyB : Nat := (96 + 52) * 32 + 9
def sX (b : Group) (gen : Half) : State := { mk gX with groups := [(0, gX), (keyB, b)], gens := [(keyB, gen)] }
theorem witness_XshflResults_issue : LaneAt (sX gX 0x11) gX e0 ∧ (Instr.xshfl xshflF).wf = true ∧ gX.scalarOf e0 (BitVec.ofNat 5 (76 - 64)) = 0x1100051709
    ∧ (sX gX 0x11).group keyB = some gX ∧ keyB ≠ (sX gX 0x11).curKey ∧ gX.size ≠ 1 ∧ (sX gX 0x11).gen keyB = 0x11 ∧ (sX gX 0x12).gen keyB ≠ 0x11 ∧ (mk gX).group keyB = none
    ∧ ({ gX with launch := 1 } : Group).launch ≠ gX.launch := ⟨⟨rfl, rfl⟩, by decide, rfl, rfl, by decide, by decide, rfl, by decide, rfl, by decide⟩
/-- A partner word that is not legal: cluster 12; and the group's own slot. -/
theorem witness_XshflResults_illegal : (0xC00 : Nat) / 2 ^ 8 % 16 = 12 ∧ gkey 0 (0 % 32) = (mk gX).curKey := ⟨by decide, rfl⟩
/-- Two records that name each other. -/
def xA : XWait := { core := 148, slot := 9, gen := 0x11, tag := 5, wide := false, mode := 0, lanes := 15, values := [(0, 1), (1, 2)], sels := [], vd := 10, pv := 1, since := 0 }
def xB : XWait := { core := 0, slot := 0, gen := 0, tag := 5, wide := false, mode := 2, lanes := 7, values := [(0, 8), (1, 9)], sels := [(0, 1), (1, 1)], vd := 512, pv := 0, since := 0 }
def gA : Group := { gX with async := { gX.async with xshfl := some xA } }
def gB : Group := { gX with async := { gX.async with xshfl := some xB } }
def sPair : State := { sX gB 0x11 with groups := [(0, gA), (keyB, gB)] }
theorem witness_XshflResults_commit : sPair.group (gkey 0 0) = some gA ∧ sPair.group (gkey 148 9) = some gB ∧ gA.async.xshfl = some xA ∧ gB.async.xshfl = some xB
    ∧ gkey xA.core xA.slot = gkey 148 9 ∧ gkey xB.core xB.slot = gkey 0 0 ∧ xA.gen = sPair.gen (gkey 148 9) ∧ xB.gen = sPair.gen (gkey 0 0) ∧ xA.tag = xB.tag :=
  ⟨rfl, rfl, rfl, rfl, rfl, rfl, rfl, rfl, rfl⟩
theorem test_xshfl_partner : ((groupAfter (.xshfl xshflF) (sX gX 0x11)).async.xshfl.map fun x => (x.core, x.slot)) = some (148, 9) := by decide +kernel
theorem test_xshfl_commit : (((nextOf (exec (.xshflCommit 0 0 148 9) sPair)).group 0).map fun g => (g.slotVal 10 0, g.slotVal 10 3, g.pred 1)) = some (8, 0, 7) := by decide +kernel

/-! ### Registers as fabric addresses -/

/-- R121's worked consumer: rank 5, die 2, cluster 7, core 3, slot 9, generation 0x12; put-once of slots 200+8 in all lanes; key 1. -/
def spCap : Split := { sp0 with sregs := [(5, 0x407643E0), (8, 0x200F08005A3C91E2), (9, 0x59DA400480FB)] }
def gCap : Group := { g0 with lanes := { g0.lanes with alive := 3 }, splits := [(0, spCap)], async := { g0.async with laneq := [e0] }, csrs := { g0.csrs with rsb := 192 } }
def keyC : Nat := 247 * 32 + 9
def devCap : Device := { State.reset.dev with rank := 5, keyIndex := 1, keys := [(1, 77)] }
def sCap (g : Group) : State :=
  { s0 with groups := [(keyC, g)], gens := [(keyC, 0x12)], dev := devCap, sched := { s0.sched with core := 247, slot := 9 } }
theorem witness_CapabilityAndArming : At (sCap gCap) gCap spCap ∧ (spCap.reg 5).toNat < 2 ^ 31 ∧ bits (spCap.reg 5).toNat 29 2 ≠ 0
    ∧ bits (spCap.reg 5).toNat 0 5 + bits (spCap.reg 5).toNat 5 6 + 1 ≤ 32 ∧ bits (spCap.reg 5).toNat 11 9 + bits (spCap.reg 5).toNat 20 9 + 1 ≤ 512
    ∧ amGet (sCap gCap).dev.keys (sCap gCap).dev.keyIndex = some 77 ∧ (sCap gCap).dev.rank < 2 ^ 20 ∧ amGet s0.dev.keys s0.dev.keyIndex = none ∧ ¬ (spCap.reg 9).toNat < 2 ^ 31 :=
  ⟨⟨rfl, rfl⟩, by decide, by decide, by decide, by decide, rfl, by decide, rfl, by decide⟩
theorem witness_CapabilityAndArming_lanes : LaneAt (sCap gCap) gCap e0 ∧ (Instr.rarm { blank with vd := 63, fn := 1 }).wf = true ∧ (Instr.rclr { blank with vd := 0, fn := 126 }).wf = true :=
  ⟨⟨rfl, rfl⟩, by decide, by decide⟩
theorem test_rcap_fault : (groupAfter (.rcap 8 9) (sCap gCap)).ctl.stopped = true ∧ (splitAfter (.rcap 8 9) (sCap gCap)).reg 9 = 0x59DA400480FB := by decide +kernel
theorem test_rrev : (nextOf (exec .rrev (sCap gCap))).gen keyC = 0x13 := by decide +kernel
theorem test_rarm : (groupAfter (.rarm { blank with vd := 8, fn := 3 }) (sCap gCap)).pmask 9 = 3 ∧ (groupAfter (.rarm { blank with vd := 8, fn := 3 }) (sCap gCap)).lmask 8 = 3
    ∧ (groupAfter (.rclr { blank with vd := 8, fn := 2 }) (sCap { gCap with lanes := { gCap.lanes with pbits := [(8, 7)] } })).pmask 8 = 4 := by decide +kernel
/-- A put of v20 by two lanes through s8:s9. -/
def rputF : LaneF := { blank with va := 72, vb := 127, vc := 20, td := 5, ta := 5, fn := 2 }
theorem witness_RputResults : LaneAt (sCap gCap) gCap e0 ∧ (Instr.rput rputF).wf = true ∧ gCap.async.puts.getLsbD 2 = false ∧ gCap.token 2 < 255
    ∧ bits (capPair gCap e0 72) 108 20 = (sCap gCap).dev.rank ∧ lanesOf (gCap.active e0 rputF) = [0, 1] ∧ noPutWaits (sCap gCap)
    ∧ (∀ i ∈ [0, 1], ¬ (bits (capPair gCap e0 72) 67 6 + 1 ≤ i ∨ bits (capPair gCap e0 72) 49 9 + 1 < srcB gCap e0 rputF 5 i + 1 ∨ bits (capPair gCap e0 72) 47 2 = 0)) :=
  ⟨⟨rfl, rfl⟩, by decide, by decide, by decide, by decide, by decide, (by intro _ h; cases h), by decide +kernel⟩
theorem witness_RputResults_fails : (Instr.rput { rputF with w2 := 8 }).wf = true ∧ bits (capPair gCap e0 72) 49 9 + 1 < srcB gCap e0 { rputF with w2 := 8 } 5 0 + 1 := by decide +kernel
/-- The put of that packet, its outcome known. -/
def put0 (x : Option DWord) : Put :=
  { core := 247, slot := 9, serial := 0, token := 2, split := 0, launch := 0, senders := [0, 1], reach := 0, target := 5, sent := true, outcome := x,
    packet := { cap := 0x59DA400480FB200F08005A3C91E2, wide := false, lanes := [], source := 5, put := 3 } }
def gPut : Group := { gCap with async := { gCap.async with tokens := [(2, 1)], puts := 4 } }
def sPut : State := { sCap gPut with fabric := { s0.fabric with puts := [(3, put0 (some 0xA))] } }
theorem witness_RputResults_outcome : amGet sPut.fabric.puts 3 = some (put0 (some 0xA)) ∧ (put0 (some 0xA)).outcome = some 0xA
    ∧ sPut.group (gkey (put0 (some 0xA)).core (put0 (some 0xA)).slot) = some gPut ∧ sPut.serial keyC = (put0 (some 0xA)).serial := ⟨rfl, rfl, rfl, rfl⟩
theorem test_rput_outcome : (groupAfter (.rputOutcome 3) sPut).token 2 = 0 ∧ stGet 0 (groupAfter (.rputOutcome 3) sPut).csrs.tokstat 2 = 0xA ∧ (groupAfter (.rputOutcome 3) sPut).async.puts = 0 := by
  decide +kernel
/-- The part of the worked capability above its MAC, and the capability a MAC completes. -/
def highPart : Nat := 0x59DA400480FB200F0800
def fullCap : Nat := highPart * 2 ^ 32 + (Config.mac 77 (BitVec.ofNat 96 highPart)).toNat
theorem fullCap_high : fullCap / 2 ^ 32 = highPart := by have := (Config.mac 77 (BitVec.ofNat 96 highPart)).isLt; unfold fullCap; omega
theorem fullCap_lt : fullCap < 2 ^ 128 := by have := (Config.mac 77 (BitVec.ofNat 96 highPart)).isLt; unfold fullCap highPart; omega
theorem fullCap_field (lo n : Nat) (h : 32 ≤ lo) : bits fullCap lo n = bits highPart (lo - 32) n := by
  have e : (2 : Nat) ^ lo = 2 ^ 32 * 2 ^ (lo - 32) := by rw [← Nat.pow_add]; congr 1; omega
  simp only [bits, e, ← Nat.div_div_eq_div_mul, fullCap_high]
def arrLanes : List RegLane := [{ sender := 0, target := 0, slot := 200, value := 11 }, { sender := 1, target := 1, slot := 201, value := 12 }]
def arrival : RegPacket := { cap := BitVec.ofNat 128 fullCap, wide := false, source := 5, put := 3, lanes := arrLanes }
def gArr : Group := { gCap with lanes := { gCap.lanes with pbits := [(8, 3)] } }
def sArr (g : Group) : State := { sCap g with fabric := { s0.fabric with puts := [(3, put0 none)] } }
theorem arrival_cap : arrival.cap.toNat = fullCap := by
  show (BitVec.ofNat 128 fullCap).toNat = fullCap
  rw [BitVec.toNat_ofNat, Nat.mod_eq_of_lt fullCap_lt]
theorem witness_ArrivalResults :
    let n := arrival.cap.toNat
    96 * bits n 106 2 + 24 * (bits n 102 4 / 3) + 12 * (bits n 99 3 / 4) + 4 * (bits n 102 4 % 3) + bits n 99 3 % 4 = 247 ∧ bits n 94 5 = 9 ∧ bits n 102 4 < 12
      ∧ (sArr gArr).group (gkey 247 9) = some gArr ∧ (sArr gArr).gen (gkey 247 9) = BitVec.ofNat 16 (bits n 78 16) ∧ bits n 32 11 = 0
      ∧ amGet (sArr gArr).dev.keys (bits n 43 4) = some 77 ∧ Config.mac 77 (BitVec.ofNat 96 (n / 2 ^ 32)) = BitVec.ofNat 32 n := by
  simp only [arrival_cap, fullCap_field _ _ (show 32 ≤ 106 by omega), fullCap_field _ _ (show 32 ≤ 102 by omega), fullCap_field _ _ (show 32 ≤ 99 by omega),
    fullCap_field _ _ (show 32 ≤ 94 by omega), fullCap_field _ _ (show 32 ≤ 78 by omega), fullCap_field _ _ (show 32 ≤ 32 by omega), fullCap_field _ _ (show 32 ≤ 43 by omega), fullCap_high]
  refine ⟨by decide, by decide, by decide, rfl, rfl, by decide, rfl, ?_⟩
  apply BitVec.eq_of_toNat_eq
  have := (Config.mac 77 (BitVec.ofNat 96 highPart)).isLt
  rw [BitVec.toNat_ofNat]
  unfold fullCap
  omega
theorem witness_ArrivalResults_rest : noPutWaits (sArr gArr) ∧ arrival.source = (sArr gArr).dev.rank ∧ amGet (sArr gArr).fabric.puts arrival.put = some (put0 none) ∧ (put0 none).outcome = none
    ∧ arrival.lanes = arrLanes ∧ arrLanes.Pairwise (fun x y => x.sender ≠ y.sender ∧ x.target ≠ y.target) ∧ (∀ x ∈ arrLanes, x.sender < 32 ∧ x.target < 32) ∧ gArr.size ≠ 1
    ∧ (∀ x ∈ arrLanes, ∀ k ∈ arrivalSlots arrival x, gArr.resident k = true) := by
  refine ⟨?_, rfl, rfl, rfl, rfl, by decide, by decide, by decide, fun x h k hk => ?_⟩
  · intro p h
    rcases List.mem_cons.mp h with rfl | h
    · rfl
    · cases h
  · have hk : k ∈ [x.slot] := hk
    have : ∀ y ∈ arrLanes, ∀ j ∈ [y.slot], gArr.resident j = true := by decide
    exact this x h k hk
theorem witness_ArrivalResults_saving : ({ gArr with ctl := { gArr.ctl with save := .saving } } : Group).ctl.save = .saving := rfl
/-- 16 free entries, the oldest request from pod rank 2^20. -/
def sRes : State := { s0 with fabric := { s0.fabric with reserve := { s0.fabric.reserve with requests := [2 ^ 20], held := [(7, 5)] } }, now := 200000 }
theorem witness_ReservationResults : noPutWaits sRes ∧ sRes.fabric.reserve.requests = 2 ^ 20 :: [] ∧ 2 ^ 20 ≤ 2 ^ 20 ∧ sRes.freeEntries ≥ 16 ∧ stGet 0 sRes.fabric.reserve.granted (2 ^ 20) < 64
    ∧ 7 ≠ sRes.dev.rank ∧ stGet 0 sRes.fabric.reserve.held 7 ≠ 0 ∧ (amGet sRes.fabric.reserve.lastSend 7).getD 0 + 180000 ≤ sRes.now :=
  ⟨(by intro _ h; cases h), rfl, Nat.le_refl _, by decide +kernel, by decide, by decide, by decide, by decide⟩
/-- Fewer than 16 entries free: 1,023 blocks of 16 granted and one entry more. -/
def sFull : State := { sRes with fabric := { sRes.fabric with reserve := { sRes.fabric.reserve with granted := [(9, 16376)] } } }
theorem witness_ReservationResults_full : sFull.freeEntries < 16 := by decide +kernel

/-! ### Splits, rejoin, REGROUP -/

/-- R128's worked group: DIVERGE, one split; v12 holds 0x600 in lanes 0 to 7 and 16 to 31, 0x640 in lanes 8 to 15; s10 is -1. -/
def spJ : Split := { sp0 with pc := 0x500, sregs := [(10, 0xFFFFFFFFFFFFFFFF)] }
def gJ : Group :=
  { g0 with diverge := true, splits := [(0, spJ)],
            lanes := { g0.lanes with slots := (upFrom 0 32).map fun i => (384 + i, if 8 ≤ i ∧ i < 16 then 0x640 else 0x600), preds := [(2, 0xFF00)] } }
theorem witness_LaneControl_branch : At (mk gJ) gJ spJ ∧ gJ.laneDone 0 = true ∧ gJ.diverge = true ∧ (spJ.pc + 4 + 4 * (3 : BitVec 16).signExtend 64).toNat / 8192 = spJ.pc.toNat / 8192
    ∧ spJ.mask &&& gJ.lanes.alive &&& gJ.pred 2 ≠ 0 ∧ spJ.mask &&& gJ.lanes.alive &&& gJ.pred 2 ≠ spJ.mask &&& gJ.lanes.alive ∧ spJ.mask &&& gJ.lanes.alive &&& ~~~(gJ.pred 0) = 0
    ∧ spJ.mask &&& gJ.lanes.alive &&& gJ.pred 0 = spJ.mask &&& gJ.lanes.alive := ⟨⟨rfl, rfl⟩, rfl, rfl, by decide, by decide, by decide, by decide, by decide⟩
theorem witness_LaneControl_cross : (spJ.pc + 4 + 4 * (0x2000 : BitVec 16).signExtend 64).toNat < 2 ^ 18 ∧ (spJ.pc + 4 + 4 * (0x2000 : BitVec 16).signExtend 64).toNat % 4 = 0
    ∧ (spJ.pc + 4 + 4 * (0x2000 : BitVec 16).signExtend 64).toNat / 8192 ≠ spJ.pc.toNat / 8192 := by decide
theorem witness_LaneControl_jump : gJ.pmask (spJ.wb + 12) &&& (spJ.mask &&& gJ.lanes.alive) = 0 ∧ (gJ.slotVal 12 0).toNat = 0x600 ∧ (gJ.slotVal 12 8).toNat = 0x640
    ∧ 0 ∈ lanesOf (spJ.mask &&& gJ.lanes.alive) ∧ (∀ j, j < 32 → ((0xFFFF00FF : LaneMask).getLsbD j = true ↔ (spJ.mask &&& gJ.lanes.alive).getLsbD j = true ∧ (gJ.slotVal 12 j) = gJ.slotVal 12 0)) := by
  refine ⟨by decide +kernel, by decide +kernel, by decide +kernel, by decide, ?_⟩
  have h : ∀ j ∈ upFrom 0 32, ((0xFFFF00FF : LaneMask).getLsbD j = true ↔ (spJ.mask &&& gJ.lanes.alive).getLsbD j = true ∧ (gJ.slotVal 12 j) = gJ.slotVal 12 0) := by decide +kernel
  exact fun j hj => h j (by rw [show upFrom 0 32 = List.range 32 from rfl]; exact List.mem_range.mpr hj)
/-- v12 of lane 0 misaligned, and in another slot; and pending. -/
def gJbad (v : Word) (p : LaneMask) : Group := { gJ with lanes := { gJ.lanes with slots := [(384, v)], pbits := [(12, p)] } }
theorem witness_LaneControl_faults : (gJbad 0x602 0).slotVal 12 0 = 0x602 ∧ 0x602 % 4 ≠ 0 ∧ (gJbad 0x2000 0).slotVal 12 0 = 0x2000 ∧ 0x2000 / 8192 ≠ spJ.pc.toNat / 8192
    ∧ (gJbad 0 1).pmask 12 &&& (spJ.mask &&& (gJbad 0 1).lanes.alive) ≠ 0 := by decide
/-- The (mask, PC) of the splits of a group. -/
def masks (g : Group) : List (Nat × LaneMask × DWord) := g.splits.map fun x => (x.1, x.2.mask, x.2.pc)
theorem test_jmpv_split : masks (groupAfter (.jmpv 12) (mk gJ)) = [(0, 0xFF00, 0x500), (1, 0xFFFF00FF, 0x600)] := by decide +kernel
theorem test_brv_split : masks (groupAfter (.brv 0 2 3) (mk gJ)) = [(0, 0xFFFF00FF, 0x504), (1, 0xFF00, 0x510)] ∧ (groupAfter (.brv 0 2 3) (mk { gJ with diverge := false })).ctl.stopped = true := by
  decide +kernel
/-- Step 4 of the worked case: S0 waits at JOIN 1, lane 9 is dead, and S1 reaches it. -/
def spS1 : Split := { spJ with mask := 0xFFFF00FF, pc := 0x600, wb := 8 }
def spS0 : Split := { spJ with mask := 0xFF00, pc := 0x648, status := .joining 1 0xFFFFFFFF }
def gJoin : Group := { gJ with lanes := { gJ.lanes with alive := 0xFFFFFDFF }, splits := [(0, spS1), (1, spS0)] }
theorem witness_JoinResults_alone : At (mk gJ) gJ spJ ∧ waitersAtJoin gJ = [] ∧ BitVec.ofNat 32 (spJ.reg 10).toNat &&& gJ.lanes.alive &&& ~~~spJ.mask = 0
    ∧ BitVec.ofNat 32 (spS1.reg 10).toNat &&& gJoin.lanes.alive &&& ~~~spS1.mask ≠ 0 := ⟨⟨rfl, rfl⟩, rfl, by decide, by decide⟩
theorem witness_JoinResults_merge : At (mk gJoin) gJoin spS1 ∧ waitersAtJoin gJoin = [(1, spS0)] ∧ spS0.status = .joining 1 0xFFFFFFFF ∧ spS1.mask &&& spS0.mask = 0
    ∧ (BitVec.ofNat 32 (spS1.reg 10).toNat ||| 0xFFFFFFFF) &&& gJoin.lanes.alive &&& ~~~(spS1.mask ||| spS0.mask) = 0 ∧ (spS1.mask ||| spS0.mask).getLsbD 0 = true
    ∧ spS1.mask.getLsbD 0 = true := ⟨⟨rfl, rfl⟩, rfl, rfl, by decide, by decide, by decide, by decide⟩
/-- Two splits at different JOINs, each expecting the other's lane. -/
def spD (m : LaneMask) (id : Nat) (e : LaneMask) : Split := { spJ with mask := m, status := .joining id e }
def gDead : Group := { gJ with splits := [(0, spD 0xFFFF0000 1 1), (1, spD 0xFFFF 2 0x10000)] }
theorem witness_JoinResults_deadlock : (mk gDead).group (gkey 0 0) = some gDead ∧ gDead.running = true ∧ idleGroup gDead
    ∧ (∀ x ∈ gDead.splits, ∃ id e b, x.2.status = .joining id e ∧ b < 32 ∧ gDead.lanes.alive.getLsbD b = true ∧ e.getLsbD b = true
      ∧ ∀ y ∈ gDead.splits, ∀ e1, y.2.status = .joining id e1 → y.2.mask.getLsbD b = false)
    ∧ (1, spD 0xFFFF 2 0x10000) ∈ gDead.splits ∧ (0xFFFF : LaneMask).getLsbD 0 = true ∧ (∀ j, (0xFFFF0000 : LaneMask).getLsbD j = true → 0 < j) := by
  refine ⟨rfl, rfl, ⟨rfl, rfl, rfl, rfl, rfl, rfl, rfl⟩, fun x h => ?_, by simp [gDead], by decide, fun j h => ?_⟩
  · have hx : x = (0, spD 0xFFFF0000 1 1) ∨ x = (1, spD 0xFFFF 2 0x10000) := by simpa [gDead] using h
    have hy : ∀ y ∈ gDead.splits, y = (0, spD 0xFFFF0000 1 1) ∨ y = (1, spD 0xFFFF 2 0x10000) := fun y h => by simpa [gDead] using h
    rcases hx with rfl | rfl
    · refine ⟨1, 1, 0, rfl, by decide, by decide, by decide, fun y h e1 e => ?_⟩
      rcases hy y h with rfl | rfl
      · rfl
      · cases e
    · refine ⟨2, 0x10000, 16, rfl, by decide, by decide, by decide, fun y h e1 e => ?_⟩
      rcases hy y h with rfl | rfl
      · cases e
      · rfl
  · cases j with
    | zero => exact absurd h (by decide)
    | succ j => omega
theorem test_join_merges : masks (groupAfter (.join 10 1) (mk gJoin)) = [(0, 0xFFFFFFFF, 0x604)] ∧ ((groupAfter (.join 10 1) (mk gJoin)).split 0).map (·.wb) = some 8 := by decide +kernel
theorem test_join_waits : ((groupAfter (.join 10 1) (mk { gJoin with splits := [(0, spS1)] })).split 0).map (·.status) = some (.joining 1 0xFFFFFFFF) := by decide +kernel
/-- Two groups of a team on core 0, slots 0 and 1, each at REGROUP with the other. -/
def spR (d : SReg) (p : Nat) : Split := { sp0 with status := .regroup d p, sregs := [(2, 1)] }
def lanesOfR (m : LaneMask) (v : Word) : Lanes := { (Lanes.fresh 0) with alive := m, slots := [(32, v)], preds := [(1, 1)] }
def gRa : Group := { g0 with splits := [(0, spR 6 1)], lanes := lanesOfR 0x3 7 }
def gRb : Group := { g0 with index := 1, splits := [(0, spR 5 0)], lanes := lanesOfR 0x11 9 }
def teamR : Team := { team0 with count := 2, groups := [(0, 0), (1, 1)] }
def sR (a b : Group) : State := { s0 with groups := [(0, a), (1, b)], head := { State.reset.head with teams := [(0, teamR)] } }
theorem witness_RegroupResults_issue : At (sR g0 g0) g0 sp0 ∧ (sR g0 g0).team g0.team = some teamR ∧ amGet teamR.groups (sp0.reg 1).toNat = none
    ∧ At (sR (withSp (spR 6 1)) g0) (withSp (spR 6 1)) (spR 6 1) ∧ amGet teamR.groups ((spR 6 1).reg 2).toNat = some 1 ∧ ((spR 6 1).reg 2).toNat ≠ g0.index :=
  ⟨⟨rfl, rfl⟩, rfl, rfl, ⟨rfl, rfl⟩, rfl, by decide⟩
theorem unique_regroup (g : Group) (d : SReg) (p : Nat) (h : g.splits = [(0, spR d p)]) : ∀ x ∈ g.splits, x.1 ≠ 0 → ∀ d r, x.2.status ≠ .regroup d r := by
  intro x hx hk
  rw [h] at hx
  exact absurd (by rw [List.mem_singleton.mp hx]) hk
theorem witness_RegroupResults_pair : (sR gRa gRb).group (gkey 0 0) = some gRa ∧ (sR gRa gRb).group (gkey 0 1) = some gRb ∧ gRa.splits = [(0, spR 6 1)] ∧ gRb.splits = [(0, spR 5 0)]
    ∧ (spR 6 1).status = .regroup 6 gRb.index ∧ (spR 5 0).status = .regroup 5 gRa.index ∧ (sR gRa gRb).team gRa.team = some teamR ∧ amGet teamR.groups 1 = some 1
    ∧ gRa.index < gRb.index ∧ gRa.running = true ∧ gRb.running = true ∧ idleGroup gRa ∧ idleGroup gRb ∧ gRa.size = gRb.size ∧ gRa.size ≠ 0 ∧ gRb.ctl.tile = none
    ∧ ((sR gRa gRb).core 0).quant.any (fromGroup 1) = false ∧ fusedFrom gRa gRb = [(false, 0), (false, 1), (true, 0), (true, 4)]
    ∧ (∀ x ∈ gRb.splits, x.1 ≠ 0 → ∀ d r, x.2.status ≠ .regroup d r) ∧ (gRb.splits.filter fun x => x.1 == 0).length = 1 :=
  ⟨rfl, rfl, rfl, rfl, rfl, rfl, rfl, rfl, by decide, rfl, rfl, ⟨rfl, rfl, rfl, rfl, rfl, rfl, rfl⟩, ⟨rfl, rfl, rfl, rfl, rfl, rfl, rfl⟩, rfl, by decide, rfl, rfl, rfl,
    unique_regroup gRb 5 0 rfl, rfl⟩
/-- With 512 slots resident nothing is spilled. -/
def gRa5 : Group := { gRa with size := 512 }
def gRb5 : Group := { gRb with size := 512 }
theorem nothing_armed (s : State) (g : Group) (i : Nat) (h1 : g.csrs.rsb = 0) (h2 : g.size = 512) (h3 : g.lanes.pbits = []) (h4 : g.lanes.lbits = []) : unarmed s 0 g i := by
  intro k hk
  refine ⟨fun _ => ⟨?_, ?_⟩, fun h => ?_⟩
  · simp [Group.pmask, h3, stGet, amGet]
  · simp [Group.lmask, h4, stGet, amGet]
  · exfalso; simp [Group.resident, h1, h2] at h; omega
theorem witness_RegroupResults_unarmed : ∀ n src i, (fusedFrom gRa5 gRb5)[n]? = some (src, i) → n ≠ i → unarmed (sR gRa5 gRb5) 0 (if src then gRb5 else gRa5) i := by
  intro n src i _ _
  cases src <;> exact nothing_armed _ _ _ rfl rfl rfl rfl
/-- The refusals in order: a partner gone; one that names a third group; two splits; other windows; an armed slot; too many lanes. -/
def gArmed : Group := { gRb5 with lanes := { gRb5.lanes with pbits := [(3, 0x10)] } }
def gMany : Group := { gRb5 with lanes := { gRb5.lanes with alive := 0x7FFFFFFF } }
theorem witness_RegroupResults_refusals : amGet team0.groups 1 = none ∧ 2 ≠ gRa.index ∧ 1 < ({ gRb with splits := [(0, spR 5 0), (1, sp0)] } : Group).splits.length ∧ gRa5.size ≠ gRb.size
    ∧ (fusedFrom gRa5 gArmed)[3]? = some (true, 4) ∧ gArmed.resident 3 = true ∧ (gArmed.pmask 3).getLsbD 4 = true ∧ 32 < (fusedFrom gRa5 gMany).length := by decide +kernel
theorem test_regroup_mismatch : ((((nextOf (exec (.regroupFuse 0 0 1) (sR gRa5 gRb))).group 0).bind fun g => g.split 0).map fun sp => sp.reg 6) = some 4 := by decide +kernel
/-- A queue that has stalled since cycle 0, and a split whose JMPV has. -/
def gLate : Group := { gLane [] with async := { (gLane []).async with stall := some 0 }, csrs := { g0.csrs with arrto := 100 } }
def gLate2 : Group := { g0 with csrs := { g0.csrs with arrto := 100 }, splits := [(0, { sp0 with pstall := some 0 })] }
theorem witness_ArrivalTimeoutRaises : ({ mk gLate with now := 100 } : State).group (gkey 0 0) = some gLate ∧ gLate.running = true ∧ gLate.async.stall = some 0
    ∧ gLate.async.laneq.head? = some e0 ∧ gLate.csrs.arrto ≠ 0 ∧ gLate.csrs.arrto.toNat ≤ 100 - 0 ∧ ¬ gLate.csrs.arrto.toNat ≤ 99 - 0
    ∧ gLate2.splits = [(0, { sp0 with pstall := some 0 })] ∧ gLate2.async.stall = none := ⟨rfl, rfl, rfl, rfl, by decide, by decide, by decide, rfl, rfl⟩
theorem test_arrival_timeout : (groupAfter (.arrivalTimeout 0 0) { mk gLate with now := 100 }).async.stall = none ∧ (groupAfter (.arrivalTimeout 0 0) { mk gLate with now := 99 }).async.stall = some 0 := by
  decide +kernel

/-! ### Waits and core queues -/

/-- Counters 2, 0, 63 and 0; token 7 outstanding. -/
def gWait : Group := { g0 with async := { g0.async with loads := 2, copies := 63, tokens := [(7, 1)] } }
theorem witness_WaitResults_issue : At (mk gWait) gWait sp0 ∧ allIssued (mk gWait) gWait ∧ gWait.async.loads ≤ (2 : BitVec 6).toNat ∧ ¬ gWait.async.loads ≤ (1 : BitVec 6).toNat
    ∧ gWait.async.copies ≤ (63 : BitVec 6).toNat ∧ ¬ gWait.async.copies ≤ (62 : BitVec 6).toNat ∧ (∀ k, k < 8 → (0x7F : BitVec 8).getLsbD k = true → gWait.token k = 0)
    ∧ (7 < 8 ∧ (0x80 : BitVec 8).getLsbD 7 = true ∧ gWait.token 7 ≠ 0) := ⟨⟨rfl, rfl⟩, (by intro e h; cases h), by decide, by decide, by decide, by decide, by decide, by decide⟩
theorem witness_WaitResults_yield : (sp0.pc + 4 + 4 * (0xFFFF : BitVec 16).signExtend 64).toNat / 8192 = sp0.pc.toNat / 8192 ∧ (sp0.pc + 4 + 4 * (0xFFFF : BitVec 16).signExtend 64).toNat % 4 = 0
    ∧ (sp0.pc + 4 + 4 * (0x2000 : BitVec 16).signExtend 64).toNat < 2 ^ 18 ∧ (sp0.pc + 4 + 4 * (0x2000 : BitVec 16).signExtend 64).toNat / 8192 ≠ sp0.pc.toNat / 8192
    ∧ gWait.token (0 : BitVec 3).toNat = 0 ∧ gWait.token (7 : BitVec 3).toNat ≠ 0 := by decide
/-- The same group with its split in a wait. -/
def gIn (st : SplitStatus) : Group := { gWait with splits := [(0, { sp0 with status := st })] }
theorem witness_WaitResults_release (st : SplitStatus) : (mk (gIn st)).group (gkey 0 0) = some (gIn st) ∧ (gIn st).running = true ∧ (gIn st).split 0 = some { sp0 with status := st } := ⟨rfl, rfl, rfl⟩
theorem witness_WaitResults_ends : ((true || decide (gWait.async.loads ≤ 1)) && (false || decide (gWait.async.stores ≤ 0)) && (false || decide (gWait.async.copies ≤ 63)) && (true || decide (gWait.async.tiles ≤ 0))) = true
    ∧ ((true || decide (gWait.async.loads ≤ 1)) && (false || decide (gWait.async.stores ≤ 0)) && (false || decide (gWait.async.copies ≤ 62)) && (true || decide (gWait.async.tiles ≤ 0))) = false
    ∧ (∀ j, j < 8 → (0x7F : Byte).getLsbD j = true → gWait.token j = 0) ∧ (0x80 : Byte).getLsbD 7 = true ∧ gWait.token 7 ≠ 0 ∧ gWait.token 6 = 0 := by decide
theorem test_waitc_met_stays : (splitAfter (.waitc 1 0 63 0) (mk gWait)).status = .waitC 1 0 63 0 [false, true, true, true] := by decide +kernel
theorem test_waitc_release : (splitAfter (.waitcRelease 0 0 0) (mk (gIn (.waitC 1 0 62 0 [true, false, true, false])))).pc = 0x104 := by decide +kernel
theorem test_waitt_zero : (splitAfter (.waitt 0) (mk gWait)).pc = 0x104 ∧ (splitAfter (.waitt 0x80) (mk gWait)).status = .waitT 0x80 false := by decide +kernel
theorem test_yieldt : (splitAfter (.yieldt 6 3) (mk gWait)).pc = 0x110 ∧ (splitAfter (.yieldt 7 3) (mk gWait)).status = .yieldT 7 0x110 false := by decide +kernel
theorem test_yieldt_wake : (splitAfter (.yieldtWake 0 0 0) (mk (gIn (.yieldT 7 0x110 true)))).pc = 0x110 ∧ (splitAfter (.yieldtWake 0 0 0) (mk (gIn (.yieldT 7 0x110 false)))).pc = 0x100 := by decide +kernel
/-- Queue 15 of core 0, with its owner. -/
def sQ (g : Group) (n : Nat) (o : Option Nat) : State := { mk g with cores := [(0, { core0 with queues := [(15, { items := (upFrom 0 n).map fun i => BitVec.ofNat 64 (9 + i), owner := o })] })] }
theorem nothingOut_mk (c : Core) (h : c.quant = []) : nothingOut { s0 with cores := [(0, c)] } g0 0 0 0 :=
  ⟨by decide, (by intro _ e; cases e), h, (by intro _ e; cases e), (by intro _ e; cases e)⟩
theorem witness_CoreQueues_push : At (sQ g0 63 (some 0)) g0 sp0 ∧ allIssued (sQ g0 63 (some 0)) g0 ∧ nothingOut (sQ g0 63 (some 0)) g0 0 0 0 ∧ ((sQ g0 63 (some 0)).coreQueue 0 15).owner = some g0.launch
    ∧ ((sQ g0 63 (some 0)).coreQueue 0 15).items.length < 64 ∧ 64 ≤ ((sQ g0 64 (some 0)).coreQueue 0 15).items.length ∧ ((sQ g0 0 none).coreQueue 0 15).owner = none
    ∧ ((sQ g0 0 none).coreQueue 0 15).items = [] ∧ ((sQ g0 1 (some 3)).coreQueue 0 15).owner ≠ some g0.launch ∧ ((sQ g0 1 (some 3)).coreQueue 0 15).owner ≠ none :=
  ⟨⟨rfl, rfl⟩, (by intro e h; cases h), nothingOut_mk _ rfl, rfl, by decide, by decide, rfl, rfl, by decide, by decide⟩
theorem witness_CoreQueues_noWait (n : Nat) (o : Option Nat) : noPusher (sQ g0 n o) 0 15 ∧ noPopper (sQ g0 n o) 0 15 := by
  refine ⟨fun x h _ y hy v t e => ?_, fun x h _ y hy v t e => ?_⟩ <;>
  · have : x = (0, g0) := by simpa [sQ, mk] using h
    subst this
    have : y = (0, sp0) := by simpa [g0] using hy
    subst this
    cases e
theorem witness_CoreQueues_pop : ((sQ g0 2 (some 0)).coreQueue 0 15).items = [9, 10] := rfl
theorem test_qpush : ((nextOf (exec (.qpush 1 0 0 15) (sQ g0 1 (some 0)))).coreQueue 0 15).items = [9, 7] := by decide +kernel
theorem test_qpush_full_nb : (splitAfter (.qpush 1 1 1 15) (sQ g0 64 (some 0))).cbits = 0 ∧ (splitAfter (.qpush 1 0 0 15) (sQ g0 64 (some 0))).status = .push 15 7 0 := by decide +kernel
theorem test_qpop : (splitAfter (.qpop 5 2 1 15) (sQ g0 2 (some 0))).reg 5 = 9 ∧ (splitAfter (.qpop 5 2 1 15) (sQ g0 2 (some 0))).cbits = 6 := by decide +kernel
theorem test_qpop_other_launch : (groupAfter (.qpop 5 0 0 15) (sQ g0 1 (some 3))).ctl.stopped = true := by decide +kernel
/-- A split that waits on queue 15. -/
def gQ (st : SplitStatus) : Group := { g0 with splits := [(0, { sp0 with status := st })] }
theorem witness_CoreQueues_release : (sQ (gQ (.push 15 7 3)) 63 (some 0)).group (gkey 0 0) = some (gQ (.push 15 7 3)) ∧ (gQ (.push 15 7 3)).running = true
    ∧ (gQ (.push 15 7 3)).split 0 = some { sp0 with status := .push 15 7 3 } ∧ ((sQ (gQ (.pop 15 5 3)) 2 (some 0)).coreQueue 0 15).items = [9, 10] := ⟨rfl, rfl, rfl, rfl⟩
theorem witness_CoreQueues_first : (∀ a ∈ (sQ (gQ (.push 15 7 3)) 63 (some 0)).groups, a.1 / 32 = 0 → ∀ y ∈ a.2.splits, ∀ v1 t1, y.2.status = .push 15 v1 t1 → (a.1 = gkey 0 0 ∧ y.1 = 0) ∨ 3 < t1)
    ∧ ∀ a ∈ (sQ (gQ (.pop 15 5 3)) 2 (some 0)).groups, a.1 / 32 = 0 → ∀ y ∈ a.2.splits, ∀ v1 t1, y.2.status = .pop 15 v1 t1 → (a.1 = gkey 0 0 ∧ y.1 = 0) ∨ 3 < t1 := by
  refine ⟨fun a h _ y hy v t e => .inl ?_, fun a h _ y hy v t e => .inl ?_⟩
  · have : a = (0, gQ (.push 15 7 3)) := by simpa [sQ, mk] using h
    subst this
    have : y = (0, { sp0 with status := .push 15 7 3 }) := by simpa [gQ] using hy
    exact ⟨rfl, by rw [this]⟩
  · have : a = (0, gQ (.pop 15 5 3)) := by simpa [sQ, mk] using h
    subst this
    have : y = (0, { sp0 with status := .pop 15 5 3 }) := by simpa [gQ] using hy
    exact ⟨rfl, by rw [this]⟩
theorem test_queue_release : (splitAfter (.queueWaitRelease 0 0 0) (sQ (gQ (.pop 15 5 3)) 2 (some 0))).reg 5 = 9 := by decide +kernel

/-! ### Fences, sync words, the team barrier -/

/-- A core with a dirty and a clean byte, and kept copies of this split and of another. -/
def keepOf (k : Nat) : KeepCopy := { core := 0, slot := 0, split := k, line := 0x8000, bytes := [] }
def sFence (g : Group) : State :=
  { mk g with cores := [(0, { core0 with l1 := { dirty := [(0x2000, 9)], clean := [(0x3000, 7)], fetched := [] } })], mem := { State.reset.mem with keeps := [keepOf 0, keepOf 1] } }
theorem nothingOut_quiet (s : State) (g : Group) (h1 : g.async.access = []) (h2 : (s.core 0).quant = []) (h3 : s.fabric.tickets = []) (h4 : s.fabric.puts = []) : nothingOut s g 0 0 0 :=
  ⟨by decide, by simp [h1], h2, by simp [h3], by simp [h4]⟩
theorem witness_FenceResults : At (sFence g0) g0 sp0 ∧ allIssued (sFence g0) g0 ∧ nothingOut (sFence g0) g0 0 0 0 ∧ (sFence g0).mem.cu = [] :=
  ⟨⟨rfl, rfl⟩, (by intro e h; cases h), nothingOut_quiet _ _ rfl rfl rfl rfl, rfl⟩
/-- A store of split 0 that is not yet performed. -/
def accStore : Access := { accLoad with load := false, sreg := none, parts := [], reach := 1 }
def gStore : Group := { g0 with async := { g0.async with stores := 1, access := [(4, accStore)] } }
theorem witness_FenceResults_waits : At (sFence gStore) gStore sp0 ∧ allIssued (sFence gStore) gStore ∧ (sFence gStore).sched.slot < 32 ∧ ((sFence gStore).core 0).quant = []
    ∧ ∃ x ∈ gStore.async.access, x.2.split = 0 ∧ x.2.nord = false ∧ x.2.reach ≤ 1 :=
  ⟨⟨rfl, rfl⟩, (by intro e h; cases h), by decide, rfl, (4, accStore), List.mem_cons_self .., rfl, rfl, by decide⟩
def gFence : Group := { g0 with splits := [(0, { sp0 with status := .fence 3 2 })] }
theorem witness_FenceResults_complete : (sFence gFence).group (gkey 0 0) = some gFence ∧ gFence.running = true ∧ gFence.split 0 = some { sp0 with status := .fence 3 2 }
    ∧ nothingOut (sFence gFence) gFence 0 0 0 ∧ (sFence gFence).mem.cu = [] := ⟨rfl, rfl, rfl, nothingOut_quiet _ _ rfl rfl rfl rfl, rfl⟩
theorem test_fence_release : ((nextOf (exec (.fence 1 1) (sFence g0))).core 0).l1.dirty = [] ∧ (nextOf (exec (.fence 1 1) (sFence g0))).mem.byte 0x2000 = 9
    ∧ ((nextOf (exec (.fence 1 1) (sFence g0))).core 0).l1.clean ≠ [] := by decide +kernel
theorem test_fence_acquire : ((nextOf (exec (.fence 1 0) (sFence g0))).core 0).l1.clean = [] ∧ (nextOf (exec (.fence 2 0) (sFence g0))).mem.keeps = [keepOf 1]
    ∧ ((nextOf (exec (.fence 0 2) (sFence g0))).core 0).l1.clean ≠ [] := by decide +kernel

/-- A word at 0x2000 with its tag and scope record; a split whose s5 addresses it and whose s6 is an operand. -/
def spW (v : DWord) : Split := { sp0 with sregs := [(5, 0x2000), (6, v)] }
def gW (v : DWord) : Group := { g0 with splits := [(0, spW v)] }
def cellsOf (a : Nat) (w : DWord) : List Host.Cell := ((upFrom 0 8).map fun i => (a + i, BitVec.ofNat 8 (w.toNat / 256 ^ i))).filter fun x => x.2 != 0
def sW (v w : DWord) (k : Option SyncKind) (sc : AMap ScopeRec) : State :=
  { mk (gW v) with mem := { State.reset.mem with hbm := cellsOf 0x2000 w, sync := (match k with | some x => [(0x400, x)] | none => []), scopes := sc } }
theorem witness_SyncWordUpdates (v w : DWord) (k : Option SyncKind) (sc : AMap ScopeRec) : At (sW v w k sc) (gW v) (spW v) ∧ allIssued (sW v w k sc) (gW v)
    ∧ nothingOut (sW v w k sc) (gW v) 0 0 0 ∧ (sW v w k sc).mem.cu = [] ∧ noWaitOn (sW v w k sc) (.mem 0x2000) ∧ (∀ e ∈ (sW v w k sc).entries, e.2.armed = false) := by
  refine ⟨⟨rfl, rfl⟩, (by intro e h; cases h), nothingOut_quiet _ _ rfl rfl rfl rfl, rfl, fun x h y hy => ?_, (by intro e h; cases h)⟩
  have : x = (0, gW v) := by simpa [sW, mk] using h
  subst this
  have : y = (0, spW v) := by simpa [gW] using hy
  subst this
  exact ⟨(by intro w b e; cases e), (by intro w b e; cases e)⟩
/-- A barrier of 2 awaiting its last arrival and 16 bytes. -/
def bar1 : DWord := 0x0002000200000010
theorem witness_SyncWordUpdates_place : (sW 5 bar1 (some .barrier) []).wordPlace ((sW 5 bar1 (some .barrier) []).whoOf 0 (gW 5)) ((spW 5).reg 5) = .ok (.mem 0x2000) := ok_of (by decide +kernel)
theorem witness_SyncWordUpdates_cases : (sW 5 bar1 (some .barrier) []).wordAt 0x2000 = bar1 ∧ bar1 = barrierWord false 2 1 16 ∧ (sW 5 bar1 (some .barrier) []).mem.live 0x2000 = some .barrier
    ∧ (sW 5 bar1 none []).mem.live 0x2000 = none ∧ (sW 5 bar1 (some .counter) []).mem.live 0x2000 = some .counter
    ∧ (sW 5 0xFFFFFFFFFFFFFFFA (some .counter) []).wordAt 0x2000 = 0xFFFFFFFFFFFFFFFA ∧ 0xFFFFFFFFFFFFFFFA + 5 < 2 ^ 64 ∧ 2 ^ 64 ≤ 0xFFFFFFFFFFFFFFFA + 6
    ∧ (sW 5 bar1 (some .counter) []).scopeOk 0x40 (.core 0) = true ∧ (sW 5 bar1 (some .counter) [(0x40, .team 1)]).scopeOk 0x40 (.core 0) = false := by decide +kernel
theorem witness_SyncWordUpdates_operands : (0x7FFF000000000000 : DWord).toNat < 2 ^ 63 ∧ (0x7FFF000000000000 : DWord).toNat % 2 ^ 48 = 0 ∧ (0x7FFF000000000000 : DWord).toNat ≠ 0
    ∧ ¬ (0x8000000000000000 : DWord).toNat < 2 ^ 63 ∧ (1 : DWord).toNat % 2 ^ 48 ≠ 0 ∧ (2 ^ 32 : Int) ≤ 16 + (0xFFFFFFF0 : DWord).toNat ∧ 16 + ((0xFFFFFFEF : DWord).toNat : Int) < 2 ^ 32
    ∧ barrierWord true 3 0 5 = 0x8003000000000005 := by decide
theorem test_syncinit : (nextOf (exec (.syncinit 5 6 0 0) (sW 0x0003000000000000 9 none []))).wordAt 0x2000 = 0x0003000600000000
    ∧ (nextOf (exec (.syncinit 5 6 1 0) (sW 77 9 none []))).mem.live 0x2000 = some .counter := by decide +kernel
theorem test_syncfree : (nextOf (exec (.syncfree 5 0) (sW 0 bar1 (some .barrier) []))).mem.live 0x2000 = none := by decide +kernel
theorem test_arrive_flips : (nextOf (exec (.arrive 7 5 6 0) (sW 0 0x0002000200000000 (some .barrier) []))).wordAt 0x2000 = 0x8002000400000000
    ∧ (splitAfter (.arrive 7 5 6 0) (sW 0 0x8002000200000000 (some .barrier) [])).reg 7 = 1 := by decide +kernel
theorem test_arrive_counter : (nextOf (exec (.arrive 7 5 6 0) (sW 5 0x10 (some .counter) []))).wordAt 0x2000 = 0x15 ∧ (splitAfter (.arrive 7 5 6 0) (sW 5 0x10 (some .counter) [])).reg 7 = 0x10 := by decide +kernel
/-- Waits on the word. -/
def waitOn (due : Bool) : WordWait := { place := .mem 0x2000, addr := 0x2000, scope := 1, due := due, ticket := none }
theorem witness_SyncWordWaiters : (sW 1 bar1 (some .barrier) []).sched.slot < 32 ∧ bar1.getLsbD 63 ≠ (1 : DWord).getLsbD 0 ∧ bar1.getLsbD 63 = (0 : DWord).getLsbD 0 ∧ (5 : DWord) ≤ 5 ∧ ¬ (6 : DWord) ≤ 5 := by decide
theorem witness_SyncWordWaiters_release (st : SplitStatus) : (mk (gQ st)).group (gkey 0 0) = some (gQ st) ∧ (gQ st).running = true ∧ (gQ st).split 0 = some { sp0 with status := st } ∧ 0 < 32
    ∧ (waitOn true).due = true ∧ (waitOn false).due = false ∧ (waitOn false).place = .mem 0x2000 := ⟨rfl, rfl, rfl, by decide, rfl, rfl, rfl⟩
theorem test_bwait : (splitAfter (.bwait 5 6 0) (sW 0 bar1 (some .barrier) [])).pc = 0x104
    ∧ (splitAfter (.bwait 5 6 1) (sW 1 bar1 (some .barrier) [])).status = .bwait (waitOn false) true := by decide +kernel
theorem test_waittl : (splitAfter (.waittl 5 6 0) (sW 5 5 (some .counter) [])).pc = 0x104
    ∧ (splitAfter (.waittl 5 6 1) (sW 6 5 (some .counter) [])).status = .waittl (waitOn false) 6 := by decide +kernel
theorem test_bwait_release : (splitAfter (.bwaitRelease 0 0 0) (mk (gQ (.bwait (waitOn true) true)))).pc = 0x104
    ∧ (groupAfter (.bwaitRelease 0 0 0) (mk (gQ (.freed 0x2000)))).ctl.stopped = true := by decide +kernel
theorem test_waittl_release : (splitAfter (.waittlRelease 0 0 0) (mk (gQ (.waittl (waitOn true) 6)))).pc = 0x104
    ∧ (splitAfter (.waittlRelease 0 0 0) (mk (gQ (.waittl (waitOn false) 6)))).pc = 0x100 := by decide +kernel
/-- A team of two groups on core 0: the executing one with two splits, the other already arrived. -/
def spB (p : DWord) (st : SplitStatus) : Split := { sp0 with pc := p, status := st }
def gB0 (st : SplitStatus) : Group := { g0 with splits := [(0, sp0), (1, spB 0x200 st)] }
def gB1 : Group := { g0 with index := 1, splits := [(0, spB 0x300 (.bar true))] }
theorem witness_TeamBarrierResults (st : SplitStatus) : At (sR (gB0 st) gB1) (gB0 st) sp0 ∧ (gB0 st).laneDone 0 = true ∧ nothingOut (sR (gB0 st) gB1) (gB0 st) 0 0 0
    ∧ (sR (gB0 st) gB1).team 0 = some teamR ∧ teamR.core = 0 ∧ (teamR.groups.map (·.2)).Nodup ∧ (∀ x ∈ teamR.groups, x.2 < 32) ∧ ((gB0 st).splits.map (·.1)).Nodup
    ∧ (gB0 st).running = true ∧ (gB0 st).ctl.trapSplit = none ∧ (∃ x ∈ teamR.groups, gkey 0 x.2 = 0) :=
  ⟨⟨rfl, rfl⟩, rfl, nothingOut_quiet _ _ rfl rfl rfl rfl, rfl, rfl, by decide, by decide, by simp [gB0], rfl, rfl, (0, 0), by simp [teamR], rfl⟩
theorem witness_TeamBarrierResults_others : (∀ x ∈ teamR.groups, ¬ gkey 0 x.2 = 0 → ∃ y, (sR (gB0 .ready) gB1).group (gkey 0 x.2) = some y ∧ (y.splits ≠ [] ∧ ∀ z ∈ y.splits, z.2.status = .bar true)
      ∧ (y.splits.map (·.1)).Nodup)
    ∧ (∃ k x, k ≠ 0 ∧ (gB0 .ready).split k = some x ∧ ¬ ∃ b, x.status = .bar b) ∧ (∀ k x, k ≠ 0 → (gB0 (.bar false)).split k = some x → ∃ b, x.status = .bar b) := by
  refine ⟨fun x h hn => ?_, ⟨1, spB 0x200 .ready, by decide, rfl, by rintro ⟨b, e⟩; cases e⟩, fun k x hk h => ?_⟩
  · have : x = (0, 0) ∨ x = (1, 1) := by simpa [teamR] using h
    rcases this with rfl | rfl
    · exact absurd rfl hn
    · exact ⟨gB1, rfl, by simp [gB1, spB], by simp [gB1]⟩
  · have : (k == 0) = false := by simpa using hk
    simp only [Group.split, gB0, amGet] at h
    split at h
    · omega
    · split at h
      · cases h
        exact ⟨false, rfl⟩
      · cases h
theorem witness_TeamBarrierResults_complete : (sR (withSp (spB 0x100 (.bar false))) gB1).team 0 = some teamR ∧ teamR.groups ≠ [] ∧ (teamR.groups.map (·.2)).Nodup
    ∧ ∀ x ∈ teamR.groups, ∃ y, (sR (withSp (spB 0x100 (.bar false))) gB1).group (gkey 0 x.2) = some y ∧ y.splits ≠ [] ∧ (y.splits.map (·.1)).Nodup ∧ y.running = true ∧ y.ctl.trapSplit = none
      ∧ ∀ z ∈ y.splits, ∃ b, z.2.status = .bar b := by
  refine ⟨rfl, by simp [teamR], by decide, fun x h => ?_⟩
  have : x = (0, 0) ∨ x = (1, 1) := by simpa [teamR] using h
  rcases this with rfl | rfl
  · exact ⟨withSp (spB 0x100 (.bar false)), rfl, by simp [withSp], by simp [withSp], rfl, rfl, by simp [withSp, spB]⟩
  · exact ⟨gB1, rfl, by simp [gB1], by simp [gB1], rfl, rfl, by simp [gB1, spB]⟩
theorem test_bar : ((nextOf (exec .bar (sR (gB0 (.bar false)) gB1))).group 0).map (fun g => g.splits.map fun x => (x.2.pc, x.2.status)) = some [(0x104, .ready), (0x204, .ready)]
    ∧ ((nextOf (exec .bar (sR (gB0 .ready) gB1))).group 0).map (fun g => g.splits.map fun x => (x.2.pc, x.2.status)) = some [(0x100, .bar false), (0x200, .ready)] := by decide +kernel

/-! ### Core memory, pins, translation -/

theorem one_of {ε α : Type} {l : List (Except ε α)} {x : α} (h : l.map Except.toOption = [some x]) : l = [.ok x] := by
  cases l with
  | nil => cases h
  | cons y ys =>
    cases ys with
    | cons z zs => exact absurd (congrArg List.length h) (by simp)
    | nil => exact congrArg (fun z => [z]) (ok_of (List.cons.inj h).1)
/-- s5 holds an image's address, s6 one of another rank, s7 a misaligned one. -/
def spF : Split := { sp0 with sregs := [(5, 0x4000), (6, 0x8000280000000000), (7, 0x4040)] }
def gF : Group := withSp spF
/-- Slot 31 of core 0 owned by a launch; bytes at the image's ends. -/
def sF (o : Option Nat) (st : SlotState) : State :=
  { mk gF with cores := [(0, { core0 with codeSlots := [(31, { CodeSlot.fresh with state := st, owner := o })] })],
               mem := { State.reset.mem with hbm := [(0x4000, 0xA1), (0x5FFF, 0xB2)] }, head := { State.reset.head with teams := [(0, team0), (1, { team0 with launch := 5 })] } }
theorem witness_CoreMemoryAndTranslation_cfetch : At (sF none .empty) gF spF ∧ (spF.reg 5).toNat % 128 = 0 ∧ (spF.reg 5).toNat < 2 ^ 57 ∧ ((sF none .empty).codeSlot 0 31).owner = none
    ∧ ((sF none .empty).codeSlot 0 31).state ≠ .loading ∧ gF.memIssued 0 = true ∧ gF.token 7 < 255 ∧ gF.async.copies < 4095 ∧ (sF none .empty).mem.cu = [] ∧ (sF none .empty).mem.poison = []
    ∧ 0x4000 % 8192 = 0 ∧ ¬ (spF.reg 6).toNat < 2 ^ 57 ∧ (spF.reg 6).toNat / 2 ^ 43 % 2 ^ 20 ≠ (sF none .empty).dev.rank ∧ (spF.reg 7).toNat % 128 ≠ 0 :=
  ⟨⟨rfl, rfl⟩, by decide, by decide, rfl, by decide, rfl, by decide, by decide, rfl, rfl, by decide, by decide, by decide, by decide⟩
theorem witness_CoreMemoryAndTranslation_piece : onePiece (sF none .empty) ((sF none .empty).whoOf 0 gF) (spF.reg 5) 8192 .rd 0x4000 0x4000 ∧ notCached (sF none .empty) 0 0x4000 8192 :=
  ⟨one_of (by decide +kernel), fun _ _ _ => ⟨rfl, rfl⟩⟩
theorem witness_CoreMemoryAndTranslation_others : ((sF (some 5) .landed).codeSlot 0 31).owner = some 5 ∧ 5 ≠ gF.launch ∧ (sF (some 5) .landed).hasTeam 5 0 = true := by decide +kernel
theorem test_cfetch_refused : (groupAfter (.cfetch 6 7 31) (sF none .empty)).ctl.stopped = true ∧ (groupAfter (.cfetch 5 7 31) (sF (some 5) .landed)).ctl.stopped = true := by decide +kernel
/-- A slot whose image has been read. -/
def sLand : State :=
  let x : CodeSlot := { state := .loading, image := some 0x4000, owner := some 0, asid := 0, fetch := some (0, 0, 7), bytes := List.replicate 8191 0 ++ [0xB2], failed := false }
  { mk { gF with async := { gF.async with tokens := [(7, 1)], copies := 1 } } with cores := [(0, { core0 with codeSlots := [(31, x)] })] }
theorem witness_CoreMemoryAndTranslation_lands : (sLand.codeSlot 0 31).state = .loading ∧ (sLand.codeSlot 0 31).failed = false ∧ (sLand.codeSlot 0 31).bytes.length = 8192
    ∧ (sLand.codeSlot 0 31).fetch = some (0, 0, 7) ∧ sLand.serial (gkey 0 0) = BitVec.ofNat 16 0 ∧ (sLand.group (gkey 0 0)).isSome = true := by
  refine ⟨rfl, rfl, ?_, rfl, rfl, rfl⟩
  show (List.replicate 8191 (0 : Byte) ++ [0xB2]).length = 8192
  rw [List.length_append, List.length_replicate]
  rfl
theorem witness_CoreMemoryAndTranslation_rfence : At (sF none .empty) gF spF ∧ gF.memIssued 0 = true ∧ (∀ x ∈ gF.async.access, x.2.split = 0 → x.2.load = true) := ⟨⟨rfl, rfl⟩, rfl, (by intro x h; cases h)⟩
theorem test_rfence : (((nextOf (exec .rfence { mk gF with cores := [(0, { core0 with records := [(3, [])] })] })).core 0).records) = [] ∧ (groupAfter .rfence (mk gStore)).split 0 = some sp0 := by decide +kernel
/-- s5 an address, s6 a length; pins held on the lines of 0x2000 and 0x2080. -/
def spP (n : DWord) : Split := { sp0 with sregs := [(5, 0x2040), (6, n)] }
def sP (n : DWord) (pins : AMap (AMap Nat)) : State := { mk (withSp (spP n)) with mem := { State.reset.mem with pins := pins } }
theorem witness_CoreMemoryAndTranslation_pins (n : DWord) (p : AMap (AMap Nat)) : At (sP n p) (withSp (spP n)) (spP n) := ⟨rfl, rfl⟩
theorem witness_CoreMemoryAndTranslation_range : ((spP 0x80).reg 6).toNat ≤ 2 ^ 21 - 128 ∧ 2 ^ 30 < ((spP 0x40000001).reg 6).toNat ∧ ((spP 0).reg 6).toNat = 0
    ∧ onePiece (sP 0x80 []) ((sP 0x80 []).whoOf 0 (withSp (spP 0x80))) ((spP 0x80).reg 5) 0x80 .any 0x2040 0x2040 ∧ lineIn 0x2040 0x80 0x41
    ∧ 255 ≤ (sP 0x80 [(0x41, [(0, 200), (3, 55)])]).mem.pinCount 0x41 ∧ 254 = (sP 0x80 [(0x41, [(0, 254)])]).mem.pinCount 0x41 :=
  ⟨by decide, by decide, by decide, one_of (by decide +kernel), ⟨by decide, by decide⟩, by decide, by decide⟩
theorem witness_CoreMemoryAndTranslation_unpin : ∀ l, lineIn 0x2040 0x80 l → amGet (sP 0x80 [(0x40, [(0, 1)]), (0x41, [(0, 2)])]).mem.pins l = none
    ∨ ∃ c, 1 ≤ c ∧ amGet (sP 0x80 [(0x40, [(0, 1)]), (0x41, [(0, 2)])]).mem.pins l = some [(0, c)] := by
  intro l h
  have : l = 0x40 ∨ l = 0x41 := by unfold lineIn at h; omega
  rcases this with rfl | rfl
  · exact .inr ⟨1, by decide, rfl⟩
  · exact .inr ⟨2, by decide, rfl⟩
theorem test_pin : (nextOf (exec (.pin 5 6) (sP 0x80 []))).mem.pinCount 0x40 = 1 ∧ (nextOf (exec (.pin 5 6) (sP 0x80 []))).mem.pinCount 0x41 = 1
    ∧ (nextOf (exec (.pin 5 6) (sP 0x80 []))).mem.pinCount 0x42 = 0 := by decide +kernel
theorem test_unpin : (nextOf (exec (.unpin 5 6) (sP 0x80 [(0x40, [(0, 1)]), (0x41, [(0, 2)])]))).mem.pins = [(0x41, [(0, 1)])] := by decide +kernel
/-- Page tables of address space 0: root at 0x10000; 64 KiB page 2 lies in the frame at 0x20000. -/
def ptCells (mig : Bool) : List Host.Cell :=
  [(0x10000, 0x01), (0x10001, 0x10), (0x10002, 0x01), (0x11000, 0x01), (0x11001, 0x20), (0x11002, 0x01), (0x12000, 0x01), (0x12001, 0x30), (0x12002, 0x01), (0x13000, 0x01), (0x13001, 0x40),
   (0x13002, 0x01), (0x14020, if mig then 0x5F else 0x1F), (0x14022, 0x02), (0x20003, 0x77)]
def leaf2 : Leaf := { frame := 0x20000, bits := 16, rd := true, wr := true, atomics := true, format := none }
/-- A group stopped by a fault. -/
def gPF (c : Byte) (last : List PendingFault) : Group :=
  { g0 with ctl := { g0.ctl with fault := some { cause := c, addr := 0x20000, lane := false, split := 0, pc := 0x100, lp := 0 }, lastTimeout := last } }
def sPT (g : Group) (mig : Bool) : State := { mk g with mem := { State.reset.mem with hbm := ptCells mig, roots := [(0, 0x10000)] }, dev := { State.reset.dev with phase := .running } }
theorem witness_CoreMemoryAndTranslation_walk : (sPT g0 false).walk 0 0x20008 = .leaf leaf2 false ∧ (sPT g0 false).walk 0 0x30000 = .none false := by decide +kernel
theorem witness_CoreMemoryAndTranslation_replay (c : Byte) (l : List PendingFault) : (sPT (gPF c l) false).group (gkey 0 0) = some (gPF c l)
    ∧ (gPF c l).ctl.fault = some { cause := c, addr := 0x20000, lane := false, split := 0, pc := 0x100, lp := 0 } ∧ (gPF c l).ctl.save = .running
    ∧ ((sPT (gPF c l) false).whoOf 0 (gPF c l)).asid < 256 ∧ (sPT (gPF c l) false).mem.shoots = [] ∧ (sPT (gPF c l) false).mem.revoked = [] := ⟨rfl, rfl, rfl, (by show (0 : Nat) < 256; decide), rfl, rfl⟩
theorem witness_CoreMemoryAndTranslation_overlay : ((sF none .landed).codeSlot 0 (0x3E000 / 8192 % 32)).state = .landed ∧ ((sF none .empty).codeSlot 0 (0x3E000 / 8192 % 32)).state = .empty := by decide
theorem test_replay_page : (((nextOf (exec (.faultReplay 0 0) (sPT (gPF 3 []) false))).group 0).map (·.ctl.fault)) = some none := by decide +kernel
theorem test_replay_timeout : (((nextOf (exec (.faultReplay 0 0) (sPT (gPF 0x0E []) false))).group 0).map (·.ctl.fault)) = some none
    ∧ (((nextOf (exec (.faultReplay 0 0) (sPT (gPF 0x0E (gPF 0x0E []).ctl.fault.toList) false))).group 0).map (·.ctl.stopped)) = some true := by decide +kernel
theorem test_page_walk : ((nextOf (exec (.pageWalk 7 0 0x20008) (sPT g0 false))).core 7).tlb = [{ asid := 0, va := 0x20000, leaf := leaf2 }] := by decide +kernel
theorem witness_CoreMemoryAndTranslation_miss : tlbFind ((amGet (sPT g0 false).mem.tlbs (clusterOf 7)).getD []) 0 0x20008 = none ∧ amGet (sPT g0 false).mem.walkCache (dieOf 7) = none ∧ (sPT g0 false).mem.overflow = []
    ∧ (nextOf (exec (.pageWalk 7 0 0x20008) (sPT g0 false))).walkAt 0 0 0x20008 = .leaf leaf2 false
    ∧ tlbFind ((amGet (nextOf (exec (.pageWalk 7 0 0x20008) (sPT g0 false))).mem.tlbs (clusterOf 7)).getD []) 0 0x2FFFF = some leaf2 := by decide +kernel
theorem witness_CoreMemoryAndTranslation_channels : s0.dev.topology = State.fullTopology ∧ ((6442450943 : Nat) + 1) * 128 ≤ s0.paEnd ∧ s0.lineChannel 6442450943 = some 511 ∧ s0.channelLine 6442450943 = 12582911 := by decide +kernel
theorem test_l2_fill : nsHas (nextOf (exec (.l2MissFill 9) { s0 with mem := { s0.mem with msrs := [(9, [3])] } })).mem.l2 9 = true := by decide +kernel
/-- A root node whose first entry gives ranks 4 to 7 class 1, network identifiers from 0x50 and path set 0, which has a path. -/
def rootOf : List Byte := bytesOf 8 (2 ^ 63 + 1 * 2 ^ 60 + 4 * 2 ^ 40 + 7 * 2 ^ 20) ++ bytesOf 8 0x50 ++ bytesOf 8 3 ++ bytesOf 8 0 ++ List.replicate 480 0
def devR : Device := { State.reset.dev with phase := .running, rootNode := rootOf, ranges := [(0, 100)], pathSets := [List.replicate 8 0 ++ [1] ++ List.replicate 55 0] }
theorem witness_CoreMemoryAndTranslation_rank : amGet ((amGet s0.fabric.ranks 3).getD []) 7 = none ∧ ({ s0 with dev := devR } : State).permitted 7 = true ∧ devR.guardPending = none
    ∧ resolveFrom { s0 with dev := devR } 7 8 devR.rootNode 0 = .ok (1, 0x59, 0) := ⟨rfl, by decide, rfl, ok_of (by decide +kernel)⟩
theorem test_rank_walk : (nextOf (exec (.rankWalk 3 7) { s0 with dev := devR })).fabric.ranks = [(3, [(7, (1, 0x59, 0))])] := by decide +kernel
/-- A shootdown of pages 2 and 3 begun at cycle 0, with a pin there. -/
def shoot0 (m : Option (Nat × Nat × Nat)) : Shoot := { tag := 9, asid := 0, va := 0x20000, len := 0x20000, remap := true, since := 0, move := m }
def sSh (m : Option (Nat × Nat × Nat)) (pin mig : Bool) (n : Nat) : State :=
  { sPT g0 mig with now := n, mem := { (sPT g0 mig).mem with shoots := [(2, shoot0 m)], pins := (if pin then [(0x400, [(6, 2)]), (0x900, [(6, 1)])] else []), pinPages := (if pin then [(0x400, [(0, 2)]), (0x900, [(0, 9)])] else []) } }
theorem witness_CoreMemoryAndTranslation_shoot : amGet (sSh none true false 180000).mem.shoots 2 = some (shoot0 none) ∧ (shoot0 none).move = none ∧ 180000 ≤ 180000 - (shoot0 none).since
    ∧ 179999 - (shoot0 none).since < 180000 ∧ (sSh none true false 180000).mem.pinsIn 0 0x20000 0x20000 = [0x400] ∧ (sSh none false false 9).mem.pinsIn 0 0x20000 0x20000 = [] := by decide +kernel
theorem test_pin_revocation : (nextOf (exec (.pinRevocation 2) (sSh none true false 180000))).mem.pins = [(0x900, [(6, 1)])] ∧ (nextOf (exec (.pinRevocation 2) (sSh none true false 179999))).mem.pinCount 0x400 = 2 := by
  decide +kernel
theorem test_shootdown : (nextOf (exec (.shootdownComplete 2) (sSh none false false 9))).answers = [{ tag := 9, status := 0, data := [] }] := by decide +kernel
theorem witness_CoreMemoryAndTranslation_migrate : (sSh (some (65536, 0x40000, 0)) false true 9).leafAt 0 0x20000 = some (0x14020, 16) ∧ (sSh (some (65536, 0x40000, 0)) false true 9).walk 0 0x20000 = .leaf leaf2 true
    ∧ leaf2.format = none ∧ (∀ c ∈ (sSh (some (65536, 0x40000, 0)) false true 9).cores, c.2.l1.dirty = []) ∧ leaf2.frame + 65536 ≤ 0x40000 ∧ 0x14020 + 8 ≤ leaf2.frame
    ∧ (sSh (some (65536, 0x40000, 0)) false true 9).mem.wf = true ∧ ({ sSh (some (65536, 0x40000, 0)) false true 9 with mem := { s0.mem with roots := [] } } : State).leafAt 0 0x20000 = none := by decide +kernel
theorem test_migration : (nextOf (exec (.migrationComplete 2) (sSh (some (65536, 0x40000, 0)) false true 9))).mem.byte 0x40003 = 0x77
    ∧ (nextOf (exec (.migrationComplete 2) (sSh (some (65536, 0x40000, 0)) false true 9))).walk 0 0x20000 = .leaf { leaf2 with frame := 0x40000 } false := by decide +kernel

/-! ### The matrix unit and rank-coded mode -/

/-- An INT tile and an FP tile of two rows and two columns, 8 A bits and 8 planes (R185). -/
def wInt : Word := 0xFF0C0201
def wFp : Word := 0xBF000201
/-- 256 rows by 16 columns: 16,384 bytes. -/
def wBig : Word := 0xFF0DFE0F
/-- A team with 16 KiB of scratchpad and of accumulators; tile 0 INT, tile 1 FP. -/
def teamM : Team := { team0 with part := 0x1011, tcfg := [(0, wInt), (1, wFp)], tiles := [(1, 5), (2 ^ 17, 0x3F800000)], scratch := (upFrom 0 4).map fun i => (0x40 + i, BitVec.ofNat 8 (wBig.toNat / 256 ^ i)) }
/-- s5 to s8: the configuration block, another of zeros, a row descriptor of i32 with stride 8, rows at 0x200. -/
def spM : Split := { sp0 with sregs := [(5, 0x4000000000000040), (6, 0x4000000000000080), (7, 0x400000008), (8, 0x4000000000000200), (9, 0x4000000000000020)] }
def gM : Group := withSp spM
def sM (tm : Team) : State := { mk gM with head := { State.reset.head with teams := [(0, tm)] } }
/-- The same with 17 columns: more than 16,384 bytes. -/
def teamM17 : Team := { teamM with scratch := (upFrom 0 4).map fun i => (0x40 + i, BitVec.ofNat 8 ((wBig + 1).toNat / 256 ^ i)) }
theorem witness_MatrixUnit_tcfg : At (sM teamM) gM spM ∧ (sM teamM).team gM.team = some teamM ∧ (spM.reg 5).toNat % 64 = 0 ∧ (spM.reg 9).toNat % 64 ≠ 0 ∧ inScr teamM (spM.reg 5).toNat 64
    ∧ gM.memIssued 0 = true ∧ quietTiles (sM teamM) 0 0 teamM := ⟨⟨rfl, rfl⟩, rfl, by decide, by decide, ⟨by decide, by decide⟩, rfl, ⟨(by intro o h; cases h), (by intro o h; cases h)⟩⟩
theorem witness_MatrixUnit_good : (∀ i, i < 16 → cfgWordGood (scrNum teamM ((spM.reg 5).toNat + 4 * i) 4))
    ∧ ((List.range 16).map fun i => if bits (scrNum teamM ((spM.reg 5).toNat + 4 * i) 4) 31 1 = 1 then rowsOf (scrNum teamM ((spM.reg 5).toNat + 4 * i) 4) * colsOf (scrNum teamM ((spM.reg 5).toNat + 4 * i) 4) * 4 else 0).sum
      ≤ 16384 * bits teamM.part.toNat 12 8 := by
  refine ⟨?_, by decide +kernel⟩
  unfold cfgWordGood
  decide +kernel
theorem witness_MatrixUnit_bad : 16384 * bits teamM17.part.toNat 12 8
    < ((List.range 16).map fun i => if bits (scrNum teamM17 ((spM.reg 5).toNat + 4 * i) 4) 31 1 = 1 then rowsOf (scrNum teamM17 ((spM.reg 5).toNat + 4 * i) 4) * colsOf (scrNum teamM17 ((spM.reg 5).toNat + 4 * i) 4) * 4 else 0).sum := by
  decide +kernel
theorem witness_MatrixUnit_tzero : bits (tileWord teamM (15 : BitVec 4).toNat) 31 1 = 0 ∧ bits (tileWord teamM (1 : BitVec 4).toNat) 31 1 = 1 := by decide
theorem witness_MatrixUnit_mfence : noWaitOn (sM teamM) (.window (8 * 0)) ∧ spM.status = .ready ∧ ((sM teamM).core 0).engines.mtxLast + 1 < 2 ^ 64 := by
  refine ⟨fun x h y hy => ?_, rfl, by decide⟩
  have : x = (0, gM) := by simpa [sM, mk] using h
  subst this
  have : y = (0, spM) := by simpa [gM, withSp] using hy
  subst this
  exact ⟨(by intro w b e; cases e), (by intro w b e; cases e)⟩
theorem test_tcfg : ((nextOf (exec (.tcfg 5) (sM teamM))).team 0).map (fun t => (t.tcfg, t.tiles)) = some ([(0, wBig)], []) := by decide +kernel
theorem test_tcfg_too_big : (groupAfter (.tcfg 5) (sM teamM17)).ctl.stopped = true := by decide +kernel
theorem test_tzero : ((nextOf (exec (.tzero 1) (sM teamM))).team 0).map (·.tiles) = some [(1, 5)] := by decide +kernel
theorem test_mfence : (splitAfter (.mfence 5) (sM teamM)).reg 5 = 1 := by decide +kernel
/-- A record of a 256 by 2 matrix of i8 at 0x1000 in the scratchpad, its K-rows two bytes apart; base step 2^23 - 1. -/
def recM : List Byte :=
  bytesOf 8 0x20 ++ bytesOf 8 0x4000000000001000 ++ bytesOf 4 256 ++ bytesOf 4 2 ++ bytesOf 16 0 ++ bytesOf 8 2 ++ bytesOf 8 1 ++ bytesOf 32 0 ++ bytesOf 24 0 ++ bytesOf 4 256 ++ bytesOf 4 2
    ++ bytesOf 16 0 ++ bytesOf 8 0 ++ bytesOf 24 0 ++ bytesOf 2 256 ++ bytesOf 2 2 ++ bytesOf 8 0 ++ bytesOf 12 0
/-- s10 holds the record's address, s11 a count of one, s12 of none. -/
def spML : Split := { spM with sregs := spM.sregs ++ [(10, 0x7000), (11, 1), (12, 0)] }
def gML : Group := withSp spML
def sML : State := { sM teamM with groups := [(0, gML)], cores := [(0, { core0 with records := [(0x7000, recM)] })] }
theorem witness_MatrixUnit_issue : At sML gML spML ∧ sML.team gML.team = some teamM ∧ gML.async.tiles < 4095 ∧ bits (tileWord teamM (0 : BitVec 4).toNat) 31 1 = 1 ∧ (∀ c ∈ teamM.colls, c.started = true → c.tile ≠ 0)
    ∧ bits (spML.reg 7).toNat 36 28 = 0 ∧ bits (spML.reg 7).toNat 32 4 = 4 ∧ (spML.reg 8).toNat % 4 = 0 ∧ bits (spML.reg 7).toNat 0 32 % 4 = 0
    ∧ (∀ r, r < rowsOf (tileWord teamM 0) → inScr teamM (spML.reg 8 + BitVec.ofNat 64 (r * 8)).toNat (colsOf (tileWord teamM 0) * 4)) := by
  refine ⟨⟨rfl, rfl⟩, rfl, by decide, by decide, (by intro c h; cases h), by decide, by decide, by decide, by decide, ?_⟩
  unfold inScr
  decide
theorem witness_MatrixUnit_mloop : sML.recordRead (sML.whoOf 0 gML) (spML.reg 10) = .ok (sML, recM) ∧ recFormat recM = 0 ∧ recDims recM = 2 ∧ bits (spML.reg 11).toNat 0 16 = 1 ∧ bits (spML.reg 12).toNat 0 16 = 0
    ∧ inScr teamM (spML.reg 8 + BitVec.ofInt 64 ((0 : Nat) * (BitVec.ofNat 24 ((spML.reg 11).toNat / 2 ^ 16)).toInt)).toNat (rowsOf (tileWord teamM 0) * tileKs (stGet 0 teamM.tcfg 0) * bytesIn (tileAType (stGet 0 teamM.tcfg 0))) := by
  refine ⟨?_, by decide +kernel, by decide +kernel, by decide, by decide, ⟨by decide, by decide⟩⟩
  have h : recOk recM = true := by decide +kernel
  show (if recOk recM then Except.ok (sML, recM) else Except.error (Stop.trap cProtect, false)) = Except.ok (sML, recM)
  rw [if_pos h]
/-- Every element of B lies in the scratchpad. -/
def placesOk (s : State) (w : Who) (b : List Byte) (ks cols : Nat) : Bool := (bElems b ks cols).all fun e => match s.bPlace w b e.2.2 with | .ok _ => true | .error _ => false
theorem witness_MatrixUnit_places : placesOk sML (sML.whoOf 0 gML) (stepB recM 0 0) 256 2 = true := by decide +kernel
theorem test_tld_issue : ((nextOf (exec (.tld 0 8 7 0 0) sML)).core 0).engines.matq.map (·.kind) = [.tld 0 0x4000000000000200 4 8 0 false] ∧ (groupAfter (.tld 0 8 7 0 1) sML).ctl.stopped = true := by decide +kernel
theorem test_tst_issue : ((nextOf (exec (.tst 1 8 7 4 0) sML)).core 0).engines.matq.map (·.kind) = [.tst 0 0x4000000000000200 4 8 4 true] := by decide +kernel
theorem test_mloop_none : ((nextOf (exec (.mloop 0 8 10 12) sML)).core 0).engines.matq.map (·.step) = [0] ∧ (groupAfter (.mloop 0 8 10 12) sML).async.tiles = 1 := by decide +kernel
/-- The head of the sequencer. -/
def opM (k : MatKind) (n : Nat) : MatOp := { id := 0, kind := k, team := 0, launch := 0, slot := 0, serial := 0, pc := 0x100, step := n, misses := 0, sent := false, wait := [], vals := [], stop := none }
/-- A at 0x200: row 0 is (2, 0, ..., -1), row 1 is (0, ..., 3); B at 0x1000: column 0 is (5, ..., 7), column 1 is (-4, ..., 1). -/
def teamAB : Team :=
  { teamM with scratch := [(0x200, 2), (0x2FF, 0xFF), (0x3FF, 3), (0x1000, 5), (0x1001, 0xFC), (0x11FE, 7), (0x11FF, 1)] }
def sOp (tm : Team) (o : MatOp) : State :=
  { sM tm with cores := [(0, { core0 with engines := { core0.engines with matq := [o] } })] }
theorem witness_MatrixUnit_head (tm : Team) (o : MatOp) (h1 : o.team = 0) (h2 : o.wait = []) (h3 : o.stop = none) (h4 : o.slot = 0) : headFree (sOp tm o) 0 o [] tm :=
  ⟨rfl, by rw [h1]; rfl, h2, h3, by rw [h4]; intro g h; cases h; rfl⟩
theorem witness_MatrixUnit_first : (opM (.tld 0 0x4000000000000200 4 8 0 false) 0).step = 0 ∧ (opM (.tst 0 0x4000000000000200 4 8 0 false) 0).step = 0 := ⟨rfl, rfl⟩
theorem witness_MatrixUnit_rows : (0 : Nat) < 16 ∧ (4 : BitVec 4).toNat ≤ 12 ∧ colsOf (tileWord teamAB 0) * bytesIn 4 ≤ 8 ∧ (∀ r, r < rowsOf (tileWord teamAB 0) → inScr teamAB ((0x4000000000000200 : DWord) + BitVec.ofNat 64 (r * 8)).toNat (colsOf (tileWord teamAB 0) * bytesIn 4))
    ∧ inScr teamAB (0x4000000000003FF8 : DWord).toNat 8 := by
  refine ⟨by decide, by decide, by decide, ?_, ⟨by decide, by decide⟩⟩
  unfold inScr
  decide
theorem witness_MatrixUnit_step : (opM (.mloop 0 0x4000000000000200 recM 1 0 0) 0).step < 1 ∧ bits (tileWord teamAB 0) 31 1 = 1 ∧ bits (tileWord teamAB 0) 30 1 = 1 ∧ bits (tileWord teamAB 0) 18 3 = 3 ∧ bits (tileWord teamAB 0) 24 3 = 7
    ∧ inScr teamAB ((0x4000000000000200 : DWord) + BitVec.ofInt 64 ((0 : Nat) * 0)).toNat (rowsOf (tileWord teamAB 0) * 256) ∧ ¬ (1 : Nat) ≤ 0 := by
  refine ⟨by decide, by decide, by decide, by decide, by decide, ⟨by decide, by decide⟩, by decide⟩
theorem witness_MatrixUnit_cells : ∀ k, k < 256 → ∀ n, n < 2 → k < recExt recM 0 ∧ n < recExt recM 1 ∧ recIn recM [recOrigin recM 0 + (k : Nat), recOrigin recM 1 + (n : Nat)] = true
    ∧ (recAddr recM [recOrigin recM 0 + (k : Nat), recOrigin recM 1 + (n : Nat)]).toNat / 2 ^ 24 = 2 ^ 38
    ∧ (recAddr recM [recOrigin recM 0 + (k : Nat), recOrigin recM 1 + (n : Nat)]).toNat % 2 ^ 24 + 1 ≤ bits teamAB.part.toNat 4 8 * 16384 := by decide +kernel
theorem test_tld : ((nextOf (exec (.matrixOpComplete 0) (sOp teamAB (opM (.tld 0 0x40000000000001FC 4 0x100 0 false) 0)))).team 0).map (·.tiles) = some [(1, 2), (2 ^ 9, 0xFF000000), (2 ^ 17, 0x3F800000)] := by decide +kernel
theorem test_tst : ((nextOf (exec (.matrixOpComplete 0) (sOp { teamM with scratch := [] } (opM (.tst 0 0x4000000000000200 0 8 0 false) 0)))).team 0).map (·.scratch) = some [(0x201, 5)] := by decide +kernel
theorem test_mloop_done : ((nextOf (exec (.matrixOpComplete 0) (sOp teamAB (opM (.mloop 0 0x4000000000000200 recM 1 0 0) 1)))).core 0).engines.matq = [] := by decide +kernel
/-- A block of three values. -/
theorem witness_MatrixUnit_block : bits wFp.toNat 30 1 = 0 ∧ (∃ x ∈ [FVal.fin false 3 0, .inf true], x.isNan = true ∨ x.isInf = true) ∧ (∀ x ∈ [FVal.fin false 0 0, .fin true 0 0], x.isZero = true)
    ∧ convertBlock wFp [.fin false 3 0, .fin true 1 1, .fin false 1 (-30)] = some (-5, [96, -64, 0]) := ⟨by decide, ⟨.inf true, by simp, .inr rfl⟩, by decide, by decide +kernel⟩

/-! ### Rank-coded mode -/

/-- A descriptor at 0x100 in the scratchpad: 4 values of i16 at 0x200 in 2 rows 8 bytes apart, lists of 3, block at 0x40, no threshold, by magnitude. -/
def encB : List Byte := bytesOf 8 0x4000000000000200 ++ bytesOf 8 0x4000000000000040 ++ bytesOf 8 (2 * 2 ^ 32 + 3 * 2 ^ 16 + 1 * 2 ^ 8 + 2) ++ bytesOf 8 0 ++ bytesOf 8 8 ++ bytesOf 24 0
/-- Rows (5, -7, 7, 1) and (0, -32768, 3, -3). -/
def cellsAt (a : Nat) (bs : List Byte) : List (Nat × Byte) := ((upFrom a bs.length).zip bs).filter fun x => x.2 != 0
def teamRk : Team :=
  { teamM with scratch := cellsAt 0x100 encB ++ cellsAt 0x200 (bytesOf 2 5 ++ bytesOf 2 0xFFF9 ++ bytesOf 2 7 ++ bytesOf 2 1 ++ bytesOf 2 0 ++ bytesOf 2 0x8000 ++ bytesOf 2 3 ++ bytesOf 2 0xFFFD)
                 ++ cellsAt 0x400 (bytesOf 8 (2 + 2 ^ 8 + 4 * 2 ^ 32) ++ bytesOf 6 0x800100020000 ++ bytesOf 6 0x000200017FFF) ++ cellsAt 0x600 (bytesOf 2 0x3F80 ++ bytesOf 2 0x4000 ++ bytesOf 508 0 ),
               residentB := some { record := recM, cols := 2, planes := 8 } }
def spRk : Split := { sp0 with sregs := [(5, 0x4000000000000100), (6, 0x4000000000000400), (7, 0x4000000000000600), (8, 0x4000000000000800)] }
def gRk : Group := withSp spRk
def sRk (o : Option Nat) : State :=
  { mk gRk with head := { State.reset.head with teams := [(0, teamRk)] }, cores := [(0, { core0 with atten := [(3, { weights := [], owner := o })] })] }
theorem witness_RankCodedMode_tables : At (sRk none) gRk spRk ∧ (sRk none).team gRk.team = some teamRk ∧ ((amGet ((sRk none).core 0).atten 3).getD Atten.fresh).owner = none ∧ ((amGet ((sRk (some 5)).core 0).atten 3).getD Atten.fresh).owner = some 5
    ∧ 5 ≠ gRk.launch ∧ (spRk.reg 7).toNat % 64 = 0 ∧ inScr teamRk (spRk.reg 7).toNat 512 ∧ gRk.memIssued 0 = true ∧ (∀ o ∈ ((sRk none).core 0).engines.matq, o.kind.usesTable 3 = false) :=
  ⟨⟨rfl, rfl⟩, rfl, rfl, rfl, by decide, by decide, ⟨by decide, by decide⟩, rfl, (by intro o h; cases h)⟩
theorem witness_RankCodedMode_rkenc : (spRk.reg 5).toNat % 64 = 0 ∧ inScr teamRk (spRk.reg 5).toNat 64 ∧ gRk.async.tiles < 4095 ∧ teamRk.scratchBytes ((spRk.reg 5).toNat % 2 ^ 24) 64 = encB ∧ encOk encB = true
    ∧ (encSource encB).toNat % bytesIn (encType encB) = 0 ∧ encStride encB % bytesIn (encType encB) = 0 ∧ (∀ j, j < encRows encB → inScr teamRk (encSource encB + BitVec.ofNat 64 (j * encStride encB)).toNat (encK encB * bytesIn (encType encB)))
    ∧ (encDest encB).toNat % 8 = 0 ∧ inScr teamRk (encDest encB).toNat (8 + 2 * encRows encB * encCount encB) := by
  unfold inScr
  decide +kernel
theorem witness_RankCodedMode_rkmm : bits (tileWord teamRk (1 : BitVec 4).toNat) 31 1 = 1 ∧ bits (tileWord teamRk (1 : BitVec 4).toNat) 30 1 = 0 ∧ teamRk.residentB = some { record := recM, cols := 2, planes := 8 } ∧ 2 = colsOf (tileWord teamRk 1)
    ∧ 8 = bits (tileWord teamRk 1) 24 3 + 1 ∧ (spRk.reg 6).toNat % 8 = 0 ∧ hdrOk (BitVec.ofNat 64 (scrNum teamRk (spRk.reg 6).toNat 8)) = true ∧ hdrRows (BitVec.ofNat 64 (scrNum teamRk (spRk.reg 6).toNat 8)) ≤ rowsOf (tileWord teamRk 1)
    ∧ inScr teamRk (spRk.reg 6).toNat (8 + 2 * hdrRows (BitVec.ofNat 64 (scrNum teamRk (spRk.reg 6).toNat 8)) * hdrCount (BitVec.ofNat 64 (scrNum teamRk (spRk.reg 6).toNat 8))) ∧ (∀ c ∈ teamRk.colls, c.started = true → c.tile ≠ 1)
    ∧ bits (tileWord teamRk (0 : BitVec 4).toNat) 30 1 = 1 := by
  refine ⟨by decide, by decide, rfl, by decide, by decide, by decide, by decide +kernel, by decide +kernel, ⟨by decide, by decide +kernel⟩, (by intro c h; cases h), by decide⟩
theorem witness_RankCodedMode_rkval : (spRk.reg 8).toNat % 4 = 0 ∧ inScr teamRk (spRk.reg 8).toNat (hdrRows (BitVec.ofNat 64 (scrNum teamRk (spRk.reg 6).toNat 8)) * hdrLen (BitVec.ofNat 64 (scrNum teamRk (spRk.reg 6).toNat 8)) * 4)
    ∧ (∀ c ∈ teamRk.colls, c.started = false) := ⟨by decide, ⟨by decide, by decide +kernel⟩, (by intro c h; cases h)⟩
theorem test_rktbl : ((amGet ((nextOf (exec (.rktbl 7 3) (sRk none))).core 0).atten 3).map fun a => (stGet 0 a.weights 1, a.owner)) = some (0x4000, some 0) ∧ (groupAfter (.rktbl 7 3) (sRk (some 5))).ctl.stopped = true := by decide +kernel
theorem test_rkenc_issue : ((nextOf (exec (.rkenc 9 5) (sRk none))).core 0).engines.rankq.map (·.num) = [1] ∧ nsHas (groupAfter (.rkenc 9 5) (sRk none)).async.owed 9 = true := by decide +kernel
theorem test_rkmm_issue : ((nextOf (exec (.rkmm 1 6 3) (sRk none))).core 0).engines.matq.map (·.kind.tile) = [some 1] ∧ (groupAfter (.rkmm 0 6 3) (sRk none)).ctl.stopped = true := by decide +kernel
theorem test_rkval_issue : ((nextOf (exec (.rkval 6 8 0 3) (sRk none))).core 0).engines.matq.map (·.kind) = [.rkval 0x4000000000000400 0x400000102 0x4000000000000800 false 3] := by decide +kernel
/-- The operation of that descriptor at the head of the rank engine. -/
def opRk : RankOp := { num := 1, desc := 0x4000000000000100, bytes := encB, team := 0, launch := 0, slot := 0, serial := 0, split := 0, pc := 0x100, d := 9 }
def gRkE : Group := { gRk with async := { gRk.async with tiles := 1, owed := nsAdd [] 9 } }
def sRkE : State :=
  { mk gRkE with head := { State.reset.head with teams := [(0, teamRk)] }, cores := [(0, { core0 with engines := { core0.engines with rankq := [opRk], rankLast := 1 } })] }
theorem witness_RankCodedMode_completes : (sRkE.core 0).engines.rankq = opRk :: [] ∧ opRk.done = none ∧ sRkE.team opRk.team = some teamRk ∧ sRkE.group (gkey 0 opRk.slot) = some gRkE ∧ sRkE.serial (gkey 0 opRk.slot) = opRk.serial
    ∧ noWaitOn sRkE (.window (8 * (512 + 0))) ∧ inScr teamRk (encDest encB).toNat (8 + 2 * encRows encB * encCount encB) ∧ inScr teamRk opRk.desc.toNat 64
    ∧ (encDest encB).toNat % 2 ^ 24 + (8 + 2 * encRows encB * encCount encB) ≤ opRk.desc.toNat % 2 ^ 24 := by
  refine ⟨rfl, rfl, rfl, rfl, rfl, fun x h y hy => ?_, ⟨by decide +kernel, by decide +kernel⟩, ⟨by decide, by decide⟩, by decide +kernel⟩
  have : x = (0, gRkE) := by simpa [sRkE, mk] using h
  subst this
  have : y = (0, spRk) := by simpa [gRkE, gRk, withSp] using hy
  subst this
  exact ⟨(by intro w b e; cases e), (by intro w b e; cases e)⟩
theorem witness_RankCodedMode_order : encSigned encB = false ∧ encThreshold encB = none ∧ encType encB = 2 ∧ encCount encB ≤ encK encB := by decide +kernel
theorem test_rank_vector : rankVector encB (teamRk.scratchBytes 0x200 8) = ([0x8001, 2, 0], 3, 0) ∧ rankVector encB (teamRk.scratchBytes 0x208 8) = ([0x8001, 2, 0x8003], 3, 0) := by decide +kernel
theorem test_rkenc_completes : (splitAfter (.rkencComplete 0) sRkE).reg 9 = 6 ∧ ((nextOf (exec (.rkencComplete 0) sRkE)).team 0).map (fun t => scrNum t 0x4000000000000048 6) = some 0x000000028001 := by decide +kernel

/-! ### Copy engines -/

/-- Page tables at 0x10000 that map the first GiB to itself. -/
def ptGib : List Host.Cell := cellsAt 0x10000 (bytesOf 8 0x11001) ++ cellsAt 0x11000 (bytesOf 8 0x12001) ++ cellsAt 0x12000 (bytesOf 8 0x1F)
/-- A queue descriptor at 0x20000: ring of 2 at 0x30000, read index, target 0x22000 for class 0, write index. -/
def descQ (r w : Nat) : List Host.Cell :=
  cellsAt 0x20000 (bytesOf 8 0x30000 ++ bytesOf 8 1 ++ bytesOf 8 r ++ bytesOf 8 0x21000 ++ bytesOf 8 0 ++ bytesOf 8 0x22000) ++ cellsAt 0x20080 (bytesOf 8 w)
def queue0 : CopyQueue := { desc := 0x20000, asid := 0, launch := 0, engine := 0, headSince := some 0, done := [], held := false }
/-- s5 a source, s6 a destination, s7 a length, s8 one byte too long, s9 a misaligned address. -/
def spC : Split := { sp0 with sregs := [(5, 0x50000), (6, 0x60000), (7, 0x100000000), (8, 0x100000001), (9, 0x50002)] }
def gC (cqb : DWord) : Group := { g0 with splits := [(0, spC)], csrs := { g0.csrs with cqb := [(3, cqb)] }, async := { g0.async with tokens := [(7, 254)], copies := 4094 } }
def sC (cqb : DWord) (r w : Nat) (more : List Host.Cell) : State :=
  { mk (gC cqb) with mem := { State.reset.mem with hbm := ptGib ++ descQ r w ++ more, roots := [(0, 0x10000)] }, queues := [(4, queue0)], now := 1800000 }
theorem witness_CopyEngines_issue : At (sC 0x20000 5 6 []) (gC 0x20000) spC ∧ (sC 0x20000 5 6 []).boundQueue (gC 0x20000) (3 : BitVec 2).toNat = some (4, queue0) ∧ allIssued (sC 0x20000 5 6 []) (gC 0x20000)
    ∧ nothingOut (sC 0x20000 5 6 []) (gC 0x20000) 0 0 0 ∧ ((sC 0x20000 5 6 []).core 0).l1.dirty = [] ∧ (gC 0x20000).token 7 < 255 ∧ (gC 0x20000).async.copies < 4095
    ∧ (sC 0x20000 5 6 []).boundQueue (gC 0x20000) 2 = none ∧ (sC 0x30000 5 6 []).boundQueue (gC 0x30000) 3 = none ∧ (spC.reg 7).toNat ≤ 2 ^ 32 ∧ 2 ^ 32 < (spC.reg 8).toNat ∧ (spC.reg 5).toNat % 4 = 0
    ∧ (spC.reg 6).toNat % 4 = 0 ∧ (spC.reg 7).toNat % 4 = 0 ∧ (0 : Nat) < 384 :=
  ⟨⟨rfl, rfl⟩, rfl, (by intro e h; cases h), nothingOut_quiet _ _ rfl rfl rfl rfl, rfl, by decide, by decide, rfl, rfl, by decide, by decide, by decide, by decide, by decide, by decide⟩
theorem witness_CopyEngines_room : (sC 0x20000 5 6 []).queueRead queue0 = 5 ∧ (sC 0x20000 5 6 []).queueWrite queue0 = 6 ∧ (sC 0x20000 5 6 []).queueSize queue0 = 2 := by decide +kernel
theorem test_copy_entry : let t := nextOf (exec (.copy 7 5 6 0 3 3 7) (sC 0x20000 5 6 [])); t.mem.num 0x30000 8 = 0x0F000301 ∧ t.mem.num 0x30018 8 = 2 ^ 32 ∧ t.mem.num 0x3003E 2 = 6 ∧ t.mem.num 0x20080 8 = 7 := by
  decide +kernel
theorem test_tcopy_gcopy : (nextOf (exec (.tcopy 7 5 6 1 3 0 7) (sC 0x20000 5 6 []))).mem.num 0x30000 8 = 0x0F001002 ∧ (nextOf (exec (.gcopy 7 5 6 2 3 7) (sC 0x20000 5 6 []))).mem.num 0x30008 8 = 2 ^ 32 := by
  decide +kernel
theorem test_copy_refused : (groupAfter (.copy 8 5 6 0 3 0 7) (sC 0x20000 5 6 [])).ctl.stopped = true ∧ (groupAfter (.copy 7 9 6 0 3 1 7) (sC 0x20000 5 6 [])).ctl.stopped = true
    ∧ (groupAfter (.copy 7 5 6 0 2 0 7) (sC 0x20000 5 6 [])).ctl.stopped = true := by decide +kernel
/-- An entry of kind COPY with a reduce code, of 8 bytes from 0x50000 to 0x60000; `trig` arms it on the word at 0x22000 with threshold 3; class and token by `head`. -/
def entryBytes (head n : Nat) : List Byte := bytesOf 8 head ++ bytesOf 8 0x60000 ++ bytesOf 8 0x50000 ++ bytesOf 8 n ++ bytesOf 8 0x22000 ++ bytesOf 8 0x22000 ++ bytesOf 8 3 ++ bytesOf 6 0 ++ bytesOf 2 5
def entryOf (head n : Nat) (armed done : Bool) : CopyEntry := { newEntry (some 4) 5 (entryBytes head n) 0 0 0 0 none with armed := armed, executed := done, total := if done then n else 0 }
def sEn (e : CopyEntry) (w : DWord) (k : SyncKind) : State :=
  let s := sC 0x20000 6 6 (cellsAt 0x22000 (bytesOf 8 w.toNat) ++ [(0x50000, 1), (0x50003, 0xFF), (0x50007, 9), (0x60000, 0xFF), (0x60003, 1)])
  { s with entries := [(2, e)], nextEntry := 3, mem := { s.mem with sync := [(0x22000 / 8, k)] } }
def leafG : Leaf := { frame := 0, bits := 30, rd := true, wr := true, atomics := true, format := none }
theorem witness_CopyEngines_data : let s := sEn (entryOf 0x301 8 false false) 2 .counter; amGet s.entries 2 = some (entryOf 0x301 8 false false) ∧ bits (field (entryBytes 0x301 8) 0 8) 0 8 = 1 ∧ field (entryBytes 0x301 8) 24 8 = 8
    ∧ bits (field (entryBytes 0x301 8) 0 8) 8 4 = 3 ∧ bits (field (entryBytes 1 8) 0 8) 8 4 = 0 ∧ s.mem.cu = [] ∧ s.mem.poison = [] ∧ (∀ j ∈ upFrom 0 8, s.mem.live (0x60000 + j) = none)
    ∧ s.triggered (entryOf 0x4301 8 true false) = false ∧ (sEn (entryOf 0x4301 8 true false) 3 .counter).triggered (entryOf 0x4301 8 true false) = true := by decide +kernel
theorem witness_CopyEngines_resolves : let s := sEn (entryOf 0x301 8 false false) 2 .counter; let w := (entryOf 0x301 8 false false).who
    s.resolve w (BitVec.ofNat 64 (field (entryBytes 0x301 8) 16 8)) 8 .rd = .ok [oneSeg 0x50000 8 0x50000] ∧ s.resolve w (BitVec.ofNat 64 (field (entryBytes 0x301 8) 8 8)) 8 .wr = .ok [oneSeg 0x60000 8 0x60000]
      ∧ s.resolve w (BitVec.ofNat 64 (field (entryBytes 0x301 8) 8 8)) 8 .rd = .ok [oneSeg 0x60000 8 0x60000] ∧ s.leafOf (devWho 0 0) 0 0x60000 = .ok leafG :=
  ⟨ok_of (by decide +kernel), ok_of (by decide +kernel), ok_of (by decide +kernel), ok_of (by decide +kernel)⟩
theorem test_copy_adds : (nextOf (exec (.copyEntryComplete 2) (sEn (entryOf 0x301 8 false false) 2 .counter))).mem.bytes 0x60000 8 = [0, 1, 0, 0, 0, 0, 0, 9] := by decide +kernel
theorem test_trigger_waits : ((nextOf (exec (.triggeredEntryFire 2) (sEn (entryOf 0x4301 8 true false) 2 .counter))).entries.map (·.2.armed)) = [true]
    ∧ (nextOf (exec (.triggeredEntryFire 2) (sEn (entryOf 0x4001 8 true false) 3 .counter))).mem.byte 0x60003 = 0xFF := by decide +kernel
/-- The token and the group of an entry that is executed: token 7 of core 0, slot 0. -/
theorem witness_CopyEngines_completes : let e := entryOf 0x0F000001 8 false true; amGet (sEn e 2 .counter).entries 2 = some e ∧ e.acks = [] ∧ bits (field e.bytes 0 8) 12 2 = 0 ∧ e.queue.isSome = true ∧ bits (field e.bytes 0 8) 27 1 = 1
    ∧ ofLocid (bits (field e.bytes 0 8) 32 14) = some (0, 0) ∧ (sEn e 2 .counter).serial (gkey 0 0) = BitVec.ofNat 16 (bits (field e.bytes 0 8) 48 16) ∧ (sEn e 2 .counter).group (gkey 0 0) = some (gC 0x20000) := by
  refine ⟨rfl, rfl, by decide +kernel, rfl, by decide +kernel, by decide +kernel, by decide +kernel, rfl⟩
theorem witness_CopyEngines_lands : let e := entryOf 0x2001 8 false true; let s := sEn e 0x0001000200000005 .barrier; e.acks = [] ∧ e.status = 1 ∧ bits (field e.bytes 0 8) 12 2 = 2 ∧ e.landed + 8 ≤ e.total
    ∧ s.wordPA e.asid (field e.bytes 32 8) .rd = some 0x22000 ∧ s.mem.live 0x22000 = some .barrier ∧ s.mem.cu = [] ∧ s.wordAt 0x22000 = barrierWord false 1 1 5 := by decide +kernel
theorem test_copy_completes : (nextOf (exec (.copyEntryComplete 2) (sEn (entryOf 0x0F000001 8 false true) 2 .counter))).entries = [] ∧ (groupAfter (.copyEntryComplete 2) (sEn (entryOf 0x0F000001 8 false true) 2 .counter)).async.copies = 4093
    ∧ (groupAfter (.copyEntryComplete 2) (sEn (entryOf 0x0F000001 8 false true) 2 .counter)).token 7 = 253 := by decide +kernel
theorem test_bytes_land : (nextOf (exec (.transactionBytesLand 2 8) (sEn (entryOf 0x2001 8 false true) 0x0001000200000005 .barrier))).wordAt 0x22000 = 0x00010003FFFFFFFD := by decide +kernel
/-- The head of the queue, index 5, with a sequence number. -/
def sHead (seq : Nat) : State := sC 0x20000 5 6 (cellsAt 0x30040 (bytesOf 8 0 ++ bytesOf 54 0 ++ bytesOf 2 seq))
theorem witness_CopyEngines_head : amGet (sHead 5).queues 4 = some queue0 ∧ (sHead 5).dev.tripped = false ∧ (sHead 5).queueRead queue0 = 5 ∧ 5 < (sHead 5).queueWrite queue0
    ∧ ((sHead 5).devRead 0 ((sHead 5).slotAddr queue0 5) 64).map (fun b => (field b 62 2, bits (field b 0 8) 14 1)) = some (5, 0) ∧ ((sHead 4).devRead 0 ((sHead 4).slotAddr queue0 5) 64).map (fun b => field b 62 2) = some 4
    ∧ queue0.headSince = some 0 ∧ 1800000 ≤ (sHead 4).now - 0 ∧ (sHead 5).entries = [] := by decide +kernel
theorem test_entry_take : (nextOf (exec (.copyEntryTake 4) (sHead 5))).mem.num 0x20010 8 = 6 ∧ (nextOf (exec (.copyEntryTake 4) (sHead 4))).mem.num 0x20010 8 = 5 := by decide +kernel
theorem test_abandoned : (nextOf (exec (.abandoned 4) (sHead 4))).mem.num 0x20010 8 = 6 ∧ (nextOf (exec (.abandoned 4) (sHead 5))).mem.num 0x20010 8 = 5 := by decide +kernel

/-! ### Coverage launches -/

/-- A launch with nothing. -/
def launch0 : Launch :=
  { asid := 0, packetAsid := 0, packet := 0x80000, rcb := 0x4000, segtab := 0, done := 0x22008, counter := 1, nextHandle := 0, nodes := [], queues := [], queueKeys := [], escalated := false,
    cancelling := false, graph := none, waitingGraph := false, kind := 1, cover := none, domain := 0 }
/-- Two tiles of 2 by 2 points; rung 0 computes every point, rung 1 the points with even x0; every second skipped point is an audit. -/
def cover0 (next skipped rung : Nat) (tiles : AMap CoverTile) : Cover :=
  { core := 0, desc := 0x90000, aexp := 1, start := 0, ladder := [{ lp := [0, 0, 0], mask := 1, sh0 := 0, sh1 := 0 }, { lp := [1, 0, 0], mask := 1, sh0 := 0, sh1 := 0 }], dims := 2, extents := [4, 2, 1],
    shape := [2, 2, 1], lo := 0x3F800000, hi := 0x40000000, interval := 1, outRec := [], auditRec := [], log := 0x70000, timeline := 0x22000, next := next, skipped := skipped, rung := rung, instants := 0,
    tiles := tiles, errs := [], recon := [], failed := none, final := 0, finished := false }
/-- A group of four lanes, lane 2 dead, with or without a tile. -/
def gCov (cur : Option CurTile) (sp : Split) : Group :=
  { g0 with splits := [(0, sp)], lanes := { g0.lanes with alive := 0xB }, ctl := { g0.ctl with tile := cur } }
def spCov : Split := { sp0 with sregs := [(5, 1), (6, 2)] }
def sCov (cur : Option CurTile) (sp : Split) (c : Cover) : State :=
  { mk (gCov cur sp) with mem := { State.reset.mem with hbm := ptGib ++ cellsAt 0x22000 (bytesOf 8 0), sync := [(0x22000 / 8, .counter)], roots := [(0, 0x10000)] },
                          head := { State.reset.head with teams := [(0, team0)], launches := [(0, { launch0 with cover := some c })] } }
/-- Tile 1 under rung 1, of which one point has been given. -/
def cGiven : Cover := cover0 1 2 1 [(1, { rung := 1, firstSkip := 1, done := false })]
theorem witness_CoverageLaunches_take : At (sCov (some { tile := 1, given := 1 }) spCov cGiven) (gCov (some { tile := 1, given := 1 }) spCov) spCov ∧ (1 : BitVec 3) ≠ 2
    ∧ (sCov (some { tile := 1, given := 1 }) spCov cGiven).coverOf 0 = some ({ launch0 with cover := some cGiven }, cGiven) ∧ (gCov none spCov).live spCov ≠ 0 ∧ (gCov none spCov).laneDone 0 = true
    ∧ amGet cGiven.tiles 1 = some { rung := 1, firstSkip := 1, done := false } ∧ cGiven.listed 1 { rung := 1, firstSkip := 1, done := false } = [([0, 0, 0], false), ([0, 1, 0], false), ([1, 1, 0], true)]
    ∧ s0.coverOf 0 = none := by
  refine ⟨⟨rfl, rfl⟩, by decide, rfl, by decide, rfl, rfl, by decide +kernel, rfl⟩
theorem witness_CoverageLaunches_free : ptFree (gCov none spCov) (0 + 61) 1 2 ∧ (61 : BitVec 6).toNat ≤ 61 ∧ formed cGiven ∧ formed (cover0 2 0 0 []) ∧ (cover0 2 0 0 []).total ≤ 2 := by
  refine ⟨⟨by decide, by decide, by decide, by decide, by decide⟩, by decide, fun n k h hd => ?_, (by intro n k h; cases h), by decide⟩
  by_cases e : n = 1
  · subst e
    cases h
    cases hd
  · exact absurd h (by simp [cGiven, cover0, amGet, e])
theorem witness_CoverageLaunches_dispatch : let s := sCov none spCov (cover0 1 0 1 []); let c := cover0 1 0 1 []; c.next < c.total ∧ c.next / c.interval < 2 ∧ s.coverServe 0 { launch0 with cover := some c } c (c.log + BitVec.ofNat 64 c.next) 1 = (s, some true)
    ∧ s.mem.live 0x70001 = none ∧ s.mem.cu = [] ∧ s.mem.poison = [] ∧ c.listed (c.next + 1) (nextTile c) = [([2, 0, 0], false), ([2, 1, 0], false), ([3, 1, 0], true)] := by decide +kernel
theorem witness_CoverageLaunches_log : let s := sCov none spCov (cover0 1 0 1 []); let c := cover0 1 0 1 []; s.resolve (c.who 0 0) (c.log + BitVec.ofNat 64 c.next) 1 .wr = .ok [oneSeg 0x70001 1 0x70001] := ok_of (by decide +kernel)
theorem test_ptnext_given : let g := groupAfter (.ptnext 7 1 2 61) (sCov (some { tile := 1, given := 1 }) spCov cGiven); [g.slotVal 62 0, g.slotVal 61 1, g.slotVal 62 1] = [1, 1, 1] ∧ g.pred 2 = 3 ∧ g.pred 1 = 2
    ∧ g.ctl.tile = some { tile := 1, given := 3 } := by decide +kernel
theorem test_ptnext_dispatch : let t := nextOf (exec (.ptnext 7 1 2 0) (sCov none spCov (cover0 1 0 1 []))); ((t.curGroup.bind fun g => g.split 0).map fun sp => sp.reg 7) = some 2 ∧ t.mem.byte 0x70001 = 1
    ∧ (t.coverOf 0).map (fun x => (x.2.next, x.2.skipped)) = some (2, 2) := by decide +kernel
theorem test_ptnext_beyond : (splitAfter (.ptnext 7 1 2 0) (sCov none spCov (cover0 2 0 0 []))).reg 7 = 0xFFFFFFFFFFFFFFFF ∧ (groupAfter (.ptnext 7 1 2 0) s0).ctl.stopped = true := by decide +kernel
/-- A split that waits for a tile. -/
def spPt : Split := { spCov with status := .ptnext 7 1 2 0 }
theorem witness_CoverageLaunches_waits (c : Cover) : (sCov none spPt c).group (gkey 0 0) = some (gCov none spPt) ∧ (gCov none spPt).running = true ∧ (gCov none spPt).split 0 = some spPt ∧ (gCov none spPt).live spPt ≠ 0
    ∧ (sCov none spPt c).coverOf (gCov none spPt).launch = some ({ launch0 with cover := some c }, c) ∧ ptFree (gCov none spPt) (0 + 0) 1 2 :=
  ⟨rfl, rfl, rfl, by decide, rfl, by decide, by decide, by decide, by decide, by decide⟩
theorem test_ptnext_wakes : (splitAfter (.ptnextDispatch 0 0 0) (sCov none spPt (cover0 1 0 1 []))).reg 7 = 2 ∧ (splitAfter (.ptnextDispatch 0 0 0) (sCov none spPt (cover0 2 0 0 []))).pc = 0x104 := by decide +kernel
/-- Tile 1 under rung 0, which has no audit, its four points given. -/
def cFull : Cover := cover0 1 0 0 [(1, { rung := 0, firstSkip := 1, done := false })]
theorem witness_CoverageLaunches_done : At (sCov (some { tile := 1, given := 4 }) spCov cFull) (gCov (some { tile := 1, given := 4 }) spCov) spCov ∧ spCov.reg 5 = BitVec.ofNat 64 1 ∧ spCov.reg 6 ≠ BitVec.ofNat 64 1
    ∧ (cFull.listed 1 { rung := 0, firstSkip := 1, done := false }).length = 4 ∧ cFull.audits 1 { rung := 0, firstSkip := 1, done := false } = [] ∧ (sCov (some { tile := 1, given := 4 }) spCov cFull).fabric.tickets = []
    ∧ (sCov (some { tile := 1, given := 4 }) spCov cFull).fabric.puts = [] ∧ ((sCov (some { tile := 1, given := 4 }) spCov cFull).core 0).quant = [] ∧ ((sCov (some { tile := 1, given := 4 }) spCov cFull).core 0).l1.dirty = [] := by
  refine ⟨⟨rfl, rfl⟩, rfl, by decide, by decide +kernel, by decide +kernel, rfl, rfl, rfl, rfl⟩
theorem test_ptdone : (groupAfter (.ptdone 5) (sCov (some { tile := 1, given := 4 }) spCov cFull)).ctl.tile = none ∧ ((nextOf (exec (.ptdone 5) (sCov (some { tile := 1, given := 4 }) spCov cFull))).coverOf 0).map (fun x => x.2.isDone 1) = some true
    ∧ (groupAfter (.ptdone 6) (sCov (some { tile := 1, given := 4 }) spCov cFull)).ctl.stopped = true ∧ (groupAfter (.ptdone 5) (sCov (some { tile := 1, given := 3 }) spCov cFull)).ctl.stopped = true := by decide +kernel
/-- Tile 1 of one, done, with no skipped point; then reconstructed as well. -/
def cLast (n : Nat) (re : NSet) (shape : List Nat) : Cover :=
  { cover0 n 0 0 [(1, { rung := 0, firstSkip := 1, done := true })] with shape := shape, errs := [(1, [])], recon := re, final := 512 }
theorem witness_CoverageLaunches_rebuild : formed { cLast 0 [] [4, 2, 1] with next := 0 } ∧ (cLast 0 [] [4, 2, 1]).nextRecon = some 1 ∧ (cLast 0 [] [4, 2, 1]).skips 1 { rung := 0, firstSkip := 1, done := true } = [] ∧ (cLast 0 [] [4, 2, 1]).total = 1
    ∧ (cLast 1 [(1, ())] [4, 2, 1]).nextRecon = none ∧ (cLast 1 [(1, ())] [4, 2, 1]).recon.length = 1 ∧ (∀ y ∈ (cLast 1 [(1, ())] [4, 2, 1]).tiles, y.2.done = true ∧ amGet (cLast 1 [(1, ())] [4, 2, 1]).errs y.1 ≠ none)
    ∧ (sCov none spCov (cLast 0 [] [4, 2, 1])).wordPA 0 0x22000 .rd = some 0x22000 ∧ (sCov none spCov (cLast 0 [] [4, 2, 1])).mem.live 0x22000 = some .counter := by
  refine ⟨fun n k h _ => ?_, by decide +kernel, by decide +kernel, by decide +kernel, by decide +kernel, rfl, by decide +kernel, by decide +kernel, by decide +kernel⟩
  by_cases e : n = 1
  · subst e; simp [cLast, cover0, amGet]
  · exact absurd h (by simp [cLast, cover0, amGet, e])
theorem test_reconstruct : (nextOf (exec (.tileReconstruct 0) (sCov none spCov (cLast 0 [] [4, 2, 1])))).wordAt 0x22000 = 1 ∧ ((nextOf (exec (.tileReconstruct 0) (sCov none spCov (cLast 1 [(1, ())] [4, 2, 1])))).launch 0).map (·.counter) = some 0 := by
  decide +kernel
theorem witness_CoverageLaunches_blend : (2 : BitVec 4).toNat ≤ 5 ∧ [1, 65532].length ≤ 6 ∧ (∀ v ∈ [1, 65532], v < 2 ^ widthOf 2) ∧ blend 2 [1, 65532] = 65534 ∧ blend 2 [1, 4] = 2 ∧ (cover0 0 0 1 []).rung < (cover0 0 0 1 []).ladder.length := by
  decide +kernel
theorem test_decide : (cover0 0 0 1 []).decide_ [0x40400000] = 0 ∧ (cover0 0 0 0 []).decide_ [0x3F000000] = 1 ∧ (cover0 0 0 1 []).decide_ [] = 1 := by decide +kernel
theorem witness_CoverageLaunches_finish : (cLast 1 [(1, ())] [4, 2, 1]).acks = [] ∧ (cLast 1 [(1, ())] [4, 2, 1]).owed = false
    ∧ (sCov none spCov (cLast 1 [(1, ())] [4, 2, 1])).coverServe 0 { launch0 with cover := some (cLast 1 [(1, ())] [4, 2, 1]) } (cLast 1 [(1, ())] [4, 2, 1]) ((cLast 1 [(1, ())] [4, 2, 1]).desc + 80) 24
      = (sCov none spCov (cLast 1 [(1, ())] [4, 2, 1]), some true) := ⟨rfl, rfl, by decide +kernel⟩

/-! ### Placement, saving, retirement -/

/-- RCBs at 0x4000 (priority 2) and 0x4100 (priority 0): handler 0x40, save, pool and spill regions of 2 slots each. -/
def rcbAt (a w0 : Nat) : List Host.Cell :=
  cellsAt a (bytesOf 8 w0) ++ cellsAt (a + 48) (bytesOf 8 0x40 ++ bytesOf 8 0x1000000 ++ bytesOf 8 0x2000000 ++ bytesOf 8 0x3000000 ++ bytesOf 2 2)
/-- A record of unit 0: two groups, two teams, entry 0x100; 64 slots, 16 KiB of each share, DIVERGE. -/
def recN : List Byte := bytesOf 8 (1 * 2 ^ 8 + 2 * 2 ^ 16 + 0x40 * 2 ^ 48) ++ bytesOf 8 0x101011 ++ bytesOf 240 0
def node0 : Node :=
  { record := recN, rcb := 0x4000, s1 := 0x111, s2 := 0x222, count := 0, reserved := 0, auto := [], succ := [], state := .ready, toPlace := 2, retired := 0, order := 0, since := 0, raised := 0, entry := [],
    graph := false }
/-- A launch with that node, beside a team of one group on core 0 whose RCB has priority 0. -/
def teamLow : Team := { team0 with rcb := 0x4100, part := 0x8, saveSlot := some (0x4100, 1), poolSlot := some (0x4100, 1), spillSlot := (0x4100, 1), launch := 3 }
def sPl (cores : BitVec 384) (tm : Team) (g : Group) : State :=
  { mk g with mem := { State.reset.mem with hbm := rcbAt 0x4000 0x15 ++ rcbAt 0x4100 0x11 ++ ptGib, roots := [(0, 0x10000)] },
              head := { State.reset.head with teams := [(0, tm)], nextTeam := 1, launches := [(2, { launch0 with nodes := [(5, node0)] }), (3, launch0)] },
              dev := { State.reset.dev with topology := { State.fullTopology with cores := cores } }, now := 1000 }
theorem witness_TeamLifecycle_place : let s := sPl 1 teamLow g0; s.launch 2 = some { launch0 with nodes := [(5, node0)] } ∧ s.node 2 5 = some node0 ∧ node0.state = .ready ∧ 0 < node0.toPlace ∧ field node0.record 0 1 = 0
    ∧ s.imageFailed 2 = false ∧ s.dev.tripped = false ∧ field node0.record 16 8 = 0 ∧ s.coreTakes 2 0 0x4000 2 0x101011 [] 0 = true ∧ s.budgetRoom 0 0x4000 (ndUnits recN) (some 0) = true
    ∧ s.takeRegion 0 0x4000 56 = some (some (0x4000, 0)) ∧ s.takeRegion 0 0x4000 64 = some (some (0x4000, 0)) ∧ s.takeRegion 0 0x4000 72 = some (some (0x4000, 0)) ∧ bits (field recN 0 8) 8 5 + 1 = 2
    ∧ BitVec.ofNat 64 (field recN 8 8) = (0x101011 : DWord) := by decide +kernel
theorem witness_TeamLifecycle_only : (∀ d ∈ clusterCores 0, d ≠ 0 → (sPl 1 teamLow g0).coreTakes 2 0 0x4000 2 0x101011 [] d = false) ∧ (∀ d ∈ clusterCores 0, (sPl 0 teamLow g0).coreTakes 2 0 0x4000 2 0x101011 [] d = false) := by
  decide +kernel
theorem test_placement : let t := nextOf (exec (.teamPlacement 0 2 5) (sPl 1 teamLow g0)); (t.team 1).map (fun x => (x.core, x.groups, x.spillSlot)) = some (0, [(0, 1), (1, 2)], (0x4000, 0))
    ∧ ((t.group 2).map fun g => (g.index, (g.split 0).map fun sp => (sp.pc, sp.reg 1, sp.reg 2))) = some (1, some (0x100, 0x111, 0x222)) ∧ (nextOf (exec (.teamPlacement 0 2 5) (sPl 0 teamLow g0))).team 1 = none := by decide +kernel
/-- A group of that team whose split waits at a SLEEP; the team is chosen for pre-emption. -/
def gSv (sv : SaveState) (st : SplitStatus) : Group := { g0 with splits := [(0, { sp0 with status := st })], ctl := { g0.ctl with save := sv } }
def teamOut : Team := { teamLow with out := some 900 }
theorem witness_TeamLifecycle_save (st : SplitStatus) : (sPl 1 teamOut (gSv .running st)).group (gkey 0 0) = some (gSv .running st) ∧ (sPl 1 teamOut (gSv .running st)).team 0 = some teamOut ∧ teamOut.saveSlot = some (0x4100, 1)
    ∧ teamOut.out = some 900 ∧ (sPl 1 teamOut (gSv .running st)).savingOn 0 = false ∧ ((sPl 1 teamOut (gSv .running st)).core 0).quant = [] ∧ (0 : Nat) < 32 := ⟨rfl, rfl, rfl, rfl, (by simp [State.savingOn, sPl, mk, gSv]), rfl, by decide⟩
theorem witness_TeamLifecycle_saving : (sPl 1 teamOut (gSv .saving .ready)).group (gkey 0 0) = some (gSv .saving .ready) ∧ (gSv .saving .ready).async.laneWait = none ∧ (gSv .saving .ready).ctl.arrivals = []
    ∧ (∀ y ∈ (gSv .saving .ready).splits, ∀ k d n, y.2.status ≠ .reply k d n) ∧ (∃ y ∈ (gSv .saving (.reply 4 5 false)).splits, ∃ k d n, y.2.status = .reply k d n)
    ∧ (∀ y ∈ teamOut.groups, ∀ g2, gkey teamOut.core y.2 ≠ gkey 0 0 → (sPl 1 teamOut (gSv .saving .ready)).group (gkey teamOut.core y.2) = some g2 → g2.ctl.save = .saved) := by
  refine ⟨rfl, rfl, rfl, fun y hy k d n e => ?_, ⟨_, List.mem_cons_self .., 4, 5, false, rfl⟩, fun y hy g2 hn => ?_⟩
  · have : y = (0, { sp0 with status := .ready }) := by simpa [gSv] using hy
    subst this
    cases e
  · have : y = (0, 0) := by simpa [teamOut, teamLow, team0] using hy
    subst this
    exact absurd rfl hn
theorem witness_TeamLifecycle_restore : (gSv .saved .ready).ctl.save = .saved ∧ (sPl 1 teamOut (gSv .saved .ready)).teamSaved teamOut = true
    ∧ poolDemand teamOut.part teamOut.count - teamOut.poolHeld (sPl 1 teamOut (gSv .saved .ready)) ≤ (sPl 1 teamOut (gSv .saved .ready)).freePool teamOut.core ∧ teamLow.out = none := by decide +kernel
theorem test_group_save : ((nextOf (exec (.groupSave 0 0) (sPl 1 teamOut (gSv .running (.sleep 5000))))).group 0).map (fun g => (g.ctl.save, g.splits.map fun x => x.2.pc)) = some (.saving, [0x100])
    ∧ (nextOf (exec (.groupSave 0 0) (sPl 1 teamOut (gSv .running (.sleep 5000))))).mem.byte (0x1000000 + 0x2A0000) = 1 := by decide +kernel
theorem test_group_restore : ((nextOf (exec (.groupRestore 0 0) (sPl 1 teamOut (gSv .saved .ready)))).group 0).map (fun g => g.ctl.save) = some .running := by decide +kernel
theorem test_save_complete_waits : ((nextOf (exec (.groupSaveComplete 0 0) (sPl 1 teamOut (gSv .saving (.reply 4 5 false))))).group 0).map (fun g => g.ctl.save) = some .saving := by decide +kernel
theorem witness_TeamLifecycle_pool : (sPl 1 teamOut (gSv .saved .ready)).team 0 = some teamOut ∧ teamOut.out ≠ none ∧ teamOut.poolSaved = false ∧ teamOut.poolSlot ≠ none ∧ (sPl 1 teamOut (gSv .saved .ready)).teamSaved teamOut = true
    ∧ teamOut.colls = [] ∧ ((sPl 1 teamOut (gSv .saved .ready)).core 0).engines.matq = [] := by
  refine ⟨rfl, by decide, rfl, by decide, by decide +kernel, rfl, rfl⟩
theorem test_pool_save : ((nextOf (exec (.teamPoolSave 0) (sPl 1 teamOut (gSv .saved .ready)))).team 0).map (·.poolSaved) = some true := by decide +kernel
/-- The core is full: its team holds 2 MiB. -/
def teamFull : Team := { teamLow with part := 0x40408, count := 32 }
theorem witness_TeamLifecycle_preempts : let s := sPl 1 teamFull g0; amWf s.head.teams = true ∧ s.coverRoom { launch0 with nodes := [(5, node0)] } 5 = true ∧ s.budgetRoom 0 0x4000 (ndUnits recN) none = true
    ∧ (∀ y ∈ s.head.teams, y.2.out = none) ∧ s.coreTakes 2 0 0x4000 2 0x101011 [] 0 = false
    ∧ (s.sacrifice 2 { launch0 with nodes := [(5, node0)] } node0 [] (Nat.min 7 (s.rcbPrio 0 0x4000 + node0.raised)) 0).map (fun v => v.map fun x => x.2.1) = some [0] ∧ s.rcbPrio 0 0x4100 = 0 ∧ s.rcbPrio 0 0x4000 = 2 := by
  decide +kernel
theorem test_preemption : ((nextOf (exec (.preemption 2 5) (sPl 1 teamFull g0))).team 0).map (·.out) = some (some 1000) ∧ ((nextOf (exec (.preemption 2 5) (sPl 1 teamLow g0))).team 0).map (·.out) = some none := by decide +kernel
/-- A team with nothing left. -/
def teamEmpty : Team := { teamLow with groups := [], launch := 2, node := 5 }
theorem witness_TeamLifecycle_retires : let s := sPl 1 teamEmpty g0; s.team 0 = some teamEmpty ∧ teamEmpty.groups = [] ∧ teamEmpty.colls = [] ∧ (s.core 0).engines.matq = [] ∧ (s.core 0).engines.rankq = [] ∧ s.fabric.tickets = []
    ∧ s.launch 2 = some { launch0 with nodes := [(5, node0)] } ∧ amGet ({ launch0 with nodes := [(5, node0)] } : Launch).nodes 5 = some node0 ∧ s.mem.cu = [] ∧ teamLow.groups ≠ [] :=
  ⟨rfl, rfl, rfl, rfl, rfl, rfl, rfl, rfl, rfl, by decide⟩
theorem test_team_retire : (nextOf (exec (.teamRetire 0) (sPl 1 teamEmpty g0))).team 0 = none ∧ ((nextOf (exec (.teamRetire 0) (sPl 1 teamEmpty g0))).node 2 5).map (·.retired) = some 1 := by decide +kernel

/-! ### SPAWN, completion -/

/-- An RCB like those, with a budget of `pool` units. -/
def rcbB (a w0 pool : Nat) : List Host.Cell :=
  cellsAt a (bytesOf 8 w0) ++ cellsAt (a + 34) (bytesOf 2 pool) ++ cellsAt (a + 48) (bytesOf 8 0x40 ++ bytesOf 8 0x1000000 ++ bytesOf 8 0x2000000 ++ bytesOf 8 0x3000000 ++ bytesOf 2 2)
/-- A record at 0x100 of the scratchpad: first word, partition word, successors, first operand entry. -/
def recK (w0 part nx op : Nat) : List Byte := bytesOf 8 w0 ++ bytesOf 8 part ++ bytesOf 8 0 ++ bytesOf 8 nx ++ bytesOf 8 op ++ bytesOf 24 0
def spS : Split := { sp0 with sregs := [(1, 0x4000000000000100), (2, 0x4000000000000120)] }
def gS : Group := withSp spS
def teamS (b : List Byte) (rcb : Nat) : Team := { team0 with part := 0x1011, rcb := rcb, scratch := cellsAt 0x100 b }
/-- The launch of that team, with node 5 waiting for one signal that nothing has reserved; the node writes the operand record at 0x1000. -/
def nodeW : Node := { node0 with record := recK 0x10000 8 0 0x1002, state := .waiting, count := 1 }
def launchS (nodes : AMap Node) (c : Bool) : Launch := { launch0 with nodes := nodes, nextHandle := 9, cancelling := c }
def sSpw (b : List Byte) (rcb : Nat) (x : Launch) (more : AMap Launch) : State :=
  { mk gS with mem := { State.reset.mem with hbm := rcbAt 0x4000 0x15 ++ rcbB 0x4100 0x11 3 ++ ptGib, roots := [(0, 0x10000)] },
               head := { State.reset.head with teams := [(0, teamS b rcb)], launches := (0, x) :: more } }
theorem witness_SpawnResults (b : List Byte) (rcb : Nat) (x : Launch) (more : AMap Launch) (ha : x.asid = 0) : At (sSpw b rcb x more) gS spS ∧ (sSpw b rcb x more).team gS.team = some (teamS b rcb)
    ∧ (sSpw b rcb x more).launch gS.launch = some x ∧ (spS.reg 2).toNat % 64 ≠ 0 ∧ (spS.reg 1).toNat % 64 = 0 ∧ inScr (teamS b rcb) (spS.reg 1).toNat 64 ∧ allIssued (sSpw b rcb x more) gS
    ∧ nothingOut (sSpw b rcb x more) gS 0 0 0 ∧ ((sSpw b rcb x more).core 0).l1.dirty = [] ∧ x.asid = 0 :=
  ⟨⟨rfl, rfl⟩, rfl, rfl, by decide, by decide, (by show inScr (teamS [] 0) _ 64; unfold inScr; decide), (by intro e h; cases h), nothingOut_quiet _ _ rfl rfl rfl rfl, rfl, ha⟩
/-- Teams 2 of two groups, predecessors `p`. -/
def w0Of (p : Nat) : Nat := 1 * 2 ^ 8 + 2 * 2 ^ 16 + p * 2 ^ 32
theorem witness_SpawnResults_reads : scrRecord (teamS (recK (w0Of 2) 0x101011 5 0x1002) 0x4000) (spS.reg 1).toNat = recK (w0Of 2) 0x101011 5 0x1002 := by decide +kernel
theorem witness_SpawnResults_bad : badRecord (recK (w0Of 0 + 2 ^ 13) 0x101011 0 0) ∧ badRecord (recK 0x10003 8 0 0) ∧ badRecord (recK 0 8 0 0) ∧ badRecord (recK 0x10000 8 0 4) ∧ badRecord (recK 0x20002 0 0 0)
    ∧ ¬ badRecord (recK (w0Of 2) 0x101011 5 0x1002) ∧ ¬ badRecord (recK 0x10002 0 0 0) := by
  refine ⟨?_, ?_, ?_, ?_, ?_, ?_, ?_⟩ <;> (unfold badRecord; decide +kernel)
theorem witness_SpawnResults_checks : let s := sSpw (recK (w0Of 2) 0x101011 5 0x1002) 0x4000 (launchS [(5, nodeW)] false) [(3, launch0)]; partOk 0 2 = false ∧ partOk 0x101011 2 = true ∧ s.childRcb 0 0x4000 1 = none
    ∧ s.childRcb 0 0x4000 0 = some 0x4000 ∧ s.pathOk 0 0x4200 = false ∧ s.pathOk 0 0x4000 = true ∧ s.budgetAlone 0 0x4100 4 = true ∧ s.budgetAlone 0 0x4100 3 = false ∧ s.budgetAlone 0 0x4000 4 = false
    ∧ autoOf [(5, nodeW)] (recK (w0Of 2) 0x101011 5 0x1002) = [5] ∧ field (recK (w0Of 2) 0x101011 5 0x1002) 4 1 = 2 ∧ s.liveNodes < 65536 := by decide +kernel
theorem witness_SpawnResults_next : signalRoom [(5, nodeW)] 5 ∧ ¬ signalRoom [(5, { nodeW with reserved := 1 })] 5 ∧ ¬ signalRoom [] 5 := by
  refine ⟨⟨nodeW, rfl, by decide, by decide⟩, ?_, ?_⟩
  · rintro ⟨n, h, -, h2⟩
    cases h
    exact absurd h2 (by decide)
  · rintro ⟨n, h, -⟩
    cases h
theorem liveNodes_two (s : State) (x y : Launch) (h : s.head.launches = [(0, x), (3, y)]) : s.liveNodes = x.nodes.length + y.nodes.length := by simp [State.liveNodes, h]
theorem witness_SpawnResults_full : 65536 ≤ (sSpw (recK (w0Of 0) 0x101011 0 0) 0x4000 (launchS [] false) [(3, { launch0 with nodes := List.replicate 65536 (0, node0) })]).liveNodes := by
  rw [liveNodes_two _ _ _ rfl, List.length_replicate]
  exact Nat.le_add_left ..
def spawnAt (b : List Byte) (rcb : Nat) (c : Bool) : State := nextOf (exec (.spawn 7 1) (sSpw b rcb (launchS [(5, nodeW)] c) []))
theorem test_spawn : let t := spawnAt (recK (w0Of 2) 0x101011 5 0x1002) 0x4000 false; ((t.node 0 9).map fun n => (n.count, n.auto, n.succ, n.toPlace, n.s2)) = some (3, [5], [5], 2, 9) ∧ ((t.node 0 5).map (·.reserved)) = some 1
    ∧ (t.launch 0).map (·.counter) = some 3 ∧ ((t.group 0).bind fun g => (g.split 0).map fun sp => (sp.reg 7, sp.pc)) = some (9, 0x104) := by decide +kernel
theorem test_spawn_codes : [spawnAt (recK (w0Of 0) 0 0 0) 0x4000 false, spawnAt (recK (w0Of 0) 0x101011 0 0) 0x4200 false, spawnAt (recK (w0Of 0) 0x101011 0 0) 0x4100 false, spawnAt (recK (w0Of 0) 0x101011 6 0) 0x4000 false,
    spawnAt (recK (w0Of 255) 0x101011 0 0x1000) 0x4000 false, spawnAt (recK (w0Of 255) 0x101011 0 0) 0x4000 true].map (fun t => ((t.group 0).bind fun g => (g.split 0).map fun sp => sp.reg 7 - 0x8000000000000000))
    = [some 2, some 3, some 4, some 5, some 6, some 8] := by decide +kernel
/-- Launch 2 with node 5, successor 6 (which reserved at 5) and node 7, which counts 5 in `auto`; the packet is at 0x80000. -/
def nodeN (u : Nat) (st : NodeState) (toPlace retired : Nat) : Node := { node0 with record := recK (0x20000 + u) 8 6 0, state := st, toPlace := toPlace, retired := retired, succ := [6] }
def node6 : Node := { node0 with state := .waiting, count := 1, reserved := 1 }
def node7 : Node := { node0 with state := .waiting, count := 2, auto := [5, 9] }
def launchN (n : Node) (cnt : Nat) (c w : Bool) : Launch := { launch0 with nodes := [(5, n), (6, node6), (7, node7)], counter := cnt, cancelling := c, done := 0, waitingGraph := w, queueKeys := [4] }
def sCm (x : Launch) : State :=
  { mk g0 with mem := { State.reset.mem with hbm := rcbAt 0x4000 0x15 ++ ptGib, roots := [(0, 0x10000)] }, queues := [(4, queue0)],
               cores := [(0, { core0 with codeSlots := [(3, { CodeSlot.fresh with owner := some 2, state := .landed })] })],
               head := { State.reset.head with teams := [(0, teamLow)], launches := [(2, x), (3, launch0)], jobs := [(1, { launch := 3, node := 5, desc := 0, bytes := [], frames := 0 })] }, now := 18000000 }
theorem witness_Completion_node (u : Nat) (st : NodeState) (a b : Nat) : (sCm (launchN (nodeN u st a b) 1 false false)).launch 2 = some (launchN (nodeN u st a b) 1 false false)
    ∧ amGet (launchN (nodeN u st a b) 1 false false).nodes 5 = some (nodeN u st a b) := ⟨rfl, rfl⟩
theorem witness_Completion_units : field (nodeN 0 .running 0 2).record 0 1 = 0 ∧ ndTeams (nodeN 0 .running 0 2).record = 2 ∧ field (nodeN 1 .running 0 0).record 0 1 = 1 ∧ field (nodeN 2 .running 0 0).record 0 1 = 2
    ∧ (nodeN 0 .running 0 2).succ.Nodup ∧ (sCm (launchN (nodeN 1 .running 0 0) 1 false false)).entries = []
    ∧ (∀ j ∈ (sCm (launchN (nodeN 2 .running 0 0) 1 false false)).head.jobs, ¬ (j.2.launch = 2 ∧ j.2.node = 5)) ∧ (0 : Nat) < (nodeN 0 .running 1 1).toPlace ∧ (nodeN 0 .running 0 1).retired ≠ 2 := by decide +kernel
theorem witness_Completion_succ : 6 ∈ (nodeN 0 .running 0 2).succ ∧ (5 : Nat) ∉ node6.auto ∧ node6.count ≤ 1 ∧ (7 : Nat) ∉ (nodeN 0 .running 0 2).succ ∧ 5 ∈ node7.auto ∧ ¬ node7.count ≤ 1 := by decide
theorem test_node_complete : let t := nextOf (exec (.nodeComplete 2 5) (sCm (launchN (nodeN 1 .running 0 0) 1 false false))); t.node 2 5 = none ∧ (t.node 2 6).map (fun n => (n.state, n.count, n.reserved)) = some (.ready, 0, 0)
    ∧ (t.node 2 7).map (fun n => (n.state, n.count, n.auto)) = some (.waiting, 1, [9]) ∧ (t.launch 2).map (·.counter) = some 0 := by decide +kernel
theorem witness_Completion_launch (cnt : Nat) (c w : Bool) : (sCm (launchN node0 cnt c w)).launch 2 = some (launchN node0 cnt c w) ∧ (launchN node0 cnt c w).waitingGraph = w ∧ (launchN node0 cnt c w).counter = cnt
    ∧ (launchN node0 cnt c w).cancelling = c ∧ (launchN node0 cnt c w).done = 0 ∧ (2 : Nat) ≠ 0 ∧ (∀ e ∈ (sCm (launchN node0 cnt c w)).entries, e.2.launch ≠ 2) := ⟨rfl, rfl, rfl, rfl, rfl, by decide, (by intro e h; cases h)⟩
theorem witness_Completion_work : (sCm (launchN node0 0 false false)).launchWork 2 (launchN node0 0 false false) = false ∧ (sCm (launchN node0 1 true false)).launchWork 2 (launchN node0 1 true false) = false
    ∧ (∃ y ∈ (sCm launch0).head.teams, y.2.launch = 3) := ⟨by decide +kernel, by decide +kernel, _, List.mem_cons_self .., rfl⟩
theorem witness_Completion_status : statusAt (sCm (launchN node0 0 false false)) 0 0x80000 0x80002 0x80002 := ⟨ok_of (by decide +kernel), rfl, rfl, rfl⟩
theorem test_launch_complete : let t := nextOf (exec (.launchComplete 2) (sCm (launchN node0 0 false false))); t.launch 2 = none ∧ t.mem.byte 0x80002 = 1 ∧ amGet t.queues 4 = none ∧ (t.codeSlot 0 3).owner = none := by decide +kernel
theorem test_launch_cancelled : (nextOf (exec (.launchComplete 2) (sCm (launchN node0 1 true false)))).mem.byte 0x80002 = 2 ∧ ((nextOf (exec (.launchComplete 2) (sCm (launchN node0 1 false false)))).launch 2).isSome = true := by decide +kernel
theorem witness_Completion_ageing : (sCm (launchN node0 1 false false)).node 2 5 = some node0 ∧ node0.state = .ready ∧ node0.raised < 7 ∧ 18000000 * (node0.raised + 1) ≤ (sCm launch0).now - node0.since
    ∧ (sCm launch0).now - ({ node0 with since := 1 } : Node).since < 18000000 * (node0.raised + 1) := ⟨rfl, rfl, by decide, by decide, by decide⟩
theorem test_ageing : ((nextOf (exec (.priorityAgeing 2 5) (sCm (launchN node0 1 false false)))).node 2 5).map (·.raised) = some 1 := by decide +kernel

/-! ### Intake, rings, dispatch -/

/-- A packet: first word, RCB, then the partition word (or graph descriptor), segment table, seed argument, queue list, completion word. -/
def pkt (w0 rcb part q done : Nat) : List Byte := bytesOf 8 w0 ++ bytesOf 8 rcb ++ bytesOf 8 part ++ bytesOf 8 0x5000 ++ bytesOf 8 0x777 ++ bytesOf 8 0 ++ bytesOf 8 q ++ bytesOf 8 done
/-- A graph of two nodes, the second a successor of the first, its descriptor at 0x60000: two instances at 0x63000, 64 bytes of parameters. -/
def graphCells : List Host.Cell :=
  cellsAt 0x60000 (bytesOf 8 0x61000 ++ bytesOf 4 2 ++ bytesOf 4 2 ++ bytesOf 8 0x62000 ++ bytesOf 4 64 ++ bytesOf 4 0 ++ bytesOf 8 0x63000) ++ cellsAt 0x61000 (recK 0x20000 8 2 0)
    ++ cellsAt 0x61040 (recK (0x10000 + 2 ^ 32) 8 0 0) ++ [(0x62000, 0x5A)]
def sIn (b : List Byte) (ls : AMap Launch) : State :=
  { mk g0 with mem := { State.reset.mem with hbm := rcbAt 0x4000 0x15 ++ rcbB 0x4100 0x11 3 ++ ptGib ++ graphCells, roots := [(0, 0x10000)] },
               head := { State.reset.head with launches := ls, nextLaunch := 3, mergers := [(7, { last := 64, chain := none, taken := [(0, 0x80000, b)] })] } }
theorem witness_Intake (b : List Byte) (ls : AMap Launch) : packetNext (sIn b ls) 7 0 0x80000 b := by
  refine ⟨rfl, ?_⟩
  show (sIn b ls).nextPacket = _
  simp only [State.nextPacket, State.merger, sIn]
  rfl
theorem witness_Intake_status (b : List Byte) (ls : AMap Launch) : statusAt (sIn b ls) 0 0x80000 0x80002 0x80002 :=
  ⟨(show (sIn [] []).resolve _ _ _ _ = _ from ok_of (by decide +kernel)), rfl, rfl, rfl⟩
theorem witness_Intake_kinds : field (pkt 0 0 0 0 0) 0 1 = 0 ∧ field (pkt 1 0 0 0 0) 0 1 = 1 ∧ field (pkt 2 0 0 0 0) 0 1 = 2 ∧ 2 < field (pkt 3 0 0 0 0) 0 1 ∧ bits (field (pkt 0x201 0 0 0 0) 0 8) 9 7 ≠ 0
    ∧ amGet (sIn [] []).mem.roots (field (pkt 0x1000001 0 0 0 0) 3 1) = none ∧ field (pkt 1 0 0 0 0) 56 8 = 0 := by decide
theorem witness_Intake_fit : packetFit (sIn [] []) (pkt 0x10001 0x4000 0x101011 0 0x22000) ∧ packetFit (sIn [] []) (pkt 1 0x4100 0x101011 0 0) ∧ packetFit (sIn [] []) (pkt 2 0x4000 0x60000 0 0)
    ∧ (sIn [] []).pathOk 0 0x4200 = false ∧ partOk 0 1 = false ∧ partOk 0x101011 1 = true ∧ (sIn [] []).budgetAlone 0 0x4100 ((poolDemand 0x104011 1 + 16383) / 16384) = true
    ∧ (sIn [] []).budgetAlone 0 0x4000 ((poolDemand 0x101011 1 + 16383) / 16384) = false ∧ field (pkt 2 0x4000 0x60020 0 0) 16 8 % 64 ≠ 0 := by
  refine ⟨?_, ?_, ?_, ?_⟩
  iterate 3 (unfold packetFit; decide +kernel)
  decide +kernel
def graphDesc : List Byte := bytesOf 8 0x61000 ++ bytesOf 4 2 ++ bytesOf 4 2 ++ bytesOf 8 0x62000 ++ bytesOf 4 64 ++ bytesOf 4 0 ++ bytesOf 8 0x63000 ++ bytesOf 24 0
theorem witness_Intake_graph : (sIn [] []).devRead 0 0x60000 64 = some graphDesc ∧ graphOk graphDesc = true ∧ ((sIn [] []).graphNodes 0 0x4000 graphDesc).isSome = true := by decide +kernel
theorem test_intake : let t := nextOf (exec .launchIntake (sIn (pkt 0x200000001 0x4000 0x101011 0 0x22000) [])); (t.launch 3).map (fun x => (x.counter, x.segtab, x.done)) = some (1, 0x5000, 0x22000)
    ∧ (t.node 3 0).map (fun n => (n.state, n.toPlace, n.s1, ndPc n.record)) = some (.ready, 1, 0x777, 8) ∧ (t.merger 7).taken = [] := by decide +kernel
theorem test_intake_status : [0x201, 0x1000001].map (fun w => (nextOf (exec .launchIntake (sIn (pkt w 0x4000 0x101011 0 0) []))).mem.byte 0x80002) = [3, 3]
    ∧ [(0x4200, 0x101011), (0x4000, 0), (0x4100, 0x104011)].map (fun w => (nextOf (exec .launchIntake (sIn (pkt 1 w.1 w.2 0 0) []))).mem.byte 0x80002) = [4, 5, 5] := by decide +kernel
theorem test_replay_intake : let t := nextOf (exec .graphReplayIntake (sIn (pkt 2 0x4000 0x60000 0 0) [])); (t.launch 3).map (·.waitingGraph) = some true ∧ (t.node 3 1).map (fun n => (n.count, n.succ)) = some (0, [2]) ∧ (t.node 3 2).map (fun n => (n.count, n.s2)) = some (1, 1)
    ∧ (nextOf (exec .graphReplayIntake (sIn (pkt 2 0x4000 0x60020 0 0) []))).mem.byte 0x80002 = 8 := by decide +kernel
/-- Launch 2 waits for an instance of the graph at 0x60000; launch 1 holds instance `i`. -/
def launchG (i : Nat) : Launch := { launch0 with nodes := [(1, { node0 with state := .waiting, record := recK 0x20000 8 2 0 }), (2, node7)], graph := some (0x60000, i), waitingGraph := i = 16, counter := 0 }
def sGi (i : Nat) (more : AMap Launch) : State := sIn [] ((1, launchG i) :: (2, launchG 16) :: more)
theorem witness_Intake_instance (i : Nat) (h : i ≠ 16) (more : AMap Launch) : (sGi i more).head.launches.find? (fun y => y.2.waitingGraph && (y.2.graph.map (·.1)) == some 0x60000) = some (2, launchG 16) ∧ (sGi i more).launch 2 = some (launchG 16) := by
  refine ⟨?_, rfl⟩
  simp [sGi, sIn, launchG, h]
theorem witness_Intake_start : let s := sGi 0 []; s.devRead 0 (0x60000 % 2 ^ 64) 64 = some graphDesc ∧ field graphDesc 24 4 = 64 ∧ gdMax graphDesc = 2 ∧ s.instanceHeld 0x60000 0 = true ∧ s.instanceHeld 0x60000 1 = false
    ∧ s.serveRange 0 0x62000 64 2 0 0x4000 (.launch 2) = (s, some true) ∧ s.serveRange 0 (0x63000 + 4096 * 1) 64 2 0 0x4000 (.launch 2) = (s, some true) ∧ s.devRead 0 0x62000 64 = some (0x5A :: bytesOf 63 0) := by decide +kernel
theorem witness_Intake_held : (sGi 0 [(4, launchG 1)]).instanceHeld 0x60000 0 = true ∧ (sGi 0 [(4, launchG 1)]).instanceHeld 0x60000 1 = true := by decide
theorem test_instance_start : let t := nextOf (exec (.graphInstanceStart 0x60000) (sGi 0 [])); t.mem.byte 0x64000 = 0x5A ∧ (t.launch 2).map (fun x => (x.counter, x.graph)) = some (4, some (0x60000, 1))
    ∧ (t.node 2 1).map (fun n => (n.state, n.s1)) = some (.ready, 0x64000) := by decide +kernel
/-- A ring of 4 entries, its descriptor at `a`, read index 5 and write index 6, entry 5 with sequence `q` and first word `w`. -/
def ringCells (a w q : Nat) : List Host.Cell :=
  cellsAt a (bytesOf 8 (a + 0x1000) ++ bytesOf 8 2 ++ bytesOf 8 5 ++ bytesOf 8 0 ++ bytesOf 8 0) ++ cellsAt (a + 64) (bytesOf 8 6) ++ cellsAt (a + 0x1040) (bytesOf 6 w ++ bytesOf 2 q)
def ringOf (a i : Nat) : Ring := { asid := 0, desc := BitVec.ofNat 64 a, merger := 7, index := i, headSince := some 0, stalled := false, held := false }
/-- Two rings of merge unit 7, with index 3 and 5; the last served is `last`. -/
def sRg (w q now : Nat) (last : Nat) (chain : Option (Nat × Nat × Nat)) : State :=
  { mk g0 with mem := { State.reset.mem with hbm := ptGib ++ ringCells 0x70000 w q ++ ringCells 0x72000 w q, roots := [(0, 0x10000)] }, now := now,
               head := { State.reset.head with rings := [(1, ringOf 0x70000 3), (2, ringOf 0x72000 5)], mergers := [(7, { last := last, chain := chain, taken := [] })] } }
theorem witness_RingsAndMergers (w q now last : Nat) (c : Option (Nat × Nat × Nat)) : (sRg w q now last c).dev.tripped = false ∧ ((sRg w q now last c).merger 7).chain = c ∧ ((sRg w q now last c).merger 7).last = last
    ∧ amGet (sRg w q now last c).head.rings 1 = some (ringOf 0x70000 3) := ⟨rfl, rfl, rfl, rfl⟩
theorem witness_RingsAndMergers_heads : (∀ y ∈ (sRg 1 6 0 3 none).head.rings, y.2.merger = 7 → (sRg 1 6 0 3 none).ringEntry y.2 = none) ∧ (sRg 1 5 0 3 none).ringEntry (ringOf 0x70000 3) ≠ none
    ∧ (sRg 0x101 5 0 3 none).ringEntry (ringOf 0x72000 5) ≠ none ∧ (sRg 1 6 0 3 none).ringHead (ringOf 0x70000 3) ≠ none ∧ (sRg 1 6 0 3 none).ringEntry (ringOf 0x70000 3) = none := by decide +kernel
theorem test_merge_take : [3, 5, 64].map (fun l => (nextOf (exec (.mergeUnitTake 7) (sRg 0x101 5 0 l none))).merger 7 |>.last) = [5, 3, 3] ∧ ((nextOf (exec (.mergeUnitTake 7) (sRg 0x101 5 0 3 none))).merger 7).chain = some (2, 1, 0)
    ∧ (nextOf (exec (.mergeUnitTake 7) (sRg 1 5 0 3 none))).mem.byte 0x72010 = 6 := by decide +kernel
theorem witness_RingsAndMergers_mirror : ((sRg 1 5 0 3 none).devWrite 0 (0x72000 + 16) (bytesOf 8 6)).devNum 0 (0x72000 + 24) 8 = some 0 := by decide +kernel
theorem test_chain_timeout : ((nextOf (exec (.chainWaitTimeout 7) (sRg 1 6 18000 3 (some (1, 1, 0))))).merger 7).chain = none ∧ ((nextOf (exec (.chainWaitTimeout 7) (sRg 1 6 17999 3 (some (1, 1, 0))))).merger 7).chain.isSome = true := by
  decide +kernel
/-- The same with the STALLED bit set, and with an event that the host has not acknowledged. -/
def sRgOld (old : Byte) (ev : Bool) : State :=
  let s := sRg 1 6 1800000 3 none
  { s with mem := { s.mem with hbm := ptGib ++ (cellsAt 0x70000 (bytesOf 8 0x71000 ++ bytesOf 8 2 ++ bytesOf 8 5) ++ [(0x70020, old)] ++ cellsAt 0x70040 (bytesOf 8 6) ++ cellsAt 0x71040 (bytesOf 6 1 ++ bytesOf 2 6)) }
           dev := { s.dev with events := { s.dev.events with written := if ev then [(0, evt 2 0 0 0x70000 0 0)] else [] } } }
theorem witness_RingsAndMergers_stalled : (sRg 1 6 1800000 3 none).devNum 0 (0x70000 + 32) 8 = some 0 ∧ (sRgOld 1 false).devNum 0 (0x70000 + 32) 8 = some 1 ∧ (sRgOld 1 false).ringHead (ringOf 0x70000 3) ≠ none
    ∧ (sRgOld 1 false).ringEntry (ringOf 0x70000 3) = none ∧ (sRgOld 2 true).unacked 2 0x70000 = true ∧ (sRgOld 2 true).devNum 0 (0x70000 + 32) 8 = some 2 ∧ (sRgOld 2 false).unacked 2 0x70000 = false
    ∧ (sRgOld 2 true).ringHead (ringOf 0x70000 3) ≠ none ∧ (sRgOld 2 true).ringEntry (ringOf 0x70000 3) = none := by decide +kernel
theorem test_ring_stalled : let t := nextOf (exec (.ringStalled 1) (sRg 1 6 1800000 3 none)); (amGet t.head.rings 1).map (·.stalled) = some true ∧ t.mem.num 0x70020 8 = 1 + 5 * 2 ^ 32 := by decide +kernel
/-- A launch whose one ready node is a copy node; its entry is a NOP. -/
def nodeC (n : Nat) : Node := { nodeN 1 .ready n 0 with rcb := 0x4000, entry := entryBytes 0 8 }
def sDi (tripped : Bool) : State :=
  let s := sCm { launch0 with nodes := [(5, nodeC 1)] }
  { s with dev := { s.dev with topology := State.fullTopology, tripped := tripped } }
def candC : Cand := { l := 2, h := 5, n := nodeC 1, prio := 2, key := 0x400000, quantum := 384, cluster := 0 }
theorem witness_Dispatching : (sDi true).dev.tripped = true ∧ (sDi false).dev.tripped = false ∧ (∀ y ∈ (sDi false).head.teams, y.2.out = none) ∧ (sDi false).candidates = [candC] ∧ 0 < candC.quantum
    ∧ (sDi false).launch 2 = some { launch0 with nodes := [(5, nodeC 1)] } ∧ field candC.n.record 0 1 = 1 := by decide +kernel
theorem test_dispatch : let t := nextOf (exec .nodeDispatch (sDi false)); (t.node 2 5).map (fun n => (n.state, n.toPlace)) = some (.running, 0) := by decide +kernel

/-! ### The device and the host's channel -/

def devOn : Device := { State.reset.dev with phase := .running, measurement := some 0x1234, topology := State.fullTopology }
/-- The device in operation: page tables of the first GiB, a launch, a landed code slot, a ring registered at merge unit 1 with index 2, two cells in use. -/
def sDv : State :=
  { mk g0 with mem := { State.reset.mem with hbm := rcbAt 0x4000 0x15 ++ ptGib, roots := [(0, 0x10000)], poison := [(9, ())] },
               head := { State.reset.head with launches := [(2, { launch0 with nodes := [(5, node0), (6, { node0 with state := .running })] })], rings := [(66, { asid := 0, desc := 0x70000, merger := 1, index := 2, headSince := none, stalled := false, held := false })] },
               dev := { devOn with cells := [(0, ()), (1, ())], counters := [(3, 7), (8, 5)], heartbeat := 0 }, now := 90000000 }
theorem witness_BootAndFirmware : hostCommands 3 (.topo 3) ∧ hostCommands 3 (.powercap 3 1000) ∧ ¬ open_ State.reset ∧ ¬ open_ { sDv with dev := { sDv.dev with tripped := true } } ∧ open_ sDv ∧ sDv.dev.measurement = some 0x1234 ∧ State.reset.dev.phase = .off
    ∧ sDv.dev.phase ≠ .off := by
  refine ⟨?_, ?_, ?_⟩
  · simp [hostCommands]
  · simp [hostCommands]
  · unfold open_
    decide +kernel
theorem test_boot : (nextOf (exec .boot State.reset)).dev.phase = .awaitFirmware ∧ (nextOf (exec (.topo 3) State.reset)).answers = [{ tag := 3, status := 1, data := [] }] := by decide +kernel
theorem test_loadfw : let t := nextOf (exec (.loadfw 1 true 0x55 State.fullTopology) sDv); t.dev.phase = .running ∧ t.dev.measurement = some 0x55 ∧ t.mem.poison = [(9, ())] ∧ t.groups = [] ∧ t.dev.events.backlog.map (·.kind) = [9] := by decide +kernel
theorem test_loadfw_refused : (nextOf (exec (.loadfw 1 false 0x55 State.fullTopology) sDv)).answers.map (·.status) = [1] ∧ (nextOf (exec (.loadfw 1 false 0x55 State.fullTopology) sDv)).groups ≠ [] := by decide
theorem test_attest : ((nextOf (exec (.attest 1) sDv)).answers.map fun a => a.data.take 2) = [[0x34, 0x12]] := by decide +kernel
/-- Events in the backlog, a ring that the host has set up, records. -/
def ev (k : Nat) : EventEntry := evt k 0 0 7 0 0
def sEv (base : Option (Nat × Nat)) (back : List EventEntry) : State :=
  { sDv with dev := { sDv.dev with events := { sDv.dev.events with base := base, backlog := back, records := [ev 3, ev 4], write := 3, ack := 1, ovf := true, count := 2, written := [(0, ev 1), (1, ev 1), (2, ev 1)] } } }
theorem witness_Commands_numbers : (0x5000 % 4096 = 0 ∧ 0x5000 < sDv.paEnd) ∧ sDv.paEnd ≤ 2 ^ 40 ∧ 0x5001 % 4096 ≠ 0 ∧ (1000 ≤ 1000 ∧ 3200 ≤ 3200) ∧ 999 < 1000 ∧ 3200 < 3201 ∧ (0x1000 % 64 = 0 ∧ 4 ≤ 4 ∧ 16 ≤ 16)
    ∧ ((sEv none []).dev.events.ack ≤ 1 ∧ 3 ≤ (sEv none []).dev.events.write) ∧ 0 < (sEv none []).dev.events.ack ∧ (sEv none []).dev.events.write < 4 := by decide +kernel
theorem witness_Commands_table : 4 ≤ 4 ∧ ((15 : BitVec 4) :: List.replicate 63 8).length = 64 ∧ ((15 : BitVec 4) :: List.replicate 63 8)[0]? = some 15
    ∧ (∀ j ∈ upFrom 1 63, ((((15 : BitVec 4) :: List.replicate 63 8)[j]?).map (·.toNat)) = some 8) := by decide +kernel
theorem witness_Commands_held : (sEv (some (0x1000, 4)) []).dev.events.base ≠ none ∧ (sEv (some (0x1000, 4)) []).dev.events.backlog = [] ∧ (∀ q ∈ sDv.queues, q.2.held = false) ∧ (∀ r ∈ sDv.head.rings, r.2.held = false) := by
  refine ⟨by decide, rfl, ?_, by decide⟩
  intro q h
  cases h
theorem test_keyload_asreg : amGet (nextOf (exec (.keyload 1 15 0xABC) sDv)).dev.keys 15 = some 0xABC ∧ amGet (nextOf (exec (.asreg 1 4 0x5000) sDv)).mem.roots 4 = some 0x5000 ∧ (nextOf (exec (.asreg 1 4 0x5001) sDv)).mem.roots = sDv.mem.roots := by
  decide +kernel
theorem test_slottbl_powercap : (amGet (nextOf (exec (.slottbl 1 4 ((15 : BitVec 4) :: List.replicate 63 8) 9) sDv)).dev.slotTables 4).map (·.2) = some 9 ∧ (nextOf (exec (.slottbl 1 5 ((15 : BitVec 4) :: List.replicate 63 8) 9) sDv)).answers.map (·.status) = [1]
    ∧ (nextOf (exec (.powercap 1 1000) sDv)).dev.cap = 1000 ∧ (nextOf (exec (.powercap 1 999) sDv)).dev.cap = 3200 := by decide +kernel
theorem test_evring : let t := nextOf (exec (.evring 1 0x1000 4) (sEv none (List.replicate 17 (ev 5)))); t.dev.events.write = 16 ∧ t.dev.events.backlog = [ev 5] ∧ t.dev.events.records = [ev 3, ev 4] := by decide +kernel
theorem test_evack_fread : (nextOf (exec (.evack 1 3 true) (sEv (some (0x1000, 4)) []))).dev.events.ack = 3 ∧ (nextOf (exec (.evack 1 4 true) (sEv (some (0x1000, 4)) []))).answers.map (·.status) = [1]
    ∧ ((nextOf (exec (.fread 1 1) (sEv none [ev 6]))).answers.map fun a => (a.data.length, a.data.take 1)) = [(64, [4])] := by decide +kernel
theorem test_errcnt_topo : ((nextOf (exec (.errcnt 1 (.die 3)) sDv)).answers.map fun a => a.data.take 1) = [[7]] ∧ ((nextOf (exec (.topo 1) sDv)).answers.map fun a => a.data.length) = [1024] := by decide +kernel
theorem witness_Commands_cancel : sDv.launch 2 = some { launch0 with nodes := [(5, node0), (6, { node0 with state := .running })] } ∧ launch0.packet = BitVec.ofNat 64 0x80000 ∧ launch0.cancelling = false
    ∧ (∀ y ∈ sDv.head.launches, y.2.packet = BitVec.ofNat 64 0x80000 → y.1 = 2) ∧ (∀ g ∈ sDv.groups, g.2.launch ≠ 2) ∧ (∀ e ∈ sDv.entries, e.2.launch ≠ 2)
    ∧ (∀ x ∈ sDv.head.launches, x.2.packet = BitVec.ofNat 64 5 → x.2.cancelling = true) := by
  refine ⟨rfl, rfl, rfl, by decide, by decide, ?_, by decide⟩
  intro e h
  cases h
theorem test_cancel : ((nextOf (exec (.cancel 1 0x80000) sDv)).launch 2).map (fun x => (x.cancelling, x.nodes.map (·.1))) = some (true, [6]) ∧ (nextOf (exec (.cancel 1 5) sDv)).answers.map (·.status) = [1] := by decide +kernel
/-- A ring descriptor at 0x74000: 16 entries, merge unit `m`, index `i`. -/
def ringDesc (w : Nat) : List Byte := bytesOf 8 0x75000 ++ bytesOf 8 w ++ bytesOf 112 0
def sRr (w : Nat) : State := { sDv with mem := { sDv.mem with hbm := rcbAt 0x4000 0x15 ++ ptGib ++ cellsAt 0x74000 (ringDesc w) } }
theorem witness_Commands_ring : (sRr (4 + 1 * 16 + 3 * 4096)).devRead 0 0x74000 128 = some (ringDesc (4 + 1 * 16 + 3 * 4096)) ∧ (0x74000 % 128 = 0) ∧ field (ringDesc (4 + 1 * 16 + 3 * 4096)) 0 8 % 64 = 0
    ∧ 4 ≤ bits (field (ringDesc (4 + 1 * 16 + 3 * 4096)) 8 8) 0 4 ∧ bits (field (ringDesc (4 + 1 * 16 + 3 * 4096)) 8 8) 18 46 = 0 ∧ (∀ r ∈ sDv.head.rings, ¬ (r.2.merger = 1 ∧ r.2.index = 3))
    ∧ ¬ (∀ r ∈ sDv.head.rings, ¬ (r.2.merger = 1 ∧ r.2.index = 2)) ∧ sDv.devRead 200 0x74000 128 = none := by decide +kernel
theorem test_ringreg : (amGet (nextOf (exec (.ringreg 1 0 0x74000) (sRr (4 + 1 * 16 + 3 * 4096)))).head.rings 67).map (·.index) = some 3 ∧ (nextOf (exec (.ringreg 1 0 0x74000) (sRr (4 + 1 * 16 + 2 * 4096)))).answers.map (·.status) = [1]
    ∧ (nextOf (exec (.ringreg 1 0 0x74000) (sRr (3 + 1 * 16 + 3 * 4096)))).answers.map (·.status) = [1] := by decide +kernel
theorem witness_Commands_cells : (2 + 254 ≤ 256 ∧ ∀ k, 2 ≤ k → k < 2 + 254 → nsHas sDv.dev.cells (0 * 256 + k) = false) ∧ (∀ f, ¬ (f + 255 ≤ 256 ∧ ∀ k, f ≤ k → k < f + 255 → nsHas sDv.dev.cells (0 * 256 + k) = false))
    ∧ (0 + 2 ≤ 256 ∧ ∀ k, 0 ≤ k → k < 0 + 2 → nsHas sDv.dev.cells (0 * 256 + k) = true) ∧ nsHas sDv.dev.cells 2 = false := by
  refine ⟨⟨by decide, fun k h1 h2 => ?_⟩, fun f ⟨h1, h2⟩ => ?_, ⟨by decide, fun k _ h => ?_⟩, by decide⟩
  · have e0 : ¬ k = 0 := by omega
    have e1 : ¬ k = 1 := by omega
    simp [nsHas, sDv, amGet, e0, e1]
  · have : f = 0 ∨ f = 1 := by omega
    rcases this with rfl | rfl
    · exact absurd (h2 0 (by omega) (by omega)) (by decide)
    · exact absurd (h2 1 (by omega) (by omega)) (by decide)
  · have : k = 0 ∨ k = 1 := by omega
    rcases this with rfl | rfl <;> decide
theorem test_cells : (nextOf (exec (.cells 1 255 0) sDv)).answers.map (·.status) = [1] := by decide +kernel
theorem test_cellfree : (nextOf (exec (.cellfree 1 0 2 0) sDv)).dev.cells = [] ∧ (nextOf (exec (.cellfree 1 0 3 0) sDv)).answers.map (·.status) = [1] := by decide +kernel
theorem witness_MemoryCommands : open_ (sPT g0 false) ∧ (0x20000 % 65536 = 0 ∧ 65536 % 65536 = 0 ∧ 65536 ≠ 0 ∧ 0x20000 + 65536 ≤ 2 ^ 57) ∧ (2 ^ 57 - 65536) + 65536 ≤ 2 ^ 57 ∧ 0x20001 % 65536 ≠ 0 ∧ amWf (sPT g0 false).cores = true
    ∧ (∀ c ∈ (sPT g0 false).cores, c.2.quant = []) := by
  unfold open_
  decide
theorem witness_MemoryCommands_migrate : let s := sPT g0 false; 0x20000 % 65536 = 0 ∧ 0x30000 % 65536 = 0 ∧ 0x30000 + 65536 ≤ s.paEnd ∧ s.shooting 0 0x20000 = none ∧ s.leafAt 0 0x20000 = some (0x14020, 16) ∧ 2 ^ 16 = 65536
    ∧ s.walk 0 0x20000 = .leaf leaf2 false ∧ leaf2.format = none ∧ leaf2.frame + 65536 ≤ 0x30000 ∧ s.pinsFit leaf2.frame 0x30000 65536 = true ∧ s.mem.cu = [] ∧ (∀ c ∈ s.cores, c.2.quant = [] ∧ c.2.l1.dirty = [])
    ∧ s.leafAt 0 0x30000 = none ∧ (∀ j ∈ upFrom 0 8, s.mem.live (0x14020 + j) = none) := by decide +kernel
theorem test_shoot : let t := nextOf (exec (.shoot 9 0 0x20000 0x20000 true) (sPT g0 false)); (amGet t.mem.shoots 0).map (·.len) = some 0x20000 ∧ (t.core 0).tlb = [] ∧ t.answers = [] ∧ (nextOf (exec (.shoot 9 0 0x20001 0x20000 true) (sPT g0 false))).answers.map (·.status) = [1] := by
  decide +kernel
theorem test_migrate : let t := nextOf (exec (.migrate 9 0 0x20000 65536 0x30000 0) (sPT g0 false)); (amGet t.mem.shoots 0).map (·.move) = some (some (65536, 0x30000, 0)) ∧ t.mem.byte 0x14020 = 0x5F := by decide +kernel
/-- Group 0 waits for page 2 of address space 0. -/
def rec2 : FaultRec := { die := 0, asid := 0, page := 2, waiters := [.group 0 0], reported := true, denied := false }
def sFa : State := let s := sPT (gPF 3 []) false; { s with mem := { s.mem with faults := [rec2] } }
theorem witness_MemoryCommands_page : open_ sFa ∧ sFa.mem.faults = [rec2] ∧ rec2.asid = (0 : Byte).toNat ∧ rec2.page = 0x20000 / 65536 ∧ rec2.waiters = [.group 0 0] ∧ sFa.group (gkey 0 0) = some (gPF 3 []) ∧ (gPF 3 []).ctl.fault.isSome = true
    ∧ sFa.faultsOn 0 0 0 2 = true := by
  unfold open_
  decide
theorem test_pageans : let t := nextOf (exec (.pageans 9 0 0x20000 true) sFa); (t.group 0).map (·.ctl.fault) = some none ∧ t.mem.faults = [] ∧ ((nextOf (exec (.pageans 9 0 0x20000 false) sFa)).mem.faults.map (·.denied)) = [true] := by decide +kernel
def req0 (rank : BitVec 20) : GuardReq := { rank := rank, keyIndex := 1, rootPA := 0x400, regionPA := 0x8000, pathPA := 0x9000, pathN := 256, ranges := [], reservedBits := false }
theorem witness_MemoryCommands_guard : sDv.dev.guardPending = none ∧ (req0 5).reservedBits = false ∧ (req0 5).rank ≠ 0xFFFFF ∧ 1 ≤ (req0 5).pathN ∧ (req0 5).pathN ≤ 256 ∧ (req0 5).rootPA % 512 = 0 ∧ (req0 5).pathPA % 4096 = 0
    ∧ (req0 5).rootPA + 512 ≤ sDv.paEnd ∧ (req0 5).regionPA + 1600 ≤ sDv.paEnd ∧ (req0 5).pathPA + 16 * (req0 5).pathN ≤ sDv.paEnd ∧ ¬ (req0 0xFFFFF).rank ≠ 0xFFFFF := by decide +kernel
theorem test_guard : (nextOf (exec (.guard 9 (req0 5)) sDv)).dev.guardPending = some (9, req0 5) ∧ (nextOf (exec (.guard 9 (req0 0xFFFFF)) sDv)).answers.map (·.status) = [1] := by decide +kernel
theorem witness_DeviceEvents : sDv.dev.phase = .running ∧ sDv.dev.tripped = false ∧ sDv.dev.links = [] ∧ ({ sDv.dev with links := [(4, 7)] } : Device).links ≠ [] ∧ 90000000 ≤ sDv.now - sDv.dev.heartbeat ∧ 90000000 - 1 - sDv.dev.heartbeat < 90000000
    ∧ stGet 0 sDv.dev.counters 8 ≠ BitVec.allOnes 64 ∧ stGet 0 sDv.dev.counters (errKey (.die 3)) ≠ BitVec.allOnes 64 ∧ stGet 0 sDv.dev.counters (errKey (.stack 15)) ≠ BitVec.allOnes 64
    ∧ stGet 0 sDv.dev.counters (errKey (.link 9)) ≠ BitVec.allOnes 64 ∧ amGet sDv.mem.owners (0x20000 / 65536) = none ∧ sDv.group (gkey 0 0) = some g0 ∧ g0.splits = (0, sp0) :: g0.splits.tail ∧ (sDv.codeSlot 0 0).state = .landed := by decide +kernel
theorem test_watchdog : (nextOf (exec .watchdog sDv)).dev.tripped = true ∧ (nextOf (exec .watchdog { sDv with now := 89999999 })).dev.tripped = false ∧ (nextOf (exec .heartbeat sDv)).dev.heartbeat = 90000000
    ∧ (nextOf (exec .heartbeat { sDv with dev := { sDv.dev with links := [(4, 7)] } })).dev.heartbeat = 0 := by decide +kernel
theorem test_errors : stGet 0 (nextOf (exec (.correctableError (.die 3)) sDv)).dev.counters 3 = 8 ∧ stGet 0 (nextOf (exec (.retriedFlit 2) sDv)).dev.counters 8 = 6 ∧ nsHas (nextOf (exec (.uncorrectableError (.memory 0x20085)) sDv)).mem.poison 0x401 = true
    ∧ ((nextOf (exec (.uncorrectableError (.codeSlot 0 0)) sDv)).codeSlot 0 0).state = .empty ∧ (nextOf (exec (.uncorrectableError .controller) sDv)).dev.tripped = true := by decide +kernel
theorem test_limits : (nextOf (exec (.powerLimiterSample 3200000) sDv)).dev.withheld = 0 ∧ (nextOf (exec (.powerLimiterSample 3200001) sDv)).dev.withheld = 1 ∧ nsHas (nextOf (exec (.laserInterlock 127) sDv)).dev.lasersOff 127 = true
    ∧ (nextOf (exec (.commandLinkTimeout 3) sDv)).dev.links = [(3, 90000000)] := by decide +kernel
theorem test_group_error : (((nextOf (exec (.uncorrectableError (.groupState 0 0)) sDv)).group 0).map (·.ctl.stopped)) = some true := by decide +kernel
/-- A job of 2 frames with one written; its planes' records lie at 0x91000 to 0x93000, its counter at 0x22000. -/
def jobB (codec frames : Nat) : List Byte := bytesOf 8 0 ++ bytesOf 8 (codec + frames * 2 ^ 16) ++ bytesOf 8 0x91000 ++ bytesOf 8 0x91000 ++ bytesOf 8 0x91000 ++ bytesOf 8 0x22000 ++ bytesOf 16 0
def jobJ (codec frames : Nat) : MediaJob := { launch := 2, node := 5, desc := 0x90000, bytes := jobB codec frames, frames := 1 }
/-- A record of f32 elements, 2 by 2 points in 2 frames, at 0xA0000. -/
def recV : List Byte :=
  bytesOf 8 (12 + 3 * 16) ++ bytesOf 8 0xA0000 ++ bytesOf 4 2 ++ bytesOf 4 1 ++ bytesOf 4 2 ++ bytesOf 12 0 ++ bytesOf 8 4 ++ bytesOf 8 8 ++ bytesOf 8 8 ++ bytesOf 24 0 ++ bytesOf 24 0
    ++ bytesOf 4 9 ++ bytesOf 4 9 ++ bytesOf 4 9 ++ bytesOf 12 0 ++ bytesOf 56 0
def sMj (j : MediaJob) (more : List Host.Cell) : State :=
  { sDv with mem := { sDv.mem with hbm := rcbAt 0x4000 0x15 ++ ptGib ++ more, sync := [(0x22000 / 8, .counter)], poison := [] }, head := { sDv.head with jobs := [(1, j)] } }
theorem witness_MediaJobs (j : MediaJob) (more : List Host.Cell) (h : j.launch = 2) : amGet (sMj j more).head.jobs 1 = some j ∧ (sMj j more).launch j.launch = some { launch0 with nodes := [(5, node0), (6, { node0 with state := .running })] } := by
  refine ⟨rfl, ?_⟩
  rw [h]
  rfl
theorem witness_MediaJobs_frames : bits (field (jobJ 0 1).bytes 8 8) 0 2 ≠ 3 ∧ bits (field (jobJ 0 1).bytes 8 8) 16 16 = 1 ∧ (jobJ 0 1).frames = 1 ∧ (jobJ 0 2).frames < bits (field (jobJ 0 2).bytes 8 8) 16 16 := by decide +kernel
theorem test_job_complete : let t := nextOf (exec (.mediaJobComplete 1 true) (sMj (jobJ 0 1) [])); t.head.jobs = [] ∧ t.mem.num 0x90030 8 = 1 + 2 ^ 32 ∧ (nextOf (exec (.mediaJobComplete 1 true) (sMj (jobJ 0 2) []))).head.jobs.length = 1
    ∧ (nextOf (exec (.mediaJobComplete 1 false) (sMj (jobJ 0 2) []))).mem.num 0x90030 8 = 4 + 2 ^ 32 := by decide +kernel
def frameAt : State := sMj (jobJ 0 2) (cellsAt 0x91000 recV)
def plane0 : List (List (List Nat)) := [[[255, 0]], [], []]
def frameWs : List CopyWr := [{ addr := 0xA0008, bytes := bytesOf 4 0x3F800000, kind := .plain }, { addr := 0xA000C, bytes := bytesOf 4 0, kind := .plain }]
theorem witness_MediaJobs_frame : recV.length = 192 ∧ (jobJ 0 2).frames < 2 ∧ (jobJ 0 2).wait = [] ∧ (jobJ 0 2).acks = [] ∧ (frameAt.frameWrites (devWho 0 2) [] 0 1 8 ((upFrom 0 3).map fun i => (field (jobJ 0 2).bytes (16 + 8 * i) 8, (plane0[i]?).getD []))).toOption = some frameWs
    ∧ frameAt.enginePuts (devWho 0 2) none frameWs [] = ((frameAt.enginePuts (devWho 0 2) none frameWs []).1, [], false) ∧ (frameAt.enginePuts (devWho 0 2) none frameWs []).1.wordPA 0 0x22000 .rd = some 0x22000
    ∧ (frameAt.enginePuts (devWho 0 2) none frameWs []).1.mem.live 0x22000 = some .counter ∧ (frameAt.enginePuts (devWho 0 2) none frameWs []).1.mem.cu = []
    ∧ ((frameAt.enginePuts (devWho 0 2) none frameWs []).1.wordAt 0x22000).toNat + 1 < 2 ^ 64 ∧ amGet (frameAt.enginePuts (devWho 0 2) none frameWs []).1.head.jobs 1 = some (jobJ 0 2)
    ∧ (∀ x ∈ (frameAt.enginePuts (devWho 0 2) none frameWs []).1.groups, ∀ y ∈ x.2.splits, y.2.status = .ready) := by decide +kernel
theorem test_frame : let t := nextOf (exec (.mediaFrameComplete 1 8 plane0) frameAt); t.mem.num 0xA0008 8 = 0x3F800000 ∧ t.mem.num 0x22000 8 = 1 ∧ (amGet t.head.jobs 1).map (·.frames) = some 2 := by decide +kernel

/-! ### The pod fabric -/

/-- A plan of device 3: its mode word, EPOCH 0, phases with their durations and gaps, and the start of the first table, whose destination 5 leaves by port 7. -/
def planB (w0 : Nat) (phases : List (Nat × Nat)) : List Byte :=
  bytesOf 8 w0 ++ bytesOf 8 0 ++ bytesOf 8 3 ++ bytesOf 40 0 ++ phases.flatMap (fun x => bytesOf 8 (x.1 + x.2 * 2 ^ 32) ++ bytesOf 8 0) ++ bytesOf (1024 - 16 * phases.length) 0
    ++ bytesOf 10 0 ++ bytesOf 2 (2 ^ 15 + 7)
/-- Static; and stepped, two phases of 100 µs with a gap of 50 µs. -/
def planS : List Byte := planB 0 [(100000, 0)]
def planD : List Byte := planB 257 [(100000, 0), (100000, 0)]
/-- A region of this device: 64 KiB of address space 0 at 0x50000, all rights, no counter. -/
def regionB : List Byte := bytesOf 8 (15 * 2 ^ 60) ++ bytesOf 8 0x50000 ++ bytesOf 8 0x10000 ++ bytesOf 8 0
def fab0 : Fabric := { State.reset.fabric with phase := 1, gap := false }
/-- Device 3, rank 9, in operation: rank 20 is device 5 of the pod, rank 30 a remote one. -/
def sFb (plan : List Byte) (f : Fabric) (n : Nat) : State :=
  { mk g0 with mem := { State.reset.mem with hbm := ptGib, roots := [(0, 0x10000)] }, now := n,
               dev := { devOn with rank := 9, plan := some plan, ranges := [(0, 100)], regions := [regionB], pathSets := [bytesOf 8 0 ++ bytesOf 2 3 ++ bytesOf 1 4 ++ bytesOf 1 8 ++ bytesOf 4 0] }
               fabric := { f with ranks := [(0, [(20, (0, 5, 0)), (30, (1, 77, 0))])] } }
theorem witness_PodTiming : (sFb planS fab0 0).dev.plan = some planS ∧ (sFb planS fab0 0).phasesDue planS = 1 ∧ (sFb planS fab0 0).fabric.phase = 1 ∧ (sFb planD fab0 180000).phasesDue planD = 2 ∧ (sFb planD fab0 180000).dev.fabricQuiet = false
    ∧ gapBegin planD 1 = some 50000000 ∧ 50000000 ≤ (sFb planD fab0 90000).podPs ∧ (sFb planD fab0 89999).podPs < 50000000 := by decide +kernel
def fabP (gap : Bool) : Fabric := { fab0 with gap := gap, paused := [(7, 50), (96, 60), (129, 50)] }
theorem witness_PodTiming_pauses (gap : Bool) : amGet (sFb planS (fabP gap) 50).fabric.paused 7 = some 50 ∧ (sFb planS (fabP gap) 50).fabric.gap = gap ∧ amGet (sFb planS (fabP gap) 50).fabric.paused (128 + 1) = some 50
    ∧ (sFb planS (fabP gap) 50).fabric.peers = [] ∧ 0 < ((sFb planS (fabP gap) 50).waves 7).2 ∧ (49 : Nat) < 50 := ⟨rfl, rfl, rfl, rfl, by simp [State.waves, sFb, fabP, fab0, amGet, State.reset, devOn, nsHas], by decide⟩
theorem test_phases : (nextOf (exec .circuitPhaseStart (sFb planD fab0 180000))).fabric.phase = 2 ∧ (nextOf (exec .circuitGapStart (sFb planD fab0 90000))).fabric.gap = true
    ∧ (nextOf (exec .circuitGapStart (sFb planD fab0 89999))).fabric.gap = false := by decide +kernel
theorem test_pauses : amGet (nextOf (exec (.turnroundPauseEnd 7) (sFb planS (fabP false) 50))).fabric.paused 7 = none ∧ (nextOf (exec (.turnroundPauseEnd 7) (sFb planS (fabP false) 50))).fabric.outbox.length = 4
    ∧ amGet (nextOf (exec (.turnroundPauseEnd 7) (sFb planS (fabP false) 49))).fabric.paused 7 = some 50 ∧ amGet (nextOf (exec (.spareRetrainingPauseEnd 1) (sFb planS (fabP false) 50))).fabric.paused 129 = none := by decide +kernel
theorem test_permits : stGet 0 (nextOf (exec (.linkPermitReturn 7 3 100) (sFb planS fab0 0))).fabric.permits 31 = 64 ∧ stGet 0 (nextOf (exec (.linkPermitReturn 7 2 100) (sFb planS fab0 0))).fabric.permits 30 = 100
    ∧ (nextOf (exec (.precisionTimeProtocolMessage 77) (sFb planS fab0 5))).podPs = 77000 := by decide +kernel
/-- A store of three bytes to the region, by rank `src`, for device `dev`; and the queue it waits in, with something behind it. -/
def stPk (src dev hops : Nat) : Packet :=
  { src := src, dst := 20, device := dev, tenant := 0, ticket := 44, cls := 2, hops := hops, psn := 6, path := 1, body := .access 0 [(0x123, .put [1, 2, 3])] }
def fabQ (port hops permits : Nat) : Fabric :=
  { fab0 with sendq := [(5, [{ pkt := stPk 9 5 hops, port := port }, { pkt := stPk 20 5 0, port := 2 }])], permits := [(28, permits)], heads := [(5, 100)], unacked := [(5, [(3, 1)])],
              tickets := [(44, { owner := .none, src := none, ty := 0, rm := 0, addr := 0, rank := 20, keep := none, lanes := [], cls := 0 })] }
def readyR (port : Nat) : Ready := { key := 5, pkt := stPk 9 5 0, input := inputPort 0 0 port, since := 100 }
theorem witness_PodForwarding (port : Nat) : amGet (sFb planS (fabQ port 0 9) 100).fabric.sendq (0 * 1024 + 5) = some ({ pkt := stPk 9 5 0, port := port } :: [{ pkt := stPk 20 5 0, port := 2 }]) ∧ amGet (sFb planS (fabQ port 0 9) 100).dev.slotTables 4 = none
    ∧ (stPk 9 5 0).src = (sFb planS (fabQ port 0 9) 100).dev.rank ∧ isRequest (stPk 9 5 0).body = true ∧ amGet (sFb planS (fabQ port 0 9) 100).fabric.heads (0 * 1024 + 5) = some 100 := ⟨rfl, rfl, rfl, rfl, rfl⟩
theorem witness_PodForwarding_head : let s := sFb planS (fabQ 3 0 9) 100; s.unreachable planS (stPk 9 5 0) = false ∧ s.headPort planS (stPk 9 5 0) = some 7 ∧ s.readyHeads planS 7 = [readyR 3] ∧ (sFb planS (fabQ 3 0 0) 100).headPort planS (stPk 9 5 0) = none
    ∧ (sFb planS (fabQ 24 0 9) 100).readyHeads planS 7 = [readyR 24] := by decide +kernel
theorem witness_PodForwarding_lost : 4 ≤ (stPk 9 5 4).hops ∧ (stPk 9 5 4).src = (sFb planS (fabQ 3 4 9) 100).dev.rank ∧ (amGet (sFb planS (fabQ 3 4 9) 100).fabric.tickets (stPk 9 5 4).ticket).map (·.owner) = some .none := by decide
theorem test_forward : let t := nextOf (exec (.podPacketForward 0 5) (sFb planS (fabQ 3 0 9) 100)); (t.fabric.outbox.getLast?).map (fun p => (p.hops, p.path)) = some (1, 7) ∧ t.fabric.outbox.length = 2 ∧ stGet 0 t.fabric.permits 28 = 8
    ∧ amGet t.fabric.unacked 5 = some [(3, 1), (44, 1)] := by decide +kernel
theorem test_unreachable : let t := nextOf (exec (.podPacketForward 0 5) (sFb planS (fabQ 3 4 9) 100)); t.fabric.tickets = [] ∧ t.fabric.outbox = [] ∧ ((amGet t.fabric.sendq 5).map List.length) = some 1 := by decide +kernel
theorem test_aged : nsHas (nextOf (exec (.packetAged 0 5) (sFb planS (fabQ 3 0 9) 28900))).fabric.aged 5 = true ∧ nsHas (nextOf (exec (.packetAged 0 5) (sFb planS (fabQ 3 0 9) 28899))).fabric.aged 5 = false := by decide
def seg3 : Seg := oneSeg 0x50123 3 0x50123
theorem storeIn (s : State) (p : Packet) (h0 : p.body = .access 0 [(0x123, .put [1, 2, 3])]) (h1 : s.homeSegs 0 0x123 3 .wr = .ok [seg3]) (h2 : s.homeMissing 0 (0x123, .put [1, 2, 3]) = []) (h3 : s.mem.sync = [])
    (h4 : s.mem.cu = []) (h5 : s.mem.poison = []) : storePacket s p 0 0x123 [1, 2, 3] 0x50123 0x50123 :=
  ⟨h0, by decide, h1, h2, by intro a _ _; simp [Mem.live, h3, amGet], h4, h5⟩
def fabN : Fabric := { fab0 with copies := [(44, (0, stPk 9 5 0))], sendq := [(5, [{ pkt := stPk 20 5 1, port := 2 }])] }
theorem witness_PodReception (p : Packet) (h : p.device = 3) (hs : p.src = 20) : (sFb planS fabN 0).dev.plan = some planS ∧ fabricOn (sFb planS fabN 0) ∧ p.device = planDevice planS ∧ (sFb planS fabN 0).resolveRank 0 p.src = some (0, 5, 0)
    ∧ (stPk 20 4 0).device ≠ planDevice planS ∧ p.src ≠ (sFb planS fabN 0).dev.rank := by
  have e : planDevice planS = 3 := by decide +kernel
  refine ⟨rfl, ⟨rfl, rfl⟩, by rw [e, h], by rw [hs]; decide +kernel, by rw [e]; decide, by rw [hs]; decide⟩
theorem witness_PodReception_store : storePacket (sFb planS fabN 0) (stPk 20 3 0) 0 0x123 [1, 2, 3] 0x50123 0x50123 := storeIn _ _ rfl (ok_of (by decide +kernel)) (by decide +kernel) rfl rfl rfl
theorem witness_PodReception_order : (sFb planS fabN 0).podBehind ((sFb planS fabN 0).podNumber (stPk 20 3 0)) (stPk 20 3 0) = false := by decide +kernel
theorem witness_PodReception_nack : amGet (sFb planS fabN 0).fabric.copies 44 = some (0, stPk 9 5 0) ∧ (stPk 9 5 0).dst = 20 := ⟨rfl, rfl⟩
theorem test_pod_receive : (amGet (nextOf (exec (.podPacketReceive 0 26 (stPk 20 4 0) true) (sFb planS fabN 0))).fabric.sendq 4).map (·.map (·.port)) = some [2]
    ∧ (nextOf (exec (.podPacketReceive 0 26 (stPk 20 3 0) true) (sFb planS fabN 0))).mem.num 0x50123 3 = 0x030201 ∧ (nextOf (exec (.podPacketReceive 0 26 (stPk 20 3 0) false) (sFb planS fabN 0))).mem.num 0x50123 3 = 0 := by decide +kernel
theorem test_pod_nack : (amGet (nextOf (exec (.podNack 20 44) (sFb planS fabN 0))).fabric.sendq 5).map (·.map fun q => q.pkt.hops) = some [0, 1] := by decide
/-- With REBAL, fibre 7 with unequal directions; fibre 100 with one wavelength above what a remote port needs. -/
def planR : List Byte := planB (2 ^ 16) [(100000, 0)]
def fabW : Fabric := { fab0 with waves := [(7, (64, 63)), (100, (26, 25))] }
theorem witness_PodReception_waves : (amGet (sFb planR fabW 0).fabric.waves 7).getD (64, 64) = (64, 63) ∧ (amGet (sFb planR fabW 0).fabric.waves 8).getD (64, 64) = (64, 64) ∧ (amGet (sFb planR fabW 0).fabric.waves 100).getD (28, 28) = (26, 25)
    ∧ nsHas (sFb planR fabW 0).dev.lasersOff 7 = false ∧ bits (field ((sFb planR fabW 0).dev.plan.getD []) 0 8) 16 1 = 1 ∧ 62 + 2 ≤ 64 ∧ ¬ (64 + 2 ≤ 63 ∨ 63 + 2 ≤ 64) := by decide +kernel
theorem test_wavelengths : amGet (nextOf (exec (.wavelengthFailure 7 false) (sFb planR fabW 0))).fabric.waves 7 = some (63, 63) ∧ amGet (nextOf (exec (.wavelengthFailure 7 true) (sFb planR fabW 0))).fabric.waves 7 = some (63, 63)
    ∧ amGet (nextOf (exec (.wavelengthFailure 100 true) (sFb planR fabW 0))).fabric.paused 130 = some 3600 ∧ amGet (nextOf (exec (.wavelengthFailure 100 false) (sFb planR fabW 0))).fabric.paused 130 = none := by decide +kernel

/-! ### The remote fabric -/

/-- Rank 30 has sent PSNs below 5, and 7; two packets to it are unacknowledged, PSN 8 with `tries` attempts. -/
def flightOf (tries : Nat) (b : PktBody) : Flight := { pkt := { stPk 9 30 0 with dst := 30, psn := 8, path := 2, body := b }, tries := tries, sent := 1000, fast := true }
def peer0 (tries : Nat) (b : PktBody) : Peer :=
  { Peer.fresh 77 0 with cum := 5, accepted := [(7, ())], nextPsn := 10, atomics := [(7, 3, [])],
                         flight := [(8, flightOf tries b), (9, { flightOf 1 b with pkt := { stPk 9 30 0 with dst := 30, psn := 9, path := 1, ticket := 45 } })] }
def tick (o : Owner) : Ticket := { owner := o, src := none, ty := 0, rm := 0, addr := 0, rank := 30, keep := none, lanes := [], cls := 1 }
def fabR (tries : Nat) (b : PktBody) : Fabric :=
  { fab0 with peers := [(30, peer0 tries b)], paths := [(0, { PathState.fresh with weights := [(1, 1), (2, 3), (3, 0)], zeroed := [(3, 1000)] })], tickets := [(44, tick .none), (45, tick .none)] }
def stBody : PktBody := .access 0 [(0x123, .put [1, 2, 3])]
def rPk (psn : BitVec 32) : Packet := { stPk 30 9 0 with psn := psn }
def sRm (tries : Nat) (b : PktBody) (n : Nat) : State := sFb planS (fabR tries b) n
theorem witness_RemoteTarget : fabricOn (sRm 1 stBody 0) ∧ stGet 0 (sRm 1 stBody 0).dev.counters 9 ≠ BitVec.allOnes 64 ∧ amGet (sRm 1 stBody 0).fabric.peers (rPk 8).src = some (peer0 1 stBody) ∧ (peer0 1 stBody).accepted.length < 2 ^ 30
    ∧ accepted (peer0 1 stBody) 4 ∧ accepted (peer0 1 stBody) 0x80000005 ∧ accepted (peer0 1 stBody) 7 ∧ (∀ a ∈ (peer0 1 stBody).atomics, a.1 ≠ (4 : BitVec 32).toNat) ∧ ¬ accepted (peer0 1 stBody) 5 ∧ ¬ accepted (peer0 1 stBody) 6
    ∧ (sRm 1 stBody 0).fabric.held = [] := by
  refine ⟨⟨rfl, rfl⟩, by decide, rfl, by decide, ?_, ?_, ?_, by decide, ?_, ?_, rfl⟩ <;> (unfold accepted; decide)
theorem witness_RemoteTarget_store (psn : BitVec 32) : storePacket (sRm 1 stBody 0) (rPk psn) 0 0x123 [1, 2, 3] 0x50123 0x50123 := storeIn _ _ rfl (ok_of (by decide +kernel)) (by decide +kernel) rfl rfl rfl
theorem witness_RemoteTarget_region : ((sRm 1 stBody 0).dev.regions[(0 : BitVec 4).toNat]?).bind regionOf = some (true, true, true, 0, 0x50000, 0x10000, 0) := by rfl
theorem test_remote_receive : let t := nextOf (exec (.remotePacketReceive (rPk 5) true true true) (sRm 1 stBody 0)); t.mem.num 0x50123 3 = 0x030201 ∧ t.fabric.outbox.map (·.body) = [.ack 6 1 true 1] ∧ ((amGet t.fabric.peers 30).map (·.cum)) = some 6
    ∧ (nextOf (exec (.remotePacketReceive (rPk 5) true false true) (sRm 1 stBody 0))).fabric.outbox.map (·.body) = [.nack 5] := by decide +kernel
theorem test_remote_duplicate : let t := nextOf (exec (.remotePacketReceive (rPk 4) true true false) (sRm 1 stBody 0)); t.mem.num 0x50123 3 = 0 ∧ t.fabric.outbox.map (·.body) = [.ack 5 2 false 1]
    ∧ stGet 0 (nextOf (exec (.remotePacketReceive (rPk 5) false true true) (sRm 1 stBody 0))).dev.counters 9 = 1 := by decide +kernel
theorem test_retire : let t := nextOf (exec (.retireNotice 30 5) (sRm 1 stBody 0)); ((amGet t.fabric.peers 30).map (·.cum)) = some 6 ∧ (nextOf (exec (.retireNotice 30 6) (sRm 1 stBody 0))).fabric.outbox.map (·.body) = [.ack 5 3 false 0] := by decide +kernel
theorem witness_RemoteInitiator (n : Nat) : amGet (sRm 1 stBody n).fabric.peers 30 = some (peer0 1 stBody) ∧ (peer0 1 stBody).queue = [] ∧ (∀ x ∈ (peer0 1 stBody).flight, x.1 < 2 ^ 32) ∧ (∀ x ∈ (peer0 1 stBody).flight, x.2.fast = true)
    ∧ amWf (peer0 1 stBody).flight = true ∧ amGet (peer0 1 stBody).flight (8 : BitVec 32).toNat = some (flightOf 1 stBody) ∧ putOnly (flightOf 1 stBody).pkt.body = true := ⟨rfl, rfl, by decide, by decide, by decide, rfl, by decide⟩
theorem witness_RemoteInitiator_covers : covers 9 0 8 ∧ covers 7 1 8 ∧ ¬ covers 8 0xFFFFFFFFFFFFFFFF 8 ∧ covers 8 1 9 ∧ ¬ covers 8 2 9 ∧ covers 0 0x8000000000000000 64 ∧ ¬ covers 0 0xFFFFFFFFFFFFFFFF 65 := by
  unfold covers
  decide
theorem witness_RemoteInitiator_weights : (((sRm 1 stBody 0).pathState (peer0 1 stBody).pathSet).weight 2 = 3) ∧ ((sRm 1 stBody 0).pathState (peer0 1 stBody).pathSet).weight 1 = 1 ∧ (flightOf 15 stBody).tries < 16 ∧ 16 ≤ (flightOf 16 .reserveBlock).tries
    ∧ (flightOf 1 stBody).sent + Nat.min 9000000 (72000 * 2 ^ ((flightOf 1 stBody).tries - 1)) = 73000 ∧ (flightOf 15 stBody).sent + Nat.min 9000000 (72000 * 2 ^ ((flightOf 15 stBody).tries - 1)) = 9001000
    ∧ amGet ((sRm 1 stBody 0).pathState 0).zeroed 3 = some 1000 := by decide
theorem test_remote_ack : let t := nextOf (exec (.remoteAck 30 8 1 true 2) (sRm 1 stBody 0)); ((amGet t.fabric.peers 30).map fun q => q.flight.map (·.1)) = some [8] ∧ t.fabric.tickets.map (·.1) = [44] ∧ (t.pathState 0).weight 2 = 2 := by decide +kernel
theorem test_resend : let t := nextOf (exec (.remoteNack 30 8) (sRm 1 stBody 9)); t.fabric.outbox.map (·.path) = [4] ∧ (((amGet t.fabric.peers 30).bind fun q => amGet q.flight 8).map (·.tries)) = some 2
    ∧ ((nextOf (exec (.trimmedPacketNotice 30 8) (sRm 1 stBody 9))).pathState 0).weight 2 = 1 := by decide +kernel
theorem test_lost : let t := nextOf (exec (.remoteNack 30 8) (sRm 16 .reserveBlock 9)); t.fabric.outbox.map (·.body) = [.retire 8] ∧ ((amGet t.fabric.peers 30).map (·.retiring)) = some [(8, 9)] ∧ t.dev.events.backlog.map (·.kind) = [7] := by decide +kernel
theorem test_timeout : ((nextOf (exec (.retransmitTimeout 30 8) (sRm 1 stBody 73000))).pathState 0).weight 2 = 0 ∧ ((nextOf (exec (.retransmitTimeout 30 8) (sRm 1 stBody 72999))).pathState 0).weight 2 = 3 := by decide +kernel
theorem test_restore_weight : ((nextOf (exec (.pathWeightRestore 0 3) (sRm 1 stBody 181000))).pathState 0).weight 3 = 1 ∧ ((nextOf (exec (.pathWeightRestore 0 3) (sRm 1 stBody 180999))).pathState 0).weight 3 = 0 := by decide +kernel
theorem witness_RemoteForms : fabricOn (sRm 1 stBody 181000) ∧ (sRm 1 stBody 181000).fabric.held = [] ∧ amGet (sRm 1 stBody 181000).fabric.peers 30 = some (peer0 1 stBody) ∧ (peer0 1 stBody).accepted.length < 2 ^ 30
    ∧ (rPk 5).src = 30 ∧ ¬ accepted (peer0 1 stBody) (rPk 5).psn ∧ (peer0 1 stBody).queue = [] ∧ (∀ x ∈ (peer0 1 stBody).flight, x.1 < 2 ^ 32 ∧ x.2.fast = true) ∧ amGet (peer0 1 stBody).flight (8 : BitVec 32).toNat = some (flightOf 1 stBody)
    ∧ (flightOf 1 stBody).sent + Nat.min 9000000 (72000 * 2 ^ ((flightOf 1 stBody).tries - 1)) ≤ 181000 ∧ amGet ((sRm 1 stBody 181000).pathState 0).zeroed 3 = some 1000 := by
  refine ⟨⟨rfl, rfl⟩, rfl, rfl, by decide, rfl, ?_, rfl, by decide, rfl, by decide, by decide⟩
  unfold accepted
  decide
/-- Rank 30 is interface 77 behind the all-zero upper half; path 4 of set 0. -/
theorem test_wire_address : ((nextOf (exec (.remoteNack 30 8) (sRm 1 stBody 9))).fabric.outbox.map fun p => p.wire.map fun w => (w.target, w.port)) = [some (77, 0xC004)] := by decide +kernel
/-- Ticket 50 of a copy entry, an access of group 0, or its split; the group has no team. -/
def gFa : Group := { g0 with splits := [(0, { sp0 with status := .reply 50 7 true })], async := { g0.async with stores := 1, access := [(4, accStore)] } }
def sTf (o : Owner) : State :=
  let s := sFb planS { fab0 with tickets := [(50, tick o)] } 0
  { s with groups := [(0, gFa)], entries := [(2, { entryOf 0x301 8 false true with acks := [50, 51] })], head := { s.head with teams := [] } }
theorem witness_RemoteInitiator_fault (o : Owner) : amGet (sTf o).fabric.tickets 50 = some (tick o) ∧ amGet (sTf o).fabric.tickets 49 = none ∧ amGet (sTf o).entries 2 = some { entryOf 0x301 8 false true with acks := [50, 51] }
    ∧ (sTf o).group (gkey 0 0) = some gFa ∧ amGet gFa.async.access 4 = some accStore ∧ gFa.async.laneWait ≠ some 4 ∧ (sTf o).team gFa.team = none ∧ gFa.split 0 = some { sp0 with status := .reply 50 7 true } :=
  ⟨rfl, rfl, rfl, rfl, rfl, by decide, rfl, rfl⟩
theorem test_target_fault : ((amGet (nextOf (exec (.targetFaultAnswer 50 4 false 0) (sTf (.copy 2)))).entries 2).map fun e => (e.status, e.acks)) = some (4, [51])
    ∧ (((nextOf (exec (.targetFaultAnswer 50 4 false 0) (sTf (.access 0 0 4)))).group 0).map fun g => (g.ctl.stopped, g.async.access.length)) = some (true, 0)
    ∧ (((nextOf (exec (.targetFaultAnswer 50 4 false 0) (sTf (.split 0 0 0)))).group 0).map fun g => (g.ctl.stopped, (g.split 0).map (·.status))) = some (true, some .ready) := by decide +kernel

/-! ### Descriptors at another rank -/

/-- A tensor record and a node record at offset 0x3000 of rank 20. -/
def farA : DWord := 0x8000A00000003000
def sFarRec : State :=
  { sFb planS fab0 0 with groups := (mk { gTensor with splits := [(0, { sp0 with sregs := [(4, farA)] })] }).groups, mem := { s0.mem with hbm := cells100 }, cores := (mk gTensor).cores }
def recPart (k : Nat) : List Byte := (tensorBytes.drop (64 * k)).take 64
theorem test_far_record : let s := nextOf (exec (.ldt ldtF) sFarRec); s.fabric.tickets.map (fun t => (t.1, t.2.lanes.length)) = [(1, 2), (2, 1)]
    ∧ ((((nextOf (exec (.ldt ldtF) ((s.landTicket 1 [recPart 0, recPart 1]).landTicket 2 [recPart 2]))).core 0).records).map (·.2)) = [tensorBytes]
    ∧ (((s.faultTicket 2 5 false 0).group 0).map fun g => g.ctl.stopped) = some true := by decide +kernel
def sFarRk : State := { sRkE with dev := sFarRec.dev, fabric := sFarRec.fabric, cores := (sRkE.modEngines 0 fun e => { e with rankq := [{ opRk with desc := farA }] }).cores }
theorem test_far_sequence : let t := nextOf (exec (.rkencComplete 0) sFarRk); (splitAfter (.rkencComplete 0) (t.landTicket 1 [])).reg 9 = 6 ∧ t.fabric.tickets.map (fun k => (k.2.owner, k.2.addr)) = [(.rank 0 1, 0x8000A00000003028)]
    ∧ (t.core 0).engines.rankq.map (·.done) = [some (6, 0)] ∧ (((t.landTicket 1 []).core 0).engines.rankq.map (·.acks)) = [[]] := by decide +kernel
/-- A reconstruction whose output record's elements lie at rank 20: its first neighbour is asked for there, and its points are stored there. -/
def cFar : Cover := { cover0 1 4 1 [(1, { rung := 1, firstSkip := 1, done := true })] with shape := [4, 2, 1], errs := [(1, [])], aexp := 24, outRec := bytesOf 8 (2 + 2 * 16) ++ bytesOf 8 0x8000A00000003000 ++ bytesOf 12 (4 + 2 * 2 ^ 32) ++ bytesOf 12 0 ++ bytesOf 8 2 ++ bytesOf 8 8 ++ bytesOf 32 0 ++ bytesOf 24 0 ++ bytesOf 12 (4 + 2 * 2 ^ 32) ++ bytesOf 68 0 }
def sFarCov : State := { sCov none spCov cFar with dev := sFarRec.dev, fabric := sFarRec.fabric }
theorem test_far_points : let t := nextOf (exec (.tileReconstruct 0) sFarCov); t.fabric.tickets.map (fun k => (k.2.owner, k.2.addr)) = [(.cover 0, 0x8000A00000003000)]
    ∧ (nextOf (exec (.tileReconstruct 0) (t.landTicket 1 [[1, 0]]))).fabric.tickets.map (fun k => k.2.addr) = [0x8000A00000003004] := by decide +kernel

/-! ### Collectives -/

/-- A communicator record: P and SELF, OPX and ALG in its first word; cell 3 of die 1 at rank `cr`; TIMER 5. -/
def recC (w0 cr : Nat) : List Byte := bytesOf 8 w0 ++ bytesOf 8 64 ++ bytesOf 8 (cr + 1 * 2 ^ 20 + 3 * 2 ^ 32) ++ bytesOf 8 (5 + 0xFFFF * 2 ^ 32) ++ bytesOf 8 0 ++ bytesOf 8 0x82000 ++ bytesOf 16 0
def pSelf (p self more : Nat) : Nat := p * 2 ^ 8 + self * 2 ^ 24 + more
/-- s5 the record, s6 the barrier word, s7 an address off 64 bytes, s8 the scratchpad, s9 a word off 8 bytes. -/
def spCl : Split := { sp0 with sregs := [(5, 0x80000), (6, 0x22000), (7, 0x80020), (8, 0x4000000000000040), (9, 0x22004)] }
def gCl : Group := { withSp spCl with async := { g0.async with tiles := 4094 } }
def teamCl (cs : List Collective) : Team := { teamM with colls := cs, tiles := [(0, 1), (1, 2), (2 ^ 9, 3), (2 ^ 9 + 1, 4)] }
def sCl (b : List Byte) (kind : SyncKind) (w : Nat) (cs : List Collective) (f : Fabric) (n : Nat) : State :=
  { mk gCl with mem := { State.reset.mem with hbm := ptGib ++ cellsAt 0x22000 (bytesOf 8 w) ++ cellsAt 0x80000 b, roots := [(0, 0x10000)], sync := [(0x22000 / 8, kind)] },
                head := { State.reset.head with teams := [(0, teamCl cs)] }, fabric := f, dev := { devOn with rank := 9, cells := [(256 + 3, ())] }, now := n }
theorem witness_CollIssue (b : List Byte) (k : SyncKind) : At (sCl b k 0 [] fab0 0) gCl spCl ∧ (sCl b k 0 [] fab0 0).team gCl.team = some (teamCl []) ∧ (teamCl []).colls = [] ∧ bits (tileWord (teamCl []) 0) 31 1 = 1 ∧ bits (tileWord (teamCl []) 5) 31 1 = 0
    ∧ (spCl.reg 5).toNat % 64 = 0 ∧ (spCl.reg 7).toNat % 64 ≠ 0 ∧ (spCl.reg 6).toNat % 8 = 0 ∧ (spCl.reg 9).toNat % 8 ≠ 0 ∧ (spCl.reg 8).toNat / 2 ^ 24 = 2 ^ 38 ∧ (spCl.reg 5).toNat / 2 ^ 24 ≠ 2 ^ 38 ∧ gCl.memIssued 0 = true
    ∧ gCl.async.tiles < 4095 ∧ (∀ op red : Nat, op = 4 → red = 0 → op ≤ 4 ∧ red ≤ 5) := ⟨⟨rfl, rfl⟩, rfl, rfl, by decide, by decide, by decide, by decide, by decide, by decide, by decide, by decide, by decide, by decide, by omega⟩
def loadC (w0 : Nat) (k : SyncKind) : Option (State × List Byte) := ((sCl (recC w0 9) k 0 [] fab0 0).nearLoad ((sCl (recC w0 9) k 0 [] fab0 0).whoOf 0 gCl) 0x80000 64).toOption
theorem witness_CollIssue_record : ((loadC (pSelf 1 0 0) .barrier).map fun x => (x.2 == recC (pSelf 1 0 0) 9, decide (x.1.group 0 = some gCl ∧ x.1.team 0 = some (teamCl []) ∧ x.1.sched = (sCl [] .barrier 0 [] fab0 0).sched))) = some (true, true)
    ∧ bits (field (recC (pSelf 0 0 0) 9) 0 8) 8 16 = 0 ∧ bits (field (recC (pSelf 2 2 0) 9) 0 8) 8 16 ≤ bits (field (recC (pSelf 2 2 0) 9) 0 8) 24 16 ∧ bits (field (recC (pSelf 2 1 3) 9) 0 8) 0 2 = 3 ∧ bits (field (recC (pSelf 2 1 (2 ^ 56)) 9) 0 8) 56 8 ≠ 0 := by
  decide +kernel
theorem witness_CollIssue_fits : recordFits (teamCl []) wInt 0 (recC (pSelf 1 0 0) 9) = true ∧ operatorFits wInt 0 5 (recC (pSelf 1 0 0) 9) = true ∧ recordFits (teamCl []) wInt 1 (recC (pSelf 3 2 0) 9) = true ∧ rowsOf (tileWord (teamCl []) 0) % 3 ≠ 0
    ∧ stGet 0 (teamCl []).tcfg 0 = wInt := by decide +kernel
theorem witness_CollIssue_word : onePiece (sCl (recC (pSelf 1 0 0) 9) .barrier 0 [] fab0 0) ((sCl (recC (pSelf 1 0 0) 9) .barrier 0 [] fab0 0).whoOf 0 gCl) 0x22000 8 .atom 0x22000 0x22000
    ∧ (sCl (recC (pSelf 1 0 0) 9) .barrier 0 [] fab0 0).mem.live 0x22000 = some .barrier ∧ (sCl (recC (pSelf 1 0 0) 9) .counter 0 [] fab0 0).mem.live 0x22000 ≠ some .barrier := ⟨one_of (by decide +kernel), by decide, by decide⟩
theorem test_coll : let t := nextOf (exec (.coll 5 6 5 0 0) (sCl (recC (pSelf 1 0 0) 9) .barrier 0 [] fab0 0)); ((t.team 0).map fun x => x.colls.map fun c => (c.tile, c.joined.length, c.started)) = some [(0, 1, false)] ∧ (t.group 0).map (·.async.tiles) = some 4095 := by
  decide +kernel
def trapC (i : Instr) (b : List Byte) (k : SyncKind) : Option Bool := ((nextOf (exec i (sCl b k 0 [] fab0 0))).group 0).map (·.ctl.stopped)
theorem test_coll_checks : [trapC (.coll 5 6 5 0 5) (recC (pSelf 1 0 0) 9) .barrier, trapC (.coll 7 6 5 0 0) (recC (pSelf 1 0 0) 9) .barrier, trapC (.coll 5 9 5 0 0) (recC (pSelf 1 0 0) 9) .barrier, trapC (.coll 8 6 5 0 0) (recC (pSelf 1 0 0) 9) .barrier,
    trapC (.coll 5 6 5 0 0) (recC (pSelf 2 2 0) 9) .barrier, trapC (.coll 5 6 0 0 0) (recC (pSelf 1 0 0) 9) .barrier, trapC (.coll 5 6 5 0 0) (recC (pSelf 1 0 0) 9) .counter] = [some true, some true, some true, some true, some true, some true, some true] := by
  decide +kernel
/-- The collective of the group on tile 0: number 1, with an outcome or none. -/
def coll0 (alg : Nat) (out : Option CollOut) : Collective :=
  { mkColl 0 0 5 (recC (pSelf 2 1 alg) 9) 0x80000 0x22000 with joined := [(0, ())], started := true, begun := true, num := 1, own := [1, 2, 3, 4], since := 100, out := out, round := 0xFFFF,
                                                                comb := some ([1, 2, 3, 4], false), members := [2 ^ 63 + 7 * 2 ^ 43, 2 ^ 63 + 9 * 2 ^ 43] }
def outDone : CollOut := { status := 1, count := 2, nan := true, rerun := false, words := [some 11, none, some 13, some 14] }
/-- A barrier word: one arrival expected and pending. -/
def word1 : Nat := 1 * 2 ^ 48 + 1 * 2 ^ 33
theorem witness_CollCompletion (f : Fabric) (o : Option CollOut) (n : Nat) : (sCl (recC (pSelf 2 1 0) 9) .barrier word1 [coll0 0 o] f n).team 0 = some (teamCl [coll0 0 o]) ∧ (teamCl [coll0 0 o]).colls = [coll0 0 o] ∧ (coll0 0 o).out = o ∧ (coll0 0 o).begun = true := ⟨rfl, rfl, rfl, rfl⟩
theorem witness_CollCompletion_busy : (∃ x ∈ ({ fab0 with tickets := [(44, tick (.coll 0))] } : Fabric).tickets, x.2.owner = .coll 0) ∧ outDone.status = 1 ∧ ∀ x ∈ fab0.tickets, x.2.owner ≠ .coll 0 := ⟨⟨_, List.mem_cons_self .., rfl⟩, rfl, by decide⟩
def sCd : State := sCl (recC (pSelf 2 1 0) 9) .barrier word1 [coll0 0 (some outDone)] fab0 0
theorem witness_CollCompletion_done : sCd.devRead 0 0x80000 64 = some (recC (pSelf 2 1 0) 9) ∧ (0x22000 % 8 = 0) ∧ (coll0 0 none).op ≠ 1 ∧ (coll0 0 none).tile < 16 ∧ amWf (teamCl []).groups = true ∧ outDone.words.length ≤ rowsOf (tileWord (teamCl []) 0) * colsOf (tileWord (teamCl []) 0)
    ∧ barrierWord false 1 1 0 = BitVec.ofNat 64 word1 ∧ 0 < 1 ∧ (∀ x ∈ sCd.groups, ∀ y ∈ x.2.splits, y.2.status = .ready) := by decide +kernel
theorem witness_CollCompletion_word : let s1 := ((sCd.devWrite 0 (0x80000 + 28) (bytesOf 2 (BitVec.ofNat 16 (field (recC (pSelf 2 1 0) 9) 28 2) + 1 : Half).toNat)).devWrite 0 (0x80000 + 48) (bytesOf 8 (1 + 256 + 0 + 2 * 2 ^ 16))).devWrite 0 (0x80000 + 56) (bytesOf 8 1)
    s1.wordPA 0 0x22000 .atom = some 0x22000 ∧ s1.mem.live 0x22000 = some .barrier ∧ s1.mem.cu = [] ∧ s1.wordAt 0x22000 = barrierWord false 1 1 0 := by decide +kernel
theorem test_coll_complete : let t := nextOf (exec (.collectiveComplete 0) sCd); ((t.team 0).map fun x => (x.colls.length, tileElem x 0 0 0, tileElem x 0 0 1)) = some (0, 11, 2) ∧ t.mem.num 0x80030 8 = 0x20101 ∧ t.mem.num 0x8001C 2 = 0 ∧ t.wordAt 0x22000 = barrierWord true 1 1 0
    ∧ (t.group 0).map (·.async.tiles) = some 4093 := by decide +kernel
theorem witness_CollCompletion_timer : (if field (coll0 0 none).record 24 2 = 0 then 20 else field (coll0 0 none).record 24 2) = 5 ∧ bits (field (coll0 0 none).record 0 8) 0 2 ≠ 2 ∧ (coll0 0 none).since + 1800 * 5 = 9100 := by decide +kernel
theorem test_coll_timeout : (((nextOf (exec (.collectiveTimeout 0) (sCl [] .barrier 0 [coll0 0 none] fab0 9100))).team 0).bind fun t => t.colls.head?.bind fun c => c.out.map (·.status)) = some 6
    ∧ (((nextOf (exec (.collectiveTimeout 0) (sCl [] .barrier 0 [coll0 0 none] fab0 9099))).team 0).map fun t => t.colls.map (·.out)) = some [none] := by decide +kernel
/-- A contribution of this device's own leader 0, of slice 0 of round 5. -/
def con0 (leaders : Nat) (round : Half) (slice leader : Nat) : CellContrib :=
  { leader := leader, round := round, leaders := leaders, op := 5, opx := 0, int := true, slice := slice, timer := 5, words := [1, 0xFFFFFFFF], source := 9, ticket := 44 }
def cell0 : CellState := { round := 5, slice := 0, leaders := 3, since := 100, timer := 5, got := [con0 3 5 0 0] }
def sCe (cells : AMap CellState) (n : Nat) : State := sCl [] .barrier 0 [coll0 2 none] { fab0 with tickets := [(44, tick (.coll 0))], cells := cells } n
theorem witness_ReductionCells (cells : AMap CellState) (n : Nat) : (con0 3 5 0 1).source = (sCe cells n).dev.rank ∧ amGet (sCe cells n).fabric.tickets (con0 3 5 0 1).ticket = some (tick (.coll 0)) ∧ nsHas (sCe cells n).dev.cells (1 * 256 + 3) = true
    ∧ nsHas (sCe cells n).dev.cells (1 * 256 + 4) = false := ⟨rfl, rfl, rfl, rfl⟩
theorem witness_ReductionCells_open : amGet (sCe [(259, cell0)] 0).fabric.cells (1 * 256 + 3) = some cell0 ∧ 2 ^ 15 ≤ ((con0 3 4 0 1).round - cell0.round).toNat ∧ cell0.got ≠ [] ∧ (con0 3 5 1 1).round = cell0.round ∧ cell0.slice ≠ (con0 3 5 1 1).slice
    ∧ (∀ y ∈ cell0.got, y.leader ≠ (con0 3 5 0 1).leader) ∧ cell0.got.length + 1 < cell0.leaders ∧ cell0.since + cell0.timer * 1800 = 9100 ∧ cell0.got = [con0 3 5 0 0] ∧ (∀ c ∈ cell0.got, c.op = 5 ∧ c.opx = 0 ∧ c.words.length = 2) := by decide
theorem test_contribution : let t := nextOf (exec (.cellContribution 1 3 (con0 3 5 0 1)) (sCe [(259, cell0)] 0)); ((amGet t.fabric.cells 259).map fun x => x.got.length) = some 2
    ∧ (nextOf (exec (.cellContribution 1 4 (con0 3 5 0 1)) (sCe [] 0))).sched.wake = [.event (.cellAnswer 0 0 .lost)] ∧ (nextOf (exec (.cellContribution 1 3 (con0 3 4 0 1)) (sCe [(259, cell0)] 0))).sched.wake = [.event (.cellAnswer 0 0 .closed)] := by
  decide +kernel
theorem test_cell_timer : let t := nextOf (exec (.cellTimerExpiry 1 3) (sCe [(259, cell0)] 9100)); ((amGet t.fabric.cells 259).map fun x => (x.round, x.got.length)) = some (6, 0) ∧ t.sched.wake = [.event (.cellAnswer 0 0 (.short [1, 0xFFFFFFFF] 1 false))]
    ∧ (nextOf (exec (.cellTimerExpiry 1 3) (sCe [(259, cell0)] 9099))).sched.wake = [] := by decide +kernel
theorem test_cell_fold : (cellFold [con0 2 5 0 1, con0 2 5 0 0]).1 = [2, 0xFFFFFFFE] := by decide +kernel
/-- The leader's side: slice 0 is in its cell, or waits to be sent again. -/
def collS (sent resend rerun : AMap Nat) : Collective := { coll0 2 none with record := recC (pSelf 2 1 2) 9, sent := sent, resend := resend, rerun := rerun }
def sLd (sent resend rerun : AMap Nat) (n : Nat) : State := sCl [] .barrier 0 [collS sent resend rerun] { fab0 with tickets := [(44, tick (.coll 0))] } n
theorem witness_ReductionCells_leader : (sLd [(0, 100)] [] [] 0).team 0 = some (teamCl [collS [(0, 100)] [] []]) ∧ (collS [(0, 100)] [] []).begun = true ∧ (collS [(0, 100)] [] []).out = none ∧ amGet (collS [(0, 100)] [] []).sent 0 ≠ none ∧ amGet (collS [(0, 100)] [] []).sent 1 = none
    ∧ amGet (collS [] [(0, 50)] []).resend 0 = some 50 ∧ bits (field (collS [] [(0, 50)] []).record 16 8) 0 20 = (sLd [] [(0, 50)] [] 0).dev.rank ∧ (if field (collS [] [] []).record 24 2 = 0 then 20 else field (collS [] [] []).record 24 2) = 5
    ∧ amGet (collS [(0, 100)] [] []).rerun 0 = none ∧ amGet (collS [(0, 100)] [] []).answers 0 = none ∧ (∀ x ∈ (collS [(0, 100)] [] []).sent, 18099 < x.2 + 3600 * 5) := ⟨rfl, rfl, rfl, by decide, by decide, by decide, by decide +kernel, by decide +kernel, rfl, rfl, by decide⟩
def collOf (t : State) : Collective := ((t.team 0).bind fun x => x.colls.head?).getD (coll0 0 none)
theorem test_cell_answers : (collOf (nextOf (exec (.cellAnswer 0 0 .busy) (sLd [(0, 100)] [] [] 7)))).resend = [(0, 1807)] ∧ (collOf (nextOf (exec (.cellAnswer 0 0 (.result [5] 2 false)) (sLd [(0, 100)] [] [] 7)))).answers = [(0, .result [5] 2 false)]
    ∧ (collOf (nextOf (exec (.cellAnswer 0 1 .busy) (sLd [(0, 100)] [] [] 7)))).sent = [(0, 100)] := by decide +kernel
theorem test_cell_reruns : (collOf (nextOf (exec (.cellLostRerun 0) (sLd [(0, 100)] [] [] 18100)))).rerun = [(0, 18100)] ∧ (collOf (nextOf (exec (.cellLostRerun 0) (sLd [(0, 100)] [] [] 18099)))).rerun = []
    ∧ (collOf (nextOf (exec (.cellBusyResend 0 0) (sLd [] [(0, 50)] [] 50)))).sent = [(0, 50)] ∧ (collOf (nextOf (exec (.cellBusyResend 0 0) (sLd [] [(0, 50)] [] 49)))).sent = [] := by decide +kernel

/-! ### The step -/

/-- Group 0's split 0 at 0x100 has the turn, in a slot of the given state that holds the bytes of a word; `x3` is owed where asked. -/
def sSt (w : Word) (st : SlotState) (fell : Bool) (owed : NSet) : State :=
  { mk { g0 with splits := [(0, { sp0 with fell := fell })], async := { g0.async with owed := owed } } with
    cores := [(0, { core0 with codeSlots := [(0, { CodeSlot.fresh with state := st })], imem := cellsAt 0x100 (leBytes 4 w.toNat) })], sched := { State.reset.sched with agenda := [.scalar 0 0 0] } }
/-- `sub s3, s4, s5` as a word. -/
def wSub : Word := 0b000001_00011_00100_00101_000_000_00001#32
def gSt (fell : Bool) (owed : NSet) : Group := { g0 with splits := [(0, { sp0 with fell := fell })], async := { g0.async with owed := owed } }
theorem witness_StepRunsDecoded (st : SlotState) (owed : NSet) (w : Word) : (sSt w st false owed).sched.agenda = [.scalar 0 0 0] ∧ MayFetch (sSt w st false owed) 0 0 0 (gSt false owed) { sp0 with fell := false } st :=
  ⟨rfl, { isGroup := rfl, isSplit := rfl, issues := rfl, may := rfl, notFell := rfl, inside := by decide, aligned := by decide, slotState := rfl }⟩
theorem witness_StepRunsDecoded_word : (decodeScalarBytes (((sSt wSub .landed false []).core 0).codeBytes sp0.pc.toNat 4)).toOption = some (.sub 3 4 5) ∧ (gSt false []).scalarReady 0 (.sub 3 4 5) = true ∧ isScalarMem (.sub 3 4 5) = false
    ∧ (gSt false [(3, ())]).scalarReady 0 (.sub 3 4 5) = false ∧ (decodeScalarBytes (((sSt 0xE4000000 .landed false []).core 0).codeBytes sp0.pc.toNat 4)).toOption = none := by decide +kernel
theorem witness_StepRunsDecoded_fell : (sSt wSub .landed true []).group (gkey 0 0) = some (gSt true []) ∧ (gSt true []).splitMay 0 = true ∧ ({ sp0 with fell := true } : Split).fell = true ∧ (sSt wSub .landed true []).dev.tripped = false := ⟨rfl, rfl, rfl, rfl⟩
theorem test_step : let t := nextOf (step (sSt wSub .landed false [])); t.now = 1 ∧ ((t.group 0).bind fun g => (g.split 0).map fun sp => (sp.reg 3, sp.pc)) = some (0xFFFFFFFFFFFFFFFF, 0x104) := by decide +kernel
theorem test_step_waits : ((nextOf (step (sSt wSub .landed false [(3, ())]))).group 0).bind (fun g => (g.split 0).map (·.pc)) = some 0x100 ∧ ((nextOf (step (sSt wSub .loading false []))).group 0).bind (fun g => (g.split 0).map (·.pc)) = some 0x100 := by decide +kernel
theorem test_step_traps : ((nextOf (step (sSt 0xE4000000 .landed false []))).group 0).map (·.ctl.stopped) = some true ∧ ((nextOf (step (sSt wSub .empty false []))).group 0).map (·.ctl.fault.isSome) = some true
    ∧ ((nextOf (step (sSt wSub .landed true []))).group 0).map (·.ctl.stopped) = some true := by decide +kernel
/-- The group with an entry of the given bits at the head of its queue. -/
def gLn (x : LWord) : Group := { g0 with async := { g0.async with laneq := [{ e0 with bits := x }] } }
/-- The lane turn is the group's. -/
def sLn (x : LWord) : State := { mk (gLn x) with sched := { State.reset.sched with agenda := [.lane 0 0] } }
def lwAdd : LWord := 0b00000000000000000000000000000000_0000000_000_0_1100_1100_000_000_0000000_0001000000_0000001_0000010_0000011_0#96
theorem witness_StepRunsDecoded_lane (x : LWord) : (sLn x).sched.agenda = [.lane 0 0] ∧ (sLn x).group (gkey 0 0) = some (gLn x) ∧ (sLn x).dev.tripped = false
    ∧ (gLn x).running = true := ⟨rfl, rfl, rfl, rfl⟩
theorem witness_StepRunsDecoded_lanes : (decodeLane lwAdd).toOption.isSome = true ∧ (atTurn (sLn lwAdd) [] 0 0 0).laneMay 0 0 (gLn lwAdd) = true ∧ (decodeLane 1).toOption = none := by decide +kernel
theorem test_lane_step : ((nextOf (step (sLn lwAdd))).group 0).map (·.async.laneq.length) = some 0 ∧ ((nextOf (step (sLn 1))).group 0).map (·.ctl.stopped) = some true := by decide +kernel
/-- An instruction placed as the first after reset is the one that runs. -/
theorem test_first_instruction : ((nextOf (step (State.reset.withFetchWord 32 0b000010_00111_00000_0000000000000101))).group 0).bind (fun g => (g.split 0).map fun sp => (sp.reg 7, sp.pc)) = some (5, 4) := by decide +kernel
theorem witness_DecodeEncode : encode (.sub 3 4 5) = some (.inl wSub) ∧ ((decodeLane lwAdd).toOption.map fun i => encode i == some (.inr lwAdd)) = some true := ⟨rfl, by decide +kernel⟩
theorem witness_WordsHaveOneMeaning : decodeScalar wSub = .ok (.sub 3 4 5) ∧ encode (.sub 3 4 5) = some (.inl wSub) ∧ encode (.sub 3 4 5) ≠ none ∧ ((decodeLane lwAdd).toOption.map fun i => encode i == some (.inr lwAdd)) = some true := by
  refine ⟨rfl, rfl, ?_, by decide +kernel⟩
  intro h
  cases h
theorem witness_StepKeepsMemoryForm : (sSt wSub .landed false []).mem.wf = true ∧ (∃ t, step (sSt wSub .landed false []) = .next t) := ⟨rfl, _, rfl⟩

end Sys2Proof.Tests
end

section
/-! PROOFS. Decoding gives back the instruction whose word the encoder writes, from the word, from its bytes in memory, and under the
opcode table's numbering of the bits (R5, R9, R14). -/

namespace Sys2Proof.Laws

/-! ### Little-endian bytes (R5) -/

theorem leNat_leBytes (k n : Nat) : leNat (leBytes k n) = n % 256 ^ k := by
  induction k generalizing n with
  | zero => simp [leBytes, leNat, Nat.mod_one]
  | succ k ih => rw [leBytes, leNat, ih, BitVec.toNat_ofNat, Nat.pow_succ' (n := k), Nat.mod_mul (x := n)]

/-- The bytes of a word of `k` bytes read back as the word. -/
theorem ofNat_leNat_leBytes {k n : Nat} (w : BitVec n) (h : 256 ^ k = 2 ^ n) :
    BitVec.ofNat n (leNat ((leBytes k w.toNat).take k)) = w := by
  rw [List.take_of_length_le (Nat.le_of_eq (Machine.leBytes_length k _)), leNat_leBytes, h, Nat.mod_eq_of_lt w.isLt, BitVec.ofNat_toNat,
    BitVec.setWidth_eq]

/-! ### The bytes of a word decode as the word -/

@[simp] theorem decodeScalarBytes_leBytes (w : Word) : decodeScalarBytes (leBytes 4 w.toNat) = decodeScalar w := by
  rw [decodeScalarBytes, Machine.leBytes_length, if_neg (by decide), ofNat_leNat_leBytes w (by decide)]

@[simp] theorem decodeLaneBytes_leBytes (w : LWord) : decodeLaneBytes (leBytes 12 w.toNat) = decodeLane w := by
  rw [decodeLaneBytes, Machine.leBytes_length, if_neg (by decide), ofNat_leNat_leBytes w (by decide)]

theorem decodeTableWord_scalar {w : Word} {i : Instr} (h : decodeScalar w = .ok i) : decodeTableWord 32 w.toNat = some i := by
  simp [decodeTableWord, Nat.mod_eq_of_lt w.isLt, h]

theorem decodeTableWord_lane {w : LWord} {i : Instr} (h : decodeLane w = .ok i) : decodeTableWord 96 w.toNat = some i := by
  simp [decodeTableWord, Nat.mod_eq_of_lt w.isLt, h]

end Sys2Proof.Laws

namespace Sys2Proof.Laws.Codes

/-- The per-instruction facts put together: a scalar instruction by the lemma about its word's fields (R11 to R13), a lane instruction
by its opcode (R19); what is left are events, which have no word. -/
theorem decodeWord_encode (i : Instr) : Statement i := by
  cases i with
  | trap => apply trap | brk => apply brk | sleep => apply sleep | csrr => apply csrr | csrw => apply csrw | add => apply add
  | sub => apply sub | mul => apply mul | mulh => apply mulh | mulhn => apply mulhn | div => apply div | divn => apply divn
  | rem => apply rem | remn => apply remn | and => apply and | or => apply or | xor => apply xor | shl => apply shl | shr => apply shr
  | sar => apply sar | slt => apply slt | sltn => apply sltn | seq => apply seq | min => apply min | max => apply max | minn => apply minn
  | maxn => apply maxn | sel => apply sel | addi => apply addi | andi => apply andi | ori => apply ori | xori => apply xori
  | shli => apply shli | shri => apply shri | sari => apply sari | slti => apply slti | lui => apply lui | shlor => apply shlor
  | lds => apply lds | ldw => apply ldw | sts => apply sts | stw => apply stw | satom => apply satom | scas => apply scas | beq => apply beq
  | bne => apply bne | blt => apply blt | bge => apply bge | bltn => apply bltn | bgen => apply bgen | bct => apply bct | bcf => apply bcf
  | jal => apply jal | jalr => apply jalr | jmpf => apply jmpf | call => apply call | ret => apply ret | lrun => apply lrun
  | lset => apply lset | brv => apply brv | jmpv => apply jmpv | join => apply join | regroup => apply regroup | waitc => apply waitc
  | waitt => apply waitt | yieldt => apply yieldt | qpush => apply qpush | qpop => apply qpop | fence => apply fence
  | syncinit => apply syncinit | syncfree => apply syncfree | arrive => apply arrive | bwait => apply bwait | waittl => apply waittl
  | spawn => apply spawn | cfetch => apply cfetch | pin => apply pin | unpin => apply unpin | wspill => apply wspill | wfill => apply wfill
  | copy => apply copy | tcopy => apply tcopy | gcopy => apply gcopy | coll => apply coll | tcfg => apply tcfg | tzero => apply tzero
  | tld => apply tld | tst => apply tst | mfence => apply mfence | mloop => apply mloop | rktbl => apply rktbl | rkenc => apply rkenc
  | rkmm => apply rkmm | rkval => apply rkval | ptnext => apply ptnext | ptdone => apply ptdone | rcap => apply rcap | nop => apply nop
  | eret => apply eret | exit => apply exit | bar => apply bar | rfence => apply rfence | rrev => apply rrev
  | iadd | isub | imul | imulh | imad | idiv | irem | imin | imax | iabs | ineg | laneAnd | laneOr | laneXor | andn
  | laneNot | laneShl | laneShr | laneSar | rot | clz | popc | brev | bfx | bfi | icmp | laneSel | mov | fadd | fsub
  | fmul | fma | fmin | fmax | fabs | fneg | fcmp | frcp | frsq | fsqrt | fexp2 | flog2 | fsinpi | fcospi | fscale
  | fclass | frint | fdiv | hadd2 | hmul2 | hfma2 | idot4 | idot2 | cvt | cvtp | cvtx | bpenc | bpdec | pand | por
  | pxor | pnot | lkill | ld | st | ldt | stt | atom | cas | lda | str | pref | shfl | vote | redl | scan | xshfl
  | rarm | rput | rclr =>
    exact lane_of rfl rfl (by decide) rfl
  | _ => exact none_of rfl

/-- Settles O54: every word decodes to its instruction (`decodeWord_encode`), and bytes and table numbers decode as their word. -/
theorem decodeEncode : Obligations.DecodeEncode := fun i =>
  ⟨fun w h => by
    have hw : decodeScalar w = .ok i := decodeWord_encode i _ h
    exact ⟨by rw [decodeScalarBytes_leBytes, hw], decodeTableWord_scalar hw⟩,
  fun w h => by
    have hw : decodeLane w = .ok i := decodeWord_encode i _ h
    exact ⟨by rw [decodeLaneBytes_leBytes, hw], decodeTableWord_lane hw⟩⟩

end Sys2Proof.Laws.Codes
end
